-- ==== Sys2Proof/Word.lean ====
section
/-! DEFINITION. The machine's word type and its plainest arithmetic (R4: a byte is 8 bits, words are little-endian). -/

namespace Sys2Proof

/-- A scalar register, address or CSR image (R173). -/
abbrev Word := BitVec 64

/-- One byte. -/
abbrev Byte := BitVec 8

/-- One 32-bit element of a vector register or accumulator row (R205). -/
abbrev Elem := BitVec 32

end Sys2Proof
end

