-- ==== Sys2Proof/Config.lean ====
section
/-! DEFINITION. What an implementation fixes and the free values: constants with no body, of which no proof can know a
value (log 10). -/

namespace Sys2Proof.Config

/-- Tiles of a compute die (R2, R473). -/
def tilesPerDie : Nat := 128

/-- Slices of a compute die (R58). -/
def slicesPerDie : Nat := 64

/-- A value that the spec leaves open, fresh for each count. -/
opaque freeWord : Nat → BitVec 64

/-- What the random bit generator of the seal engine draws for a world, by the count of draws: two XTS keys and the integrity key
(R500). -/
opaque worldKey : Nat → BitVec 768

/-- The key that the training of a port agrees with its peer, by the count of draws (R509). -/
opaque linkKey : Nat → BitVec 256

/-- A byte of a flit's ciphertext, by the port's key, a count, and the payload (R509: AES-256-GCM, whose nonces the spec does not
give). -/
opaque flitByte : BitVec 256 → Nat → List (BitVec 8) → Nat → BitVec 8

/-- What a weight cell reads as that the checks of R330 do not look at: one of the second slot of a 16-bit tile, of which R330
checks the first alone, by slot, row and column. -/
opaque strayWeight : Nat → Nat → Nat → BitVec 16

/-- The generation that a decode image must name (R109). -/
opaque generation : Nat

/-- The size of a migration image, and its bytes (R481: the layout belongs to the generation). -/
opaque imageSize : Nat → Nat
opaque imageByte : Nat → Nat → BitVec 8

/-- The identity public root and seed, 64 bytes (R511, R514). -/
opaque idKeyByte : Nat → BitVec 8

/-- A byte of the XMSS signature of a message made with a leaf (R510, R511). -/
opaque sigByte : Nat → List (BitVec 8) → Nat → BitVec 8


end Sys2Proof.Config
end

