-- ==== Sys2Proof/Syntax.lean ====
section
/-! DEFINITION. The instruction set as syntax: one constructor for each row of spec/opcode_table.json.
The first 236 are instruction words (R84, R97), the six prefixes of engine 7 among them (R90); their arguments are the
operand fields of the word, high to low, under the table's names. The other 90 are device events, which have no
encoding; their arguments say on what the event acts. -/

namespace Sys2Proof

/-- A 6-bit register operand field as it stands in the word (R85, R86); `WellFormed` holds it to its class (R88). -/
abbrev Reg := BitVec 6

/-- The words and events of the RM-4. -/
inductive Instr where
  | add (d : Reg) (a : Reg) (b : Reg)  -- add, R175
  | sub (d : Reg) (a : Reg) (b : Reg)  -- sub, R175
  | and (d : Reg) (a : Reg) (b : Reg)  -- and, R175
  | or (d : Reg) (a : Reg) (b : Reg)  -- or, R175
  | xor (d : Reg) (a : Reg) (b : Reg)  -- xor, R175
  | sll (d : Reg) (a : Reg) (b : Reg)  -- sll, R175
  | srl (d : Reg) (a : Reg) (b : Reg)  -- srl, R175
  | sra (d : Reg) (a : Reg) (b : Reg)  -- sra, R175
  | slt (d : Reg) (a : Reg) (b : Reg)  -- slt, R175
  | sltu (d : Reg) (a : Reg) (b : Reg)  -- sltu, R175
  | mul (d : Reg) (a : Reg) (b : Reg)  -- mul, R175
  | mulh (d : Reg) (a : Reg) (b : Reg)  -- mulh, R175
  | mulhu (d : Reg) (a : Reg) (b : Reg)  -- mulhu, R175
  | div (d : Reg) (a : Reg) (b : Reg)  -- div, R175
  | divu (d : Reg) (a : Reg) (b : Reg)  -- divu, R175
  | rem (d : Reg) (a : Reg) (b : Reg)  -- rem, R175
  | remu (d : Reg) (a : Reg) (b : Reg)  -- remu, R175
  | min (d : Reg) (a : Reg) (b : Reg)  -- min, R175
  | max (d : Reg) (a : Reg) (b : Reg)  -- max, R175
  | clz (d : Reg) (a : Reg)  -- clz, R176
  | ctz (d : Reg) (a : Reg)  -- ctz, R176
  | cmov (d : Reg) (a : Reg) (b : Reg)  -- cmov, R176
  | addi (d : Reg) (a : Reg) (i : BitVec 10)  -- addi, R177
  | andi (d : Reg) (a : Reg) (i : BitVec 10)  -- andi, R177
  | ori (d : Reg) (a : Reg) (i : BitVec 10)  -- ori, R177
  | xori (d : Reg) (a : Reg) (i : BitVec 10)  -- xori, R177
  | slli (d : Reg) (a : Reg) (i : BitVec 10)  -- slli, R177
  | srli (d : Reg) (a : Reg) (i : BitVec 10)  -- srli, R177
  | srai (d : Reg) (a : Reg) (i : BitVec 10)  -- srai, R177
  | li (d : Reg) (i : BitVec 16)  -- li, R178
  | lui (d : Reg) (i : BitVec 16)  -- lui, R178
  | auipc (d : Reg) (i : BitVec 16)  -- auipc, R178
  | ldB (d : Reg) (a : Reg) (i : BitVec 10)  -- ld.b, R179
  | ldH (d : Reg) (a : Reg) (i : BitVec 10)  -- ld.h, R179
  | ldW (d : Reg) (a : Reg) (i : BitVec 10)  -- ld.w, R179
  | ldD (d : Reg) (a : Reg) (i : BitVec 10)  -- ld.d, R179
  | ldBu (d : Reg) (a : Reg) (i : BitVec 10)  -- ld.bu, R179
  | ldHu (d : Reg) (a : Reg) (i : BitVec 10)  -- ld.hu, R179
  | ldWu (d : Reg) (a : Reg) (i : BitVec 10)  -- ld.wu, R179
  | stB (b : Reg) (a : Reg) (i : BitVec 10)  -- st.b, R179
  | stH (b : Reg) (a : Reg) (i : BitVec 10)  -- st.h, R179
  | stW (b : Reg) (a : Reg) (i : BitVec 10)  -- st.w, R179
  | stD (b : Reg) (a : Reg) (i : BitVec 10)  -- st.d, R179
  | ldsW (d : Reg) (a : Reg) (i : BitVec 10)  -- lds.w, R181
  | ldsD (d : Reg) (a : Reg) (i : BitVec 10)  -- lds.d, R181
  | stsW (b : Reg) (a : Reg) (i : BitVec 10)  -- sts.w, R181
  | stsD (b : Reg) (a : Reg) (i : BitVec 10)  -- sts.d, R181
  | beq (a : Reg) (b : Reg) (o : BitVec 10)  -- beq, R182
  | bne (a : Reg) (b : Reg) (o : BitVec 10)  -- bne, R182
  | blt (a : Reg) (b : Reg) (o : BitVec 10)  -- blt, R182
  | bge (a : Reg) (b : Reg) (o : BitVec 10)  -- bge, R182
  | bltu (a : Reg) (b : Reg) (o : BitVec 10)  -- bltu, R182
  | bgeu (a : Reg) (b : Reg) (o : BitVec 10)  -- bgeu, R182
  | j (o : BitVec 22)  -- j, R183
  | call (o : BitVec 22)  -- call, R183
  | jr (a : Reg)  -- jr, R183
  | calli (d : Reg) (a : Reg) (i : BitVec 10)  -- calli, R183
  | endStrand  -- end, R184
  | brk (i : BitVec 10)  -- brk, R185
  | tret  -- tret, R202
  | csrr (d : Reg) (c : BitVec 10)  -- csrr, R186
  | csrw (d : Reg) (a : Reg) (c : BitVec 10)  -- csrw, R186
  | csrs (d : Reg) (a : Reg) (c : BitVec 10)  -- csrs, R186
  | csrc (d : Reg) (a : Reg) (c : BitVec 10)  -- csrc, R186
  | rdw (d : Reg) (a : Reg)  -- rdw, R192
  | phOpen (s : BitVec 3)  -- ph.open, R188
  | phClose (s : BitVec 3)  -- ph.close, R188
  | ph (s : BitVec 3)  -- ph, R188
  | fenceSc (s : BitVec 3)  -- fence.sc, R73
  | qjoin (m : BitVec 8)  -- qjoin, R78
  | ifence  -- ifence, R82
  | rbind (a : Reg) (h : Reg)  -- rbind, R33
  | rwe (d : Reg) (a : Reg) (h : Reg) (i : BitVec 4)  -- rwe, R34
  | rwf (d : Reg) (a : Reg) (h : Reg) (i : BitVec 4)  -- rwf, R34
  | radvT (a : Reg) (h : Reg) (i : BitVec 4)  -- radv.t, R34
  | radvH (a : Reg) (h : Reg) (i : BitVec 4)  -- radv.h, R34
  | barInit (g : Reg) (a : Reg) (b : Reg)  -- bar.init, R193
  | barArr (d : Reg) (a : Reg) (h : Reg) (i : BitVec 4)  -- bar.arr, R193
  | barExp (a : Reg) (h : Reg) (i : BitVec 4)  -- bar.exp, R193
  | barWait (d : Reg) (h : Reg) (i : BitVec 4)  -- bar.wait, R193
  | tlbiVa (a : Reg) (b : Reg)  -- tlbi.va, R194
  | tlbiCtx (a : Reg)  -- tlbi.ctx, R194
  | tlbiAll  -- tlbi.all, R194
  | xlat (d : Reg) (a : Reg) (b : Reg)  -- xlat, R194
  | slKeyNew (d : Reg) (a : Reg) (b : Reg)  -- sl.key.new, R503
  | slKeyKill (d : Reg) (a : Reg)  -- sl.key.kill, R503
  | slMeas (d : Reg) (a : Reg) (b : Reg)  -- sl.meas, R513
  | slMeasRd (d : Reg) (a : Reg) (b : Reg)  -- sl.meas.rd, R513
  | slRep (d : Reg) (a : Reg) (b : Reg)  -- sl.rep, R514
  | xImm (h : BitVec 22)  -- x.imm, R91
  | xCap (a : Reg) (b : Reg) (c : Reg)  -- x.cap, R92
  | xRnd (m : BitVec 3)  -- x.rnd, R93
  | xPm (z : Bool) (n : Bool) (p : Reg)  -- x.pm, R94
  | xOrd (o : BitVec 2) (s : BitVec 3)  -- x.ord, R95
  | xHint (h : BitVec 4)  -- x.hint, R96
  | vLd (x : Reg) (y : Reg) (z : Reg) (c : Bool)  -- v.ld, R213
  | vSt (x : Reg) (y : Reg) (z : Reg) (c : Bool)  -- v.st, R213
  | vLds (x : Reg) (y : Reg) (z : Reg) (c : Bool)  -- v.lds, R215
  | vSts (x : Reg) (y : Reg) (z : Reg) (c : Bool)  -- v.sts, R215
  | vLdh (x : Reg) (y : Reg) (z : Reg) (m : Bool) (c : Bool)  -- v.ldh, R216
  | vSth (x : Reg) (y : Reg) (z : Reg) (m : Bool) (c : Bool)  -- v.sth, R216
  | vMov (x : Reg) (y : Reg) (c : Bool)  -- v.mov, R219
  | vBcs (x : Reg) (y : Reg) (c : Bool)  -- v.bcs, R219
  | vIota (x : Reg) (y : Reg) (i : BitVec 9) (c : Bool)  -- v.iota, R219
  | vPset (x : Reg) (y : Reg) (i : BitVec 9) (c : Bool)  -- v.pset, R219
  | vAdd (x : Reg) (y : Reg) (z : Reg) (c : Bool)  -- v.add, R220
  | vSub (x : Reg) (y : Reg) (z : Reg) (c : Bool)  -- v.sub, R220
  | vMul (x : Reg) (y : Reg) (z : Reg) (c : Bool)  -- v.mul, R220
  | vFma (x : Reg) (y : Reg) (z : Reg) (m : BitVec 2) (c : Bool)  -- v.fma, R220
  | vMin (x : Reg) (y : Reg) (z : Reg) (c : Bool)  -- v.min, R220
  | vMax (x : Reg) (y : Reg) (z : Reg) (c : Bool)  -- v.max, R220
  | vAbs (x : Reg) (y : Reg) (c : Bool)  -- v.abs, R220
  | vNeg (x : Reg) (y : Reg) (c : Bool)  -- v.neg, R220
  | vIadd (x : Reg) (y : Reg) (z : Reg) (c : Bool)  -- v.iadd, R221
  | vIsub (x : Reg) (y : Reg) (z : Reg) (c : Bool)  -- v.isub, R221
  | vImul (x : Reg) (y : Reg) (z : Reg) (m : Bool) (c : Bool)  -- v.imul, R221
  | vImulw (x : Reg) (y : Reg) (z : Reg) (m : Bool) (c : Bool)  -- v.imulw, R221
  | vAnd (x : Reg) (y : Reg) (z : Reg) (c : Bool)  -- v.and, R221
  | vOr (x : Reg) (y : Reg) (z : Reg) (c : Bool)  -- v.or, R221
  | vXor (x : Reg) (y : Reg) (z : Reg) (c : Bool)  -- v.xor, R221
  | vNot (x : Reg) (y : Reg) (c : Bool)  -- v.not, R221
  | vShl (x : Reg) (y : Reg) (z : Reg) (c : Bool)  -- v.shl, R221
  | vShr (x : Reg) (y : Reg) (z : Reg) (c : Bool)  -- v.shr, R221
  | vSha (x : Reg) (y : Reg) (z : Reg) (c : Bool)  -- v.sha, R221
  | vImin (x : Reg) (y : Reg) (z : Reg) (m : Bool) (c : Bool)  -- v.imin, R221
  | vImax (x : Reg) (y : Reg) (z : Reg) (m : Bool) (c : Bool)  -- v.imax, R221
  | vCmp (x : Reg) (y : Reg) (z : Reg) (m : BitVec 3) (c : Bool)  -- v.cmp, R222
  | vIcmp (x : Reg) (y : Reg) (z : Reg) (m : BitVec 3) (c : Bool)  -- v.icmp, R222
  | vSel (x : Reg) (y : Reg) (z : Reg) (m : BitVec 3) (c : Bool)  -- v.sel, R222
  | vPand (x : Reg) (y : Reg) (z : Reg) (c : Bool)  -- v.pand, R222
  | vPor (x : Reg) (y : Reg) (z : Reg) (c : Bool)  -- v.por, R222
  | vPxor (x : Reg) (y : Reg) (z : Reg) (c : Bool)  -- v.pxor, R222
  | vPnot (x : Reg) (y : Reg) (c : Bool)  -- v.pnot, R222
  | vRotr (x : Reg) (y : Reg) (i : BitVec 9) (c : Bool)  -- v.rotr, R223
  | vRotc (x : Reg) (y : Reg) (i : BitVec 9) (c : Bool)  -- v.rotc, R223
  | vBcr (x : Reg) (y : Reg) (i : BitVec 9) (c : Bool)  -- v.bcr, R223
  | vBcc (x : Reg) (y : Reg) (i : BitVec 9) (c : Bool)  -- v.bcc, R223
  | vRedr (x : Reg) (y : Reg) (m : BitVec 3) (c : Bool)  -- v.redr, R224
  | vRedc (x : Reg) (y : Reg) (m : BitVec 3) (c : Bool)  -- v.redc, R224
  | vCvtf (x : Reg) (y : Reg) (m : Bool) (c : Bool)  -- v.cvtf, R225
  | vCvti (x : Reg) (y : Reg) (m : Bool) (c : Bool)  -- v.cvti, R225
  | vCvtq (x : Reg) (y : Reg) (m : BitVec 3) (c : Bool)  -- v.cvtq, R225
  | vExp2 (x : Reg) (y : Reg) (c : Bool)  -- v.exp2, R226
  | vLog2 (x : Reg) (y : Reg) (c : Bool)  -- v.log2, R227
  | vRcp (x : Reg) (y : Reg) (c : Bool)  -- v.rcp, R228
  | vRsq (x : Reg) (y : Reg) (c : Bool)  -- v.rsq, R228
  | vTanh (x : Reg) (y : Reg) (c : Bool)  -- v.tanh, R229
  | vSigm (x : Reg) (y : Reg) (c : Bool)  -- v.sigm, R229
  | vRng (x : Reg) (m : BitVec 2) (c : Bool)  -- v.rng, R230
  | vStop (x : Reg) (y : Reg) (z : Reg) (c : Bool)  -- v.stop, R232
  | vLoop (d : Reg) (l : BitVec 4) (c : Bool)  -- v.loop, R233
  | mMma (x : Reg) (y : Reg) (z : Reg) (c : Bool)  -- m.mma, R331
  | mMmaG (x : Reg) (y : Reg) (z : Reg) (c : Bool)  -- m.mma.g, R348
  | mLdw (x : Reg) (y : Reg) (z : Reg) (m : BitVec 3) (c : Bool)  -- m.ldw, R335
  | mSwap (i : BitVec 9) (c : Bool)  -- m.swap, R333
  | mZero (x : Reg) (y : Reg) (c : Bool)  -- m.zero, R337
  | mRdz (x : Reg) (y : Reg) (z : Reg) (c : Bool)  -- m.rdz, R337
  | mWrz (x : Reg) (y : Reg) (z : Reg) (c : Bool)  -- m.wrz, R337
  | mCkpt (x : Reg) (y : Reg) (s : BitVec 4) (t : BitVec 4) (c : Bool)  -- m.ckpt, R338
  | mRest (x : Reg) (y : Reg) (s : BitVec 4) (t : BitVec 4) (c : Bool)  -- m.rest, R338
  | mEpi (x : Reg) (y : Reg) (z : Reg) (c : Bool)  -- m.epi, R340
  | mLoop (d : Reg) (l : BitVec 4) (c : Bool)  -- m.loop, R343
  | mTsub (x : Reg) (y : Reg) (c : Bool)  -- m.tsub, R364
  | mTqry (x : Reg) (y : Reg) (c : Bool)  -- m.tqry, R366
  | mTcan (x : Reg) (y : Reg) (m : Bool) (c : Bool)  -- m.tcan, R367
  | mRdv (x : Reg) (m : Bool) (c : Bool)  -- m.rdv, R342
  | mWid (x : Reg) (y : Reg) (c : Bool)  -- m.wid, R342
  | cCp (x : Reg) (y : Reg) (z : Reg) (m : BitVec 3) (c : Bool)  -- c.cp, R251
  | cCpd (x : Reg) (y : Reg) (z : Reg) (m : BitVec 2) (c : Bool)  -- c.cpd, R252
  | cGath (x : Reg) (y : Reg) (z : Reg) (m : BitVec 3) (c : Bool)  -- c.gath, R254
  | cScat (x : Reg) (y : Reg) (z : Reg) (m : BitVec 3) (c : Bool)  -- c.scat, R254
  | cFill (x : Reg) (y : Reg) (i : BitVec 9) (c : Bool)  -- c.fill, R253
  | cCvt (x : Reg) (y : Reg) (z : Reg) (m : BitVec 2) (c : Bool)  -- c.cvt, R255
  | cBind (x : Reg) (y : Reg) (z : Reg) (m : BitVec 2) (c : Bool)  -- c.bind, R257
  | cKvg (x : Reg) (y : Reg) (z : Reg) (m : Bool) (c : Bool)  -- c.kvg, R260
  | cKvs (x : Reg) (y : Reg) (z : Reg) (m : Bool) (c : Bool)  -- c.kvs, R260
  | cGm (x : Reg) (y : Reg) (z : Reg) (m : Bool) (c : Bool)  -- c.gm, R263
  | cPeer (x : Reg) (y : Reg) (z : Reg) (c : Bool)  -- c.peer, R264
  | cRwin (x : Reg) (y : Reg) (z : Reg) (m : BitVec 3) (c : Bool)  -- c.rwin, R265
  | cPf (x : Reg) (y : Reg) (m : Bool) (c : Bool)  -- c.pf, R267
  | cLoop (d : Reg) (l : BitVec 4) (c : Bool)  -- c.loop, R249
  | cUnbind (x : Reg) (c : Bool)  -- c.unbind, R259
  | cDsc (x : Reg) (y : Reg) (m : Bool) (c : Bool)  -- c.dsc, R248
  | cBbinv (y : Reg) (c : Bool)  -- c.bbinv, R262
  | bAdd (x : Reg) (y : Reg) (z : Reg) (r : Bool) (w : Bool) (c : Bool)  -- b.add, R299
  | bMin (x : Reg) (y : Reg) (z : Reg) (r : Bool) (w : Bool) (c : Bool)  -- b.min, R299
  | bMax (x : Reg) (y : Reg) (z : Reg) (r : Bool) (w : Bool) (c : Bool)  -- b.max, R299
  | bMinu (x : Reg) (y : Reg) (z : Reg) (r : Bool) (w : Bool) (c : Bool)  -- b.minu, R299
  | bMaxu (x : Reg) (y : Reg) (z : Reg) (r : Bool) (w : Bool) (c : Bool)  -- b.maxu, R299
  | bAnd (x : Reg) (y : Reg) (z : Reg) (r : Bool) (w : Bool) (c : Bool)  -- b.and, R299
  | bOr (x : Reg) (y : Reg) (z : Reg) (r : Bool) (w : Bool) (c : Bool)  -- b.or, R299
  | bXor (x : Reg) (y : Reg) (z : Reg) (r : Bool) (w : Bool) (c : Bool)  -- b.xor, R299
  | bSwap (x : Reg) (y : Reg) (z : Reg) (r : Bool) (w : Bool) (c : Bool)  -- b.swap, R299
  | bCas (x : Reg) (y : Reg) (z : Reg) (r : Bool) (w : Bool) (c : Bool)  -- b.cas, R299
  | bFadd (x : Reg) (y : Reg) (z : Reg) (c : Bool)  -- b.fadd, R301
  | bFadb (x : Reg) (y : Reg) (z : Reg) (c : Bool)  -- b.fadb, R301
  | bScal (x : Reg) (y : Reg) (z : Reg) (t : Bool) (c : Bool)  -- b.scal, R301
  | bAxpy (x : Reg) (y : Reg) (z : Reg) (t : Bool) (c : Bool)  -- b.axpy, R301
  | bWait (x : Reg) (y : Reg) (z : Reg) (k : BitVec 2) (w : Bool) (c : Bool)  -- b.wait, R302
  | bVst (x : Reg) (y : Reg) (z : Reg) (c : Bool)  -- b.vst, R313
  | bVld (x : Reg) (y : Reg) (z : Reg) (t : Bool) (c : Bool)  -- b.vld, R314
  | bVldLe (x : Reg) (y : Reg) (z : Reg) (t : Bool) (c : Bool)  -- b.vld.le, R314
  | bVretire (x : Reg) (y : Reg) (c : Bool)  -- b.vretire, R316
  | bVnew (x : Reg) (y : Reg) (c : Bool)  -- b.vnew, R316
  | bVfloor (x : Reg) (y : Reg) (c : Bool)  -- b.vfloor, R316
  | bVreg (x : Reg) (y : Reg) (c : Bool)  -- b.vreg, R308
  | bVregFree (x : Reg) (y : Reg) (c : Bool)  -- b.vreg.free, R309
  | bVregRd (x : Reg) (y : Reg) (c : Bool)  -- b.vreg.rd, R309
  | bVregSpill (x : Reg) (y : Reg) (c : Bool)  -- b.vreg.spill, R310
  | aAttn (x : Reg) (y : Reg) (z : Reg) (k : Bool) (v : Bool) (c : Bool)  -- a.attn, R388
  | aPart (x : Reg) (y : Reg) (z : Reg) (k : Bool) (v : Bool) (c : Bool)  -- a.part, R388
  | aMerge (x : Reg) (y : Reg) (z : Reg) (n : Bool) (c : Bool)  -- a.merge, R391
  | aCfg (x : Reg) (i : BitVec 9) (c : Bool)  -- a.cfg, R382
  | aBinv (y : Reg) (c : Bool)  -- a.binv, R392
  | aPref (y : Reg) (z : Reg) (m : Bool) (c : Bool)  -- a.pref, R393
  | kPool (x : Reg) (y : Reg) (c : Bool)  -- k.pool, R404
  | kPoolOff (y : Reg) (c : Bool)  -- k.pool.off, R404
  | kTbl (x : Reg) (y : Reg) (z : Reg) (c : Bool)  -- k.tbl, R405
  | kApp (x : Reg) (y : Reg) (z : Reg) (r : Bool) (w : Bool) (c : Bool)  -- k.app, R406
  | kWr (x : Reg) (y : Reg) (z : Reg) (m : Bool) (c : Bool)  -- k.wr, R407
  | kFork (x : Reg) (y : Reg) (z : Reg) (c : Bool)  -- k.fork, R408
  | kTrunc (x : Reg) (y : Reg) (c : Bool)  -- k.trunc, R409
  | kRet (x : Reg) (c : Bool)  -- k.ret, R409
  | kWinOpen (x : Reg) (y : Reg) (z : Reg) (c : Bool)  -- k.win.open, R412
  | kCommit (x : Reg) (y : Reg) (z : Reg) (n : Bool) (c : Bool)  -- k.commit, R414
  | kAbort (x : Reg) (y : Reg) (n : Bool) (c : Bool)  -- k.abort, R414
  | kCkpt (x : Reg) (y : Reg) (z : Reg) (c : Bool)  -- k.ckpt, R413
  | kLen (x : Reg) (y : Reg) (c : Bool)  -- k.len, R410
  | kBbinv (y : Reg) (c : Bool)  -- k.bbinv, R410
  | kFalloc (x : Reg) (y : Reg) (z : Reg) (n : Bool) (c : Bool)  -- k.falloc, R436
  | kFfree (x : Reg) (y : Reg) (z : Reg) (c : Bool)  -- k.ffree, R437
  | kFscrub (x : Reg) (y : Reg) (c : Bool)  -- k.fscrub, R440
  | kFscrubTake (x : Reg) (y : Reg) (z : Reg) (c : Bool)  -- k.fscrub.take, R440
  | kFref (x : Reg) (y : Reg) (z : Reg) (c : Bool)  -- k.fref, R438
  | kFqryBlk (x : Reg) (y : Reg) (z : Reg) (c : Bool)  -- k.fqry.blk, R439
  | kFqryPool (x : Reg) (y : Reg) (c : Bool)  -- k.fqry.pool, R439
  | steerResume  -- R22
  | remoteUnitReport (e : Nat) (k : Nat)  -- R14
  | trapTaken  -- R199
  | gangPlace (order die : Nat)  -- R45
  | gangPreempt (gang : Nat)  -- R46
  | gangResume (gang die : Nat)  -- R46
  | strandRetire  -- R51
  | waitSwitchTimeout  -- R54
  | turnQuantumExpiry  -- R54
  | bankWaitSatisfied  -- R302
  | versionLoadTimeout  -- R314
  | pageRequestPost (fn : Nat)  -- R286
  | prqheadWrite (fn head : Nat)  -- R287
  | prspWrite (fn tag code : Nat)  -- R288
  | s2invWrite (fn : Nat) (w : BitVec 64)  -- R284
  | s2invDone (fn : Nat)  -- R284
  | dbmctlWrite (fn : Nat) (w : BitVec 64)  -- R294
  | dbmSwitchDone (fn : Nat)  -- R294
  | weightRegionEnable (part i : Nat)  -- R356
  | weightRegionHashDone (part i : Nat)  -- R356
  | weightRegionDisable (part i : Nat)  -- R356
  | weightRegionOff (part i : Nat)  -- R356
  | taskAccept  -- R365
  | taskDeadline (die : Nat)  -- R370
  | passPlace (die : Nat)  -- R371
  | passComplete (die : Nat)  -- R372
  | draperExpire (fn : Nat)  -- R378
  | fullerScrubStart (part pool : Nat)  -- R428
  | scrubComplete (part pool : Nat)  -- R429
  | hostMemoryAccess (w : Bool) (pa n : Nat) (data : List (BitVec 8))  -- R423
  | kickRegisterWrite (fn q value : Nat)  -- R443
  | kick (fn q : Nat)  -- R443
  | queueEnable (fn q : Nat)  -- R446
  | queueDisable (fn q : Nat)  -- R445
  | noOpPacket (fn q : Nat)  -- R447
  | docketPacket (fn q : Nat)  -- R451
  | queueFencePacket (fn q : Nat)  -- R453
  | fenceComplete (fn q : Nat)  -- R453
  | signalPacket (fn q : Nat)  -- R449
  | memoryWaitPacket (fn q : Nat)  -- R449
  | memoryWaitSatisfied (fn q : Nat)  -- R449
  | batchStepPacket (fn q : Nat)  -- R461
  | stepBoundary (fn q : Nat)  -- R461
  | stepRetirement (fn q : Nat)  -- R461
  | completionRecordWrite (fn q : Nat)  -- R450
  | cqheadWrite (fn q head : Nat)  -- R450
  | hangDetected (gang : Nat)  -- R464
  | decodeImageLoad (part reason : Nat) (digest : BitVec 512)  -- R110
  | partitionHold (part : Nat)  -- R474
  | partitionRst (part : Nat)  -- R473
  | partitionRelease (part : Nat)  -- R474
  | ownedRangeReady (part : Nat)  -- R527
  | functionReset (fn : Nat)  -- R476
  | functionResetDone (fn : Nat)  -- R476
  | functionLevelReset (fn : Nat)  -- R477
  | functionEnable (fn : Nat) (on : Bool)  -- R475
  | privqClear (fn : Nat)  -- R475
  | deviceReset  -- R478
  | violClear  -- R472
  | untrustedPrivateAccess (fn off : Nat) (w : Bool)  -- R471
  | unsupportedRequest  -- R468
  | migrationPause (fn : Nat)  -- R480
  | migrationPaused (fn : Nat)  -- R480
  | migrationResume (fn : Nat)  -- R481
  | peerUnitArrival (src xfer world key dgang off len unit : Nat) (data : List (BitVec 8))  -- R489
  | peerUnitResend  -- R488
  | rwinContribution (chip key home e op value : Nat)  -- R493
  | rwinHomeWrite (key home : Nat)  -- R494
  | flitRetransmit (port : Nat)  -- R484
  | portDown (port : Nat)  -- R484
  | advertisePeriod  -- R496
  | integReread (line : Nat) (pass : Bool)  -- R507
  | powerOn  -- R516
  | sramUncorrectableError (die tile : Nat)  -- R519
  | correctableError  -- R521
  | ceWindowExpiry  -- R521
  | powerBrake  -- R523
  | powerLimitThrottle (island clock : Nat)  -- R523
  | thermalThreshold (dram : Bool) (unit degrees : Nat)  -- R523
  | tlmRefresh (watts junction stack : Nat)  -- R524
  | ckptStart  -- R525
  | ckptDone  -- R525
  | ckptResume  -- R525
  | scrivselWrite (slot : Nat)  -- R526
  | registerWrite (fn off value : Nat) (half : Bool)  -- R8
  | engineWordPerformed (e : Nat) (k : Nat)  -- R14
  | undefinedEncoding (w : BitVec 32)  -- R99
  | portTrained (port : Nat)  -- R509
  | powerRemoved (leaf : Bool)  -- R511
  | tdispRequest (fn : Nat) (run : Bool)  -- R471
  deriving DecidableEq, Repr

end Sys2Proof
end

