-- ==== Sys2Proof/WellFormed.lean ====
section
/-! DEFINITION. The checks of R102 step 5 that depend on the word alone: register classes (R88, R89), function and
modifier values (R100) and the limits on immediate fields that no prefix widens (R87). -/

namespace Sys2Proof

/-- Classes V, H and G: 0 to 15 (R88). -/
def cls16 (r : Reg) : Bool := r.toNat < 16
/-- Classes P, W, D and Z: 0 to 7 (R88). -/
def cls8 (r : Reg) : Bool := r.toNat < 8
/-- Class VW: 0 to 15, or 32 to 39 for a stream register (R88). -/
def clsVW (r : Reg) : Bool := r.toNat < 16 || (32 ≤ r.toNat && r.toNat < 40)
/-- Two fields of class VW name no stream register twice (R89). -/
def noSameStream (a b : Reg) : Bool := !(a == b && 32 ≤ a.toNat)

/-- The CSR numbers of R187. -/
def csrKnown (c : BitVec 10) : Bool :=
  c.toNat < 6 || (8 ≤ c.toNat && c.toNat < 12) || c.toNat == 16 || (32 ≤ c.toNat && c.toNat < 38) ||
    (40 ≤ c.toNat && c.toNat < 47) || (48 ≤ c.toNat && c.toNat < 51)

/-- An instruction word keeps its class, modifier and field limits. Events have no encoding and no such limit. -/
def Instr.wellFormed : Instr → Bool
  | .add _ _ _ => true
  | .sub _ _ _ => true
  | .and _ _ _ => true
  | .or _ _ _ => true
  | .xor _ _ _ => true
  | .sll _ _ _ => true
  | .srl _ _ _ => true
  | .sra _ _ _ => true
  | .slt _ _ _ => true
  | .sltu _ _ _ => true
  | .mul _ _ _ => true
  | .mulh _ _ _ => true
  | .mulhu _ _ _ => true
  | .div _ _ _ => true
  | .divu _ _ _ => true
  | .rem _ _ _ => true
  | .remu _ _ _ => true
  | .min _ _ _ => true
  | .max _ _ _ => true
  | .clz _ _ => true
  | .ctz _ _ => true
  | .cmov _ _ _ => true
  | .addi _ _ _ => true
  | .andi _ _ _ => true
  | .ori _ _ _ => true
  | .xori _ _ _ => true
  | .slli _ _ i => i.toNat < 64
  | .srli _ _ i => i.toNat < 64
  | .srai _ _ i => i.toNat < 64
  | .li _ _ => true
  | .lui _ _ => true
  | .auipc _ _ => true
  | .ldB _ _ _ => true
  | .ldH _ _ _ => true
  | .ldW _ _ _ => true
  | .ldD _ _ _ => true
  | .ldBu _ _ _ => true
  | .ldHu _ _ _ => true
  | .ldWu _ _ _ => true
  | .stB _ _ _ => true
  | .stH _ _ _ => true
  | .stW _ _ _ => true
  | .stD _ _ _ => true
  | .ldsW _ _ _ => true
  | .ldsD _ _ _ => true
  | .stsW _ _ _ => true
  | .stsD _ _ _ => true
  | .beq _ _ _ => true
  | .bne _ _ _ => true
  | .blt _ _ _ => true
  | .bge _ _ _ => true
  | .bltu _ _ _ => true
  | .bgeu _ _ _ => true
  | .j _ => true
  | .call _ => true
  | .jr _ => true
  | .calli _ _ _ => true
  | .endStrand => true
  | .brk _ => true
  | .tret => true
  | .csrr _ c => csrKnown c
  | .csrw _ _ c => csrKnown c
  | .csrs _ _ c => csrKnown c
  | .csrc _ _ c => csrKnown c
  | .rdw _ a => cls8 a
  | .phOpen s => s.toNat < 6
  | .phClose s => s.toNat < 6
  | .ph s => s.toNat < 6
  | .fenceSc s => s.toNat < 6
  | .qjoin m => 0 < m.toNat && m.toNat < 128
  | .ifence => true
  | .rbind _ h => cls16 h
  | .rwe _ _ h _ => cls16 h
  | .rwf _ _ h _ => cls16 h
  | .radvT _ h _ => cls16 h
  | .radvH _ h _ => cls16 h
  | .barInit g _ _ => cls16 g
  | .barArr _ _ h _ => cls16 h
  | .barExp _ h _ => cls16 h
  | .barWait _ h i => cls16 h && i.toNat < 2
  | .tlbiVa _ _ => true
  | .tlbiCtx _ => true
  | .tlbiAll => true
  | .xlat _ _ _ => true
  | .slKeyNew _ _ _ => true
  | .slKeyKill _ _ => true
  | .slMeas _ _ _ => true
  | .slMeasRd _ _ _ => true
  | .slRep _ _ _ => true
  | .xImm _ => true
  | .xCap _ _ _ => true
  | .xRnd m => m.toNat < 5
  | .xPm _ _ p => cls8 p
  | .xOrd o s => o != 0 && s.toNat < 6
  | .xHint _ => true
  | .vLd x _ _ _ => cls16 x
  | .vSt x _ _ _ => clsVW x
  | .vLds x _ _ _ => cls16 x
  | .vSts x _ _ _ => clsVW x
  | .vLdh x y _ _ _ => cls16 x && cls16 y
  | .vSth x y _ _ _ => clsVW x && cls16 y
  | .vMov x y _ => cls16 x && clsVW y
  | .vBcs x _ _ => cls16 x
  | .vIota x _ _ _ => cls16 x
  | .vPset x _ _ _ => cls8 x
  | .vAdd x y z _ => cls16 x && clsVW y && clsVW z && noSameStream y z
  | .vSub x y z _ => cls16 x && clsVW y && clsVW z && noSameStream y z
  | .vMul x y z _ => cls16 x && clsVW y && clsVW z && noSameStream y z
  | .vFma x y z _ _ => cls16 x && clsVW y && clsVW z && noSameStream y z
  | .vMin x y z _ => cls16 x && clsVW y && clsVW z && noSameStream y z
  | .vMax x y z _ => cls16 x && clsVW y && clsVW z && noSameStream y z
  | .vAbs x y _ => cls16 x && clsVW y
  | .vNeg x y _ => cls16 x && clsVW y
  | .vIadd x y z _ => cls16 x && clsVW y && clsVW z && noSameStream y z
  | .vIsub x y z _ => cls16 x && clsVW y && clsVW z && noSameStream y z
  | .vImul x y z _ _ => cls16 x && clsVW y && clsVW z && noSameStream y z
  | .vImulw x y z _ _ => cls16 x && clsVW y && clsVW z && noSameStream y z
  | .vAnd x y z _ => cls16 x && clsVW y && clsVW z && noSameStream y z
  | .vOr x y z _ => cls16 x && clsVW y && clsVW z && noSameStream y z
  | .vXor x y z _ => cls16 x && clsVW y && clsVW z && noSameStream y z
  | .vNot x y _ => cls16 x && clsVW y
  | .vShl x y z _ => cls16 x && clsVW y && clsVW z && noSameStream y z
  | .vShr x y z _ => cls16 x && clsVW y && clsVW z && noSameStream y z
  | .vSha x y z _ => cls16 x && clsVW y && clsVW z && noSameStream y z
  | .vImin x y z _ _ => cls16 x && clsVW y && clsVW z && noSameStream y z
  | .vImax x y z _ _ => cls16 x && clsVW y && clsVW z && noSameStream y z
  | .vCmp x y z _ _ => cls8 x && clsVW y && clsVW z && noSameStream y z
  | .vIcmp x y z m _ => cls8 x && clsVW y && clsVW z && m.toNat < 6 && noSameStream y z
  | .vSel x y z _ _ => cls16 x && clsVW y && clsVW z && noSameStream y z
  | .vPand x y z _ => cls8 x && cls8 y && cls8 z
  | .vPor x y z _ => cls8 x && cls8 y && cls8 z
  | .vPxor x y z _ => cls8 x && cls8 y && cls8 z
  | .vPnot x y _ => cls8 x && cls8 y
  | .vRotr x y _ _ => cls16 x && clsVW y
  | .vRotc x y _ _ => cls16 x && clsVW y
  | .vBcr x y i _ => cls16 x && clsVW y && i.toNat < 64
  | .vBcc x y i _ => cls16 x && clsVW y && i.toNat < 16
  | .vRedr x y m _ => cls16 x && clsVW y && m.toNat < 7
  | .vRedc x y m _ => cls16 x && clsVW y && m.toNat < 7
  | .vCvtf x y _ _ => cls16 x && clsVW y
  | .vCvti x y _ _ => cls16 x && clsVW y
  | .vCvtq x y m _ => cls16 x && clsVW y && m.toNat < 5
  | .vExp2 x y _ => cls16 x && clsVW y
  | .vLog2 x y _ => cls16 x && clsVW y
  | .vRcp x y _ => cls16 x && clsVW y
  | .vRsq x y _ => cls16 x && clsVW y
  | .vTanh x y _ => cls16 x && clsVW y
  | .vSigm x y _ => cls16 x && clsVW y
  | .vRng x m _ => cls16 x && m.toNat < 3
  | .vStop x y _ _ => cls8 x && clsVW y
  | .vLoop d _ _ => cls8 d
  | .mMma x _ _ _ => cls8 x
  | .mMmaG x _ _ _ => cls8 x
  | .mLdw _ _ _ _ _ => true
  | .mSwap i _ => i.toNat < 3
  | .mZero x _ _ => cls8 x
  | .mRdz _ y _ _ => cls8 y
  | .mWrz x _ _ _ => cls8 x
  | .mCkpt x y _ _ _ => cls8 x && cls8 y
  | .mRest x y _ _ _ => cls8 x && cls8 y
  | .mEpi _ y _ _ => cls8 y
  | .mLoop d _ _ => cls8 d
  | .mTsub _ _ _ => true
  | .mTqry _ _ _ => true
  | .mTcan _ _ _ _ => true
  | .mRdv _ _ _ => true
  | .mWid _ _ _ => true
  | .cCp _ _ _ _ _ => true
  | .cCpd _ _ _ _ _ => true
  | .cGath _ _ _ _ _ => true
  | .cScat _ _ _ _ _ => true
  | .cFill _ _ _ _ => true
  | .cCvt _ _ _ _ _ => true
  | .cBind x _ _ _ _ => cls8 x
  | .cKvg _ _ _ _ _ => true
  | .cKvs _ _ _ _ _ => true
  | .cGm _ _ _ _ _ => true
  | .cPeer _ _ _ _ => true
  | .cRwin _ _ _ m _ => m.toNat < 7
  | .cPf _ _ _ _ => true
  | .cLoop d _ _ => cls8 d
  | .cUnbind x _ => cls8 x
  | .cDsc x _ _ _ => cls8 x
  | .cBbinv _ _ => true
  | .bAdd _ _ z r _ _ => (r || z == 0)
  | .bMin _ _ z r _ _ => (r || z == 0)
  | .bMax _ _ z r _ _ => (r || z == 0)
  | .bMinu _ _ z r _ _ => (r || z == 0)
  | .bMaxu _ _ z r _ _ => (r || z == 0)
  | .bAnd _ _ z r _ _ => (r || z == 0)
  | .bOr _ _ z r _ _ => (r || z == 0)
  | .bXor _ _ z r _ _ => (r || z == 0)
  | .bSwap _ _ z r _ _ => (r || z == 0)
  | .bCas _ _ _ _ _ _ => true
  | .bFadd _ _ _ _ => true
  | .bFadb _ _ _ _ => true
  | .bScal _ _ _ _ _ => true
  | .bAxpy _ _ _ _ _ => true
  | .bWait _ _ _ _ _ _ => true
  | .bVst _ _ _ _ => true
  | .bVld _ _ _ _ _ => true
  | .bVldLe _ _ _ _ _ => true
  | .bVretire _ _ _ => true
  | .bVnew _ _ _ => true
  | .bVfloor _ _ _ => true
  | .bVreg _ _ _ => true
  | .bVregFree _ _ _ => true
  | .bVregRd _ _ _ => true
  | .bVregSpill _ _ _ => true
  | .aAttn _ _ _ _ _ _ => true
  | .aPart _ _ _ _ _ _ => true
  | .aMerge _ _ _ _ _ => true
  | .aCfg _ i _ => i.toNat < 3
  | .aBinv _ _ => true
  | .aPref _ _ _ _ => true
  | .kPool _ _ _ => true
  | .kPoolOff _ _ => true
  | .kTbl _ _ _ _ => true
  | .kApp _ _ z r _ _ => (r || z == 0)
  | .kWr _ _ _ _ _ => true
  | .kFork _ _ _ _ => true
  | .kTrunc _ _ _ => true
  | .kRet _ _ => true
  | .kWinOpen _ _ _ _ => true
  | .kCommit _ _ _ _ _ => true
  | .kAbort _ _ _ _ => true
  | .kCkpt _ _ _ _ => true
  | .kLen _ _ _ => true
  | .kBbinv _ _ => true
  | .kFalloc _ _ _ _ _ => true
  | .kFfree _ _ _ _ => true
  | .kFscrub _ _ _ => true
  | .kFscrubTake _ _ _ _ => true
  | .kFref _ _ _ _ => true
  | .kFqryBlk _ _ _ _ => true
  | .kFqryPool _ _ _ => true
  | .steerResume => true
  | .remoteUnitReport _ _ => true
  | .trapTaken => true
  | .gangPlace _ _ => true
  | .gangPreempt _ => true
  | .gangResume _ _ => true
  | .strandRetire => true
  | .waitSwitchTimeout => true
  | .turnQuantumExpiry => true
  | .bankWaitSatisfied => true
  | .versionLoadTimeout => true
  | .pageRequestPost _ => true
  | .prqheadWrite _ _ => true
  | .prspWrite _ _ _ => true
  | .s2invWrite _ _ => true
  | .s2invDone _ => true
  | .dbmctlWrite _ _ => true
  | .dbmSwitchDone _ => true
  | .weightRegionEnable _ _ => true
  | .weightRegionHashDone _ _ => true
  | .weightRegionDisable _ _ => true
  | .weightRegionOff _ _ => true
  | .taskAccept => true
  | .taskDeadline _ => true
  | .passPlace _ => true
  | .passComplete _ => true
  | .draperExpire _ => true
  | .fullerScrubStart _ _ => true
  | .scrubComplete _ _ => true
  | .hostMemoryAccess _ _ _ _ => true
  | .kickRegisterWrite _ _ _ => true
  | .kick _ _ => true
  | .queueEnable _ _ => true
  | .queueDisable _ _ => true
  | .noOpPacket _ _ => true
  | .docketPacket _ _ => true
  | .queueFencePacket _ _ => true
  | .fenceComplete _ _ => true
  | .signalPacket _ _ => true
  | .memoryWaitPacket _ _ => true
  | .memoryWaitSatisfied _ _ => true
  | .batchStepPacket _ _ => true
  | .stepBoundary _ _ => true
  | .stepRetirement _ _ => true
  | .completionRecordWrite _ _ => true
  | .cqheadWrite _ _ _ => true
  | .hangDetected _ => true
  | .decodeImageLoad _ _ _ => true
  | .partitionHold _ => true
  | .partitionRst _ => true
  | .partitionRelease _ => true
  | .ownedRangeReady _ => true
  | .functionReset _ => true
  | .functionResetDone _ => true
  | .functionLevelReset _ => true
  | .functionEnable _ _ => true
  | .privqClear _ => true
  | .deviceReset => true
  | .violClear => true
  | .untrustedPrivateAccess _ _ _ => true
  | .unsupportedRequest => true
  | .migrationPause _ => true
  | .migrationPaused _ => true
  | .migrationResume _ => true
  | .peerUnitArrival _ _ _ _ _ _ _ _ _ => true
  | .peerUnitResend => true
  | .rwinContribution _ _ _ _ _ _ => true
  | .rwinHomeWrite _ _ => true
  | .flitRetransmit _ => true
  | .portDown _ => true
  | .advertisePeriod => true
  | .integReread _ _ => true
  | .powerOn => true
  | .sramUncorrectableError _ _ => true
  | .correctableError => true
  | .ceWindowExpiry => true
  | .powerBrake => true
  | .powerLimitThrottle _ _ => true
  | .thermalThreshold _ _ _ => true
  | .tlmRefresh _ _ _ => true
  | .ckptStart => true
  | .ckptDone => true
  | .ckptResume => true
  | .scrivselWrite _ => true
  | .registerWrite _ _ _ _ => true
  | .engineWordPerformed _ _ => true
  | .undefinedEncoding _ => true
  | .portTrained _ => true
  | .powerRemoved _ => true
  | .tdispRequest _ _ => true

end Sys2Proof
end

