-- ==== Sys2Proof/Decode.lean ====
section
/-! DEFINITION. Decoding of one 32-bit word (R84, R85, R97 to R100) and the encoder that the same tables give.
A word that no row of the opcode table matches, or whose fields break the row's limits, decodes to none: the splitter
traps UNDEF on it (R99, R100). -/

namespace Sys2Proof

/-- The number that stands in the `len` bits of `w` from bit `lo`. -/
def bitsAt (w : BitVec 32) (lo len : Nat) : Nat := w.toNat / 2 ^ lo % 2 ^ len

/-- A field of `len` bits. -/
def fieldAt (w : BitVec 32) (lo len : Nat) : BitVec len := BitVec.ofNat len (bitsAt w lo len)

/-- A register field. -/
def regAt (w : BitVec 32) (lo : Nat) : Reg := BitVec.ofNat 6 (bitsAt w lo 6)

/-- A one-bit field. -/
def flagAt (w : BitVec 32) (lo : Nat) : Bool := bitsAt w lo 1 == 1

/-- A row of the table: the instruction, if the fixed field of `len` bits at `lo` holds `v`; otherwise what the next
row gives. -/
def rowWhere (w : BitVec 32) (lo len v : Nat) (i : Instr) (other : Option Instr) : Option Instr :=
  if bitsAt w lo len = v then some i else other

/-- Opcodes of engine 0 (R97). -/
def decodeScalar (w : BitVec 32) : Nat → Option Instr
  | 1 => rowWhere w 0 4 0 (.add (regAt w 16) (regAt w 10) (regAt w 4)) none
  | 2 => rowWhere w 0 4 0 (.sub (regAt w 16) (regAt w 10) (regAt w 4)) none
  | 3 => rowWhere w 0 4 0 (.and (regAt w 16) (regAt w 10) (regAt w 4)) none
  | 4 => rowWhere w 0 4 0 (.or (regAt w 16) (regAt w 10) (regAt w 4)) none
  | 5 => rowWhere w 0 4 0 (.xor (regAt w 16) (regAt w 10) (regAt w 4)) none
  | 6 => rowWhere w 0 4 0 (.sll (regAt w 16) (regAt w 10) (regAt w 4)) none
  | 7 => rowWhere w 0 4 0 (.srl (regAt w 16) (regAt w 10) (regAt w 4)) none
  | 8 => rowWhere w 0 4 0 (.sra (regAt w 16) (regAt w 10) (regAt w 4)) none
  | 9 => rowWhere w 0 4 0 (.slt (regAt w 16) (regAt w 10) (regAt w 4)) none
  | 10 => rowWhere w 0 4 0 (.sltu (regAt w 16) (regAt w 10) (regAt w 4)) none
  | 11 => rowWhere w 0 4 0 (.mul (regAt w 16) (regAt w 10) (regAt w 4)) none
  | 12 => rowWhere w 0 4 0 (.mulh (regAt w 16) (regAt w 10) (regAt w 4)) none
  | 13 => rowWhere w 0 4 0 (.mulhu (regAt w 16) (regAt w 10) (regAt w 4)) none
  | 14 => rowWhere w 0 4 0 (.div (regAt w 16) (regAt w 10) (regAt w 4)) none
  | 15 => rowWhere w 0 4 0 (.divu (regAt w 16) (regAt w 10) (regAt w 4)) none
  | 16 => rowWhere w 0 4 0 (.rem (regAt w 16) (regAt w 10) (regAt w 4)) none
  | 17 => rowWhere w 0 4 0 (.remu (regAt w 16) (regAt w 10) (regAt w 4)) none
  | 18 => rowWhere w 0 4 0 (.min (regAt w 16) (regAt w 10) (regAt w 4)) none
  | 19 => rowWhere w 0 4 0 (.max (regAt w 16) (regAt w 10) (regAt w 4)) none
  | 20 => rowWhere w 0 10 0 (.clz (regAt w 16) (regAt w 10)) none
  | 21 => rowWhere w 0 10 0 (.ctz (regAt w 16) (regAt w 10)) none
  | 22 => rowWhere w 0 4 0 (.cmov (regAt w 16) (regAt w 10) (regAt w 4)) none
  | 24 => some (.addi (regAt w 16) (regAt w 10) (fieldAt w 0 10))
  | 25 => some (.andi (regAt w 16) (regAt w 10) (fieldAt w 0 10))
  | 26 => some (.ori (regAt w 16) (regAt w 10) (fieldAt w 0 10))
  | 27 => some (.xori (regAt w 16) (regAt w 10) (fieldAt w 0 10))
  | 28 => some (.slli (regAt w 16) (regAt w 10) (fieldAt w 0 10))
  | 29 => some (.srli (regAt w 16) (regAt w 10) (fieldAt w 0 10))
  | 30 => some (.srai (regAt w 16) (regAt w 10) (fieldAt w 0 10))
  | 32 => some (.li (regAt w 16) (fieldAt w 0 16))
  | 33 => some (.lui (regAt w 16) (fieldAt w 0 16))
  | 34 => some (.auipc (regAt w 16) (fieldAt w 0 16))
  | 40 => some (.ldB (regAt w 16) (regAt w 10) (fieldAt w 0 10))
  | 41 => some (.ldH (regAt w 16) (regAt w 10) (fieldAt w 0 10))
  | 42 => some (.ldW (regAt w 16) (regAt w 10) (fieldAt w 0 10))
  | 43 => some (.ldD (regAt w 16) (regAt w 10) (fieldAt w 0 10))
  | 44 => some (.ldBu (regAt w 16) (regAt w 10) (fieldAt w 0 10))
  | 45 => some (.ldHu (regAt w 16) (regAt w 10) (fieldAt w 0 10))
  | 46 => some (.ldWu (regAt w 16) (regAt w 10) (fieldAt w 0 10))
  | 48 => some (.stB (regAt w 16) (regAt w 10) (fieldAt w 0 10))
  | 49 => some (.stH (regAt w 16) (regAt w 10) (fieldAt w 0 10))
  | 50 => some (.stW (regAt w 16) (regAt w 10) (fieldAt w 0 10))
  | 51 => some (.stD (regAt w 16) (regAt w 10) (fieldAt w 0 10))
  | 52 => some (.ldsW (regAt w 16) (regAt w 10) (fieldAt w 0 10))
  | 53 => some (.ldsD (regAt w 16) (regAt w 10) (fieldAt w 0 10))
  | 54 => some (.stsW (regAt w 16) (regAt w 10) (fieldAt w 0 10))
  | 55 => some (.stsD (regAt w 16) (regAt w 10) (fieldAt w 0 10))
  | 56 => some (.beq (regAt w 16) (regAt w 10) (fieldAt w 0 10))
  | 57 => some (.bne (regAt w 16) (regAt w 10) (fieldAt w 0 10))
  | 58 => some (.blt (regAt w 16) (regAt w 10) (fieldAt w 0 10))
  | 59 => some (.bge (regAt w 16) (regAt w 10) (fieldAt w 0 10))
  | 60 => some (.bltu (regAt w 16) (regAt w 10) (fieldAt w 0 10))
  | 61 => some (.bgeu (regAt w 16) (regAt w 10) (fieldAt w 0 10))
  | 62 => some (.j (fieldAt w 0 22))
  | 63 => some (.call (fieldAt w 0 22))
  | 64 => if bitsAt w 0 10 = 0 then rowWhere w 16 6 0 (.jr (regAt w 10)) none else none
  | 65 => some (.calli (regAt w 16) (regAt w 10) (fieldAt w 0 10))
  | 66 => rowWhere w 0 22 0 .endStrand none
  | 67 => rowWhere w 10 12 0 (.brk (fieldAt w 0 10)) none
  | 68 => rowWhere w 0 22 0 .tret none
  | 72 => rowWhere w 10 6 0 (.csrr (regAt w 16) (fieldAt w 0 10)) none
  | 73 => some (.csrw (regAt w 16) (regAt w 10) (fieldAt w 0 10))
  | 74 => some (.csrs (regAt w 16) (regAt w 10) (fieldAt w 0 10))
  | 75 => some (.csrc (regAt w 16) (regAt w 10) (fieldAt w 0 10))
  | 76 => rowWhere w 0 10 0 (.rdw (regAt w 16) (regAt w 10)) none
  | 80 => rowWhere w 3 19 0 (.phOpen (fieldAt w 0 3)) none
  | 81 => rowWhere w 3 19 0 (.phClose (fieldAt w 0 3)) none
  | 82 => rowWhere w 3 19 0 (.ph (fieldAt w 0 3)) none
  | 83 => rowWhere w 3 19 0 (.fenceSc (fieldAt w 0 3)) none
  | 84 => if bitsAt w 0 3 = 0 then rowWhere w 11 11 0 (.qjoin (fieldAt w 3 8)) none else none
  | 85 => rowWhere w 0 22 0 .ifence none
  | 88 => if bitsAt w 0 4 = 0 then rowWhere w 16 6 0 (.rbind (regAt w 10) (regAt w 4)) none else none
  | 89 => some (.rwe (regAt w 16) (regAt w 10) (regAt w 4) (fieldAt w 0 4))
  | 90 => some (.rwf (regAt w 16) (regAt w 10) (regAt w 4) (fieldAt w 0 4))
  | 91 => rowWhere w 16 6 0 (.radvT (regAt w 10) (regAt w 4) (fieldAt w 0 4)) none
  | 92 => rowWhere w 16 6 0 (.radvH (regAt w 10) (regAt w 4) (fieldAt w 0 4)) none
  | 96 => rowWhere w 0 4 0 (.barInit (regAt w 16) (regAt w 10) (regAt w 4)) none
  | 97 => some (.barArr (regAt w 16) (regAt w 10) (regAt w 4) (fieldAt w 0 4))
  | 98 => rowWhere w 16 6 0 (.barExp (regAt w 10) (regAt w 4) (fieldAt w 0 4)) none
  | 99 => rowWhere w 10 6 0 (.barWait (regAt w 16) (regAt w 4) (fieldAt w 0 4)) none
  | 120 => if bitsAt w 0 4 = 0 then rowWhere w 16 6 0 (.tlbiVa (regAt w 10) (regAt w 4)) none else none
  | 121 => if bitsAt w 0 10 = 0 then rowWhere w 16 6 0 (.tlbiCtx (regAt w 10)) none else none
  | 122 => rowWhere w 0 22 0 .tlbiAll none
  | 123 => rowWhere w 0 4 0 (.xlat (regAt w 16) (regAt w 10) (regAt w 4)) none
  | 124 => rowWhere w 0 4 0 (.slKeyNew (regAt w 16) (regAt w 10) (regAt w 4)) (rowWhere w 0 10 1 (.slKeyKill (regAt w 16) (regAt w 10)) none)
  | 125 => rowWhere w 0 4 0 (.slMeas (regAt w 16) (regAt w 10) (regAt w 4)) (rowWhere w 0 4 1 (.slMeasRd (regAt w 16) (regAt w 10) (regAt w 4)) none)
  | 126 => rowWhere w 0 4 0 (.slRep (regAt w 16) (regAt w 10) (regAt w 4)) none
  | _ => none

/-- Opcodes of engine 1 (R97). -/
def decodeVector (w : BitVec 32) : Nat → Option Instr
  | 1 => rowWhere w 1 3 0 (.vLd (regAt w 16) (regAt w 10) (regAt w 4) (flagAt w 0)) none
  | 2 => rowWhere w 1 3 0 (.vSt (regAt w 16) (regAt w 10) (regAt w 4) (flagAt w 0)) none
  | 3 => rowWhere w 1 3 0 (.vLds (regAt w 16) (regAt w 10) (regAt w 4) (flagAt w 0)) none
  | 4 => rowWhere w 1 3 0 (.vSts (regAt w 16) (regAt w 10) (regAt w 4) (flagAt w 0)) none
  | 5 => rowWhere w 2 2 0 (.vLdh (regAt w 16) (regAt w 10) (regAt w 4) (flagAt w 1) (flagAt w 0)) none
  | 6 => rowWhere w 2 2 0 (.vSth (regAt w 16) (regAt w 10) (regAt w 4) (flagAt w 1) (flagAt w 0)) none
  | 7 => rowWhere w 1 9 0 (.vMov (regAt w 16) (regAt w 10) (flagAt w 0)) none
  | 8 => rowWhere w 1 9 0 (.vBcs (regAt w 16) (regAt w 10) (flagAt w 0)) none
  | 9 => some (.vIota (regAt w 16) (regAt w 10) (fieldAt w 1 9) (flagAt w 0))
  | 10 => some (.vPset (regAt w 16) (regAt w 10) (fieldAt w 1 9) (flagAt w 0))
  | 16 => rowWhere w 1 3 0 (.vAdd (regAt w 16) (regAt w 10) (regAt w 4) (flagAt w 0)) none
  | 17 => rowWhere w 1 3 0 (.vSub (regAt w 16) (regAt w 10) (regAt w 4) (flagAt w 0)) none
  | 18 => rowWhere w 1 3 0 (.vMul (regAt w 16) (regAt w 10) (regAt w 4) (flagAt w 0)) none
  | 19 => rowWhere w 3 1 0 (.vFma (regAt w 16) (regAt w 10) (regAt w 4) (fieldAt w 1 2) (flagAt w 0)) none
  | 20 => rowWhere w 1 3 0 (.vMin (regAt w 16) (regAt w 10) (regAt w 4) (flagAt w 0)) none
  | 21 => rowWhere w 1 3 0 (.vMax (regAt w 16) (regAt w 10) (regAt w 4) (flagAt w 0)) none
  | 22 => rowWhere w 1 9 0 (.vAbs (regAt w 16) (regAt w 10) (flagAt w 0)) none
  | 23 => rowWhere w 1 9 0 (.vNeg (regAt w 16) (regAt w 10) (flagAt w 0)) none
  | 24 => rowWhere w 1 3 0 (.vIadd (regAt w 16) (regAt w 10) (regAt w 4) (flagAt w 0)) none
  | 25 => rowWhere w 1 3 0 (.vIsub (regAt w 16) (regAt w 10) (regAt w 4) (flagAt w 0)) none
  | 26 => rowWhere w 2 2 0 (.vImul (regAt w 16) (regAt w 10) (regAt w 4) (flagAt w 1) (flagAt w 0)) none
  | 27 => rowWhere w 2 2 0 (.vImulw (regAt w 16) (regAt w 10) (regAt w 4) (flagAt w 1) (flagAt w 0)) none
  | 28 => rowWhere w 1 3 0 (.vAnd (regAt w 16) (regAt w 10) (regAt w 4) (flagAt w 0)) none
  | 29 => rowWhere w 1 3 0 (.vOr (regAt w 16) (regAt w 10) (regAt w 4) (flagAt w 0)) none
  | 30 => rowWhere w 1 3 0 (.vXor (regAt w 16) (regAt w 10) (regAt w 4) (flagAt w 0)) none
  | 31 => rowWhere w 1 9 0 (.vNot (regAt w 16) (regAt w 10) (flagAt w 0)) none
  | 32 => rowWhere w 1 3 0 (.vShl (regAt w 16) (regAt w 10) (regAt w 4) (flagAt w 0)) none
  | 33 => rowWhere w 1 3 0 (.vShr (regAt w 16) (regAt w 10) (regAt w 4) (flagAt w 0)) none
  | 34 => rowWhere w 1 3 0 (.vSha (regAt w 16) (regAt w 10) (regAt w 4) (flagAt w 0)) none
  | 35 => rowWhere w 2 2 0 (.vImin (regAt w 16) (regAt w 10) (regAt w 4) (flagAt w 1) (flagAt w 0)) none
  | 36 => rowWhere w 2 2 0 (.vImax (regAt w 16) (regAt w 10) (regAt w 4) (flagAt w 1) (flagAt w 0)) none
  | 40 => some (.vCmp (regAt w 16) (regAt w 10) (regAt w 4) (fieldAt w 1 3) (flagAt w 0))
  | 41 => some (.vIcmp (regAt w 16) (regAt w 10) (regAt w 4) (fieldAt w 1 3) (flagAt w 0))
  | 42 => some (.vSel (regAt w 16) (regAt w 10) (regAt w 4) (fieldAt w 1 3) (flagAt w 0))
  | 43 => rowWhere w 1 3 0 (.vPand (regAt w 16) (regAt w 10) (regAt w 4) (flagAt w 0)) none
  | 44 => rowWhere w 1 3 0 (.vPor (regAt w 16) (regAt w 10) (regAt w 4) (flagAt w 0)) none
  | 45 => rowWhere w 1 3 0 (.vPxor (regAt w 16) (regAt w 10) (regAt w 4) (flagAt w 0)) none
  | 46 => rowWhere w 1 9 0 (.vPnot (regAt w 16) (regAt w 10) (flagAt w 0)) none
  | 48 => some (.vRotr (regAt w 16) (regAt w 10) (fieldAt w 1 9) (flagAt w 0))
  | 49 => some (.vRotc (regAt w 16) (regAt w 10) (fieldAt w 1 9) (flagAt w 0))
  | 50 => some (.vBcr (regAt w 16) (regAt w 10) (fieldAt w 1 9) (flagAt w 0))
  | 51 => some (.vBcc (regAt w 16) (regAt w 10) (fieldAt w 1 9) (flagAt w 0))
  | 52 => rowWhere w 4 6 0 (.vRedr (regAt w 16) (regAt w 10) (fieldAt w 1 3) (flagAt w 0)) none
  | 53 => rowWhere w 4 6 0 (.vRedc (regAt w 16) (regAt w 10) (fieldAt w 1 3) (flagAt w 0)) none
  | 56 => rowWhere w 2 8 0 (.vCvtf (regAt w 16) (regAt w 10) (flagAt w 1) (flagAt w 0)) none
  | 57 => rowWhere w 2 8 0 (.vCvti (regAt w 16) (regAt w 10) (flagAt w 1) (flagAt w 0)) none
  | 58 => rowWhere w 4 6 0 (.vCvtq (regAt w 16) (regAt w 10) (fieldAt w 1 3) (flagAt w 0)) none
  | 64 => rowWhere w 1 9 0 (.vExp2 (regAt w 16) (regAt w 10) (flagAt w 0)) none
  | 65 => rowWhere w 1 9 0 (.vLog2 (regAt w 16) (regAt w 10) (flagAt w 0)) none
  | 66 => rowWhere w 1 9 0 (.vRcp (regAt w 16) (regAt w 10) (flagAt w 0)) none
  | 67 => rowWhere w 1 9 0 (.vRsq (regAt w 16) (regAt w 10) (flagAt w 0)) none
  | 68 => rowWhere w 1 9 0 (.vTanh (regAt w 16) (regAt w 10) (flagAt w 0)) none
  | 69 => rowWhere w 1 9 0 (.vSigm (regAt w 16) (regAt w 10) (flagAt w 0)) none
  | 72 => rowWhere w 3 13 0 (.vRng (regAt w 16) (fieldAt w 1 2) (flagAt w 0)) none
  | 73 => rowWhere w 1 3 0 (.vStop (regAt w 16) (regAt w 10) (regAt w 4) (flagAt w 0)) none
  | 74 => rowWhere w 1 11 0 (.vLoop (regAt w 16) (fieldAt w 12 4) (flagAt w 0)) none
  | _ => none

/-- Opcodes of engine 2 (R97). -/
def decodeMatrix (w : BitVec 32) : Nat → Option Instr
  | 1 => rowWhere w 1 3 0 (.mMma (regAt w 16) (regAt w 10) (regAt w 4) (flagAt w 0)) none
  | 2 => rowWhere w 1 3 0 (.mMmaG (regAt w 16) (regAt w 10) (regAt w 4) (flagAt w 0)) none
  | 3 => some (.mLdw (regAt w 16) (regAt w 10) (regAt w 4) (fieldAt w 1 3) (flagAt w 0))
  | 4 => rowWhere w 10 12 0 (.mSwap (fieldAt w 1 9) (flagAt w 0)) none
  | 5 => rowWhere w 1 9 0 (.mZero (regAt w 16) (regAt w 10) (flagAt w 0)) none
  | 6 => rowWhere w 1 3 0 (.mRdz (regAt w 16) (regAt w 10) (regAt w 4) (flagAt w 0)) none
  | 7 => rowWhere w 1 3 0 (.mWrz (regAt w 16) (regAt w 10) (regAt w 4) (flagAt w 0)) none
  | 8 => rowWhere w 9 1 0 (.mCkpt (regAt w 16) (regAt w 10) (fieldAt w 5 4) (fieldAt w 1 4) (flagAt w 0)) none
  | 9 => rowWhere w 9 1 0 (.mRest (regAt w 16) (regAt w 10) (fieldAt w 5 4) (fieldAt w 1 4) (flagAt w 0)) none
  | 10 => rowWhere w 1 3 0 (.mEpi (regAt w 16) (regAt w 10) (regAt w 4) (flagAt w 0)) none
  | 11 => rowWhere w 1 11 0 (.mLoop (regAt w 16) (fieldAt w 12 4) (flagAt w 0)) none
  | 12 => rowWhere w 1 9 0 (.mTsub (regAt w 16) (regAt w 10) (flagAt w 0)) none
  | 13 => rowWhere w 1 9 0 (.mTqry (regAt w 16) (regAt w 10) (flagAt w 0)) none
  | 14 => rowWhere w 2 8 0 (.mTcan (regAt w 16) (regAt w 10) (flagAt w 1) (flagAt w 0)) none
  | 15 => rowWhere w 2 14 0 (.mRdv (regAt w 16) (flagAt w 1) (flagAt w 0)) none
  | 16 => rowWhere w 1 9 0 (.mWid (regAt w 16) (regAt w 10) (flagAt w 0)) none
  | _ => none

/-- Opcodes of engine 3 (R97). -/
def decodeCopy (w : BitVec 32) : Nat → Option Instr
  | 1 => some (.cCp (regAt w 16) (regAt w 10) (regAt w 4) (fieldAt w 1 3) (flagAt w 0))
  | 2 => rowWhere w 3 1 0 (.cCpd (regAt w 16) (regAt w 10) (regAt w 4) (fieldAt w 1 2) (flagAt w 0)) none
  | 3 => some (.cGath (regAt w 16) (regAt w 10) (regAt w 4) (fieldAt w 1 3) (flagAt w 0))
  | 4 => some (.cScat (regAt w 16) (regAt w 10) (regAt w 4) (fieldAt w 1 3) (flagAt w 0))
  | 5 => some (.cFill (regAt w 16) (regAt w 10) (fieldAt w 1 9) (flagAt w 0))
  | 6 => rowWhere w 3 1 0 (.cCvt (regAt w 16) (regAt w 10) (regAt w 4) (fieldAt w 1 2) (flagAt w 0)) none
  | 7 => rowWhere w 3 1 0 (.cBind (regAt w 16) (regAt w 10) (regAt w 4) (fieldAt w 1 2) (flagAt w 0)) none
  | 8 => rowWhere w 2 2 0 (.cKvg (regAt w 16) (regAt w 10) (regAt w 4) (flagAt w 1) (flagAt w 0)) none
  | 9 => rowWhere w 2 2 0 (.cKvs (regAt w 16) (regAt w 10) (regAt w 4) (flagAt w 1) (flagAt w 0)) none
  | 10 => rowWhere w 2 2 0 (.cGm (regAt w 16) (regAt w 10) (regAt w 4) (flagAt w 1) (flagAt w 0)) none
  | 11 => rowWhere w 1 3 0 (.cPeer (regAt w 16) (regAt w 10) (regAt w 4) (flagAt w 0)) none
  | 12 => some (.cRwin (regAt w 16) (regAt w 10) (regAt w 4) (fieldAt w 1 3) (flagAt w 0))
  | 13 => rowWhere w 2 8 0 (.cPf (regAt w 16) (regAt w 10) (flagAt w 1) (flagAt w 0)) none
  | 14 => rowWhere w 1 11 0 (.cLoop (regAt w 16) (fieldAt w 12 4) (flagAt w 0)) none
  | 16 => rowWhere w 1 15 0 (.cUnbind (regAt w 16) (flagAt w 0)) none
  | 17 => rowWhere w 2 8 0 (.cDsc (regAt w 16) (regAt w 10) (flagAt w 1) (flagAt w 0)) none
  | 18 => if bitsAt w 1 9 = 0 then rowWhere w 16 6 0 (.cBbinv (regAt w 10) (flagAt w 0)) none else none
  | _ => none

/-- Opcodes of engine 4 (R97). -/
def decodeBank (w : BitVec 32) : Nat → Option Instr
  | 1 => rowWhere w 3 1 0 (.bAdd (regAt w 16) (regAt w 10) (regAt w 4) (flagAt w 2) (flagAt w 1) (flagAt w 0)) none
  | 2 => rowWhere w 3 1 0 (.bMin (regAt w 16) (regAt w 10) (regAt w 4) (flagAt w 2) (flagAt w 1) (flagAt w 0)) none
  | 3 => rowWhere w 3 1 0 (.bMax (regAt w 16) (regAt w 10) (regAt w 4) (flagAt w 2) (flagAt w 1) (flagAt w 0)) none
  | 4 => rowWhere w 3 1 0 (.bMinu (regAt w 16) (regAt w 10) (regAt w 4) (flagAt w 2) (flagAt w 1) (flagAt w 0)) none
  | 5 => rowWhere w 3 1 0 (.bMaxu (regAt w 16) (regAt w 10) (regAt w 4) (flagAt w 2) (flagAt w 1) (flagAt w 0)) none
  | 6 => rowWhere w 3 1 0 (.bAnd (regAt w 16) (regAt w 10) (regAt w 4) (flagAt w 2) (flagAt w 1) (flagAt w 0)) none
  | 7 => rowWhere w 3 1 0 (.bOr (regAt w 16) (regAt w 10) (regAt w 4) (flagAt w 2) (flagAt w 1) (flagAt w 0)) none
  | 8 => rowWhere w 3 1 0 (.bXor (regAt w 16) (regAt w 10) (regAt w 4) (flagAt w 2) (flagAt w 1) (flagAt w 0)) none
  | 9 => rowWhere w 3 1 0 (.bSwap (regAt w 16) (regAt w 10) (regAt w 4) (flagAt w 2) (flagAt w 1) (flagAt w 0)) none
  | 10 => rowWhere w 3 1 0 (.bCas (regAt w 16) (regAt w 10) (regAt w 4) (flagAt w 2) (flagAt w 1) (flagAt w 0)) none
  | 11 => rowWhere w 1 3 0 (.bFadd (regAt w 16) (regAt w 10) (regAt w 4) (flagAt w 0)) none
  | 12 => rowWhere w 1 3 0 (.bFadb (regAt w 16) (regAt w 10) (regAt w 4) (flagAt w 0)) none
  | 13 => rowWhere w 2 2 0 (.bScal (regAt w 16) (regAt w 10) (regAt w 4) (flagAt w 1) (flagAt w 0)) none
  | 14 => rowWhere w 2 2 0 (.bAxpy (regAt w 16) (regAt w 10) (regAt w 4) (flagAt w 1) (flagAt w 0)) none
  | 15 => some (.bWait (regAt w 16) (regAt w 10) (regAt w 4) (fieldAt w 2 2) (flagAt w 1) (flagAt w 0))
  | 16 => rowWhere w 1 3 0 (.bVst (regAt w 16) (regAt w 10) (regAt w 4) (flagAt w 0)) none
  | 17 => rowWhere w 2 2 0 (.bVld (regAt w 16) (regAt w 10) (regAt w 4) (flagAt w 1) (flagAt w 0)) none
  | 18 => rowWhere w 2 2 0 (.bVldLe (regAt w 16) (regAt w 10) (regAt w 4) (flagAt w 1) (flagAt w 0)) none
  | 19 => rowWhere w 1 9 0 (.bVretire (regAt w 16) (regAt w 10) (flagAt w 0)) none
  | 20 => rowWhere w 1 9 0 (.bVnew (regAt w 16) (regAt w 10) (flagAt w 0)) none
  | 21 => rowWhere w 1 9 0 (.bVfloor (regAt w 16) (regAt w 10) (flagAt w 0)) none
  | 22 => rowWhere w 1 9 0 (.bVreg (regAt w 16) (regAt w 10) (flagAt w 0)) (rowWhere w 1 9 1 (.bVregFree (regAt w 16) (regAt w 10) (flagAt w 0)) (rowWhere w 1 9 2 (.bVregRd (regAt w 16) (regAt w 10) (flagAt w 0)) (rowWhere w 1 9 3 (.bVregSpill (regAt w 16) (regAt w 10) (flagAt w 0)) none)))
  | _ => none

/-- Opcodes of engine 5 (R97). -/
def decodeAttention (w : BitVec 32) : Nat → Option Instr
  | 1 => rowWhere w 3 1 0 (.aAttn (regAt w 16) (regAt w 10) (regAt w 4) (flagAt w 2) (flagAt w 1) (flagAt w 0)) none
  | 2 => rowWhere w 3 1 0 (.aPart (regAt w 16) (regAt w 10) (regAt w 4) (flagAt w 2) (flagAt w 1) (flagAt w 0)) none
  | 3 => rowWhere w 2 2 0 (.aMerge (regAt w 16) (regAt w 10) (regAt w 4) (flagAt w 1) (flagAt w 0)) none
  | 4 => rowWhere w 10 6 0 (.aCfg (regAt w 16) (fieldAt w 1 9) (flagAt w 0)) none
  | 5 => if bitsAt w 1 9 = 0 then rowWhere w 16 6 0 (.aBinv (regAt w 10) (flagAt w 0)) none else none
  | 6 => if bitsAt w 2 2 = 0 then rowWhere w 16 6 0 (.aPref (regAt w 10) (regAt w 4) (flagAt w 1) (flagAt w 0)) none else none
  | _ => none

/-- Opcodes of engine 6 (R97). -/
def decodeCache (w : BitVec 32) : Nat → Option Instr
  | 1 => rowWhere w 1 9 0 (.kPool (regAt w 16) (regAt w 10) (flagAt w 0)) (if bitsAt w 1 9 = 1 then rowWhere w 16 6 0 (.kPoolOff (regAt w 10) (flagAt w 0)) none else none)
  | 2 => rowWhere w 1 3 0 (.kTbl (regAt w 16) (regAt w 10) (regAt w 4) (flagAt w 0)) none
  | 3 => rowWhere w 3 1 0 (.kApp (regAt w 16) (regAt w 10) (regAt w 4) (flagAt w 2) (flagAt w 1) (flagAt w 0)) none
  | 4 => rowWhere w 2 2 0 (.kWr (regAt w 16) (regAt w 10) (regAt w 4) (flagAt w 1) (flagAt w 0)) none
  | 5 => rowWhere w 1 3 0 (.kFork (regAt w 16) (regAt w 10) (regAt w 4) (flagAt w 0)) none
  | 6 => rowWhere w 1 9 0 (.kTrunc (regAt w 16) (regAt w 10) (flagAt w 0)) none
  | 7 => rowWhere w 1 15 0 (.kRet (regAt w 16) (flagAt w 0)) none
  | 8 => rowWhere w 1 3 0 (.kWinOpen (regAt w 16) (regAt w 10) (regAt w 4) (flagAt w 0)) none
  | 9 => rowWhere w 2 2 0 (.kCommit (regAt w 16) (regAt w 10) (regAt w 4) (flagAt w 1) (flagAt w 0)) none
  | 10 => rowWhere w 2 8 0 (.kAbort (regAt w 16) (regAt w 10) (flagAt w 1) (flagAt w 0)) none
  | 11 => rowWhere w 1 3 0 (.kCkpt (regAt w 16) (regAt w 10) (regAt w 4) (flagAt w 0)) none
  | 12 => rowWhere w 1 9 0 (.kLen (regAt w 16) (regAt w 10) (flagAt w 0)) none
  | 13 => if bitsAt w 1 9 = 0 then rowWhere w 16 6 0 (.kBbinv (regAt w 10) (flagAt w 0)) none else none
  | 16 => rowWhere w 2 2 0 (.kFalloc (regAt w 16) (regAt w 10) (regAt w 4) (flagAt w 1) (flagAt w 0)) none
  | 17 => rowWhere w 1 3 0 (.kFfree (regAt w 16) (regAt w 10) (regAt w 4) (flagAt w 0)) none
  | 18 => rowWhere w 1 9 0 (.kFscrub (regAt w 16) (regAt w 10) (flagAt w 0)) (rowWhere w 1 3 1 (.kFscrubTake (regAt w 16) (regAt w 10) (regAt w 4) (flagAt w 0)) none)
  | 19 => rowWhere w 1 3 0 (.kFref (regAt w 16) (regAt w 10) (regAt w 4) (flagAt w 0)) none
  | 20 => rowWhere w 1 3 0 (.kFqryBlk (regAt w 16) (regAt w 10) (regAt w 4) (flagAt w 0)) (rowWhere w 1 9 1 (.kFqryPool (regAt w 16) (regAt w 10) (flagAt w 0)) none)
  | _ => none

/-- Opcodes of engine 7 (R97, R90). -/
def decodePrefix (w : BitVec 32) : Nat → Option Instr
  | 1 => some (.xImm (fieldAt w 0 22))
  | 2 => rowWhere w 0 4 0 (.xCap (regAt w 16) (regAt w 10) (regAt w 4)) none
  | 3 => rowWhere w 3 19 0 (.xRnd (fieldAt w 0 3)) none
  | 4 => rowWhere w 8 14 0 (.xPm (flagAt w 7) (flagAt w 6) (regAt w 0)) none
  | 5 => rowWhere w 5 17 0 (.xOrd (fieldAt w 3 2) (fieldAt w 0 3)) none
  | 6 => rowWhere w 4 18 0 (.xHint (fieldAt w 0 4)) none
  | _ => none

/-- The row that the engine code and opcode of `w` name, if its reserved fields are zero (R84, R100). -/
def decodeFields (w : BitVec 32) : Option Instr :=
  match bitsAt w 29 3 with
  | 0 => decodeScalar w (bitsAt w 22 7)
  | 1 => decodeVector w (bitsAt w 22 7)
  | 2 => decodeMatrix w (bitsAt w 22 7)
  | 3 => decodeCopy w (bitsAt w 22 7)
  | 4 => decodeBank w (bitsAt w 22 7)
  | 5 => decodeAttention w (bitsAt w 22 7)
  | 6 => decodeCache w (bitsAt w 22 7)
  | _ => decodePrefix w (bitsAt w 22 7)

/-- The instruction that the word `w` encodes; none where the splitter traps UNDEF on the word alone (R87, R99). -/
def decodeWord (w : BitVec 32) : Option Instr :=
  match decodeFields w with
  | some i => if i.wellFormed then some i else none
  | none => none

/-- A word of four bytes, the first at the lowest address (R84). -/
def wordOfBytes (b0 b1 b2 b3 : BitVec 8) : BitVec 32 :=
  BitVec.ofNat 32 (b0.toNat + b1.toNat * 256 + b2.toNat * 65536 + b3.toNat * 16777216)

/-- Decoding of text: the instruction of the first word and the bytes that follow it; none where fewer than four bytes
are left or the word is undefined. -/
def decodeBytes : List (BitVec 8) → Option (Instr × List (BitVec 8))
  | b0 :: b1 :: b2 :: b3 :: rest =>
    match decodeWord (wordOfBytes b0 b1 b2 b3) with
    | some i => some (i, rest)
    | none => none
  | _ => none

/-- The instruction read from a table row's word (every row with an encoding has 32 bits). -/
def decodeTableWord (nbits w : Nat) : Option Instr :=
  if nbits = 32 then
    match decodeBytes [BitVec.ofNat 8 w, BitVec.ofNat 8 (w / 256), BitVec.ofNat 8 (w / 65536),
        BitVec.ofNat 8 (w / 16777216)] with
    | some (i, _) => some i
    | none => none
  else none

/-- Constructors that stand for instruction words; the others are events, which have no encoding. -/
def Instr.isWord : Instr → Bool
  | .add _ _ _ => true
  | .sub _ _ _ => true
  | .and _ _ _ => true
  | .or _ _ _ => true
  | .xor _ _ _ => true
  | .sll _ _ _ => true
  | .srl _ _ _ => true
  | .sra _ _ _ => true
  | .slt _ _ _ => true
  | .sltu _ _ _ => true
  | .mul _ _ _ => true
  | .mulh _ _ _ => true
  | .mulhu _ _ _ => true
  | .div _ _ _ => true
  | .divu _ _ _ => true
  | .rem _ _ _ => true
  | .remu _ _ _ => true
  | .min _ _ _ => true
  | .max _ _ _ => true
  | .clz _ _ => true
  | .ctz _ _ => true
  | .cmov _ _ _ => true
  | .addi _ _ _ => true
  | .andi _ _ _ => true
  | .ori _ _ _ => true
  | .xori _ _ _ => true
  | .slli _ _ _ => true
  | .srli _ _ _ => true
  | .srai _ _ _ => true
  | .li _ _ => true
  | .lui _ _ => true
  | .auipc _ _ => true
  | .ldB _ _ _ => true
  | .ldH _ _ _ => true
  | .ldW _ _ _ => true
  | .ldD _ _ _ => true
  | .ldBu _ _ _ => true
  | .ldHu _ _ _ => true
  | .ldWu _ _ _ => true
  | .stB _ _ _ => true
  | .stH _ _ _ => true
  | .stW _ _ _ => true
  | .stD _ _ _ => true
  | .ldsW _ _ _ => true
  | .ldsD _ _ _ => true
  | .stsW _ _ _ => true
  | .stsD _ _ _ => true
  | .beq _ _ _ => true
  | .bne _ _ _ => true
  | .blt _ _ _ => true
  | .bge _ _ _ => true
  | .bltu _ _ _ => true
  | .bgeu _ _ _ => true
  | .j _ => true
  | .call _ => true
  | .jr _ => true
  | .calli _ _ _ => true
  | .endStrand => true
  | .brk _ => true
  | .tret => true
  | .csrr _ _ => true
  | .csrw _ _ _ => true
  | .csrs _ _ _ => true
  | .csrc _ _ _ => true
  | .rdw _ _ => true
  | .phOpen _ => true
  | .phClose _ => true
  | .ph _ => true
  | .fenceSc _ => true
  | .qjoin _ => true
  | .ifence => true
  | .rbind _ _ => true
  | .rwe _ _ _ _ => true
  | .rwf _ _ _ _ => true
  | .radvT _ _ _ => true
  | .radvH _ _ _ => true
  | .barInit _ _ _ => true
  | .barArr _ _ _ _ => true
  | .barExp _ _ _ => true
  | .barWait _ _ _ => true
  | .tlbiVa _ _ => true
  | .tlbiCtx _ => true
  | .tlbiAll => true
  | .xlat _ _ _ => true
  | .slKeyNew _ _ _ => true
  | .slKeyKill _ _ => true
  | .slMeas _ _ _ => true
  | .slMeasRd _ _ _ => true
  | .slRep _ _ _ => true
  | .xImm _ => true
  | .xCap _ _ _ => true
  | .xRnd _ => true
  | .xPm _ _ _ => true
  | .xOrd _ _ => true
  | .xHint _ => true
  | .vLd _ _ _ _ => true
  | .vSt _ _ _ _ => true
  | .vLds _ _ _ _ => true
  | .vSts _ _ _ _ => true
  | .vLdh _ _ _ _ _ => true
  | .vSth _ _ _ _ _ => true
  | .vMov _ _ _ => true
  | .vBcs _ _ _ => true
  | .vIota _ _ _ _ => true
  | .vPset _ _ _ _ => true
  | .vAdd _ _ _ _ => true
  | .vSub _ _ _ _ => true
  | .vMul _ _ _ _ => true
  | .vFma _ _ _ _ _ => true
  | .vMin _ _ _ _ => true
  | .vMax _ _ _ _ => true
  | .vAbs _ _ _ => true
  | .vNeg _ _ _ => true
  | .vIadd _ _ _ _ => true
  | .vIsub _ _ _ _ => true
  | .vImul _ _ _ _ _ => true
  | .vImulw _ _ _ _ _ => true
  | .vAnd _ _ _ _ => true
  | .vOr _ _ _ _ => true
  | .vXor _ _ _ _ => true
  | .vNot _ _ _ => true
  | .vShl _ _ _ _ => true
  | .vShr _ _ _ _ => true
  | .vSha _ _ _ _ => true
  | .vImin _ _ _ _ _ => true
  | .vImax _ _ _ _ _ => true
  | .vCmp _ _ _ _ _ => true
  | .vIcmp _ _ _ _ _ => true
  | .vSel _ _ _ _ _ => true
  | .vPand _ _ _ _ => true
  | .vPor _ _ _ _ => true
  | .vPxor _ _ _ _ => true
  | .vPnot _ _ _ => true
  | .vRotr _ _ _ _ => true
  | .vRotc _ _ _ _ => true
  | .vBcr _ _ _ _ => true
  | .vBcc _ _ _ _ => true
  | .vRedr _ _ _ _ => true
  | .vRedc _ _ _ _ => true
  | .vCvtf _ _ _ _ => true
  | .vCvti _ _ _ _ => true
  | .vCvtq _ _ _ _ => true
  | .vExp2 _ _ _ => true
  | .vLog2 _ _ _ => true
  | .vRcp _ _ _ => true
  | .vRsq _ _ _ => true
  | .vTanh _ _ _ => true
  | .vSigm _ _ _ => true
  | .vRng _ _ _ => true
  | .vStop _ _ _ _ => true
  | .vLoop _ _ _ => true
  | .mMma _ _ _ _ => true
  | .mMmaG _ _ _ _ => true
  | .mLdw _ _ _ _ _ => true
  | .mSwap _ _ => true
  | .mZero _ _ _ => true
  | .mRdz _ _ _ _ => true
  | .mWrz _ _ _ _ => true
  | .mCkpt _ _ _ _ _ => true
  | .mRest _ _ _ _ _ => true
  | .mEpi _ _ _ _ => true
  | .mLoop _ _ _ => true
  | .mTsub _ _ _ => true
  | .mTqry _ _ _ => true
  | .mTcan _ _ _ _ => true
  | .mRdv _ _ _ => true
  | .mWid _ _ _ => true
  | .cCp _ _ _ _ _ => true
  | .cCpd _ _ _ _ _ => true
  | .cGath _ _ _ _ _ => true
  | .cScat _ _ _ _ _ => true
  | .cFill _ _ _ _ => true
  | .cCvt _ _ _ _ _ => true
  | .cBind _ _ _ _ _ => true
  | .cKvg _ _ _ _ _ => true
  | .cKvs _ _ _ _ _ => true
  | .cGm _ _ _ _ _ => true
  | .cPeer _ _ _ _ => true
  | .cRwin _ _ _ _ _ => true
  | .cPf _ _ _ _ => true
  | .cLoop _ _ _ => true
  | .cUnbind _ _ => true
  | .cDsc _ _ _ _ => true
  | .cBbinv _ _ => true
  | .bAdd _ _ _ _ _ _ => true
  | .bMin _ _ _ _ _ _ => true
  | .bMax _ _ _ _ _ _ => true
  | .bMinu _ _ _ _ _ _ => true
  | .bMaxu _ _ _ _ _ _ => true
  | .bAnd _ _ _ _ _ _ => true
  | .bOr _ _ _ _ _ _ => true
  | .bXor _ _ _ _ _ _ => true
  | .bSwap _ _ _ _ _ _ => true
  | .bCas _ _ _ _ _ _ => true
  | .bFadd _ _ _ _ => true
  | .bFadb _ _ _ _ => true
  | .bScal _ _ _ _ _ => true
  | .bAxpy _ _ _ _ _ => true
  | .bWait _ _ _ _ _ _ => true
  | .bVst _ _ _ _ => true
  | .bVld _ _ _ _ _ => true
  | .bVldLe _ _ _ _ _ => true
  | .bVretire _ _ _ => true
  | .bVnew _ _ _ => true
  | .bVfloor _ _ _ => true
  | .bVreg _ _ _ => true
  | .bVregFree _ _ _ => true
  | .bVregRd _ _ _ => true
  | .bVregSpill _ _ _ => true
  | .aAttn _ _ _ _ _ _ => true
  | .aPart _ _ _ _ _ _ => true
  | .aMerge _ _ _ _ _ => true
  | .aCfg _ _ _ => true
  | .aBinv _ _ => true
  | .aPref _ _ _ _ => true
  | .kPool _ _ _ => true
  | .kPoolOff _ _ => true
  | .kTbl _ _ _ _ => true
  | .kApp _ _ _ _ _ _ => true
  | .kWr _ _ _ _ _ => true
  | .kFork _ _ _ _ => true
  | .kTrunc _ _ _ => true
  | .kRet _ _ => true
  | .kWinOpen _ _ _ _ => true
  | .kCommit _ _ _ _ _ => true
  | .kAbort _ _ _ _ => true
  | .kCkpt _ _ _ _ => true
  | .kLen _ _ _ => true
  | .kBbinv _ _ => true
  | .kFalloc _ _ _ _ _ => true
  | .kFfree _ _ _ _ => true
  | .kFscrub _ _ _ => true
  | .kFscrubTake _ _ _ _ => true
  | .kFref _ _ _ _ => true
  | .kFqryBlk _ _ _ _ => true
  | .kFqryPool _ _ _ => true
  | .steerResume => false
  | .remoteUnitReport _ _ => false
  | .trapTaken => false
  | .gangPlace _ _ => false
  | .gangPreempt _ => false
  | .gangResume _ _ => false
  | .strandRetire => false
  | .waitSwitchTimeout => false
  | .turnQuantumExpiry => false
  | .bankWaitSatisfied => false
  | .versionLoadTimeout => false
  | .pageRequestPost _ => false
  | .prqheadWrite _ _ => false
  | .prspWrite _ _ _ => false
  | .s2invWrite _ _ => false
  | .s2invDone _ => false
  | .dbmctlWrite _ _ => false
  | .dbmSwitchDone _ => false
  | .weightRegionEnable _ _ => false
  | .weightRegionHashDone _ _ => false
  | .weightRegionDisable _ _ => false
  | .weightRegionOff _ _ => false
  | .taskAccept => false
  | .taskDeadline _ => false
  | .passPlace _ => false
  | .passComplete _ => false
  | .draperExpire _ => false
  | .fullerScrubStart _ _ => false
  | .scrubComplete _ _ => false
  | .hostMemoryAccess _ _ _ _ => false
  | .kickRegisterWrite _ _ _ => false
  | .kick _ _ => false
  | .queueEnable _ _ => false
  | .queueDisable _ _ => false
  | .noOpPacket _ _ => false
  | .docketPacket _ _ => false
  | .queueFencePacket _ _ => false
  | .fenceComplete _ _ => false
  | .signalPacket _ _ => false
  | .memoryWaitPacket _ _ => false
  | .memoryWaitSatisfied _ _ => false
  | .batchStepPacket _ _ => false
  | .stepBoundary _ _ => false
  | .stepRetirement _ _ => false
  | .completionRecordWrite _ _ => false
  | .cqheadWrite _ _ _ => false
  | .hangDetected _ => false
  | .decodeImageLoad _ _ _ => false
  | .partitionHold _ => false
  | .partitionRst _ => false
  | .partitionRelease _ => false
  | .ownedRangeReady _ => false
  | .functionReset _ => false
  | .functionResetDone _ => false
  | .functionLevelReset _ => false
  | .functionEnable _ _ => false
  | .privqClear _ => false
  | .deviceReset => false
  | .violClear => false
  | .untrustedPrivateAccess _ _ _ => false
  | .unsupportedRequest => false
  | .migrationPause _ => false
  | .migrationPaused _ => false
  | .migrationResume _ => false
  | .peerUnitArrival _ _ _ _ _ _ _ _ _ => false
  | .peerUnitResend => false
  | .rwinContribution _ _ _ _ _ _ => false
  | .rwinHomeWrite _ _ => false
  | .flitRetransmit _ => false
  | .portDown _ => false
  | .advertisePeriod => false
  | .integReread _ _ => false
  | .powerOn => false
  | .sramUncorrectableError _ _ => false
  | .correctableError => false
  | .ceWindowExpiry => false
  | .powerBrake => false
  | .powerLimitThrottle _ _ => false
  | .thermalThreshold _ _ _ => false
  | .tlmRefresh _ _ _ => false
  | .ckptStart => false
  | .ckptDone => false
  | .ckptResume => false
  | .scrivselWrite _ => false
  | .registerWrite _ _ _ _ => false
  | .engineWordPerformed _ _ => false
  | .undefinedEncoding _ => false
  | .portTrained _ => false
  | .powerRemoved _ => false
  | .tdispRequest _ _ => false

/-- The number of an instruction's word: the fixed bits of its row and each operand field at its place. Events have no
encoding; they give 0, the word that no row has (R98). -/
def Instr.encodeNat : Instr → Nat
  | .add d a b => 0x00400000 + d.toNat * 65536 + a.toNat * 1024 + b.toNat * 16
  | .sub d a b => 0x00800000 + d.toNat * 65536 + a.toNat * 1024 + b.toNat * 16
  | .and d a b => 0x00C00000 + d.toNat * 65536 + a.toNat * 1024 + b.toNat * 16
  | .or d a b => 0x01000000 + d.toNat * 65536 + a.toNat * 1024 + b.toNat * 16
  | .xor d a b => 0x01400000 + d.toNat * 65536 + a.toNat * 1024 + b.toNat * 16
  | .sll d a b => 0x01800000 + d.toNat * 65536 + a.toNat * 1024 + b.toNat * 16
  | .srl d a b => 0x01C00000 + d.toNat * 65536 + a.toNat * 1024 + b.toNat * 16
  | .sra d a b => 0x02000000 + d.toNat * 65536 + a.toNat * 1024 + b.toNat * 16
  | .slt d a b => 0x02400000 + d.toNat * 65536 + a.toNat * 1024 + b.toNat * 16
  | .sltu d a b => 0x02800000 + d.toNat * 65536 + a.toNat * 1024 + b.toNat * 16
  | .mul d a b => 0x02C00000 + d.toNat * 65536 + a.toNat * 1024 + b.toNat * 16
  | .mulh d a b => 0x03000000 + d.toNat * 65536 + a.toNat * 1024 + b.toNat * 16
  | .mulhu d a b => 0x03400000 + d.toNat * 65536 + a.toNat * 1024 + b.toNat * 16
  | .div d a b => 0x03800000 + d.toNat * 65536 + a.toNat * 1024 + b.toNat * 16
  | .divu d a b => 0x03C00000 + d.toNat * 65536 + a.toNat * 1024 + b.toNat * 16
  | .rem d a b => 0x04000000 + d.toNat * 65536 + a.toNat * 1024 + b.toNat * 16
  | .remu d a b => 0x04400000 + d.toNat * 65536 + a.toNat * 1024 + b.toNat * 16
  | .min d a b => 0x04800000 + d.toNat * 65536 + a.toNat * 1024 + b.toNat * 16
  | .max d a b => 0x04C00000 + d.toNat * 65536 + a.toNat * 1024 + b.toNat * 16
  | .clz d a => 0x05000000 + d.toNat * 65536 + a.toNat * 1024
  | .ctz d a => 0x05400000 + d.toNat * 65536 + a.toNat * 1024
  | .cmov d a b => 0x05800000 + d.toNat * 65536 + a.toNat * 1024 + b.toNat * 16
  | .addi d a i => 0x06000000 + d.toNat * 65536 + a.toNat * 1024 + i.toNat
  | .andi d a i => 0x06400000 + d.toNat * 65536 + a.toNat * 1024 + i.toNat
  | .ori d a i => 0x06800000 + d.toNat * 65536 + a.toNat * 1024 + i.toNat
  | .xori d a i => 0x06C00000 + d.toNat * 65536 + a.toNat * 1024 + i.toNat
  | .slli d a i => 0x07000000 + d.toNat * 65536 + a.toNat * 1024 + i.toNat
  | .srli d a i => 0x07400000 + d.toNat * 65536 + a.toNat * 1024 + i.toNat
  | .srai d a i => 0x07800000 + d.toNat * 65536 + a.toNat * 1024 + i.toNat
  | .li d i => 0x08000000 + d.toNat * 65536 + i.toNat
  | .lui d i => 0x08400000 + d.toNat * 65536 + i.toNat
  | .auipc d i => 0x08800000 + d.toNat * 65536 + i.toNat
  | .ldB d a i => 0x0A000000 + d.toNat * 65536 + a.toNat * 1024 + i.toNat
  | .ldH d a i => 0x0A400000 + d.toNat * 65536 + a.toNat * 1024 + i.toNat
  | .ldW d a i => 0x0A800000 + d.toNat * 65536 + a.toNat * 1024 + i.toNat
  | .ldD d a i => 0x0AC00000 + d.toNat * 65536 + a.toNat * 1024 + i.toNat
  | .ldBu d a i => 0x0B000000 + d.toNat * 65536 + a.toNat * 1024 + i.toNat
  | .ldHu d a i => 0x0B400000 + d.toNat * 65536 + a.toNat * 1024 + i.toNat
  | .ldWu d a i => 0x0B800000 + d.toNat * 65536 + a.toNat * 1024 + i.toNat
  | .stB b a i => 0x0C000000 + b.toNat * 65536 + a.toNat * 1024 + i.toNat
  | .stH b a i => 0x0C400000 + b.toNat * 65536 + a.toNat * 1024 + i.toNat
  | .stW b a i => 0x0C800000 + b.toNat * 65536 + a.toNat * 1024 + i.toNat
  | .stD b a i => 0x0CC00000 + b.toNat * 65536 + a.toNat * 1024 + i.toNat
  | .ldsW d a i => 0x0D000000 + d.toNat * 65536 + a.toNat * 1024 + i.toNat
  | .ldsD d a i => 0x0D400000 + d.toNat * 65536 + a.toNat * 1024 + i.toNat
  | .stsW b a i => 0x0D800000 + b.toNat * 65536 + a.toNat * 1024 + i.toNat
  | .stsD b a i => 0x0DC00000 + b.toNat * 65536 + a.toNat * 1024 + i.toNat
  | .beq a b o => 0x0E000000 + a.toNat * 65536 + b.toNat * 1024 + o.toNat
  | .bne a b o => 0x0E400000 + a.toNat * 65536 + b.toNat * 1024 + o.toNat
  | .blt a b o => 0x0E800000 + a.toNat * 65536 + b.toNat * 1024 + o.toNat
  | .bge a b o => 0x0EC00000 + a.toNat * 65536 + b.toNat * 1024 + o.toNat
  | .bltu a b o => 0x0F000000 + a.toNat * 65536 + b.toNat * 1024 + o.toNat
  | .bgeu a b o => 0x0F400000 + a.toNat * 65536 + b.toNat * 1024 + o.toNat
  | .j o => 0x0F800000 + o.toNat
  | .call o => 0x0FC00000 + o.toNat
  | .jr a => 0x10000000 + a.toNat * 1024
  | .calli d a i => 0x10400000 + d.toNat * 65536 + a.toNat * 1024 + i.toNat
  | .endStrand => 0x10800000
  | .brk i => 0x10C00000 + i.toNat
  | .tret => 0x11000000
  | .csrr d c => 0x12000000 + d.toNat * 65536 + c.toNat
  | .csrw d a c => 0x12400000 + d.toNat * 65536 + a.toNat * 1024 + c.toNat
  | .csrs d a c => 0x12800000 + d.toNat * 65536 + a.toNat * 1024 + c.toNat
  | .csrc d a c => 0x12C00000 + d.toNat * 65536 + a.toNat * 1024 + c.toNat
  | .rdw d a => 0x13000000 + d.toNat * 65536 + a.toNat * 1024
  | .phOpen s => 0x14000000 + s.toNat
  | .phClose s => 0x14400000 + s.toNat
  | .ph s => 0x14800000 + s.toNat
  | .fenceSc s => 0x14C00000 + s.toNat
  | .qjoin m => 0x15000000 + m.toNat * 8
  | .ifence => 0x15400000
  | .rbind a h => 0x16000000 + a.toNat * 1024 + h.toNat * 16
  | .rwe d a h i => 0x16400000 + d.toNat * 65536 + a.toNat * 1024 + h.toNat * 16 + i.toNat
  | .rwf d a h i => 0x16800000 + d.toNat * 65536 + a.toNat * 1024 + h.toNat * 16 + i.toNat
  | .radvT a h i => 0x16C00000 + a.toNat * 1024 + h.toNat * 16 + i.toNat
  | .radvH a h i => 0x17000000 + a.toNat * 1024 + h.toNat * 16 + i.toNat
  | .barInit g a b => 0x18000000 + g.toNat * 65536 + a.toNat * 1024 + b.toNat * 16
  | .barArr d a h i => 0x18400000 + d.toNat * 65536 + a.toNat * 1024 + h.toNat * 16 + i.toNat
  | .barExp a h i => 0x18800000 + a.toNat * 1024 + h.toNat * 16 + i.toNat
  | .barWait d h i => 0x18C00000 + d.toNat * 65536 + h.toNat * 16 + i.toNat
  | .tlbiVa a b => 0x1E000000 + a.toNat * 1024 + b.toNat * 16
  | .tlbiCtx a => 0x1E400000 + a.toNat * 1024
  | .tlbiAll => 0x1E800000
  | .xlat d a b => 0x1EC00000 + d.toNat * 65536 + a.toNat * 1024 + b.toNat * 16
  | .slKeyNew d a b => 0x1F000000 + d.toNat * 65536 + a.toNat * 1024 + b.toNat * 16
  | .slKeyKill d a => 0x1F000001 + d.toNat * 65536 + a.toNat * 1024
  | .slMeas d a b => 0x1F400000 + d.toNat * 65536 + a.toNat * 1024 + b.toNat * 16
  | .slMeasRd d a b => 0x1F400001 + d.toNat * 65536 + a.toNat * 1024 + b.toNat * 16
  | .slRep d a b => 0x1F800000 + d.toNat * 65536 + a.toNat * 1024 + b.toNat * 16
  | .xImm h => 0xE0400000 + h.toNat
  | .xCap a b c => 0xE0800000 + a.toNat * 65536 + b.toNat * 1024 + c.toNat * 16
  | .xRnd m => 0xE0C00000 + m.toNat
  | .xPm z n p => 0xE1000000 + z.toNat * 128 + n.toNat * 64 + p.toNat
  | .xOrd o s => 0xE1400000 + o.toNat * 8 + s.toNat
  | .xHint h => 0xE1800000 + h.toNat
  | .vLd x y z c => 0x20400000 + x.toNat * 65536 + y.toNat * 1024 + z.toNat * 16 + c.toNat
  | .vSt x y z c => 0x20800000 + x.toNat * 65536 + y.toNat * 1024 + z.toNat * 16 + c.toNat
  | .vLds x y z c => 0x20C00000 + x.toNat * 65536 + y.toNat * 1024 + z.toNat * 16 + c.toNat
  | .vSts x y z c => 0x21000000 + x.toNat * 65536 + y.toNat * 1024 + z.toNat * 16 + c.toNat
  | .vLdh x y z m c => 0x21400000 + x.toNat * 65536 + y.toNat * 1024 + z.toNat * 16 + m.toNat * 2 + c.toNat
  | .vSth x y z m c => 0x21800000 + x.toNat * 65536 + y.toNat * 1024 + z.toNat * 16 + m.toNat * 2 + c.toNat
  | .vMov x y c => 0x21C00000 + x.toNat * 65536 + y.toNat * 1024 + c.toNat
  | .vBcs x y c => 0x22000000 + x.toNat * 65536 + y.toNat * 1024 + c.toNat
  | .vIota x y i c => 0x22400000 + x.toNat * 65536 + y.toNat * 1024 + i.toNat * 2 + c.toNat
  | .vPset x y i c => 0x22800000 + x.toNat * 65536 + y.toNat * 1024 + i.toNat * 2 + c.toNat
  | .vAdd x y z c => 0x24000000 + x.toNat * 65536 + y.toNat * 1024 + z.toNat * 16 + c.toNat
  | .vSub x y z c => 0x24400000 + x.toNat * 65536 + y.toNat * 1024 + z.toNat * 16 + c.toNat
  | .vMul x y z c => 0x24800000 + x.toNat * 65536 + y.toNat * 1024 + z.toNat * 16 + c.toNat
  | .vFma x y z m c => 0x24C00000 + x.toNat * 65536 + y.toNat * 1024 + z.toNat * 16 + m.toNat * 2 + c.toNat
  | .vMin x y z c => 0x25000000 + x.toNat * 65536 + y.toNat * 1024 + z.toNat * 16 + c.toNat
  | .vMax x y z c => 0x25400000 + x.toNat * 65536 + y.toNat * 1024 + z.toNat * 16 + c.toNat
  | .vAbs x y c => 0x25800000 + x.toNat * 65536 + y.toNat * 1024 + c.toNat
  | .vNeg x y c => 0x25C00000 + x.toNat * 65536 + y.toNat * 1024 + c.toNat
  | .vIadd x y z c => 0x26000000 + x.toNat * 65536 + y.toNat * 1024 + z.toNat * 16 + c.toNat
  | .vIsub x y z c => 0x26400000 + x.toNat * 65536 + y.toNat * 1024 + z.toNat * 16 + c.toNat
  | .vImul x y z m c => 0x26800000 + x.toNat * 65536 + y.toNat * 1024 + z.toNat * 16 + m.toNat * 2 + c.toNat
  | .vImulw x y z m c => 0x26C00000 + x.toNat * 65536 + y.toNat * 1024 + z.toNat * 16 + m.toNat * 2 + c.toNat
  | .vAnd x y z c => 0x27000000 + x.toNat * 65536 + y.toNat * 1024 + z.toNat * 16 + c.toNat
  | .vOr x y z c => 0x27400000 + x.toNat * 65536 + y.toNat * 1024 + z.toNat * 16 + c.toNat
  | .vXor x y z c => 0x27800000 + x.toNat * 65536 + y.toNat * 1024 + z.toNat * 16 + c.toNat
  | .vNot x y c => 0x27C00000 + x.toNat * 65536 + y.toNat * 1024 + c.toNat
  | .vShl x y z c => 0x28000000 + x.toNat * 65536 + y.toNat * 1024 + z.toNat * 16 + c.toNat
  | .vShr x y z c => 0x28400000 + x.toNat * 65536 + y.toNat * 1024 + z.toNat * 16 + c.toNat
  | .vSha x y z c => 0x28800000 + x.toNat * 65536 + y.toNat * 1024 + z.toNat * 16 + c.toNat
  | .vImin x y z m c => 0x28C00000 + x.toNat * 65536 + y.toNat * 1024 + z.toNat * 16 + m.toNat * 2 + c.toNat
  | .vImax x y z m c => 0x29000000 + x.toNat * 65536 + y.toNat * 1024 + z.toNat * 16 + m.toNat * 2 + c.toNat
  | .vCmp x y z m c => 0x2A000000 + x.toNat * 65536 + y.toNat * 1024 + z.toNat * 16 + m.toNat * 2 + c.toNat
  | .vIcmp x y z m c => 0x2A400000 + x.toNat * 65536 + y.toNat * 1024 + z.toNat * 16 + m.toNat * 2 + c.toNat
  | .vSel x y z m c => 0x2A800000 + x.toNat * 65536 + y.toNat * 1024 + z.toNat * 16 + m.toNat * 2 + c.toNat
  | .vPand x y z c => 0x2AC00000 + x.toNat * 65536 + y.toNat * 1024 + z.toNat * 16 + c.toNat
  | .vPor x y z c => 0x2B000000 + x.toNat * 65536 + y.toNat * 1024 + z.toNat * 16 + c.toNat
  | .vPxor x y z c => 0x2B400000 + x.toNat * 65536 + y.toNat * 1024 + z.toNat * 16 + c.toNat
  | .vPnot x y c => 0x2B800000 + x.toNat * 65536 + y.toNat * 1024 + c.toNat
  | .vRotr x y i c => 0x2C000000 + x.toNat * 65536 + y.toNat * 1024 + i.toNat * 2 + c.toNat
  | .vRotc x y i c => 0x2C400000 + x.toNat * 65536 + y.toNat * 1024 + i.toNat * 2 + c.toNat
  | .vBcr x y i c => 0x2C800000 + x.toNat * 65536 + y.toNat * 1024 + i.toNat * 2 + c.toNat
  | .vBcc x y i c => 0x2CC00000 + x.toNat * 65536 + y.toNat * 1024 + i.toNat * 2 + c.toNat
  | .vRedr x y m c => 0x2D000000 + x.toNat * 65536 + y.toNat * 1024 + m.toNat * 2 + c.toNat
  | .vRedc x y m c => 0x2D400000 + x.toNat * 65536 + y.toNat * 1024 + m.toNat * 2 + c.toNat
  | .vCvtf x y m c => 0x2E000000 + x.toNat * 65536 + y.toNat * 1024 + m.toNat * 2 + c.toNat
  | .vCvti x y m c => 0x2E400000 + x.toNat * 65536 + y.toNat * 1024 + m.toNat * 2 + c.toNat
  | .vCvtq x y m c => 0x2E800000 + x.toNat * 65536 + y.toNat * 1024 + m.toNat * 2 + c.toNat
  | .vExp2 x y c => 0x30000000 + x.toNat * 65536 + y.toNat * 1024 + c.toNat
  | .vLog2 x y c => 0x30400000 + x.toNat * 65536 + y.toNat * 1024 + c.toNat
  | .vRcp x y c => 0x30800000 + x.toNat * 65536 + y.toNat * 1024 + c.toNat
  | .vRsq x y c => 0x30C00000 + x.toNat * 65536 + y.toNat * 1024 + c.toNat
  | .vTanh x y c => 0x31000000 + x.toNat * 65536 + y.toNat * 1024 + c.toNat
  | .vSigm x y c => 0x31400000 + x.toNat * 65536 + y.toNat * 1024 + c.toNat
  | .vRng x m c => 0x32000000 + x.toNat * 65536 + m.toNat * 2 + c.toNat
  | .vStop x y z c => 0x32400000 + x.toNat * 65536 + y.toNat * 1024 + z.toNat * 16 + c.toNat
  | .vLoop d l c => 0x32800000 + d.toNat * 65536 + l.toNat * 4096 + c.toNat
  | .mMma x y z c => 0x40400000 + x.toNat * 65536 + y.toNat * 1024 + z.toNat * 16 + c.toNat
  | .mMmaG x y z c => 0x40800000 + x.toNat * 65536 + y.toNat * 1024 + z.toNat * 16 + c.toNat
  | .mLdw x y z m c => 0x40C00000 + x.toNat * 65536 + y.toNat * 1024 + z.toNat * 16 + m.toNat * 2 + c.toNat
  | .mSwap i c => 0x41000000 + i.toNat * 2 + c.toNat
  | .mZero x y c => 0x41400000 + x.toNat * 65536 + y.toNat * 1024 + c.toNat
  | .mRdz x y z c => 0x41800000 + x.toNat * 65536 + y.toNat * 1024 + z.toNat * 16 + c.toNat
  | .mWrz x y z c => 0x41C00000 + x.toNat * 65536 + y.toNat * 1024 + z.toNat * 16 + c.toNat
  | .mCkpt x y s t c => 0x42000000 + x.toNat * 65536 + y.toNat * 1024 + s.toNat * 32 + t.toNat * 2 + c.toNat
  | .mRest x y s t c => 0x42400000 + x.toNat * 65536 + y.toNat * 1024 + s.toNat * 32 + t.toNat * 2 + c.toNat
  | .mEpi x y z c => 0x42800000 + x.toNat * 65536 + y.toNat * 1024 + z.toNat * 16 + c.toNat
  | .mLoop d l c => 0x42C00000 + d.toNat * 65536 + l.toNat * 4096 + c.toNat
  | .mTsub x y c => 0x43000000 + x.toNat * 65536 + y.toNat * 1024 + c.toNat
  | .mTqry x y c => 0x43400000 + x.toNat * 65536 + y.toNat * 1024 + c.toNat
  | .mTcan x y m c => 0x43800000 + x.toNat * 65536 + y.toNat * 1024 + m.toNat * 2 + c.toNat
  | .mRdv x m c => 0x43C00000 + x.toNat * 65536 + m.toNat * 2 + c.toNat
  | .mWid x y c => 0x44000000 + x.toNat * 65536 + y.toNat * 1024 + c.toNat
  | .cCp x y z m c => 0x60400000 + x.toNat * 65536 + y.toNat * 1024 + z.toNat * 16 + m.toNat * 2 + c.toNat
  | .cCpd x y z m c => 0x60800000 + x.toNat * 65536 + y.toNat * 1024 + z.toNat * 16 + m.toNat * 2 + c.toNat
  | .cGath x y z m c => 0x60C00000 + x.toNat * 65536 + y.toNat * 1024 + z.toNat * 16 + m.toNat * 2 + c.toNat
  | .cScat x y z m c => 0x61000000 + x.toNat * 65536 + y.toNat * 1024 + z.toNat * 16 + m.toNat * 2 + c.toNat
  | .cFill x y i c => 0x61400000 + x.toNat * 65536 + y.toNat * 1024 + i.toNat * 2 + c.toNat
  | .cCvt x y z m c => 0x61800000 + x.toNat * 65536 + y.toNat * 1024 + z.toNat * 16 + m.toNat * 2 + c.toNat
  | .cBind x y z m c => 0x61C00000 + x.toNat * 65536 + y.toNat * 1024 + z.toNat * 16 + m.toNat * 2 + c.toNat
  | .cKvg x y z m c => 0x62000000 + x.toNat * 65536 + y.toNat * 1024 + z.toNat * 16 + m.toNat * 2 + c.toNat
  | .cKvs x y z m c => 0x62400000 + x.toNat * 65536 + y.toNat * 1024 + z.toNat * 16 + m.toNat * 2 + c.toNat
  | .cGm x y z m c => 0x62800000 + x.toNat * 65536 + y.toNat * 1024 + z.toNat * 16 + m.toNat * 2 + c.toNat
  | .cPeer x y z c => 0x62C00000 + x.toNat * 65536 + y.toNat * 1024 + z.toNat * 16 + c.toNat
  | .cRwin x y z m c => 0x63000000 + x.toNat * 65536 + y.toNat * 1024 + z.toNat * 16 + m.toNat * 2 + c.toNat
  | .cPf x y m c => 0x63400000 + x.toNat * 65536 + y.toNat * 1024 + m.toNat * 2 + c.toNat
  | .cLoop d l c => 0x63800000 + d.toNat * 65536 + l.toNat * 4096 + c.toNat
  | .cUnbind x c => 0x64000000 + x.toNat * 65536 + c.toNat
  | .cDsc x y m c => 0x64400000 + x.toNat * 65536 + y.toNat * 1024 + m.toNat * 2 + c.toNat
  | .cBbinv y c => 0x64800000 + y.toNat * 1024 + c.toNat
  | .bAdd x y z r w c => 0x80400000 + x.toNat * 65536 + y.toNat * 1024 + z.toNat * 16 + r.toNat * 4 + w.toNat * 2 + c.toNat
  | .bMin x y z r w c => 0x80800000 + x.toNat * 65536 + y.toNat * 1024 + z.toNat * 16 + r.toNat * 4 + w.toNat * 2 + c.toNat
  | .bMax x y z r w c => 0x80C00000 + x.toNat * 65536 + y.toNat * 1024 + z.toNat * 16 + r.toNat * 4 + w.toNat * 2 + c.toNat
  | .bMinu x y z r w c => 0x81000000 + x.toNat * 65536 + y.toNat * 1024 + z.toNat * 16 + r.toNat * 4 + w.toNat * 2 + c.toNat
  | .bMaxu x y z r w c => 0x81400000 + x.toNat * 65536 + y.toNat * 1024 + z.toNat * 16 + r.toNat * 4 + w.toNat * 2 + c.toNat
  | .bAnd x y z r w c => 0x81800000 + x.toNat * 65536 + y.toNat * 1024 + z.toNat * 16 + r.toNat * 4 + w.toNat * 2 + c.toNat
  | .bOr x y z r w c => 0x81C00000 + x.toNat * 65536 + y.toNat * 1024 + z.toNat * 16 + r.toNat * 4 + w.toNat * 2 + c.toNat
  | .bXor x y z r w c => 0x82000000 + x.toNat * 65536 + y.toNat * 1024 + z.toNat * 16 + r.toNat * 4 + w.toNat * 2 + c.toNat
  | .bSwap x y z r w c => 0x82400000 + x.toNat * 65536 + y.toNat * 1024 + z.toNat * 16 + r.toNat * 4 + w.toNat * 2 + c.toNat
  | .bCas x y z r w c => 0x82800000 + x.toNat * 65536 + y.toNat * 1024 + z.toNat * 16 + r.toNat * 4 + w.toNat * 2 + c.toNat
  | .bFadd x y z c => 0x82C00000 + x.toNat * 65536 + y.toNat * 1024 + z.toNat * 16 + c.toNat
  | .bFadb x y z c => 0x83000000 + x.toNat * 65536 + y.toNat * 1024 + z.toNat * 16 + c.toNat
  | .bScal x y z t c => 0x83400000 + x.toNat * 65536 + y.toNat * 1024 + z.toNat * 16 + t.toNat * 2 + c.toNat
  | .bAxpy x y z t c => 0x83800000 + x.toNat * 65536 + y.toNat * 1024 + z.toNat * 16 + t.toNat * 2 + c.toNat
  | .bWait x y z k w c => 0x83C00000 + x.toNat * 65536 + y.toNat * 1024 + z.toNat * 16 + k.toNat * 4 + w.toNat * 2 + c.toNat
  | .bVst x y z c => 0x84000000 + x.toNat * 65536 + y.toNat * 1024 + z.toNat * 16 + c.toNat
  | .bVld x y z t c => 0x84400000 + x.toNat * 65536 + y.toNat * 1024 + z.toNat * 16 + t.toNat * 2 + c.toNat
  | .bVldLe x y z t c => 0x84800000 + x.toNat * 65536 + y.toNat * 1024 + z.toNat * 16 + t.toNat * 2 + c.toNat
  | .bVretire x y c => 0x84C00000 + x.toNat * 65536 + y.toNat * 1024 + c.toNat
  | .bVnew x y c => 0x85000000 + x.toNat * 65536 + y.toNat * 1024 + c.toNat
  | .bVfloor x y c => 0x85400000 + x.toNat * 65536 + y.toNat * 1024 + c.toNat
  | .bVreg x y c => 0x85800000 + x.toNat * 65536 + y.toNat * 1024 + c.toNat
  | .bVregFree x y c => 0x85800002 + x.toNat * 65536 + y.toNat * 1024 + c.toNat
  | .bVregRd x y c => 0x85800004 + x.toNat * 65536 + y.toNat * 1024 + c.toNat
  | .bVregSpill x y c => 0x85800006 + x.toNat * 65536 + y.toNat * 1024 + c.toNat
  | .aAttn x y z k v c => 0xA0400000 + x.toNat * 65536 + y.toNat * 1024 + z.toNat * 16 + k.toNat * 4 + v.toNat * 2 + c.toNat
  | .aPart x y z k v c => 0xA0800000 + x.toNat * 65536 + y.toNat * 1024 + z.toNat * 16 + k.toNat * 4 + v.toNat * 2 + c.toNat
  | .aMerge x y z n c => 0xA0C00000 + x.toNat * 65536 + y.toNat * 1024 + z.toNat * 16 + n.toNat * 2 + c.toNat
  | .aCfg x i c => 0xA1000000 + x.toNat * 65536 + i.toNat * 2 + c.toNat
  | .aBinv y c => 0xA1400000 + y.toNat * 1024 + c.toNat
  | .aPref y z m c => 0xA1800000 + y.toNat * 1024 + z.toNat * 16 + m.toNat * 2 + c.toNat
  | .kPool x y c => 0xC0400000 + x.toNat * 65536 + y.toNat * 1024 + c.toNat
  | .kPoolOff y c => 0xC0400002 + y.toNat * 1024 + c.toNat
  | .kTbl x y z c => 0xC0800000 + x.toNat * 65536 + y.toNat * 1024 + z.toNat * 16 + c.toNat
  | .kApp x y z r w c => 0xC0C00000 + x.toNat * 65536 + y.toNat * 1024 + z.toNat * 16 + r.toNat * 4 + w.toNat * 2 + c.toNat
  | .kWr x y z m c => 0xC1000000 + x.toNat * 65536 + y.toNat * 1024 + z.toNat * 16 + m.toNat * 2 + c.toNat
  | .kFork x y z c => 0xC1400000 + x.toNat * 65536 + y.toNat * 1024 + z.toNat * 16 + c.toNat
  | .kTrunc x y c => 0xC1800000 + x.toNat * 65536 + y.toNat * 1024 + c.toNat
  | .kRet x c => 0xC1C00000 + x.toNat * 65536 + c.toNat
  | .kWinOpen x y z c => 0xC2000000 + x.toNat * 65536 + y.toNat * 1024 + z.toNat * 16 + c.toNat
  | .kCommit x y z n c => 0xC2400000 + x.toNat * 65536 + y.toNat * 1024 + z.toNat * 16 + n.toNat * 2 + c.toNat
  | .kAbort x y n c => 0xC2800000 + x.toNat * 65536 + y.toNat * 1024 + n.toNat * 2 + c.toNat
  | .kCkpt x y z c => 0xC2C00000 + x.toNat * 65536 + y.toNat * 1024 + z.toNat * 16 + c.toNat
  | .kLen x y c => 0xC3000000 + x.toNat * 65536 + y.toNat * 1024 + c.toNat
  | .kBbinv y c => 0xC3400000 + y.toNat * 1024 + c.toNat
  | .kFalloc x y z n c => 0xC4000000 + x.toNat * 65536 + y.toNat * 1024 + z.toNat * 16 + n.toNat * 2 + c.toNat
  | .kFfree x y z c => 0xC4400000 + x.toNat * 65536 + y.toNat * 1024 + z.toNat * 16 + c.toNat
  | .kFscrub x y c => 0xC4800000 + x.toNat * 65536 + y.toNat * 1024 + c.toNat
  | .kFscrubTake x y z c => 0xC4800002 + x.toNat * 65536 + y.toNat * 1024 + z.toNat * 16 + c.toNat
  | .kFref x y z c => 0xC4C00000 + x.toNat * 65536 + y.toNat * 1024 + z.toNat * 16 + c.toNat
  | .kFqryBlk x y z c => 0xC5000000 + x.toNat * 65536 + y.toNat * 1024 + z.toNat * 16 + c.toNat
  | .kFqryPool x y c => 0xC5000002 + x.toNat * 65536 + y.toNat * 1024 + c.toNat
  | .steerResume => 0
  | .remoteUnitReport _ _ => 0
  | .trapTaken => 0
  | .gangPlace _ _ => 0
  | .gangPreempt _ => 0
  | .gangResume _ _ => 0
  | .strandRetire => 0
  | .waitSwitchTimeout => 0
  | .turnQuantumExpiry => 0
  | .bankWaitSatisfied => 0
  | .versionLoadTimeout => 0
  | .pageRequestPost _ => 0
  | .prqheadWrite _ _ => 0
  | .prspWrite _ _ _ => 0
  | .s2invWrite _ _ => 0
  | .s2invDone _ => 0
  | .dbmctlWrite _ _ => 0
  | .dbmSwitchDone _ => 0
  | .weightRegionEnable _ _ => 0
  | .weightRegionHashDone _ _ => 0
  | .weightRegionDisable _ _ => 0
  | .weightRegionOff _ _ => 0
  | .taskAccept => 0
  | .taskDeadline _ => 0
  | .passPlace _ => 0
  | .passComplete _ => 0
  | .draperExpire _ => 0
  | .fullerScrubStart _ _ => 0
  | .scrubComplete _ _ => 0
  | .hostMemoryAccess _ _ _ _ => 0
  | .kickRegisterWrite _ _ _ => 0
  | .kick _ _ => 0
  | .queueEnable _ _ => 0
  | .queueDisable _ _ => 0
  | .noOpPacket _ _ => 0
  | .docketPacket _ _ => 0
  | .queueFencePacket _ _ => 0
  | .fenceComplete _ _ => 0
  | .signalPacket _ _ => 0
  | .memoryWaitPacket _ _ => 0
  | .memoryWaitSatisfied _ _ => 0
  | .batchStepPacket _ _ => 0
  | .stepBoundary _ _ => 0
  | .stepRetirement _ _ => 0
  | .completionRecordWrite _ _ => 0
  | .cqheadWrite _ _ _ => 0
  | .hangDetected _ => 0
  | .decodeImageLoad _ _ _ => 0
  | .partitionHold _ => 0
  | .partitionRst _ => 0
  | .partitionRelease _ => 0
  | .ownedRangeReady _ => 0
  | .functionReset _ => 0
  | .functionResetDone _ => 0
  | .functionLevelReset _ => 0
  | .functionEnable _ _ => 0
  | .privqClear _ => 0
  | .deviceReset => 0
  | .violClear => 0
  | .untrustedPrivateAccess _ _ _ => 0
  | .unsupportedRequest => 0
  | .migrationPause _ => 0
  | .migrationPaused _ => 0
  | .migrationResume _ => 0
  | .peerUnitArrival _ _ _ _ _ _ _ _ _ => 0
  | .peerUnitResend => 0
  | .rwinContribution _ _ _ _ _ _ => 0
  | .rwinHomeWrite _ _ => 0
  | .flitRetransmit _ => 0
  | .portDown _ => 0
  | .advertisePeriod => 0
  | .integReread _ _ => 0
  | .powerOn => 0
  | .sramUncorrectableError _ _ => 0
  | .correctableError => 0
  | .ceWindowExpiry => 0
  | .powerBrake => 0
  | .powerLimitThrottle _ _ => 0
  | .thermalThreshold _ _ _ => 0
  | .tlmRefresh _ _ _ => 0
  | .ckptStart => 0
  | .ckptDone => 0
  | .ckptResume => 0
  | .scrivselWrite _ => 0
  | .registerWrite _ _ _ _ => 0
  | .engineWordPerformed _ _ => 0
  | .undefinedEncoding _ => 0
  | .portTrained _ => 0
  | .powerRemoved _ => 0
  | .tdispRequest _ _ => 0

/-- The word of an instruction (R84). -/
def encode (i : Instr) : BitVec 32 := BitVec.ofNat 32 i.encodeNat

/-- The four bytes of an instruction's word in the order of memory (R84). -/
def encodeBytes (i : Instr) : List (BitVec 8) :=
  [BitVec.ofNat 8 i.encodeNat, BitVec.ofNat 8 (i.encodeNat / 256), BitVec.ofNat 8 (i.encodeNat / 65536),
    BitVec.ofNat 8 (i.encodeNat / 16777216)]

end Sys2Proof
end

