-- ==== Sys2Proof/Machine/Bits.lean ====
section
/-! DEFINITION. Bit fields, sign extension and small structural recursions that the meanings share. -/

namespace Sys2Proof.Machine

/-- Bits [lo + len - 1 : lo] of a number. -/
def bits (x lo len : Nat) : Nat := x / 2 ^ lo % 2 ^ len

/-- One bit of a number. -/
def bit (x i : Nat) : Bool := x / 2 ^ i % 2 == 1

/-- `x` with the `len` bits from `lo` replaced by `v`. -/
def setBits (x lo len v : Nat) : Nat := x - bits x lo len * 2 ^ lo + v % 2 ^ len * 2 ^ lo

/-- The `w` low bits of `x` read in two's complement. -/
def sextNat (x w : Nat) : Int :=
  let y := x % 2 ^ w
  if 2 ^ w ≤ 2 * y then (y : Int) - (2 ^ w : Nat) else y

/-- `x` wrapped to `w` bits. -/
def wrapInt (x : Int) (w : Nat) : Nat := (x % ((2 ^ w : Nat) : Int)).toNat

/-- A 64-bit word holding `x` in two's complement. -/
def wordOfInt (x : Int) : Word := BitVec.ofInt 64 x

/-- `f lo`, `f (lo + 1)` and so on, `n` of them. -/
def genFrom {α : Type} : Nat → Nat → (Nat → α) → List α
  | 0, _, _ => []
  | n + 1, lo, f => f lo :: genFrom n (lo + 1) f

theorem genFrom_length {α : Type} (n lo : Nat) (f : Nat → α) : (genFrom n lo f).length = n := by
  induction n generalizing lo with
  | zero => rfl
  | succ n ih => simp [genFrom, ih]

/-- A vector whose entry `i` is `f i`. -/
def vecGen {α : Type} (n : Nat) (f : Nat → α) : Vector α n :=
  ⟨(genFrom n 0 f).toArray, by simp [genFrom_length]⟩

/-- Entry `i` of a vector, or `d` beyond its end. -/
def vget {α : Type} {n : Nat} (v : Vector α n) (i : Nat) (d : α) : α := v.toArray.getD i d

/-- A vector with entry `i` replaced; beyond its end, the vector as it was. -/
def vput {α : Type} {n : Nat} (v : Vector α n) (i : Nat) (x : α) : Vector α n := v.setIfInBounds i x

/-- The value at a key of an association list, or `d`. -/
def assoc {α β : Type} [DecidableEq α] (l : List (α × β)) (k : α) (d : β) : β :=
  match l with
  | [] => d
  | (a, b) :: rest => if a = k then b else assoc rest k d

/-- An association list with a key's value replaced or added. -/
def assocPut {α β : Type} [DecidableEq α] (l : List (α × β)) (k : α) (v : β) : List (α × β) :=
  match l with
  | [] => [(k, v)]
  | (a, b) :: rest => if a = k then (k, v) :: rest else (a, b) :: assocPut rest k v

/-- Apply `f` to the states `n` times with a rising index from `lo`. -/
def iterNat {α : Type} : Nat → Nat → (Nat → α → α) → α → α
  | 0, _, _, x => x
  | n + 1, lo, f, x => iterNat n (lo + 1) f (f lo x)

end Sys2Proof.Machine
end

