-- ==== Sys2Proof/Machine/Mem.lean ====
section
/-! DEFINITION. A byte memory in one canonical form: (address, byte) pairs with strictly rising addresses, none of them
holding the byte that an unlisted address reads as (log 3). Multi-byte values are little-endian (R4). -/

namespace Sys2Proof.Machine

/-- A sparse memory. -/
abbrev Mem := List Host.Cell

/-- What an address that is not listed reads as. The spec gives no contents of RAM after power-on (DESIGN CHOICE,
log 3: zero). -/
def unlistedByte : Byte := 0

/-- The byte at an address. -/
def Mem.read : Mem → Nat → Byte
  | [], _ => unlistedByte
  | (k, v) :: rest, a => if k = a then v else if a < k then unlistedByte else Mem.read rest a

/-- Put one byte; the canonical form is kept. -/
def Mem.write : Mem → Nat → Byte → Mem
  | [], a, b => if b = unlistedByte then [] else [(a, b)]
  | (k, v) :: rest, a, b =>
    if k = a then (if b = unlistedByte then rest else (a, b) :: rest)
    else if a < k then (if b = unlistedByte then (k, v) :: rest else (a, b) :: (k, v) :: rest)
    else (k, v) :: Mem.write rest a b

/-- Every listed address lies above `lo`, addresses rise and no listed byte is the unlisted one. -/
def Mem.wfFrom : Option Nat → Mem → Bool
  | _, [] => true
  | lo, (k, v) :: rest =>
    (match lo with | none => true | some l => decide (l < k)) && v != unlistedByte && Mem.wfFrom (some k) rest

/-- The canonical form. -/
def Mem.wf (m : Mem) : Bool := Mem.wfFrom none m

/-- `n` bytes from an address, the lowest first. -/
def Mem.readBytes (m : Mem) (a : Nat) : Nat → List Byte
  | 0 => []
  | n + 1 => m.read a :: Mem.readBytes m (a + 1) n

/-- Put bytes at rising addresses. -/
def Mem.writeBytes (m : Mem) (a : Nat) : List Byte → Mem
  | [] => m
  | b :: rest => Mem.writeBytes (m.write a b) (a + 1) rest

/-- The number that bytes stand for, the lowest first (R4). -/
def natOfBytes : List Byte → Nat
  | [] => 0
  | b :: rest => b.toNat + 256 * natOfBytes rest

/-- The `n` low bytes of a number, the lowest first (R4). -/
def bytesOfNat : Nat → Nat → List Byte
  | 0, _ => []
  | n + 1, x => BitVec.ofNat 8 x :: bytesOfNat n (x / 256)

/-- An unsigned number of `n` bytes. -/
def Mem.readNat (m : Mem) (a n : Nat) : Nat := natOfBytes (m.readBytes a n)

/-- Store the `n` low bytes of a number. -/
def Mem.writeNat (m : Mem) (a n x : Nat) : Mem := m.writeBytes a (bytesOfNat n x)

/-- Set `n` bytes to the unlisted byte: drop what is listed in the range. -/
def Mem.clear (m : Mem) (a n : Nat) : Mem := m.filter fun c => !(a ≤ c.1 && c.1 < a + n)

end Sys2Proof.Machine
end

