-- ==== Sys2Proof/Machine/State.lean ====
section
/-! DEFINITION. The state of the RM-4 as plain data: the strands, their engines, memory, and every unit of the device,
with the reasons a step can stop and the state after device reset. -/

namespace Sys2Proof.Machine

/-! ## Why a step stops -/

/-- Reasons a step stops. -/
inductive Fault where
  /-- Raised by a word that is executed where no strand runs: words reach the machine only through the strand that
  fetches them (R15). Safe: the hardware takes no step there. -/
  | noStrand
  deriving DecidableEq, Repr

/-- Reasons the model declines a step. -/
inductive Refusal where
  /-- Raised only by an arm of `exec` whose instruction has no meaning yet. Safe. -/
  | notModelled (mnemonic : String)
  deriving DecidableEq, Repr

/-! ## Traps (R195, R196) -/

/-- The causes of R195. -/
inductive Cause where
  | undef | priv | align | page | sealing | integ | poison | vord | vmiss | vcap | barov | ringov | emu | brk
  deriving DecidableEq, Repr

/-- A raised trap: its cause, sub-kind and value. -/
structure TrapInfo where
  cause : Cause
  kind : Nat
  tval : Word
  deriving DecidableEq, Repr

/-- A scalar or decode trap that waits for the drain of R196. -/
structure PendTrap where
  /-- The address of the unit that raised it. -/
  addr : Word
  info : TrapInfo
  /-- Faults of engine words met during the drain, by engine code, and the steering numbers of those words, by engine. -/
  faults : List (Nat × TrapInfo)
  words : List (Nat × Nat)
  /-- An engine word raised the trap (R198): no word starts, and the trap waits for the words that remote units hold. -/
  stop : Bool
  deriving DecidableEq, Repr

/-! ## Queue entries (R18, R31) -/

/-- The prefixes of a unit (R90). -/
structure Prefixes where
  imm : Option (BitVec 22)
  cap : Option (Reg × Reg × Reg)
  rnd : Option (BitVec 3)
  /-- Z, N and P of `x.pm`. -/
  pm : Option (Bool × Bool × Reg)
  /-- ORD and SC of `x.ord`. -/
  ord : Option (BitVec 2 × BitVec 3)
  hint : Option (BitVec 4)
  deriving DecidableEq, Repr

/-- A unit with no prefix. -/
def noPrefixes : Prefixes := ⟨none, none, none, none, none, none⟩

/-- Progress of an engine word (R29, R206, R217, R244, R389): what of its effect has been performed, and the values it
took when it started. -/
structure Progress where
  /-- Set once the word has started: ring and barrier waits are passed, draws and stream units taken. -/
  started : Bool
  /-- Units, elements, blocks or rows performed, in the word's own order. -/
  count : Nat
  /-- Units performed out of order (R243), as a list of their numbers. -/
  done : List Nat
  /-- Iteration indices of a nest, outermost first (R233). -/
  indices : List Nat
  /-- The body word of the nest that comes next. -/
  body : Nat
  /-- First counter value of the word's draws (R210). -/
  drawBase : Word
  /-- Stream units held by the word (R206), by stream register. -/
  held : List (Nat × List Elem)
  /-- Values read once by the word and kept until it is performed. -/
  vals : List Nat
  /-- Completion signals already given (R239). -/
  signals : List Nat
  /-- What the word waits for, as WKIND and WIDX of R465. -/
  wait : Option (Nat × Nat)
  /-- Scratchpad bytes locked while the word writes them: first and beyond last (R80; log 9). -/
  locks : List (Nat × Nat)
  /-- Flags that the word sets when it is performed (R143). -/
  flags : BitVec 6
  /-- Shares that are parked, by member, with the traps that they met (R349). -/
  parked : List (Nat × TrapInfo)
  /-- Scratchpad bytes locked by the shares of an `m.mma.g` (R80, R351): member, first and beyond last. -/
  shareLocks : List (Nat × Nat × Nat)
  deriving DecidableEq, Repr

/-- The progress of a word that has not started. -/
def Progress.fresh : Progress := ⟨false, 0, [], [], 0, 0, [], [], [], none, [], 0, [], []⟩

/-- One entry of an engine queue: a unit with its captured operands and progress (R18, R31), or a `qjoin` mark (R78). -/
structure Entry where
  /-- The unit's number in the strand's steering order (R21). -/
  seq : Nat
  /-- Address of the unit's first prefix (R28). -/
  addr : Word
  word : Instr
  pfx : Prefixes
  /-- Captured operands of the fields X, Y and Z, zero where the field is no scalar source (R18). -/
  opX : Word
  opY : Word
  opZ : Word
  /-- Captured extended operands (R92). -/
  extA : Word
  extB : Word
  extC : Word
  world : Nat
  prog : Progress
  deriving DecidableEq, Repr

/-! ## Rings, barriers, stream registers (R32, R38, R41) -/

/-- A ring handle. -/
structure Ring where
  slot : Nat
  count : Nat
  base : Nat
  head : BitVec 32
  tail : BitVec 32
  claimH : BitVec 32
  claimT : BitVec 32
  /-- Positions reserved by peer transfers (R37), with whether each is complete. -/
  peers : List (BitVec 32 × Bool)
  deriving DecidableEq, Repr

/-- An unbound handle (R32). -/
def Ring.unbound : Ring := ⟨0, 0, 0, 0, 0, 0, 0, []⟩

/-- One strand's copy of a gang barrier (R41), with the generation its strand recorded when it last arrived (R43). -/
structure Barrier where
  mask : BitVec 16
  gen : BitVec 16
  arrived : BitVec 16
  expect : BitVec 16
  pending : BitVec 32
  recorded : Option (BitVec 16)
  deriving DecidableEq, Repr

/-- A barrier at placement. -/
def Barrier.fresh : Barrier := ⟨0, 0, 0, 0, 0, none⟩

/-- A stream register (R38): its reader, the units that have arrived and wait to be read, and how many units of its
copy are still to come. -/
structure Stream where
  bound : Bool
  /-- Bound for the vector engine; otherwise for the scalar core. -/
  vector : Bool
  /-- Format code of the destination, for the widening of R192. -/
  fmt : Nat
  units : List (List Elem)
  left : Nat
  deriving DecidableEq, Repr

/-- An unbound stream register. -/
def Stream.unbound : Stream := ⟨false, false, 0, [], 0⟩

/-! ## Memory-side structures of a strand -/

/-- A plain store of the scalar core (R66), with the scope it is published at, if it is. -/
structure PlainStore where
  /-- Where it was made (R281): its address, the context's slot and function, and the physical address. -/
  va : Nat
  slot : Nat
  fn : Nat
  pa : Nat
  data : List Byte
  scope : Option Nat
  /-- It was made in the strand's current phase (R69). -/
  current : Bool
  /-- Its translation has been dropped: it translates again before it is performed (R194, R284). -/
  stale : Bool
  /-- The function and IPA that the dirty bitmap records, for a two-stage translation (R293). -/
  track : Option (Nat × Nat)
  deriving DecidableEq, Repr

/-- A line held by a tile's L1 (R62), and the context banks for whose strands it is valid (R67): bit b for bank b. -/
structure L1Line where
  line : Nat
  data : List Byte
  banks : BitVec 2
  deriving DecidableEq, Repr

/-- A word held by a tile's instruction cache (R82), and the context banks for whose strands it is valid. -/
structure CodeWord where
  pa : Nat
  word : BitVec 32
  banks : BitVec 2
  deriving DecidableEq, Repr

/-- A cached translation (R280): the page, what it maps to and what the walk read of its leaves. -/
structure Tlb where
  /-- 0 scalar TLB, 1 vector, 2 matrix, 3 copy stream TLB (R279). -/
  cache : Nat
  slot : Nat
  /-- First virtual address of the page and its size (R274). -/
  va : Nat
  size : Nat
  /-- Size of the page of the first-stage leaf, of which this is a part where the second stage maps less (R194). -/
  span : Nat
  pa : Nat
  ipa : Nat
  two : Bool
  fn : Nat
  world : Nat
  /-- R, W and X of the first-stage leaf, and of the second-stage leaf where there are two stages. -/
  perm1 : BitVec 3
  perm2 : BitVec 3
  wro : Bool
  ver : Bool
  fmta : Nat
  sealMode : Nat
  dirty : Bool
  deriving DecidableEq, Repr

/-- A pointer entry held by the walk cache (R279): where it was read and what it held. -/
structure WalkCached where
  slot : Nat
  fn : Nat
  ea : Nat
  entry : Nat
  deriving DecidableEq, Repr

/-- What a tile caches for both of its context banks (R56, R279), newest entry first, the world that its engines last worked
for (R499), and the bank whose strand it last ran (R54). -/
structure TileCache where
  l1 : List L1Line
  icache : List CodeWord
  tlbs : List Tlb
  walks : List WalkCached
  world : Option Nat
  bank : Nat
  deriving DecidableEq, Repr

/-- A tile that caches nothing. -/
def TileCache.empty : TileCache := ⟨[], [], [], [], none, 0⟩

/-- An access that waits on a page request (R285, R290). -/
structure PageWait where
  /-- Agent code of R286. -/
  eng : Nat
  va : Nat
  fn : Nat
  granule : Nat
  deriving DecidableEq, Repr

/-- A failure answered to a waiting access (R288). -/
structure PageAnswer where
  eng : Nat
  va : Nat
  kind : Nat
  deriving DecidableEq, Repr

/-! ## The strand -/

/-- Where a strand belongs: order, gang, member, and the tile bank it is resident in (R45, R53). -/
structure Place where
  order : Nat
  gang : Nat
  member : Nat
  size : Nat
  fn : Nat
  slot : Nat
  world : Nat
  part : Nat
  die : Nat
  tile : Nat
  bank : Nat
  deriving DecidableEq, Repr

/-- The life of a strand's context (R51). -/
inductive Life where
  /-- No strand: it has retired, was killed, or was never placed. -/
  | gone
  | active
  | residentIdle
  | parked
  | saved
  deriving DecidableEq, Repr

/-- What holds the scalar core back beyond its own word. -/
inductive Hold where
  | none
  /-- A `qjoin` with bit 0 whose entries are not all reached (R78). -/
  | join (seq : Nat)
  /-- An `.acq` bank word not yet performed, and the scope its open is to be made at (R74). -/
  | acquire (seq : Nat) (scope : Nat)
  deriving DecidableEq, Repr

/-- The strand CSRs of R187 that are not views of other state. ADDR fields are kept as text addresses. -/
structure Csrs where
  trap : Bool
  emu : Bool
  privl : Bool
  slipLimit : Nat
  /-- ZSCALE OVQ INV OVF UNF INX (R143). -/
  flags : BitVec 6
  rmode : BitVec 3
  rngKey : Word
  rngCtr : Word
  tvec : Word
  emuvec : Word
  emuepc : Word
  epcS : Word
  /-- EPC.V, M, C, B, A and K. -/
  epcE : Vector Word 6
  /-- INEMU INTRAP DRAIN, reserved, ENG, KIND, CODE: bits [18:0] of TCAUSE. -/
  tcause : BitVec 19
  tval : Word
  tscr : Word
  vtimeout : BitVec 32
  kstep : Bool
  hangto : BitVec 32
  deriving DecidableEq, Repr

/-- A vector register image: element e at row e / 64, column e mod 64 (R205). -/
abbrev VReg := Vector Elem 1024

/-- The vector engine's registers (R205) and their dirty bits (R235). -/
structure VecState where
  v : Vector VReg 16
  p : Vector (BitVec 1024) 8
  /-- Bits 0 to 15 for v0 to v15, 16 to 23 for p0 to p7. -/
  dirty : BitVec 24
  deriving DecidableEq, Repr

/-- One row of an accumulator (R326): 64 columns, the tag of its owner and its dirty bit. -/
structure AccRow where
  data : Vector Elem 64
  tag : BitVec 12
  dirty : Bool
  deriving DecidableEq, Repr

/-- An accumulator: 256 rows and the checkpoint-valid bits of its 16 row groups (R326, R338). -/
structure Acc where
  rows : Vector AccRow 256
  ckv : BitVec 16
  deriving DecidableEq, Repr

/-- An `m.ldw` with its captured operands and the members whose banks it writes, bit i for member i, kept for a reload
(R323, R336). -/
structure LoadRecord where
  word : Instr
  mask : Nat
  pfx : Prefixes
  opX : Word
  opY : Word
  opZ : Word
  deriving DecidableEq, Repr

/-- A Bolt bank into which a strand has loaded: whose tile (a member of its gang), which bank, and whether it is stale and
not current (R323). The leader keeps one for each member that a ganged load names (R324). -/
structure LoadState where
  member : Nat
  bank : Nat
  stale : Bool
  deriving DecidableEq, Repr

/-- The matrix engine's strand state. -/
structure MatState where
  /-- Accumulators allocated to the strand, z0 upward (R53). -/
  accs : List Acc
  /-- The bank that matrix words name as current (R333). -/
  bankSel : Bool
  loads : List LoadState
  /-- The load record of each bank: the last 16 loads, oldest first (R323). -/
  records : Vector (List LoadRecord) 2
  deriving DecidableEq, Repr

/-- The attention registers of R380. -/
structure AttnState where
  ascale : Elem
  dh : Nat
  voff : Nat
  koff : Nat
  aqdesc : Nat
  deriving DecidableEq, Repr

/-- A strand: its scalar core, engines, queues and private storage. -/
structure Strand where
  place : Place
  life : Life
  regs : Vector Word 64
  /-- Address of the unit being fetched: its first prefix, once one is fetched (R28). -/
  pc : Word
  /-- Prefix words of the unit fetched so far (R16, R90). -/
  pfx : List (BitVec 32)
  /-- Fetch has stopped at `end` (R184). -/
  ended : Bool
  hold : Hold
  /-- The hold that the trap of the handler that runs has broken, until `tret` (R74). -/
  broken : Hold
  pend : Option PendTrap
  /-- The splitter stalls on slip or a full queue (R21, R22). -/
  stalled : Bool
  /-- What the last scalar word, or its fetch, waits for, as WKIND and WIDX of R465 (R34, R38, R43, R290). -/
  waiting : Option (Nat × Nat)
  /-- Units steered so far (R21). -/
  steered : Nat
  csr : Csrs
  vec : VecState
  mat : MatState
  attn : AttnState
  /-- Queues of engines 1 to 6, oldest entry first (R13). -/
  queues : Vector (List Entry) 6
  /-- Body units of an open loop word still to be steered, engines 1 to 3 (R27). -/
  loopLeft : Vector Nat 3
  /-- Engines whose queues stay stopped until `tret` (R200), bit e - 1 for engine e. -/
  engHeld : BitVec 6
  /-- Engines that start no word by themselves: the model's scheduling mask (log 7). -/
  lag : BitVec 6
  /-- Progress of the word being performed, while it is performed. -/
  work : Progress
  /-- Loop-nest descriptors d0 to d7, as their 64-byte images (R246). -/
  descs : Vector (BitVec 512) 8
  streams : Vector Stream 8
  rings : Vector Ring 16
  bars : Vector Barrier 16
  /-- The scratchpad allocation and its size in 64 KiB units (R53). -/
  spad : Mem
  spadUnits : Nat
  /-- Plain stores not yet published at `.sys`, oldest first (R66). -/
  stores : List PlainStore
  /-- Its gang-member access rights are withdrawn until it runs again: a strand of another world has its tile (R499). -/
  barred : Bool
  pageWaits : List PageWait
  pageAnswers : List PageAnswer
  /-- Cycles without progress (R464). -/
  stall : Nat
  /-- Steps of the current turn on the tile (R54). -/
  turn : Nat
  deriving DecidableEq, Repr

/-! ## Memory of the device -/

/-- A store published at a scope narrower than `.sys` (R66): agents outside the scope still read the old byte. Whom `.die`
names is fixed when the store is published (R63): the strands then resident on the die, and the die's units. -/
structure Narrow where
  pa : Nat
  old : Byte
  scope : Nat
  /-- The storing strand: gang number and member. -/
  gang : Nat
  member : Nat
  /-- The strands, by gang and member, and the dies of the units that it is published to at `.die`. -/
  strands : List (Nat × Nat)
  dies : List Nat
  deriving DecidableEq, Repr

/-- States of a page frame (R423, R427). -/
inductive FrameState where
  | free | owned | toScrub | scrubbing | pool | fixed | withdrawn
  deriving DecidableEq, Repr

/-- A frame table entry but for NEXT, which is a view of the lists (R423). -/
structure Frame where
  st : FrameState
  sealMode : Nat
  world : Nat
  tenant : Nat
  kgen : Nat
  deriving DecidableEq, Repr

/-- Frames `lo` up to, not including, `hi`, that hold one entry. -/
structure FrameRun where
  lo : Nat
  hi : Nat
  frame : Frame
  deriving DecidableEq, Repr

/-! ## Tiles (R321, R323) -/

/-- A slot of a Bolt bank: its descriptor, and the cells by column and then row, each an element code with its scale
code. A slot holds the cells of 128, 256 or 512 rows, or of 64 rows in a 16-bit format (log 17). -/
structure BoltSlot where
  desc : Nat
  cells : Array (Nat × Nat)
  /-- Frames that its contents were read from, as runs (R429 step 4). -/
  srcs : List (Nat × Nat)
  deriving DecidableEq, Repr

/-- A Bolt bank: its slots that are not empty, and the identity of its weights (R342). -/
structure BoltBank where
  slots : List (Nat × BoltSlot)
  ident : Nat
  deriving DecidableEq, Repr

/-- An empty bank. -/
def BoltBank.empty : BoltBank := ⟨[], 0⟩

/-! ## Pools (R398, R425, R426) -/

/-- States of a block (R425). -/
inductive BlockState where
  | free | held | toScrub | scrubbing | withdrawn
  deriving DecidableEq, Repr

/-- A block state entry but for NEXT, which is a view of the lists (R425). -/
structure Block where
  st : BlockState
  tenant : Nat
  ref : Nat
  kgen : Nat
  ctx : Nat
  deriving DecidableEq, Repr

/-- A pool entry (R398) with its block state entries, as runs of block numbers that hold one entry, and its lists (R426),
head first, as runs of block numbers. -/
structure Pool where
  en : Bool
  /-- PA[51:16] of block 0. -/
  base : Nat
  bsz : Nat
  fmtd : Nat
  nblk : Nat
  v : Nat
  sealMode : Nat
  world : Nat
  blocks : List (Nat × Nat × Block)
  scrubbed : List (Nat × Nat)
  toScrub : List (Nat × Nat)
  scrubbing : List (Nat × Nat)
  /-- Blocks that an uncorrectable error has poisoned (R420). -/
  poison : List Nat
  deriving DecidableEq, Repr

/-- A pool entry that is clear. -/
def Pool.clear : Pool := ⟨false, 0, 0, 0, 0, 0, 0, 0, [], [], [], [], []⟩

/-- A word that waits for blocks or frames (R430): whose it is, the pool, or none for page frames, of a partition, and the
table that it holds. -/
structure FullerWait where
  gang : Nat
  member : Nat
  seq : Nat
  part : Nat
  pool : Option Nat
  table : Option Nat
  deriving DecidableEq, Repr

/-- An entry of a block translation buffer (R261, R392): of a tile's copy engine, by die × 128 + tile, or of a slice, by
die × 64 + slice. -/
structure Btb where
  tile : Option Nat
  slice : Nat
  part : Nat
  ctx : Nat
  table : Nat
  logical : Nat
  block : Nat
  /-- Physical address of the table. -/
  tablePa : Nat
  deriving DecidableEq, Repr

/-! ## Functions and partitions (R283, R442, R473, R475) -/

/-- A queue's run state (R445). -/
inductive QState where
  | off | running | halted
  deriving DecidableEq, Repr

/-- A queue record (R442). -/
structure QueueRec where
  base : Nat
  reason : Nat
  state : QState
  en : Bool
  privl : Bool
  ctx : Nat
  logn : Nat
  fpos : BitVec 32
  rd : BitVec 32
  cqbase : Nat
  cqtail : BitVec 32
  ie : Bool
  vec : Nat
  cqlogn : Nat
  hangto : BitVec 32
  cqhead : BitVec 32
  stkbase : Word
  argbase : Word
  hangaddr : Word
  stkarea : Nat
  kickpa : Nat
  /-- A check of R446 has failed, and no enable has passed since: no strand is placed from the queue. -/
  barred : Bool
  deriving DecidableEq, Repr

/-- A queue record at reset (R442). -/
def QueueRec.reset : QueueRec :=
  ⟨0, 0, .off, false, false, 0, 4, 0, 0, 0, 0, false, 0, 4, 0, 0, 0, 0, 0, 0, 0, false⟩

/-- An outstanding page request (R285): its tag and granule, and the record it writes (R286) until it is written. -/
structure PageReq where
  tag : Nat
  granule : Nat
  eng : Nat
  ctx : Nat
  lvl : Nat
  kind : Nat
  acc : Nat
  va : Nat
  written : Bool
  deriving DecidableEq, Repr

/-- The translation registers of a function (R283). -/
structure TransRegs where
  s2root : Nat
  s2en : Bool
  prqBase : Nat
  prqLogn : Nat
  prqVec : Nat
  prqIe : Bool
  prqEn : Bool
  prqHead : BitVec 32
  prqTail : BitVec 32
  badTag : Bool
  full : Bool
  reqs : List PageReq
  /-- S2INVST.BUSY and the S2INV image that waits behind it (R284). -/
  invBusy : Bool
  invNext : List Word
  dbmBase0 : Nat
  dbmBase1 : Nat
  dbmLen : Nat
  /-- The bitmap and enable in force, and those last written to DBMCTL (R294). -/
  dbmSel : Bool
  dbmEn : Bool
  dbmSelW : Bool
  dbmEnW : Bool
  dbmOvr : Bool
  dbmBusy : Bool
  deriving DecidableEq, Repr

/-- Translation registers at device reset; the fields R283 gives a dash are zero (LOGN 4): DESIGN CHOICE, log 4. -/
def TransRegs.reset : TransRegs :=
  ⟨0, false, 0, 4, 0, false, false, 0, 0, false, false, [], false, [], 0, 0, 0, false, false, false, false, false, false⟩

/-- A function's registers and measurement state. -/
structure Fn where
  tenant : Nat
  part : Nat
  coal : Bool
  privq : Bool
  en : Bool
  rbusy : Bool
  featmask : BitVec 16
  pcw : Nat
  sbw : Nat
  daw : Nat
  few : Nat
  migState : Nat
  migErr : Bool
  migSize : Nat
  migBase : Nat
  migUnits : Nat
  /-- Regions that a pause has spilled, by context, base and record address; that the resume under way undoes a pause; and the
  regions that it has registered, by context and base (R480, R481). -/
  migRegions : List (Nat × Nat × Nat)
  migUndo : Bool
  migTook : List (Nat × Nat)
  trans : TransRegs
  queues : List (Nat × QueueRec)
  /-- MSI-X table entries: vector, address, data, masked; and pending vectors (R470). -/
  msix : List (Nat × (Nat × Nat × Bool))
  pba : List Nat
  /-- TDISP state RUN (R471). -/
  locked : Bool
  /-- MR0 to MR7, the measurement generation and LOST (R512). -/
  mr : Vector (BitVec 512) 8
  mgen : BitVec 32
  lost : Bool
  deriving DecidableEq, Repr

/-- A function after device reset (R475, R104, R512). -/
def Fn.reset : Fn :=
  { tenant := 0, part := 0, coal := false, privq := false, en := false, rbusy := false, featmask := 0xFFFF,
    pcw := 16, sbw := 16, daw := 16, few := 16, migState := 0, migErr := false, migSize := 0, migBase := 0,
    migUnits := 0, migRegions := [], migUndo := false, migTook := [], trans := TransRegs.reset, queues := [], msix := [],
    pba := [], locked := false,
    mr := Vector.replicate 8 0, mgen := 0, lost := false }

/-- A partition's configuration and control registers (R473, R527). -/
structure PartCfg where
  en : Bool
  slmem : Nat
  drtiles : Nat
  kstep : Bool
  half : Nat
  dies : Nat
  flimit : Nat
  fbase : Nat
  ownlim : Nat
  deriving DecidableEq, Repr

/-- An entry of the weight region table (R355). -/
structure WeightEntry where
  id : Nat
  en : Bool
  st : Nat
  world : Nat
  /-- Index of the region's first frame. -/
  frame : Nat
  ngr : Nat
  k : Nat
  n : Nat
  wdesc : Nat
  cstr : Nat
  deriving DecidableEq, Repr

/-- An entry that is clear. -/
def WeightEntry.clear : WeightEntry := ⟨0, false, 0, 0, 0, 0, 0, 0, 0, 0⟩

/-- A partition. -/
structure Part where
  cfg : PartCfg
  hold : Bool
  err : Bool
  busy : Bool
  /-- BUSY stands for a reset, and not for a first release (R476), of a level: 1 a write, 2 a hang, 3 a device reset. -/
  resetting : Bool
  level : Nat
  /-- Clock value at the last reset of the partition (CYCLE, R187). -/
  resetAt : Nat
  /-- The lists of page frames, head first, as runs of frame indices (R426). -/
  scrubbed : List (Nat × Nat)
  toScrub : List (Nat × Nat)
  scrubbing : List (Nat × Nat)
  /-- Frames of the owned range whose scrub of the release is not over: they end it OWNED (R527). -/
  toOwn : List (Nat × Nat)
  /-- The weight region table (R355) and the shape table (R357, as images), by entry. -/
  weights : List (Nat × WeightEntry)
  shapes : List (Nat × Nat)
  pools : List (Nat × Pool)
  deriving DecidableEq, Repr

/-- A partition after device reset (R473): held, nothing configured. -/
def Part.reset : Part :=
  { cfg := ⟨false, 0, 0, false, 0, 0, 0, 0, 0⟩, hold := true, err := false, busy := false, resetting := false,
    level := 0, resetAt := 0, scrubbed := [], toScrub := [], scrubbing := [], toOwn := [], weights := [], shapes := [], pools := [] }

/-- Device registers of the physical function (R472). -/
structure HostRegs where
  ctxBase : Nat
  ftBase : Nat
  violCount : Nat
  violW : Bool
  violFn : Nat
  violOff : Nat
  violVec : Nat
  violIe : Bool
  deriving DecidableEq, Repr

/-- An entry of the seal engine's world table (R500, R503): whether it is live, its function, how often it was created, the two XTS
keys and the integrity key. -/
structure World where
  live : Bool
  fn : Nat
  created : Nat
  xts1 : BitVec 256
  xts2 : BitVec 256
  mac : BitVec 256
  deriving DecidableEq, Repr

/-- The seal engine (R500, R506, R510 to R512). -/
structure SealEng where
  worlds : List (Nat × World)
  mfw : BitVec 512
  mdec : BitVec 512
  /-- The next identity leaf (R511). -/
  leaf : Nat
  /-- The vendor's public keys in mask ROM, for firmware and for decode images (R510): root, and seed above it. No instruction writes
  them. -/
  romFw : BitVec 512
  romDec : BitVec 512
  deriving DecidableEq, Repr

/-! ## Service (R516 to R526) -/

/-- An image with its XMSS signature (R510). -/
structure SignedImage where
  bytes : List Byte
  sig : List Byte
  deriving DecidableEq, Repr

/-- A decode image (R109), and what its bytes carry in a layout that the spec does not give: the generation that it names, the table
entries, by engine × 128 + OP in the layout of R108, and the control store's contents. -/
structure DecodeImage where
  signed : SignedImage
  generation : Nat
  entries : List (Nat × Nat)
  store : List Byte
  deriving DecidableEq, Repr

/-- The registers and state of the service chapter. -/
structure Service where
  /-- Power is applied (R516). -/
  powered : Bool
  /-- SVCCFG.INTEG, and the coverage that boot step 2 last read (R518). -/
  integ : Nat
  integNow : Nat
  /-- SVCSTAT.BOOT and CERR (R520). -/
  boot : Nat
  cerr : Bool
  /-- The fence map: die × 128 + tile (R519), and the bits that act since the last reset of the tile's partition. -/
  fence : List Nat
  fenced : List Nat
  /-- Clock values of the uncorrectable SRAM errors of tiles (R519). -/
  sramErrors : List (Nat × Nat)
  ceCount : Nat
  /-- The clock when the window of correctable errors began (R521). -/
  ceSince : Nat
  ceLimit : Nat
  pwrcap : Nat
  tlm : Word
  ckptDst : Nat
  ckptGib : Nat
  ckptErr : Bool
  ckptState : Nat
  scrivSel : Nat
  scrivD : List Word
  /-- Islands below 2.25 GHz, with their clock in units of 25 MHz (R522, R523). -/
  slow : List (Nat × Nat)
  /-- The DRAM stacks whose refresh is doubled (R523). -/
  refresh2 : List Nat
  /-- Partitions that the firmware has power-gated (R514). -/
  gated : List Nat
  /-- The firmware image that the host holds ready for boot step 3 (R516), and the decode image that is offered to the firmware
  core next (R109). -/
  firmware : Option SignedImage
  offered : Option DecodeImage
  /-- The image that the boot loaded into the decode tables of every tile, and those loaded into tiles since, by
  die × 128 + tile (R108 to R110). -/
  image : Option DecodeImage
  decodes : List (Nat × DecodeImage)
  deriving DecidableEq, Repr

/-! ## The Draper (R355 to R378) -/

/-- The life of a task in a slot (R371). -/
inductive TaskState where
  | waiting | ready | formed | running | parked
  deriving DecidableEq, Repr

/-- A row that stands in a park record (R361, R374). -/
structure ParkedRow where
  row : Nat
  /-- Index of its park record. -/
  index : Nat
  valid : Bool
  /-- It waits on a page request: the failing address, and the granule of the request. -/
  wait : Option (Nat × Nat)
  /-- The request has been answered: 0, or the kind of the failure (R288). -/
  answer : Option Nat
  deriving DecidableEq, Repr

/-- A row whose park record is still to be written (R361): its own failure, the granule of its page request and the answer to
it, VALID, the ACC to write, if it is to be written, the index that the record has taken, and the granule of the request
that the record waits on. -/
structure ParkRequest where
  row : Nat
  code : Nat
  kind : Nat
  tval : Nat
  wait : Option Nat
  answer : Option Nat
  valid : Bool
  acc : Option (List Elem)
  index : Option Nat
  hold : Nat
  deriving DecidableEq, Repr

/-- A task record that has ended or was refused (R362, R372): whose it is, its ring, its first unit and length, and what
remains to be done for it: 0 STATUS is to be written, 1 DONE is to be counted, 2 its units are to be released. -/
structure RecordEnd where
  gang : Nat
  member : Nat
  slot : Nat
  fn : Nat
  ring : Nat
  unit : BitVec 32
  len : Nat
  recVa : Nat
  doneVa : Nat
  status : Nat
  stage : Nat
  /-- The granule of the page request that its write waits on. -/
  wait : Option Nat
  deriving DecidableEq, Repr

/-- A task in a slot (R359, R364). -/
structure DTask where
  /-- Place in the order of acceptance. -/
  id : Nat
  /-- Gang and member of the strand that submitted it. -/
  gang : Nat
  member : Nat
  /-- Context slot, function, world and partition of its owner. -/
  slot : Nat
  fn : Nat
  world : Nat
  part : Nat
  /-- Virtual addresses of its ring descriptor and record, and the record's first unit and length. -/
  ring : Nat
  recVa : Nat
  unit : BitVec 32
  len : Nat
  chash : Nat
  wid : Nat
  doneVa : Nat
  tag : Nat
  patience : Nat
  shape : Nat
  /-- The shape entry that it was accepted with (R357). -/
  img : Nat
  consent : Bool
  /-- Tasks that it depends on, by die and number (R368). -/
  deps : List (Nat × Nat)
  st : TaskState
  readyAt : Nat
  deadline : Nat
  /-- SRC and DST of each row. -/
  rows : List (Nat × Nat)
  flags : BitVec 6
  /-- The first failure in ascending row: row, CODE and KIND. -/
  fail : Option (Nat × Nat × Nat)
  parked : List ParkedRow
  parking : List ParkRequest
  lost : Bool
  deriving DecidableEq, Repr

/-- A pass that is formed or runs (R370, R371): its tasks, and its tile once it is placed. -/
structure DPass where
  id : Nat
  tasks : List Nat
  wid : Nat
  part : Nat
  tile : Option Nat
  bank : Nat
  deriving DecidableEq, Repr

/-- A die's Draper: its slots, its passes in the order they were formed, and the records that have ended and stand above
their ring's HEAD. -/
structure Draper where
  tasks : List DTask
  passes : List DPass
  ended : List RecordEnd
  nextTask : Nat
  nextPass : Nat
  deriving DecidableEq, Repr

/-- A Draper that holds nothing. -/
def Draper.empty : Draper := ⟨[], [], [], 0, 0⟩

/-! ## The banks (R302 to R315) -/

/-- A memory-value wait at a home bank (R302): whose it is, what it compares, and whether a read met its condition. -/
structure BankWait where
  gang : Nat
  member : Nat
  seq : Nat
  /-- Where the access was translated (R194): address, context slot, function, and the physical address. -/
  va : Nat
  slot : Nat
  fn : Nat
  pa : Nat
  w : Nat
  cond : Nat
  y : Nat
  mask : Nat
  hit : Bool
  deriving DecidableEq, Repr

/-- A counted version of a granule (R312, R315): its data stand in the pool of its home bank, or in a slot of the
overflow area (R307). -/
structure Version where
  gran : Nat
  num : Nat
  data : BitVec 512
  slot : Option Nat
  deriving DecidableEq, Repr

/-- A frame of a region at registration (R311): its index, the granule of its IPA where the context has two stages, and whether the
translation that gave it still stands: one that has been dropped is no longer used for the overflow area (R281, R284). -/
structure VFrame where
  frame : Nat
  ipa : Option Nat
  fresh : Bool
  deriving DecidableEq, Repr

/-- A registered region (R305 to R312). The base data of a granule stand in its page. -/
structure VRegion where
  ctx : Nat
  fn : Nat
  part : Nat
  recVa : Nat
  base : Nat
  pages : Nat
  ovf : Nat
  quota : Nat
  floor : Nat
  /-- The base of every granule that `bases` does not name. -/
  base0 : Nat
  bases : List (Nat × Nat)
  vers : List Version
  frames : List VFrame
  ovfFrames : List VFrame
  deriving DecidableEq, Repr

/-- What became of a parked versioned load (R314): the data and number that it returns, or the kind of VMISS. -/
inductive VAnswer where
  | data (bytes : BitVec 512) (num : Nat)
  | miss (kind : Nat)
  deriving DecidableEq, Repr

/-- A unit of a versioned load parked at its home bank (R314). -/
structure VWait where
  gang : Nat
  member : Nat
  seq : Nat
  unit : Nat
  ctx : Nat
  base : Nat
  gran : Nat
  num : Nat
  /-- The clock when the home first found the version Unborn, and the time-out in cycles, 0 for none. -/
  since : Nat
  timeout : Nat
  answer : Option VAnswer
  deriving DecidableEq, Repr

/-! ## The front end (R442 to R467) -/

/-- An operator record (R451). -/
structure OpRec where
  entry : Word
  nx : Nat
  ny : Nat
  nz : Nat
  step : Bool
  stack : Nat
  accs : Nat
  spad : Nat
  size : Nat
  args : Word
  argv : Word
  grant : Word
  deriving DecidableEq, Repr

/-- What a kill reports of a strand (R201, R450). -/
structure KillRec where
  tcause : Nat
  tval : Word
  epc : List Word
  gx : Nat
  gy : Nat
  gz : Nat
  member : Nat
  deriving DecidableEq, Repr

/-- An entry of an order's grant table (R486), as registered when the order started. -/
structure Grant where
  key : Nat
  hg : Nat
  flag : Nat
  mem : Nat
  chip : Nat
  kind : Nat
  ncon : Nat
  len : Nat
  base : Nat
  deriving DecidableEq, Repr

/-- An order that has started and not ended (R49, R51, R456). -/
structure Order where
  id : Nat
  fn : Nat
  queue : Nat
  pkt : BitVec 32
  /-- Context slot and world that its strands run in. -/
  slot : Nat
  world : Nat
  op : OpRec
  /-- Linear index of the next gang to place (R49). -/
  nextGang : Nat
  err : Option KillRec
  grants : List Grant
  deriving DecidableEq, Repr

/-- A placed or saved gang (R45, R46). -/
structure GangInfo where
  id : Nat
  order : Nat
  gx : Nat
  gy : Nat
  gz : Nat
  size : Nat
  /-- Slot of the argument arena it holds (R452). -/
  argSlot : Nat
  /-- Stack areas its members hold, by member (R452). -/
  areas : List Nat
  saved : Bool
  stall : Nat
  /-- HANGTO, partition and die of its leader, once that has retired (R464). -/
  leader : Option (BitVec 32 × Nat × Nat)
  /-- The clock when it was found hung, since when its members have stopped (R464); and that its hang record has been written. -/
  hung : Option Nat
  recorded : Bool
  deriving DecidableEq, Repr

/-- A packet that has started and not completed (R447, R449). -/
structure PacketRun where
  fn : Nat
  queue : Nat
  pos : BitVec 32
  len : Nat
  kind : Nat
  tag : Word
  cq : Bool
  irq : Bool
  /-- The fields of bytes 16 to 63, as six 8-byte words. -/
  args : List Word
  ops : List OpRec
  nextOp : Nat
  order : Option Nat
  /-- Batch step: steps run, slots admitted at this boundary, and whether a step's operators run. -/
  stepNo : Nat
  admitted : List Nat
  inStep : Bool
  /-- A memory wait stands at its home bank; a signal or fence has written. -/
  armed : Bool
  /-- An order of a batch step ended in error: the queue halts after the step's retirement (R456). -/
  failed : Bool
  /-- A faulting front-end access halted the queue: nothing more of the packet runs (R448). -/
  dead : Bool
  /-- It has completed and waits for earlier packets to complete before RD passes it (R444). -/
  done : Bool
  /-- Its queue has halted or gone Off since: RD does not pass it (R445). -/
  detached : Bool
  deriving DecidableEq, Repr

/-- A completion record that waits for room in its ring (R450). -/
structure PendCq where
  fn : Nat
  queue : Nat
  /-- The record's KIND, PKT and words from offset 8. -/
  kind : Nat
  pkt : BitVec 32
  body : List Word
  irq : Bool
  /-- The packet completes with this record. -/
  ends : Bool
  deriving DecidableEq, Repr

/-- The front end. -/
structure FrontEnd where
  orders : List Order
  gangs : List GangInfo
  packets : List PacketRun
  cqWait : List PendCq
  nextOrder : Nat
  nextGang : Nat
  /-- Shadow register banks by tile: the operator whose placement image each holds (R455). -/
  shadows : List (Nat × OpRec)
  /-- By function × 64 + queue: accesses of the front end that wait on page requests, and failures answered to them. -/
  units : List (Nat × List PageWait × List PageAnswer)
  /-- WR of each queue as the front end last observed it, by function × 64 + queue (R443). -/
  seen : List (Nat × BitVec 32)
  deriving DecidableEq, Repr

/-- A Scrivener record but for SEQ, which its place in the ring gives (R467). -/
structure ScrivRec where
  time : Nat
  src : Nat
  event : Nat
  seq : Nat
  a : Nat
  b : Nat
  deriving DecidableEq, Repr

/-! ## The scale-up fabric (R483 to R497) -/

/-- A unit of a peer transfer (R264, R488): who sends it, to which chip, and what it carries. -/
structure PeerUnit where
  srcChip : Nat
  /-- Gang, member and steering number of the sender. -/
  sender : Nat × Nat × Nat
  chip : Nat
  world : Nat
  key : Nat
  dgang : Nat
  /-- sX of its word, the length of the transfer, and the unit's number. -/
  off : Nat
  len : Nat
  unit : Nat
  data : List Byte
  deriving DecidableEq, Repr

/-- The fate of a unit at its receiver (R488, R489). -/
inductive PeerFate where
  | landed
  /-- Held or refused for want of room: the sender waits. -/
  | waits
  /-- The sender traps: PAGE with a kind, RINGOV or BAROV with an index. -/
  | page (kind : Nat)
  | ringov (h : Nat)
  /-- The bytes stand. -/
  | barov (g : Nat)
  deriving DecidableEq, Repr

/-- A transfer that fills a ring position (R37, R489). -/
structure PeerXfer where
  srcChip : Nat
  sender : Nat × Nat × Nat
  gang : Nat
  member : Nat
  handle : Nat
  pos : BitVec 32
  /-- Units that have landed. -/
  done : List Nat
  deriving DecidableEq, Repr

/-- A contribution to an element of a window (R493): the chip, the op and the element. -/
structure Contribution where
  chip : Nat
  e : Nat
  op : Nat
  value : Nat
  deriving DecidableEq, Repr

/-- Whether the home chip's registration of a window is still to come, stands, or is over (R492). -/
inductive WindowState where
  | awaited | opened | retired
  deriving DecidableEq, Repr

/-- A page of a window at its home, translated once (R494): in which context slot, the page's address, its frame, and the function and
IPA for a two-stage context. -/
structure HeldPage where
  slot : Nat
  va : Nat
  pa : Nat
  fn : Nat
  ipa : Option Nat
  deriving DecidableEq, Repr

/-- A reduction window at its merge point (R492, R493): the registrations of it that stand, the frames of its home where that is this
chip, its open rounds, what is held, and the closed rounds that the home has still to apply, in the order they closed. -/
structure FabWindow where
  key : Nat
  home : Nat
  ncon : Nat
  len : Nat
  state : WindowState
  /-- The orders of this chip that have registered it, and whether another chip has. -/
  orders : List Nat
  others : Bool
  /-- The order of this chip whose registration is the home's. -/
  order : Nat
  pages : List HeldPage
  base : Nat
  rounds : List Contribution
  held : List Contribution
  closed : List Contribution
  deriving DecidableEq, Repr

/-- An open window of a table (R411): its partition, the context slot that initialised the table, the table's address in the context
`slot` that opened the window, its physical address, the function and IPA for a two-stage context, and whether that translation
has been dropped since (R281, R284). -/
structure OpenWindow where
  part : Nat
  owner : Nat
  slot : Nat
  va : Nat
  pa : Nat
  fn : Nat
  ipa : Option Nat
  stale : Bool
  deriving DecidableEq, Repr

/-- What the pod tells the device: the fate of the oldest unit that is under way to another chip, and other chips'
registrations of a window. -/
inductive FabricInput where
  | status (f : PeerFate)
  | register (key home ncon len : Nat)
  | opened (key home : Nat)
  | retired (key home : Nat)
  deriving DecidableEq, Repr

/-- The fabric registers (R485), units under way to other chips with the fates that have come back, units of other chips
that are held here, and the windows. -/
structure Fabric where
  chip : Nat
  chipLocked : Bool
  up : BitVec 16
  err : BitVec 16
  /-- Ports whose link encryption is up, with the key that training agreed (R509). -/
  keys : List (Nat × BitVec 256)
  advEn : Bool
  advParts : BitVec 8
  advSeq : Nat
  /-- The clock when the last full set was sent, or advertisements were enabled (R496). -/
  advAt : Nat
  flight : List PeerUnit
  answers : List (PeerUnit × PeerFate)
  inbox : List PeerUnit
  xfers : List PeerXfer
  windows : List FabWindow
  /-- Windows that are over, of which the home has still to apply closed rounds, while another of the same name stands. -/
  past : List FabWindow
  deriving DecidableEq, Repr

/-- The fabric after device reset (R485): no port is trained yet. -/
def Fabric.reset : Fabric := ⟨0xFFF, false, 0, 0, [], false, 0, 0, 0, [], [], [], [], [], []⟩

/-- What a checkpoint streams (R525), line by line as it lies in DRAM and then the pinned slice memory: the bytes of clear memory that
do not read as an unlisted byte does; every line of a sealed frame, as ciphertext; the frame table, with the Fullers' lists, and the
block state areas, by partition; the contexts saved in DRAM; and what lies in the integrity areas, whose layout the spec does not
give: MAC and counter of every mode-2 line that has a counter, and the counters of tree nodes. -/
structure Checkpoint where
  mem : Mem
  sealedLines : List (Nat × List Byte)
  frames : List FrameRun
  lists : List (Nat × List (Nat × Nat) × List (Nat × Nat))
  pools : List (Nat × List (Nat × Pool))
  saved : List Strand
  macs : List (Nat × Nat × Nat)
  nodes : List ((Nat × Nat) × Nat)
  deriving DecidableEq, Repr

/-- What the device sends to the outside: the model's log of it, newest first (log 15). -/
inductive Out where
  /-- An interrupt: function and vector (R470). -/
  | msi (fn vec : Nat)
  /-- A unit to another chip, by its port where it is encrypted (R509), or the fate of a unit of another chip (R488). -/
  | peer (u : PeerUnit) (port : Option Nat)
  | fate (u : PeerUnit) (f : PeerFate)
  /-- A merged value to another home chip (R493). -/
  | rwin (key home e op value : Nat)
  /-- An advertisement flit (R496). -/
  | advert (bytes : List Byte)
  /-- What a host read of memory or of a register returns (R423, R471). -/
  | hostRead (pa : Nat) (bytes : List Byte)
  | regRead (fn off value : Nat)
  /-- A request completed as Unsupported Request (R468). -/
  | unsupported
  /-- A checkpoint, sent to a sink of the host (R525). -/
  | checkpoint (sink : Nat) (image : Checkpoint)
  deriving DecidableEq, Repr

/-- A block that a migration image lists (R480): its pool's index, FMTD, V and NBLK, its number, context and REF. -/
structure ImageBlock where
  pool : Nat
  fmtd : Nat
  v : Nat
  nblk : Nat
  block : Nat
  ctx : Nat
  ref : Nat
  deriving DecidableEq, Repr

/-- What a migration image holds (R480): the saved contexts with the front end's records of their work, regions by context,
base and record address, and blocks. -/
structure Image where
  id : Nat
  strands : List Strand
  gangs : List GangInfo
  orders : List Order
  packets : List PacketRun
  regions : List (Nat × Nat × Nat)
  blocks : List ImageBlock
  deriving DecidableEq, Repr

/-- Who moves next: the model's schedule (log 2). -/
inductive Move where
  /-- The strand of a gang and member becomes the current one. -/
  | select (gang member : Nat)
  /-- A device event, or a word for the current strand. -/
  | event (i : Instr)
  /-- The current strand's L1 loses a line, or its translation caches an entry (log 6). -/
  | dropL1 (line : Nat)
  | dropTlb (va : Nat)
  /-- A version moves between its home bank's pool and a slot of the overflow area (R307). -/
  | moveVersion (ctx base gran num slot : Nat)
  /-- The scheduling mask of the current strand (log 7). -/
  | setLag (mask : BitVec 6)
  /-- Clock periods pass (log 14). -/
  | tick (n micros : Nat)
  /-- A line meets an error: 0 a transient fault of its next check, 1 a mismatch that stands, 2 an uncorrectable error
  (R507, R508). -/
  | lineFault (line kind : Nat)
  /-- A node of a counter tree, by level and index, meets an error: 0 a transient fault of its next check, 1 a mismatch that stands
  (R506, R507). -/
  | nodeFault (level index kind : Nat)
  /-- The firmware gates, or ungates, a partition's power (R514). -/
  | gate (part : Nat) (on : Bool)
  /-- The boot sequence, with the tiles that fail self-test and whether step 2 fails (R516). -/
  | boot (bad : List Nat) (fails : Bool)
  /-- The host holds a firmware image ready (R516), or offers a decode image to the firmware core, for the boot or for a load
  (R109). -/
  | offerFirmware (image : SignedImage)
  | offer (image : DecodeImage)
  /-- A migration image of another RM-4 is known (R481): its bytes may be written to an image area. -/
  | image (i : Image)
  /-- The pod (R488, R492). -/
  | fabric (i : FabricInput)
  deriving DecidableEq, Repr

/-- The state of the device. -/
structure State where
  /-- The current strand. -/
  st : Strand
  /-- The other strands that are placed or saved, in the order they take turns (log 2). -/
  others : List Strand
  mem : Mem
  narrow : List Narrow
  /-- Poisoned lines (R508), by line number. -/
  poison : List Nat
  /-- Mode-2 lines whose check fails on every read, and those whose next check alone fails (R507). -/
  badLines : List Nat
  flakyLines : List Nat
  /-- The same of nodes of the counter trees, by level and index (R506, R507). -/
  badNodes : List (Nat × Nat)
  flakyNodes : List (Nat × Nat)
  frames : List FrameRun
  /-- Frames withdrawn since device reset (R432). -/
  withdrawn : List Nat
  /-- Blocks withdrawn since device reset (R432): first byte and length. -/
  withdrawnBlocks : List (Nat × Nat)
  /-- Open windows (R411). -/
  windows : List OpenWindow
  /-- Bolt banks by die × 256 + tile × 2 + bank. -/
  bolts : List (Nat × BoltBank)
  /-- What each tile caches, by die × 128 + tile. -/
  tiles : List (Nat × TileCache)
  /-- Drapers by die. -/
  drapers : List (Nat × Draper)
  /-- Migration images that the device has written (log 11). -/
  images : List Image
  bankWaits : List BankWait
  regions : List VRegion
  /-- Granules of which another agent wrote VER, GRAN or USE of a version's slot (R307): context, base of the region, granule. -/
  spoiled : List (Nat × Nat × Nat)
  versWaits : List VWait
  fullerWaits : List FullerWait
  btbs : List Btb
  fabric : Fabric
  svc : Service
  fns : List (Nat × Fn)
  parts : List (Nat × Part)
  host : HostRegs
  sealEng : SealEng
  front : FrontEnd
  /-- The Scrivener, newest record first, and the count of records written since power was applied (R467). -/
  scriv : List ScrivRec
  scrivCount : Nat
  /-- Replay counters of the mode-2 lines that have been written (R506), by line number, and the counters of tree nodes below the
  top, by level and index. -/
  lineCtrs : List (Nat × Nat)
  nodeCtrs : List ((Nat × Nat) × Nat)
  /-- The roots of the counter trees, which the seal engine holds (R506): the counter of each stack's top node, by stack. -/
  treeRoots : List (Nat × Nat)
  /-- Microseconds of the always-on clock (R467). -/
  aon : Nat
  clock : Nat
  moves : List Move
  out : List Out
  freeCount : Nat
  deriving DecidableEq, Repr

/-! ## A strand at placement -/

/-- The CSRs at placement (R187, R23, R317). -/
def Csrs.fresh : Csrs :=
  { trap := false, emu := false, privl := false, slipLimit := 256, flags := 0, rmode := 0, rngKey := 0, rngCtr := 0
    tvec := 0, emuvec := 0, emuepc := 0, epcS := 0, epcE := Vector.replicate 6 0, tcause := 0, tval := 0, tscr := 0
    vtimeout := 4096, kstep := false, hangto := 0 }

/-- A strand of a place at placement (R48, R173, R205, R246, R326, R333, R380). -/
def Strand.fresh (p : Place) : Strand :=
  { place := p, life := .active, regs := Vector.replicate 64 0, pc := 0, pfx := [], ended := false, hold := .none
    broken := .none, pend := none, stalled := false, waiting := none, steered := 0, csr := Csrs.fresh
    vec := ⟨Vector.replicate 16 (Vector.replicate 1024 0), Vector.replicate 8 0, 0⟩
    mat := ⟨[], false, [], Vector.replicate 2 []⟩, attn := ⟨0x3F800000, 64, 0, 0, 0⟩, queues := Vector.replicate 6 []
    loopLeft := Vector.replicate 3 0, engHeld := 0, lag := 0, work := Progress.fresh, descs := Vector.replicate 8 0
    streams := Vector.replicate 8 Stream.unbound, rings := Vector.replicate 16 Ring.unbound
    bars := Vector.replicate 16 Barrier.fresh, spad := [], spadUnits := 0, stores := [], barred := false
    pageWaits := [], pageAnswers := [], stall := 0, turn := 0 }

/-! ## The state after device reset (R478, R516) -/

/-- No place: of a strand that is none. -/
def Place.none : Place := ⟨0, 0, 0, 0, 0, 0, 0, 0, 0, 0, 0⟩

/-- The service registers with power just applied (R518 to R526). -/
def Service.reset : Service :=
  { powered := true, integ := 0, integNow := 0, boot := 0, cerr := false, fence := [], fenced := [], sramErrors := [], ceCount := 0
    ceSince := 0, ceLimit := 1000, pwrcap := 3000, tlm := 0, ckptDst := 0, ckptGib := 0, ckptErr := false, ckptState := 0, scrivSel := 0
    scrivD := [], slow := [], refresh2 := [], gated := [], firmware := none, offered := none, image := none, decodes := [] }

/-- The device right after a device reset that follows power-on: nothing is placed, every partition is held (R473), and the
boot sequence is still to run (R516). The frames are those of R517 for INTEG 0. -/
def State.reset : State :=
  { st := { Strand.fresh Place.none with life := .gone }, others := [], mem := [], narrow := [], poison := []
    badLines := [], flakyLines := [], badNodes := [], flakyNodes := []
    frames := [⟨0, 0x7FE800, ⟨.toScrub, 0, 0, 0, 0⟩⟩, ⟨0x7FE800, 0x800000, ⟨.fixed, 0, 0, 0, 0⟩⟩]
    withdrawn := [], withdrawnBlocks := [], windows := [], bolts := [], tiles := [], drapers := [], images := [], bankWaits := [], regions := [], spoiled := []
    versWaits := []
    fullerWaits := [], btbs := [], fabric := Fabric.reset, svc := Service.reset, fns := []
    parts := [(0, Part.reset), (1, Part.reset), (2, Part.reset), (3, Part.reset), (4, Part.reset), (5, Part.reset),
      (6, Part.reset), (7, Part.reset)]
    host := ⟨0, 0, 0, false, 0, 0, 0, false⟩
    sealEng := ⟨[], 0, 0, 0, 0, 0⟩
    front := ⟨[], [], [], [], 0, 0, [], [], []⟩
    scriv := [], scrivCount := 0, lineCtrs := [], nodeCtrs := [], treeRoots := [], aon := 0, clock := 0, moves := [], out := [], freeCount := 0 }

end Sys2Proof.Machine
end

