-- ==== Sys2Proof/Machine/Ops.lean ====
section
/-! DEFINITION. Named operations over registers, frames, physical memory and the device's records, and the one operation
by which a trap is taken (R199), with the return beside it (R202). -/

namespace Sys2Proof.Machine

/-! ## The effect monad of one step -/

/-- Why a word does not complete: it traps, or its condition does not hold yet. The wait kinds are WKIND and WIDX of
R465: 1 ring fill, 2 ring room, 3 barrier, 4 stream register, 5 memory value, 6 version, 7 page request, 8 Fuller. -/
inductive Stop where
  | trap (t : TrapInfo)
  | wait (kind index : Nat)
  deriving DecidableEq, Repr

/-- A computation on the state that may stop; what it has done before a stop stands. -/
abbrev M := EStateM Stop State

/-- Raise a trap. -/
def trapM {α : Type} (c : Cause) (kind : Nat) (tval : Word) : M α := throw (.trap ⟨c, kind, tval⟩)

/-- Wait. -/
def waitM {α : Type} (kind index : Nat) : M α := throw (.wait kind index)

/-- Raise PAGE with a kind at an address. -/
def trapPage {α : Type} (kind va : Nat) : M α := trapM .page kind (BitVec.ofNat 64 va)

/-- Change the current strand. -/
def modSt (f : Strand → Strand) : M Unit := modify fun s => { s with st := f s.st }

/-- The current strand. -/
def getSt : M Strand := do return (← get).st

/-- Do `f lo`, `f (lo + 1)` and so on, `n` of them. -/
def loopM : Nat → Nat → (Nat → M Unit) → M Unit
  | 0, _, _ => pure ()
  | n + 1, lo, f => do f lo; loopM n (lo + 1) f

/-- Do `f` for each entry of a list. -/
def eachM {α : Type} : List α → (α → M Unit) → M Unit
  | [], _ => pure ()
  | a :: rest, f => do f a; eachM rest f

/-- Collect `f` over a list. -/
def collectM {α β : Type} : List α → (α → M β) → M (List β)
  | [], _ => pure []
  | a :: rest, f => do let b ← f a; let bs ← collectM rest f; return b :: bs

/-- A fresh free value (log 10). -/
def freshWord : M Word := do
  let s ← get
  set { s with freeCount := s.freeCount + 1 }
  return Config.freeWord s.freeCount

/-! ## Scalar registers (R173) -/

/-- A scalar register; s0 reads as zero. -/
def Strand.reg (t : Strand) (r : Reg) : Word := if r = 0 then 0 else vget t.regs r.toNat 0

/-- Write a scalar register; a write to s0 is discarded. -/
def Strand.setReg (t : Strand) (r : Reg) (v : Word) : Strand :=
  if r = 0 then t else { t with regs := vput t.regs r.toNat v }

/-- A text address field of R187: bits [54:2] of a word, the others zero. -/
def textAddr (w : Word) : Word := BitVec.ofNat 64 (w.toNat % 2 ^ 55 / 4 * 4)

/-- The low 32 bits of a word. -/
def lowElem (w : Word) : Elem := BitVec.ofNat 32 w.toNat

/-! ## Functions and partitions -/

/-- A function's state. -/
def State.fn (s : State) (n : Nat) : Fn := assoc s.fns n Fn.reset

/-- Change a function's state. -/
def State.setFn (s : State) (n : Nat) (f : Fn) : State := { s with fns := assocPut s.fns n f }

/-- A function is enabled; function 0 always is (R475). -/
def State.fnEnabled (s : State) (n : Nat) : Bool := n == 0 || (s.fn n).en

/-- A partition's state. -/
def State.part (s : State) (p : Nat) : Part := assoc s.parts p Part.reset

/-- Change a partition's state. -/
def State.setPart (s : State) (p : Nat) (x : Part) : State := { s with parts := assocPut s.parts p x }

/-- A partition is released: its configuration stands for tiles, slices and frames (R474). -/
def Part.released (p : Part) : Bool := !p.hold && p.cfg.en

/-- A partition holds a tile, or slice, of a die: `i` of `n` (R473). -/
def PartCfg.holds (c : PartCfg) (die i n : Nat) : Bool :=
  bit c.dies die && (c.half == 0 || (c.half == 1 && 2 * i < n) || (c.half == 2 && n ≤ 2 * i))

/-- The released partition that holds slice `i` of a die. -/
def State.partOfSlice (s : State) (die i : Nat) : Option (Nat × Part) :=
  s.parts.find? fun p => p.2.released && p.2.cfg.holds die i Config.slicesPerDie

/-- FEATURES of a function's strands (R104, R107): no word of the physical function is masked (R105). -/
def State.features (s : State) (fn : Nat) : BitVec 16 := if fn = 0 then 0xFFFF else (s.fn fn).featmask ||| 1

/-! ## Interrupts and the Scrivener -/

/-- Raise an MSI-X vector; a vector at or above the table's size raises nothing (R469), a masked one becomes pending
(R470). -/
def State.raiseMsi (s : State) (fn vec : Nat) : State :=
  if (if fn = 0 then 256 else 64) ≤ vec then s
  else
    let f := s.fn fn
    match f.msix.find? fun e => e.1 == vec with
    | some (_, _, _, true) => if f.pba.contains vec then s else s.setFn fn { f with pba := f.pba ++ [vec] }
    | _ => { s with out := .msi fn vec :: s.out }

/-- Write a Scrivener record (R467): the newest 4,096 are kept. -/
def State.scrivener (s : State) (src event a b : Nat) : State :=
  { s with
    scriv := (ScrivRec.mk s.aon src event (s.scrivCount % 2 ^ 32) a b :: s.scriv).take 4096
    scrivCount := s.scrivCount + 1 }

/-- Cycles of a window of correctable errors (R521). -/
def ceWindow : Nat := 2 ^ 40

/-- Where the window of correctable errors is over, COUNT restarts with the one that the clock is in (R521). -/
def State.ceRoll (s : State) : State :=
  if s.svc.ceSince + ceWindow ≤ s.clock then
    { s with svc := { s.svc with
      ceCount := 0, ceSince := s.svc.ceSince + (s.clock - s.svc.ceSince) / ceWindow * ceWindow } }
  else s

/-- Correctable errors are counted; the count reaches its limit (R520, R521). -/
def State.correctable (s : State) (n : Nat) : State :=
  let s := s.ceRoll
  let c := min (s.svc.ceCount + n) (2 ^ 32 - 1)
  { s with svc := { s.svc with ceCount := c, cerr := s.svc.cerr || (s.svc.ceLimit != 0 && decide (s.svc.ceLimit ≤ c)) } }

/-- SRC of a Scrivener record (R467). -/
def scrivSrc (fn queue die : Nat) : Nat := fn * 512 + queue * 8 + die

/-- SRC of a record about a line of DRAM: the die whose stacks hold it (R57, R467). -/
def lineSrc (line : Nat) : Nat := scrivSrc 0 0 (line * 64 / 2 ^ 37)

/-- Leaves of the identity key (R511). -/
def leafCount : Nat := 2 ^ 20

/-- The identity key signs once, where a leaf is left: its index moves on before the signature is used (R511). -/
def State.useLeaf (s : State) : State :=
  { s with sealEng := { s.sealEng with leaf := s.sealEng.leaf + (decide (s.sealEng.leaf < leafCount)).toNat } }

/-! ## Frames (R423) -/

/-- First address beyond the DRAM window (R57). -/
def dramEnd : Nat := 2 ^ 39

/-- First address of the slice-memory window (R57). -/
def sliceBase : Nat := 2 ^ 48

/-- Bytes of the slice-memory window (R57). -/
def sliceBytes : Nat := 2 ^ 29

/-- First address of the host window (R57). -/
def hostBase : Nat := 2 ^ 51

/-- The entry of a frame that no run names: the table names every frame, so this is never read at reset or later. -/
def Frame.none : Frame := ⟨.fixed, 0, 0, 0, 0⟩

/-- The frame table entry of a frame index (R423). -/
def frameOf : List FrameRun → Nat → Frame
  | [], _ => Frame.none
  | r :: rest, i => if r.lo ≤ i ∧ i < r.hi then r.frame else frameOf rest i

/-- The frame table with the frames `lo` up to `hi` given one entry. -/
def putFrames (runs : List FrameRun) (lo hi : Nat) (f : Frame) : List FrameRun :=
  let cut := runs.flatMap fun r =>
    (if r.lo < min r.hi lo then [{ r with hi := min r.hi lo }] else []) ++
    (if max r.lo hi < r.hi then [{ r with lo := max r.lo hi }] else [])
  if lo < hi then (cut.filter fun r => r.lo < lo) ++ FrameRun.mk lo hi f :: cut.filter (fun r => lo ≤ r.lo) else runs

/-- The frame table entry of a DRAM address. -/
def State.frameAt (s : State) (pa : Nat) : Frame := frameOf s.frames (pa / 65536)

/-- The seal mode and world in force at a physical address: slice memory and the host window are clear (R501). -/
def State.sealAt (s : State) (pa : Nat) : Nat × Nat :=
  if pa < dramEnd then ((s.frameAt pa).sealMode, (s.frameAt pa).world) else (0, 0)

/-- A physical address lies in a window of R57, the pinned part of slice memory included. -/
def State.inWindow (s : State) (pa : Nat) : Bool :=
  if pa < dramEnd then true
  else if sliceBase ≤ pa ∧ pa < sliceBase + sliceBytes then
    let i := bits pa 21 8
    match s.partOfSlice (i / Config.slicesPerDie) (i % Config.slicesPerDie) with
    | some (_, p) => bits pa 0 21 / 65536 < p.cfg.slmem
    | none => false
  else hostBase ≤ pa ∧ pa < 2 ^ 52

/-- A frame of a weight region that is being hashed or is ready: writes to it trap or are dropped (R356). -/
def State.weightFrame (s : State) (pa : Nat) : Bool :=
  s.parts.any fun p => p.2.weights.any fun w =>
    (w.2.st == 1 || w.2.st == 2) && decide (w.2.frame ≤ pa / 65536 ∧ pa / 65536 < w.2.frame + w.2.ngr)

/-! ## Physical memory (R56 to R61, R66, R508) -/

/-- Who reads or writes memory, for the scopes of R63. -/
inductive Who where
  | strand (gang member : Nat)
  /-- The Draper, cache-context unit or Fuller of a die. -/
  | unit (die : Nat)
  /-- The front end, the firmware core and the walker. -/
  | device
  | host
  deriving DecidableEq, Repr

/-- The agent that a strand is. -/
def Strand.who (t : Strand) : Who := .strand t.place.gang t.place.member

/-- A store published at its scope is visible to a reader (R63). What a reader has been given is never taken back (R70). -/
def Narrow.visible (n : Narrow) (w : Who) : Bool :=
  match w with
  | .strand g m => (n.gang == g && n.member == m) || (1 ≤ n.scope && n.gang == g) || n.strands.contains (g, m) || 3 ≤ n.scope
  | .unit d => n.dies.contains d || 3 ≤ n.scope
  | .device => 3 ≤ n.scope
  | .host => 4 ≤ n.scope

/-- The byte a reader sees, given the byte at the home and the narrowly published stores, newest first. -/
def seenByte (w : Who) (pa : Nat) : List Narrow → Byte → Byte
  | [], v => v
  | n :: rest, v => if n.pa = pa then (if n.visible w then v else seenByte w pa rest n.old) else seenByte w pa rest v

/-- One byte at its home, as a reader sees it. -/
def State.peek (s : State) (w : Who) (pa : Nat) : Byte := seenByte w pa s.narrow (s.mem.read pa)

/-- `n` bytes at their home, as a reader sees them. -/
def State.peekBytes (s : State) (w : Who) (pa n : Nat) : List Byte := genFrom n pa (s.peek w)

/-- An unsigned number at its home, as a reader sees it. -/
def State.peekNat (s : State) (w : Who) (pa n : Nat) : Nat := natOfBytes (s.peekBytes w pa n)

/-- A run of bytes cut at the boundaries of 64-byte lines; the number bounds the pieces. -/
def cutLines : Nat → Nat → List Byte → List (Nat × List Byte)
  | 0, _, _ => []
  | fuel + 1, pa, bs =>
    if bs.isEmpty then [] else
    let n := 64 - pa % 64
    (pa, bs.take n) :: cutLines fuel (pa + n) (bs.drop n)

/-- The condition of a memory-value wait on the value read (R302). -/
def BankWait.holds (b : BankWait) (v : Nat) : Bool :=
  let n := 8 * b.w
  let x := v &&& b.mask
  let y := b.y &&& b.mask
  match b.cond with
  | 0 => x == y
  | 1 => x != y
  | 2 => decide (y ≤ x)
  | _ => decide (sextNat y n ≤ sextNat x n)

/-- The read that follows every write to the location (R302). -/
def BankWait.notice (mem : Mem) (pa n : Nat) (b : BankWait) : BankWait :=
  if pa < b.pa + b.w ∧ b.pa < pa + n ∧ b.holds (mem.readNat b.pa b.w) = true then { b with hit := true } else b

/-! ## Homes (R58) and what lies in memory for the banks and the pools (R306, R398) -/

/-- The home slice of an address, by die × 64 + slice (R58). -/
def State.homeSlice (s : State) (pa : Nat) : Nat :=
  if pa < dramEnd then
    let die := pa / 2 ^ 37
    let h := bits pa 12 6 ^^^ bits pa 18 6 ^^^ bits pa 24 6 ^^^ bits pa 30 6
    let half := (s.parts.find? fun p => p.2.released && decide (p.2.cfg.fbase ≤ pa / 65536 ∧ pa / 65536 < p.2.cfg.flimit)).map
      fun p => p.2.cfg.half
    die * Config.slicesPerDie + (match half with | some 1 => h % 32 | some 2 => 32 + h % 32 | _ => h)
  else bits pa 21 8

/-- The home bank within the home slice (R58). -/
def homeBank (pa : Nat) : Nat := bits pa 6 3

/-- Physical address of granule `g`'s page bytes, in the frame that belonged to the region at registration. -/
def VRegion.granPa (r : VRegion) (g : Nat) : Nat :=
  ((r.frames[g / 1024]?).map VFrame.frame).getD 0 * 65536 + g % 1024 * 64

/-- Bytes of the base table (R306). -/
def VRegion.tableBytes (r : VRegion) : Nat := 65536 * ((r.pages + 15) / 16)

/-- Physical address of an offset in the overflow area. -/
def VRegion.ovfPa (r : VRegion) (off : Nat) : Nat :=
  ((r.ovfFrames[off / 65536]?).map VFrame.frame).getD 0 * 65536 + off % 65536

/-- Physical address of slot `i`. -/
def VRegion.slotPa (r : VRegion) (i : Nat) : Nat := r.ovfPa (r.tableBytes + 128 * i)

/-- A write of `n` bytes reaches VER, GRAN or USE of the slot that holds a version (R307). -/
def VRegion.spoils (r : VRegion) (pa n : Nat) (v : Version) : Bool :=
  match v.slot with
  | some i => decide (pa < r.slotPa i + 73 ∧ r.slotPa i + 64 < pa + n)
  | none => false

/-- The granules that a write of `n` bytes spoils (R307). -/
def State.spoiledBy (s : State) (pa n : Nat) : List (Nat × Nat × Nat) :=
  s.regions.flatMap fun r => (r.vers.filter (r.spoils pa n)).map fun v => (r.ctx, r.base, v.gran)

/-- The block stride (R398). -/
def Pool.stride (p : Pool) : Nat := 2 ^ (11 + p.bsz)

/-- The block of a pool in which a line lies. -/
def Pool.blockAt (p : Pool) (line : Nat) : Option Nat :=
  let b := (line * 64 - p.base * 65536) / p.stride
  if p.en && decide (p.base * 65536 ≤ line * 64 ∧ b < p.nblk) then some b else none

/-- The block of a pool in which a line lies is poisoned (R420). -/
def Pool.poisonAt (p : Pool) (line : Nat) : Pool :=
  match p.blockAt line with
  | some b => { p with poison := if p.poison.contains b then p.poison else b :: p.poison }
  | none => p

/-- An uncorrectable error of a line poisons it, and the pool block in which it lies (R420, R508). -/
def State.poisonLine (s : State) (line : Nat) : State :=
  { s with
    poison := if s.poison.contains line then s.poison else line :: s.poison
    parts := s.parts.map fun x => (x.1, { x.2 with pools := x.2.pools.map fun q => (q.1, q.2.poisonAt line) }) }

/-! ## Counter trees (R506, R517) -/

/-- Levels of a stack's counter tree, eight counters to a node, over the lines of its covered range. -/
def State.treeLevels (s : State) : Nat := match s.svc.integNow with | 0 => 0 | 1 => 9 | _ => 10

/-- The nodes of a tree on the path of a line, by level and index: `n` levels from `k` up. -/
def treePath (line : Nat) : Nat → Nat → List (Nat × Nat)
  | 0, _ => []
  | n + 1, k => (k, line / 8 ^ k) :: treePath line n (k + 1)

/-- The nodes on the path of a line. -/
def State.pathOf (s : State) (line : Nat) : List (Nat × Nat) := treePath line s.treeLevels 1

/-- The stack that a line lies in (R57). -/
def stackOf (line : Nat) : Nat := line / 2 ^ 30

/-- Add 1 to the counters of some keys. -/
def bumpAll (l : List ((Nat × Nat) × Nat)) (ks : List (Nat × Nat)) : List ((Nat × Nat) × Nat) :=
  ks.foldl (fun l k => assocPut l k (assoc l k 0 + 1)) l

/-- The counters that a write of a line increments: its own, those of the nodes of its path, and the root's. -/
def State.ctrsOf (s : State) (line : Nat) : List Nat :=
  assoc s.lineCtrs line 0 :: assoc s.treeRoots (stackOf line) 0 :: (s.pathOf line).map fun k => assoc s.nodeCtrs k 0

/-- One of them is at its end. -/
def State.ctrFull (s : State) (line : Nat) : Bool := (s.ctrsOf line).any fun c => decide (2 ^ 56 - 1 ≤ c)

/-- A line of a mode-2 frame is written: its counter rises, and with it that of every node on its path, since the node below is
written (R506). The top node's own counter is the root. That a node's counter rises with a write under it is DEDUCED (log 81). -/
def State.countLine (s : State) (line : Nat) : State :=
  { s with
    lineCtrs := assocPut s.lineCtrs line (assoc s.lineCtrs line 0 + 1)
    nodeCtrs := bumpAll s.nodeCtrs (treePath line (s.treeLevels - 1) 1)
    treeRoots := assocPut s.treeRoots (stackOf line) (assoc s.treeRoots (stackOf line) 0 + 1) }

/-- A mode-2 line: of a DRAM frame that is sealed with integrity (R504). -/
def State.mode2 (s : State) (line : Nat) : Bool := decide (line * 64 < dramEnd) && (s.frameAt (line * 64)).sealMode == 2

/-- The check of a mode-2 line fails for good (R507): at the line or at a node on its path. -/
def State.pathBad (s : State) (line : Nat) : Bool := s.badLines.contains line || (s.pathOf line).any s.badNodes.contains

/-- It fails once. -/
def State.pathFlaky (s : State) (line : Nat) : Bool := s.flakyLines.contains line || (s.pathOf line).any s.flakyNodes.contains

/-- A line is mismatched (R508): it is poisoned, or every mode-2 line under a node that is, and the event is recorded. -/
def State.mismatched (s : State) (line : Nat) : State :=
  let nodes := (s.pathOf line).filter s.badNodes.contains
  let lines := if nodes.isEmpty then [line]
    else (nodes.flatMap fun n => genFrom (8 ^ n.1) (n.2 * 8 ^ n.1) id).filter s.mode2
  let s := { s with
    badLines := s.badLines.filter fun l => l != line
    badNodes := s.badNodes.filter fun n => !nodes.contains n }
  (lines.foldl State.poisonLine s).scrivener (lineSrc line) 9 (line * 64) 2

/-- A check that failed once passes on the re-read (R507): the line is rewritten with its data, which counts as a write, and the
event is recorded and counted. -/
def State.transient (s : State) (line : Nat) : State :=
  let s := { s with
    flakyLines := s.flakyLines.filter fun l => l != line
    flakyNodes := s.flakyNodes.filter fun n => !(s.pathOf line).contains n }
  ((if s.ctrFull line then s.poisonLine line else s.countLine line).scrivener (lineSrc line) 9 (line * 64) 1).correctable 1

/-! ## Writes at a home -/

/-- Write bytes of one line at its home. A poisoned line takes a whole line, which clears the poison, and drops anything
less (R508). A mode-2 line counts the write; past the end of a counter the line is poisoned instead (R506). -/
def State.writeLine (s : State) (pa : Nat) (bs : List Byte) : State :=
  let line := pa / 64
  let dram := pa < dramEnd
  let mode2 := dram && (s.frameAt pa).sealMode == 2
  if dram && s.poison.contains line && bs.length != 64 then s
  else if mode2 && s.ctrFull line then s.poisonLine line
  else
    let s := if mode2 then s.countLine line else s
    let mem := s.mem.writeBytes pa bs
    { s with
      mem := mem
      bankWaits := s.bankWaits.map (BankWait.notice mem pa bs.length)
      spoiled := s.spoiledBy pa bs.length ++ s.spoiled
      poison := if dram then s.poison.filter (· != line) else s.poison
      badLines := if dram && bs.length == 64 then s.badLines.filter (· != line) else s.badLines
      flakyLines := if dram && bs.length == 64 then s.flakyLines.filter (· != line) else s.flakyLines }

/-- Write bytes at their homes, published at `.sys` (R77). -/
def State.writeHome (s : State) (pa : Nat) (bs : List Byte) : State :=
  let s := { s with narrow := s.narrow.filter fun n => !(pa ≤ n.pa && n.pa < pa + bs.length) }
  (cutLines (bs.length + 1) pa bs).foldl (fun s c => s.writeLine c.1 c.2) s

/-- Write a number of `n` bytes at its home, published at `.sys`. -/
def State.writeHomeNat (s : State) (pa n x : Nat) : State := s.writeHome pa (bytesOfNat n x)

/-! ## Tiles (R56, R62, R279) -/

/-- A strand's context stands in a bank of a tile (R53). -/
def Strand.resident (t : Strand) : Bool := t.life == .active || t.life == .residentIdle || t.life == .parked

/-- A strand is resident on a tile. -/
def Strand.residentOn (t : Strand) (die tile : Nat) : Bool := t.place.die == die && t.place.tile == tile && t.resident

/-- The number of a place's tile. -/
def Place.tileKey (p : Place) : Nat := p.die * Config.tilesPerDie + p.tile

/-- What a tile caches. -/
def State.tileAt (s : State) (k : Nat) : TileCache := assoc s.tiles k TileCache.empty

/-- Change what a tile caches. -/
def State.modTile (s : State) (k : Nat) (f : TileCache → TileCache) : State :=
  { s with tiles := assocPut s.tiles k (f (s.tileAt k)) }

/-- Change what a tile caches, if it caches anything. -/
def State.trimTile (s : State) (k : Nat) (f : TileCache → TileCache) : State :=
  { s with tiles := s.tiles.map fun x => if x.1 = k then (x.1, f x.2) else x }

/-- Change what every tile caches. -/
def State.modTiles (s : State) (f : TileCache → TileCache) : State :=
  { s with tiles := s.tiles.map fun x => (x.1, f x.2) }

/-- What the current strand's tile caches. -/
def State.here (s : State) : TileCache := s.tileAt s.st.place.tileKey

/-- Change it. -/
def State.modHere (s : State) (f : TileCache → TileCache) : State := s.modTile s.st.place.tileKey f

/-- The mark of a context bank (R53). -/
def bankMark (bank : Nat) : BitVec 2 := 1 <<< bank

/-- Drop the lines of a range of addresses from an L1 (R62). -/
def TileCache.dropLines (c : TileCache) (pa n : Nat) : TileCache :=
  { c with l1 := c.l1.filter fun l => !(pa / 64 ≤ l.line && l.line * 64 < pa + n) }

/-- What the L1 and the instruction cache hold is valid for a strand of a bank no more (R67, R82); an entry that is valid
for none is gone. -/
def TileCache.invalid (c : TileCache) (bank : Nat) (data code : Bool) : TileCache :=
  let off := ~~~(bankMark bank)
  { c with
    l1 := if data then (c.l1.map fun l => { l with banks := l.banks &&& off }).filter fun l => l.banks != 0 else c.l1
    icache := if code then (c.icache.map fun w => { w with banks := w.banks &&& off }).filter fun w => w.banks != 0
      else c.icache }

/-- The clear between worlds (R499). -/
def TileCache.cleared (c : TileCache) : TileCache := { TileCache.empty with world := c.world, bank := c.bank }

/-- A write by an engine of a tile: performed at the home, and the lines leave that tile's L1 (R62). -/
def State.tileWrite (s : State) (tile pa : Nat) (bs : List Byte) : State :=
  (s.writeHome pa bs).trimTile tile fun c => c.dropLines pa bs.length

/-! ## Traps (R28, R195 to R202) -/

/-- The codes of R195. -/
def Cause.code : Cause → Nat
  | .undef => 1 | .priv => 2 | .align => 3 | .page => 4 | .sealing => 5 | .integ => 6 | .poison => 7 | .vord => 8
  | .vmiss => 9 | .vcap => 10 | .barov => 11 | .ringov => 12 | .emu => 13 | .brk => 14

/-- TCAUSE (R187). -/
def tcauseImage (inemu intrap drain : Bool) (eng : Nat) (t : TrapInfo) : BitVec 19 :=
  BitVec.ofNat 19 (inemu.toNat * 2 ^ 18 + intrap.toNat * 2 ^ 17 + drain.toNat * 2 ^ 16 + eng % 8 * 2 ^ 12 +
    t.kind % 16 * 2 ^ 8 + t.cause.code)

/-- The queue of an engine, 1 to 6. -/
def Strand.queue (t : Strand) (e : Nat) : List Entry := vget t.queues (e - 1) []

/-- Replace the queue of an engine. -/
def Strand.setQueue (t : Strand) (e : Nat) (q : List Entry) : Strand := { t with queues := vput t.queues (e - 1) q }

/-- The entry is a `qjoin` mark (R78). -/
def Entry.isJoin (e : Entry) : Bool := match e.word with | .qjoin _ => true | _ => false

/-- The entry is a loop word (R27). -/
def Entry.isLoop (e : Entry) : Bool := match e.word with | .vLoop .. | .mLoop .. | .cLoop .. => true | _ => false

/-- The body length of a loop word. -/
def Entry.loopLen (e : Entry) : Nat :=
  match e.word with | .vLoop _ l _ | .mLoop _ l _ | .cLoop _ l _ => l.toNat + 1 | _ => 0

/-- Every queue is empty: every engine word is performed and every `qjoin` entry reached. -/
def Strand.drained (t : Strand) : Bool := t.queues.toList.all List.isEmpty

/-- The counter of an engine (R28): the address of its oldest unperformed word, the body word being performed within an
open nest (R27), or EPC.S when it has none. -/
def Strand.engineCounter (t : Strand) (epcS : Word) (e : Nat) : Word :=
  match (t.queue e).filter (fun x => !x.isJoin) with
  | [] => epcS
  | x :: rest =>
    if x.isLoop && x.prog.started then
      match rest.drop x.prog.body with
      | [] => x.addr
      | b :: _ => b.addr
    else x.addr

/-- The seven counters of R28, EPC.S first. -/
def Strand.counters (t : Strand) (epcS : Word) : List Word :=
  epcS :: [1, 2, 3, 4, 5, 6].map (t.engineCounter epcS)

/-- A strand that is no more. -/
def Strand.end (t : Strand) : Strand := { t with life := .gone }

/-- The gang of the current strand ends with it: every member goes, with its queues and unpublished stores (R201). What
the order reports is the first strand killed (R456). -/
def State.killGang (s : State) (t : TrapInfo) (tc : BitVec 19) (epcS : Word) : State :=
  let g := s.st.place.gang
  let info := s.front.gangs.find? fun x => x.id == g
  let rec' : KillRec :=
    { tcause := tc.toNat, tval := t.tval, epc := s.st.counters epcS
      gx := (info.map GangInfo.gx).getD 0, gy := (info.map GangInfo.gy).getD 0, gz := (info.map GangInfo.gz).getD 0
      member := s.st.place.member }
  { s with
    st := s.st.end
    others := s.others.filter fun x => x.place.gang != g
    bankWaits := s.bankWaits.filter fun b => b.gang != g
    versWaits := s.versWaits.filter fun b => b.gang != g
    fullerWaits := s.fullerWaits.filter fun b => b.gang != g
    front := { s.front with
      gangs := s.front.gangs.filter fun x => x.id != g
      orders := s.front.orders.map fun o =>
        if o.id = s.st.place.order ∧ o.err.isNone then { o with err := some rec' } else o } }

/-- A word that a trap has stopped holds no scratchpad lock: its progress state keeps none (R29, R31; log 9). -/
def Entry.unlocked (x : Entry) : Entry := { x with prog := { x.prog with locks := [], shareLocks := [] } }

/-- Take a trap of the current strand (R199). `a` is the address of the unit that raised it, `epcS` the counter of the
scalar core, `eng` the engine of the word. A hold of the splitter is broken until `tret` (R74). -/
def State.takeTrap (s : State) (a epcS : Word) (drain : Bool) (eng : Nat) (t : TrapInfo) : State :=
  let c := s.st.csr
  let plain := { s with st := { s.st with pend := none, pfx := [], waiting := none, stalled := false } }
  if t.cause = .undef ∧ c.trap = false ∧ c.emu = true then
    plain.killGang { t with cause := .emu } (tcauseImage c.emu c.trap drain eng { t with cause := .emu }) epcS
  else if t.cause = .undef ∧ c.trap = false ∧ c.emuvec ≠ 0 then
    { plain with st := { plain.st with csr := { c with emuepc := textAddr a, emu := true }, pc := c.emuvec } }
  else if c.trap = true ∨ c.tvec = 0 then
    plain.killGang t (tcauseImage c.emu c.trap drain eng t) epcS
  else
    { plain with
      st := { plain.st with
        csr := { c with
          tcause := tcauseImage c.emu false drain eng t
          tval := t.tval
          epcS := textAddr epcS
          epcE := vecGen 6 fun i => textAddr (s.st.engineCounter epcS (i + 1))
          trap := true }
        ended := false
        queues := s.st.queues.map fun q => q.map Entry.unlocked
        hold := .none
        broken := s.st.hold
        -- words that stay unperformed stay stopped until `tret` (R200, R202)
        engHeld := BitVec.ofNat 6 ((genFrom 6 0 fun i =>
          if (s.st.queue (i + 1)).isEmpty then 0 else 2 ^ i).sum)
        pc := c.tvec } }

/-- Return from a handler (R202): the strand after `tret`, or none where it raises PRIV. -/
def Strand.trapReturn (t : Strand) : Option Strand :=
  if t.csr.trap then
    some { t with csr := { t.csr with trap := false }, engHeld := 0, pc := t.csr.epcS, pfx := [], hold := t.broken, broken := .none }
  else if t.csr.emu then
    some { t with csr := { t.csr with emu := false }, pc := t.csr.emuepc, pfx := [] }
  else none

/-- No queue holds a word that a drain would perform: the words that a handler finds stopped are none (R196, R200). -/
def Strand.drainEmpty (t : Strand) : Bool :=
  [1, 2, 3, 4, 5, 6].all fun e => (t.queue e).isEmpty || t.engHeld.getLsbD (e - 1)

/-- A scalar word, or the splitter at decode, raises a trap: the strand drains first (R196), unless nothing is queued. -/
def State.raise (s : State) (a : Word) (t : TrapInfo) : State :=
  if s.st.drainEmpty then s.takeTrap a a false 0 t
  else { s with st := { s.st with pend := some ⟨a, t, [], [], false⟩ } }

/-- A remote unit holds a word of engine `e` (R14, R198): it waits there on a version, a page request or the Fuller. -/
def Entry.remote (x : Entry) (e : Nat) : Bool :=
  4 ≤ e && (match x.prog.wait with | some (k, _) => 6 ≤ k && k ≤ 8 | none => false)

/-- The steering number of the word at which engine `e` has stopped in a drain (R196). -/
def Strand.faultedAt (t : Strand) (e : Nat) : Option Nat :=
  t.pend.bind fun p => (p.words.find? fun w => w.1 == e).map Prod.snd

/-- A word stands before the one at which its engine has stopped; where it has not, every word does (R29). -/
def Strand.beforeFault (t : Strand) (e : Nat) (x : Entry) : Bool :=
  match t.faultedAt e with | some n => decide (x.seq < n) | none => true

/-- Remote units hold words of the strand, none of which comes after a word at which its engine has stopped (R29, R198). -/
def Strand.remoteHolds (t : Strand) : Bool :=
  [4, 5, 6].any fun e => !t.engHeld.getLsbD (e - 1) && (t.queue e).any fun x => x.remote e && t.beforeFault e x

/-- A matrix word that a stop performs whole where KSTEP = 0 (R352): an `m.mma` or `m.mma.g` that has started. One that waits on
a page request keeps its progress, as R291 has it. -/
def Entry.mustFinish (x : Entry) : Bool :=
  (match x.word with | .mMma .. | .mMmaG .. => x.prog.started | _ => false) &&
    (match x.prog.wait with | some (7, _) => false | _ => true)

/-- With KSTEP = 0, the matrix engine has words to perform before the strand stops (R352). -/
def Strand.matrixRuns (t : Strand) : Bool :=
  !t.csr.kstep && !t.engHeld.getLsbD 1 && (t.faultedAt 2).isNone && (t.queue 2).any Entry.mustFinish

/-- The splitter steers nothing and no engine starts a word, until the words that remote units hold are complete (R198). -/
def Strand.stopped (t : Strand) : Bool := match t.pend with | some p => p.stop | none => false

/-- The word numbered `seq` of engine `e` raises a trap (R198): it is taken once no remote unit holds a word of the strand, and
its matrix words are performed where KSTEP = 0 (R352). In a drain it is noted (R196). -/
def State.engineTrap (s : State) (a : Word) (e seq : Nat) (t : TrapInfo) : State :=
  match s.st.pend with
  | some p => { s with st := { s.st with pend := some { p with faults := p.faults ++ [(e, t)], words := p.words ++ [(e, seq)] } } }
  | none =>
    let u := { s.st with pend := some ⟨a, t, [(e, t)], [(e, seq)], true⟩ }
    if s.st.csr.trap = false ∧ (u.remoteHolds || u.matrixRuns) = true then { s with st := u }
    else s.takeTrap a s.st.pc false e t

end Sys2Proof.Machine
end

