-- ==== Sys2Proof/Machine/Translate.lean ====
section
/-! DEFINITION. Address translation (R268 to R282): the walk of one or two stages, permissions, the seal check, the
translation caches, the accessed and dirty bits, page requests (R285, R286) and the dirty bitmaps (R293). -/

namespace Sys2Proof.Machine

/-- Classes of access (R273). -/
inductive AccessKind where
  | read | write | bank | vload | vstore | fetch
  /-- The front end's write of an argument slot, which needs R = 1 alone (R452). -/
  | args
  /-- A write, a bank word and a versioned store or floor word, before it is known that it writes. -/
  | check | bankRead | vcheck
  /-- A first-stage table read at the second stage. -/
  | table
  /-- An update of A or D in a first-stage entry, at the second stage. -/
  | update
  deriving DecidableEq, Repr

/-- The class writes. -/
def AccessKind.writes : AccessKind → Bool
  | .write | .bank | .vstore | .update | .args => true
  | _ => false

/-- ACC of a page request record (R286). A versioned store or floor word counts as a write, 1, and not among the read-modify-writes
that R286 names by examples: DEDUCED (log 59). -/
def AccessKind.code : AccessKind → Nat
  | .read | .vload | .table => 0
  | .write | .check | .vstore | .vcheck | .args => 1
  | .fetch => 2
  | .bank | .bankRead | .update => 3

/-- A context entry (R269). -/
structure Ctx where
  slot : Nat
  v : Bool
  fn : Nat
  world : Nat
  root : Nat
  deriving DecidableEq, Repr

/-- The context entry of a slot, read at its home (R269). -/
def State.ctx (s : State) (slot : Nat) : Ctx :=
  let a := s.peekNat .device (s.host.ctxBase + 32 * slot) 8
  let b := s.peekNat .device (s.host.ctxBase + 32 * slot + 8) 8
  ⟨slot, bit a 0, bits a 1 7, bits a 8 6, bits b 16 36⟩

/-- The world of a context is live and bound to the context's function (R500). -/
def State.worldOk (s : State) (c : Ctx) : Bool :=
  c.world == 0 ||
    match s.sealEng.worlds.find? fun w => w.1 == c.world with
    | some (_, w) => w.live && w.fn == c.fn
    | none => false

/-- Why a translation ends without an address. -/
inductive XFail where
  /-- `fail(stage, kind)` of R276. -/
  | fault (kind : Nat)
  /-- A failure at the second stage: the IPA, the level of the first-stage entry concerned (0 for the final access), the
  kind and the class of the second-stage access. -/
  | second (ipa lvl kind acc : Nat)
  /-- The seal check failed (R275). -/
  | sealing
  deriving DecidableEq, Repr

/-- An entry that a walk read: where, at which level and stage, and whether the second stage lets it be written. -/
structure Visited where
  pa : Nat
  ipa : Nat
  entry : Nat
  lvl : Nat
  /-- 2 for a second-stage entry, 1 for a first-stage entry of a two-stage context, 0 otherwise. -/
  stage : Nat
  leaf : Bool
  writable : Bool
  deriving DecidableEq, Repr

/-- A finished walk of one stage: the leaf, the address and the bytes that the leaf maps. -/
structure Walked where
  leaf : Nat
  addr : Nat
  size : Nat
  visited : List Visited
  deriving DecidableEq, Repr

/-- An element format attribute breaks R123. -/
def badFormat (fmta : Nat) : Bool :=
  let fmt := bits fmta 0 4
  let blk := bits fmta 4 2
  let sk := bit fmta 6
  (11 ≤ fmt && fmt ≤ 14) || (blk != 0 && !(fmt == 4 || fmt == 5 || fmt == 6 || fmt == 7 || fmt == 9)) || (sk && blk == 0)

/-- An entry is treated as not present at a level (R272). R272 makes no difference between the stages: the FRAME of a
first-stage entry of two stages, an IPA, is held to the windows of R57 as well. -/
def State.notPresent (s : State) (e lvl : Nat) : Bool :=
  let leaf := bit e 1
  !bit e 0 || (leaf && lvl == 1) || (!leaf && lvl == 3) || (leaf && lvl == 2 && bits e 16 13 != 0) ||
    (leaf && ((bit e 5 && !bit e 4) || bits e 62 2 == 3)) || !s.inWindow (bits e 16 36 * 65536)

/-- A leaf permits an access (R273); `two` says it is a second-stage leaf, whose VER and WRO read as 0 (R274). -/
def permits (e : Nat) (two : Bool) (acc : AccessKind) : Bool :=
  let r := bit e 4
  let w := bit e 5
  let ver := !two && bit e 61
  let wro := !two && bit e 60
  match acc with
  | .read | .table | .args => r && !ver
  | .write | .check | .bank | .bankRead => r && w && !wro && !ver
  | .vload => r && (two || ver)
  | .vstore | .vcheck => r && w && !wro && (two || ver)
  | .fetch => bit e 6
  | .update => r && w

/-- A seal mode agrees with the frame table for the frame that an access reaches, and the frame may be mapped (R275,
R424). -/
def State.sealOk (s : State) (mode pa world : Nat) : Bool :=
  if pa < dramEnd then
    let f := s.frameAt pa
    (f.st == .free || f.st == .owned) && mode == f.sealMode && (mode == 0 || f.world == world)
  else mode == 0

/-- An entry as a walk reads it: a pointer entry may come from the walk cache `ws` (R279, R280), any other from its home. -/
def State.readEntry (s : State) (ws : List WalkCached) (slot ea lvl : Nat) : Nat :=
  match (if lvl < 3 then ws.find? fun w => w.slot == slot && w.ea == ea else none) with
  | some w => w.entry
  | none => s.peekNat .device ea 8

/-- The walk of one stage at physical tables (R276), from a level downward. -/
def State.walkPhys (s : State) (ws : List WalkCached) (slot stage a : Nat) :
    List Nat → Nat → List Visited → Except XFail Walked
  | [], _, _ => .error (.fault 1)
  | lvl :: rest, tbl, vis =>
    let ea := tbl + 8 * bits a (42 - 13 * (lvl - 1)) 13
    let e := s.readEntry ws slot ea lvl
    if s.notPresent e lvl then .error (.fault 1)
    else if bit e 1 then
      let sh := if lvl = 2 then 29 else 16
      .ok ⟨e, bits e 16 36 * 65536 + a % 2 ^ sh, 2 ^ sh, vis ++ [⟨ea, ea, e, lvl, stage, true, true⟩]⟩
    else s.walkPhys ws slot stage a rest (bits e 16 36 * 65536) (vis ++ [⟨ea, ea, e, lvl, stage, false, true⟩])

/-- The second stage for one IPA (R274, R276), up to its permissions: `lvl` and `acc` are what a failure reports (R286). -/
def State.walkSecond (s : State) (ws : List WalkCached) (c : Ctx) (ipa lvl : Nat) (acc : AccessKind) : Except XFail Walked :=
  match s.walkPhys ws c.slot 2 (ipa % 2 ^ 52) [1, 2, 3] ((s.fn c.fn).trans.s2root * 65536) [] with
  | .error _ => .error (.second ipa lvl 1 acc.code)
  | .ok w => if !permits w.leaf true acc then .error (.second ipa lvl 2 acc.code) else .ok w

/-- The first stage of a two-stage walk: every table read goes through the second stage, and its frame's seal is checked
unless `chk` is false (R194). -/
def State.walkFirst (s : State) (ws : List WalkCached) (chk : Bool) (c : Ctx) (a : Nat) :
    List Nat → Nat → List Visited → Except XFail Walked
  | [], _, _ => .error (.fault 1)
  | lvl :: rest, tbl, vis =>
    let ipa := tbl + 8 * bits a (42 - 13 * (lvl - 1)) 13
    match s.walkSecond ws c ipa lvl .table with
    | .error f => .error f
    | .ok w2 =>
      if chk && !s.sealOk (bits w2.leaf 62 2) w2.addr c.world then .error .sealing
      else
        let e := s.readEntry ws c.slot w2.addr lvl
        let here := Visited.mk w2.addr ipa e lvl 1 (bit e 1) (permits w2.leaf true .update)
        let vis := vis ++ w2.visited ++ [here]
        if s.notPresent e lvl then .error (.fault 1)
        else if bit e 1 then
          let sh := if lvl = 2 then 29 else 16
          .ok ⟨e, bits e 16 36 * 65536 + a % 2 ^ sh, 2 ^ sh, vis⟩
        else s.walkFirst ws chk c a rest (bits e 16 36 * 65536) vis

/-- A translation: what R280 lets a cache hold, and the entries it depends on. `agrees` says that the seal check of its
leaves passes (R275). -/
structure Xlat where
  pa : Nat
  ipa : Nat
  two : Bool
  size : Nat
  span : Nat
  leaf1 : Nat
  leaf2 : Nat
  visited : List Visited
  agrees : Bool
  deriving DecidableEq, Repr

/-- A context translates in two stages (R270). -/
def State.twoStage (s : State) (c : Ctx) : Bool := c.fn != 0 && (s.fn c.fn).trans.s2en

/-- `translate` of R276 for a virtual address, with the tables' pointers of a walk cache. An address outside every window,
or in slice memory that is not pinned, is not present (R57). The seal check of the final leaves comes after every other
check (R180, R212, R242): its outcome is left to the access. -/
def State.translate (s : State) (ws : List WalkCached) (c : Ctx) (va : Nat) (acc : AccessKind) : Except XFail Xlat :=
  if 2 ^ 55 ≤ va ∨ c.v = false ∨ 64 < c.fn ∨ s.fnEnabled c.fn = false ∨ s.worldOk c = false then .error (.fault 1)
  else if s.twoStage c then
    match s.walkFirst ws true c va [1, 2, 3] (c.root * 65536) [] with
    | .error f => .error f
    | .ok w1 =>
      if badFormat (bits w1.leaf 53 7) then .error (.fault 3)
      else if !permits w1.leaf false acc then .error (.fault 2)
      else
        match s.walkSecond ws c w1.addr 0 acc with
        | .error f => .error f
        | .ok w2 =>
          if !s.inWindow w2.addr then .error (.fault 1)
          else .ok ⟨w2.addr, w1.addr, true, min w1.size w2.size, w1.size, w1.leaf, w2.leaf, w1.visited ++ w2.visited,
            s.sealOk (bits w2.leaf 62 2) w2.addr c.world && s.sealOk (bits w1.leaf 62 2) w2.addr c.world⟩
  else
    match s.walkPhys ws c.slot 0 va [1, 2, 3] (c.root * 65536) [] with
    | .error f => .error f
    | .ok w =>
      if badFormat (bits w.leaf 53 7) then .error (.fault 3)
      else if !permits w.leaf false acc then .error (.fault 2)
      else if !s.inWindow w.addr then .error (.fault 1)
      else .ok ⟨w.addr, w.addr, false, w.size, w.size, w.leaf, w.leaf, w.visited, s.sealOk (bits w.leaf 62 2) w.addr c.world⟩

/-! ## Page requests (R285 to R287) -/

/-- The record of a page request (R286). -/
def PageReq.record (r : PageReq) (fn : Nat) (t : TransRegs) : List Byte :=
  let pass := t.prqTail.toNat / 2 ^ t.prqLogn % 2
  bytesOfNat 8 ((1 - pass) * 2 ^ 63 + r.eng * 2 ^ 48 + r.ctx * 2 ^ 32 + r.lvl * 2 ^ 28 + r.kind * 2 ^ 26 +
    r.acc * 2 ^ 24 + fn * 2 ^ 16 + r.tag) ++
  bytesOfNat 8 (r.granule * 65536) ++ bytesOfNat 8 r.va ++ bytesOfNat 8 0

/-- Write the oldest unwritten request record of a function, if its queue is enabled and has room; FULL is set while it
has none (R286, R287). -/
def State.writePageReq (s : State) (fn : Nat) : State :=
  let f := s.fn fn
  let t := f.trans
  match t.reqs.find? fun r => !r.written with
  | none => s
  | some r =>
    if !t.prqEn then s
    else if 2 ^ t.prqLogn ≤ (t.prqTail - t.prqHead).toNat then s.setFn fn { f with trans := { t with full := true } }
    else
      let s := s.writeHome (t.prqBase * 4096 + 32 * (t.prqTail.toNat % 2 ^ t.prqLogn)) (r.record fn t)
      let f := s.fn fn
      let s := s.setFn fn { f with trans := { t with
        prqTail := t.prqTail + 1
        reqs := t.reqs.map fun x => if x.tag = r.tag then { x with written := true } else x } }
      if t.prqIe && t.prqTail == t.prqHead then s.raiseMsi 0 t.prqVec else s

/-- The lowest tag that no outstanding request holds; none while all 1,024 are held (R285). -/
def freeTag (reqs : List PageReq) : Option Nat :=
  if 1024 ≤ reqs.length then none
  else (genFrom (reqs.length + 1) 0 id).find? fun t => !(reqs.any fun r => r.tag == t)

/-- A failure at the second stage takes a tag for its granule, unless the granule has a request already or no tag is
free, and its record is written when the queue allows (R285, R286). -/
def State.postPageReq (s : State) (fn eng slot va ipa lvl kind acc : Nat) : State :=
  let f := s.fn fn
  let g := ipa / 65536
  if f.trans.reqs.any fun r => r.granule == g then s
  else
    match freeTag f.trans.reqs with
    | none => s
    | some tag =>
      (s.setFn fn { f with trans := { f.trans with
        reqs := f.trans.reqs ++ [⟨tag, g, eng, slot, lvl, kind, acc, va, false⟩] } }).writePageReq fn

/-! ## A and D (R278) -/

/-- OR a bit into an 8-byte word at its home, if the word holds 0 there: one atomic update of what stands at the home
(R65, R278, R293). -/
def State.setEntryBit (s : State) (pa i : Nat) : State :=
  let e := s.mem.readNat pa 8
  if bit e i then s else s.writeHomeNat pa 8 (e + 2 ^ i)

/-- The first-stage entry whose update the second stage does not permit: the update of A, or of D in the leaf, waits
there (R273, R278). -/
def blockedUpdate (x : Xlat) (writes : Bool) : Option Visited :=
  x.visited.find? fun v => v.stage == 1 && !v.writable && (!bit v.entry 8 || (writes && v.leaf && !bit v.entry 9))

/-- Set A in every entry the translation depends on, and for a write D in the leaves (R278). The second-stage leaf that maps the page
of a first-stage table gets A alone, where the update of an entry there is an access as well: DESIGN CHOICE, R278 sets D in the
leaves of the write itself and does not say whether such an update is a write of that kind (log 58). -/
def State.markUsed (s : State) (x : Xlat) (writes : Bool) : State :=
  let s := x.visited.foldl (fun s v => s.setEntryBit v.pa 8) s
  if writes then
    match x.visited.filter (fun v => v.leaf && v.stage != 2), x.visited.getLast? with
    | l :: _, some last =>
      let s := s.setEntryBit l.pa 9
      if x.two then s.setEntryBit last.pa 9 else s
    | _, _ => s
  else s

/-- A and D for a write that the device performs at a physical address by a translation that it holds, without a word that could
wait (R278, R494): they are set while a walk of the address still ends there. DEDUCED (log 79). -/
def State.noteHeld (s : State) (slot va pa : Nat) : State :=
  match s.translate [] (s.ctx slot) va .args with
  | .ok x => if x.pa = pa ∧ (x.two = false ∨ (blockedUpdate x true).isNone) then s.markUsed x true else s
  | .error _ => s

/-- A write through the second stage sets its granule's bit in the selected dirty bitmap, or OVR (R293). -/
def State.markDirty (s : State) (fn ipa : Nat) : State :=
  let f := s.fn fn
  let t := f.trans
  if !t.dbmEn then s
  else
    let g := ipa / 65536
    if t.dbmLen ≤ g / 64 then s.setFn fn { f with trans := { t with dbmOvr := true } }
    else
      let a := (if t.dbmSel then t.dbmBase1 else t.dbmBase0) * 4096 + 8 * (g / 64)
      s.setEntryBit a (g % 64)

/-! ## Accesses of a strand -/

/-- A translated access: the physical address, the IPA, and the attributes of the page (R274). -/
structure Mapped where
  pa : Nat
  ipa : Nat
  two : Bool
  fn : Nat
  fmta : Nat
  /-- Bytes from the address to the end of the mapped page. -/
  left : Nat
  deriving DecidableEq, Repr

/-- A cached translation serves an address. -/
def Tlb.hits (t : Tlb) (cache slot va : Nat) : Bool :=
  t.cache == cache && t.slot == slot && decide (t.va ≤ va ∧ va < t.va + t.size)

/-- A leaf's R, W and X permit an access through a cached translation (R273, R280); `two` says it is the second-stage
leaf. -/
def Tlb.permits (t : Tlb) (perm : BitVec 3) (two : Bool) (acc : AccessKind) : Bool :=
  let r := perm.getLsbD 0
  let w := perm.getLsbD 1
  let ver := !two && t.ver
  let wro := !two && t.wro
  match acc with
  | .read | .table | .args => r && !ver
  | .write | .check | .bank | .bankRead => r && w && !wro && !ver
  | .vload => r && (two || ver)
  | .vstore | .vcheck => r && w && !wro && (two || ver)
  | .fetch => perm.getLsbD 2
  | .update => r && w

/-- What a cache holds of a translation (R280). -/
def Xlat.cached (x : Xlat) (cache slot va fn world : Nat) (dirty : Bool) : Tlb :=
  let off := va % x.size
  { cache := cache, slot := slot, va := va - off, size := x.size, span := x.span, pa := x.pa - off, ipa := x.ipa - off
    two := x.two, fn := fn, world := world
    perm1 := BitVec.ofNat 3 (bits x.leaf1 4 3), perm2 := BitVec.ofNat 3 (bits x.leaf2 4 3)
    wro := bit x.leaf1 60, ver := bit x.leaf1 61, fmta := bits x.leaf1 53 7, sealMode := bits x.leaf1 62 2
    dirty := dirty || (bit x.leaf1 9 && bit x.leaf2 9) }

/-- The address that a cached translation gives. -/
def Tlb.mapped (t : Tlb) (va : Nat) : Mapped :=
  ⟨t.pa + (va - t.va), t.ipa + (va - t.va), t.two, t.fn, t.fmta, t.size - (va - t.va)⟩

/-- A cached translation belongs to the page of an address in a context (R194). -/
def Tlb.ofPage (t : Tlb) (slot va : Nat) : Bool := t.slot == slot && t.va / t.span == va / t.span

/-- The first `n` entries of a list that meet a condition, and all that do not. -/
def keepOf {α : Type} (p : α → Bool) : Nat → List α → List α
  | _, [] => []
  | n, a :: rest =>
    if p a then (match n with | 0 => keepOf p 0 rest | m + 1 => a :: keepOf p m rest) else a :: keepOf p n rest

/-- Entries of the translation caches of a tile (R279): scalar TLB, then the stream TLBs. -/
def tlbEntries (cache : Nat) : Nat := if cache = 0 then 128 else 32

/-- Entries of the walk cache of a tile (R279). -/
def walkEntries : Nat := 64

/-- A cache takes a translation; where it is full its oldest entry leaves (log 6). -/
def TileCache.putTlb (c : TileCache) (t : Tlb) : TileCache :=
  let rest := c.tlbs.filter fun u => !(u.hits t.cache t.slot t.va)
  { c with tlbs := keepOf (fun u => u.cache == t.cache) (tlbEntries t.cache) (t :: rest) }

/-- The walk cache takes the pointers that a walk read. -/
def TileCache.putWalks (c : TileCache) (slot fn : Nat) (vis : List Visited) : TileCache :=
  let add := fun (ws : List WalkCached) (v : Visited) =>
    if v.leaf || ws.any fun w => w.slot == slot && w.ea == v.pa then ws else ⟨slot, fn, v.pa, v.entry ||| 2 ^ 8⟩ :: ws
  { c with walks := (vis.foldl add c.walks).take walkEntries }

/-- A write through the second stage is noted in the dirty bitmap (R293); a plain store is noted when it is performed. -/
def noteDirty (eng : Nat) (acc : AccessKind) (m : Mapped) : M Unit :=
  if m.two && acc.writes && eng != 0 then modify fun s => s.markDirty m.fn m.ipa else pure ()

/-- An access that has been translated and is still to be made: whose it is, where it leads, whether its seal agrees, and
the walk where no cache held it. -/
structure Located where
  eng : Nat
  slot : Nat
  va : Nat
  acc : AccessKind
  m : Mapped
  agrees : Bool
  walk : Option (Ctx × Xlat)
  deriving DecidableEq, Repr

/-- Wait at the second stage (R285). -/
def parkAccess {α : Type} (fn eng slot va ipa lvl kind a : Nat) : M α := do
  modify fun s => s.postPageReq fn eng slot va ipa lvl kind a
  modSt fun t => { t with pageWaits := t.pageWaits ++ [⟨eng, va, fn, ipa / 65536⟩] }
  waitM 7 0

/-- The walk cache that serves an agent: those of a tile share its own (R279); the front end's walks have none. -/
def State.walksFor (s : State) (eng : Nat) : List WalkCached := if eng ≤ 6 then s.here.walks else []

/-- A cached translation serves an access: what it gives is held to the frame table and the windows for the very frame
(R57, R275, R423), and to FNCTL.EN (R475). -/
def hitAccess (t : Tlb) (eng slot va : Nat) (acc : AccessKind) : M Located := do
  let s ← get
  let m := t.mapped va
  if !s.fnEnabled t.fn then trapPage 1 va
  if !t.permits t.perm1 false acc then trapPage 2 va
  if t.two && !t.permits t.perm2 true acc then parkAccess t.fn eng slot va m.ipa 0 2 acc.code
  if !s.inWindow m.pa then trapPage 1 va
  return ⟨eng, slot, va, acc, m, s.sealOk t.sealMode m.pa t.world, none⟩

/-- Translate an access of the current strand, made by engine `eng` (0 for the scalar core) in context `slot` (R276):
through the engine's cache where it holds the page, otherwise by a walk. A failure at stage 0 or 1 traps; one at the
second stage posts a page request and waits (R285); an answered failure traps (R288). A write to a weight region traps PAGE
with kind 2 (R356). Nothing is marked or cached yet. -/
def locate (eng slot va : Nat) (acc : AccessKind) : M Located := do
  let s ← get
  match s.st.pageAnswers.find? fun a => a.eng == eng && a.va == va with
  | some a =>
    modSt fun t => { t with pageAnswers := t.pageAnswers.filter fun b => b != a }
    trapPage a.kind va
  | none =>
  if s.st.pageWaits.any fun w => w.eng == eng && w.va == va then waitM 7 0
  let l ← match (if eng ≤ 3 then s.here.tlbs.find? fun t => t.hits eng slot va && (t.dirty || !acc.writes) else none) with
    | some t => hitAccess t eng slot va acc
    | none =>
      let c := s.ctx slot
      match s.translate (s.walksFor eng) c va acc with
      | .error (.fault kind) => trapPage kind va
      | .error .sealing => trapM .sealing 0 (BitVec.ofNat 64 va)
      | .error (.second ipa lvl kind a) => parkAccess c.fn eng slot va ipa lvl kind a
      | .ok x => pure ⟨eng, slot, va, acc, (x.cached eng slot va c.fn c.world acc.writes).mapped va, x.agrees, some (c, x)⟩
  if acc.writes && (← get).weightFrame l.m.pa then trapPage 2 va
  return l

/-- The seal check of a located access (R275), which traps with a value. -/
def Located.sealed (l : Located) (tval : Nat) : M Unit := do
  if !l.agrees then trapM .sealing 0 (BitVec.ofNat 64 tval)

/-- The copy stream TLB walks ahead for a page (R266). A walk ahead sets no bit: what it caches is usable only where the accessed
bits stand already (R278). -/
def State.walkAhead (s : State) (va : Nat) : State :=
  let slot := s.st.place.slot
  let c := s.ctx slot
  if s.here.tlbs.any fun t => t.hits 3 slot va then s
  else
    match s.translate s.here.walks c va .read with
    | .ok x =>
      if x.agrees && x.visited.all fun v => bit v.entry 8 then
        s.modHere fun h => h.putTlb (x.cached 3 slot va c.fn c.world false)
      else s
    | .error _ => s

/-- A failed seal check of a table's frame reports a value as well (R180, R212, R242, R275). -/
def sealedAs {α : Type} (tval : Nat) (m : M α) : M α := fun s =>
  match m s with
  | .error (.trap t) s' => .error (.trap (if t.cause = .sealing then { t with tval := BitVec.ofNat 64 tval } else t)) s'
  | r => r

/-- A located write may be made: an update of A or D that the second stage does not permit waits first (R273, R278). Nothing is
marked yet. -/
def Located.ready (l : Located) : M Unit := do
  match l.walk with
  | none => pure ()
  | some (c, x) =>
    match (if x.two then blockedUpdate x l.acc.writes else none) with
    | some v => parkAccess c.fn l.eng l.slot l.va v.ipa v.lvl 2 3
    | none => pure ()

/-- A located access is made: accessed and dirty bits are set (R278), the caches take the translation (R280), and a write
is noted (R293). -/
def Located.use (l : Located) : M Unit := do
  match l.walk with
  | none => pure ()
  | some (c, x) =>
    match (if x.two then blockedUpdate x l.acc.writes else none) with
    | some v => parkAccess c.fn l.eng l.slot l.va v.ipa v.lvl 2 3
    | none =>
      modify fun s => s.markUsed x l.acc.writes
      if l.eng ≤ 3 then
        modify fun s => s.modHere fun h => h.putTlb (x.cached l.eng l.slot l.va c.fn c.world l.acc.writes)
      if l.eng ≤ 6 then modify fun s => s.modHere fun h => h.putWalks l.slot c.fn x.visited
  noteDirty l.eng l.acc l.m

/-- Translate an access, with the seal check at a trap value, and make it. -/
def mapAt (eng slot va tval : Nat) (acc : AccessKind) : M Mapped := do
  let l ← sealedAs tval (locate eng slot va acc)
  l.sealed tval
  l.use
  return l.m

/-- Translate an access and make it; a seal mismatch traps with its address (R180, R275). -/
def mapAccess (eng slot va : Nat) (acc : AccessKind) : M Mapped := mapAt eng slot va va acc

/-- The integrity check of the line at a physical address, for a read that traps with value `tval` (R507, R508): a line whose
stored check does not match is re-read; where it fails again it is poisoned. -/
def checkInteg (pa tval : Nat) : M Unit := do
  let s ← get
  let line := pa / 64
  if pa < dramEnd ∧ (s.frameAt pa).sealMode = 2 then
    if s.pathBad line then
      set (s.mismatched line)
      trapM .integ 0 (BitVec.ofNat 64 tval)
    else if !s.poison.contains line && s.pathFlaky line then set (s.transient line)

/-- A read of a poisoned line traps POISON (R508). -/
def checkPoison (pa tval : Nat) : M Unit := do
  if pa < dramEnd ∧ (← get).poison.contains (pa / 64) = true then trapM .poison 0 (BitVec.ofNat 64 tval)

/-- Integrity and then poison of the line at a physical address. -/
def checkLine (pa tval : Nat) : M Unit := do
  checkInteg pa tval
  checkPoison pa tval

end Sys2Proof.Machine
end

