-- ==== Sys2Proof/Machine/Memory.lean ====
section
/-! DEFINITION. The scalar core's accesses: loads through the L1, unpublished stores and their publication (R62 to R70),
scratchpad (R79, R80, R181) and instruction fetch (R82). -/

namespace Sys2Proof.Machine

/-! ## The L1 of the tile (R56, R62) -/

/-- Lines of the L1: 128 KiB (R2, R56). -/
def l1Lines : Nat := 2048

/-- Words of the instruction cache: 64 KiB (R2, R56). -/
def icacheWords : Nat := 16384

/-- The resident strand of the other bank of the current strand's tile (R53). -/
def State.neighbour (s : State) : Option Strand :=
  s.others.find? fun t => t.residentOn s.st.place.die s.st.place.tile && t.place.bank != s.st.place.bank

/-- The banks for whose strands bytes read at the home for the current strand are valid: its own, and the other one where
its strand reads the same there (R63). -/
def State.sharedBanks (s : State) (pa : Nat) (bs : List Byte) : BitVec 2 :=
  let own := bankMark s.st.place.bank
  match s.neighbour with
  | some u => if s.peekBytes u.who pa bs.length = bs then own ||| bankMark u.place.bank else own
  | none => own

/-- The line that the L1 holds for the current strand. -/
def State.l1Hit (s : State) (line : Nat) : Option (List Byte) :=
  (s.here.l1.find? fun l => l.line == line && l.banks.getLsbD s.st.place.bank).map L1Line.data

/-- A line is read at its home into the L1; where that is full its oldest line leaves (log 6). -/
def State.fillL1 (s : State) (line : Nat) : State :=
  let data := s.peekBytes s.st.who (line * 64) 64
  s.modHere fun c => { c with
    l1 := (⟨line, data, s.sharedBanks (line * 64) data⟩ :: c.l1.filter fun l => l.line != line).take l1Lines }

/-- Read through the L1 of the current strand (R62): a line it holds, or the home, which fills the L1. Host-window lines
are never cached (R60). -/
def readL1 (pa n : Nat) : M (List Byte) := do
  let s ← get
  if hostBase ≤ pa then return s.peekBytes s.st.who pa n
  match s.l1Hit (pa / 64) with
  | some data => return (data.drop (pa % 64)).take n
  | none =>
    set (s.fillL1 (pa / 64))
    return s.peekBytes s.st.who pa n

/-- A vector load's read (R218): from the L1, but for a line in which the strand has an unpublished store, which is read at
its home. What the L1 holds of that line leaves it, so that no later read goes back behind this one (R70). -/
def vectorRead (pa n : Nat) : M (List Byte) := do
  let s ← get
  let line := pa / 64
  if s.st.stores.any fun x => x.scope.isNone && decide (x.pa / 64 ≤ line ∧ line * 64 < x.pa + x.data.length) then
    set (s.trimTile s.st.place.tileKey fun c => c.dropLines (line * 64) 1)
    return s.peekBytes s.st.who pa n
  readL1 pa n

/-! ## Loads and stores -/

/-- Bytes `bs` at `pa` with bytes laid over them that begin at `at'`. -/
def overlay (pa : Nat) (bs : List Byte) (at' : Nat) (data : List Byte) : List Byte :=
  genFrom bs.length 0 fun i =>
    if at' ≤ pa + i ∧ pa + i < at' + data.length then data.getD (pa + i - at') 0 else bs.getD i 0

/-- Bytes with the strand's own stores laid over them, oldest first: those that are unpublished or of the current phase (R69).
A store whose translation has been dropped is known by its virtual address. -/
def Strand.overlayOwn (t : Strand) (slot va pa : Nat) (bs : List Byte) : List Byte :=
  (t.stores.filter fun x => x.scope.isNone || x.current).foldl (fun bs x =>
    if !x.stale then overlay pa bs x.pa x.data
    else if x.slot = slot then overlay va bs x.va x.data else bs) bs

/-- Read `n` bytes, at most a line, as a scalar load does (R179, R180). -/
def scalarRead (va n : Nat) : M (List Byte) := do
  let slot := (← getSt).place.slot
  let l ← locate 0 slot va .read
  l.sealed va
  checkLine l.m.pa va
  l.use
  let bs ← readL1 l.m.pa n
  return (← getSt).overlayOwn slot va l.m.pa bs

/-- A scalar load of `n` bytes (R179, R180). -/
def scalarLoad (va n : Nat) : M Nat := do
  if va % n ≠ 0 then trapM .align 0 (BitVec.ofNat 64 va)
  return natOfBytes (← scalarRead va n)

/-- A scalar store of the `n` low bytes of `x` (R179, R180): it is unpublished until a close (R66). -/
def scalarStore (va n x : Nat) : M Unit := do
  if va % n ≠ 0 then trapM .align 0 (BitVec.ofNat 64 va)
  let slot := (← getSt).place.slot
  let m ← mapAccess 0 slot va .write
  modSt fun t => { t with
    stores := t.stores ++ [{ va := va, slot := slot, fn := m.fn, pa := m.pa, data := bytesOfNat n x, scope := none
                             current := true, stale := false, track := if m.two then some (m.fn, m.ipa) else none }] }

/-! ## Phases (R66, R67, R188) -/

/-- The strands that `.die` names for the current strand when an operation is performed: those resident on its die (R63). -/
def State.dieStrands (s : State) : List (Nat × Nat) :=
  ((s.st :: s.others).filter fun t => t.place.die == s.st.place.die && t.resident).map fun t => (t.place.gang, t.place.member)

/-- Perform a store of the current strand at its home, published at a scope (R66). -/
def State.performStore (s : State) (scope : Nat) (x : PlainStore) : State :=
  let s := match x.track with | some (fn, ipa) => s.markDirty fn ipa | none => s
  if 4 ≤ scope then s.writeHome x.pa x.data
  else
    let p := s.st.place
    let marks := genFrom x.data.length x.pa fun a => Narrow.mk a (s.mem.read a) scope p.gang p.member
      (if scope = 2 then s.dieStrands else []) (if scope = 2 then [p.die] else [])
    let s := (cutLines (x.data.length + 1) x.pa x.data).foldl (fun s c => s.writeLine c.1 c.2) s
    { s with narrow := marks ++ s.narrow }

/-- Publish the bytes of a performed store of strand `p` at a scope as well (R66), for `.die` to the strands `aud` and the
units of the strand's die; once a byte is at `.sys` every agent sees it, and what lies before it in coherence order is seen
by none. `hid` lists the bytes that are so covered. -/
def widen (p : Place) (scope : Nat) (aud : List (Nat × Nat)) (x : PlainStore) : List Nat → List Narrow → List Narrow
  | _, [] => []
  | hid, n :: rest =>
    if hid.contains n.pa then widen p scope aud x hid rest
    else if n.gang = p.gang ∧ n.member = p.member ∧ x.pa ≤ n.pa ∧ n.pa < x.pa + x.data.length ∧ n.scope ≤ scope then
      if 4 ≤ scope then widen p scope aud x (n.pa :: hid) rest
      else if scope = 2 then { n with scope := 2, strands := aud ++ n.strands, dies := p.die :: n.dies } :: widen p scope aud x hid rest
      else { n with scope := scope } :: widen p scope aud x hid rest
    else n :: widen p scope aud x hid rest

/-- Publish one store of the current strand at a scope: perform it, or widen it if it is performed already (R66). -/
def State.publishStore (s : State) (scope : Nat) (x : PlainStore) : State :=
  match x.scope with
  | none => s.performStore scope x
  | some _ => { s with narrow := widen s.st.place scope s.dieStrands x [] s.narrow }

/-- A line that the tile's L1 holds is updated in place by a store (R62); it is valid for the other bank's strand no more
where that is outside the scope. -/
def State.updateL1 (s : State) (scope : Nat) (x : PlainStore) : State :=
  let own := bankMark s.st.place.bank
  let seen := 2 ≤ scope || (scope == 1 && (match s.neighbour with | some u => u.place.gang == s.st.place.gang | none => true))
  s.trimTile s.st.place.tileKey fun c => { c with
    l1 := c.l1.map fun l =>
      if x.pa < l.line * 64 + 64 ∧ l.line * 64 < x.pa + x.data.length then
        { l with data := overlay (l.line * 64) l.data x.pa x.data, banks := if seen then l.banks else l.banks &&& own }
      else l }

/-- A close at a scope publishes a store: one that is not yet published, or not at a wider scope. Stores to the host window
are published at `.sys` alone (R60). -/
def PlainStore.due (scope : Nat) (x : PlainStore) : Bool :=
  match x.scope with
  | none => 4 ≤ scope || x.pa < hostBase
  | some c => c ≤ scope && c < 4

/-- A close at a scope (R66): it publishes the strand's stores in program order. What is published at `.sys` is kept for the
current phase alone (R69). -/
def State.close (s : State) (scope : Nat) : State :=
  let due := s.st.stores.filter (PlainStore.due scope)
  let s1 := due.foldl (fun s x => s.publishStore scope x) s
  let s2 := (due.filter fun x => x.scope.isNone).foldl (fun s x => s.updateL1 scope x) s1
  { s2 with st := { s2.st with
    stores := (s2.st.stores.map fun x => if x.due scope then { x with scope := some (min scope 4) } else x).filter fun x =>
      x.current || x.scope != some 4 } }

/-- Stores whose translation has been dropped translate again before they are performed (R194, R284); a failure is the
closing word's. -/
def refreshStores : M Unit := do
  let old := (← getSt).stores
  modSt fun t => { t with stores := [] }
  let rec go : List PlainStore → List PlainStore → M Unit
    | done, [] => modSt fun t => { t with stores := done }
    | done, x :: rest =>
      if x.stale && x.scope.isNone then fun s =>
        match mapAccess 0 x.slot x.va .write s with
        | .ok m s' => go (done ++ [{ x with pa := m.pa, stale := false, track := if m.two then some (m.fn, m.ipa) else none }])
            rest s'
        | .error e s' => .error e { s' with st := { s'.st with stores := done ++ x :: rest } }
      else go (done ++ [x]) rest
  if old.any fun x => x.stale && x.scope.isNone then go [] old
  else modSt fun t => { t with stores := old }

/-- The close of a word (R66). -/
def closeM (scope : Nat) : M Unit := do
  refreshStores
  modify fun s => s.close scope

/-- An open (R67): the L1 is invalid for the strand's later loads, and a phase begins. What is published at `.sys` need not
be kept. -/
def State.open (s : State) : State :=
  let s := s.trimTile s.st.place.tileKey fun c => c.invalid s.st.place.bank true false
  { s with st := { s.st with stores := (s.st.stores.filter fun x => x.scope != some 4).map fun x => { x with current := false } } }

/-- An engine of the current strand has written bytes: of its stores to them, none is the strand's latest (R69). A store that the
write covers in part loses this for all its bytes: DESIGN CHOICE, R69 speaks of a location and does not give its size (log 61). -/
def Strand.supersede (t : Strand) (pa n : Nat) : Strand :=
  if t.stores.any fun x => x.scope.isSome && x.current && decide (x.pa < pa + n ∧ pa < x.pa + x.data.length) then
    { t with stores := t.stores.map fun x =>
      if x.scope.isSome ∧ x.pa < pa + n ∧ pa < x.pa + x.data.length then { x with current := false } else x }
  else t

/-- A write by an engine of the current strand (R62, R77). -/
def State.engineWrite (s : State) (pa : Nat) (bs : List Byte) : State :=
  let s := s.tileWrite s.st.place.tileKey pa bs
  { s with st := s.st.supersede pa bs.length }

/-! ## Scratchpad (R79 to R81, R181) -/

/-- Bytes of the strand's scratchpad allocation. -/
def Strand.spadSize (t : Strand) : Nat := t.spadUnits * 65536

/-- A started, unperformed engine word locks bytes of the scratchpad (R80; the mapping of offsets to banks is open,
log 9). -/
def Entry.blocks (e : Entry) (off n : Nat) : Bool := e.prog.locks.any fun r => decide (off < r.2 ∧ r.1 < off + n)

/-- A ganged word of a strand locks bytes of a member's scratchpad (R80, R351). -/
def Strand.locksShare (t : Strand) (m off n : Nat) : Bool :=
  (t.queue 2).any fun e => e.prog.shareLocks.any fun l => l.1 == m && decide (off < l.2.2 ∧ l.2.1 < off + n)

/-- The strand of a gang and member that is placed or saved. -/
def State.findStrand (s : State) (gang m : Nat) : Option Strand :=
  if s.st.place.gang = gang ∧ s.st.place.member = m then some s.st
  else s.others.find? fun t => t.place.gang == gang && t.place.member == m

/-- Bytes of a strand's scratchpad are locked by an engine word, its own or its leader's (R80). -/
def State.locked (s : State) (t : Strand) (off n : Nat) : Bool :=
  (t.queues.toList.any fun q => q.any fun e => e.blocks off n) ||
    match s.findStrand t.place.gang 0 with
    | some l => l.locksShare t.place.member off n
    | none => false

/-- Check a scalar scratchpad access (R181). -/
def spadCheck (so n : Nat) : M Unit := do
  if so % n ≠ 0 then trapM .align 0 (BitVec.ofNat 64 so)
  let s ← get
  if s.st.spadSize < so + n then trapPage 2 so
  if s.locked s.st so n then waitM 0 0

/-- Read `n` bytes of the scratchpad. -/
def spadLoad (so n : Nat) : M Nat := do
  spadCheck so n
  return (← getSt).spad.readNat so n

/-- Write `n` bytes of the scratchpad. -/
def spadStore (so n x : Nat) : M Unit := do
  spadCheck so n
  modSt fun t => { t with spad := t.spad.writeNat so n x }

/-! ## Fetch (R82) -/

/-- The word that the instruction cache holds for the current strand. -/
def State.codeHit (s : State) (pa : Nat) : Option (BitVec 32) :=
  (s.here.icache.find? fun w => w.pa == pa && w.banks.getLsbD s.st.place.bank).map CodeWord.word

/-- A word is read into the instruction cache; where that is full its oldest word leaves (log 6). -/
def State.fillCode (s : State) (pa : Nat) : State :=
  let bs := s.peekBytes s.st.who pa 4
  s.modHere fun c => { c with
    icache := (⟨pa, BitVec.ofNat 32 (natOfBytes bs), s.sharedBanks pa bs⟩ :: c.icache.filter fun w => w.pa != pa).take icacheWords }

/-- Fetch the word at a text address through the instruction cache (R82). Which of its old and new value a fetch without
`ifence` returns is open: the cache keeps a word until `ifence`, a clear of the tile, another strand in the bank, or want of
room (DESIGN CHOICE, log 6). A fault of the line reports the line (R195). -/
def fetchWord (va : Nat) : M (BitVec 32) := do
  let l ← locate 0 (← getSt).place.slot va .fetch
  l.sealed va
  let s ← get
  match s.codeHit l.m.pa with
  | some w =>
    l.use
    return w
  | none =>
    checkLine l.m.pa (va / 64 * 64)
    l.use
    let s ← get
    set (s.fillCode l.m.pa)
    return BitVec.ofNat 32 (s.peekNat s.st.who l.m.pa 4)

end Sys2Proof.Machine
end

