-- ==== Sys2Proof/Machine/OperandForms.lean ====
section
/-! DEFINITION. What each word's definition says of its operands: the scalar registers that the splitter captures for it
(R18), its immediate field (R86, R91), the extended operands it takes (R92) and the prefixes that apply to it (R93 to
R95). -/

namespace Sys2Proof

/-- The scalar source registers in the fields X, Y and Z of an engine word; register 0 stands for a field that is no scalar
source (R18: s0 is captured as zero). -/
def Instr.sources : Instr → Reg × Reg × Reg
  | .vLd _ y z _ => (0, y, z)
  | .vSt _ y z _ => (0, y, z)
  | .vLds _ y z _ => (0, y, z)
  | .vSts _ y z _ => (0, y, z)
  | .vLdh _ _ z _ _ => (0, 0, z)
  | .vSth _ _ z _ _ => (0, 0, z)
  | .vBcs _ y _ => (0, y, 0)
  | .vIota _ y _ _ => (0, y, 0)
  | .vPset _ y _ _ => (0, y, 0)
  | .vStop _ _ z _ => (0, 0, z)
  | .mMma _ y z _ => (0, y, z)
  | .mMmaG _ y z _ => (0, y, z)
  | .mLdw x y z _ _ => (x, y, z)
  | .mZero _ y _ => (0, y, 0)
  | .mRdz x _ z _ => (x, 0, z)
  | .mWrz _ y z _ => (0, y, z)
  | .mEpi x _ z _ => (x, 0, z)
  | .mTsub x y _ => (x, y, 0)
  | .mTqry x y _ => (x, y, 0)
  | .mTcan x y _ _ => (x, y, 0)
  | .mRdv x _ _ => (x, 0, 0)
  | .mWid x y _ => (x, y, 0)
  | .cCp x y z _ _ => (x, y, z)
  | .cCpd x y z _ _ => (x, y, z)
  | .cGath x y z _ _ => (x, y, z)
  | .cScat x y z _ _ => (x, y, z)
  | .cFill x y _ _ => (x, y, 0)
  | .cCvt x y z _ _ => (x, y, z)
  | .cBind _ y z _ _ => (0, y, z)
  | .cKvg x y z _ _ => (x, y, z)
  | .cKvs x y z _ _ => (x, y, z)
  | .cGm x y z _ _ => (x, y, z)
  | .cPeer x y z _ => (x, y, z)
  | .cRwin x y z _ _ => (x, y, z)
  | .cPf x y _ _ => (x, y, 0)
  | .cDsc _ y _ _ => (0, y, 0)
  | .cBbinv y _ => (0, y, 0)
  | .bAdd x y z _ _ _ => (x, y, z)
  | .bMin x y z _ _ _ => (x, y, z)
  | .bMax x y z _ _ _ => (x, y, z)
  | .bMinu x y z _ _ _ => (x, y, z)
  | .bMaxu x y z _ _ _ => (x, y, z)
  | .bAnd x y z _ _ _ => (x, y, z)
  | .bOr x y z _ _ _ => (x, y, z)
  | .bXor x y z _ _ _ => (x, y, z)
  | .bSwap x y z _ _ _ => (x, y, z)
  | .bCas x y z _ _ _ => (x, y, z)
  | .bFadd x y z _ => (x, y, z)
  | .bFadb x y z _ => (x, y, z)
  | .bScal x y z _ _ => (x, y, z)
  | .bAxpy x y z _ _ => (x, y, z)
  | .bWait x y z _ _ _ => (x, y, z)
  | .bVst x y z _ => (x, y, z)
  | .bVld x y z _ _ => (x, y, z)
  | .bVldLe x y z _ _ => (x, y, z)
  | .bVretire x y _ => (x, y, 0)
  | .bVnew x y _ => (x, y, 0)
  | .bVfloor x y _ => (x, y, 0)
  | .bVreg x y _ => (x, y, 0)
  | .bVregFree x y _ => (x, y, 0)
  | .bVregRd x y _ => (x, y, 0)
  | .bVregSpill x y _ => (x, y, 0)
  | .aAttn x y z _ _ _ => (x, y, z)
  | .aPart x y z _ _ _ => (x, y, z)
  | .aMerge x y z _ _ => (x, y, z)
  | .aCfg x _ _ => (x, 0, 0)
  | .aBinv y _ => (0, y, 0)
  | .aPref y z _ _ => (0, y, z)
  | .kPool x y _ => (x, y, 0)
  | .kPoolOff y _ => (0, y, 0)
  | .kTbl x y z _ => (x, y, z)
  | .kApp x y z _ _ _ => (x, y, z)
  | .kWr x y z _ _ => (x, y, z)
  | .kFork x y z _ => (x, y, z)
  | .kTrunc x y _ => (x, y, 0)
  | .kRet x _ => (x, 0, 0)
  | .kWinOpen x y z _ => (x, y, z)
  | .kCommit x y z _ _ => (x, y, z)
  | .kAbort x y _ _ => (x, y, 0)
  | .kCkpt x y z _ => (x, y, z)
  | .kLen x y _ => (x, y, 0)
  | .kBbinv y _ => (0, y, 0)
  | .kFalloc x y z _ _ => (x, y, z)
  | .kFfree x y z _ => (x, y, z)
  | .kFscrub x y _ => (x, y, 0)
  | .kFscrubTake x y z _ => (x, y, z)
  | .kFref x y z _ => (x, y, z)
  | .kFqryBlk x y z _ => (x, y, z)
  | .kFqryPool x y _ => (x, y, 0)
  | _ => (0, 0, 0)

/-- The immediate field: its width, whether it is signed, and its bits (R86). -/
def Instr.immField : Instr → Option (Nat × Bool × Nat)
  | .addi _ _ i => some (10, true, i.toNat)
  | .andi _ _ i => some (10, true, i.toNat)
  | .ori _ _ i => some (10, true, i.toNat)
  | .xori _ _ i => some (10, true, i.toNat)
  | .slli _ _ i => some (10, false, i.toNat)
  | .srli _ _ i => some (10, false, i.toNat)
  | .srai _ _ i => some (10, false, i.toNat)
  | .li _ i => some (16, true, i.toNat)
  | .lui _ i => some (16, true, i.toNat)
  | .auipc _ i => some (16, true, i.toNat)
  | .ldB _ _ i => some (10, true, i.toNat)
  | .ldH _ _ i => some (10, true, i.toNat)
  | .ldW _ _ i => some (10, true, i.toNat)
  | .ldD _ _ i => some (10, true, i.toNat)
  | .ldBu _ _ i => some (10, true, i.toNat)
  | .ldHu _ _ i => some (10, true, i.toNat)
  | .ldWu _ _ i => some (10, true, i.toNat)
  | .stB _ _ i => some (10, true, i.toNat)
  | .stH _ _ i => some (10, true, i.toNat)
  | .stW _ _ i => some (10, true, i.toNat)
  | .stD _ _ i => some (10, true, i.toNat)
  | .ldsW _ _ i => some (10, true, i.toNat)
  | .ldsD _ _ i => some (10, true, i.toNat)
  | .stsW _ _ i => some (10, true, i.toNat)
  | .stsD _ _ i => some (10, true, i.toNat)
  | .beq _ _ o => some (10, true, o.toNat)
  | .bne _ _ o => some (10, true, o.toNat)
  | .blt _ _ o => some (10, true, o.toNat)
  | .bge _ _ o => some (10, true, o.toNat)
  | .bltu _ _ o => some (10, true, o.toNat)
  | .bgeu _ _ o => some (10, true, o.toNat)
  | .calli _ _ i => some (10, false, i.toNat)
  | .brk i => some (10, false, i.toNat)
  | .vIota _ _ i _ => some (9, true, i.toNat)
  | .vPset _ _ i _ => some (9, true, i.toNat)
  | .vRotr _ _ i _ => some (9, true, i.toNat)
  | .vRotc _ _ i _ => some (9, true, i.toNat)
  | .vBcr _ _ i _ => some (9, false, i.toNat)
  | .vBcc _ _ i _ => some (9, false, i.toNat)
  | .mSwap i _ => some (9, false, i.toNat)
  | .mCkpt _ _ s t _ => some (9, false, s.toNat * 16 + t.toNat)
  | .mRest _ _ s t _ => some (9, false, s.toNat * 16 + t.toNat)
  | .cFill _ _ i _ => some (9, false, i.toNat)
  | .aCfg _ i _ => some (9, false, i.toNat)
  | _ => none

/-- How many extended operands the word takes, and whether they are required (R92). -/
def Instr.extOperands : Instr → Nat × Bool
  | .mLdw _ _ _ m _ => if m.getLsbD 1 then (1, true) else (0, false)
  | .vLds _ _ _ _ => (1, false)
  | .vSts _ _ _ _ => (1, false)
  | .vLdh _ _ _ _ _ => (1, false)
  | .vSth _ _ _ _ _ => (1, false)
  | .mMmaG _ _ _ _ => (3, true)
  | .mEpi _ _ _ _ => (3, false)
  | .cCp _ _ _ _ _ => (1, false)
  | .cCpd _ _ _ _ _ => (2, true)
  | .cGath _ _ _ _ _ => (2, true)
  | .cScat _ _ _ _ _ => (2, true)
  | .cFill _ _ _ _ => (1, false)
  | .cCvt _ _ _ _ _ => (2, false)
  | .cBind _ _ _ _ _ => (1, false)
  | .cKvg _ _ _ _ _ => (2, true)
  | .cKvs _ _ _ _ _ => (2, true)
  | .cGm _ _ _ _ _ => (2, true)
  | .cPeer _ _ _ _ => (2, true)
  | .cRwin _ _ _ _ _ => (1, false)
  | .bAdd _ _ _ _ _ _ => (1, false)
  | .bMin _ _ _ _ _ _ => (1, false)
  | .bMax _ _ _ _ _ _ => (1, false)
  | .bMinu _ _ _ _ _ _ => (1, false)
  | .bMaxu _ _ _ _ _ _ => (1, false)
  | .bAnd _ _ _ _ _ _ => (1, false)
  | .bOr _ _ _ _ _ _ => (1, false)
  | .bXor _ _ _ _ _ _ => (1, false)
  | .bSwap _ _ _ _ _ _ => (1, false)
  | .bCas _ _ _ _ _ _ => (2, false)
  | .bFadd _ _ _ _ => (1, false)
  | .bFadb _ _ _ _ => (1, false)
  | .bScal _ _ _ _ _ => (1, false)
  | .bAxpy _ _ _ _ _ => (2, true)
  | .bWait _ _ _ _ _ _ => (1, false)
  | .bVst _ _ _ _ => (2, false)
  | .bVld _ _ _ _ _ => (2, false)
  | .bVldLe _ _ _ _ _ => (2, false)
  | .aAttn _ _ _ _ _ _ => (3, true)
  | .aPart _ _ _ _ _ _ => (3, true)
  | .aMerge _ _ _ _ _ => (1, true)
  | .kWr _ _ _ _ _ => (2, true)
  | .kWinOpen _ _ _ _ => (1, true)
  | .kFref _ _ _ _ => (1, true)
  | _ => (0, false)

/-- The word has a selectable rounding step (R93). -/
def Instr.takesRnd : Instr → Bool
  | .vSt _ _ _ _ | .vSts _ _ _ _ | .vSth _ _ _ _ _ | .vAdd _ _ _ _ | .vSub _ _ _ _ | .vMul _ _ _ _
  | .vFma _ _ _ _ _ | .vCvtf _ _ _ _ | .vCvti _ _ _ _ | .vCvtq _ _ _ _ | .mMmaG _ _ _ _ | .mEpi _ _ _ _
  | .cCvt _ _ _ _ _ => true
  | _ => false

/-- The word takes a predicate (R94). -/
def Instr.takesPm : Instr → Bool
  | .vLd _ _ _ _ | .vSt _ _ _ _ | .vLds _ _ _ _ | .vSts _ _ _ _ | .vLdh _ _ _ _ _ | .vSth _ _ _ _ _
  | .vMov _ _ _ | .vBcs _ _ _ | .vIota _ _ _ _ | .vAdd _ _ _ _ | .vSub _ _ _ _ | .vMul _ _ _ _
  | .vFma _ _ _ _ _ | .vMin _ _ _ _ | .vMax _ _ _ _ | .vAbs _ _ _ | .vNeg _ _ _ | .vIadd _ _ _ _
  | .vIsub _ _ _ _ | .vImul _ _ _ _ _ | .vImulw _ _ _ _ _ | .vAnd _ _ _ _ | .vOr _ _ _ _ | .vXor _ _ _ _
  | .vNot _ _ _ | .vShl _ _ _ _ | .vShr _ _ _ _ | .vSha _ _ _ _ | .vImin _ _ _ _ _ | .vImax _ _ _ _ _
  | .vCmp _ _ _ _ _ | .vIcmp _ _ _ _ _ | .vSel _ _ _ _ _ | .vRotr _ _ _ _ | .vRotc _ _ _ _ | .vBcr _ _ _ _
  | .vBcc _ _ _ _ | .vRedr _ _ _ _ | .vRedc _ _ _ _ | .vCvtf _ _ _ _ | .vCvti _ _ _ _ | .vCvtq _ _ _ _
  | .vExp2 _ _ _ | .vLog2 _ _ _ | .vRcp _ _ _ | .vRsq _ _ _ | .vTanh _ _ _ | .vSigm _ _ _
  | .vRng _ _ _ | .vStop _ _ _ _ => true
  | _ => false

/-- Bank words 0x01 to 0x0F, which take `x.ord` (R95). -/
def Instr.takesOrd : Instr → Bool
  | .bAdd _ _ _ _ _ _ | .bMin _ _ _ _ _ _ | .bMax _ _ _ _ _ _ | .bMinu _ _ _ _ _ _ | .bMaxu _ _ _ _ _ _ | .bAnd _ _ _ _ _ _
  | .bOr _ _ _ _ _ _ | .bXor _ _ _ _ _ _ | .bSwap _ _ _ _ _ _ | .bCas _ _ _ _ _ _ | .bFadd _ _ _ _ | .bFadb _ _ _ _
  | .bScal _ _ _ _ _ | .bAxpy _ _ _ _ _ | .bWait _ _ _ _ _ _ => true
  | _ => false

/-- The vector register that the word writes (R207). -/
def Instr.writesV : Instr → Option Reg
  | .vLd x _ _ _ => some x
  | .vLds x _ _ _ => some x
  | .vLdh x _ _ _ _ => some x
  | .vMov x _ _ => some x
  | .vBcs x _ _ => some x
  | .vIota x _ _ _ => some x
  | .vAdd x _ _ _ => some x
  | .vSub x _ _ _ => some x
  | .vMul x _ _ _ => some x
  | .vFma x _ _ _ _ => some x
  | .vMin x _ _ _ => some x
  | .vMax x _ _ _ => some x
  | .vAbs x _ _ => some x
  | .vNeg x _ _ => some x
  | .vIadd x _ _ _ => some x
  | .vIsub x _ _ _ => some x
  | .vImul x _ _ _ _ => some x
  | .vImulw x _ _ _ _ => some x
  | .vAnd x _ _ _ => some x
  | .vOr x _ _ _ => some x
  | .vXor x _ _ _ => some x
  | .vNot x _ _ => some x
  | .vShl x _ _ _ => some x
  | .vShr x _ _ _ => some x
  | .vSha x _ _ _ => some x
  | .vImin x _ _ _ _ => some x
  | .vImax x _ _ _ _ => some x
  | .vSel x _ _ _ _ => some x
  | .vRotr x _ _ _ => some x
  | .vRotc x _ _ _ => some x
  | .vBcr x _ _ _ => some x
  | .vBcc x _ _ _ => some x
  | .vRedr x _ _ _ => some x
  | .vRedc x _ _ _ => some x
  | .vCvtf x _ _ _ => some x
  | .vCvti x _ _ _ => some x
  | .vCvtq x _ _ _ => some x
  | .vExp2 x _ _ => some x
  | .vLog2 x _ _ => some x
  | .vRcp x _ _ => some x
  | .vRsq x _ _ => some x
  | .vTanh x _ _ => some x
  | .vSigm x _ _ => some x
  | .vRng x _ _ => some x
  | _ => none

/-- The engine that performs the word: bits [31:29] (R13). -/
def Instr.engine : Instr → Nat
  | .vLd _ _ _ _ | .vSt _ _ _ _ | .vLds _ _ _ _ | .vSts _ _ _ _ | .vLdh _ _ _ _ _ | .vSth _ _ _ _ _
  | .vMov _ _ _ | .vBcs _ _ _ | .vIota _ _ _ _ | .vPset _ _ _ _ | .vAdd _ _ _ _ | .vSub _ _ _ _
  | .vMul _ _ _ _ | .vFma _ _ _ _ _ | .vMin _ _ _ _ | .vMax _ _ _ _ | .vAbs _ _ _ | .vNeg _ _ _
  | .vIadd _ _ _ _ | .vIsub _ _ _ _ | .vImul _ _ _ _ _ | .vImulw _ _ _ _ _ | .vAnd _ _ _ _ | .vOr _ _ _ _
  | .vXor _ _ _ _ | .vNot _ _ _ | .vShl _ _ _ _ | .vShr _ _ _ _ | .vSha _ _ _ _ | .vImin _ _ _ _ _
  | .vImax _ _ _ _ _ | .vCmp _ _ _ _ _ | .vIcmp _ _ _ _ _ | .vSel _ _ _ _ _ | .vPand _ _ _ _ | .vPor _ _ _ _
  | .vPxor _ _ _ _ | .vPnot _ _ _ | .vRotr _ _ _ _ | .vRotc _ _ _ _ | .vBcr _ _ _ _ | .vBcc _ _ _ _
  | .vRedr _ _ _ _ | .vRedc _ _ _ _ | .vCvtf _ _ _ _ | .vCvti _ _ _ _ | .vCvtq _ _ _ _ | .vExp2 _ _ _
  | .vLog2 _ _ _ | .vRcp _ _ _ | .vRsq _ _ _ | .vTanh _ _ _ | .vSigm _ _ _ | .vRng _ _ _
  | .vStop _ _ _ _ | .vLoop _ _ _ => 1
  | .mMma _ _ _ _ | .mMmaG _ _ _ _ | .mLdw _ _ _ _ _ | .mSwap _ _ | .mZero _ _ _ | .mRdz _ _ _ _
  | .mWrz _ _ _ _ | .mCkpt _ _ _ _ _ | .mRest _ _ _ _ _ | .mEpi _ _ _ _ | .mLoop _ _ _ | .mTsub _ _ _
  | .mTqry _ _ _ | .mTcan _ _ _ _ | .mRdv _ _ _ | .mWid _ _ _ => 2
  | .cCp _ _ _ _ _ | .cCpd _ _ _ _ _ | .cGath _ _ _ _ _ | .cScat _ _ _ _ _ | .cFill _ _ _ _ | .cCvt _ _ _ _ _
  | .cBind _ _ _ _ _ | .cKvg _ _ _ _ _ | .cKvs _ _ _ _ _ | .cGm _ _ _ _ _ | .cPeer _ _ _ _ | .cRwin _ _ _ _ _
  | .cPf _ _ _ _ | .cLoop _ _ _ | .cUnbind _ _ | .cDsc _ _ _ _ | .cBbinv _ _ => 3
  | .bAdd _ _ _ _ _ _ | .bMin _ _ _ _ _ _ | .bMax _ _ _ _ _ _ | .bMinu _ _ _ _ _ _ | .bMaxu _ _ _ _ _ _ | .bAnd _ _ _ _ _ _
  | .bOr _ _ _ _ _ _ | .bXor _ _ _ _ _ _ | .bSwap _ _ _ _ _ _ | .bCas _ _ _ _ _ _ | .bFadd _ _ _ _ | .bFadb _ _ _ _
  | .bScal _ _ _ _ _ | .bAxpy _ _ _ _ _ | .bWait _ _ _ _ _ _ | .bVst _ _ _ _ | .bVld _ _ _ _ _ | .bVldLe _ _ _ _ _
  | .bVretire _ _ _ | .bVnew _ _ _ | .bVfloor _ _ _ | .bVreg _ _ _ | .bVregFree _ _ _ | .bVregRd _ _ _
  | .bVregSpill _ _ _ => 4
  | .aAttn _ _ _ _ _ _ | .aPart _ _ _ _ _ _ | .aMerge _ _ _ _ _ | .aCfg _ _ _ | .aBinv _ _ | .aPref _ _ _ _ => 5
  | .kPool _ _ _ | .kPoolOff _ _ | .kTbl _ _ _ _ | .kApp _ _ _ _ _ _ | .kWr _ _ _ _ _ | .kFork _ _ _ _
  | .kTrunc _ _ _ | .kRet _ _ | .kWinOpen _ _ _ _ | .kCommit _ _ _ _ _ | .kAbort _ _ _ _ | .kCkpt _ _ _ _
  | .kLen _ _ _ | .kBbinv _ _ | .kFalloc _ _ _ _ _ | .kFfree _ _ _ _ | .kFscrub _ _ _ | .kFscrubTake _ _ _ _
  | .kFref _ _ _ _ | .kFqryBlk _ _ _ _ | .kFqryPool _ _ _ => 6
  | .xImm _ | .xCap _ _ _ | .xRnd _ | .xPm _ _ _ | .xOrd _ _ | .xHint _ => 7
  | _ => 0

end Sys2Proof
end

