-- ==== Sys2Proof/Machine/Operands.lean ====
section
/-! DEFINITION. A unit's checks (R87 to R102), its operands, and the steering of a word by the splitter (R15 to R22). -/

namespace Sys2Proof.Machine

/-! ## Prefixes (R90 to R96) -/

/-- Add one decoded prefix; none for a second prefix of one kind, or for a word that is no legal prefix. -/
def Prefixes.add (p : Prefixes) (w : BitVec 32) : Option Prefixes :=
  match decodeWord w with
  | some (.xImm h) => if p.imm.isNone then some { p with imm := some h } else none
  | some (.xCap a b c) => if p.cap.isNone then some { p with cap := some (a, b, c) } else none
  | some (.xRnd m) => if p.rnd.isNone then some { p with rnd := some m } else none
  | some (.xPm z n r) => if p.pm.isNone then some { p with pm := some (z, n, r) } else none
  | some (.xOrd o sc) => if p.ord.isNone then some { p with ord := some (o, sc) } else none
  | some (.xHint h) => if p.hint.isNone then some { p with hint := some h } else none
  | _ => none

/-- The prefixes of a unit, in text order; none for a combination that R90 refuses. -/
def Prefixes.ofWords : List (BitVec 32) → Prefixes → Option Prefixes
  | [], p => some p
  | w :: rest, p => match p.add w with | some q => Prefixes.ofWords rest q | none => none

/-- The fields of `x.cap` beyond the word's extended operands are zero (R92). -/
def capFits (c : Reg × Reg × Reg) (n : Nat) : Bool := (1 < n || c.2.1 == 0) && (2 < n || c.2.2 == 0)

/-- The prefixes apply to the word (R91 to R96), and none that it requires is missing. -/
def prefixesFit (i : Instr) (p : Prefixes) : Bool :=
  (p.imm.isNone || i.immField.isSome) &&
  (match p.cap with
    | some c => 0 < i.extOperands.1 && capFits c i.extOperands.1
    | none => !i.extOperands.2) &&
  (p.rnd.isNone || i.takesRnd) &&
  (p.pm.isNone || i.takesPm) &&
  (p.ord.isNone || i.takesOrd)

/-- The immediate of a unit: its field, widened by `x.imm` (R91). -/
def immValue (i : Instr) (p : Prefixes) : Int :=
  match i.immField with
  | none => 0
  | some (w, signed, f) =>
    match p.imm with
    | some h => if signed then sextNat (h.toNat * 2 ^ w + f) (22 + w) else ((h.toNat * 2 ^ w + f : Nat) : Int)
    | none => if signed then sextNat f w else (f : Int)

/-- Limits that a word's definition places on a widened immediate (R87, R91). -/
def wideFits (i : Instr) (p : Prefixes) : Bool :=
  let v := immValue i p
  match i with
  | .slli .. | .srli .. | .srai .. | .vBcr .. => v < 64
  | .vBcc .. => v < 16
  | .mSwap .. | .aCfg .. => v < 3
  | .mCkpt .. | .mRest .. => v < 256
  | .cFill .. => v < 512
  -- the code of R185, 0 to 1,023
  | .brk .. => v < 1024
  | _ => true

/-! ## Features and privilege (R101, R103, R174) -/

end Sys2Proof.Machine

namespace Sys2Proof

/-- The feature of a word (R103). -/
def Instr.feature : Instr → Nat
  | .mMmaG .. => 2
  | .mTsub .. | .mTqry .. | .mTcan .. => 3
  | .bVst .. | .bVld .. | .bVldLe .. | .bVretire .. | .bVnew .. | .bVfloor .. | .bVreg .. | .bVregFree ..
  | .bVregRd .. | .bVregSpill .. => 5
  | .cKvg .. | .cKvs .. | .cBbinv .. => 7
  | .kWinOpen .. | .kCommit .. | .kAbort .. | .kCkpt .. => 8
  | .kFalloc .. | .kFfree .. | .kFscrub .. | .kFscrubTake .. | .kFref .. | .kFqryBlk .. | .kFqryPool .. => 9
  | .cPeer .. => 10
  | .cRwin .. => 11
  | .vRng .. => 13
  | .tlbiVa .. | .tlbiCtx .. | .tlbiAll | .xlat .. => 14
  | .slKeyNew .. | .slKeyKill .. | .slMeas .. | .slMeasRd .. | .slRep .. => 15
  | i => match i.engine with | 2 => 1 | 4 => 4 | 5 => 6 | 6 => 7 | _ => 0

/-- A privileged word (R101). -/
def Instr.privileged : Instr → Bool
  | .tlbiVa .. | .tlbiCtx .. | .tlbiAll | .xlat .. | .slKeyNew .. | .slKeyKill .. | .slMeas .. | .slMeasRd ..
  | .slRep .. | .kPool .. | .kPoolOff .. | .kFscrub .. | .kFscrubTake .. => true
  | _ => false

/-- Words reserved to strands of the physical function (R174). -/
def Instr.physicalOnly : Instr → Bool
  | .kPool .. | .kPoolOff .. | .kFscrub .. | .kFscrubTake .. => true
  | _ => false

end Sys2Proof

namespace Sys2Proof.Machine

/-- The features that a unit needs are not masked (R103, R105). -/
def featuresOk (i : Instr) (p : Prefixes) (feat : BitVec 16) : Bool :=
  feat.getLsbD i.feature && (p.rnd != some 4 || feat.getLsbD 12) && (p.ord.isNone || feat.getLsbD 4)

/-- A loop word stands among the body words of its engine's nest (R234). -/
def nestedLoop (i : Instr) (t : Strand) : Bool :=
  match i with
  | .vLoop .. => vget t.loopLeft 0 0 != 0
  | .mLoop .. => vget t.loopLeft 1 0 != 0
  | .cLoop .. => vget t.loopLeft 2 0 != 0
  | _ => false

/-- The checks on a unit that has been fetched, in the order of R102 from step 2: the trap, or the unit's prefixes. -/
def unitCheck (i : Instr) (t : Strand) (feat : BitVec 16) : Except TrapInfo Prefixes :=
  let undef : TrapInfo := ⟨.undef, 0, (encode i).setWidth 64⟩
  match Prefixes.ofWords t.pfx noPrefixes with
  | none => .error undef
  | some p =>
    if !prefixesFit i p || !i.wellFormed || !featuresOk i p feat || !wideFits i p || nestedLoop i t then .error undef
    else if i.privileged && !(t.csr.privl && !(i.physicalOnly && t.place.fn != 0)) then
      .error ⟨.priv, 0, (encode i).setWidth 64⟩
    else .ok p

/-! ## Steering (R15, R18, R21, R22) -/

/-- Address of the word of the unit, after its prefixes. -/
def Strand.wordAddr (t : Strand) : Word := t.pc + BitVec.ofNat 64 (4 * t.pfx.length)

/-- Address of the next unit. -/
def Strand.nextAddr (t : Strand) : Word := t.pc + BitVec.ofNat 64 (4 * t.pfx.length + 4)

/-- Body entries of an open nest leave the queue when they are performed for the last time; the loop word itself is
performed once it has opened its nest (R233). The entry counts as unperformed for slip. -/
def Entry.unperformed (e : Entry) : Bool := !e.isJoin && !(e.isLoop && e.prog.started)

/-- The steering numbers of the strand's unperformed engine words. -/
def Strand.pending (t : Strand) : List Nat :=
  t.queues.toList.flatMap fun q => (q.filter Entry.unperformed).map Entry.seq

/-- The slip (R21): units steered since the oldest unperformed engine word, that word counted. -/
def Strand.slip (t : Strand) : Nat :=
  match t.pending with
  | [] => 0
  | q :: rest => t.steered - rest.foldl min q

/-- Queue depths (R13). -/
def queueDepth : Nat → Nat
  | 3 => 64 | 5 => 16 | 6 => 16 | _ => 32

/-- The unit is steered: fetch goes on at `next`. -/
def Strand.advance (t : Strand) (next : Word) : Strand :=
  { t with pc := next, pfx := [], steered := t.steered + 1, waiting := none, stalled := false }

/-- The outcome of a word that the splitter finds the strand not free to take: it stalls (R21, R22). -/
def State.stall (s : State) : State := { s with st := { s.st with stalled := true } }

/-- Steer one unit that has been fetched whole: check it (R102), hold it back while the slip is at its limit (R21), and
run `body` with the unit's prefixes. -/
def steer (i : Instr) (s : State) (body : Prefixes → State → State) : Host.Outcome State Fault Refusal :=
  if s.st.life = .gone then .fault .noStrand
  else
    match unitCheck i s.st (s.features s.st.place.fn) with
    | .error t => .next (s.raise s.st.pc t)
    | .ok p =>
      if s.st.csr.slipLimit ≤ s.st.slip then .next s.stall
      else .next (body p s)

/-- A scalar word whose effect is a change of the strand alone and that neither waits nor traps. -/
def scalarPure (i : Instr) (s : State) (f : Prefixes → Strand → Strand) : Host.Outcome State Fault Refusal :=
  steer i s fun p s => { s with st := (f p s.st).advance s.st.nextAddr }

/-- A scalar word that sends fetch to an address. -/
def scalarJump (i : Instr) (s : State) (f : Prefixes → Strand → Strand × Word) : Host.Outcome State Fault Refusal :=
  steer i s fun p s => let r := f p s.st; { s with st := r.1.advance r.2 }

/-- The current unit waits with a wait kind of R465; a wait on a page request parks the strand (R290). -/
def State.holdUnit (s : State) (kind index : Nat) : State :=
  { s with st := { s.st with waiting := some (kind, index), life := if kind = 7 then .parked else s.st.life } }

/-- A scalar word that may wait or trap: a wait leaves the unit to be executed again, a trap goes through the drain
(R196). The value is the address where fetch goes on, if not the next unit. -/
def scalarM (i : Instr) (s : State) (f : Prefixes → M (Option Word)) : Host.Outcome State Fault Refusal :=
  steer i s fun p s =>
    match f p s with
    | .ok next s' => { s' with st := s'.st.advance (next.getD s.st.nextAddr) }
    | .error (.wait k i) s' => s'.holdUnit k i
    | .error (.trap t) s' => s'.raise s.st.pc t

/-- The captured extended operands (R92); one that is absent is captured as zero. -/
def extValue (t : Strand) (p : Prefixes) (k : Nat) : Word :=
  match p.cap with
  | none => 0
  | some (a, b, c) => match k with | 0 => t.reg a | 1 => t.reg b | _ => t.reg c

/-- What a word takes at steering beside its operands: the time-out of a versioned load (R314). -/
def startProgress (i : Instr) (t : Strand) : Progress :=
  match i with
  | .bVld .. | .bVldLe .. => { Progress.fresh with vals := [t.csr.vtimeout.toNat] }
  | _ => Progress.fresh

/-- The queue entry of an engine word (R18). -/
def mkEntry (i : Instr) (p : Prefixes) (t : Strand) : Entry :=
  let src := i.sources
  { seq := t.steered, addr := t.pc, word := i, pfx := p
    opX := t.reg src.1, opY := t.reg src.2.1, opZ := t.reg src.2.2
    extA := extValue t p 0, extB := extValue t p 1, extC := extValue t p 2
    world := t.place.world, prog := startProgress i t }

/-- Body units still to come after a word of a loop engine is steered (R27). -/
def Strand.countBody (t : Strand) (i : Instr) (e : Nat) : Strand :=
  if 3 < e then t
  else
    let left := vget t.loopLeft (e - 1) 0
    match i with
    | .vLoop _ l _ | .mLoop _ l _ | .cLoop _ l _ => { t with loopLeft := vput t.loopLeft (e - 1) (l.toNat + 1) }
    | _ => { t with loopLeft := vput t.loopLeft (e - 1) (left - 1) }

/-- Place an engine word in its queue (R15, R18). -/
def Strand.enqueue (t : Strand) (i : Instr) (p : Prefixes) : Strand :=
  let e := i.engine
  ((t.setQueue e (t.queue e ++ [mkEntry i p t])).countBody i e).advance t.nextAddr

end Sys2Proof.Machine
end

