-- ==== Sys2Proof/Machine/Control.lean ====
section
/-! DEFINITION. Control transfer, `end`, `brk`, `tret` and the prefix words (R90, R182 to R185, R202). -/

namespace Sys2Proof.Machine

/-- A conditional branch (R182): to the word's address plus 4 × O10 when the condition holds. -/
def branchWord (i : Instr) (a b : Reg) (s : State) (c : Word → Word → Bool) : Host.Outcome State Fault Refusal :=
  scalarJump i s fun p t =>
    (t, if c (t.reg a) (t.reg b) then t.wordAddr + wordOfInt (4 * immValue i p) else t.nextAddr)

/-- `beq` (R182). -/
def execBeq (a b : Reg) (o : BitVec 10) (s : State) := branchWord (.beq a b o) a b s (· == ·)
/-- `bne` (R182). -/
def execBne (a b : Reg) (o : BitVec 10) (s : State) := branchWord (.bne a b o) a b s (· != ·)
/-- `blt` (R182). -/
def execBlt (a b : Reg) (o : BitVec 10) (s : State) :=
  branchWord (.blt a b o) a b s fun x y => decide (x.toInt < y.toInt)
/-- `bge` (R182). -/
def execBge (a b : Reg) (o : BitVec 10) (s : State) :=
  branchWord (.bge a b o) a b s fun x y => decide (y.toInt ≤ x.toInt)
/-- `bltu` (R182). -/
def execBltu (a b : Reg) (o : BitVec 10) (s : State) :=
  branchWord (.bltu a b o) a b s fun x y => decide (x.toNat < y.toNat)
/-- `bgeu` (R182). -/
def execBgeu (a b : Reg) (o : BitVec 10) (s : State) :=
  branchWord (.bgeu a b o) a b s fun x y => decide (y.toNat ≤ x.toNat)

/-- Target of an SJ word: its address plus 4 × O22 (R183). -/
def jumpTarget (t : Strand) (o : BitVec 22) : Word := t.wordAddr + wordOfInt (4 * sextNat o.toNat 22)

/-- `j` (R183). -/
def execJ (o : BitVec 22) (s : State) := scalarJump (.j o) s fun _ t => (t, jumpTarget t o)
/-- `call` (R183): s1 takes the word's address plus 4. -/
def execCall (o : BitVec 22) (s : State) :=
  scalarJump (.call o) s fun _ t => (t.setReg 1 (t.wordAddr + 4), jumpTarget t o)

/-- A register jump (R183): a target that is no multiple of 4 traps ALIGN at the jumping word. -/
def jumpReg (i : Instr) (link : Option Reg) (a : Reg) (s : State) : Host.Outcome State Fault Refusal :=
  scalarM i s fun _ => do
    let t ← getSt
    let target := t.reg a
    if target.toNat % 4 ≠ 0 then trapM .align 0 target
    match link with
    | some d => modSt fun t => t.setReg d (t.wordAddr + 4)
    | none => pure ()
    return some target

/-- `jr` (R183). -/
def execJr (a : Reg) (s : State) := jumpReg (.jr a) none a s
/-- `calli` (R183): the class index in I10 is not read (R160). -/
def execCalli (d a : Reg) (i : BitVec 10) (s : State) := jumpReg (.calli d a i) (some d) a s

/-- The extended word of the unit at a text address: at most four prefixes stand before it (R90). -/
def extendedWordAt : Nat → Word → M (BitVec 32)
  | 0, a => fetchWord a.toNat
  | n + 1, a => do
    let w ← fetchWord a.toNat
    if bitsAt w 29 3 = 7 then extendedWordAt n (a + 4) else return w

/-- `end` (R184): fetch stops, and the strand retires when its engine words are performed. In a handler it kills the
strand instead, with the cause R184 gives; where the emulated unit can no longer be fetched, because its fetch traps, the
value reported is free (log 10). A second-stage miss of that fetch parks the strand (R290). -/
def execEndStrand (s : State) : Host.Outcome State Fault Refusal :=
  steer .endStrand s fun _ s =>
    let c := s.st.csr
    if c.trap then
      s.killGang ⟨.undef, 0, c.tval⟩ c.tcause s.st.pc
    else if c.emu then
      let kill := fun (w : Word) (s' : State) =>
        s'.killGang ⟨.undef, 0, w⟩ (tcauseImage c.emu c.trap false 0 ⟨.undef, 0, w⟩) s.st.pc
      match extendedWordAt 4 c.emuepc s with
      | .ok w s' => kill (w.setWidth 64) s'
      | .error (.wait k g) s' => s'.holdUnit k g
      | .error (.trap _) s' => kill (Config.freeWord s'.freeCount) { s' with freeCount := s'.freeCount + 1 }
    else { s with st := { s.st with ended := true, pfx := [], steered := s.st.steered + 1, waiting := none } }

/-- `brk` (R185). -/
def execBrk (i : BitVec 10) (s : State) : Host.Outcome State Fault Refusal :=
  scalarM (.brk i) s fun p => trapM .brk 0 (wordOfInt (immValue (.brk i) p))

/-- An `.acq` bank word that is performed makes its open, and a `qjoin` that is reached lets the scalar core go on (R74,
R78). -/
def State.settleHold (s : State) : State :=
  let free := { s with st := { s.st with hold := .none } }
  match s.st.hold with
  | .acquire q _ => if s.st.pending.contains q then s else free.open
  | .join q => if s.st.queues.toList.any (fun l => l.any fun e => e.seq == q) then s else free
  | .none => s

/-- `tret` (R202); outside a handler it traps PRIV. An open that became due while the handler ran is made before fetch
goes on (R74). -/
def execTret (s : State) : Host.Outcome State Fault Refusal :=
  steer .tret s fun _ s =>
    match s.st.trapReturn with
    | some t => ({ s with st := { t with steered := t.steered + 1, waiting := none, stalled := false } } : State).settleHold
    | none => s.raise s.st.pc ⟨.priv, 0, (encode .tret).setWidth 64⟩

/-- A prefix is fetched (R16, R90): it joins the unit, whose checks are made when the extended word is reached; the fifth
prefix of a run traps UNDEF. -/
def prefixWord (w : BitVec 32) (s : State) : Host.Outcome State Fault Refusal :=
  if s.st.life = .gone then .fault .noStrand
  else if 4 ≤ s.st.pfx.length then .next (s.raise s.st.pc ⟨.undef, 0, w.setWidth 64⟩)
  else .next { s with st := { s.st with pfx := s.st.pfx ++ [w] } }

/-- `x.imm` (R91). -/
def execXImm (h : BitVec 22) (s : State) := prefixWord (encode (.xImm h)) s
/-- `x.cap` (R92). -/
def execXCap (a b c : Reg) (s : State) := prefixWord (encode (.xCap a b c)) s
/-- `x.rnd` (R93). -/
def execXRnd (m : BitVec 3) (s : State) := prefixWord (encode (.xRnd m)) s
/-- `x.pm` (R94). -/
def execXPm (z n : Bool) (p : Reg) (s : State) := prefixWord (encode (.xPm z n p)) s
/-- `x.ord` (R95). -/
def execXOrd (o : BitVec 2) (c : BitVec 3) (s : State) := prefixWord (encode (.xOrd o c)) s
/-- `x.hint` (R96). -/
def execXHint (h : BitVec 4) (s : State) := prefixWord (encode (.xHint h)) s

/-- A word that no row defines, or that is masked, is reached (R99, R105): it traps UNDEF. A word of engine 7 that is no
legal prefix takes its place in the unit, which traps when its extended word is reached (R90). -/
def execUndefinedEncoding (w : BitVec 32) (s : State) : Host.Outcome State Fault Refusal :=
  if bitsAt w 29 3 = 7 then prefixWord w s
  else if s.st.life = .gone then .fault .noStrand
  else .next (s.raise s.st.pc ⟨.undef, 0, w.setWidth 64⟩)

end Sys2Proof.Machine
end

