-- ==== Sys2Proof/Machine/Csr.lean ====
section
/-! DEFINITION. The strand CSRs and their words (R20, R186, R187). -/

namespace Sys2Proof.Machine

/-- The value a CSR reads as (R187). -/
def csrRead (s : State) (c : Nat) : Word :=
  let t := s.st
  let r := t.csr
  match c with
  | 0x000 => BitVec.ofNat 64 (r.privl.toNat * 4 + r.emu.toNat * 2 + r.trap.toNat)
  | 0x001 => BitVec.ofNat 64 (t.place.size % 32 * 16 + t.place.member % 16)
  | 0x002 => BitVec.ofNat 64 (t.place.fn % 128 * 65536 + t.place.slot % 4096)
  | 0x003 => BitVec.ofNat 64 (t.place.world % 64)
  | 0x004 => (s.features t.place.fn).setWidth 64
  | 0x005 => BitVec.ofNat 64 r.slipLimit
  | 0x008 => r.flags.setWidth 64
  | 0x009 => r.rmode.setWidth 64
  | 0x00A => r.rngKey
  | 0x00B => r.rngCtr
  | 0x010 => BitVec.ofNat 64 (s.clock - (s.part t.place.part).resetAt)
  | 0x020 => r.tvec
  | 0x021 => r.tcause.setWidth 64
  | 0x022 => r.tval
  | 0x023 => r.tscr
  | 0x024 => r.emuvec
  | 0x025 => r.emuepc
  | 0x028 => r.epcS
  | 0x030 => r.vtimeout.setWidth 64
  | 0x031 => BitVec.ofNat 64 r.kstep.toNat
  | 0x032 => r.hangto.setWidth 64
  | _ => if 0x029 ≤ c ∧ c ≤ 0x02E then vget r.epcE (c - 0x029) 0 else 0

/-- A write applied field by field (R8, R9, R186): read-only fields stand. `srnd` says that SRND is not masked. -/
def csrWrite (r : Csrs) (srnd : Bool) (c : Nat) (v : Word) : Csrs :=
  match c with
  | 0x005 => { r with slipLimit := let n := bits v.toNat 0 9; if n = 0 then 1 else min n 256 }
  | 0x008 => { r with flags := BitVec.ofNat 6 v.toNat }
  | 0x009 => { r with rmode := let m := bits v.toNat 0 3; if 4 < m ∨ (m = 4 ∧ srnd = false) then 0 else BitVec.ofNat 3 m }
  | 0x00A => { r with rngKey := v }
  | 0x00B => { r with rngCtr := v }
  | 0x020 => { r with tvec := textAddr v }
  | 0x021 => { r with tcause := BitVec.ofNat 19 (v.toNat % 2 ^ 19 - bits v.toNat 15 1 * 2 ^ 15) }
  | 0x022 => { r with tval := v }
  | 0x023 => { r with tscr := v }
  | 0x024 => { r with emuvec := textAddr v }
  | 0x025 => { r with emuepc := textAddr v }
  | 0x028 => { r with epcS := textAddr v }
  | 0x030 => { r with vtimeout := BitVec.ofNat 32 v.toNat }
  | 0x032 => { r with hangto := BitVec.ofNat 32 v.toNat }
  | _ => r

/-- The engines whose earlier words a CSR word waits for (R186). -/
def csrEngines : Nat → List Nat
  | 0x008 => [1, 2, 3, 4, 5, 6]
  | 0x009 => [1, 2, 3]
  | 0x00A => [1, 2, 3]
  | 0x00B => [1, 2, 3, 6]
  | _ => []

/-- A CSR word waits for the engines that share the CSR (R20). A loop word is performed for it when its nest has ended, although the
slip counts it no more once its nest is open: a CSR word that stands between a loop word and the last word of its body waits for
ever. DESIGN CHOICE, R20 does not say when a loop word is performed (log 62). -/
def csrWait (c : Nat) : M Unit := do
  let t ← getSt
  if (csrEngines c).any fun e => (t.queue e).any fun x => !x.isJoin then waitM 0 0

/-- A word that reads a CSR and writes what `f` makes of the old value and sA (R186). -/
def csrWord (i : Instr) (d : Reg) (c : BitVec 10) (f : Strand → Word → Option Word) (s : State) :
    Host.Outcome State Fault Refusal :=
  scalarM i s fun _ => do
    csrWait c.toNat
    let s ← get
    let old := csrRead s c.toNat
    match f s.st old with
    | some v => modSt fun t => { t with csr := csrWrite t.csr ((s.features t.place.fn).getLsbD 12) c.toNat v }
    | none => pure ()
    modSt fun t => t.setReg d old
    return none

/-- `csrr` (R186). -/
def execCsrr (d : Reg) (c : BitVec 10) (s : State) := csrWord (.csrr d c) d c (fun _ _ => none) s
/-- `csrw` (R186). -/
def execCsrw (d a : Reg) (c : BitVec 10) (s : State) := csrWord (.csrw d a c) d c (fun t _ => some (t.reg a)) s
/-- `csrs` (R186). -/
def execCsrs (d a : Reg) (c : BitVec 10) (s : State) :=
  csrWord (.csrs d a c) d c (fun t old => some (old ||| t.reg a)) s
/-- `csrc` (R186). -/
def execCsrc (d a : Reg) (c : BitVec 10) (s : State) :=
  csrWord (.csrc d a c) d c (fun t old => some (old &&& ~~~(t.reg a))) s

end Sys2Proof.Machine
end

