-- ==== Sys2Proof/Machine/Flags.lean ====
section
/-! DEFINITION. Exact values, rounding and the sticky flags (R127 to R139, R143, R209): one rounding step for every
format and mode, on exact fractions. -/

namespace Sys2Proof.Machine

/-! ## Flags (R143) -/

/-- ZSCALE OVQ INV OVF UNF INX, as bits 5 to 0. -/
abbrev Flags := BitVec 6

def fINX : Flags := 1
def fUNF : Flags := 2
def fOVF : Flags := 4
def fINV : Flags := 8
def fOVQ : Flags := 16
def fZSCALE : Flags := 32

/-! ## Exact values -/

/-- A floating-point value: NaN, an infinity, or (−1)^neg × m × 2^e, the sign of a zero kept. -/
inductive Fp where
  | nan
  | inf (neg : Bool)
  | fin (neg : Bool) (m : Nat) (e : Int)
  deriving DecidableEq, Repr

/-- An exact magnitude as a fraction. -/
structure Frac where
  num : Nat
  den : Nat
  deriving DecidableEq, Repr

/-- m × 2^e. -/
def Frac.ofDyadic (m : Nat) (e : Int) : Frac :=
  if 0 ≤ e then ⟨m * 2 ^ e.toNat, 1⟩ else ⟨m, 2 ^ (-e).toNat⟩

/-- Comparison of magnitudes. -/
def Frac.lt (a b : Frac) : Bool := decide (a.num * b.den < b.num * a.den)
def Frac.le (a b : Frac) : Bool := decide (a.num * b.den ≤ b.num * a.den)

/-- floor(log2 x) of a positive fraction. -/
def Frac.log2 (a : Frac) : Int :=
  let g : Int := (Nat.log2 a.num : Int) - (Nat.log2 a.den : Int)
  -- g is the floor, or one above it
  if (Frac.ofDyadic 1 g).le a then g else g - 1

/-- floor(x ÷ 2^q), with the remainder as a fraction of one step. -/
def Frac.divPow (a : Frac) (q : Int) : Nat × Nat × Nat :=
  let num := if q < 0 then a.num * 2 ^ (-q).toNat else a.num
  let den := if q < 0 then a.den else a.den * 2 ^ q.toNat
  (num / den, num % den, den)

/-! ## The rounding modes (R138, R139) -/

/-- One rounding step: `m` of the steps lie below, and `r ÷ d` of one step is left; `neg` is the value's sign and
`draw` the 32-bit draw of mode rs. Modes: 0 rn, 1 rz, 2 ru, 3 rd, 4 rs. -/
def roundUp (mode : Nat) (neg : Bool) (m r d draw : Nat) : Bool :=
  match mode with
  | 0 => decide (d < 2 * r) || (2 * r == d && m % 2 == 1)
  | 1 => false
  | 2 => r != 0 && !neg
  | 3 => r != 0 && neg
  | _ => decide (2 ^ 32 ≤ draw + r * 2 ^ 32 / d)

/-- Round a magnitude to a multiple of 2^q: the multiple and whether it is inexact. -/
def roundAt (mode : Nat) (neg : Bool) (draw : Nat) (a : Frac) (q : Int) : Nat × Bool :=
  let (m, r, d) := a.divPow q
  (if roundUp mode neg m r d draw then m + 1 else m, r != 0)

/-- Round a magnitude to an integer. -/
def roundInt (mode : Nat) (neg : Bool) (draw : Nat) (a : Frac) : Nat × Bool := roundAt mode neg draw a 0

/-! ## Floating-point formats (R127) -/

/-- A floating-point format. -/
structure FpFmt where
  ebits : Nat
  mbits : Nat
  bias : Nat
  /-- Largest finite magnitude, as m × 2^e. -/
  maxM : Nat
  maxE : Int
  hasInf : Bool
  hasNan : Bool
  canonNan : Nat
  deriving DecidableEq, Repr

def fp32 : FpFmt := ⟨8, 23, 127, 2 ^ 24 - 1, 104, true, true, 0x7FC00000⟩
def bf16 : FpFmt := ⟨8, 7, 127, 2 ^ 8 - 1, 120, true, true, 0x7FC0⟩
def fp16 : FpFmt := ⟨5, 10, 15, 2 ^ 11 - 1, 5, true, true, 0x7E00⟩
def e5m2 : FpFmt := ⟨5, 2, 15, 7, 13, true, true, 0x7E⟩
def e4m3 : FpFmt := ⟨4, 3, 7, 14, 5, false, true, 0x7F⟩
def e2m1 : FpFmt := ⟨2, 1, 1, 3, 1, false, false, 0⟩

/-- Exponent of the smallest normal magnitude. -/
def FpFmt.emin (f : FpFmt) : Int := 1 - (f.bias : Int)

/-- Bits of a code. -/
def FpFmt.width (f : FpFmt) : Nat := 1 + f.ebits + f.mbits

/-- The value of a code (R127). -/
def FpFmt.decode (f : FpFmt) (code : Nat) : Fp :=
  let neg := bit code (f.ebits + f.mbits)
  let e := bits code f.mbits f.ebits
  let m := bits code 0 f.mbits
  if e = 2 ^ f.ebits - 1 ∧ f.hasInf = true then (if m = 0 then .inf neg else .nan)
  else if f.hasInf = false ∧ f.hasNan = true ∧ e = 2 ^ f.ebits - 1 ∧ m = 2 ^ f.mbits - 1 then .nan
  else if e = 0 then .fin neg m (f.emin - f.mbits)
  else .fin neg (2 ^ f.mbits + m) ((e : Int) - f.bias - f.mbits)

/-- The code of a magnitude m × 2^e that the format holds exactly. -/
def FpFmt.code (f : FpFmt) (neg : Bool) (m : Nat) (e : Int) : Nat :=
  let s := neg.toNat * 2 ^ (f.ebits + f.mbits)
  if m = 0 then s
  else
    let lead : Int := (Nat.log2 m : Int) + e
    if lead < f.emin then s + (Frac.ofDyadic m (e - (f.emin - f.mbits))).num
    else
      let frac := (Frac.ofDyadic m (e - (lead - f.mbits)))
      s + (lead + f.bias).toNat * 2 ^ f.mbits + (frac.num / frac.den - 2 ^ f.mbits)

/-- The code of an infinity, or of the largest magnitude where the format has none. -/
def FpFmt.infCode (f : FpFmt) (neg : Bool) : Nat :=
  if f.hasInf then neg.toNat * 2 ^ (f.ebits + f.mbits) + (2 ^ f.ebits - 1) * 2 ^ f.mbits else f.code neg f.maxM f.maxE

/-- A finite magnitude rounded to a format's precision, its exponent unbounded above: m, q and inexactness. -/
def FpFmt.roundFrac (f : FpFmt) (mode : Nat) (neg : Bool) (draw : Nat) (a : Frac) : Nat × Int × Bool :=
  if a.num = 0 then (0, f.emin - f.mbits, false)
  else
    let q := max (a.log2 - f.mbits) (f.emin - f.mbits)
    let (m, inx) := roundAt mode neg draw a q
    (m, q, inx)

/-- A magnitude is tiny after rounding (R137): rounded to the format's precision with an unbounded exponent range it lies
below the smallest normal magnitude. -/
def FpFmt.tiny (f : FpFmt) (mode : Nat) (neg : Bool) (draw : Nat) (a : Frac) : Bool :=
  if a.num = 0 then false
  else
    let q := a.log2 - f.mbits
    let (m, _) := roundAt mode neg draw a q
    (Frac.ofDyadic m q).lt (Frac.ofDyadic 1 f.emin)

/-- A magnitude exceeds the format's largest finite one. -/
def FpFmt.beyond (f : FpFmt) (m : Nat) (q : Int) : Bool := (Frac.ofDyadic f.maxM f.maxE).lt (Frac.ofDyadic m q)

/-- Encode an exact finite value (R137): its code and flags. -/
def FpFmt.encodeFrac (f : FpFmt) (mode : Nat) (draw : Nat) (neg : Bool) (a : Frac) : Nat × Flags :=
  let (m, q, inx) := f.roundFrac mode neg draw a
  if f.beyond m q then
    let toInf := f.hasInf && (mode == 0 || (mode == 2 && !neg) || (mode == 3 && neg))
    (if toInf then f.infCode neg else f.code neg f.maxM f.maxE, fOVF ||| fINX)
  else
    (f.code neg m q, if inx then (if f.tiny mode neg draw a then fUNF ||| fINX else fINX) else 0)

/-- Encode any value (R128, R137). -/
def FpFmt.encode (f : FpFmt) (mode : Nat) (draw : Nat) (x : Fp) : Nat × Flags :=
  match x with
  | .nan => if f.hasNan then (f.canonNan, 0) else (0, fINV)
  | .inf neg => if f.hasInf then (f.infCode neg, 0) else (f.infCode neg, fOVF ||| fINX)
  | .fin neg m e => f.encodeFrac mode draw neg (Frac.ofDyadic m e)

/-- Encode an exact value into an integer range (R137): saturation sets OVF and INX, NaN gives 0 with INV. -/
def encodeInt (lo hi : Int) (mode draw : Nat) (x : Fp) : Int × Flags :=
  match x with
  | .nan => (0, fINV)
  | .inf neg => (if neg then lo else hi, fOVF ||| fINX)
  | .fin neg m e =>
    let (k, inx) := roundInt mode neg draw (Frac.ofDyadic m e)
    let v : Int := if neg then -(k : Int) else k
    if v < lo then (lo, fOVF ||| fINX) else if hi < v then (hi, fOVF ||| fINX) else (v, if inx then fINX else 0)

/-! ## binary32 arithmetic (R209) -/

/-- The value of an FP32 element. -/
def fpOf (x : BitVec 32) : Fp := fp32.decode x.toNat

/-- The canonical NaN. -/
def nan32 : BitVec 32 := 0x7FC00000

/-- Whether an element is a NaN. -/
def isNan32 (x : BitVec 32) : Bool := fpOf x == .nan

/-- Round a value to FP32 (R209): NaN is canonical. -/
def toFp32 (mode draw : Nat) (x : Fp) : BitVec 32 × Flags :=
  match x with
  | .nan => (nan32, 0)
  | y => let r := fp32.encode mode draw y; (BitVec.ofNat 32 r.1, r.2)

/-- The exact sum of two finite values; an exact zero is +0, under rd −0, and two zeros of one sign keep it (R209). -/
def addFin (mode : Nat) (s1 : Bool) (m1 : Nat) (e1 : Int) (s2 : Bool) (m2 : Nat) (e2 : Int) : Fp :=
  let e := min e1 e2
  let a : Int := (m1 * 2 ^ (e1 - e).toNat : Nat)
  let b : Int := (m2 * 2 ^ (e2 - e).toNat : Nat)
  let v := (if s1 then -a else a) + (if s2 then -b else b)
  if v = 0 then .fin (if s1 = s2 then s1 else mode == 3) 0 0
  else .fin (decide (v < 0)) v.natAbs e

/-- The exact sum of two values, with INV for ∞ − ∞. -/
def fpAdd (mode : Nat) (x y : Fp) : Fp × Flags :=
  match x, y with
  | .nan, _ => (.nan, 0)
  | _, .nan => (.nan, 0)
  | .inf a, .inf b => if a = b then (.inf a, 0) else (.nan, fINV)
  | .inf a, _ => (.inf a, 0)
  | _, .inf b => (.inf b, 0)
  | .fin s1 m1 e1, .fin s2 m2 e2 => (addFin mode s1 m1 e1 s2 m2 e2, 0)

/-- The exact product, with INV for 0 × ∞. -/
def fpMul (x y : Fp) : Fp × Flags :=
  match x, y with
  | .nan, _ => (.nan, 0)
  | _, .nan => (.nan, 0)
  | .inf a, .inf b => (.inf (a != b), 0)
  | .inf a, .fin b m _ => if m = 0 then (.nan, fINV) else (.inf (a != b), 0)
  | .fin a m _, .inf b => if m = 0 then (.nan, fINV) else (.inf (a != b), 0)
  | .fin a m1 e1, .fin b m2 e2 => (.fin (a != b) (m1 * m2) (e1 + e2), 0)

/-- The value with its sign inverted. -/
def fpNeg : Fp → Fp
  | .nan => .nan
  | .inf a => .inf (!a)
  | .fin a m e => .fin (!a) m e

/-- FP32 sum, product and fused form, rounded once (R220). -/
def add32 (mode draw : Nat) (x y : BitVec 32) : BitVec 32 × Flags :=
  let r := fpAdd mode (fpOf x) (fpOf y)
  let z := toFp32 mode draw r.1
  (z.1, z.2 ||| r.2)

def sub32 (mode draw : Nat) (x y : BitVec 32) : BitVec 32 × Flags :=
  let r := fpAdd mode (fpOf x) (fpNeg (fpOf y))
  let z := toFp32 mode draw r.1
  (z.1, z.2 ||| r.2)

def mul32 (mode draw : Nat) (x y : BitVec 32) : BitVec 32 × Flags :=
  let r := fpMul (fpOf x) (fpOf y)
  let z := toFp32 mode draw r.1
  (z.1, z.2 ||| r.2)

def fma32 (mode draw : Nat) (negProd negAdd : Bool) (y z x : BitVec 32) : BitVec 32 × Flags :=
  let p := fpMul (fpOf y) (fpOf z)
  let prod := if negProd then fpNeg p.1 else p.1
  let r := fpAdd mode prod (if negAdd then fpNeg (fpOf x) else fpOf x)
  let o := toFp32 mode draw r.1
  (o.1, o.2 ||| r.2 ||| p.2)

/-- Order of finite and infinite values, −0 equal to +0: below, equal. -/
def fpLt (x y : Fp) : Bool :=
  match x, y with
  | .nan, _ => false
  | _, .nan => false
  | .inf a, .inf b => a && !b
  | .inf a, _ => a
  | _, .inf b => !b
  | .fin s1 m1 e1, .fin s2 m2 e2 =>
    let a := Frac.ofDyadic m1 e1
    let b := Frac.ofDyadic m2 e2
    let na := s1 && m1 != 0
    let nb := s2 && m2 != 0
    if na != nb then na else if na then b.lt a else a.lt b

def fpEq (x y : Fp) : Bool :=
  match x, y with
  | .nan, _ => false
  | _, .nan => false
  | .inf a, .inf b => a == b
  | .inf _, _ => false
  | _, .inf _ => false
  | x, y => !fpLt x y && !fpLt y x

/-- `v.min` and `v.max` (R220): −0 below +0, a NaN gives the other operand. -/
def min32 (x y : BitVec 32) : BitVec 32 :=
  if isNan32 x then (if isNan32 y then nan32 else y)
  else if isNan32 y then x
  else if fpLt (fpOf x) (fpOf y) || (fpEq (fpOf x) (fpOf y) && x.msb) then x else y

def max32 (x y : BitVec 32) : BitVec 32 :=
  if isNan32 x then (if isNan32 y then nan32 else y)
  else if isNan32 y then x
  else if fpLt (fpOf y) (fpOf x) || (fpEq (fpOf x) (fpOf y) && y.msb) then x else y

/-- A positive quotient of two finite values as an exact fraction, rounded to FP32. -/
def divFin (mode : Nat) (neg : Bool) (m1 : Nat) (e1 : Int) (m2 : Nat) (e2 : Int) : BitVec 32 × Flags :=
  let a := Frac.ofDyadic m1 (e1 - e2)
  let r := fp32.encodeFrac mode 0 neg ⟨a.num, a.den * m2⟩
  (BitVec.ofNat 32 r.1, r.2)

/-- The IEEE 754 quotient, rounded to nearest even. -/
def div32 (x y : BitVec 32) : BitVec 32 × Flags :=
  match fpOf x, fpOf y with
  | .nan, _ => (nan32, 0)
  | _, .nan => (nan32, 0)
  | .inf _, .inf _ => (nan32, fINV)
  | .inf a, .fin b _ _ => (BitVec.ofNat 32 (fp32.infCode (a != b)), 0)
  | .fin a _ _, .inf b => (BitVec.ofNat 32 (fp32.code (a != b) 0 0), 0)
  | .fin a m1 e1, .fin b m2 e2 =>
    if m2 = 0 then
      if m1 = 0 then (nan32, fINV) else (BitVec.ofNat 32 (fp32.infCode (a != b)), 0)
    else divFin 0 (a != b) m1 e1 m2 e2

/-- Integer square root by bits, from bit `n - 1` down. -/
def isqrtFrom (x : Nat) : Nat → Nat → Nat
  | 0, r => r
  | n + 1, r => let c := r + 2 ^ n; isqrtFrom x n (if c * c ≤ x then c else r)

/-- floor(√x). -/
def isqrt (x : Nat) : Nat := isqrtFrom x (Nat.log2 x / 2 + 1) 0

end Sys2Proof.Machine
end

