-- ==== Sys2Proof/Machine/Formats.lean ====
section
/-! DEFINITION. Element formats, block scales, the quantiser (R121 to R142), and the one way in which every decoding path
reads and writes formatted elements (R124, R211 to R214, R528, R529). -/

namespace Sys2Proof.Machine

/-! ## The attribute (R121 to R123) -/

/-- A format attribute. -/
structure Fmt where
  fmt : Nat
  blk : Nat
  sk : Bool
  deriving DecidableEq, Repr

/-- The attribute in the seven bits of a page or the low bits of a descriptor byte. -/
def fmtOf (a : Nat) : Fmt := ⟨bits a 0 4, bits a 4 2, bit a 6⟩

/-- RAW: not decodable. -/
def Fmt.raw (f : Fmt) : Bool := f.fmt == 15

/-- A descriptor byte that a word may decode by: not reserved, no bad geometry and not RAW (R121, R123, R215). -/
def descOk (d : Nat) : Bool := d < 128 && !badFormat d && d % 16 != 15

/-- The format is scaled. -/
def Fmt.scaled (f : Fmt) : Bool := f.blk != 0

/-- TRI5. -/
def Fmt.tri (f : Fmt) : Bool := f.fmt == 10

/-- Bits of one element; TRI5, which packs five to a byte, gives 0 (R122). -/
def Fmt.bitsPer (f : Fmt) : Nat :=
  match f.fmt with
  | 0 | 1 => 32
  | 2 | 3 => 16
  | 4 | 5 | 7 | 8 => 8
  | 6 | 9 => 4
  | _ => 0

/-- Bytes of an element of 8 bits or more; 1 for the packed formats. -/
def Fmt.bytes (f : Fmt) : Nat := max 1 (f.bitsPer / 8)

/-- The format decodes to FP32: a floating-point or a scaled one (R122). -/
def Fmt.isFp (f : Fmt) : Bool := f.scaled || !(f.fmt == 1 || f.fmt == 7 || f.fmt == 8 || f.fmt == 9 || f.fmt == 10)

/-- Elements of one block. -/
def Fmt.blockLen (f : Fmt) : Nat := 8 * 2 ^ f.blk

/-- Bytes of element data in one block (R132). -/
def Fmt.blockBytes (f : Fmt) : Nat := f.blockLen * f.bitsPer / 8

/-- The data area D of a granule (R132); the whole granule when unscaled. -/
def Fmt.dataBytes (f : Fmt) : Nat :=
  if f.scaled then 64 * (65536 * f.blockBytes / ((f.blockBytes + 1) * 64)) else 65536

/-- The floating-point format of a code, if it is one. -/
def Fmt.fp (f : Fmt) : Option FpFmt :=
  match f.fmt with
  | 0 => some fp32 | 2 => some bf16 | 3 => some fp16 | 4 => some e4m3 | 5 => some e5m2 | 6 => some e2m1
  | _ => none

/-- The bytes of `n` elements from a byte boundary (R211). -/
def Fmt.footprint (f : Fmt) (n : Nat) : Nat := if f.tri then (n + 4) / 5 else (n * f.bitsPer + 7) / 8

/-- The place of element `c` of a row that begins at byte `b0`: its first byte and its nibble or digit (R211). -/
def Fmt.place (f : Fmt) (b0 c : Nat) : Nat × Nat :=
  if f.tri then (b0 + c / 5, c % 5)
  else if f.bitsPer = 4 then (b0 + c / 2, c % 2)
  else (b0 + c * f.bytes, 0)

/-- The index in its granule of the element at a byte and nibble (R133). -/
def Fmt.index (f : Fmt) (b sub : Nat) : Nat :=
  if f.bitsPer = 4 then b % 65536 * 2 + sub else b % 65536 / f.bytes

/-- The byte that holds the scale of the block of an element (R132). -/
def Fmt.scaleByte (f : Fmt) (b sub : Nat) : Nat := b / 65536 * 65536 + f.dataBytes + f.index b sub / f.blockLen

/-! ## Decoding (R125 to R131) -/

/-- The value of a scale code; none for a NaN or malformed one (R129). -/
def scaleValue (sk : Bool) (code : Nat) : Option Fp :=
  if sk then (if 0x7F ≤ code then none else some (e4m3.decode code))
  else if code = 0xFF then none
  else some (.fin false 1 ((code : Int) - 127))

/-- The exact value of an unscaled element code: a TRI5 code is its digit (R125 to R127). -/
def Fmt.value (f : Fmt) (code : Nat) : Fp :=
  let int := fun (v : Int) => Fp.fin (decide (v < 0)) v.natAbs 0
  match f.fp with
  | some k => k.decode code
  | none =>
    match f.fmt with
    | 1 => int (sextNat code 32)
    | 7 => int (sextNat code 8)
    | 8 => int code
    | 9 => int (sextNat code 4)
    | _ => int ((code : Int) - 1)

/-- The exact decoded value under a scale, with the flags of R131. -/
def Fmt.scaledValue (f : Fmt) (code scale : Nat) : Fp × Flags :=
  match scaleValue f.sk scale with
  | none => (.nan, fINV)
  | some sg => ((fpMul (f.value code) sg).1, if f.sk && scale == 0 then fZSCALE else 0)

/-- The exact decoded value of an element, with its flags: what the Loom and the attention units use (R130). -/
def Fmt.exact (f : Fmt) (code scale : Nat) : Fp × Flags :=
  if f.scaled then f.scaledValue code scale else (f.value code, 0)

/-- The integer that an unscaled integer code decodes to. -/
def fpToInt : Fp → Int
  | .fin neg m e => if neg then -((m * 2 ^ e.toNat : Nat) : Int) else (m * 2 ^ e.toNat : Nat)
  | _ => 0

/-- The 32-bit element that a decoding path delivers (R128, R130, R131): FP32 or INT32. -/
def Fmt.decode (f : Fmt) (code scale : Nat) : Elem × Flags :=
  if f.scaled then
    let x := f.scaledValue code scale
    let r := toFp32 0 0 x.1
    (r.1, r.2 ||| x.2)
  else if f.fmt = 0 ∨ f.fmt = 1 then (BitVec.ofNat 32 code, 0)
  else if f.isFp then ((toFp32 0 0 (f.value code)).1, 0)
  else (BitVec.ofInt 32 (fpToInt (f.value code)), 0)

/-- The decoded value of an element, as a decoding path that goes on to encode it takes it (R128, R130, R131, R255): one that
exceeds the FP32 range is an infinity. -/
def Fmt.decoded (f : Fmt) (code scale : Nat) : Fp × Flags :=
  if f.scaled then let r := f.decode code scale; (fpOf r.1, r.2) else (f.value code, 0)

/-! ## Encoding (R137 to R142) -/

/-- The value of a register element as an encoding path reads it: FP32 or INT32 (R213). -/
def Fmt.source (f : Fmt) (x : Elem) : Fp :=
  if f.isFp then fpOf x else .fin (decide (x.toInt < 0)) x.toInt.natAbs 0

/-- Encode a value into an unscaled format (R137): its code and flags. -/
def Fmt.encode (f : Fmt) (mode draw : Nat) (x : Fp) : Nat × Flags :=
  match f.fp with
  | some k => k.encode mode draw x
  | none =>
    let lo : Int := match f.fmt with | 1 => -(2 ^ 31) | 7 => -128 | 8 => 0 | 9 => -8 | _ => -1
    let hi : Int := match f.fmt with | 1 => 2 ^ 31 - 1 | 7 => 127 | 8 => 255 | 9 => 7 | _ => 1
    let r := encodeInt lo hi mode draw x
    (if f.tri then (r.1 + 1).toNat else wrapInt r.1 f.bitsPer, r.2)

/-- Emax and emax_exp of R140. -/
def Fmt.emax (f : Fmt) : Nat × Int :=
  match f.fmt with
  | 4 => (448, 8) | 5 => (57344, 15) | 6 => (6, 2) | 7 => (127, 6) | _ => (7, 2)

/-- A magnitude divided by a scale value. -/
def Frac.scaled (a : Frac) : Fp → Frac
  | .fin _ m e => let s := Frac.ofDyadic m e; ⟨a.num * s.den, a.den * s.num⟩
  | _ => a

/-- A finite value's magnitude. -/
def Fp.mag : Fp → Frac
  | .fin _ m e => Frac.ofDyadic m e
  | _ => ⟨0, 1⟩

def Fp.isFinite : Fp → Bool
  | .fin .. => true
  | _ => false

def Fp.isInf : Fp → Bool
  | .inf _ => true
  | _ => false

def Fp.neg : Fp → Bool
  | .fin n _ _ => n
  | .inf n => n
  | .nan => false

/-- Round a magnitude to the element format with its range unbounded above (R141): the rounded magnitude as m × 2^q, and
its inexactness. -/
def Fmt.roundMag (f : Fmt) (mode : Nat) (neg : Bool) (draw : Nat) (a : Frac) : Nat × Int × Bool :=
  match f.fp with
  | some k => k.roundFrac mode neg draw a
  | none => let r := roundInt mode neg draw a; (r.1, 0, r.2)

/-- The code of a signed magnitude that the format holds. -/
def Fmt.magCode (f : Fmt) (neg : Bool) (m : Nat) (q : Int) : Nat :=
  match f.fp with
  | some k => k.code neg m q
  | none => wrapInt (if neg then -((m * 2 ^ q.toNat : Nat) : Int) else (m * 2 ^ q.toNat : Nat)) f.bitsPer

/-- The magnitude m × 2^q exceeds Emax. -/
def Fmt.above (f : Fmt) (m : Nat) (q : Int) : Bool := (Frac.mk f.emax.1 1).lt (Frac.ofDyadic m q)

/-- One element under a scale: its code, whether it calls for a raise, and its flags (R141). -/
def Fmt.quantOne (f : Fmt) (mode : Nat) (sg x : Fp) (draw : Nat) : Nat × Bool × Flags :=
  match x with
  | .inf neg =>
    if f.fmt = 5 then (e5m2.infCode neg, false, 0) else (f.magCode neg f.emax.1 0, true, fINX)
  | .nan => (0, false, 0)
  | .fin neg m e =>
    let a := (Frac.ofDyadic m e).scaled sg
    let r := f.roundMag mode neg draw a
    if f.above r.1 r.2.1 then (f.magCode neg f.emax.1 0, true, fINX)
    else
      let unf := r.2.2 && (match f.fp with | some k => k.tiny mode neg draw a | none => false)
      (f.magCode neg r.1 r.2.1, false, if r.2.2 then (if unf then fUNF ||| fINX else fINX) else 0)

/-- The elements of a block under a scale code. -/
def Fmt.quantAll (f : Fmt) (mode sc : Nat) : List (Fp × Nat) → List (Nat × Bool × Flags)
  | [] => []
  | (x, d) :: rest =>
    f.quantOne mode ((scaleValue f.sk sc).getD (.fin false 1 0)) x d :: f.quantAll mode sc rest

/-- The loop of R141: `raises` are left. -/
def Fmt.quantLoop (f : Fmt) (mode : Nat) (xs : List (Fp × Nat)) : Nat → Nat → List Nat × Nat × Flags
  | 0, sc => finish sc
  | raises + 1, sc =>
    let q := f.quantAll mode sc xs
    if q.any fun r => r.2.1 then
      (if sc = (if f.sk then 0x7E else 0xFE) then finish sc else f.quantLoop mode xs raises (sc + 1))
    else (q.map Prod.fst, sc, q.foldl (fun fl r => fl ||| r.2.2) 0)
where
  /-- The last attempt: what is still too large saturates, with OVQ. -/
  finish (sc : Nat) : List Nat × Nat × Flags :=
    let q := f.quantAll mode sc xs
    (q.map Prod.fst, sc, q.foldl (fun fl r => fl ||| r.2.2) (if q.any fun r => r.2.1 then fOVQ else 0))

/-- The quantiser (R140, R141): element codes, the scale code and flags. -/
def Fmt.quantise (f : Fmt) (mode : Nat) (xs : List (Fp × Nat)) : List Nat × Nat × Flags :=
  if xs.any fun x => x.1 == .nan then (xs.map fun _ => 0, if f.sk then 0x7F else 0xFF, fINV)
  else
    let amax := xs.foldl (fun a x => if a.lt x.1.mag then x.1.mag else a) ⟨0, 1⟩
    let sc : Nat :=
      if f.sk then
        if amax.num = 0 then 0x38
        else min 0x7E (max 1 (e4m3.encodeFrac 0 0 false ⟨amax.num, amax.den * f.emax.1⟩).1)
      else
        if amax.num = 0 then 127
        else (min 254 (max 0 (amax.log2 - f.emax.2 + 127))).toNat
    f.quantLoop mode xs 2 sc

/-! ## Access through a port

A decoding path sees its data through a port: a memory context or a scratchpad. `resolve` checks one byte, with a check of
its page's attribute at the point where translation is checked (R528), and answers where it lies; `attrOf` answers the
attribute of its page and makes no access; `fetch` and `put` move bytes within a line at such a place. -/

/-- Where a decoding path finds its bytes. -/
structure Port where
  resolve : Nat → (Nat → M Unit) → M Nat
  attrOf : Nat → M Nat
  fetch : Nat → Nat → M (List Byte)
  put : Nat → List Byte → M Unit

/-- Raise PAGE with kind format mismatch. -/
def trapFormat {α : Type} (a : Nat) : M α := trapPage 3 a

/-- The pieces of a run of bytes within lines: first address and length; the number bounds the pieces. -/
def pieces : Nat → Nat → Nat → List (Nat × Nat)
  | 0, _, _ => []
  | fuel + 1, a, n =>
    if n = 0 then [] else
    let m := min n (64 - a % 64)
    (a % 2 ^ 64, m) :: pieces fuel (a + m) (n - m)

/-- Resolve a byte whose page must carry the word's attribute (R124, R528). -/
def Port.at (p : Port) (attr : Nat) (a : Nat) : M Nat :=
  p.resolve a fun at' => if at' ≠ attr then trapFormat a else pure ()

/-- Resolve the `n` bytes of one element, as places and lengths: the D check of R134 comes first (R212), and the attribute is
that of the page of the first byte (R528). -/
def Port.element (p : Port) (attr : Nat) (f : Fmt) (a n : Nat) : M (List (Nat × Nat)) := do
  if f.scaled && f.dataBytes ≤ a % 65536 then trapFormat a
  collectM (pieces 2 a n) fun q => do
    let loc ← if q.1 = a then p.at attr a else p.resolve q.1 fun _ => pure ()
    return (loc, q.2)

/-- Read the bytes of a resolved element. -/
def Port.fetchAll (p : Port) : List (Nat × Nat) → M (List Byte)
  | [] => pure []
  | (loc, n) :: rest => do
    let a ← p.fetch loc n
    let b ← p.fetchAll rest
    return a ++ b

/-- Write the bytes of a resolved element. -/
def Port.putAll (p : Port) : List (Nat × Nat) → List Byte → M Unit
  | [], _ => pure ()
  | (loc, n) :: rest, bs => do
    p.put loc (bs.take n)
    p.putAll rest (bs.drop n)

/-- The code of an element at its places; a TRI5 byte above 242 traps (R126). -/
def Port.code (p : Port) (f : Fmt) (a : Nat) (locs : List (Nat × Nat)) (sub : Nat) : M Nat := do
  let bs ← p.fetchAll locs
  let x := natOfBytes bs
  if f.tri then
    if 242 < x then trapFormat a
    return x / 3 ^ sub % 3
  else if f.bitsPer = 4 then return x / 16 ^ sub % 16
  else return x

/-- The scale code of an element's block; 0 when the format is unscaled. -/
def Port.scale (p : Port) (attr : Nat) (f : Fmt) (a sub : Nat) : M Nat := do
  if f.scaled then
    let loc ← p.at attr (f.scaleByte a sub)
    return natOfBytes (← p.fetch loc 1)
  else return 0

/-- Read the code and scale code of element `c` of the row at `b0`. Addresses wrap modulo 2^64 (R212). -/
def Port.readCode (p : Port) (attr : Nat) (f : Fmt) (b0 c : Nat) : M (Nat × Nat) := do
  let (a, sub) := f.place b0 c
  let a := a % 2 ^ 64
  let locs ← p.element attr f a f.bytes
  let code ← p.code f a locs sub
  let sc ← p.scale attr f a sub
  return (code, sc)

/-- Read element `c` of the row at `b0`, decoded (R213). -/
def Port.read (p : Port) (attr : Nat) (f : Fmt) (b0 c : Nat) : M (Elem × Flags) := do
  let (code, sc) ← p.readCode attr f b0 c
  return f.decode code sc

/-- All five digits of the byte of element `c` are written by the word: `act` says which elements of the row are. -/
def wholeByte (sub c : Nat) (n : Nat) (act : Nat → Bool) : Bool :=
  let c0 := c - sub
  c0 + 5 ≤ n && act c0 && act (c0 + 1) && act (c0 + 2) && act (c0 + 3) && act (c0 + 4)

/-- Check the destination of element `c` of an unscaled row of `n` elements: its places, once they may be written (R214). -/
def Port.room (p : Port) (attr : Nat) (f : Fmt) (b0 c n : Nat) (act : Nat → Bool) : M (List (Nat × Nat)) := do
  let (a, sub) := f.place b0 c
  let a := a % 2 ^ 64
  let locs ← p.element attr f a f.bytes
  if f.tri then
    let old := natOfBytes (← p.fetchAll locs)
    if 242 < old ∧ wholeByte sub c n act = false then trapFormat a
  return locs

/-- Write the code of element `c` of an unscaled row of `n` elements; other elements of its byte stand (R214). -/
def Port.writeCode (p : Port) (attr : Nat) (f : Fmt) (b0 c n : Nat) (act : Nat → Bool) (code : Nat) : M Unit := do
  let locs ← p.room attr f b0 c n act
  let sub := (f.place b0 c).2
  if f.tri then
    let old := natOfBytes (← p.fetchAll locs)
    let old := if 242 < old then 0 else old
    p.putAll locs (bytesOfNat 1 (old - old / 3 ^ sub % 3 * 3 ^ sub + code * 3 ^ sub))
  else if f.bitsPer = 4 then
    let old := natOfBytes (← p.fetchAll locs)
    p.putAll locs (bytesOfNat 1 (setBits old (4 * sub) 4 code))
  else p.putAll locs (bytesOfNat f.bytes code)

/-- Write element `c` of an unscaled row (R137). -/
def Port.write (p : Port) (attr : Nat) (f : Fmt) (b0 c n : Nat) (act : Nat → Bool) (mode draw : Nat) (x : Fp) :
    M Flags := do
  let r := f.encode mode draw x
  p.writeCode attr f b0 c n act r.1
  return r.2

/-- Check block `k` of a scaled row: the places of its elements and of its scale (R135, R214). -/
def Port.blockRoom (p : Port) (attr : Nat) (f : Fmt) (b0 k : Nat) : M (List (List (Nat × Nat)) × Nat) := do
  let places := genFrom f.blockLen (k * f.blockLen) fun c => ((f.place b0 c).1 % 2 ^ 64, (f.place b0 c).2)
  let locs ← collectM places fun x => p.element attr f x.1 1
  let first := places.headD (0, 0)
  let scLoc ← p.at attr (f.scaleByte first.1 first.2)
  return (locs, scLoc)

/-- Write block `k` of a scaled row, whole (R135, R214): every element is checked before any is written. -/
def Port.writeBlock (p : Port) (attr : Nat) (f : Fmt) (b0 k mode : Nat) (xs : List (Fp × Nat)) : M Flags := do
  let (locs, scLoc) ← p.blockRoom attr f b0 k
  let q := f.quantise mode xs
  let subs := genFrom f.blockLen (k * f.blockLen) fun c => (f.place b0 c).2
  eachM ((locs.zip subs).zip q.1) fun y =>
    if f.bitsPer = 4 then do
      let old := natOfBytes (← p.fetchAll y.1.1)
      p.putAll y.1.1 (bytesOfNat 1 (setBits old (4 * y.1.2) 4 y.2))
    else p.putAll y.1.1 (bytesOfNat 1 y.2)
  p.put scLoc (bytesOfNat 1 q.2.1)
  return q.2.2

/-- A row of a scaled store begins on a block boundary (R135). -/
def Fmt.onBlock (f : Fmt) (b0 : Nat) : Bool := f.index b0 0 % f.blockLen == 0

/-- The memory of the current strand as a port of engine `eng` in context `slot` (R76, R77, R212): an access of class
`acc`, whose lines are checked where `lines` says so. A RAW page traps (R124). A vector load is served by the L1 (R218);
the bytes that a partial write keeps are read at their home (R214). -/
def memPort (eng slot : Nat) (acc : AccessKind) (lines : Bool) : Port where
  resolve a chk := do
    let l ← sealedAs (a / 64 * 64) (locate eng slot a acc)
    if (fmtOf l.m.fmta).raw then trapFormat a
    chk l.m.fmta
    l.sealed (a / 64 * 64)
    if lines then checkLine l.m.pa (a / 64 * 64)
    l.use
    return l.m.pa
  attrOf a := do
    let l ← sealedAs (a / 64 * 64) (locate eng slot a acc)
    if (fmtOf l.m.fmta).raw then trapFormat a
    return l.m.fmta
  fetch pa n := do
    if acc.writes then return (← get).mem.readBytes pa n
    else if eng = 1 then vectorRead pa n
    else return (← get).peekBytes (← getSt).who pa n
  put pa bs := modify fun s => s.engineWrite pa bs

/-- The scratchpad of the current strand as a port: bytes outside the allocation trap PAGE with kind 2 (R215). -/
def spadPort (attr : Nat) : Port where
  resolve a _ := do
    if (← getSt).spadUnits * 65536 ≤ a then trapPage 2 a
    return a
  attrOf _ := pure attr
  fetch off n := do return (← getSt).spad.readBytes off n
  put off bs := modSt fun t => { t with spad := t.spad.writeBytes off bs }

end Sys2Proof.Machine
end

