-- ==== Sys2Proof/Machine/RingBar.lean ====
section
/-! DEFINITION. Rings, stream registers and gang barriers (R32 to R44), with their scalar words (R191 to R193). -/

namespace Sys2Proof.Machine

/-! ## Rings (R32 to R37) -/

/-- x ≤ y of R34, judged by difference. -/
def seqLe (x y : BitVec 32) : Bool := (y - x).toNat < 2 ^ 31

/-- Word A, B and C of a handle (R32). -/
def Ring.wordA (r : Ring) : Word := BitVec.ofNat 64 (r.slot * 2 ^ 48 + r.count * 2 ^ 35 + r.base * 64)
def Ring.wordB (r : Ring) : Word := r.tail ++ r.head
def Ring.wordC (r : Ring) : Word := r.claimT ++ r.claimH

/-- First scratchpad byte of slot position `p` (R32). -/
def Ring.slotOffset (r : Ring) (p : BitVec 32) : Nat := r.base * 64 + p.toNat % r.count * (r.slot * 64)

/-- The binding that word A names (R33): none where it traps RINGOV. -/
def ringOfWord (a : Word) (spadSize : Nat) : Option Ring :=
  let slot := bits a.toNat 48 16
  let count := bits a.toNat 35 13
  let base := bits a.toNat 6 15
  if slot = 0 ∨ 32768 < slot ∨ count = 0 ∨ 4096 < count ∨ spadSize < base * 64 + count * slot * 64 then none
  else some { Ring.unbound with slot := slot, count := count, base := base }

/-- TAIL passes each complete peer-reserved position that it stands at (R37). -/
def Ring.passPeers : Nat → Ring → Ring
  | 0, r => r
  | n + 1, r =>
    if r.peers.any fun p => p.1 == r.tail && p.2 then
      Ring.passPeers n { r with tail := r.tail + 1, peers := r.peers.filter fun p => p.1 != r.tail }
    else r

/-- What a ring operation comes to. -/
inductive RingRes where
  | done (r : Ring)
  | error
  | wait
  deriving DecidableEq, Repr

/-- `radv.t` by n (R34, R37). R34 gives every operation 1 ≤ n ≤ COUNT, and its error column for an advance names only a
count past the claim: that n = 0 is RINGOV here too, as for `rwe` and `rwf`, is DEDUCED (log 23). -/
def Ring.advanceTail (r : Ring) (n : Nat) : RingRes :=
  if n = 0 ∨ r.count < n then .error
  else
    let t := r.tail + BitVec.ofNat 32 n
    if !seqLe t r.claimT then .error
    else if r.peers.any fun p => !p.2 && decide ((p.1 - r.tail).toNat < n) then .wait
    else .done (Ring.passPeers r.peers.length
      { r with tail := t, peers := r.peers.filter fun p => !decide ((p.1 - r.tail).toNat < n) })

/-- `radv.h` by n (R34); n = 0 as in `radv.t` (log 23). -/
def Ring.advanceHead (r : Ring) (n : Nat) : RingRes :=
  if n = 0 ∨ r.count < n then .error
  else
    let h := r.head + BitVec.ofNat 32 n
    if seqLe h r.claimH then .done { r with head := h } else .error

/-- `rwe` by n (R34). -/
def Ring.reserve (r : Ring) (n : Nat) : RingRes :=
  if n = 0 ∨ r.count < n then .error
  else if n ≤ (r.head + BitVec.ofNat 32 r.count - r.claimT).toNat then
    .done { r with claimT := r.claimT + BitVec.ofNat 32 n }
  else .wait

/-- `rwf` by n (R34). -/
def Ring.claim (r : Ring) (n : Nat) : RingRes :=
  if n = 0 ∨ r.count < n then .error
  else if n ≤ (r.tail - r.claimH).toNat ∧ seqLe r.claimH r.tail = true then
    .done { r with claimH := r.claimH + BitVec.ofNat 32 n }
  else .wait

/-- A handle of the strand. -/
def Strand.ring (t : Strand) (h : Nat) : Ring := vget t.rings h Ring.unbound

/-- Replace a handle. -/
def Strand.setRing (t : Strand) (h : Nat) (r : Ring) : Strand := { t with rings := vput t.rings h r }

/-- Raise RINGOV for a handle or, from 0x40, a stream register. -/
def trapRing {α : Type} (h : Nat) : M α := trapM .ringov 0 (BitVec.ofNat 64 h)

/-- Apply a ring operation to handle `h`; a wait is of kind 1 (fill) or 2 (room). -/
def ringOp (h : Nat) (kind : Nat) (f : Ring → RingRes) : M Unit := do
  match f ((← getSt).ring h) with
  | .done r => modSt fun t => t.setRing h r
  | .error => trapRing h
  | .wait => waitM kind h

/-- The handle that an entry names (R33): a field of class H, or H of the completion word of a copy word with a ring
route. -/
def Entry.namesRing (e : Entry) (h : Nat) : Bool :=
  match e.word with
  | .vLdh _ y .. | .vSth _ y .. => y.toNat == h
  | .cCp _ _ _ m _ => 4 ≤ m.toNat && bits e.extA.toNat 20 4 == h
  | _ => false

/-- The count of a ring word (R191). -/
def ringCount (t : Strand) (a : Reg) (i : BitVec 4) : Nat := (t.reg a + i.setWidth 64).toNat

/-- `rbind` (R33, R191). -/
def execRbind (a h : Reg) (s : State) : Host.Outcome State Fault Refusal :=
  scalarM (.rbind a h) s fun _ => do
    let t ← getSt
    if t.queues.toList.any fun q => q.any fun e => e.namesRing h.toNat then waitM 0 h.toNat
    match ringOfWord (t.reg a) t.spadSize with
    | none => trapRing h.toNat
    | some r => modSt fun t => t.setRing h.toNat r
    return none

/-- `rwe` (R34, R191). -/
def execRwe (d a h : Reg) (i : BitVec 4) (s : State) : Host.Outcome State Fault Refusal :=
  scalarM (.rwe d a h i) s fun _ => do
    let t ← getSt
    ringOp h.toNat 2 fun r => r.reserve (ringCount t a i)
    modSt fun u => u.setReg d ((t.ring h.toNat).claimT.setWidth 64)
    return none

/-- `rwf` (R34, R191). -/
def execRwf (d a h : Reg) (i : BitVec 4) (s : State) : Host.Outcome State Fault Refusal :=
  scalarM (.rwf d a h i) s fun _ => do
    let t ← getSt
    ringOp h.toNat 1 fun r => r.claim (ringCount t a i)
    modSt fun u => u.setReg d ((t.ring h.toNat).claimH.setWidth 64)
    return none

/-- `radv.t` (R34, R191). -/
def execRadvT (a h : Reg) (i : BitVec 4) (s : State) : Host.Outcome State Fault Refusal :=
  scalarM (.radvT a h i) s fun _ => do
    let t ← getSt
    ringOp h.toNat 1 fun r => r.advanceTail (ringCount t a i)
    return none

/-- `radv.h` (R34, R191). -/
def execRadvH (a h : Reg) (i : BitVec 4) (s : State) : Host.Outcome State Fault Refusal :=
  scalarM (.radvH a h i) s fun _ => do
    let t ← getSt
    ringOp h.toNat 2 fun r => r.advanceHead (ringCount t a i)
    return none

/-! ## Stream registers (R38, R39) -/

/-- A format whose elements are integers (R122). -/
def fmtIsInt (fmt : Nat) : Bool := fmt == 1 || fmt == 7 || fmt == 8 || fmt == 9 || fmt == 10

/-- Take the next unit of a stream register for a reader (R38, R39): the unit, and the register after it; after its last
unit it is unbound. `inl false` is RINGOV, `inl true` a wait. -/
def Stream.take (w : Stream) (vector : Bool) : Sum Bool (List Elem × Stream) :=
  if !w.bound || w.vector != vector then .inl false
  else
    match w.units with
    | [] => if w.left = 0 then .inl false else .inl true
    | u :: rest => .inr (u, if rest.isEmpty && w.left == 0 then Stream.unbound else { w with units := rest })

/-- Read a stream register of the strand. -/
def readStream (n : Nat) (vector : Bool) : M (List Elem) := do
  match (vget (← getSt).streams n Stream.unbound).take vector with
  | .inl false => trapRing (64 + n)
  | .inl true => waitM 4 n
  | .inr (u, w) =>
    modSt fun t => { t with streams := vput t.streams n w }
    return u

/-- `rdw` (R192). -/
def execRdw (d a : Reg) (s : State) : Host.Outcome State Fault Refusal :=
  scalarM (.rdw d a) s fun _ => do
    let w := vget (← getSt).streams a.toNat Stream.unbound
    let u ← readStream a.toNat false
    let e := u.headD 0
    modSt fun t => t.setReg d (if fmtIsInt w.fmt then e.signExtend 64 else e.setWidth 64)
    return none

/-! ## Barriers (R41 to R43) -/

/-- A generation completes when ARRIVED = EXPECT and PENDING = 0 (R42). -/
def Barrier.settle (b : Barrier) : Barrier :=
  if b.arrived = b.expect ∧ b.pending = 0 then { b with arrived := 0, gen := b.gen + 1 } else b

/-- PENDING plus a count; none where it leaves the signed 32-bit range. -/
def Barrier.addPending (b : Barrier) (n : Int) : Option Barrier :=
  let p := b.pending.toInt + n
  if -(2 ^ 31) ≤ p ∧ p < 2 ^ 31 then some { b with pending := BitVec.ofInt 32 p } else none

/-- A strand arrival at one copy (R43); none where the copy refuses it. -/
def Barrier.arrive (b : Barrier) (bytes : Int) : Option Barrier :=
  if b.expect = 0 ∨ b.arrived = b.expect then none
  else (b.addPending bytes).map fun c => { c with arrived := c.arrived + 1 }.settle

/-- Bytes expected at the strand's own copy (R43). -/
def Barrier.expectBytes (b : Barrier) (bytes : Int) : Option Barrier :=
  if b.expect = 0 then none else (b.addPending bytes).map Barrier.settle

/-- Bytes landing at a copy (R43). -/
def Barrier.land (b : Barrier) (bytes : Nat) : Option Barrier := (b.addPending (-(bytes : Int))).map Barrier.settle

/-- An engine completion arrival at a copy (R43). -/
def Barrier.engineArrive (b : Barrier) : Option Barrier :=
  if b.expect = 0 ∨ b.arrived = b.expect then none else some { b with arrived := b.arrived + 1 }.settle

/-- Words 0 and 1 of a copy (R41). -/
def Barrier.word0 (b : Barrier) : Word := b.mask ++ b.gen ++ b.arrived ++ b.expect
def Barrier.word1 (b : Barrier) : Word := b.pending.setWidth 64

/-- A strand's copy of barrier `g`. -/
def Strand.bar (t : Strand) (g : Nat) : Barrier := vget t.bars g Barrier.fresh

/-- Replace a strand's copy. -/
def Strand.setBar (t : Strand) (g : Nat) (b : Barrier) : Strand := { t with bars := vput t.bars g b }

/-- Raise BAROV for a barrier. -/
def trapBar {α : Type} (g : Nat) : M α := trapM .barov 0 (BitVec.ofNat 64 g)

/-- Change one strand's copy, if the copy does not refuse. -/
def Strand.tryBar (t : Strand) (g : Nat) (f : Barrier → Option Barrier) : Strand :=
  match f (t.bar g) with | some b => t.setBar g b | none => t

/-- Send an operation to the copies of the members in a mask: each accepts it or refuses it on its own (R43). The answer
says whether some copy refused. -/
def State.broadcast (s : State) (g : Nat) (mask : BitVec 16) (f : Barrier → Option Barrier) : State × Bool :=
  let gang := s.st.place.gang
  let named := fun t : Strand => t.place.gang == gang && mask.getLsbD t.place.member
  let refused := (s.st :: s.others).any fun t => named t && (f (t.bar g)).isNone
  ({ s with
    st := if named s.st then s.st.tryBar g f else s.st
    others := s.others.map fun t => if named t then t.tryBar g f else t }, refused)

/-- `bar.init` (R43, R193). -/
def execBarInit (g a b : Reg) (s : State) : Host.Outcome State Fault Refusal :=
  scalarM (.barInit g a b) s fun _ => do
    let t ← getSt
    let count := (t.reg a).toNat
    let mask := (t.reg b).toNat
    if count = 0 ∨ 65535 < count ∨ mask = 0 ∨ 2 ^ t.place.size ≤ mask then trapBar g.toNat
    let r := (← get).broadcast g.toNat (BitVec.ofNat 16 mask) fun c =>
      if c.arrived ≠ 0 ∨ c.pending ≠ 0 then none
      else some { c with expect := BitVec.ofNat 16 count, mask := BitVec.ofNat 16 mask, arrived := 0, pending := 0 }
    set r.1
    if r.2 then trapBar g.toNat
    return none

/-- The byte count of a barrier word: sA + I4 as a signed number (R193); none outside the signed 32-bit range. -/
def barBytes (t : Strand) (a : Reg) (i : BitVec 4) : Option Int :=
  let n := (t.reg a + i.setWidth 64).toInt
  if -(2 ^ 31) ≤ n ∧ n < 2 ^ 31 then some n else none

/-- `bar.arr` (R43, R193): sent to every copy in MASK; the generation recorded is the one before the arrival, unless the
strand's own copy refuses it. -/
def execBarArr (d a h : Reg) (i : BitVec 4) (s : State) : Host.Outcome State Fault Refusal :=
  scalarM (.barArr d a h i) s fun _ => do
    let t ← getSt
    let own := t.bar h.toNat
    match barBytes t a i with
    | none => trapBar h.toNat
    | some bytes =>
      if own.expect = 0 then trapBar h.toNat
      if (own.arrive bytes).isSome then modSt fun t => t.setBar h.toNat { own with recorded := some own.gen }
      let r := (← get).broadcast h.toNat own.mask fun c => c.arrive bytes
      set r.1
      if r.2 then trapBar h.toNat
      modSt fun t => t.setReg d (own.gen.setWidth 64)
      return none

/-- `bar.exp` (R43, R193). -/
def execBarExp (a h : Reg) (i : BitVec 4) (s : State) : Host.Outcome State Fault Refusal :=
  scalarM (.barExp a h i) s fun _ => do
    let t ← getSt
    match barBytes t a i with
    | none => trapBar h.toNat
    | some bytes =>
      match (t.bar h.toNat).expectBytes bytes with
      | none => trapBar h.toNat
      | some b => modSt fun t => t.setBar h.toNat b
      return none

/-- `bar.wait` (R43, R193): I4 = 1 reads GEN without waiting. -/
def execBarWait (d h : Reg) (i : BitVec 4) (s : State) : Host.Outcome State Fault Refusal :=
  scalarM (.barWait d h i) s fun _ => do
    let b := (← getSt).bar h.toNat
    if i = 0 ∧ b.recorded = some b.gen then waitM 3 h.toNat
    modSt fun t => t.setReg d (b.gen.setWidth 64)
    return none

end Sys2Proof.Machine
end

