-- ==== Sys2Proof/Machine/Transcend.lean ====
section
/-! DEFINITION. The transcendental functions to the bit (R226 to R229), with their constant tables, and the counter
generator (R230). -/

namespace Sys2Proof.Machine

/-! ## exp2 (R226) -/

/-- T[j] = round(2^(30 + j/64)). -/
def exp2Table : List Nat :=
  [1073741824, 1085434106, 1097253708, 1109202018, 1121280436, 1133490379, 1145833280, 1158310587] ++
  [1170923762, 1183674286, 1196563654, 1209593378, 1222764986, 1236080024, 1249540052, 1263146652] ++
  [1276901417, 1290805962, 1304861917, 1319070932, 1333434672, 1347954824, 1362633090, 1377471191] ++
  [1392470869, 1407633882, 1422962010, 1438457051, 1454120821, 1469955159, 1485961921, 1502142985] ++
  [1518500250, 1535035634, 1551751076, 1568648537, 1585730000, 1602997467, 1620452965, 1638098541] ++
  [1655936265, 1673968228, 1692196547, 1710623359, 1729250827, 1748081133, 1767116489, 1786359126] ++
  [1805811301, 1825475297, 1845353420, 1865448001, 1885761398, 1906295993, 1927054196, 1948038440] ++
  [1969251188, 1990694927, 2012372174, 2034285470, 2056437387, 2078830522, 2101467502, 2124350982]

/-- floor(a × b ÷ 2^30). -/
def mulShift (a b : Nat) : Nat := a * b / 2 ^ 30

/-- The significand m of R226 for a 24-bit fraction f; C1, C2 and C3 are 744261118, 257941248 and 59597083. -/
def exp2Frac (f : Nat) : Nat :=
  let u := f % 2 ^ 18 * 2 ^ 6
  let p := mulShift 59597083 u
  let p := mulShift (257941248 + p) u
  let p := mulShift (744261118 + p) u
  let t := exp2Table.getD (f / 2 ^ 18) 0
  t + mulShift t p

/-- `exp2_dev` (R226). -/
def exp2Dev (x : BitVec 32) : BitVec 32 × Flags :=
  match fpOf x with
  | .nan => (nan32, 0)
  | .inf neg => (if neg then 0 else 0x7F800000, 0)
  | .fin neg m e =>
    let a := Frac.ofDyadic m e
    if !neg && (Frac.mk 128 1).le a then (0x7F800000, fOVF ||| fINX)
    else if neg && (Frac.mk 150 1).lt a then (0, fUNF ||| fINX)
    else
      let k := (roundInt 0 neg 0 (Frac.ofDyadic m (e + 24))).1
      let xi : Int := if neg then -(k : Int) else k
      let i := xi / 2 ^ 24
      let f := (xi - i * 2 ^ 24).toNat
      toFp32 0 0 (.fin false (exp2Frac f) (i - 30))

/-! ## log2 (R227) -/

/-- L[j] = round(2^30 × log2(1 + j/64)). -/
def log2Table : List Nat :=
  [0, 24017256, 47667823, 70962728, 93912511, 116527248, 138816582, 160789745] ++
  [182455581, 203822568, 224898839, 245692198, 266210141, 286459867, 306448299, 326182095] ++
  [345667660, 364911162, 383918542, 402695523, 421247625, 439580170, 457698295, 475606957] ++
  [493310944, 510814882, 528123241, 545240343, 562170370, 578917365, 595485245, 611877800] ++
  [628098702, 644151509, 660039669, 675766525, 691335320, 706749198, 722011213, 737124328] ++
  [752091421, 766915285, 781598637, 796144114, 810554283, 824831638, 838978604, 852997541] ++
  [866890747, 880660455, 894308843, 907838029, 921250079, 934547002, 947730758, 960803257] ++
  [973766362, 986621888, 999371606, 1012017244, 1024560487, 1037002979, 1049346328, 1061592099]

/-- R[j] = round(2^36 ÷ (64 + j)). -/
def recipEntry (j : Nat) : Nat := (2 ^ 37 / (64 + j) + 1) / 2

/-- floor(a × r ÷ 2^30). -/
def mulShiftInt (a r : Int) : Int := a * r / 2 ^ 30

/-- The sum L[j] + p of R227 for a 23-bit fraction; D1 to D4 are 1549082005, -774541002, 516360668 and -387270501. -/
def log2Frac (fr : Nat) : Int :=
  let j := fr / 2 ^ 17
  let r : Int := ((2 ^ 30 + fr * 2 ^ 7) * recipEntry j / 2 ^ 30 : Nat) - 2 ^ 30
  let p := mulShiftInt (-387270501) r
  let p := mulShiftInt (516360668 + p) r
  let p := mulShiftInt ((-774541002) + p) r
  let p := mulShiftInt (1549082005 + p) r
  (log2Table.getD j 0 : Int) + p

/-- `log2_dev` (R227). -/
def log2Dev (x : BitVec 32) : BitVec 32 × Flags :=
  match fpOf x with
  | .nan => (nan32, 0)
  | .inf neg => if neg then (nan32, fINV) else (0x7F800000, 0)
  | .fin neg m e =>
    if m = 0 then (0xFF800000, 0)
    else if neg then (nan32, fINV)
    else
      let lead := Nat.log2 m
      let fr := m * 2 ^ (23 - lead) - 2 ^ 23
      let v := ((lead : Int) + e) * 2 ^ 30 + log2Frac fr
      toFp32 0 0 (.fin (decide (v < 0)) v.natAbs (-30))

/-! ## Reciprocal and reciprocal square root (R228) -/

/-- `rcp_dev`. -/
def rcpDev (y : BitVec 32) : BitVec 32 × Flags := div32 0x3F800000 y

/-- 1 ÷ √y of a positive finite value: 400 fraction bits and a sticky bit decide the rounding. -/
def rsqFin (m : Nat) (e : Int) : BitVec 32 × Flags :=
  let a := Frac.ofDyadic m e
  let n := 2 ^ 400 * a.den
  let q := isqrt (n / a.num)
  let exact := q * q * a.num == n
  toFp32 0 0 (.fin false (2 * q + (!exact).toNat) (-201))

/-- `v.rsq` of one element. -/
def rsqDev (y : BitVec 32) : BitVec 32 × Flags :=
  match fpOf y with
  | .nan => (nan32, 0)
  | .inf neg => if neg then (nan32, fINV) else (0, 0)
  | .fin neg m e =>
    if m = 0 then (if neg then 0xFF800000 else 0x7F800000, 0)
    else if neg then (nan32, fINV)
    else rsqFin m e

/-! ## Sigmoid and hyperbolic tangent (R229) -/

/-- LOG2E. -/
def log2e : BitVec 32 := 0x3FB8AA3B

/-- The flags that a final rounding may raise in R229. -/
def finalFlags (r : BitVec 32 × Flags) : BitVec 32 × Flags := (r.1, r.2 &&& (fUNF ||| fINX))

/-- `sigm_dev`. -/
def sigmDev (x : BitVec 32) : BitVec 32 × Flags :=
  if isNan32 x then (nan32, 0)
  else
    let t := (mul32 0 0 (x ^^^ 0x80000000) log2e).1
    let d := (add32 0 0 0x3F800000 (exp2Dev t).1).1
    finalFlags (rcpDev d)

/-- `tanh_dev`. -/
def tanhDev (x : BitVec 32) : BitVec 32 × Flags :=
  let a := x &&& 0x7FFFFFFF
  let sign := x &&& 0x80000000
  if isNan32 x then (nan32, 0)
  else if fpLt (fpOf a) (.fin false 1 (-12)) then (x, 0)
  else if !fpLt (fpOf a) (.fin false 16 0) then (sign ||| 0x3F800000, 0)
  else
    let m2a := (fpMul (fpOf a) (.fin true 2 0)).1
    let t := (toFp32 0 0 (fpMul m2a (fpOf log2e)).1).1
    let y := (exp2Dev t).1
    let q := finalFlags (div32 (sub32 0 0 0x3F800000 y).1 (add32 0 0 0x3F800000 y).1)
    (sign ||| (q.1 &&& 0x7FFFFFFF), q.2)

/-! ## The counter generator (R230) -/

/-- Rotate left. -/
def rotl32 (x : BitVec 32) (n : Nat) : BitVec 32 := (x <<< n) ||| (x >>> (32 - n))

/-- The rounds of `rng_out` from round `i`: the rotations that are left. -/
def rngRounds (ks : Nat → BitVec 32) : List Nat → Nat → BitVec 32 → BitVec 32 → BitVec 32
  | [], _, x0, x1 => x0 ^^^ x1
  | rot :: rest, i, x0, x1 =>
    let x0 := x0 + x1
    let x1 := rotl32 x1 rot ^^^ x0
    if i % 2 = 1 then
      let s := (i + 1) / 2
      rngRounds ks rest (i + 1) (x0 + ks (s % 3)) (x1 + ks ((s + 1) % 3) + BitVec.ofNat 32 s)
    else rngRounds ks rest (i + 1) x0 x1

/-- `rng_out` for key and counter value. -/
def rngOut (key c : BitVec 64) : BitVec 32 :=
  let k0 := key.setWidth 32
  let k1 := (key >>> 32).setWidth 32
  let ks : Nat → BitVec 32 := fun i => match i with | 0 => k0 | 1 => k1 | _ => k0 ^^^ k1 ^^^ 0x9E3779B9
  rngRounds ks [7, 19, 11, 25, 3, 22, 14, 28, 9, 17] 0 (c.setWidth 32 + ks 0) ((c >>> 32).setWidth 32 + ks 1)

end Sys2Proof.Machine
end

