-- ==== Sys2Proof/Machine/Engines.lean ====
section
/-! DEFINITION. What the engine families share: the progress of the word being performed, its rounding and draws, stream
units, scratchpad locks and accesses (R20, R77, R80, R93, R139, R206, R210). -/

namespace Sys2Proof.Machine

/-- The progress of the word being performed. -/
def getWork : M Progress := do return (← get).st.work

/-- Change it. -/
def modWork (f : Progress → Progress) : M Unit := modSt fun t => { t with work := f t.work }

/-- Flags of the word being performed: they are set when it is performed (R143). -/
def setFlags (f : Flags) : M Unit := modWork fun w => { w with flags := w.flags ||| f }

/-- The rounding mode of a word: `x.rnd`, or FCTL.RMODE (R20, R93). -/
def roundMode (x : Entry) : M Nat := do
  match x.pfx.rnd with
  | some m => return m.toNat
  | none => return (← getSt).csr.rmode.toNat

/-- Take `n` counter values (R139, R210): the first of them stays in the progress of the word. -/
def takeDraws (n : Nat) : M Unit :=
  modSt fun t => { t with
    work := { t.work with drawBase := t.csr.rngCtr }
    csr := { t.csr with rngCtr := t.csr.rngCtr + BitVec.ofNat 64 n } }

/-- The draw of position `j` of the word being performed (R139). -/
def Strand.draw (t : Strand) (j : Nat) : Nat := (rngOut t.csr.rngKey (t.work.drawBase + BitVec.ofNat 64 j)).toNat

/-- A stream register field: its number (R88). -/
def streamNo (r : Reg) : Option Nat := if 32 ≤ r.toNat ∧ r.toNat < 40 then some (r.toNat - 32) else none

/-- Every stream register that a word names has a unit (R38, R206): otherwise it traps RINGOV or waits. -/
def checkStreams (rs : List Reg) : M Unit :=
  eachM (rs.filterMap streamNo) fun n => do
    match (vget (← getSt).streams n Stream.unbound).take true with
    | .inl false => trapRing (64 + n)
    | .inl true => waitM 4 n
    | .inr _ => pure ()

/-- Consume one unit of each stream register that a word names; the word holds them until it is performed (R206). -/
def takeStreams (rs : List Reg) : M Unit :=
  eachM (rs.filterMap streamNo) fun n => do
    let u ← readStream n true
    modWork fun w => { w with held := (n, u) :: w.held }

/-- Start a word, once: its stream units and `draws` counter values are taken (R206, R210). -/
def startWord (rs : List Reg) (draws : Nat) : M Unit := do
  if (← getWork).started then return ()
  checkStreams rs
  takeStreams rs
  if draws ≠ 0 then takeDraws draws
  modWork fun w => { w with started := true }

/-- Scratchpad ranges, first and beyond last, that another engine word locks: the access waits (R80). -/
def spadFree (ranges : List (Nat × Nat)) : M Unit := do
  let s ← get
  if ranges.any fun r => decide (r.1 < r.2) && s.locked s.st r.1 (r.2 - r.1) then waitM 0 0

/-- Lock the scratchpad bytes that a word will write, all at once (R80). -/
def spadLock (ranges : List (Nat × Nat)) : M Unit := do
  spadFree ranges
  modWork fun w => { w with locks := ranges }

/-- Read `n` bytes of the scratchpad of the current strand; bytes outside the allocation trap PAGE with kind 2. -/
def spadBytes (off n : Nat) : M (List Byte) := do
  let t ← getSt
  if t.spadSize < off + n then trapPage 2 (max off t.spadSize)
  return t.spad.readBytes off n

/-- Write bytes to the scratchpad of the current strand. -/
def spadPut (off : Nat) (bs : List Byte) : M Unit := do
  let t ← getSt
  if t.spadSize < off + bs.length then trapPage 2 (max off t.spadSize)
  modSt fun t => { t with spad := t.spad.writeBytes off bs }

/-- Translate an engine's access and check the line (R212, R242): both report the line. -/
def mapEngine (eng slot va : Nat) (acc : AccessKind) : M Mapped := do
  let l ← sealedAs (va / 64 * 64) (locate eng slot va acc)
  l.sealed (va / 64 * 64)
  checkLine l.m.pa (va / 64 * 64)
  l.use
  return l.m

/-- The bytes of engine-side memory at a physical address, as the strand's engines read them (R76). -/
def memBytes (pa n : Nat) : M (List Byte) := do
  let s ← get
  return s.peekBytes s.st.who pa n

/-- A number at its home, the latest write in coherence order (R65): what a bank reads. -/
def homeNat (pa n : Nat) : M Nat := do return (← get).mem.readNat pa n

/-- An engine's write to memory (R77). -/
def memPut (pa : Nat) (bs : List Byte) : M Unit := modify fun s => s.engineWrite pa bs

/-- The port of a format descriptor over scratchpad, and the descriptor's check (R121, R215): a bad one traps PAGE with
kind 3 at the offset. -/
def descFmt (d off : Nat) : M Fmt := do
  if !descOk (d % 256) then trapFormat off
  return fmtOf d

/-- The attribute of a byte's page, or none where an access would trap; it may wait for the page. -/
def Port.tryAttr (p : Port) (a : Nat) : M (Option Nat) := fun s =>
  match p.attrOf a s with
  | .ok r s' => .ok (some r) s'
  | .error (.trap _) _ => .ok none s
  | .error w s' => .error w s'

/-- The attribute of a byte's page where it can be had at once; nothing is changed. -/
def Port.probe (p : Port) (a : Nat) : M (Option Nat) := fun s =>
  match p.attrOf a s with
  | .ok r _ => .ok (some r) s
  | .error _ _ => .ok none s

/-- The attribute that a word takes from the page of the first byte of its element `c` in the row at `b0` (R528). Where an
element lies depends on the attribute; it is sought from the page of the row's first byte, and as a 32-bit format where
that page gives none (log 16). -/
def Port.attrAt (p : Port) (b0 c : Nat) : M Nat := do
  let a0 := b0 % 2 ^ 64
  if c = 0 then return ← p.attrOf a0
  let guess := (← p.probe a0).getD 0
  p.attrOf (((fmtOf guess).place b0 c).1 % 2 ^ 64)

end Sys2Proof.Machine
end

