-- ==== Sys2Proof/Machine/Vector.lean ====
section
/-! DEFINITION. What the vector engine does when it performs a word (R205 to R232). -/

namespace Sys2Proof.Machine

/-! ## Registers and predicates (R205, R94) -/

/-- Element `e` of a vector register. -/
def Strand.velem (t : Strand) (r : Reg) (e : Nat) : Elem := vget (vget t.vec.v r.toNat (Vector.replicate 1024 0)) e 0

/-- Replace a vector register; its dirty bit is set (R235). -/
def Strand.setV (t : Strand) (r : Reg) (v : VReg) : Strand :=
  { t with vec := { t.vec with v := vput t.vec.v r.toNat v, dirty := t.vec.dirty ||| BitVec.ofNat 24 (2 ^ r.toNat) } }

/-- Replace one element. -/
def Strand.setElem (t : Strand) (r : Reg) (e : Nat) (x : Elem) : Strand :=
  t.setV r (vput (vget t.vec.v r.toNat (Vector.replicate 1024 0)) e x)

/-- A predicate register. -/
def Strand.pred (t : Strand) (p : Nat) : BitVec 1024 := vget t.vec.p p 0

/-- Replace a predicate; its dirty bit is set (R235). -/
def Strand.setP (t : Strand) (p : Reg) (v : BitVec 1024) : Strand :=
  { t with vec := { t.vec with
    p := vput t.vec.p p.toNat v, dirty := t.vec.dirty ||| BitVec.ofNat 24 (2 ^ (16 + p.toNat)) } }

/-- Replace one bit of a predicate. -/
def Strand.setPBit (t : Strand) (p : Reg) (e : Nat) (b : Bool) : Strand :=
  let old := t.pred p.toNat
  let m : BitVec 1024 := 1#1024 <<< e
  t.setP p (if b then old ||| m else old &&& ~~~m)

/-- The elements that a word acts on (R94). -/
def Strand.active (t : Strand) (x : Entry) (e : Nat) : Bool :=
  match x.pfx.pm with
  | none => true
  | some (_, n, p) => (t.pred p.toNat).getLsbD e != n

/-- Inactive elements of the destination become 0 (R94). -/
def Entry.zeroing (x : Entry) : Bool := match x.pfx.pm with | some (z, _, _) => z | none => false

/-- Some element is active: a word that performs none consumes no stream unit (R206). -/
def Strand.anyActive (t : Strand) (x : Entry) : Bool := (genFrom 1024 0 (t.active x)).any id

/-- A source of class VW: a register, or the unit that the word holds (R206). -/
def Strand.vsrc (t : Strand) (r : Reg) : Nat → Elem :=
  match streamNo r with
  | none => t.velem r
  | some n => let a := (assoc t.work.held n []).toArray; fun e => a.getD e 0

/-- Start a vector word: its stream units, unless no element is active, and its draws under mode rs. A scaled store whose
elements are all inactive still writes its blocks (R214), but it stores no element of its source: that it consumes no unit
is DESIGN CHOICE (R206 does not say; log 24). -/
def startV (x : Entry) (rs : List Reg) (mode : Nat) : M Unit := do
  let t ← getSt
  startWord (if t.anyActive x then rs else []) (if mode = 4 then 1024 else 0)

/-- Write the active elements of vX with what `f` gives, and the flags it raises (R94, R208). -/
def writeElems (x : Entry) (d : Reg) (f : Nat → Elem × Flags) : M Unit := do
  let t ← getSt
  let act := t.active x
  let rs := (genFrom 1024 0 fun e =>
    if act e then f e else (if x.zeroing then 0 else t.velem d e, 0)).toArray
  modSt fun t => t.setV d (vecGen 1024 fun e => (rs.getD e (0, 0)).1)
  setFlags (rs.foldl (fun a r => a ||| r.2) 0)

/-- Write the active bits of pX with what `f` gives (R222). -/
def writeBits (x : Entry) (d : Reg) (f : Nat → Bool × Flags) : M Unit := do
  let t ← getSt
  let act := t.active x
  let old := t.pred d.toNat
  let rs := genFrom 1024 0 fun e =>
    if act e then f e else (if x.zeroing then false else old.getLsbD e, 0)
  modSt fun t => t.setP d (BitVec.ofNat 1024 (rs.foldr (fun r n => 2 * n + r.1.toNat) 0))
  setFlags (rs.foldl (fun a r => a ||| r.2) 0)

/-- An element-wise word of two sources; `f` takes the rounding mode, the draw, and the operands. -/
def elemWise2 (x : Entry) (d y z : Reg) (rnd : Bool) (f : Nat → Nat → Elem → Elem → Elem × Flags) : M Unit := do
  let mode ← if rnd then roundMode x else pure 0
  startV x [y, z] mode
  let t ← getSt
  let a := t.vsrc y
  let b := t.vsrc z
  writeElems x d fun e => f mode (if mode = 4 then t.draw e else 0) (a e) (b e)

/-- An element-wise word of one source. -/
def elemWise1 (x : Entry) (d y : Reg) (rnd : Bool) (f : Nat → Nat → Elem → Elem × Flags) : M Unit := do
  let mode ← if rnd then roundMode x else pure 0
  startV x [y] mode
  let t ← getSt
  let a := t.vsrc y
  writeElems x d fun e => f mode (if mode = 4 then t.draw e else 0) (a e)

/-- An integer or bitwise word: no flag (R221). -/
def intWise (x : Entry) (d y z : Reg) (f : Elem → Elem → Elem) : M Unit :=
  elemWise2 x d y z false fun _ _ a b => (f a b, 0)

/-! ## Moves and constants (R219) -/

/-- `v.mov`. -/
def performVMov (d y : Reg) (x : Entry) : M Unit := elemWise1 x d y false fun _ _ a => (a, 0)

/-- `v.bcs`. -/
def performVBcs (d : Reg) (x : Entry) : M Unit := writeElems x d fun _ => (lowElem x.opY, 0)

/-- `v.iota`. -/
def performVIota (d : Reg) (x : Entry) : M Unit :=
  writeElems x d fun e => (lowElem x.opY + BitVec.ofInt 32 ((e : Int) * immValue x.word x.pfx), 0)

/-- `v.pset`: the first n bits are set. -/
def performVPset (d : Reg) (x : Entry) : M Unit :=
  let n := (max 0 (min 1024 (x.opY.toInt + immValue x.word x.pfx))).toNat
  modSt fun t => t.setP d (BitVec.ofNat 1024 (2 ^ n - 1))

/-! ## Element-wise arithmetic (R220, R221) -/

/-- `v.add`. -/
def performVAdd (d y z : Reg) (x : Entry) : M Unit := elemWise2 x d y z true add32
/-- `v.sub`. -/
def performVSub (d y z : Reg) (x : Entry) : M Unit := elemWise2 x d y z true sub32
/-- `v.mul`. -/
def performVMul (d y z : Reg) (x : Entry) : M Unit := elemWise2 x d y z true mul32

/-- `v.fma`: X is read before it is written. -/
def performVFma (d y z : Reg) (m : BitVec 2) (x : Entry) : M Unit := do
  let mode ← roundMode x
  startV x [y, z] mode
  let t ← getSt
  let a := t.vsrc y
  let b := t.vsrc z
  writeElems x d fun e =>
    fma32 mode (if mode = 4 then t.draw e else 0) (m.getLsbD 1) (m.getLsbD 0) (a e) (b e) (t.velem d e)

/-- `v.min`. -/
def performVMin (d y z : Reg) (x : Entry) : M Unit := elemWise2 x d y z false fun _ _ a b => (min32 a b, 0)
/-- `v.max`. -/
def performVMax (d y z : Reg) (x : Entry) : M Unit := elemWise2 x d y z false fun _ _ a b => (max32 a b, 0)
/-- `v.abs`. -/
def performVAbs (d y : Reg) (x : Entry) : M Unit := elemWise1 x d y false fun _ _ a => (a &&& 0x7FFFFFFF, 0)
/-- `v.neg`. -/
def performVNeg (d y : Reg) (x : Entry) : M Unit := elemWise1 x d y false fun _ _ a => (a ^^^ 0x80000000, 0)
/-- `v.iadd`. -/
def performVIadd (d y z : Reg) (x : Entry) : M Unit := intWise x d y z (· + ·)
/-- `v.isub`. -/
def performVIsub (d y z : Reg) (x : Entry) : M Unit := intWise x d y z (· - ·)

/-- `v.imul`: 24-bit operands, or the full product. -/
def performVImul (d y z : Reg) (full : Bool) (x : Entry) : M Unit :=
  intWise x d y z fun a b =>
    if full then a * b else (a.setWidth 24).signExtend 32 * (b.setWidth 24).signExtend 32

/-- `v.imulw`: the high half of the product. -/
def performVImulw (d y z : Reg) (uns : Bool) (x : Entry) : M Unit :=
  intWise x d y z fun a b =>
    if uns then BitVec.ofNat 32 (a.toNat * b.toNat / 2 ^ 32) else BitVec.ofInt 32 (a.toInt * b.toInt / 2 ^ 32)

/-- `v.and`. -/
def performVAnd (d y z : Reg) (x : Entry) : M Unit := intWise x d y z (· &&& ·)
/-- `v.or`. -/
def performVOr (d y z : Reg) (x : Entry) : M Unit := intWise x d y z (· ||| ·)
/-- `v.xor`. -/
def performVXor (d y z : Reg) (x : Entry) : M Unit := intWise x d y z (· ^^^ ·)
/-- `v.not`. -/
def performVNot (d y : Reg) (x : Entry) : M Unit := elemWise1 x d y false fun _ _ a => (~~~a, 0)
/-- `v.shl`. -/
def performVShl (d y z : Reg) (x : Entry) : M Unit := intWise x d y z fun a b => a <<< (b.toNat % 32)
/-- `v.shr`. -/
def performVShr (d y z : Reg) (x : Entry) : M Unit := intWise x d y z fun a b => a >>> (b.toNat % 32)
/-- `v.sha`. -/
def performVSha (d y z : Reg) (x : Entry) : M Unit := intWise x d y z fun a b => a.sshiftRight (b.toNat % 32)

/-- The lesser of two patterns, signed or unsigned. -/
def iminElem (uns : Bool) (a b : Elem) : Elem :=
  if uns then (if a.toNat ≤ b.toNat then a else b) else (if a.toInt ≤ b.toInt then a else b)

/-- The greater of two patterns. -/
def imaxElem (uns : Bool) (a b : Elem) : Elem :=
  if uns then (if a.toNat ≤ b.toNat then b else a) else (if a.toInt ≤ b.toInt then b else a)

/-- `v.imin`. -/
def performVImin (d y z : Reg) (uns : Bool) (x : Entry) : M Unit := intWise x d y z (iminElem uns)
/-- `v.imax`. -/
def performVImax (d y z : Reg) (uns : Bool) (x : Entry) : M Unit := intWise x d y z (imaxElem uns)

/-! ## Comparisons and predicates (R222) -/

/-- A comparison of two FP32 elements by M of `v.cmp`. -/
def cmpElem (m : BitVec 3) (a b : Elem) : Bool × Flags :=
  let y := fpOf a
  let z := fpOf b
  let un := isNan32 a || isNan32 b
  let inv : Flags := if un then fINV else 0
  match m.toNat with
  | 0 => (fpEq y z, 0)
  | 1 => (!fpEq y z, 0)
  | 2 => (fpLt y z, inv)
  | 3 => (fpLt y z || fpEq y z, inv)
  | 4 => (fpLt z y, inv)
  | 5 => (fpLt z y || fpEq y z, inv)
  | 6 => (un, 0)
  | _ => (!un, 0)

/-- A comparison of two patterns by M of `v.icmp`. -/
def icmpElem (m : BitVec 3) (a b : Elem) : Bool :=
  match m.toNat with
  | 0 => a == b
  | 1 => a != b
  | 2 => decide (a.toInt < b.toInt)
  | 3 => decide (a.toInt ≤ b.toInt)
  | 4 => decide (a.toNat < b.toNat)
  | _ => decide (a.toNat ≤ b.toNat)

/-- A word that writes a predicate from two sources. -/
def predWise (x : Entry) (d y z : Reg) (f : Elem → Elem → Bool × Flags) : M Unit := do
  startV x [y, z] 0
  let t ← getSt
  let a := t.vsrc y
  let b := t.vsrc z
  writeBits x d fun e => f (a e) (b e)

/-- `v.cmp`. -/
def performVCmp (d y z : Reg) (m : BitVec 3) (x : Entry) : M Unit := predWise x d y z (cmpElem m)
/-- `v.icmp`. -/
def performVIcmp (d y z : Reg) (m : BitVec 3) (x : Entry) : M Unit := predWise x d y z fun a b => (icmpElem m a b, 0)

/-- `v.sel`. -/
def performVSel (d y z : Reg) (m : BitVec 3) (x : Entry) : M Unit := do
  startV x [y, z] 0
  let t ← getSt
  let a := t.vsrc y
  let b := t.vsrc z
  let p := t.pred m.toNat
  writeElems x d fun e => (if p.getLsbD e then a e else b e, 0)

/-- `v.pand`. -/
def performVPand (d y z : Reg) (_ : Entry) : M Unit := modSt fun t => t.setP d (t.pred y.toNat &&& t.pred z.toNat)
/-- `v.por`. -/
def performVPor (d y z : Reg) (_ : Entry) : M Unit := modSt fun t => t.setP d (t.pred y.toNat ||| t.pred z.toNat)
/-- `v.pxor`. -/
def performVPxor (d y z : Reg) (_ : Entry) : M Unit := modSt fun t => t.setP d (t.pred y.toNat ^^^ t.pred z.toNat)
/-- `v.pnot`. -/
def performVPnot (d y : Reg) (_ : Entry) : M Unit := modSt fun t => t.setP d (~~~(t.pred y.toNat))

/-! ## Row axis and column axis (R223, R224) -/

/-- A word that moves elements: element e of the result is element `f e` of Y. -/
def permute (x : Entry) (d y : Reg) (f : Nat → Nat) : M Unit := do
  startV x [y] 0
  let t ← getSt
  let a := t.vsrc y
  writeElems x d fun e => (a (f e), 0)

/-- `v.rotr`. -/
def performVRotr (d y : Reg) (x : Entry) : M Unit :=
  permute x d y fun e => e / 64 * 64 + (((e % 64 : Nat) : Int) - immValue x.word x.pfx).emod 64 |>.toNat
/-- `v.rotc`. -/
def performVRotc (d y : Reg) (x : Entry) : M Unit :=
  permute x d y fun e => ((((e / 64 : Nat) : Int) - immValue x.word x.pfx).emod 16).toNat * 64 + e % 64
/-- `v.bcr`. -/
def performVBcr (d y : Reg) (x : Entry) : M Unit :=
  permute x d y fun e => e / 64 * 64 + (immValue x.word x.pfx).toNat
/-- `v.bcc`. -/
def performVBcc (d y : Reg) (x : Entry) : M Unit :=
  permute x d y fun e => (immValue x.word x.pfx).toNat * 64 + e % 64

/-- One level of the tree of R148: neighbours are added in pairs. -/
def treeLevel (add : Elem → Elem → Elem × Flags) : List (Elem × Flags) → List (Elem × Flags)
  | a :: b :: rest => let r := add a.1 b.1; (r.1, r.2 ||| a.2 ||| b.2) :: treeLevel add rest
  | l => l

/-- `n` levels of the tree. -/
def treeSum (add : Elem → Elem → Elem × Flags) : Nat → List (Elem × Flags) → List (Elem × Flags)
  | 0, l => l
  | n + 1, l => treeSum add n (treeLevel add l)

/-- A maximum or minimum over the active FP32 elements: NaN where they are all NaN, the identity where none is active
(R224). -/
def extremum (f : Elem → Elem → Elem) (ident : Elem) (l : List (Option Elem)) : Elem :=
  match l.filterMap id with
  | [] => ident
  | xs => if xs.all isNan32 then nan32 else (xs.filter fun a => !isNan32 a).foldl f ident

/-- The reduction of one row or column by M (R224); an inactive element is none. -/
def reduce (m : BitVec 3) (l : List (Option Elem)) : Elem × Flags :=
  let lv := Nat.log2 l.length
  match m.toNat with
  | 0 => (treeSum (fun a b => add32 0 0 a b) lv (l.map fun o => (o.getD 0x80000000, 0))).headD (0, 0)
  | 1 => (extremum max32 0xFF800000 l, 0)
  | 2 => (extremum min32 0x7F800000 l, 0)
  | 3 => (extremum max32 0 (l.map fun o => o.map (· &&& 0x7FFFFFFF)), 0)
  | 4 => (((l.map fun o => o.getD 0).foldl (· + ·) 0), 0)
  | 5 => ((l.map fun o => o.getD 0x80000000).foldl (imaxElem false) 0x80000000, 0)
  | _ => ((l.map fun o => o.getD 0x7FFFFFFF).foldl (iminElem false) 0x7FFFFFFF, 0)

/-- A reduction word: `n` lines of `len` elements, element j of line i standing at `idx i j`; `line e` is the line of
element e. -/
def reduceWord (x : Entry) (d y : Reg) (m : BitVec 3) (n len : Nat) (idx : Nat → Nat → Nat) (line : Nat → Nat) :
    M Unit := do
  startV x [y] 0
  let t ← getSt
  let a := t.vsrc y
  let act := t.active x
  let rs := (genFrom n 0 fun i =>
    reduce m (genFrom len 0 fun j => if act (idx i j) then some (a (idx i j)) else none)).toArray
  writeElems x d fun e => ((rs.getD (line e) (0, 0)).1, 0)
  setFlags (rs.foldl (fun f r => f ||| r.2) 0)

/-- `v.redr`. -/
def performVRedr (d y : Reg) (m : BitVec 3) (x : Entry) : M Unit :=
  reduceWord x d y m 16 64 (fun i j => 64 * i + j) (fun e => e / 64)
/-- `v.redc`. -/
def performVRedc (d y : Reg) (m : BitVec 3) (x : Entry) : M Unit :=
  reduceWord x d y m 64 16 (fun i j => 64 * j + i) (fun e => e % 64)

/-! ## Conversions and functions (R225 to R230) -/

/-- An integer as an exact value. -/
def fpOfInt (v : Int) : Fp := .fin (decide (v < 0)) v.natAbs 0

/-- `v.cvtf`. -/
def performVCvtf (d y : Reg) (uns : Bool) (x : Entry) : M Unit :=
  elemWise1 x d y true fun mode draw a => toFp32 mode draw (fpOfInt (if uns then a.toNat else a.toInt))

/-- `v.cvti`. -/
def performVCvti (d y : Reg) (uns : Bool) (x : Entry) : M Unit :=
  elemWise1 x d y true fun mode draw a =>
    let r := if uns then encodeInt 0 (2 ^ 32 - 1) mode draw (fpOf a)
      else encodeInt (-(2 ^ 31)) (2 ^ 31 - 1) mode draw (fpOf a)
    (BitVec.ofInt 32 r.1, r.2)

/-- The format code that M of `v.cvtq` names. -/
def cvtqFmt (m : BitVec 3) : Fmt :=
  ⟨match m.toNat with | 0 => 2 | 1 => 3 | 2 => 4 | 3 => 5 | _ => 6, 0, false⟩

/-- `v.cvtq`. -/
def performVCvtq (d y : Reg) (m : BitVec 3) (x : Entry) : M Unit :=
  elemWise1 x d y true fun mode draw a =>
    let f := cvtqFmt m
    let r := f.encode mode draw (fpOf a)
    ((f.decode r.1 0).1, r.2)

/-- `v.exp2`. -/
def performVExp2 (d y : Reg) (x : Entry) : M Unit := elemWise1 x d y false fun _ _ a => exp2Dev a
/-- `v.log2`. -/
def performVLog2 (d y : Reg) (x : Entry) : M Unit := elemWise1 x d y false fun _ _ a => log2Dev a
/-- `v.rcp`. -/
def performVRcp (d y : Reg) (x : Entry) : M Unit := elemWise1 x d y false fun _ _ a => rcpDev a
/-- `v.rsq`. -/
def performVRsq (d y : Reg) (x : Entry) : M Unit := elemWise1 x d y false fun _ _ a => rsqDev a
/-- `v.tanh`. -/
def performVTanh (d y : Reg) (x : Entry) : M Unit := elemWise1 x d y false fun _ _ a => tanhDev a
/-- `v.sigm`. -/
def performVSigm (d y : Reg) (x : Entry) : M Unit := elemWise1 x d y false fun _ _ a => sigmDev a

/-- What M makes of a draw (R230): the draw, or an exact FP32 value. -/
def rngShape (m : BitVec 2) (d : Nat) : Elem :=
  match m.toNat with
  | 0 => BitVec.ofNat 32 d
  | 1 => (toFp32 0 0 (.fin false (d / 256) (-24))).1
  | _ => (toFp32 0 0 (.fin false (d / 256 + 1) (-24))).1

/-- `v.rng`. -/
def performVRng (d : Reg) (m : BitVec 2) (x : Entry) : M Unit := do
  startWord [] 1024
  let t ← getSt
  writeElems x d fun e => (rngShape m (t.draw e), 0)

/-! ## Loads and stores (R211 to R217) -/

/-- Element `e` of the word is done. -/
def elemDone (e : Nat) : M Unit := modWork fun w => { w with count := e + 1 }

/-- First byte of row `r` of an image; addresses wrap (R211, R212). -/
def rowBase (base stride : Word) (r : Nat) : Nat := (base.toNat + r * stride.toNat) % 2 ^ 64

/-- The base and stride are multiples of the element size (R212, order 1). -/
def alignImage (f : Fmt) (base stride : Word) : M Unit := do
  if 2 ≤ f.bytes ∧ (base.toNat % f.bytes ≠ 0 ∨ stride.toNat % f.bytes ≠ 0) then trapM .align 0 base

/-- Load the active elements of an image through a port, from the first not yet performed (R213, R217). -/
def loadImage (x : Entry) (d : Reg) (p : Port) (attr : Nat) (base stride : Word) : M Unit := do
  let f := fmtOf attr
  let start := (← getWork).count
  if start = 0 then alignImage f base stride
  loopM (1024 - start) start fun e => do
    let t ← getSt
    if t.active x e then
      let r ← p.read attr f (rowBase base stride (e / 64)) (e % 64)
      modSt fun t => t.setElem d e r.1
      setFlags r.2
    else if x.zeroing then modSt fun t => t.setElem d e 0
    else pure ()
    elemDone e

/-- Store one element of an unscaled image (R213, R214). -/
def storeElem (x : Entry) (src : Reg) (p : Port) (attr : Nat) (base stride : Word) (mode e : Nat) : M Unit := do
  let t ← getSt
  let f := fmtOf attr
  if t.active x e then
    let fl ← p.write attr f (rowBase base stride (e / 64)) (e % 64) 64 (fun c => t.active x (e / 64 * 64 + c)) mode
      (if mode = 4 then t.draw e else 0) (f.source (t.vsrc src e))
    setFlags fl
  else pure ()
  elemDone e

/-- The rows of a scaled image begin on block boundaries; the word traps ALIGN before it writes anything (R135, R212 order
2). -/
def alignRows (f : Fmt) (base stride : Word) : M Unit := do
  match (genFrom 16 0 (rowBase base stride)).find? fun b0 => !f.onBlock b0 with
  | some b0 => trapM .align 0 (BitVec.ofNat 64 b0)
  | none => pure ()

/-- Store block `k` of a scaled image (R214): inactive elements are encoded as zero. -/
def storeBlock (x : Entry) (src : Reg) (p : Port) (attr : Nat) (base stride : Word) (mode k : Nat) : M Unit := do
  let t ← getSt
  let f := fmtOf attr
  let per := 64 / f.blockLen
  let b0 := rowBase base stride (k / per)
  let e0 := k * f.blockLen
  let fl ← p.writeBlock attr f b0 (k % per) mode (genFrom f.blockLen e0 fun e =>
    (if t.active x e then fpOf (t.vsrc src e) else .fin false 0 0, if mode = 4 then t.draw e else 0))
  setFlags fl
  elemDone (e0 + f.blockLen - 1)

/-- Store an image through a port (R213, R214). -/
def storeImage (x : Entry) (src : Reg) (p : Port) (attr : Nat) (base stride : Word) (mode : Nat) : M Unit := do
  let f := fmtOf attr
  let start := (← getWork).count
  if start = 0 then alignImage f base stride
  if f.scaled then
    if start = 0 then alignRows f base stride
    let k := start / f.blockLen
    loopM (1024 / f.blockLen - k) k (storeBlock x src p attr base stride mode)
  else loopM (1024 - start) start (storeElem x src p attr base stride mode)

/-- The first active element. -/
def Strand.firstActive (t : Strand) (x : Entry) : Option Nat := (genFrom 1024 0 id).find? (t.active x)

/-- The attribute that a memory word finds (R528); none where it accesses no element. A store to a scaled page accesses
every element of its blocks, element 0 the lowest (R214). -/
def findAttr (x : Entry) (p : Port) (base stride : Word) (store : Bool) : M (Option Nat) := do
  match (← getSt).firstActive x with
  | some e =>
    let a ← p.attrAt (rowBase base stride (e / 64)) (e % 64)
    if store && (fmtOf a).scaled && e != 0 then
      let a0 ← p.attrOf base.toNat
      return some (if (fmtOf a0).scaled then a0 else a)
    else return some a
  | none =>
    if !store then return none
    match ← p.tryAttr base.toNat with
    | some a => return (if (fmtOf a).scaled then some a else none)
    | none => return none

/-- The attribute of a memory word, fixed when it starts. -/
def imageAttr (x : Entry) (p : Port) (base stride : Word) (store : Bool) : M (Option Nat) := do
  match (← getWork).vals with
  | a :: _ => return some a
  | [] =>
    let a ← findAttr x p base stride store
    modWork fun w => { w with vals := a.toList }
    return a

/-- `v.ld` (R213). -/
def performVLd (d : Reg) (x : Entry) : M Unit := do
  startV x [] 0
  let p := memPort 1 (← getSt).place.slot .read true
  match ← imageAttr x p x.opY x.opZ false with
  | some a => loadImage x d p a x.opY x.opZ
  | none => loadImage x d p 0 0 0

/-- `v.st` (R213, R214). -/
def performVSt (src : Reg) (x : Entry) : M Unit := do
  let mode ← roundMode x
  startV x [src] mode
  let p := memPort 1 (← getSt).place.slot .write true
  match ← imageAttr x p x.opY x.opZ true with
  | some a => storeImage x src p a x.opY x.opZ mode
  | none => pure ()

/-- Scratchpad ranges of the rows of an image, with the scales of a scaled one (R80; log 9). -/
def imageRanges (f : Fmt) (base stride : Word) : List (Nat × Nat) :=
  (genFrom 16 0 fun r =>
    let b := rowBase base stride r
    let row := (b, b + f.footprint 64)
    if f.scaled then [row, (f.scaleByte b 0, f.scaleByte b 0 + 64 / f.blockLen)] else [row]).flatten

/-- `v.lds` (R215). -/
def performVLds (d : Reg) (x : Entry) : M Unit := do
  startV x [] 0
  let f ← descFmt x.extA.toNat x.opY.toNat
  spadFree (imageRanges f x.opY x.opZ)
  loadImage x d (spadPort (x.extA.toNat % 256)) (x.extA.toNat % 256) x.opY x.opZ

/-- `v.sts` (R215). -/
def performVSts (src : Reg) (x : Entry) : M Unit := do
  let mode ← roundMode x
  startV x [src] mode
  let f ← descFmt x.extA.toNat x.opY.toNat
  spadLock (imageRanges f x.opY x.opZ)
  storeImage x src (spadPort (x.extA.toNat % 256)) (x.extA.toNat % 256) x.opY x.opZ mode

/-- The slot of a ring word (R216): its checks, its wait, and the first byte. RINGOV comes first, then PAGE with kind 3 for a bad
descriptor, with TVAL the slot's offset, and both before the wait: DESIGN CHOICE, R216 gives no order of the three (log 66). -/
def ringSlot (h : Nat) (x : Entry) (produce : Bool) : M (Fmt × Nat) := do
  let r := (← getSt).ring h
  let d := x.extA.toNat % 256
  if r.count = 0 ∨ (fmtOf d).scaled = true ∨ r.slot * 64 < 16 * (fmtOf d).footprint 64 then trapRing h
  let p := lowElem x.opZ
  let f ← descFmt d (r.slotOffset p)
  let room := if produce then seqLe (p + 1) (r.head + BitVec.ofNat 32 r.count) else seqLe (p + 1) r.tail
  if !room then waitM (if produce then 2 else 1) h
  return (f, r.slotOffset p)

/-- `v.ldh` (R216). -/
def performVLdh (d h : Reg) (adv : Bool) (x : Entry) : M Unit := do
  let (f, off) ← ringSlot h.toNat x false
  startV x [] 0
  let base : Word := BitVec.ofNat 64 off
  let stride : Word := BitVec.ofNat 64 (f.footprint 64)
  spadFree (imageRanges f base stride)
  let a := x.extA.toNat % 256
  loadImage x d (spadPort a) a base stride
  if adv then ringOp h.toNat 2 fun r => r.advanceHead 1

/-- `v.sth` (R216). -/
def performVSth (src h : Reg) (adv : Bool) (x : Entry) : M Unit := do
  let mode ← roundMode x
  let (f, off) ← ringSlot h.toNat x true
  startV x [src] mode
  let base : Word := BitVec.ofNat 64 off
  let stride : Word := BitVec.ofNat 64 (f.footprint 64)
  spadLock (imageRanges f base stride)
  let a := x.extA.toNat % 256
  storeImage x src (spadPort a) a base stride mode
  if adv then ringOp h.toNat 1 fun r => r.advanceTail 1

/-! ## The stop test (R231, R232) -/

/-- The update of a stop record by a token: the new image, or none where it is unchanged, and the result bit. -/
def stopRecord (old : Nat) (tok : Nat) : Option Nat × Bool :=
  if bit old 72 then (none, true)
  else
    let n := min (bits old 0 32 + 1) (2 ^ 32 - 1)
    let limit := bits old 32 32
    let used := min (bits old 64 8) 12
    let hit := (genFrom used 0 fun k => bits old (128 + 32 * k) 32).contains tok
    let lim := limit != 0 && decide (limit ≤ n)
    let fin := hit || lim
    let reason := if hit then 1 else if lim then 2 else 0
    (some (setBits (setBits (setBits (setBits old 0 32 n) 96 32 tok) 72 1 fin.toNat) 73 3 reason), fin)

/-- `v.stop` (R232): each record is read, and written where it changes, in one step at its home. -/
def performVStop (d y : Reg) (x : Entry) : M Unit := do
  startV x [y] 0
  if x.opZ.toNat % 64 ≠ 0 then trapM .align 0 x.opZ
  let start := (← getWork).count
  loopM (1024 - start) start fun e => do
    let t ← getSt
    if t.active x e then
      let va := (x.opZ.toNat + 64 * e) % 2 ^ 64
      let m ← mapEngine 1 t.place.slot va .bankRead
      let r := stopRecord (← homeNat m.pa 64) (t.vsrc y e).toNat
      match r.1 with
      | some new =>
        let m ← mapEngine 1 t.place.slot va .bank
        memPut m.pa (bytesOfNat 64 new)
      | none => pure ()
      modSt fun t => t.setPBit d e r.2
    else if x.zeroing then modSt fun t => t.setPBit d e false
    else pure ()
    elemDone e

end Sys2Proof.Machine
end

