-- ==== Sys2Proof/Machine/Nest.lean ====
section
/-! DEFINITION. Loop nests: their descriptors (R246, R247), and how entries leave a queue, those of an open nest among them
(R14, R27, R233, R234, R249). -/

namespace Sys2Proof.Machine

/-! ## Loop-nest descriptors (R246, R247) -/

/-- NDIM of a descriptor. -/
def descDims (d : BitVec 512) : Nat := bits d.toNat 0 8

/-- BOUND k and STRIDE k. -/
def descBound (d : BitVec 512) (k : Nat) : Nat := bits d.toNat (64 + 64 * k + 40) 24
def descStride (d : BitVec 512) (k : Nat) : Int := sextNat (bits d.toNat (64 + 64 * k) 40) 40

/-- Iterations of a nest. -/
def descCount (d : BitVec 512) : Nat := (genFrom (descDims d) 0 (descBound d)).foldl (· * ·) 1

/-- The indices of iteration `i`, dimension 0 first. -/
def nestIndices (d : BitVec 512) (i : Nat) : List Nat :=
  (genFrom (descDims d) 0 (descBound d)).foldr (fun b f r => r % b :: f (r / b)) (fun _ => []) i

/-- Σ i_k × STRIDE k of a descriptor for given indices; a stride at or above its NDIM counts as 0 (R252). -/
def nestSum (d : BitVec 512) : List Nat → Nat → Int
  | [], _ => 0
  | i :: rest, k => (if k < descDims d then (i : Int) * descStride d k else 0) + nestSum d rest (k + 1)

/-- The offset of iteration `i` (R247). -/
def nestOffset (d : BitVec 512) (i : Nat) : Int := nestSum d (nestIndices d i) 0

/-- An image that `c.dsc` accepts (R248). -/
def descOkImage (d : BitVec 512) : Bool :=
  let n := descDims d
  1 ≤ n && n ≤ 6 && bits d.toNat 8 56 == 0 && bits d.toNat 448 64 == 0 &&
    (genFrom (6 - n) n fun k => bits d.toNat (64 + 64 * k) 64).all (· == 0)

/-! ## Entries -/

/-- The chain bit of a word (R25): bit 0 of every engine format. -/
def chainBit (i : Instr) : Bool := (encode i).getLsbD 0

/-- Replace entry `k` of the queue of engine `e`. -/
def Strand.setEntry (t : Strand) (e k : Nat) (x : Entry) : Strand := t.setQueue e ((t.queue e).set k x)

/-- Remove entries from `k` on, `n` of them. -/
def Strand.dropEntries (t : Strand) (e k n : Nat) : Strand :=
  let q := t.queue e
  t.setQueue e (q.take k ++ q.drop (k + n))

/-- The matrix queue's entry of a joined word (R411): it stands there for a word of the cache-context queue. -/
def Entry.isMark (x : Entry) (e : Nat) : Bool := e == 2 && x.word.engine == 6

/-- Iterations of the open nest of a loop entry. -/
def Entry.iterations (x : Entry) : Nat := descCount (BitVec.ofNat 512 (x.prog.vals.headD 0))

/-- The entry has opened its nest (R233). -/
def Entry.open (x : Entry) : Bool := x.isLoop && x.prog.started

/-- The place of an entry in the queue of an engine, by its number. -/
def Strand.placeOf (t : Strand) (e seq : Nat) : Option Nat := (t.queue e).findIdx? fun y => y.seq == seq

/-- The first number from `b` on of a body word that is not done ahead of the next one. The body words of an open nest are
numbered from the first of the iteration that is performed on: with bodies of `len` words, `n` is word `n % len` of the
iteration `n / len` after it (R234). -/
def Entry.nextBody (x : Entry) : Nat → Nat → Nat
  | 0, b => b
  | n + 1, b => if x.prog.done.contains b then x.nextBody n (b + 1) else b

/-- The number under which body word `b` may be performed now: in this iteration, or in the next where it is done in this one. -/
def Entry.bodyNo (x : Entry) (b : Nat) : Nat := if x.prog.body ≤ b then b else b + x.loopLen

/-- Body word `b` of the open nest at `k` has been performed: the nest goes on to the next body word, or iteration, and leaves
with its body after the last (R27, R233, R234). -/
def Strand.finishBody (t : Strand) (e k b : Nat) : Strand :=
  match (t.queue e)[k]? with
  | none => t
  | some x =>
    let t := match (t.queue e)[k + 1 + b]? with
      | some y => t.setEntry e (k + 1 + b) { y with prog := Progress.fresh }
      | none => t
    let x := { x with prog := { x.prog with done := x.bodyNo b :: x.prog.done } }
    let next := x.nextBody (x.loopLen + 1) x.prog.body
    if next < x.loopLen then t.setEntry e k { x with prog := { x.prog with body := next } }
    else if x.prog.count + 1 < x.iterations then
      t.setEntry e k { x with prog := { x.prog with
        body := next - x.loopLen
        done := (x.prog.done.filter fun n => x.loopLen ≤ n).map (· - x.loopLen)
        count := x.prog.count + 1 } }
    else t.dropEntries e k (x.loopLen + 1)

/-- The open nest in whose body entry `j` of a queue stands. -/
def Strand.nestOf (t : Strand) (e j : Nat) : Option Nat :=
  (genFrom j 0 id).find? fun k => match (t.queue e)[k]? with
    | some x => x.open && decide (j ≤ k + x.loopLen)
    | none => false

/-- The strand after the word of entry `j` of engine `e` is performed: it leaves its queue (R14), with the mark of a joined
word (R411), or its nest goes on. -/
def Strand.finish (t : Strand) (e j : Nat) : Strand :=
  match t.nestOf e j with
  | some k => t.finishBody e k (j - k - 1)
  | none =>
    match (t.queue e)[j]? with
    | none => t
    | some x =>
      let t := t.dropEntries e j 1
      if e = 6 then t.setQueue 2 ((t.queue 2).filter fun y => !(y.isMark 2 && y.seq == x.seq)) else t

/-- A nest with no iterations performs no body word: those that have been steered leave, and the loop word after the last
(R233). `count` counts those that have left. -/
def Strand.skipNest (t : Strand) (e k : Nat) : Option Strand :=
  match (t.queue e)[k]?, (t.queue e)[k + 1]? with
  | some x, some y =>
    if x.open && x.iterations == 0 && !y.isJoin && !y.isMark e then
      if x.prog.count + 1 < x.loopLen then
        some ((t.setEntry e k { x with prog := { x.prog with count := x.prog.count + 1 } }).dropEntries e (k + 1) 1)
      else some (t.dropEntries e k 2)
    else none
  | _, _ => none

end Sys2Proof.Machine
end

