-- ==== Sys2Proof/Machine/Copy.lean ====
section
/-! DEFINITION. What the copy engine does when it performs a word (R237 to R267), but for key-value gathers, peer
transfers and reduction windows. -/

namespace Sys2Proof.Machine

/-! ## The completion word (R239, R240, R298) -/

/-- Fields of a completion word. -/
structure Completion where
  h : Nat
  adv : Bool
  land : Bool
  arr : Bool
  g : Nat
  deriving DecidableEq, Repr

/-- The completion word in an operand. -/
def completionOf (w : Word) : Completion :=
  ⟨bits w.toNat 20 4, bit w.toNat 19, bit w.toNat 18, bit w.toNat 17, bits w.toNat 12 4⟩

/-- The checks of R240 before any unit; `spad` says that the word has a scratchpad destination. -/
def checkCompletion (c : Completion) (spad : Bool) : M Unit := do
  if (← getWork).started then return ()
  if c.land && !spad then trapBar c.g
  if (c.land || c.arr) && ((← getSt).bar c.g).expect == 0 then trapBar c.g

/-- Bytes land in the strand's own scratchpad (R43, R240): a refusal traps, and its count is never applied. -/
def landOwn (c : Completion) (n : Nat) : M Unit := do
  if c.land then
    match ((← getSt).bar c.g).land n with
    | some b => modSt fun t => t.setBar c.g b
    | none => trapBar c.g

/-- Give one completion signal, once (R240). -/
def signal (k : Nat) (m : M Unit) : M Unit := do
  if (← getWork).signals.contains k then return ()
  m
  modWork fun w => { w with signals := k :: w.signals }

/-- The completion arrival ARR (R43, R240). -/
def signalArr (c : Completion) : M Unit := do
  if c.arr then signal 1 do
    match ((← getSt).bar c.g).engineArrive with
    | some b => modSt fun t => t.setBar c.g b
    | none => trapBar c.g

/-- The signals of a performed word: ADV, on the ring of its route, then ARR. -/
def giveSignals (c : Completion) (ring : Option Bool) : M Unit := do
  match ring with
  | some dest =>
    if c.adv then signal 0 (ringOp c.h (if dest then 1 else 2) fun r => if dest then r.advanceTail 1 else r.advanceHead 1)
  | none => pure ()
  signalArr c

/-! ## Units (R241 to R244) -/

/-- Try a unit: false where it is set aside on a second-stage miss (R243), or is parked at a bank (R314). -/
def tryUnit (m : M Unit) : M Bool := fun s =>
  match m s with
  | .ok _ s' => .ok true s'
  | .error (.wait 7 _) s' => .ok false s'
  | .error (.wait 6 _) s' => .ok false s'
  | .error e s' => .error e s'

/-- A unit is performed: the count goes on past it, or it joins the done mask above a unit that is set aside. -/
def unitDone (k : Nat) (aside : List Nat) : M Unit :=
  modWork fun w =>
    if aside.isEmpty then { w with count := k + 1, done := w.done.filter (· != k) }
    else { w with done := if w.done.contains k then w.done else k :: w.done }

/-- A range of bytes: its space, its first byte and the byte beyond its last. -/
abbrev ByteRange := Nat × Nat × Nat

/-- Two lists of byte ranges overlap. -/
def rangesMeet (a b : List ByteRange) : Bool :=
  a.any fun x => b.any fun y => x.1 == y.1 && decide (x.2.1 < y.2.2 ∧ y.2.1 < x.2.2)

/-- Where a byte of memory lies for an engine, if its page is mapped: what may be done there, or waits there, does not count. -/
def State.physOf (s : State) (eng va : Nat) : Option Nat :=
  let slot := s.st.place.slot
  match s.here.tlbs.find? fun t => t.hits eng slot va with
  | some t => some (t.mapped va).pa
  | none =>
    let c := s.ctx slot
    let ws := s.walksFor eng
    if s.twoStage c then
      match s.walkFirst ws false c va [1, 2, 3] (c.root * 65536) [] with
      | .ok w => (match s.walkPhys ws slot 2 (w.addr % 2 ^ 52) [1, 2, 3] ((s.fn c.fn).trans.s2root * 65536) [] with
        | .ok w2 => some w2.addr
        | .error _ => none)
      | .error _ => none
    else
      match s.walkPhys ws slot 0 va [1, 2, 3] (c.root * 65536) [] with
      | .ok w => some w.addr
      | .error _ => none

/-- Byte ranges with the physical ones of those in memory (space 0), as space 3: two addresses may name one byte. -/
def withPhys : List ByteRange → M (List ByteRange)
  | [] => pure []
  | r :: rest => do
    let s ← get
    let ps := if r.1 = 0 then
        (pieces ((r.2.2 - r.2.1) / 64 + 2) r.2.1 (r.2.2 - r.2.1)).flatMap fun q =>
          match s.physOf 3 q.1 with
          | some pa => [(3, pa, pa + q.2)]
          | none => []
      else []
    let l ← withPhys rest
    return r :: ps ++ l

/-- A byte of a range lies in the last quarter of a 64 KiB page: that page. -/
def ByteRange.lastQuarter (r : ByteRange) : Option Nat :=
  let p := (r.2.2 - 1) / 65536
  if r.2.1 < r.2.2 ∧ p * 65536 + 49152 ≤ r.2.2 - 1 then some p else none

/-- The next page that range `i` of the units from `k` on comes to, past page `p`; the number bounds the units looked at. -/
def nextPage (touch : Nat → M (List ByteRange)) (i p : Nat) : Nat → Nat → M (Option Nat)
  | 0, _ => pure none
  | n + 1, k => do
    match (← touch k)[i]? with
    | some r =>
      if r.1 ≠ 0 then return none
      else if r.2.1 / 65536 ≠ p then return some (r.2.1 / 65536)
      else if (r.2.2 - 1) / 65536 ≠ p then return some ((r.2.2 - 1) / 65536)
      else nextPage touch i p n (k + 1)
    | none => return none

/-- Unit `k` has been performed: where its accesses to memory lie in the last quarter of a page, the engine walks ahead for the page
that the units left, `n` of them, come to next in the word's order (R266). How far it looks is the model's: 256 units (log 60). -/
def aheadOf (touch : Nat → M (List ByteRange)) (n k : Nat) : M Unit := do
  let rs ← touch k
  eachM (rs.zip (genFrom rs.length 0 id)) fun r => do
    match (if r.1.1 = 0 then ByteRange.lastQuarter r.1 else none) with
    | some p =>
      match ← nextPage touch r.2 p (min n 256) (k + 1) with
      | some q => modify fun s => s.walkAhead (q * 65536)
      | none => pure ()
    | none => pure ()

/-- Perform the units that are left, from `k` on, within the window of 256 above the lowest unit that is set aside; a
unit whose bytes overlap a lower one not performed is held back (R241, R243). `aside` holds what is set aside or held back,
with its bytes; it is returned. -/
def unitsFrom (touch : Nat → M (List ByteRange)) (unit : Nat → M Unit) :
    Nat → Nat → List (Nat × List ByteRange) → M (List Nat)
  | 0, _, aside => pure (aside.map Prod.fst)
  | n + 1, k, aside => do
    if aside.any fun a => decide (a.1 + 256 ≤ k) then return aside.map Prod.fst
    if (← getWork).done.contains k then
      unitDone k (aside.map Prod.fst)
      unitsFrom touch unit n (k + 1) aside
    else
      let mine ← if aside.isEmpty then pure [] else do withPhys (← touch k)
      if aside.any fun a => rangesMeet a.2 mine then unitsFrom touch unit n (k + 1) (aside ++ [(k, mine)])
      else
        if ← tryUnit (unit k) then
          unitDone k (aside.map Prod.fst)
          aheadOf touch n k
          unitsFrom touch unit n (k + 1) aside
        else
          let rs ← withPhys (← touch k)
          unitsFrom touch unit n (k + 1) (aside ++ [(k, rs)])

/-- Perform every unit of a word that is not done (R244); while one waits on a page request the word waits. -/
def runUnits (n : Nat) (touch : Nat → M (List ByteRange)) (unit : Nat → M Unit) : M Unit := do
  let k := (← getWork).count
  let aside ← unitsFrom touch unit (n - k) k []
  if !aside.isEmpty then waitM 7 0

/-- As `runUnits`, for the units of a versioned load: what is set aside is parked (R314). -/
def runParked (n : Nat) (unit : Nat → M Unit) : M Unit := do
  let k := (← getWork).count
  let aside ← unitsFrom (fun _ => pure []) unit (n - k) k []
  if !aside.isEmpty then waitM 6 0

/-! ## Bytes of a unit -/

/-- The place of R242 that a trap takes among the checks of a unit. -/
def trapOrder (t : TrapInfo) : Nat :=
  match t.cause with
  | .align => 1
  | .page => if t.kind = 2 then 2 else 3
  | .sealing | .integ => 4
  | _ => 5

/-- Of two stops of the checks of a unit, the first is the one that it comes to (R242): the trap of the lower order, the earlier of
two of one order; a page request is waited for where no trap comes before translation. -/
def keepsStop : Stop → Stop → Bool
  | .trap t, .trap u => !decide (trapOrder u < trapOrder t)
  | .trap t, _ => decide (trapOrder t ≤ 2)
  | _, .trap u => !decide (trapOrder u ≤ 2)
  | _, _ => true

/-- Make every check of a list, and stop as R242 orders them; the checks that do not decide leave nothing. -/
def allOf {α : Type} : List (M α) → Option (Stop × State) → M (List α)
  | [], none => pure []
  | [], some (e, t) => fun _ => .error e t
  | m :: rest, e => fun s =>
    match m s with
    | .ok a s' => (do let l ← allOf rest e; return a :: l) s'
    | .error e' s' =>
      allOf rest (some (match e with
        | some d => if keepsStop d.1 e' then d else (e', s')
        | none => (e', s'))) s

/-- Check both sides of a unit: the trap of the lower order decides, and the other side leaves nothing (R242). -/
def bothSides {α β : Type} (a : M α) (b : M β) : M (α × β) := fun s =>
  match a s with
  | .ok x s1 => match b s1 with | .ok y s2 => .ok (x, y) s2 | .error e s2 => .error e s2
  | .error e s1 =>
    match b s with
    | .error e' s2 => if keepsStop e e' then .error e s1 else .error e' s2
    | .ok _ _ => .error e s1

/-- A side of a transfer: memory or the strand's scratchpad. -/
inductive Side where
  | mem
  | spad
  deriving DecidableEq, Repr

/-- The space number of a side, for overlaps. -/
def Side.space : Side → Nat
  | .mem => 0
  | .spad => 1

/-- A run of bytes of a side that a unit reads, or writes. -/
structure Run where
  side : Side
  write : Bool
  at' : Nat
  len : Nat
  deriving DecidableEq, Repr

/-- The checks of a run up to its translation (R242 orders 2 and 3), by lines: what is located, none for scratchpad. -/
def Run.checks (r : Run) (slot : Nat) : List (M (Option Located)) :=
  match r.side with
  | .mem => (pieces (r.len / 64 + 2) r.at' r.len).map fun p => do
      return some (← sealedAs (p.1 / 64 * 64) (locate 3 slot p.1 (if r.write then .write else .read)))
  | .spad => [do
      let t ← getSt
      if t.spadSize < r.at' + r.len then trapPage 2 (max r.at' t.spadSize)
      return none]

/-- The line of a located access, for its trap value. -/
def Located.line (l : Located) : Nat := l.va / 64 * 64

/-- Make the checks of the runs of a unit in the order of R242, and then the accesses: where the lines of each run lie. -/
def enterRuns (rs : List Run) : M Unit := do
  let slot := (← getSt).place.slot
  let ls := (← allOf (rs.flatMap fun r => r.checks slot) none).filterMap id
  eachM ls fun l => l.sealed l.line
  eachM (ls.filter fun l => !l.acc.writes) fun l => checkInteg l.m.pa l.line
  eachM (ls.filter fun l => !l.acc.writes) fun l => checkPoison l.m.pa l.line
  eachM ls Located.use

/-- Read a run that has been entered. -/
def Run.read (r : Run) : M (List Byte) := do
  match r.side with
  | .spad => return (← getSt).spad.readBytes r.at' r.len
  | .mem =>
    let slot := (← getSt).place.slot
    let bs ← collectM (pieces (r.len / 64 + 2) r.at' r.len) fun p => do
      let l ← locate 3 slot p.1 .read
      memBytes l.m.pa p.2
    return bs.flatten

/-- Write pieces of memory that have been entered. -/
def writePieces (slot : Nat) : List (Nat × Nat) → List Byte → M Unit
  | [], _ => pure ()
  | (a, n) :: rest, bs => do
    let l ← locate 3 slot a .write
    memPut l.m.pa (bs.take n)
    writePieces slot rest (bs.drop n)

/-- Write a run that has been entered. -/
def Run.write' (r : Run) (bs : List Byte) : M Unit := do
  match r.side with
  | .spad => modSt fun t => { t with spad := t.spad.writeBytes r.at' bs }
  | .mem => writePieces (← getSt).place.slot (pieces (r.len / 64 + 2) r.at' r.len) bs

/-- Check a run as a source and read it. -/
def readRun (d : Side) (a n : Nat) : M (List Byte) := do
  let r : Run := ⟨d, false, a, n⟩
  enterRuns [r]
  r.read

/-- Copy one run of bytes: both sides are checked, every source byte is read, then the destination is written (R241). -/
def copyRun (dst src : Side) (x y n : Nat) : M Unit := do
  let s : Run := ⟨src, false, y, n⟩
  let d : Run := ⟨dst, true, x, n⟩
  enterRuns [s, d]
  d.write' (← s.read)

/-- A unit lands: it counts as performed even where its landing is refused (R240). -/
def landed (c : Completion) (dst : Side) (k n : Nat) : M Unit := do
  if c.land && dst == .spad then
    match ((← getSt).bar c.g).land n with
    | some b => modSt fun t => t.setBar c.g b
    | none =>
      modWork fun w => { w with done := k :: w.done }
      trapBar c.g

/-! ## c.cp, c.cpd and c.fill (R251 to R253) -/

/-- The number of 64-byte units of a transfer of `n` bytes. -/
def unitsOf (n : Nat) : Nat := (n + 63) / 64

/-- Bytes of unit `j` of a transfer of `n` bytes. -/
def unitLen (n j : Nat) : Nat := min 64 (n - 64 * j)

/-- `a + n` modulo 2^64. -/
def wrapAddr (a : Int) : Nat := wrapInt a 64

/-- The sides of a route and which of them is a ring (R237): source, destination, `some true` for a destination ring. -/
def routeSides (m : BitVec 3) : Side × Side × Option Bool :=
  match m.toNat with
  | 0 => (.mem, .mem, none)
  | 1 => (.mem, .spad, none)
  | 2 => (.spad, .mem, none)
  | 3 => (.spad, .spad, none)
  | 4 => (.mem, .spad, some true)
  | 5 => (.spad, .mem, some false)
  | 6 => (.spad, .spad, some true)
  | _ => (.spad, .spad, some false)

/-- The first byte of the slot of a ring operand, once the word may use it (R238). -/
def ringOperand (h : Nat) (pos : Word) (len : Nat) (dest : Bool) : M Nat := do
  let r := (← getSt).ring h
  if r.count = 0 ∨ r.slot * 64 < len then trapRing h
  let p := lowElem pos
  let ok := if dest then seqLe (p + 1) (r.head + BitVec.ofNat 32 r.count) else seqLe (p + 1) r.tail
  if !ok && !(← getWork).started then waitM (if dest then 2 else 1) h
  return r.slotOffset p

/-- The word has passed its waits (R244). -/
def markStarted : M Unit := modWork fun w => { w with started := true }

/-- `c.cp` (R251). -/
def performCCp (m : BitVec 3) (x : Entry) : M Unit := do
  let c := completionOf x.extA
  let (src, dst, ring) := routeSides m
  let len := x.opZ.toNat
  checkCompletion c (dst == .spad)
  let a ← if ring = some true then ringOperand c.h x.opX len true else pure x.opX.toNat
  let b ← if ring = some false then ringOperand c.h x.opY len false else pure x.opY.toNat
  if src = .spad then spadFree [(b, b + len)]
  if dst = .spad then spadLock [(a, a + len)]
  markStarted
  let ranges := fun k => pure
    [(dst.space, a + 64 * k, a + 64 * k + unitLen len k), (src.space, b + 64 * k, b + 64 * k + unitLen len k)]
  runUnits (unitsOf len) ranges fun k => do
    copyRun dst src (wrapAddr (a + 64 * k)) (wrapAddr (b + 64 * k)) (unitLen len k)
    landed c dst k (unitLen len k)
  giveSignals c ring

/-- A descriptor register. -/
def Strand.desc (t : Strand) (n : Nat) : BitVec 512 := vget t.descs n 0

/-- `c.cpd` (R252). -/
def performCCpd (m : BitVec 2) (x : Entry) : M Unit := do
  let c := completionOf x.extB
  let (src, dst, _) := routeSides (m.setWidth 3)
  let run := x.opZ.toNat
  checkCompletion c (dst == .spad)
  let t ← getSt
  let dd := t.desc (bits x.extA.toNat 0 3)
  let ds := t.desc (bits x.extA.toNat 4 3)
  if descDims dd = 0 then trapPage 3 0
  if src = .spad then spadFree [(0, t.spadSize)]
  if dst = .spad then spadLock [(0, t.spadSize)]
  markStarted
  let per := unitsOf run
  let place := fun k =>
    let ix := nestIndices dd (k / per)
    (wrapAddr (x.opX.toNat + nestSum dd ix 0 + 64 * (k % per : Nat)),
     wrapAddr (x.opY.toNat + nestSum ds ix 0 + 64 * (k % per : Nat)), unitLen run (k % per))
  let ranges := fun k => let p := place k; pure [(dst.space, p.1, p.1 + p.2.2), (src.space, p.2.1, p.2.1 + p.2.2)]
  runUnits (descCount dd * per) ranges fun k => do
    let p := place k
    copyRun dst src p.1 p.2.1 p.2.2
    landed c dst k p.2.2
  giveSignals c none

/-- `c.fill` (R253). -/
def performCFill (x : Entry) : M Unit := do
  let i := (immValue x.word x.pfx).toNat
  let c := completionOf x.extA
  let dst : Side := if bit i 8 then .spad else .mem
  let len := x.opY.toNat
  let a := x.opX.toNat
  checkCompletion c (dst == .spad)
  if dst = .spad then spadLock [(a, a + len)]
  markStarted
  let ranges := fun k => pure [(dst.space, a + 64 * k, a + 64 * k + unitLen len k)]
  runUnits (unitsOf len) ranges fun k => do
    let n := unitLen len k
    let r : Run := ⟨dst, true, wrapAddr (a + 64 * k), n⟩
    enterRuns [r]
    r.write' (List.replicate n (BitVec.ofNat 8 i))
    landed c dst k n
  giveSignals c none

/-! ## Gather and scatter (R254) -/

/-- The count n of R254. -/
def gatherCount (w : Word) : Nat := let n := bits w.toNat 0 16; if n = 0 then 65536 else n

/-- Index `i` of the array at scratchpad offset `z`, read under R80. -/
def readIndex (z i : Nat) : M Int := do
  let o := wrapAddr (z + 4 * i)
  spadFree [(o, o + 4)]
  return sextNat (natOfBytes (← spadBytes o 4)) 32

/-- The bytes of unit `k` of a gather or scatter: its index, its scratchpad element and its element in memory. -/
def gatherRanges (z s0 m0 e k : Nat) : M (List ByteRange) := do
  let o := wrapAddr (z + 4 * k)
  let i := sextNat (natOfBytes ((← getSt).spad.readBytes o 4)) 32
  let ma := wrapAddr (m0 + i * e)
  return [(1, o, o + 4), (1, s0 + k * e, s0 + k * e + e), (0, ma, ma + e)]

/-- An element of a gather or scatter is aligned to min(E, 64). -/
def alignElem (a e : Nat) : M Unit := do
  if a % min e 64 ≠ 0 then trapM .align 0 (BitVec.ofNat 64 a)

/-- `c.gath` and `c.scat`: elements of E bytes between memory and scratchpad by index. -/
def gatherScatter (x : Entry) (e : Nat) (gather : Bool) : M Unit := do
  let c := completionOf x.extB
  let n := gatherCount x.extA
  checkCompletion c gather
  if x.opZ.toNat % 4 ≠ 0 then trapM .align 0 x.opZ
  let s0 := if gather then x.opX.toNat else x.opY.toNat
  let m0 := if gather then x.opY.toNat else x.opX.toNat
  if gather then spadLock [(s0, s0 + n * e)] else spadFree [(s0, s0 + n * e)]
  markStarted
  runUnits n (gatherRanges x.opZ.toNat s0 m0 e) fun k => do
    let i ← readIndex x.opZ.toNat k
    let ma := wrapAddr (m0 + i * e)
    let sa := wrapAddr (s0 + k * e)
    alignElem ma e
    alignElem sa e
    if gather then copyRun .spad .mem sa ma e else copyRun .mem .spad ma sa e
    landed c (if gather then .spad else .mem) k e
  giveSignals c none

/-- `c.gath`. -/
def performCGath (m : BitVec 3) (x : Entry) : M Unit := gatherScatter x (2 ^ (m.toNat + 2)) true
/-- `c.scat`. -/
def performCScat (m : BitVec 3) (x : Entry) : M Unit := gatherScatter x (2 ^ (m.toNat + 2)) false

/-! ## Converting copies (R255, R256) -/

/-- The port of a side of `c.cvt`. -/
def cvtPort (d : Side) (desc slot : Nat) (write : Bool) : Port :=
  match d with
  | .spad => spadPort desc
  | .mem => memPort 3 slot (if write then .write else .read) (!write)

/-- The attribute of a side of `c.cvt` (R255, R528): a memory side takes it from the page of element 0, if the word has one. -/
def cvtAttr (d : Side) (p : Port) (desc a n : Nat) : M Nat := do
  match d with
  | .spad =>
    let _ ← descFmt desc a
    return desc
  | .mem => if n = 0 then return 0 else p.attrAt a 0

/-- The bytes of elements `lo` to `lo + m - 1` from an operand, with those of their scales. -/
def elemRanges (f : Fmt) (a lo m : Nat) : List (Nat × Nat) :=
  let first := (f.place a lo).1
  let last := (f.place a (lo + m - 1)).1
  let data := (first, last + f.bytes)
  if m = 0 then []
  else if f.scaled then [data, (f.scaleByte first (f.place a lo).2, f.scaleByte last (f.place a (lo + m - 1)).2 + 1)]
  else [data]

/-- What a unit of `c.cvt` is to check of element `j` of a side: its bytes, and its scale (R134, R242, R528). The check of R134, for an
element at or beyond D, is made on its first byte before that byte's scratchpad range or translation, and ranks with them as order
3: DESIGN CHOICE, R242's table does not place it (log 60). -/
def cvtChecks (p : Side) (attr slot : Nat) (write : Bool) (f : Fmt) (b0 j : Nat) : List (M (Option Located)) :=
  let (a, sub) := f.place b0 j
  let a := a % 2 ^ 64
  let byte := fun (first : Bool) (q : Nat) => (do
    if first && f.scaled && f.dataBytes ≤ q % 65536 then trapFormat q
    match p with
    | .spad =>
      if (← getSt).spadSize ≤ q then trapPage 2 q
      return none
    | .mem =>
      let l ← sealedAs (q / 64 * 64) (locate 3 slot q (if write then .write else .read))
      if (fmtOf l.m.fmta).raw then trapFormat q
      if first && l.m.fmta ≠ attr then trapFormat q
      return some l : M (Option Located))
  ((pieces 2 a f.bytes).map fun q => byte (q.1 == a) q.1) ++ (if f.scaled then [byte false (f.scaleByte a sub)] else [])

/-- Elements `lo` to `lo + m - 1` of a `c.cvt` of `n` elements are converted: every check is made (R242), all are read, and
then they are written. -/
def convertUnit (src dst : Side) (sa da : Nat) (a b n lo m mode : Nat) : M Unit := do
  let slot := (← getSt).place.slot
  let sp := cvtPort src sa slot false
  let dp := cvtPort dst da slot true
  let sf := fmtOf sa
  let df := fmtOf da
  let es := genFrom m lo id
  let ls := (← allOf (es.flatMap (cvtChecks src sa slot false sf b) ++ es.flatMap (cvtChecks dst da slot true df a)) none).filterMap id
  eachM ls fun l => l.sealed l.line
  eachM (ls.filter fun l => !l.acc.writes) fun l => checkInteg l.m.pa l.line
  eachM (ls.filter fun l => !l.acc.writes) fun l => checkPoison l.m.pa l.line
  eachM ls Located.use
  if df.tri then eachM es fun j => do
    let _ ← dp.room da df a j n fun _ => true
  let vals ← collectM es fun j => do
    let r ← sp.readCode sa sf b j
    return (j, sf.decoded r.1 r.2)
  let t ← getSt
  let draw := fun j => if mode = 4 then t.draw j else 0
  setFlags (vals.foldl (fun f v => f ||| v.2.2) 0)
  if df.scaled then
    eachM (genFrom (m / df.blockLen) (lo / df.blockLen) id) fun k => do
      let xs := (vals.drop (k * df.blockLen - lo)).take df.blockLen
      setFlags (← dp.writeBlock da df a k mode (xs.map fun v => (v.2.1, draw v.1)))
  else
    eachM vals fun v => do
      setFlags (← dp.write da df a v.1 n (fun _ => true) mode (draw v.1) v.2.1)

/-- The bytes that land with elements `lo` to `lo + m - 1`: those of their data that no lower element has counted, and of
their scales. -/
def landedBytes (f : Fmt) (lo m : Nat) : Nat :=
  f.footprint (lo + m) - f.footprint lo + (if f.scaled then m / f.blockLen else 0)

/-- `c.cvt` (R255, R256). -/
def performCCvt (m : BitVec 2) (x : Entry) : M Unit := do
  let mode ← roundMode x
  let c := completionOf x.extB
  let (src, dst, _) := routeSides (m.setWidth 3)
  let n := bits x.opZ.toNat 0 32
  let a := x.opX.toNat
  let b := x.opY.toNat
  checkCompletion c (dst == .spad)
  let (sa, da) ← match (← getWork).vals with
    | [u, v] => pure (u, v)
    | _ => do
      let slot := (← getSt).place.slot
      let ds := bits x.extA.toNat 0 8
      let dd := bits x.extA.toNat 8 8
      -- a misaligned destination comes before the source's translation (R242)
      bothSides (cvtAttr src (cvtPort src ds slot false) ds b n) do
        let da ← cvtAttr dst (cvtPort dst dd slot true) dd a n
        let df := fmtOf da
        if df.scaled && (!df.onBlock a || n % df.blockLen != 0) then trapM .align 0 x.opX
        return da
  let sf := fmtOf sa
  let df := fmtOf da
  if src = .spad then spadFree (elemRanges sf b 0 n)
  if dst = .spad then spadLock (elemRanges df a 0 n)
  startWord [] (if mode = 4 then n else 0)
  modWork fun w => { w with vals := [sa, da] }
  let ranges := fun k =>
    let len := min 64 (n - 64 * k)
    pure (((elemRanges df a (64 * k) len).map fun r => (dst.space, r.1, r.2)) ++
      (elemRanges sf b (64 * k) len).map fun r => (src.space, r.1, r.2))
  runUnits ((n + 63) / 64) ranges fun k => do
    let len := min 64 (n - 64 * k)
    convertUnit src dst sa da a b n (64 * k) len mode
    landed c dst k (landedBytes df (64 * k) len)
  giveSignals c none

/-! ## Stream registers (R257 to R259) -/

/-- The descriptors that `c.bind` may name (R257). -/
def bindFmtOk (d : Nat) : Bool := d == 0 || d == 1 || d == 2 || d == 3 || d == 4 || d == 5 || d == 7 || d == 8

/-- Read `n` elements from a byte, raw, and decode them by a descriptor. -/
def bindElems (src : Side) (f : Fmt) (a n : Nat) : M (List Elem) := do
  let bs := (← readRun src a (n * f.bytes)).toArray
  -- the stream goes on upward (R266)
  match (if src = .mem then ByteRange.lastQuarter (0, a, a + n * f.bytes) else none) with
  | some p => modify fun s => s.walkAhead ((p + 1) * 65536)
  | none => pure ()
  return genFrom n 0 fun i =>
    (f.decode (natOfBytes (genFrom f.bytes (i * f.bytes) fun j => bs.getD j 0)) 0).1

/-- Deliver the units that are left, stopping while four are unread (R38, R258). -/
def deliver (w : Nat) (vector : Bool) (f : Fmt) (src : Side) (a : Nat) : Nat → Nat → M Unit
  | 0, _ => pure ()
  | n + 1, k => do
    let r := vget (← getSt).streams w Stream.unbound
    if 4 ≤ r.units.length then waitM 4 w
    let per := if vector then 1024 else 1
    let u ← bindElems src f (wrapAddr (a + k * (per * f.bytes) : Nat)) per
    modSt fun t =>
      let r := vget t.streams w Stream.unbound
      { t with streams := vput t.streams w { r with units := r.units ++ [u], left := n } }
    modWork fun p => { p with count := k + 1 }
    deliver w vector f src a n (k + 1)

/-- `c.bind` (R257, R258). -/
def performCBind (w : Reg) (m : BitVec 2) (x : Entry) : M Unit := do
  let d := bits x.extA.toNat 0 8
  let f := fmtOf d
  let a := x.opY.toNat
  let n := bits x.opZ.toNat 0 32
  let vector := m.getLsbD 0
  let src : Side := if m.getLsbD 1 then .spad else .mem
  if !bindFmtOk d then trapFormat a
  if a % f.bytes ≠ 0 then trapM .align 0 x.opY
  if !(← getWork).started then
    if (vget (← getSt).streams w.toNat Stream.unbound).bound then waitM 4 w.toNat
    if n ≠ 0 then modSt fun t => { t with streams := vput t.streams w.toNat ⟨true, vector, d, [], n⟩ }
    markStarted
  if src = .spad then spadFree [(a, a + n * (if vector then 1024 else 1) * f.bytes)]
  let k := (← getWork).count
  deliver w.toNat vector f src a (n - k) k

/-- `c.unbind` (R259): a `c.bind` that is still delivering is performed at that moment. -/
def performCUnbind (w : Reg) (_ : Entry) : M Unit :=
  modSt fun t =>
    let delivering := fun e : Entry =>
      match e.word with | .cBind r _ _ _ _ => r == w && e.prog.started | _ => false
    let t := match (t.queue 3).findIdx? delivering with | some j => t.finish 3 j | none => t
    { t with streams := vput t.streams w.toNat Stream.unbound }

/-! ## c.dsc, c.gm and c.pf (R248, R263, R267) -/

/-- `c.dsc` (R248). -/
def performCDsc (d : Reg) (spad : Bool) (x : Entry) : M Unit := do
  let a := x.opY.toNat
  if a % 64 ≠ 0 then trapM .align 0 x.opY
  let src : Side := if spad then .spad else .mem
  if spad then spadFree [(a, a + 64)]
  let img := BitVec.ofNat 512 (natOfBytes (← readRun src a 64))
  if !descOkImage img then trapPage 3 a
  modSt fun t => { t with descs := vput t.descs d.toNat img }

/-- A member of the current strand's gang. -/
def State.member (s : State) (m : Nat) : Option Strand := s.findStrand s.st.place.gang m

/-- Change a member of the current strand's gang. -/
def State.setMember (s : State) (m : Nat) (f : Strand → Strand) : State :=
  if s.st.place.member = m then { s with st := f s.st }
  else { s with others := s.others.map fun t =>
    if t.place.gang = s.st.place.gang ∧ t.place.member = m then f t else t }

/-- The member that `c.gm` names (R263): one that has retired has no allocation, so a byte of it traps as one outside it does
(DEDUCED from R46, R51; log 26). While its rights are withdrawn from its tile, the access waits (R499). -/
def memberOf (m off : Nat) : M Strand := do
  match (← get).member m with
  | some t => if t.life = .gone then trapPage 2 off else if t.barred then waitM 0 0 else return t
  | none => trapPage 2 off

/-- `c.gm` (R263): units between the strand's scratchpad and a member's, its own among them (R80, R81). -/
def performCGm (pull : Bool) (x : Entry) : M Unit := do
  let c := completionOf x.extB
  let len := x.opZ.toNat
  let m := bits x.extA.toNat 0 4
  checkCompletion c true
  let a := x.opX.toNat
  let b := x.opY.toNat
  let t ← getSt
  if t.place.size ≤ m then trapPage 2 (if pull then b else a)
  let own := t.place.member == m
  if !pull || own then spadFree [(b, b + len)]
  if pull || own then spadLock [(a, a + len)]
  markStarted
  runUnits (unitsOf len) (fun k => pure [(if pull || own then 1 else 2, a + 64 * k, a + 64 * k + unitLen len k),
      (if pull && !own then 2 else 1, b + 64 * k, b + 64 * k + unitLen len k)]) fun k => do
    let n := unitLen len k
    let o := wrapAddr (a + 64 * k)
    let i := wrapAddr (b + 64 * k)
    let other ← memberOf m (if pull then i else o)
    let me ← getSt
    let (src, dst) := if pull then (other, me) else (me, other)
    if src.spadSize < i + n then trapPage 2 (max i src.spadSize)
    if dst.spadSize < o + n then trapPage 2 (max o dst.spadSize)
    let bs := src.spad.readBytes i n
    let put := fun t : Strand => { t with spad := t.spad.writeBytes o bs }
    if pull then
      modSt put
      landed c .spad k n
    else
      modify fun s => s.setMember m put
      if c.land then
        match ((← memberOf m o).bar c.g).land n with
        | some bar => modify fun s => s.setMember m fun t => t.setBar c.g bar
        | none =>
          modWork fun w => { w with done := k :: w.done }
          trapBar c.g
  giveSignals c none

/-- `c.pf` (R267): no architectural effect. -/
def performCPf (_ : Entry) : M Unit := pure ()

end Sys2Proof.Machine
end

