-- ==== Sys2Proof/Machine/Fabric.lean ====
section
/-! DEFINITION. The scale-up fabric (R483 to R497): peer transfers, reduction windows, ports and advertisements. -/

namespace Sys2Proof.Machine

/-! ## Grants (R486) -/

/-- The order of the current strand. -/
def State.order (s : State) (id : Nat) : Option Order := s.front.orders.find? fun o => o.id == id

/-- Linear index of a gang in its order (R49). -/
def GangInfo.linear (g : GangInfo) (op : OpRec) : Nat := g.gx + op.nx * (g.gy + op.ny * g.gz)

/-- The grant entries of the current strand's order. -/
def State.grants (s : State) : List Grant := ((s.order s.st.place.order).map Order.grants).getD []

/-- Change a member of a gang, wherever it is. -/
def State.onStrand (s : State) (gang member : Nat) (f : Strand → Strand) : State :=
  let g := fun t : Strand => if t.place.gang = gang ∧ t.place.member = member then f t else t
  { s with st := g s.st, others := s.others.map g }

/-- A member of a gang. -/
def State.strandOf (s : State) (gang member : Nat) : Option Strand :=
  (s.st :: s.others).find? fun t => t.place.gang == gang && t.place.member == member && t.life != .gone

/-! ## Landing of a unit (R488, R489) -/

/-- Bytes of a unit: the payload of one flit (R264). -/
def flitBytes : Nat := 256

/-- A transfer of a sender is the one that fills a ring position. -/
def PeerXfer.isOf (x : PeerXfer) (u : PeerUnit) : Bool := x.srcChip == u.srcChip && x.sender == u.sender

/-- A ring position whose transfer has landed whole is complete, and TAIL passes it (R37). -/
def Ring.complete (r : Ring) (pos : BitVec 32) : Ring :=
  let ps := r.peers.map fun p => if p.1 = pos then (p.1, true) else p
  Ring.passPeers ps.length { r with peers := ps }

/-- A unit arrives for a ring: it reserves a position with its transfer's first unit. -/
def State.landRing (s : State) (u : PeerUnit) (g : Grant) (gang : Nat) (t : Strand) : PeerFate × State :=
  let r := t.ring g.hg
  if u.off ≠ 0 then (.page 2, s)
  else if r.count = 0 ∨ r.slot * 64 < u.len then (.ringov g.hg, s)
  else
    let first := match s.fabric.xfers.find? fun x => x.isOf u with
      | some x => some (x, r)
      | none =>
        if r.claimT = r.head + BitVec.ofNat 32 r.count then none
        else some (⟨u.srcChip, u.sender, gang, g.mem, g.hg, r.claimT, []⟩,
          { r with claimT := r.claimT + 1, peers := r.peers ++ [(r.claimT, false)] })
    match first with
    | none => (.waits, s)
    | some (x, r) =>
      let done := if x.done.contains u.unit then x.done else u.unit :: x.done
      let whole := done.length = (u.len + flitBytes - 1) / flitBytes
      let r := if whole then r.complete x.pos else r
      let rest := s.fabric.xfers.filter fun y => !y.isOf u
      let put := fun t : Strand =>
        { t.setRing g.hg r with spad := t.spad.writeBytes (r.slotOffset x.pos + flitBytes * u.unit) u.data }
      let s := s.onStrand gang g.mem put
      (.landed, { s with fabric := { s.fabric with xfers := if whole then rest else rest ++ [{ x with done := done }] } })

/-- The receive entry that takes a unit, with its order (R488). -/
def State.receiver (s : State) (u : PeerUnit) : Option (Order × Grant) :=
  s.front.orders.findSome? fun o =>
    (o.grants.find? fun g => g.kind == 2 && g.key == u.key && (g.chip == 0xFFF || g.chip == u.srcChip)).bind fun g =>
      if o.world = u.world then some (o, g) else none

/-- A strand takes units: it has its tile (R488, R491). One that is switched out, or parked while another has its tile, does not. -/
def State.takesUnits (s : State) (t : Strand) : Bool :=
  t.life == .active ||
    (t.life == .parked && !((s.st :: s.others).any fun u => u.residentOn t.place.die t.place.tile && u.life == .active))

/-- A unit arrives at this chip. -/
def State.landPeer (s : State) (u : PeerUnit) : PeerFate × State :=
  match s.receiver u with
  | none => (.page 1, s)
  | some (o, g) =>
    if o.op.nx * o.op.ny * o.op.nz ≤ u.dgang then (.page 1, s)
    else
      match s.front.gangs.find? fun i => i.order == o.id && i.linear o.op == u.dgang with
      | none => (if o.nextGang ≤ u.dgang then .waits else .page 1, s)
      | some i =>
        match s.strandOf i.id g.mem with
        | none => (.page 1, s)
        | some t =>
          if i.saved || !s.takesUnits t then (.waits, s)
          else if g.len < u.off + u.len then (.page 2, s)
          else if g.flag = 1 then s.landRing u g i.id t
          else
            let s := s.onStrand i.id g.mem fun t =>
              { t with spad := t.spad.writeBytes (g.base + u.off + flitBytes * u.unit) u.data }
            if g.flag = 2 then
              match (t.bar g.hg).land u.data.length with
              | some b => (.landed, s.onStrand i.id g.mem fun t => t.setBar g.hg b)
              | none => (.barov g.hg, s)
            else (.landed, s)

/-! ## c.peer (R264, R488) -/

/-- The status of a unit at its sender; false while it waits. -/
def peerStatus (k sX : Nat) : PeerFate → M Bool
  | .landed => pure true
  | .waits => pure false
  | .page kind => trapPage kind sX
  | .ringov h => trapRing h
  | .barov g => do
    modWork fun w => { w with count := k + 1 }
    trapBar g

/-- The port by which a unit of a world leaves (R484, R509): any that is up for world 0, and one whose link encryption is up for a
sealed world, with its key. -/
def Fabric.route (f : Fabric) (world : Nat) : Option (Option (Nat × BitVec 256)) :=
  if world = 0 then (if f.up = 0 then none else some none)
  else (f.keys.find? fun k => f.up.getLsbD k.1).map some

/-- A unit leaves: under the key of its port, where that encrypts it. -/
def State.sendOut (s : State) (u : PeerUnit) (k : Option (Nat × BitVec 256)) : State :=
  let s := { s with fabric := { s.fabric with flight := s.fabric.flight ++ [u] } }
  match k with
  | none => { s with out := .peer u none :: s.out }
  | some (port, key) =>
    let bs := genFrom u.data.length 0 (Config.flitByte key s.freeCount u.data)
    { s with out := .peer { u with data := bs } (some port) :: s.out, freeCount := s.freeCount + 1 }

/-- Two names of one unit of one word: its data are those of the time it left (R264). -/
def PeerUnit.same (a b : PeerUnit) : Bool := { a with data := [] } == { b with data := [] }

/-- Send a unit: at once where its destination is this chip; otherwise it goes out, once, and its fate comes back. -/
def sendUnit (u : PeerUnit) : M Bool := do
  let s ← get
  if u.chip = s.fabric.chip then
    let r := s.landPeer u
    set r.2
    peerStatus u.unit u.off r.1
  else
    match s.fabric.answers.find? fun a => a.1.same u with
    | some a =>
      set { s with fabric := { s.fabric with answers := s.fabric.answers.filter fun b => !b.1.same u } }
      peerStatus u.unit u.off a.2
    | none =>
      -- a unit with no route waits (R484, R509)
      match s.fabric.route u.world with
      | some k => if s.fabric.flight.any u.same = false then set (s.sendOut u k)
      | none => pure ()
      return false

/-- Send the units that are left, one after another (R495: they may land in any order). -/
def sendUnits (unit : Nat → M Bool) : Nat → Nat → M Unit
  | 0, _ => pure ()
  | n + 1, k => do
    if ← unit k then
      modWork fun w => { w with count := k + 1 }
      sendUnits unit n (k + 1)
    else waitM 0 0

/-- `c.peer`. -/
def performCPeer (x : Entry) : M Unit := do
  let c := completionOf x.extB
  checkCompletion c false
  let s ← get
  let t := s.st
  let sX := x.opX.toNat
  let len := x.opZ.toNat
  match s.grants[bits x.extA.toNat 0 6]? with
  | none => trapPage 2 sX
  | some g =>
    if g.kind ≠ 1 ∨ g.len < sX + len then trapPage 2 sX
    spadFree [(x.opY.toNat, x.opY.toNat + len)]
    if !(← getWork).started then
      if t.spadSize < x.opY.toNat + len then trapPage 2 (max x.opY.toNat t.spadSize)
    markStarted
    let k0 := (← getWork).count
    let n := (len + flitBytes - 1) / flitBytes
    sendUnits (fun k => do
      let here := min flitBytes (len - flitBytes * k)
      let t ← getSt
      let u : PeerUnit :=
        { srcChip := s.fabric.chip, sender := (t.place.gang, t.place.member, x.seq), chip := g.chip
          world := t.place.world, key := g.key, dgang := bits x.extA.toNat 16 32, off := sX, len := len, unit := k
          data := t.spad.readBytes (x.opY.toNat + flitBytes * k) here }
      sendUnit u) (n - k0) k0
    giveSignals c none

/-- Units of other chips that are held here are tried again; the fate of each that is decided goes back (R488). -/
def State.retryInbox (s : State) : State :=
  s.fabric.inbox.foldl (fun (s : State) u =>
    let r := s.landPeer u
    if r.1 = .waits then s
    else { r.2 with
      fabric := { r.2.fabric with inbox := r.2.fabric.inbox.filter (· != u) }
      out := .fate u r.1 :: r.2.out }) s

/-- PEER_UNIT_ARRIVAL (R489): a unit of another chip, `xfer` naming its word there. -/
def execPeerUnitArrival (src xfer world key dgang off len unit : Nat) (data : List (BitVec 8)) (s : State) :
    Host.Outcome State Fault Refusal :=
  let u : PeerUnit := ⟨src, (xfer, 0, 0), s.fabric.chip, world, key, dgang, off, len, unit, data.take flitBytes⟩
  .next { s with fabric := { s.fabric with inbox := s.fabric.inbox ++ [u] } }.retryInbox
/-- PEER_UNIT_RESEND (R488): units of other chips that wait here are tried again; a word of this chip that waits sends its
unit again whenever its engine moves. -/
def execPeerUnitResend (s : State) : Host.Outcome State Fault Refusal := .next s.retryInbox

/-! ## Reduction windows (R265, R492 to R494) -/

/-- Element size by op. -/
def rwinSize (op : Nat) : Nat := [4, 2, 4, 8, 4, 4, 1].getD op 1

/-- Fold one more contribution, in ascending chip number: integers by their width, BF16 contributions as FP32. -/
def rwinFold (op a b : Nat) : Nat :=
  match op with
  | 0 | 1 => (add32 0 0 (BitVec.ofNat 32 a) (BitVec.ofNat 32 b)).1.toNat
  | 2 => (a + b) % 2 ^ 32
  | 3 => (a + b) % 2 ^ 64
  | 4 => if sextNat a 32 < sextNat b 32 then b else a
  | 5 => if sextNat b 32 < sextNat a 32 then b else a
  | _ => b

/-- A contribution as it enters the fold. -/
def rwinEnter (op v : Nat) : Nat :=
  if op = 1 then (toFp32 0 0 (bf16.decode v)).1.toNat else v

/-- Insert in ascending chip number. -/
def insertChip (c : Contribution) : List Contribution → List Contribution
  | [] => [c]
  | d :: rest => if c.chip < d.chip then c :: d :: rest else d :: insertChip c rest

/-- The merged value of a round, with the op that the home applies. -/
def mergeRound (cs : List Contribution) : Nat × Nat :=
  let l := cs.foldl (fun l c => insertChip c l) []
  match l with
  | [] => (6, 0)
  | c :: rest =>
    if rest.all fun d => d.op == c.op then
      (c.op, rest.foldl (fun a d => rwinFold c.op a (rwinEnter c.op d.value)) (rwinEnter c.op c.value))
    else
      let last := rest.getLast?.getD c
      -- `.st` of the last contribution, with its own element size
      (7 + last.op, last.value)

/-- What the home stores for the value `x` there (R493): an op of 7 and above stores the value. -/
def rwinApply (op m x : Nat) : Nat :=
  match op with
  | 0 => (add32 0 0 (BitVec.ofNat 32 x) (BitVec.ofNat 32 m)).1.toNat
  | 1 => (bf16.encode 0 0 (fpAdd 0 (bf16.decode x) (fpOf (BitVec.ofNat 32 m))).1).1
  | 2 | 3 | 4 | 5 => rwinFold op x m
  | _ => m

/-- The size of the home's write. -/
def rwinBytes (op : Nat) : Nat := rwinSize (if 7 ≤ op then op - 7 else op)

/-- A contribution is accepted where no contribution of its chip is in the open round; the round closes with the last of
NCON chips. None where it is held. -/
def FabWindow.accept (w : FabWindow) (c : Contribution) : Option FabWindow :=
  if w.state ≠ .opened ∨ (w.rounds.any fun d => d.e == c.e && d.chip == c.chip) = true then none
  else
    let round := (w.rounds.filter fun d => d.e == c.e) ++ [c]
    if round.length < w.ncon then some { w with rounds := w.rounds ++ [c] }
    else
      let m := mergeRound round
      some { w with
        rounds := w.rounds.filter fun d => d.e != c.e
        closed := w.closed ++ [⟨0, c.e, m.1, m.2⟩] }

/-- Try what is held, once each in order. -/
def FabWindow.takeIn (w : FabWindow) : FabWindow :=
  w.held.foldl (fun (w : FabWindow) c =>
    match w.accept c with
    | some v => { v with held := v.held.erase c }
    | none => w) w

/-- The window of a key and home. -/
def State.window (s : State) (key home : Nat) : Option FabWindow :=
  s.fabric.windows.find? fun w => w.key == key && w.home == home

/-- Replace a window, and send on the closed rounds of another home. -/
def State.setWindow (s : State) (w : FabWindow) : State :=
  let w := w.takeIn
  let away := w.home != s.fabric.chip
  let v := if away then { w with closed := [] } else w
  { s with
    fabric := { s.fabric with windows := s.fabric.windows.map fun x => if x.key = w.key ∧ x.home = w.home then v else x }
    out := if away then (w.closed.map fun c => Out.rwin w.key w.home c.e c.op c.value).reverse ++ s.out else s.out }

/-- Contribute the elements that are left. -/
def contribute (x : Entry) (g : Grant) (op size : Nat) : Nat → Nat → M Unit
  | 0, _ => pure ()
  | n + 1, k => do
    let s ← get
    match s.window g.key g.chip with
    | none => trapPage 1 x.opX.toNat
    | some w =>
      if w.state = .retired then trapPage 1 x.opX.toNat
      let v := s.st.spad.readNat (x.opY.toNat + size * k) size
      let c : Contribution := ⟨s.fabric.chip, x.opX.toNat + size * k - g.base, op, v⟩
      match w.accept c with
      | none => waitM 0 0
      | some w =>
        set (s.setWindow w)
        modWork fun p => { p with count := k + 1 }
        contribute x g op size n (k + 1)

/-- `c.rwin`. -/
def performCRwin (m : BitVec 3) (x : Entry) : M Unit := do
  let c := completionOf x.extA
  let op := m.toNat
  let size := rwinSize op
  checkCompletion c false
  eachM [x.opX, x.opY, x.opZ] fun o => do if o.toNat % size ≠ 0 then trapM .align 0 o
  let s ← get
  let sX := x.opX.toNat
  let len := x.opZ.toNat
  match s.grants.find? fun g => g.kind == 3 && decide (g.base ≤ sX ∧ sX < g.base + g.len) with
  | none => trapPage 2 sX
  | some g =>
    if g.base + g.len < sX + len then trapPage 2 sX
    -- the merge point is a switch of the pod, also for a window of this chip (R492): a word that no route can carry waits (R484)
    if s.fabric.up = 0 then waitM 0 0
    spadFree [(x.opY.toNat, x.opY.toNat + len)]
    if s.st.spadSize < x.opY.toNat + len then trapPage 2 (max x.opY.toNat s.st.spadSize)
    markStarted
    let k0 := (← getWork).count
    contribute x g op size (len / size - k0) k0
    giveSignals c none

/-- A registration of the window stands at its merge point. -/
def FabWindow.stands (w : FabWindow) : Bool := w.state != .retired && (!w.orders.isEmpty || w.others)

/-- A window entry agrees with the registrations that stand (R487): in NCON and LEN with those of its window, and in HOME with those
of its KEY. That HOME is compared between windows of one KEY is DEDUCED (log 68): R492 names a window by KEY and HOME. -/
def State.agrees (s : State) (key home ncon len : Nat) : Bool :=
  s.fabric.windows.all fun w => w.key != key || !w.stands || (w.home == home && w.ncon == ncon && w.len == len)

/-- Registration of a window by an order of this chip, or by another chip (R492): none where it disagrees. A window that is over begins
again; what its home has still to apply is kept (R494). -/
def State.registerWindow (s : State) (key home ncon len : Nat) (order : Option Nat) : Option State :=
  let os := order.toList
  match s.window key home with
  | some w =>
    if s.agrees key home ncon len then
      let old := if w.closed.isEmpty then [] else [w]
      let w := if w.stands then { w with orders := w.orders ++ os, others := w.others || order.isNone }
        else if w.state = .retired then
          ⟨key, home, ncon, len, .awaited, os, order.isNone, 0, [], 0, [], [], []⟩
        else { w with ncon := ncon, len := len, orders := os, others := order.isNone }
      let past := if w.state = .awaited then s.fabric.past ++ old else s.fabric.past
      some ({ s with fabric := { s.fabric with past := past } }.setWindow w)
    else none
  | none =>
    if s.agrees key home ncon len then
      some { s with fabric := { s.fabric with
        windows := s.fabric.windows ++ [⟨key, home, ncon, len, .awaited, os, order.isNone, 0, [], 0, [], [], []⟩] } }
    else none

/-- The home's registration begins to stand. -/
def State.openWindow (s : State) (key home order base : Nat) (pages : List HeldPage) : State :=
  match s.window key home with
  | some w => s.setWindow { w with state := .opened, order := order, base := base, pages := pages }
  | none => s

/-- The home's registration is over: open rounds are discarded (R494). -/
def State.closeWindow (s : State) (key home : Nat) : State :=
  match s.window key home with
  | some w => s.setWindow { w with state := .retired, rounds := [], held := [] }
  | none => s

/-- An order retires: its registrations end (R487). The windows that it is the home of close; one that no chip registers any more and
that has not opened is gone. -/
def State.closeWindowsOf (s : State) (order : Nat) : State :=
  let s := (s.fabric.windows.filter fun w => w.home == s.fabric.chip && w.state == .opened && w.order == order).foldl
    (fun s w => s.closeWindow w.key w.home) s
  let left := s.fabric.windows.map fun w => { w with orders := w.orders.filter (· != order) }
  { s with fabric := { s.fabric with
    windows := left.filter fun w => w.state != .awaited || w.stands || !w.closed.isEmpty || !w.held.isEmpty } }

/-- RWIN_CONTRIBUTION (R493): a contribution of another chip. -/
def execRwinContribution (chip key home e op value : Nat) (s : State) : Host.Outcome State Fault Refusal :=
  .next (match s.window key home with
    | some w => if w.state = .retired then s else s.setWindow { w with held := w.held ++ [⟨chip, e, op, value⟩] }
    | none => s)

/-- Apply one closed round at its home bank, by the translation that the window holds (R494). One that reaches a weight region is
dropped: DESIGN CHOICE (log 69), R356 has such a write trap, and the word that it came from has been performed. -/
def State.applyRound (s : State) (w : FabWindow) (c : Contribution) : State :=
  let n := rwinBytes c.op
  let va := w.base + c.e
  match w.pages[va / 65536 - w.base / 65536]? with
  | none => s
  | some p =>
    let pa := p.pa + va % 65536
    if s.weightFrame pa then s
    else
      let s := s.noteHeld p.slot va pa
      let s := match p.ipa with | some i => s.markDirty p.fn (i + va % 65536) | none => s
      s.writeHomeNat pa n (rwinApply c.op c.value (s.mem.readNat pa n))

/-- RWIN_HOME_WRITE (R494): the oldest closed round of a window of this chip is applied, once a port is up that brings it (R484). -/
def execRwinHomeWrite (key home : Nat) (s : State) : Host.Outcome State Fault Refusal :=
  .next (if home ≠ s.fabric.chip ∨ s.fabric.up = 0 then s
    else match s.fabric.past.find? fun w => w.key == key && w.home == home with
    | some w =>
      match w.closed with
      | c :: rest =>
        let t := s.applyRound w c
        let left := if rest.isEmpty then t.fabric.past.erase w
          else t.fabric.past.map fun x => if x = w then { w with closed := rest } else x
        { t with fabric := { t.fabric with past := left } }
      | [] => { s with fabric := { s.fabric with past := s.fabric.past.erase w } }
    | none =>
      match s.window key home with
      | some w =>
        match w.closed with
        | c :: rest => (s.applyRound w c).setWindow { w with closed := rest }
        | [] => s
      | none => s)

/-! ## Ports and advertisements (R484, R485, R496, R509) -/

/-- FLIT_RETRANSMIT (R484, R485). -/
def execFlitRetransmit (port : Nat) (s : State) : Host.Outcome State Fault Refusal :=
  .next { s with fabric := { s.fabric with err := s.fabric.err ||| BitVec.ofNat 16 (2 ^ (port % 16)) } }
/-- PORT_DOWN (R484). -/
def execPortDown (port : Nat) (s : State) : Host.Outcome State Fault Refusal :=
  .next { s with fabric := { s.fabric with
    up := s.fabric.up &&& ~~~(BitVec.ofNat 16 (2 ^ (port % 16)))
    keys := s.fabric.keys.filter fun k => k.1 != port % 16 } }
/-- PORT_TRAINED (R485, R509, R511): the firmware cores of both chips agree the port's key, with messages that the identity key signs.
Where no leaf is left nothing is signed: the port carries world 0 alone (DEDUCED, log 70). -/
def execPortTrained (port : Nat) (s : State) : Host.Outcome State Fault Refusal :=
  let rest := s.fabric.keys.filter fun k => k.1 != port % 16
  let up := s.fabric.up ||| BitVec.ofNat 16 (2 ^ (port % 16))
  .next (if s.sealEng.leaf < leafCount then
    { s.useLeaf with
      fabric := { s.fabric with up := up, keys := rest ++ [(port % 16, Config.linkKey s.freeCount)] }
      freeCount := s.freeCount + 1 }
  else { s with fabric := { s.fabric with up := up, keys := rest } })

/-- The identities that are advertised: ready regions of world 0 of the partitions named (R496). -/
def State.advertised (s : State) : List Nat :=
  (s.parts.filter fun p => p.1 < 8 && s.fabric.advParts.getLsbD p.1).flatMap fun p =>
    (p.2.weights.filter fun w => w.2.st == 2 && w.2.world == 0).map fun w => w.2.id

/-- The flits of a full set (R496); the number bounds them. -/
def advertFlits (chip seq : Nat) : Nat → List Nat → List (List Byte)
  | 0, _ => []
  | n + 1, ids =>
    let here := ids.take 15
    let rest := ids.drop 15
    let head := chip + here.length * 2 ^ 16 + (if rest.isEmpty then 2 ^ 20 else 0)
    let body := bytesOfNat 8 head ++ bytesOfNat 8 seq ++ here.flatMap (bytesOfNat 16)
    let flit := body ++ List.replicate (256 - body.length) 0
    if rest.isEmpty then [flit] else flit :: advertFlits chip seq n rest

/-- A region of a partition became ready, or was disabled: one flit (R496). It holds the identity of the one that became ready, and
none of one that was disabled, since only ready regions are advertised: DESIGN CHOICE (log 22). -/
def State.advertiseOne (s : State) (part world id : Nat) (ready : Bool) : State :=
  if s.fabric.advEn && world == 0 && part < 8 && s.fabric.advParts.getLsbD part then
    let body := bytesOfNat 8 (s.fabric.chip + ready.toNat * 2 ^ 16) ++ bytesOfNat 8 s.fabric.advSeq ++
      if ready then bytesOfNat 16 id else []
    { s with out := .advert (body ++ List.replicate (256 - body.length) 0) :: s.out }
  else s

/-- Send the full set. -/
def State.advertise (s : State) : State :=
  if s.fabric.advEn then
    let ids := s.advertised
    let flits := advertFlits s.fabric.chip s.fabric.advSeq (ids.length + 1) ids
    { s with
      out := (flits.map Out.advert).reverse ++ s.out
      fabric := { s.fabric with advSeq := s.fabric.advSeq + 1, advAt := s.clock } }
  else s

/-- ADVERTISE_PERIOD (R496): the full set, 2^24 cycles after the last one, or after advertisements were enabled. -/
def execAdvertisePeriod (s : State) : Host.Outcome State Fault Refusal :=
  .next (if s.fabric.advAt + 2 ^ 24 ≤ s.clock then s.advertise else s)

/-- What the pod tells the device (R488, R492). -/
def State.fabricInput (s : State) (i : FabricInput) : State :=
  match i with
  | .status f =>
    match s.fabric.flight with
    | u :: rest => { s with fabric := { s.fabric with flight := rest, answers := s.fabric.answers ++ [(u, f)] } }
    | [] => s
  | .register key home ncon len => (s.registerWindow key home ncon len none).getD s
  | .opened key home =>
    if home = s.fabric.chip then s
    else match s.window key home with
      | some w => s.setWindow { w with state := .opened, others := true }
      | none => s
  | .retired key home => if home = s.fabric.chip then s else s.closeWindow key home

end Sys2Proof.Machine
end

