-- ==== Sys2Proof/Machine/Keccak.lean ====
section
/-! DEFINITION. SHAKE256, by which the device names weights and measurements (R356, R511, R512): the sponge of FIPS 202; and KMAC256 of
NIST SP 800-185 over it, for the MACs of R505 (PRESUMED, log 19: the spec names the functions and does not restate them). -/

namespace Sys2Proof.Machine

/-- The 25 lanes of the permutation, lane (x, y) at x + 5y. -/
abbrev Lanes := List (BitVec 64)

/-- A lane. -/
def lane (a : Lanes) (i : Nat) : BitVec 64 := a.getD i 0

/-- Rotation of a lane. -/
def rotl64 (x : BitVec 64) (n : Nat) : BitVec 64 := if n % 64 = 0 then x else (x <<< (n % 64)) ||| (x >>> (64 - n % 64))

/-- Rotation amounts, lane (x, y) at x + 5y. -/
def keccakRot : List Nat :=
  [0, 1, 62, 28, 27, 36, 44, 6, 55, 20, 3, 10, 43, 25, 39, 41, 45, 15, 21, 8, 18, 2, 61, 56, 14]

/-- Round constants. -/
def keccakRc : List (BitVec 64) :=
  [0x0000000000000001, 0x0000000000008082, 0x800000000000808A, 0x8000000080008000, 0x000000000000808B,
   0x0000000080000001, 0x8000000080008081, 0x8000000000008009] ++
  [0x000000000000008A, 0x0000000000000088, 0x0000000080008009, 0x000000008000000A, 0x000000008000808B,
   0x800000000000008B, 0x8000000000008089, 0x8000000000008003] ++
  [0x8000000000008002, 0x8000000000000080, 0x000000000000800A, 0x800000008000000A, 0x8000000080008081,
   0x8000000000008080, 0x0000000080000001, 0x8000000080008008]

/-- One round. -/
def keccakRound (a : Lanes) (rc : BitVec 64) : Lanes :=
  let c := (List.range 5).map fun x => lane a x ^^^ lane a (x + 5) ^^^ lane a (x + 10) ^^^ lane a (x + 15) ^^^ lane a (x + 20)
  let d := (List.range 5).map fun x => lane c ((x + 4) % 5) ^^^ rotl64 (lane c ((x + 1) % 5)) 1
  let a := (List.range 25).map fun i => lane a i ^^^ lane d (i % 5)
  -- lane (x, y) goes to (y, 2x + 3y): the lane at (x', y') comes from x = x' + 3y', y = x'
  let b := (List.range 25).map fun i =>
    let x := (i % 5 + 3 * (i / 5)) % 5
    let src := x + 5 * (i % 5)
    rotl64 (lane a src) (keccakRot.getD src 0)
  let e := (List.range 25).map fun i =>
    lane b i ^^^ (~~~(lane b ((i % 5 + 1) % 5 + 5 * (i / 5))) &&& lane b ((i % 5 + 2) % 5 + 5 * (i / 5)))
  (e.headD 0 ^^^ rc) :: e.drop 1

/-- The permutation. -/
def keccakF (a : Lanes) : Lanes := keccakRc.foldl keccakRound a

/-- Bytes of one block of SHAKE256. -/
def shakeRate : Nat := 136

/-- Lanes XORed with the bytes of one block. -/
def absorbBlock (a : Lanes) (bs : List (BitVec 8)) : Lanes :=
  keccakF ((List.range 25).map fun i => lane a i ^^^ BitVec.ofNat 64 (natOfBytes ((bs.drop (8 * i)).take 8)))

/-- Absorb a padded message, block by block; the number bounds the blocks. -/
def absorbAll : Nat → Lanes → List (BitVec 8) → Lanes
  | 0, a, _ => a
  | n + 1, a, bs => if bs.isEmpty then a else absorbAll n (absorbBlock a (bs.take shakeRate)) (bs.drop shakeRate)

/-- The padding of a message: a byte that names the function, zeros, and the last bit of a block. -/
def spongePad (d : BitVec 8) (bs : List (BitVec 8)) : List (BitVec 8) :=
  let k := shakeRate - bs.length % shakeRate
  if k = 1 then bs ++ [d ||| 0x80] else bs ++ d :: List.replicate (k - 2) 0 ++ [0x80]

/-- The first `n` ≤ 136 bytes that the sponge gives for a message, as a number. -/
def sponge256 (d : BitVec 8) (msg : List (BitVec 8)) (n : Nat) : Nat :=
  let p := spongePad d msg
  let a := absorbAll (p.length / shakeRate + 1) (List.replicate 25 0) p
  natOfBytes ((a.flatMap fun l => bytesOfNat 8 l.toNat).take n)

/-- The first `n` ≤ 136 bytes of SHAKE256 of a message, as a number. -/
def shake256 (msg : List (BitVec 8)) (n : Nat) : Nat := sponge256 0x1F msg n

/-- The first bytes of SHAKE256 of a message. -/
def shakeBytes (msg : List (BitVec 8)) (n : Nat) : List (BitVec 8) := bytesOfNat n (shake256 msg n)

/-- A string filled with zeros to a whole number of blocks (SP 800-185). -/
def bytePad (bs : List (BitVec 8)) : List (BitVec 8) :=
  let p := (0x01 : BitVec 8) :: 0x88 :: bs
  p ++ List.replicate ((shakeRate - p.length % shakeRate) % shakeRate) 0

/-- The first `n` ≤ 31 bytes of KMAC256 of a message under a 256-bit key, with an empty customisation string. -/
def kmac256 (key msg : List (BitVec 8)) (n : Nat) : List (BitVec 8) :=
  let name : List (BitVec 8) := [0x01, 0x20, 0x4B, 0x4D, 0x41, 0x43, 0x01, 0x00]
  let k : List (BitVec 8) := 0x02 :: 0x01 :: 0x00 :: key
  bytesOfNat n (sponge256 0x04 (bytePad name ++ bytePad k ++ msg ++ [BitVec.ofNat 8 (8 * n), 0x01]) n)

end Sys2Proof.Machine
end

