-- ==== Sys2Proof/Machine/Loom.lean ====
section
/-! DEFINITION. The Loom's arithmetic (R144 to R147), the Bolt (R320 to R325), the accumulators (R326, R327) and the
epilogue (R339, R340), shared by the matrix words and the Draper. -/

namespace Sys2Proof.Machine

/-! ## Operand pairs (R322) -/

/-- Kt and the slots of one weight tile for a weight format; none for a format that holds no weights. -/
def weightTile (f : Fmt) : Option (Nat × Nat) :=
  match f.fmt with
  | 4 | 5 => some (128, 1)
  | 6 => some (256, 1)
  | 2 | 3 => some (128, 2)
  | 10 => some (512, 1)
  | _ => none

/-- Weights and activations of these formats make a pass (R322). -/
def pairOk (w a : Fmt) : Bool :=
  let fp := fun (f : Fmt) => f.fmt == 2 || f.fmt == 3 || f.fmt == 4 || f.fmt == 5 || f.fmt == 6
  (w.fmt == 10 && !w.scaled && a.fmt == 7 && !a.scaled) || (fp w && fp a)

/-- Rows of cells in one slot: a 16-bit tile has its first half in its first slot (log 17). -/
def slotRows (f : Fmt) : Nat := match weightTile f with | some (kt, span) => kt / span | none => 128

/-- The element code and scale code of a cell that holds zero. -/
def zeroCell (f : Fmt) : Nat × Nat := (if f.tri then 1 else 0, if f.sk then 0x38 else 127)

/-! ## Elements at rest -/

/-- The codes of element `c` of the row at byte `b0` of a byte memory (R211, R132). -/
def Mem.elemCode (m : Mem) (f : Fmt) (b0 c : Nat) : Nat × Nat :=
  let (a, sub) := f.place b0 c
  let x := m.readNat a f.bytes
  let code := if f.tri then x / 3 ^ sub % 3 else if f.bitsPer = 4 then x / 16 ^ sub % 16 else x
  (code, if f.scaled then (m.read (f.scaleByte a sub)).toNat else 0)

/-! ## Sums (R144, R145, R147) -/

/-- An exact dyadic sum: mantissa and exponent. -/
def addDyadic (a b : Int × Int) : Int × Int :=
  let e := min a.2 b.2
  (a.1 * 2 ^ (a.2 - e).toNat + b.1 * 2 ^ (b.2 - e).toNat, e)

/-- The finite value of a product as a signed mantissa and an exponent. -/
def Fp.dyadic : Fp → Int × Int
  | .fin neg m e => (if neg then -(m : Int) else m, e)
  | _ => (0, 0)

/-- The group sum t of R144 over the pairs of one group, with the special cases of R147. -/
def groupSum (ps : List (Fp × Fp)) : Elem × Flags :=
  let prods := ps.map fun p => (fpMul p.1 p.2).1
  let pos := prods.any (· == .inf false)
  let neg := prods.any (· == .inf true)
  if prods.any (· == .nan) || (pos && neg) then (nan32, fINV)
  else if pos then (0x7F800000, 0)
  else if neg then (0xFF800000, 0)
  else
    let s := prods.foldl (fun a p => addDyadic a p.dyadic) (0, 0)
    if s.1 = 0 then (if prods.all Fp.neg && !prods.isEmpty then 0x80000000 else 0, 0)
    else toFp32 0 0 (.fin (decide (s.1 < 0)) s.1.natAbs s.2)

/-- Groups of 16 added to an accumulator element in ascending k (R144). -/
def addGroups : Nat → List (Fp × Fp) → Elem × Flags → Elem × Flags
  | 0, _, a => a
  | n + 1, ps, a =>
    let t := groupSum (ps.take 16)
    let r := add32 0 0 a.1 t.1
    addGroups n (ps.drop 16) (r.1, a.2 ||| t.2 ||| r.2)

/-- The saturating INT32 sum of R145, with its flags (R143): a saturated sum is inexact. -/
def satAdd (a x : Int) : Int × Flags :=
  let v := a + x
  if v < -(2 ^ 31) then (-(2 ^ 31), fOVF ||| fINX) else if 2 ^ 31 - 1 < v then (2 ^ 31 - 1, fOVF ||| fINX) else (v, 0)

/-- Ternary updates in ascending k (R145). -/
def addTrits (ps : List (Fp × Fp)) (a : Elem × Flags) : Elem × Flags :=
  ps.foldl (fun a p =>
    let r := satAdd a.1.toInt (fpToInt p.1 * fpToInt p.2)
    (BitVec.ofInt 32 r.1, a.2 ||| r.2)) a

/-- One row of a pass: the 64 sums from the initial elements, given the exact activations and the exact weight of each
(k, column) (R144 to R146). -/
def passRow (tri : Bool) (acts : List Fp) (weight : Nat → Nat → Fp) (init : Nat → Elem) : List (Elem × Flags) :=
  genFrom 64 0 fun col =>
    let ps := (acts.zip (genFrom acts.length 0 fun k => weight k col))
    if tri then addTrits ps (init col, 0) else addGroups ((acts.length + 15) / 16) ps (init col, 0)

/-! ## The Bolt (R321 to R325) -/

/-- The key of a bank of a tile. -/
def boltKey (die tile bank : Nat) : Nat := die * 256 + tile * 2 + bank

/-- A bank. -/
def State.bolt (s : State) (key : Nat) : BoltBank := assoc s.bolts key BoltBank.empty

/-- Replace a bank. -/
def State.setBolt (s : State) (key : Nat) (b : BoltBank) : State := { s with bolts := assocPut s.bolts key b }

/-- The tile of member `m` of a gang, as die and tile. -/
def State.tileOf (s : State) (gang m : Nat) : Option (Nat × Nat) :=
  ((s.st :: s.others).find? fun t => t.place.gang == gang && t.place.member == m).map fun t => (t.place.die, t.place.tile)

/-- A load state refers to a bank of a tile. -/
def State.loadAt (s : State) (t : Strand) (l : LoadState) (key : Nat) : Bool :=
  match s.tileOf t.place.gang l.member with
  | some (d, i) => boltKey d i l.bank == key
  | none => false

/-- An entry is an `m.ldw` of a strand that has loaded columns into a bank. -/
def State.loadsInto (s : State) (t : Strand) (x : Entry) (key : Nat) : Bool :=
  match x.word with
  | .mLdw _ _ _ m _ =>
    0 < x.prog.count && ((if m.getLsbD 1 then (genFrom 16 0 id).filter fun i => bit x.extA.toNat i else [t.place.member]).any
      fun i => s.loadAt t ⟨i, (m.getLsbD 0).toNat, false⟩ key)
  | _ => false

/-- The loads of a strand that are under way into a bank begin again: what they had loaded is gone (R323, R325; DEDUCED, log 27). -/
def State.restartLoads (s : State) (key : Nat) (t : Strand) : Strand :=
  if (t.queue 2).any fun x => s.loadsInto t x key then
    t.setQueue 2 ((t.queue 2).map fun x => if s.loadsInto t x key then { x with prog := { x.prog with count := 0 } } else x)
  else t

/-- A slot write by the writer makes the bank stale for every load state that refers to it, but the writer's own (R323);
the Draper and a reset have no own. -/
def State.staleOthers (s : State) (key : Nat) (own : Option (Nat × Nat × Nat × Nat)) : State :=
  let hit := fun (t : Strand) (l : LoadState) =>
    s.loadAt t l key && own != some (t.place.gang, t.place.member, l.member, l.bank)
  let mark := fun t : Strand =>
    let loads := t.mat.loads.map fun l => if hit t l then { l with stale := true } else l
    let t := { t with mat := { t.mat with loads := loads } }
    match own with
    | some (g, m, _) => if t.place.gang = g ∧ t.place.member = m then t else s.restartLoads key t
    | none => s.restartLoads key t
  { s with st := mark s.st, others := s.others.map mark }

/-- The strand's state of a bank of a member's tile. -/
def Strand.loadState (t : Strand) (member bank : Nat) : Option LoadState :=
  t.mat.loads.find? fun l => l.member == member && l.bank == bank

/-- Replace or add a load state. -/
def Strand.setLoadState (t : Strand) (l : LoadState) : Strand :=
  let has := t.mat.loads.any fun x => x.member == l.member && x.bank == l.bank
  let loads := if has then t.mat.loads.map fun x => if x.member = l.member ∧ x.bank = l.bank then l else x
    else t.mat.loads ++ [l]
  { t with mat := { t.mat with loads := loads } }

/-- The load record of a bank (R323). -/
def Strand.loadRecord (t : Strand) (bank : Nat) : List LoadRecord := vget t.mat.records bank []

/-- A performed load joins the record of a bank; the oldest of 17 is dropped (R323). -/
def Strand.recordLoad (t : Strand) (members : List Nat) (bank : Nat) (r : LoadRecord) : Strand :=
  let rs := t.loadRecord bank
  let t := { t with mat := { t.mat with records := vput t.mat.records bank ((rs ++ [r]).drop (rs.length + 1 - 16)) } }
  members.foldl (fun t m => if (t.loadState m bank).isNone then t.setLoadState ⟨m, bank, false⟩ else t) t

/-- A weight region of the partition that is registered and ready and holds a physical address (R342, R356). -/
def State.regionAt (s : State) (part pa : Nat) : Option WeightEntry :=
  ((s.part part).weights.find? fun w =>
    w.2.en && w.2.st == 2 && decide (w.2.frame ≤ pa / 65536 ∧ pa / 65536 < w.2.frame + w.2.ngr)).map Prod.snd

/-- The slot of a bank with a number, if it is not empty. -/
def BoltBank.slot (b : BoltBank) (i : Nat) : Option BoltSlot := (b.slots.find? fun x => x.1 == i).map Prod.snd

/-- The exact weight of (k, col) in a bank from slot `slot0` on, decoded by a descriptor (R331), with the flags of its decoding.
A slot that holds no weight of that descriptor, as the second slot of a 16-bit tile may, gives a free value (log 10). -/
def BoltBank.weight (b : BoltBank) (desc slot0 k col : Nat) : Fp × Flags :=
  let f := fmtOf desc
  let rows := slotRows f
  match (b.slot (slot0 + k / rows)).filter fun sl => sl.desc == desc with
  | some sl =>
    let c := sl.cells.getD (col * rows + k % rows) (zeroCell f)
    f.exact c.1 c.2
  | none => f.exact (Config.strayWeight (slot0 + k / rows) (k % rows) col).toNat (zeroCell f).2

/-- Slots that the weights of K rows take. -/
def slotCount (f : Fmt) (k : Nat) : Nat := match weightTile f with | some (kt, span) => (k + kt - 1) / kt * span | none => 0

/-- Weight tiles of a pass of `k` weights. -/
def tileCount (f : Fmt) (k : Nat) : Nat := match weightTile f with | some (kt, _) => (k + kt - 1) / kt | none => 0

/-- The first slots of the tiles of a pass hold weights of one descriptor, and none lies past slot 767; the descriptor (R330
order 4). -/
def BoltBank.passDesc (b : BoltBank) (slot0 k : Nat) : Option Nat :=
  match b.slot slot0 with
  | none => none
  | some sl =>
    let f := fmtOf sl.desc
    let span := slotCount f 1
    if (genFrom (tileCount f k) 0 fun i => slot0 + span * i).all fun i =>
      decide (i ≤ 767) && (match b.slot i with | some x => x.desc == sl.desc | none => false)
    then some sl.desc else none

/-! ## Accumulators (R326, R327) -/

/-- A row of an accumulator that nothing has written. -/
def AccRow.zero (tag : Nat) : AccRow := ⟨Vector.replicate 64 0, BitVec.ofNat 12 tag, false⟩

/-- A row of an accumulator of a strand. -/
def Strand.accRow (t : Strand) (z row : Nat) : AccRow :=
  match t.mat.accs[z]? with
  | some a => vget a.rows row (AccRow.zero 0)
  | none => AccRow.zero 0

/-- Write a row: dirty and tagged, and the checkpoint bit of its group cleared (R327). -/
def Strand.setAccRow (t : Strand) (z row tag : Nat) (data : Vector Elem 64) : Strand :=
  match t.mat.accs[z]? with
  | none => t
  | some a =>
    let a := { rows := vput a.rows row ⟨data, BitVec.ofNat 12 tag, true⟩
               ckv := a.ckv &&& ~~~(BitVec.ofNat 16 (2 ^ (row / 16))) }
    { t with mat := { t.mat with accs := t.mat.accs.set z a } }

/-! ## The epilogue (R339, R340) -/

/-- Fields of an epilogue word. -/
structure Epi where
  reserved : Nat
  ncol : Nat
  int : Bool
  dstride : Nat
  ddesc : Nat
  zero : Bool
  sp : Bool
  scale : Bool
  bias : Bool
  act : Nat
  row0 : Nat
  nr : Nat
  deriving DecidableEq, Repr

/-- The epilogue word in an operand. -/
def epiOf (w : Word) : Epi :=
  let x := w.toNat
  ⟨bits x 58 6, bits x 51 7, bit x 50, bits x 32 18, bits x 24 8, bit x 23, bit x 22, bit x 21, bit x 20, bits x 17 3,
   bits x 9 8, bits x 0 9⟩

/-- The fields keep their limits (R330 order 2). -/
def Epi.fits (e : Epi) : Bool :=
  e.reserved == 0 && 1 ≤ e.ncol && e.ncol ≤ 64 && 1 ≤ e.nr && e.nr ≤ 256 && e.row0 + e.nr ≤ 256

/-- The fields and descriptor keep R341's limits. -/
def Epi.legal (e : Epi) : Bool := e.act < 5 && (if e.sp then descOk e.ddesc else e.ddesc == 0)

/-- Combine a step of FP32 with the flags so far. -/
def stepFlags (a : Elem × Flags) (r : Elem × Flags) : Elem × Flags := (r.1, a.2 ||| r.2)

/-- One element of the epilogue (R340): the accumulator element, the scale and the bias. -/
def epiElem (int : Bool) (scale : Option Elem) (bias : Option Elem) (act : Nat) (acc : Elem) : Elem × Flags :=
  let v : Elem × Flags := if int then toFp32 0 0 (fpOfInt acc.toInt) else (acc, 0)
  let v := match scale with | some k => stepFlags v (mul32 0 0 v.1 k) | none => v
  let v := match bias with | some b => stepFlags v (add32 0 0 v.1 b) | none => v
  match act with
  | 1 => (if fpLt (fpOf v.1) (.fin false 0 0) then 0 else v.1, v.2)
  | 2 => stepFlags v (sigmDev v.1)
  | 3 => stepFlags v (tanhDev v.1)
  | 4 =>
    let g := sigmDev v.1
    let r := mul32 0 0 v.1 g.1
    (r.1, v.2 ||| g.2 ||| r.2)
  | _ => v

/-- Write one row of FP32 results through a port, after every element is checked (R137, R340, R341): `draw` numbers the row's
positions. -/
def writeRow (p : Port) (attr : Nat) (b0 ncol mode : Nat) (draw : Nat → Nat) (out : List Elem) : M Flags := do
  let f := fmtOf attr
  if f.scaled then
    eachM (genFrom (ncol / f.blockLen) 0 id) fun k => do
      let _ ← p.blockRoom attr f b0 k
    let fls ← collectM (genFrom (ncol / f.blockLen) 0 id) fun k =>
      p.writeBlock attr f b0 k mode
        ((genFrom f.blockLen (k * f.blockLen) fun c => (fpOf (out.getD c 0), draw c)))
    return fls.foldl (· ||| ·) 0
  else
    eachM (genFrom ncol 0 id) fun c => do
      let _ ← p.room attr f b0 c ncol fun _ => true
    let fls ← collectM (genFrom ncol 0 id) fun c =>
      p.write attr f b0 c ncol (fun _ => true) mode (draw c) (fpOf (out.getD c 0))
    return fls.foldl (· ||| ·) 0

/-- Bytes of one written row, with its scales. -/
def rowBytes (f : Fmt) (ncol : Nat) : Nat := f.footprint ncol + (if f.scaled then ncol / f.blockLen else 0)

end Sys2Proof.Machine
end

