-- ==== Sys2Proof/Machine/Matrix.lean ====
section
/-! DEFINITION. What the matrix engine does when it performs a word (R326 to R350), but for the Draper's words. -/

namespace Sys2Proof.Machine

/-! ## Operand words (R329, R334, R346) -/

/-- Fields of a shape word. -/
structure Shape where
  astride : Nat
  init : Bool
  adesc : Nat
  k : Nat
  slot : Nat
  row0 : Nat
  nr : Nat
  deriving DecidableEq, Repr

/-- The shape word in an operand. -/
def shapeOf (w : Word) : Shape :=
  let x := w.toNat
  ⟨bits x 53 11 * 16, bit x 52, bits x 44 8, bits x 27 17, bits x 17 10, bits x 9 8, bits x 0 9⟩

/-- A legal reduction length (R329). -/
def kOk (k : Nat) : Bool := k % 16 == 0 && 16 ≤ k && k ≤ 98304

/-- The fields keep their limits (R330 order 2). -/
def Shape.fits (s : Shape) : Bool := kOk s.k && s.slot ≤ 767 && 1 ≤ s.nr && s.nr ≤ 256 && s.row0 + s.nr ≤ 256

/-- ROW0 and NR of a range word, if it keeps its limits. -/
def rangeOf (w : Word) : Option (Nat × Nat) :=
  let row0 := bits w.toNat 9 8
  let nr := bits w.toNat 0 9
  if w.toNat / 2 ^ 17 = 0 ∧ 1 ≤ nr ∧ nr ≤ 256 ∧ row0 + nr ≤ 256 then some (row0, nr) else none

/-- An accumulator of a strand is allocated (R326, R330 order 1). -/
def checkAcc (t : Strand) (z : Nat) : M Unit := do
  if t.mat.accs.length ≤ z then trapPage 2 z

/-! ## Loads (R334 to R336) -/

/-- The range of a load word (R334): DESC, K, NCOL and SLOT, if they keep their limits. -/
def loadWordOf (w : Word) (spad : Bool) : Option (Nat × Nat × Nat × Nat) :=
  let x := w.toNat
  let d := bits x 34 8
  let k := bits x 17 17
  let n := bits x 10 7
  if x / 2 ^ 42 = 0 ∧ kOk k = true ∧ 1 ≤ n ∧ n ≤ 64 ∧ bits x 0 10 ≤ 767 ∧ (spad = true ∨ d = 0) then
    some (d, k, n, bits x 0 10)
  else none

/-- Mark the slots of a load as holding zero weights of a descriptor, in each bank. -/
def clearSlots (keys : List Nat) (desc slot n : Nat) (s : State) : State :=
  let f := fmtOf desc
  keys.foldl (fun s key =>
    let b := s.bolt key
    let fresh := genFrom n slot fun i => (i, BoltSlot.mk desc (Array.replicate (64 * slotRows f) (zeroCell f)) [])
    s.setBolt key { b with slots := b.slots.filter (fun x => !(slot ≤ x.1 && x.1 < slot + n)) ++ fresh }) s

/-- Put one column of cells, read from some frames, into each bank. -/
def putColumn (keys : List Nat) (f : Fmt) (slot col : Nat) (cells : Array (Nat × Nat)) (srcs : List (Nat × Nat))
    (s : State) : State :=
  let rows := slotRows f
  keys.foldl (fun s key =>
    let b := s.bolt key
    let fill := fun (x : Nat × BoltSlot) (cs : Array (Nat × Nat)) (r : Nat) =>
      match cells[(x.1 - slot) * rows + r]? with
      | some c => cs.setIfInBounds (col * rows + r) c
      | none => cs
    let slots := b.slots.map fun x =>
      if slot ≤ x.1 ∧ (x.1 - slot) * rows < cells.size then
        (x.1, { x.2 with
          cells := (List.range rows).foldl (fill x) x.2.cells
          srcs := x.2.srcs ++ srcs.filter fun f => !x.2.srcs.contains f })
      else x
    s.setBolt key { b with slots := slots }) s

/-- The identity that a load gives its bank: the region that its whole source lies in, or zero (R342). -/
def sourceIdentity (f : Fmt) (base stride : Word) (k n : Nat) : M Nat := fun s =>
  let place := s.st.place
  let cols : M (List (Option WeightEntry)) := do
    let rs ← collectM (genFrom n 0 id) fun col => do
      let b0 := rowBase base stride col
      collectM (pieces (f.footprint k / 64 + 2) b0 (f.footprint k)) fun p => do
        let m ← mapAccess 2 place.slot p.1 .read
        return (← get).regionAt place.part m.pa
    return rs.flatten
  match cols s with
  | .ok (some r :: rest) s' => .ok (if rest.all (· == some r) then r.id else 0) s'
  | .ok _ s' => .ok 0 s'
  | .error _ _ => .ok 0 s

/-- The frames that a column of a memory source is read from. -/
def columnFrames (spad : Bool) (f : Fmt) (b0 k : Nat) : M (List (Nat × Nat)) := do
  if spad then return []
  let slot := (← getSt).place.slot
  collectM (pieces (f.footprint k / 64 + 2) b0 (f.footprint k)) fun p => do
    let m ← mapAccess 2 slot p.1 .read
    return (m.pa / 65536, m.pa / 65536 + 1)

/-- Perform a load into banks, column by column from `start` (R335): the slots are written with the first column; `done` is
told the attribute and the column. The attribute of a memory source is the one of weight 0 of column 0 (R528), or the one
that the load has taken before. Every column begins on a block boundary and has its elements below D. -/
def loadColumns (keys : List Nat) (spad : Bool) (base stride lw : Word) (taken : Option Nat) (start : Nat)
    (done : Nat → Nat → M Unit) : M Unit := do
  let t ← getSt
  match loadWordOf lw spad with
  | none => trapFormat base.toNat
  | some (d, k, n, slot) =>
    let p := if spad then spadPort d else memPort 2 t.place.slot .read true
    if spad && !descOk d then trapFormat base.toNat
    let attr ← match taken with
      | some a => pure a
      | none => if spad then pure d else p.attrAt base.toNat 0
    let f := fmtOf attr
    if (weightTile f).isNone || 768 < slot + slotCount f k then trapFormat base.toNat
    if start = 0 then alignImage f base stride
    if spad then spadFree ((genFrom n 0 fun c => elemRanges f (rowBase base stride c) 0 k).flatten)
    loopM (n - start) start fun col => do
      let b0 := rowBase base stride col
      if f.scaled && !f.onBlock b0 then trapM .align 0 (BitVec.ofNat 64 b0)
      let cells ← collectM (genFrom k 0 id) fun i => p.readCode attr f b0 i
      let srcs ← columnFrames spad f b0 k
      -- a load decodes its weights (R124, R131)
      setFlags (cells.foldl (fun fl c => fl ||| (f.exact c.1 c.2).2) 0)
      if col = 0 then modify (clearSlots keys attr slot (slotCount f k))
      modify (putColumn keys f slot col cells.toArray srcs.eraseDups)
      done attr col
    let ident ← if spad then pure 0 else sourceIdentity f base stride k n
    modify fun s => keys.foldl (fun s key => s.setBolt key { s.bolt key with ident := ident }) s

/-- Tell every other strand that banks were written. -/
def staleAll (targets : List (Nat × Nat × Nat)) : M Unit := do
  let p := (← getSt).place
  modify fun s => targets.foldl (fun s t => s.staleOthers t.1 (some (p.gang, p.member, t.2.1, t.2.2))) s

/-- The banks that a load writes: key, member and bank number. -/
def loadTargets (m : BitVec 3) (mask : Nat) : M (List (Nat × Nat × Nat)) := do
  let s ← get
  let p := s.st.place
  let bank := (m.getLsbD 0).toNat
  let ms := if m.getLsbD 1 then (genFrom 16 0 id).filter fun i => bit mask i else [p.member]
  return ms.filterMap fun i => (s.tileOf p.gang i).map fun d => (boltKey d.1 d.2 bank, i, bank)

/-! ## Rows in flight (R336) -/

/-- Members of a mask, ascending. -/
def membersOf (mask : Nat) : List Nat := (genFrom 16 0 id).filter fun i => bit mask i

/-- The done mark of a member's pass, and of a row of its epilogue (R349). -/
def shareMark (m : Nat) (row : Option Nat) : Nat := m * 512 + (match row with | none => 511 | some r => r)

/-- A word of a strand has captured a bank of a tile and has not passed its last row through it; with `rows`, it has passed
some. The values of such a word are its bank, and for a ganged one, once its checks are passed, the weight tiles that each
member's pass has done. -/
def State.flightAt (s : State) (t : Strand) (key : Nat) (rows : Bool) (x : Entry) : Bool :=
  let on := fun (m b : Nat) => s.loadAt t ⟨m, b, false⟩ key
  match x.word, x.prog.vals with
  | .mMma .., b :: _ => on t.place.member b && (!rows || 0 < x.prog.count)
  | .mMmaG .., b :: tiles =>
    ((membersOf (bits x.extC.toNat 0 16)).zip (tiles ++ List.replicate 16 0)).any fun y =>
      on y.1 b && !x.prog.done.contains (shareMark y.1 none) && (!rows || 0 < y.2)
  | _, _ => false

/-- Rows are in flight in a bank for a load by word `seq` of the current strand (R336): those of its words that have captured the
bank before it, of any word that has begun to pass rows, on its tile or for another strand that runs, and of a pass of the
Draper. A word that reloads its bank (`reload`) waits for none of its own strand. -/
def State.rowsInFlight (s : State) (key seq : Nat) (reload : Bool) : Bool :=
  (!reload && (s.st.queue 2).any fun x => x.seq != seq && s.flightAt s.st key (decide (seq < x.seq)) x) ||
    (s.others.any fun t => t.life == .active && !t.engHeld.getLsbD 1 && (t.queue 2).any (s.flightAt t key true)) ||
    (assoc s.drapers (key / 256) Draper.empty).passes.any fun p =>
      p.tile == some (key % 256 / 2) && p.bank == key % 2

/-- `m.ldw` (R335, R336). -/
def performMLdw (m : BitVec 3) (x : Entry) : M Unit := do
  let t ← getSt
  let mask := bits x.extA.toNat 0 16
  if m.getLsbD 1 then
    if t.place.member ≠ 0 then trapM .priv 0 ((encode x.word).setWidth 64)
    if mask = 0 ∨ 2 ^ t.place.size ≤ mask then trapPage 2 x.opX.toNat
  let targets ← loadTargets m mask
  let keys := targets.map Prod.fst
  let s ← get
  -- a member whose rights are withdrawn from its tile takes no load (R499)
  if targets.any fun y => ((s.member y.2.1).map Strand.barred).getD false then waitM 0 0
  if keys.any fun key => s.rowsInFlight key x.seq false then waitM 0 0
  markStarted
  let w ← getWork
  loadColumns keys (m.getLsbD 2) x.opX x.opY x.opZ (if w.count = 0 then none else w.vals.head?) w.count fun attr col => do
    staleAll targets
    modWork fun w => { w with count := col + 1, vals := [attr] }
  let members := targets.map fun y => y.2.1
  modSt fun t => t.recordLoad members (m.getLsbD 0).toNat
    ⟨x.word, (members.map fun i => 2 ^ i).sum, x.pfx, x.opX, x.opY, x.opZ⟩

/-- Reload a bank that is stale for the strand, for its word `seq` (R324): every slot is emptied and the recorded words are
performed again. Loads of the strand's own that are under way into the bank begin again. -/
def reloadBank (seq member bank : Nat) : M Unit := do
  let s ← get
  match s.st.loadState member bank, s.tileOf s.st.place.gang member with
  | some l, some d =>
    if l.stale then
      let key := boltKey d.1 d.2 bank
      if s.rowsInFlight key seq true then waitM 0 0
      modify fun s => s.setBolt key BoltBank.empty
      staleAll [(key, member, bank)]
      modify fun s => { s with st := s.restartLoads key s.st }
      eachM ((s.st.loadRecord bank).filter fun r => bit r.mask member) fun r =>
        match r.word with
        | .mLdw _ _ _ m _ => loadColumns [key] (m.getLsbD 2) r.opX r.opY r.opZ none 0 fun _ _ => pure ()
        | _ => pure ()
      modSt fun t => t.setLoadState { l with stale := false }
    else pure ()
  | _, _ => pure ()

/-! ## Passes (R330, R331) -/

/-- The checks of R330 on a pass of a member's rows, for word `seq`; the answer is the bank's key and weight descriptor. -/
def checkPass (seq : Nat) (owner : Strand) (z : Nat) (act : Word) (sh : Shape) (bank : Nat) : M (Nat × Nat) := do
  checkAcc owner z
  if !sh.fits then trapFormat act.toNat
  let member := owner.place.member
  if ((← getSt).loadState member bank).isNone then trapPage 1 bank
  reloadBank seq member bank
  let s ← get
  let key := match s.tileOf s.st.place.gang member with | some d => boltKey d.1 d.2 bank | none => 0
  let af := fmtOf sh.adesc
  match (if descOk sh.adesc then (s.bolt key).passDesc sh.slot sh.k else none) with
  | none => trapFormat act.toNat
  | some wd =>
    if !pairOk (fmtOf wd) af then trapFormat act.toNat
    let rows := genFrom sh.nr 0 fun r => wrapAddr (act.toNat + r * sh.astride : Nat)
    let last := fun b0 => (af.place b0 (sh.k - 1)).1
    if af.scaled && rows.any fun b0 => b0 / 65536 != last b0 / 65536 || decide (af.dataBytes ≤ last b0 % 65536) then
      trapFormat act.toNat
    match rows.find? fun b0 => af.scaled && !af.onBlock b0 with
    | some b0 => trapM .align 0 (BitVec.ofNat 64 b0)
    | none => pure ()
    match rows.find? fun b0 => decide (owner.spadSize < last b0 + af.bytes) with
    | some b0 => trapPage 2 (max b0 owner.spadSize)
    | none => return (key, wd)

/-- Run the rows of a pass in a member's accumulator over its weight tiles `lo` up to `hi`, tagged with a context slot (R331);
the flags of every step. -/
def runPass (member z : Nat) (act : Word) (sh : Shape) (key wd tag lo hi : Nat) : M Flags := do
  let s ← get
  let b := s.bolt key
  let wf := fmtOf wd
  let af := fmtOf sh.adesc
  let kt := match weightTile wf with | some (kt, _) => kt | none => sh.k
  let k0 := lo * kt
  let len := min sh.k (hi * kt) - k0
  let owner := (s.member member).getD s.st
  let ws := (genFrom 64 0 fun col => genFrom len k0 fun k => b.weight wd sh.slot k col)
  let tbl := (ws.map fun l => (l.map Prod.fst).toArray).toArray
  let wflags := ws.foldl (fun f l => l.foldl (fun f x => f ||| x.2) f) 0
  let fls ← collectM (genFrom sh.nr 0 id) fun r => do
    let b0 := wrapAddr (act.toNat + r * sh.astride : Nat)
    let row := sh.row0 + r
    let a := genFrom len k0 fun k => let c := owner.spad.elemCode af b0 k; af.exact c.1 c.2
    let t := ((← get).member member).getD owner
    let old := t.accRow z row
    let out := (passRow wf.tri (a.map Prod.fst) (fun k col => (tbl.getD col #[]).getD k (.fin false 0 0))
      (fun col => if sh.init && lo == 0 then 0 else vget old.data col 0)).toArray
    modify fun s => s.setMember member fun t => t.setAccRow z row tag (vecGen 64 fun c => (out.getD c (0, 0)).1)
    return out.foldl (fun f x => f ||| x.2) (a.foldl (fun f x => f ||| x.2) 0)
  return fls.foldl (· ||| ·) wflags

/-- The activation bytes of a pass. -/
def Shape.acts (sh : Shape) (act : Word) : List (Nat × Nat) :=
  (genFrom sh.nr 0 fun r => elemRanges (fmtOf sh.adesc) (wrapAddr (act.toNat + r * sh.astride : Nat)) 0 sh.k).flatten

/-- The weight tile up to which a pass goes at once: its last, or the next one where the strand's engine may stop between weight
tiles and is in the scheduling mask (R352; log 7). With KSTEP = 0 a pass that has passed a row is performed whole. -/
def Strand.passStop (t : Strand) (i n : Nat) : Nat := if t.csr.kstep && t.lag.getLsbD 1 then min n (i + 1) else n

/-- The bank that a word captures, once, as it starts (R333). -/
def captureBank : M Nat := do
  match (← getWork).vals with
  | b :: _ => return b
  | [] =>
    let b := (← getSt).mat.bankSel.toNat
    modWork fun w => { w with started := true, vals := [b] }
    return b

/-- `m.mma` (R331, R332). -/
def performMMma (z : Reg) (x : Entry) : M Unit := do
  let sh := shapeOf x.opZ
  let bank ← captureBank
  let t ← getSt
  let (key, wd) ← checkPass x.seq t z.toNat x.opY sh bank
  spadFree (sh.acts x.opY)
  let n := tileCount (fmtOf wd) sh.k
  let i := (← getWork).count
  let hi := t.passStop i n
  let fl ← runPass t.place.member z.toNat x.opY sh key wd t.place.slot i hi
  setFlags fl
  modWork fun w => { w with count := hi }
  if hi < n then waitM 0 0

/-- `m.swap` (R333). -/
def performMSwap (x : Entry) : M Unit :=
  modSt fun t =>
    let sel := match (immValue x.word x.pfx).toNat with | 0 => false | 1 => true | _ => !t.mat.bankSel
    { t with mat := { t.mat with bankSel := sel } }

/-! ## Accumulator moves (R337, R338) -/

/-- The rows of a move, after its checks, which come before any effect (R330, R337); `off` is its scratchpad offset. -/
def moveRows (z : Nat) (range : Word) (off : Option Word) : M (Nat × Nat) := do
  checkAcc (← getSt) z
  match rangeOf range with
  | none => trapFormat (off.getD 0).toNat
  | some r =>
    match off with
    | some o =>
      if o.toNat % 4 ≠ 0 then trapM .align 0 o
      let size := (← getSt).spadSize
      if size < o.toNat + 256 * r.2 then trapPage 2 (max o.toNat size)
    | none => pure ()
    return r

/-- The rows from the first not yet moved. -/
def eachRow (row0 nr : Nat) (f : Nat → Nat → M Unit) : M Unit := do
  let start := (← getWork).count
  loopM (nr - start) start fun r => do
    f r (row0 + r)
    modWork fun w => { w with count := r + 1 }

/-- `m.zero` (R337). -/
def performMZero (z : Reg) (x : Entry) : M Unit := do
  let (row0, nr) ← moveRows z.toNat x.opY none
  eachRow row0 nr fun _ row => modSt fun t => t.setAccRow z.toNat row t.place.slot (Vector.replicate 64 0)

/-- `m.rdz` (R337). -/
def performMRdz (z : Reg) (x : Entry) : M Unit := do
  let (row0, nr) ← moveRows z.toNat x.opZ (some x.opX)
  spadLock [(x.opX.toNat, x.opX.toNat + 256 * nr)]
  eachRow row0 nr fun r row => do
    let data := ((← getSt).accRow z.toNat row).data
    spadPut (wrapAddr (x.opX.toNat + 256 * r : Nat)) (data.toList.flatMap fun e => bytesOfNat 4 e.toNat)

/-- `m.wrz` (R337). -/
def performMWrz (z : Reg) (x : Entry) : M Unit := do
  let (row0, nr) ← moveRows z.toNat x.opZ (some x.opY)
  spadFree [(x.opY.toNat, x.opY.toNat + 256 * nr)]
  eachRow row0 nr fun r row => do
    let bs := (← spadBytes (wrapAddr (x.opY.toNat + 256 * r : Nat)) 256).toArray
    let data := vecGen 64 fun c => BitVec.ofNat 32 (natOfBytes (genFrom 4 (4 * c) fun i => bs.getD i 0))
    modSt fun t => t.setAccRow z.toNat row t.place.slot data

/-- Copy group `sg` of accumulator `y` into group `dg` of `z`, elements and tags alike; the source is read whole first. -/
def Strand.copyGroup (t : Strand) (z y dg sg : Nat) : Strand :=
  let src := genFrom 16 0 fun i => (i, t.accRow y (16 * sg + i))
  src.foldl (fun t p => t.setAccRow z (16 * dg + p.1) p.2.tag.toNat p.2.data) t

/-- Set the checkpoint bit of a group. -/
def Strand.setCkv (t : Strand) (z g : Nat) : Strand :=
  match t.mat.accs[z]? with
  | none => t
  | some a => { t with mat := { t.mat with accs := t.mat.accs.set z { a with ckv := a.ckv ||| BitVec.ofNat 16 (2 ^ g) } } }

/-- `m.ckpt` (R338). -/
def performMCkpt (z y : Reg) (x : Entry) : M Unit := do
  let i := (immValue x.word x.pfx).toNat
  let t ← getSt
  checkAcc t z.toNat
  checkAcc t y.toNat
  modSt fun t => (t.copyGroup z.toNat y.toNat (i % 16) (i / 16 % 16)).setCkv z.toNat (i % 16)

/-- `m.rest` (R338). -/
def performMRest (z y : Reg) (x : Entry) : M Unit := do
  let i := (immValue x.word x.pfx).toNat
  let t ← getSt
  checkAcc t z.toNat
  checkAcc t y.toNat
  let ckv := match t.mat.accs[y.toNat]? with | some a => a.ckv | none => 0
  if !ckv.getLsbD (i / 16 % 16) then trapPage 1 (16 * y.toNat + i / 16 % 16)
  modSt fun t => t.copyGroup z.toNat y.toNat (i % 16) (i / 16 % 16)

/-! ## The epilogue (R340, R341) -/

/-- The checks of R341 on the fields of an epilogue over a member's rows. -/
def checkEpi (owner : Strand) (z : Nat) (dst : Word) (e : Epi) (biasOff : Word) : M Unit := do
  checkAcc owner z
  if !e.fits || !e.legal then trapFormat dst.toNat
  if e.bias then
    if biasOff.toNat % 4 ≠ 0 then trapM .align 0 biasOff
    if owner.spadSize < biasOff.toNat + 4 * e.ncol then trapPage 2 (max biasOff.toNat owner.spadSize)

/-- The rows of an epilogue suit its destination's attribute (R135, R212, R341). -/
def alignEpi (attr : Nat) (dst : Word) (e : Epi) : M Unit := do
  let f := fmtOf attr
  let stride : Word := BitVec.ofNat 64 e.dstride
  alignImage f dst stride
  if f.scaled then
    match (genFrom e.nr 0 (rowBase dst stride)).find? fun b0 => !f.onBlock b0 || e.ncol % f.blockLen != 0 with
    | some b0 => trapM .align 0 (BitVec.ofNat 64 b0)
    | none => pure ()

/-- The memory of a context as the port of an epilogue whose rows are written by a tile's engine (R62, R345). -/
def epiPort (slot tile : Nat) : Port :=
  { memPort 2 slot .write true with
    put := fun pa bs => modify fun s =>
      let s := s.tileWrite tile pa bs
      { s with st := s.st.supersede pa bs.length } }

/-- The scratchpad of a member as a port. -/
def memberPort (member attr : Nat) : Port where
  resolve a _ := do
    let s ← get
    if ((s.member member).getD s.st).spadSize ≤ a then trapPage 2 a
    return a
  attrOf _ := pure attr
  fetch off n := do
    let s ← get
    return ((s.member member).getD s.st).spad.readBytes off n
  put off bs := modify fun s => s.setMember member fun t => { t with spad := t.spad.writeBytes off bs }

/-- Write out row `r` of an epilogue of a member's accumulator (R340, R345): translated in the context of the row's tag;
a row written out is zeroed if ZERO says so. -/
def epiRow (member z : Nat) (dst : Word) (e : Epi) (attr mode : Nat) (draw : Nat → Nat) (scale : Option Elem)
    (bias : Option Word) (r : Nat) : M Unit := do
  let s ← get
  let t := (s.member member).getD s.st
  let row := t.accRow z (e.row0 + r)
  let out := genFrom e.ncol 0 fun c =>
    epiElem e.int scale (bias.map fun b => BitVec.ofNat 32 (t.spad.readNat (b.toNat + 4 * c) 4)) e.act (vget row.data c 0)
  let p := if e.sp then memberPort member e.ddesc else epiPort row.tag.toNat t.place.tileKey
  let fl ← writeRow p attr (rowBase dst (BitVec.ofNat 64 e.dstride) r) e.ncol mode draw (out.map Prod.fst)
  setFlags (out.foldl (fun f x => f ||| x.2) fl)
  if e.zero then
    let slot := s.st.place.slot
    modify fun s => s.setMember member fun t => t.setAccRow z (e.row0 + r) slot (Vector.replicate 64 0)

/-- Byte ranges of row `r` of a destination. -/
def epiTouch (sp : Bool) (f : Fmt) (dst : Word) (e : Epi) (r : Nat) : List ByteRange :=
  (elemRanges f (rowBase dst (BitVec.ofNat 64 e.dstride) r) 0 e.ncol).map fun y => ((if sp then 1 else 0), y.1, y.2)

/-- The scratchpad bytes that an epilogue writes, with those of its scales. -/
def Epi.writes (e : Epi) (dst : Word) : List (Nat × Nat) :=
  if e.sp then
    (genFrom e.nr 0 fun r => elemRanges (fmtOf e.ddesc) (rowBase dst (BitVec.ofNat 64 e.dstride) r) 0 e.ncol).flatten
  else []

/-- `m.epi` (R340, R341). -/
def performMEpi (z : Reg) (x : Entry) : M Unit := do
  let t ← getSt
  let e := epiOf x.opZ
  let c := completionOf x.extC
  let mode ← roundMode x
  let attr ← match (← getWork).vals with
    | a :: _ => pure a
    | [] => do
      checkEpi t z.toNat x.opX e x.extA
      let attr ← if e.sp then pure e.ddesc
        else (memPort 2 (t.accRow z.toNat e.row0).tag.toNat .write true).attrAt x.opX.toNat 0
      alignEpi attr x.opX e
      pure attr
  checkCompletion c e.sp
  if e.bias then spadFree [(x.extA.toNat, x.extA.toNat + 4 * e.ncol)]
  if e.sp then spadLock (e.writes x.opX)
  startWord [] (if mode = 4 then e.nr * e.ncol else 0)
  modWork fun w => { w with vals := [attr] }
  let w ← getSt
  runUnits e.nr (fun r => pure (epiTouch e.sp (fmtOf attr) x.opX e r)) fun r => do
    epiRow t.place.member z.toNat x.opX e attr mode (fun col => if mode = 4 then w.draw (r * e.ncol + col) else 0)
      (if e.scale then some (lowElem x.extB) else none) (if e.bias then some x.extA else none) r
    landed c (if e.sp then .spad else .mem) r (rowBytes (fmtOf attr) e.ncol)
  giveSignals c none

/-! ## Bank state and weight identity (R342) -/

/-- `m.rdv`. -/
def performMRdv (b1 : Bool) (x : Entry) : M Unit := do
  let s ← get
  let t := s.st
  let o := x.opX.toNat
  if o % 32 ≠ 0 then trapM .align 0 x.opX
  let bank := b1.toNat
  let key := boltKey t.place.die t.place.tile bank
  let st := match t.loadState t.place.member bank with
    | none => 0
    | some l => if l.stale then 2 else 1
  spadLock [(o, o + 32)]
  spadPut o (bytesOfNat 16 (s.bolt key).ident ++ bytesOfNat 16 (st + 256 * (t.loadRecord bank).length))

/-- `m.wid`: the address is checked as R180 orders 2 to 4 do. -/
def performMWid (x : Entry) : M Unit := do
  let t ← getSt
  let o := x.opX.toNat
  if o % 16 ≠ 0 then trapM .align 0 x.opX
  let l ← locate 2 t.place.slot x.opY.toNat .read
  l.sealed x.opY.toNat
  checkInteg l.m.pa x.opY.toNat
  l.use
  let m := l.m
  let ident := match (← get).regionAt t.place.part m.pa with | some w => w.id | none => 0
  spadLock [(o, o + 16)]
  spadPut o (bytesOfNat 16 ident)

/-! ## Ganged issue (R346 to R350) -/

/-- The strand of a member that a ganged word names: one that has retired has no accumulator (log 26). While its rights are
withdrawn from its tile, the share waits (R499). -/
def shareOwner (m z : Nat) : M Strand := do
  match (← get).member m with
  | some t => if t.life = .gone then trapPage 2 z else if t.barred then waitM 0 0 else return t
  | none => trapPage 2 z

/-- What part of a share came to: done, waiting, or stopped by a trap. -/
inductive ShareEnd where
  | done
  | waits (kind : Nat)
  | traps (t : TrapInfo)
  deriving DecidableEq, Repr

/-- Try part of a share. -/
def tryShare (m : M Unit) : M ShareEnd := fun s =>
  match m s with
  | .ok _ s' => .ok .done s'
  | .error (.wait k _) s' => .ok (.waits k) s'
  | .error (.trap t) s' => .ok (.traps t) s'

/-- Do a part that is not done yet, and mark it; a trap parks its share there (R349). -/
def shareStep (mark : Nat) (m : M Unit) : M ShareEnd := do
  if (← getWork).done.contains mark then return .done
  let r ← tryShare m
  match r with
  | .done => modWork fun w => { w with done := mark :: w.done }
  | .traps t => modWork fun w => { w with parked := (w.parked.filter fun y => y.1 / 512 != mark / 512) ++ [(mark, t)] }
  | .waits _ => pure ()
  return r

/-- The epilogue rows of a share, `n` of them from row `r`: a row that misses holds only itself, a trap stops the share (R289,
R349). The answer is the kind of a wait, if a row waits. -/
def shareRows (m : Nat) (row : Nat → M Unit) : Nat → Nat → Option Nat → M (Option Nat)
  | 0, _, acc => pure acc
  | n + 1, r, acc => do
    match ← shareStep (shareMark m (some r)) (row r) with
    | .done => shareRows m row n (r + 1) acc
    | .waits k => shareRows m row n (r + 1) (some k)
    | .traps _ => return acc

/-- Lock the scratchpad bytes that the shares of a word will write, in every member's tile and all at once (R80). -/
def shareLock (ranges : List (Nat × Nat × Nat)) : M Unit := do
  let s ← get
  if ranges.any fun r => decide (r.2.1 < r.2.2) && s.locked ((s.member r.1).getD s.st) r.2.1 (r.2.2 - r.2.1) then waitM 0 0
  modWork fun w => { w with shareLocks := ranges }

/-- The completion arrivals at the copies of a barrier (R43, R350): a copy that refuses does not keep the others from
accepting, and then the word traps. -/
def shareArrivals (bar : Nat) (ms : List Nat) : M Unit := do
  let refused ← collectM ms fun m => do
    if (← getWork).signals.contains (10 + m) then return false
    let s ← get
    match (((s.member m).getD s.st).bar bar).engineArrive with
    | some b =>
      modify fun s => s.setMember m fun t => t.setBar bar b
      modWork fun w => { w with signals := (10 + m) :: w.signals }
      return false
    | none => return true
  if refused.any id then trapBar bar

/-- The pass of member `m`'s share, the one at place `j` of those of the word, goes on (R348, R352). -/
def sharePass (seq : Nat) (z : Reg) (act : Word) (sh : Shape) (m j : Nat) : M Unit := do
  let slot := (← getSt).place.slot
  let owner ← shareOwner m z.toNat
  let vals := (← getWork).vals
  let (key, wd) ← checkPass seq owner z.toNat act sh (vals.headD 0)
  if (← getSt).place.member = m then spadFree (sh.acts act)
  let n := tileCount (fmtOf wd) sh.k
  let i := vals.getD (j + 1) 0
  let hi := (← getSt).passStop i n
  let fl ← runPass m z.toNat act sh key wd slot i hi
  setFlags fl
  modWork fun w => { w with vals := w.vals.set (j + 1) hi }
  if hi < n then waitM 0 0

/-- The destination's attribute for the row `r` of a share: it is taken with the first row, and a later row waits for it (log 28). -/
def shareAttr (z m : Nat) (dst : Word) (e : Epi) (r : Nat) : M Nat := do
  if e.sp then return e.ddesc
  if r ≠ 0 ∧ !(← getWork).done.contains (shareMark m (some 0)) then waitM 0 0
  let owner ← shareOwner m z
  let attr ← (memPort 2 (owner.accRow z e.row0).tag.toNat .write true).attrAt dst.toNat 0
  if r = 0 then alignEpi attr dst e
  return attr

/-- `m.mma.g` (R347 to R350). -/
def performMMmaG (z : Reg) (x : Entry) : M Unit := do
  let t ← getSt
  let sh := shapeOf x.opZ
  let e := epiOf x.extA
  let g := x.extC.toNat
  let mask := bits g 0 16
  let mode ← roundMode x
  if t.place.member ≠ 0 then trapM .priv 0 ((encode x.word).setWidth 64)
  if mask = 0 ∨ 2 ^ t.place.size ≤ mask ∨ bits g 21 11 ≠ 0 then trapPage 2 g
  if e.bias || e.scale then trapFormat x.extA.toNat
  let ms := membersOf mask
  if !(← getWork).started then startWord [] (if mode = 4 then ms.length * e.nr * e.ncol else 0)
  let bank ← captureBank
  let dstOf := fun m : Nat => x.extB + wordOfInt ((m : Int) * sextNat (g / 2 ^ 32) 32)
  let bar := bits g 16 4
  if (← getWork).vals.length = 1 then
    eachM ms fun m => do
      let owner ← shareOwner m z.toNat
      let _ ← checkPass x.seq owner z.toNat x.opY sh bank
      checkEpi owner z.toNat (dstOf m) e 0
      -- a destination that cannot be translated yet parks its share later (R349)
      let attr ← if e.sp then pure (some e.ddesc)
        else (memPort 2 (owner.accRow z.toNat e.row0).tag.toNat .write true).probe (dstOf m).toNat
      match attr with
      | some a => alignEpi a (dstOf m) e
      | none => pure ()
    if bit g 20 then
      eachM ms fun m => do
        if ((← shareOwner m z.toNat).bar bar).expect == 0 then trapBar bar
    modWork fun w => { w with vals := bank :: ms.map fun _ => 0 }
  shareLock (ms.flatMap fun m => (e.writes (dstOf m)).map fun r => (m, r.1, r.2))
  let w ← getSt
  let waits ← collectM (ms.zip (genFrom ms.length 0 id)) fun y => do
    let m := y.1
    let stop := ((← getWork).parked.find? fun p => p.1 / 512 == m).map Prod.fst
    if stop = some (shareMark m none) then return none
    match ← shareStep (shareMark m none) (sharePass x.seq z x.opY sh m y.2) with
    | .waits k => return some k
    | .traps _ => return none
    | .done =>
      shareRows m (fun r => do
        let _ ← shareOwner m z.toNat
        let attr ← shareAttr z.toNat m (dstOf m) e r
        epiRow m z.toNat (dstOf m) e attr mode
          (fun col => if mode = 4 then w.draw (y.2 * e.nr * e.ncol + r * e.ncol + col) else 0) none none r)
        (match stop with | some p => p % 512 | none => e.nr) 0 none
  match waits.filterMap id with
  | k :: ks => waitM (ks.foldl max k) 0
  | [] =>
    match (← getWork).parked with
    | p :: ps =>
      let low := ps.foldl (fun a b => if b.1 < a.1 then b else a) p
      modWork fun w => { w with parked := [] }
      throw (.trap low.2)
    | [] => if bit g 20 then shareArrivals bar ms

end Sys2Proof.Machine
end

