-- ==== Sys2Proof/Machine/Units.lean ====
section
/-! DEFINITION. Accesses of the remote units (the Draper, the slices' attention units, the cache-context unit) in an
owner's context: they have no strand, no L1 and the agent code 7 of R286 unless a word makes them. -/

namespace Sys2Proof.Machine

/-- The index of a unit's wait on a page request: the granule that it waits for, and the failing address. -/
def missAt (granule va : Nat) : Nat := va * 2 ^ 36 + granule

/-- A unit's access misses at the second stage: it posts a page request and waits (R285). -/
def unitMiss {α : Type} (fn eng slot va ipa lvl kind a : Nat) : M α := do
  modify fun s => s.postPageReq fn eng slot va ipa lvl kind a
  waitM 7 (missAt (ipa / 65536) va)

/-- Translate an access of a unit in a context, up to its seal check (R276). A unit keeps no translation. -/
def unitLocate (eng slot va : Nat) (acc : AccessKind) : M Located := do
  let s ← get
  let c := s.ctx slot
  match s.translate [] c va acc with
  | .error (.fault kind) => trapPage kind va
  | .error .sealing => trapM .sealing 0 (BitVec.ofNat 64 va)
  | .error (.second ipa lvl kind a) => unitMiss c.fn eng slot va ipa lvl kind a
  | .ok x =>
    if acc.writes && s.weightFrame x.pa then trapPage 2 va
    return ⟨eng, slot, va, acc, (x.cached eng slot va c.fn c.world false).mapped va, x.agrees, some (c, x)⟩

/-- The access of a unit is made: accessed and dirty bits (R278) and the dirty bitmap (R293). -/
def unitUse (l : Located) : M Unit := do
  match l.walk with
  | none => pure ()
  | some (c, x) =>
    match (if x.two then blockedUpdate x l.acc.writes else none) with
    | some v => unitMiss c.fn l.eng l.slot l.va v.ipa v.lvl 2 3
    | none =>
      modify fun s => s.markUsed x l.acc.writes
      if x.two && l.acc.writes then modify fun s => s.markDirty c.fn x.ipa

/-- Translate an access of a unit and make it; a seal mismatch traps with its address. -/
def unitMap (eng slot va : Nat) (acc : AccessKind) : M Mapped := do
  let l ← unitLocate eng slot va acc
  l.sealed va
  unitUse l
  return l.m

/-- The memory of a context as a port of a unit, which reads it as `w` does (R212). -/
def unitPort (eng slot : Nat) (w : Who) (acc : AccessKind) : Port where
  resolve a chk := do
    let l ← unitLocate eng slot a acc
    if (fmtOf l.m.fmta).raw then trapFormat a
    chk l.m.fmta
    l.sealed (a / 64 * 64)
    checkLine l.m.pa (a / 64 * 64)
    unitUse l
    return l.m.pa
  attrOf a := do
    let l ← unitLocate eng slot a acc
    if (fmtOf l.m.fmta).raw then trapFormat a
    return l.m.fmta
  fetch pa n := do
    if acc.writes then return (← get).mem.readBytes pa n
    else return (← get).peekBytes w pa n
  put pa bs := modify fun s => s.writeHome pa bs

/-- A number in a context's memory, as `w` reads it. -/
def unitRead (eng slot : Nat) (w : Who) (va n : Nat) : M Nat := do
  let m ← unitMap eng slot va .read
  checkLine m.pa (va / 64 * 64)
  return (← get).peekNat w m.pa n

/-- Write a number in a context's memory. -/
def unitWrite (eng slot va n x : Nat) : M Unit := do
  let m ← unitMap eng slot va .write
  modify fun s => s.writeHomeNat m.pa n x

/-- Add to a number at its home, as a bank word does (R65, R358, R372): the answer is the old value. -/
def unitAdd (eng slot va n k : Nat) : M Nat := do
  if va % n ≠ 0 then trapM .align 0 (BitVec.ofNat 64 va)
  let m ← unitMap eng slot va .bank
  checkLine m.pa (va / 64 * 64)
  let old := (← get).mem.readNat m.pa n
  modify fun s => s.writeHomeNat m.pa n ((old + k) % 2 ^ (8 * n))
  return old

/-- What an attempt comes to: it is done, it waits on a granule's page request for an address, or it traps. -/
inductive Attempt (α : Type) where
  | done (a : α)
  | waits (granule va : Nat)
  | trapped (t : TrapInfo)

/-- Try a computation; what it has done before a stop stands. -/
def attempt {α : Type} (m : M α) : M (Attempt α) := fun s =>
  match m s with
  | .ok a s' => .ok (.done a) s'
  | .error (.wait 7 i) s' => .ok (.waits (i % 2 ^ 36) (i / 2 ^ 36)) s'
  | .error (.wait k i) s' => .error (.wait k i) s'
  | .error (.trap t) s' => .ok (.trapped t) s'

/-- Run a computation of a unit on the state, whatever it comes to. -/
def State.run (s : State) (m : M Unit) : State :=
  match m s with
  | .ok _ s' => s'
  | .error _ s' => s'

end Sys2Proof.Machine
end

