-- ==== Sys2Proof/Machine/Draper.lean ====
section
/-! DEFINITION. The Draper (R355 to R378): weight regions, task rings, slots, passes, and its words and events. -/

namespace Sys2Proof.Machine

/-! ## Slots -/

/-- A die's Draper. -/
def State.draper (s : State) (die : Nat) : Draper := assoc s.drapers die Draper.empty

/-- Replace a die's Draper. -/
def State.setDraper (s : State) (die : Nat) (d : Draper) : State := { s with drapers := assocPut s.drapers die d }

/-- Change a task. -/
def State.setTask (s : State) (die id : Nat) (f : DTask → DTask) : State :=
  let d := s.draper die
  s.setDraper die { d with tasks := d.tasks.map fun t => if t.id = id then f t else t }

/-- The agent as which a task's reads are made: they are reads of the `m.tsub` that handed it over (R375). -/
def DTask.who (t : DTask) : Who := .strand t.gang t.member

/-- Slots of a Draper (R365). -/
def draperSlots : Nat := 4096

/-- A task, by die and number, is in a slot. -/
def State.inSlot (s : State) (k : Nat × Nat) : Bool := (s.draper k.1).tasks.any fun u => u.id == k.2

/-- Waiting tasks whose dependences have left their slots, on whatever die, become Ready at the current clock (R368). -/
def State.refreshReady (s : State) : State :=
  { s with drapers := s.drapers.map fun d => (d.1, { d.2 with tasks := d.2.tasks.map fun t =>
    if t.st = .waiting ∧ !(t.deps.any s.inSlot) then
      { t with st := .ready, readyAt := s.clock, deadline := s.clock + t.patience }
    else t }) }

/-! ## Shape entries and weight regions (R355 to R357) -/

/-- Fields of a shape entry. -/
def shapeValid (i : Nat) : Bool := bit i 44
def shapeInt (i : Nat) : Bool := bit i 43
def shapeAct (i : Nat) : Nat := bits i 40 3
def shapeNcol (i : Nat) : Nat := bits i 33 7
def shapeK (i : Nat) : Nat := bits i 16 17
def shapeWdesc (i : Nat) : Nat := bits i 8 8
def shapeAdesc (i : Nat) : Nat := bits i 0 8

/-- The weights of a region as a Draper loads them, from slot 0 (R355, R371). -/
def State.regionBank (s : State) (w : WeightEntry) : BoltBank :=
  let f := fmtOf w.wdesc
  let rows := slotRows f
  let n := slotCount f w.k
  let cell := fun (k col : Nat) =>
    if w.n ≤ col ∨ w.k ≤ k then zeroCell f
    else
      let (a, sub) := f.place (w.frame * 65536 + col * w.cstr * 16) k
      let x := s.peekNat .device a f.bytes
      (if f.tri then x / 3 ^ sub % 3 else if f.bitsPer = 4 then x / 16 ^ sub % 16 else x,
       if f.scaled then s.peekNat .device (f.scaleByte a sub) 1 else 0)
  { slots := genFrom n 0 fun i => (i, ⟨w.wdesc, ((genFrom 64 0 fun col =>
      genFrom rows 0 fun r => cell (i * rows + r) col).flatten).toArray, [(w.frame, w.frame + w.ngr)]⟩)
    ident := w.id }

/-- A bank holds a region's identity and its tiles as a Draper would load them (R371). -/
def BoltBank.holds (b r : BoltBank) : Bool :=
  b.ident == r.ident && r.slots.all fun x => b.slots.any fun y => y.1 == x.1 && y.2.desc == x.2.desc && y.2.cells == x.2.cells

/-- The region of an identity that passes use: it may be disabled, and goes off with the last of them (R356). -/
def State.region (s : State) (part wid : Nat) : Option WeightEntry :=
  ((s.part part).weights.find? fun w => w.2.st == 2 && w.2.id == wid).map Prod.snd

/-- The ready region of an identity that a new task may name: one that is registered (R356, R362). -/
def State.openRegion (s : State) (part wid : Nat) : Option WeightEntry :=
  ((s.part part).weights.find? fun w => w.2.st == 2 && w.2.en && w.2.id == wid).map Prod.snd

/-- Change an entry of a weight region table. -/
def State.setWeight (s : State) (part i : Nat) (f : WeightEntry → WeightEntry) : State :=
  let p := s.part part
  s.setPart part { p with weights := assocPut p.weights i (f (assoc p.weights i WeightEntry.clear)) }

/-- Every weight of an entry lies in its region and below D of its granule (R356, R134). -/
def WeightEntry.inside (w : WeightEntry) : Bool :=
  let f := fmtOf w.wdesc
  (genFrom w.n 0 fun col =>
    let b0 := w.frame * 65536 + col * w.cstr * 16
    let last := (f.place b0 (w.k - 1)).1 + f.bytes
    (decide (last ≤ (w.frame + w.ngr) * 65536) &&
      (!f.scaled || (b0 / 65536 == (last - 1) / 65536 && decide ((last - 1) % 65536 < f.dataBytes))) : Bool)).all fun b => b

/-- The entry's fields are in range (R355, R356). -/
def WeightEntry.legal (w : WeightEntry) : Bool :=
  descOk w.wdesc && (weightTile (fmtOf w.wdesc)).isSome && kOk w.k && 1 ≤ w.n && w.n ≤ 64 && 1 ≤ w.ngr && w.ngr ≤ 65535 &&
    1 ≤ w.cstr && decide ((w.frame + w.ngr) * 65536 ≤ dramEnd) && decide (slotCount (fmtOf w.wdesc) w.k ≤ 768)

/-- Every frame of a region is clear, or sealed for the entry's world. -/
def State.framesAgree (s : State) (w : WeightEntry) : Bool :=
  (genFrom w.ngr w.frame fun i =>
    let f := frameOf s.frames i
    if w.world = 0 then f.sealMode == 0 else f.sealMode != 0 && f.world == w.world).all id

/-- Every byte that holds a weight of a TRI5 region is a legal code (R356). -/
def State.tritsOk (s : State) (w : WeightEntry) : Bool :=
  !(fmtOf w.wdesc).tri ||
    (genFrom w.n 0 fun col => (genFrom ((w.k + 4) / 5) 0 fun b =>
      decide (s.peekNat .device (w.frame * 65536 + col * w.cstr * 16 + b) 1 ≤ 242)).all id).all id

/-- The 8 bytes at offset 24 of an entry (R355). -/
def WeightEntry.image24 (w : WeightEntry) : Nat :=
  w.ngr * 2 ^ 48 + w.k * 2 ^ 31 + w.n * 2 ^ 24 + w.wdesc * 2 ^ 16 + w.cstr

/-- The identity of a region (R356). -/
def State.identity (s : State) (w : WeightEntry) : Nat :=
  shake256 (s.peekBytes .device (w.frame * 65536) (w.ngr * 65536) ++ bytesOfNat 8 w.image24) 16

/-- The firmware core has checked an entry that was being hashed (R356). -/
def State.hashDone (s : State) (part i : Nat) : State :=
  match (s.part part).weights.find? fun w => w.1 == i with
  | some (_, w) =>
    if w.st = 1 then
      let others := (s.part part).weights.filter fun x => x.1 != i && x.2.en
      let ident := s.identity w
      let clash := others.any fun x =>
        decide (x.2.frame < w.frame + w.ngr ∧ w.frame < x.2.frame + x.2.ngr) || (x.2.st == 2 && x.2.id == ident)
      if w.legal && w.inside && s.framesAgree w && s.tritsOk w && !clash then
        (s.setWeight part i fun w => { w with st := 2, id := ident }).advertiseOne part w.world ident true
      else s.setWeight part i fun w => { w with st := 3 }
    else s
  | none => s

/-- A write of EN = 1 (R356). -/
def State.weightEnable (s : State) (part i : Nat) : State :=
  s.setWeight part i fun w => if w.en = false ∧ w.st = 0 then { w with en := true, st := 1 } else w

/-! ## Task records (R358 to R362) -/

/-- The fields of a ring descriptor (R358). -/
structure RingDesc where
  base : Nat
  w8 : Nat
  tail : BitVec 32
  head : BitVec 32
  park : Nat
  pnext : Nat
  pcap : Nat
  rest : Nat
  deriving DecidableEq, Repr

def RingDesc.units (r : RingDesc) : Nat := bits r.w8 0 32
def RingDesc.consent (r : RingDesc) : Bool := bit r.w8 32

/-- The descriptor in 64 bytes. -/
def ringDescOf (x : Nat) : RingDesc :=
  ⟨bits x 0 64, bits x 64 64, BitVec.ofNat 32 (bits x 128 32), BitVec.ofNat 32 (bits x 160 32), bits x 192 64,
   bits x 288 32, bits x 256 32, bits x 320 192⟩

/-- UNITS is a power of two from 16 to 2^20. -/
def unitsOk (n : Nat) : Bool := (genFrom 17 4 fun k => 2 ^ k).contains n

/-- The checks of R364 on a descriptor but for n. -/
def RingDesc.legal (r : RingDesc) : Bool :=
  r.base % 64 == 0 && r.park % 64 == 0 && unitsOk r.units && r.w8 / 2 ^ 33 == 0 && r.rest == 0

/-- The address of a ring unit. -/
def RingDesc.unitVa (r : RingDesc) (u : BitVec 32) : Nat := r.base + 64 * (u.toNat % r.units)

/-- Length of a task record of NR rows, in units (R359). -/
def recordUnits (nr : Nat) : Nat := (64 + 16 * nr + 63) / 64

/-- A write of STATUS, DONE or a park record faults: the Scrivener keeps it (R361, R372, R467). -/
def draperFault (die fn recVa : Nat) (t : TrapInfo) : M Unit :=
  modify fun s => s.scrivener (scrivSrc fn 0 die) 3 recVa (tcauseImage false false false 2 t).toNat

/-- What is to be done for a record that has ended (R372), from where it stands: STATUS, then DONE as a `b.add.d` of the owner's
context, and then HEAD, which passes its units once the record stands there. A fault in STATUS or DONE is recorded and
ignored; an access that misses at the second stage waits (R285). The answer is the record with what is left for it, or none.
A fault of HEAD, of which the spec says nothing, leaves the record above HEAD (DESIGN CHOICE, log 29). -/
def stepEnd (die : Nat) (e : RecordEnd) : M (Option RecordEnd) := do
  match e.stage with
  | 0 =>
    match ← attempt (unitWrite 7 e.slot (e.recVa + 40) 8 e.status) with
    | .done _ => return some { e with stage := 1 }
    | .waits g _ => return some { e with wait := some g }
    | .trapped f =>
      draperFault die e.fn e.recVa f
      return some { e with stage := 1 }
  | 1 =>
    if e.doneVa = 0 then return some { e with stage := 2 }
    match ← attempt (unitAdd 7 e.slot e.doneVa 8 1) with
    | .done _ => return some { e with stage := 2 }
    | .waits g _ => return some { e with wait := some g }
    | .trapped f =>
      draperFault die e.fn e.recVa f
      return some { e with stage := 2 }
  | _ =>
    match ← attempt (unitRead 7 e.slot (.strand e.gang e.member) (e.ring + 20) 4) with
    | .done h =>
      if h ≠ e.unit.toNat then return some e
      match ← attempt (unitAdd 7 e.slot (e.ring + 20) 4 e.len) with
      | .done _ => return none
      | .waits g _ => return some { e with wait := some g }
      | .trapped _ => return some e
    | .waits g _ => return some { e with wait := some g }
    | .trapped _ => return some e

/-- The records that have ended, with their dies: a ring's records may have gone to the Drapers of several (R46). -/
def State.endedRecords (s : State) : List (Nat × RecordEnd) := s.drapers.flatMap fun d => d.2.ended.map fun e => (d.1, e)

/-- Replace them. -/
def State.putEnded (s : State) (es : List (Nat × RecordEnd)) : State :=
  { s with drapers := s.drapers.map fun d => (d.1, { d.2 with ended := (es.filter fun e => e.1 == d.1).map Prod.snd }) }

/-- Do what can be done for the records that have ended, one after the other; the number bounds the steps. -/
def settleEnds : Nat → List (Nat × RecordEnd) → List (Nat × RecordEnd) → M Unit
  | 0, _, _ => pure ()
  | _ + 1, _, [] => pure ()
  | fuel + 1, before, e :: rest => do
    if e.2.wait.isSome then settleEnds fuel (before ++ [e]) rest
    else
      let r ← stepEnd e.1 e.2
      let now := before ++ (r.map fun x => (e.1, x)).toList ++ rest
      modify fun s => s.putEnded now
      -- a record that has gone on is tried again, and so is what it has let pass
      if r = some e.2 ∨ (r.map RecordEnd.wait).join.isSome then settleEnds fuel (before ++ (r.map fun x => (e.1, x)).toList) rest
      else settleEnds fuel [] now

/-- What the records that have ended come to now (R372). -/
def runEnds : M Unit := do
  let es := (← get).endedRecords
  settleEnds (4 * (es.length + 1) * (es.length + 1)) [] es

/-- A record has ended (R362, R372). -/
def endRecord (die : Nat) (e : RecordEnd) : M Unit := do
  modify fun s => let d := s.draper die; s.setDraper die { d with ended := d.ended ++ [e] }
  runEnds

/-- STATUS of an ending (R360). -/
def statusOf (res code kind npark : Nat) (flags : BitVec 6) : Nat :=
  npark * 2 ^ 32 + kind * 2 ^ 24 + code * 2 ^ 16 + flags.toNat * 2 ^ 4 + res

/-- A task leaves its slot with an ending (R372), at once, though its STATUS may still wait on a page request (DESIGN CHOICE,
log 29). -/
def endTask (die id res : Nat) : M Unit := do
  match ((← get).draper die).tasks.find? fun t => t.id == id with
  | none => pure ()
  | some t =>
    let (code, kind) := match t.fail with | some f => (f.2.1, f.2.2) | none => (0, 0)
    modify fun s => let d := s.draper die; s.setDraper die { d with tasks := d.tasks.filter fun x => x.id != id }
    endRecord die
      { gang := t.gang, member := t.member, slot := t.slot, fn := t.fn, ring := t.ring, unit := t.unit, len := t.len
        recVa := t.recVa, doneVa := t.doneVa, status := statusOf res code kind t.parked.length t.flags, stage := 0, wait := none }
    modify fun s => s.refreshReady

/-- What a record's check answers: a task, or a refusal with CODE and KIND (R362). -/
def checkRecord (s : State) (p : Place) (r : RingDesc) (ring recVa : Nat) (unit : BitVec 32) (x : Nat) (rows : Nat) :
    M (Sum (Nat × Nat) DTask) := do
  let w48 := bits x 384 64
  let w56 := bits x 448 64
  let nr := bits w48 8 6
  let ndep := bits w56 48 3
  let img := assoc (s.part p.part).shapes (bits w48 0 8) 0
  let doneVa := bits x 256 64
  if nr = 0 ∨ 60 < nr ∨ bits w48 48 16 ≠ 0 ∨ bits w48 14 2 ≠ 0 ∨ w56 / 2 ^ 51 ≠ 0 ∨ 3 < ndep ∨
      shapeValid img = false ∨ doneVa % 8 ≠ 0 then return .inl (4, 3)
  match s.openRegion p.part (bits x 64 128) with
  | none => return .inl (4, 1)
  | some w =>
    let m ← attempt (mapAccess 2 p.slot (bits x 192 64) .read)
    match m with
    | .trapped t => return .inl (t.cause.code, t.kind)
    | .waits g va => waitM 7 (missAt g va)
    | .done m =>
      if m.pa ≠ w.frame * 65536 ∨ m.fmta ≠ w.wdesc then return .inl (4, 3)
      if w.wdesc ≠ shapeWdesc img ∨ w.k < shapeK img then return .inl (4, 3)
      if w.world ≠ 0 ∧ w.world ≠ p.world then return .inl (5, 0)
      let tags := (genFrom ndep 0 fun i => bits w56 (16 * i) 16)
      let d := s.draper p.die
      return .inr
        { id := d.nextTask, gang := p.gang, member := p.member, slot := p.slot, fn := p.fn, world := p.world, part := p.part, ring := ring, recVa := recVa
          unit := unit, len := recordUnits nr, chash := bits x 0 64, wid := w.id, doneVa := doneVa
          tag := bits w48 32 16, patience := bits w48 16 16, shape := bits w48 0 8, img := img, consent := r.consent
          deps := s.drapers.flatMap fun k =>
            (k.2.tasks.filter fun t => t.slot == p.slot && t.ring == ring && tags.contains t.tag).map fun t => (k.1, t.id)
          st := .waiting, readyAt := 0, deadline := 0
          rows := genFrom nr 0 fun j => (bits rows (128 * j) 64, bits rows (128 * j + 64) 64)
          flags := 0, fail := none, parked := [], parking := [], lost := false }

/-- An `m.tsub` that waits for a slot (R365). -/
def Entry.awaitsSlot (x : Entry) : Bool := (match x.word with | .mTsub .. => true | _ => false) && x.prog.wait == some (0, 0)

/-- Functions whose submissions wait for a slot on a die (R365); at a pre-emption they are withdrawn. -/
def State.waitingFns (s : State) (die : Nat) : List Nat :=
  ((s.st :: s.others).filter fun t => t.place.die == die && t.life != .gone && t.life != .saved &&
    (t.queue 2).any Entry.awaitsSlot).map fun t => t.place.fn

/-- Slots that a function holds. -/
def Draper.held (d : Draper) (fn : Nat) : Nat := (d.tasks.filter fun t => t.fn == fn).length

/-- A function may take a free slot now (R365). -/
def State.mayTakeSlot (s : State) (die fn : Nat) : Bool :=
  let d := s.draper die
  let ws := (s.waitingFns die ++ [fn]).eraseDups
  let sum := (ws.map fun f => (s.fn f).daw).foldl (· + ·) 0
  let above := fun f => decide (draperSlots * (s.fn f).daw < d.held f * sum)
  let under := fun f => decide (d.held f * sum < draperSlots * (s.fn f).daw)
  d.tasks.length < draperSlots && !(above fn && ws.any fun f => f != fn && under f)

/-- The ending of a record that is refused (R362). -/
def refusal (p : Place) (ring recVa doneVa : Nat) (unit : BitVec 32) (len code kind : Nat) : RecordEnd :=
  { gang := p.gang, member := p.member, slot := p.slot, fn := p.fn, ring := ring, unit := unit, len := len, recVa := recVa
    doneVa := doneVa, status := statusOf 4 code kind 0 0, stage := 0, wait := none }

/-- Read one record, of `left` units at most, and accept or refuse it; the answer is its length (R362, R364). -/
def acceptRecord (ring : Nat) (r : RingDesc) (unit : BitVec 32) (left : Nat) : M Nat := do
  let p := (← getSt).place
  let recVa := r.unitVa unit
  let readUnit := fun (i : Nat) => do
    let m ← mapEngine 2 p.slot (r.unitVa (unit + BitVec.ofNat 32 i)) .read
    return natOfBytes (← memBytes m.pa 64)
  let x ← readUnit 0
  let nr := bits x 392 6
  let want := if nr = 0 ∨ 60 < nr then 1 else recordUnits nr
  if left < want then
    endRecord p.die (refusal p ring recVa (bits x 256 64) unit left 4 3)
    return left
  else
    let us ← collectM (genFrom (want - 1) 1 id) readUnit
    let rows := us.foldr (fun u n => n * 2 ^ 512 + u) 0
    match ← checkRecord (← get) p r ring recVa unit x rows with
    | .inl (code, kind) => endRecord p.die (refusal p ring recVa (bits x 256 64) unit want code kind)
    | .inr t =>
      if !(← get).mayTakeSlot p.die p.fn then waitM 0 0
      modify fun s =>
        let d := s.draper p.die
        (s.setDraper p.die { d with tasks := d.tasks ++ [t], nextTask := d.nextTask + 1 }).refreshReady
    return want

/-- TAIL passes the units accepted that it has not passed yet (R358, R364): no record is accepted twice. -/
def passTail (ring : Nat) : M Unit := do
  match (← getWork).vals with
  | n :: _ =>
    let m ← mapEngine 2 (← getSt).place.slot (ring + 16) .bank
    modify fun s => s.writeHomeNat m.pa 4 ((s.mem.readNat m.pa 4 + n) % 2 ^ 32)
    modWork fun w => { w with vals := [], count := w.count + n }
  | [] => pure ()

/-- Accept records while units are left; TAIL records each (R364, R365). The number bounds the records. -/
def acceptAll (ring : Nat) (r : RingDesc) (n : Nat) : Nat → M Unit
  | 0 => pure ()
  | fuel + 1 => do
    passTail ring
    let left := n - (← getWork).count
    if left = 0 then return ()
    let m ← mapEngine 2 (← getSt).place.slot (ring + 16) .bankRead
    let tail ← homeNat m.pa 4
    let k ← acceptRecord ring r (BitVec.ofNat 32 tail) left
    modWork fun w => { w with vals := [k] }
    passTail ring
    acceptAll ring r n fuel

/-- The ring descriptor at an address, with the checks of R364: it is readable and writable, and is not written here. -/
def readRing (x : Entry) : M RingDesc := do
  let t ← getSt
  if x.opX.toNat % 64 ≠ 0 then trapM .align 0 x.opX
  let l ← locate 2 t.place.slot x.opX.toNat .bankRead
  l.sealed x.opX.toNat
  checkInteg l.m.pa x.opX.toNat
  l.use
  let r := ringDescOf (natOfBytes (← memBytes l.m.pa 64))
  if !r.legal then trapFormat x.opX.toNat
  return r

/-- `m.tsub` (R364, R365). -/
def performMTsub (x : Entry) : M Unit := do
  let r ← readRing x
  let n := bits x.opY.toNat 0 32
  if !(← getWork).started then
    if n = 0 ∨ r.units < (r.tail - r.head).toNat + n then trapFormat x.opX.toNat
    markStarted
  acceptAll x.opX.toNat r n (n + 1)

/-- STATE of a task for `m.tqry` (R366). -/
def TaskState.code : TaskState → Nat
  | .waiting => 1 | .ready => 2 | .formed => 3 | .running => 4 | .parked => 5

/-- `m.tqry` (R366). -/
def performMTqry (x : Entry) : M Unit := do
  let o := x.opX.toNat
  if o % 16 ≠ 0 then trapM .align 0 x.opX
  spadLock [(o, o + 16)]
  let s ← get
  let p := s.st.place
  let d := s.draper p.die
  let free := draperSlots - d.tasks.length
  let held := (d.tasks.filter fun t => t.slot == p.slot).length
  let (left, st) := match d.tasks.find? fun t => t.slot == p.slot && t.recVa == x.opY.toNat with
    | some t => (if t.st = .ready then t.deadline - s.clock else 0, t.st.code)
    | none => (0, 0)
  -- no other trap: a byte outside the allocation is not written (log 30)
  let word := free * 2 ^ 48 + held % 65536 * 2 ^ 32 + left % 65536 * 2 ^ 16 + st
  let bs := (bytesOfNat 8 word ++ bytesOfNat 8 0).take (s.st.spadSize - o)
  modSt fun t => { t with spad := t.spad.writeBytes o bs }

/-- `m.tcan` (R367). -/
def performMTcan (all : Bool) (x : Entry) : M Unit := do
  let _ ← readRing x
  let s ← get
  let p := s.st.place
  let hit := fun (t : DTask) => t.slot == p.slot && t.ring == x.opX.toNat && (t.st == .waiting || t.st == .ready) &&
    (all || t.tag == bits x.opY.toNat 0 16)
  eachM (s.drapers.flatMap fun d => (d.2.tasks.filter hit).map fun t => (d.1, t.id)) fun k => endTask k.1 k.2 3

/-! ## Passes (R369 to R371) -/

/-- Two Ready tasks match (R369). -/
def State.tasksMatch (s : State) (a b : DTask) : Bool :=
  a.part == b.part && a.chash == b.chash && a.wid == b.wid && a.shape == b.shape && a.img == b.img && a.world == b.world &&
    (a.slot == b.slot || (a.consent && b.consent && (s.fn a.fn).coal && (s.fn b.fn).coal))

/-- Rows of a list of tasks. -/
def rowsOf (ts : List DTask) : Nat := (ts.map fun t => t.rows.length).foldl (· + ·) 0

/-- Order of tasks by when they became Ready, and then by acceptance. -/
def DTask.before (a b : DTask) : Bool := decide (a.readyAt < b.readyAt) || (a.readyAt == b.readyAt && decide (a.id < b.id))

/-- Insert a task by readiness. -/
def insertTask (t : DTask) : List DTask → List DTask
  | [] => [t]
  | u :: rest => if t.before u then t :: u :: rest else u :: insertTask t rest

/-- Tasks by readiness. -/
def sortTasks (ts : List DTask) : List DTask := ts.foldr insertTask []

/-- The trigger of the next pass: a Ready task whose deadline has come, or the first of a matching set of 256 rows or more;
among several, the one with the earliest deadline (R370). -/
def State.trigger (s : State) (die : Nat) : Option DTask :=
  let ready := sortTasks ((s.draper die).tasks.filter fun t => t.st == .ready)
  let full := fun t => decide (256 ≤ rowsOf (ready.filter fun u => s.tasksMatch t u))
  let starts := ready.filter fun t => decide (t.deadline ≤ s.clock) ||
    (full t && !(ready.any fun u => u.before t && s.tasksMatch t u && full u))
  match starts with
  | [] => none
  | t :: rest => some (rest.foldl (fun a b => if b.deadline < a.deadline then b else a) t)

/-- Join matching tasks while their rows fit in 256 (R370). -/
def joinTasks : List DTask → List DTask → List DTask
  | acc, [] => acc
  | acc, t :: rest => if rowsOf acc + t.rows.length ≤ 256 then joinTasks (acc ++ [t]) rest else acc

/-- Form the next pass of a die, if one is due (R370). -/
def State.formPass (s : State) (die : Nat) : Option State :=
  match s.trigger die with
  | none => none
  | some t =>
    let d := s.draper die
    let others := sortTasks (d.tasks.filter fun u => u.st == .ready && u.id != t.id && s.tasksMatch t u)
    let ids := (joinTasks [t] others).map DTask.id
    some (s.setDraper die { d with
      tasks := d.tasks.map fun u => if ids.contains u.id then { u with st := .formed } else u
      passes := d.passes ++ [⟨d.nextPass, ids, t.wid, t.part, none, 0⟩]
      nextPass := d.nextPass + 1 })

/-- Form every pass of a die that is due; the number bounds them. -/
def State.formDue (s : State) (die : Nat) : Nat → State
  | 0 => s
  | n + 1 => match s.formPass die with | some s' => s'.formDue die n | none => s

/-- Every pass that is due now is formed, before anything else happens in the cycle (R370). -/
def State.formPasses (s : State) : State :=
  s.drapers.foldl (fun (s : State) (d : Nat × Draper) => s.formDue d.1 d.2.tasks.length) s

/-- Accumulators that resident strands hold on a tile. -/
def State.accsHeld (s : State) (die tile : Nat) : Nat :=
  (((s.st :: s.others).filter fun t => t.residentOn die tile).map fun t => t.mat.accs.length).foldl (· + ·) 0

/-- A tile is fenced (R519). -/
def State.isFenced (s : State) (die tile : Nat) : Bool := s.svc.fenced.contains (die * Config.tilesPerDie + tile)

/-- The tiles of a die that a partition makes eligible for Draper passes: the DRTILES highest that it holds (R473), but for
fenced ones (R519). -/
def State.passTiles (s : State) (part die : Nat) : List Nat :=
  let c := (s.part part).cfg
  let held := (genFrom Config.tilesPerDie 0 id).filter fun i => c.holds die i Config.tilesPerDie
  (held.drop (held.length - c.drtiles)).filter fun i => !s.isFenced die i

/-- A tile can take a pass (R371). -/
def State.tileFree (s : State) (die tile : Nat) : Bool :=
  !((s.draper die).passes.any fun p => p.tile == some tile) && decide (s.accsHeld die tile < 8)

/-- A tile's engines go on to work for a world (R499): where they worked for another one, what the tile caches goes. -/
def State.enterWorld (s : State) (tile world : Nat) : State :=
  match (s.tileAt tile).world with
  | none => s.modTile tile fun c => { c with world := some world }
  | some w =>
    if w = world then s
    else
      let s := s.modTile tile fun c => { c.cleared with world := some world }
      { s with btbs := s.btbs.filter fun b => b.tile != some tile }

/-- The strand of a place gets its tile (R54): the tile's engines go on to work for its world, and the access rights of the tile's
strands of other worlds are withdrawn until they run again (R499). -/
def State.takeTile (s : State) (p : Place) : State :=
  let bar := fun t : Strand => if t.residentOn p.die p.tile ∧ t.place.world ≠ p.world then { t with barred := true } else t
  { (s.enterWorld p.tileKey p.world).modTile p.tileKey fun c => { c with bank := p.bank } with
    st := bar s.st, others := s.others.map bar }

/-- The world of the strand that has a tile: the active one, or one that parked there and has not been switched out. -/
def State.activeWorld (s : State) (die tile : Nat) : Option Nat :=
  let c := s.tileAt (die * Config.tilesPerDie + tile)
  let on := fun (p : Strand → Bool) => ((s.st :: s.others).find? fun t => t.residentOn die tile && p t).map fun t => t.place.world
  (on fun t => t.life == .active).or (on fun t => t.life == .parked && t.place.bank == c.bank)

/-- The clear before and after a Draper pass whose world differs from that of the strand that has its tile (R499): the tile's
caches hold that strand's translations and lines alone. Where no strand has the tile, the pass's world is the one that its engines
last worked for. -/
def State.passClear (s : State) (die tile world : Nat) : State :=
  let k := die * Config.tilesPerDie + tile
  match s.activeWorld die tile with
  | some w => if w = world then s.enterWorld k w else (s.enterWorld k world).enterWorld k w
  | none => s.enterWorld k world

/-- Rows of a strand that runs are in flight in a bank (R336, R371). -/
def State.bankBusy (s : State) (key : Nat) : Bool :=
  (s.st :: s.others).any fun t => t.life == .active && !t.engHeld.getLsbD 1 && (t.queue 2).any (s.flightAt t key true)

/-- Place the oldest pass that waits (R371): on a tile that holds its identity, or else on the first free one, with a bank in which
no row is in flight, which is then loaded; and none during a checkpoint (R525). -/
def State.placePass (s : State) (die : Nat) : Option State :=
  let d := s.draper die
  match (if s.svc.ckptState = 0 then d.passes.find? fun p => p.tile.isNone else none) with
  | none => none
  | some p =>
    let tiles := (s.passTiles p.part die).filter (s.tileFree die)
    let world := ((d.tasks.find? fun t => p.tasks.contains t.id).map DTask.world).getD 0
    let run := fun (s : State) (tile bank : Nat) =>
      let s := s.passClear die tile world
      let d := s.draper die
      s.setDraper die { d with
        tasks := d.tasks.map fun t => if p.tasks.contains t.id then { t with st := .running } else t
        passes := d.passes.map fun q => if q.id = p.id then { q with tile := some tile, bank := bank } else q }
    match s.region p.part p.wid with
    | none => none
    | some w =>
      let img := s.regionBank w
      let banks := tiles.flatMap fun t => [(t, 0), (t, 1)]
      match banks.find? fun b => (s.bolt (boltKey die b.1 b.2)).holds img with
      | some (t, b) => some (run s t b)
      | none =>
        match banks.find? fun b => !s.bankBusy (boltKey die b.1 b.2) with
        | some (t, b) => some (run ((s.setBolt (boltKey die t b) img).staleOthers (boltKey die t b) none) t b)
        | none => none

/-! ## Running a pass (R373, R374) -/

/-- The exact activations of a row, read in its owner's context (R373): a page of another attribute than ADESC traps. -/
def readActs (w : Who) (slot src img : Nat) : M (List Fp × Flags) := do
  let p := unitPort 7 slot w .read
  let attr ← p.attrAt src 0
  if attr ≠ shapeAdesc img then trapFormat src
  let f := fmtOf attr
  alignImage f (BitVec.ofNat 64 src) 0
  let xs ← collectM (genFrom (shapeK img) 0 id) fun k => do
    let r ← p.readCode attr f src k
    return f.exact r.1 r.2
  return (xs.map Prod.fst, xs.foldl (fun a x => a ||| x.2) 0)

/-- The attribute of a row's destination, and its checks (R373); `acc` is the class of the accesses: nothing is written. -/
def checkDst (w : Who) (slot dst img : Nat) (acc : AccessKind) : M Nat := do
  let p := unitPort 7 slot w acc
  let attr ← p.attrAt dst 0
  let f := fmtOf attr
  let ncol := shapeNcol img
  alignImage f (BitVec.ofNat 64 dst) 0
  if f.scaled then
    if !f.onBlock dst || ncol % f.blockLen != 0 then trapM .align 0 (BitVec.ofNat 64 dst)
    eachM (genFrom (ncol / f.blockLen) 0 id) fun k => do
      let _ ← p.blockRoom attr f dst k
  else
    eachM (genFrom ncol 0 id) fun c => do
      let _ ← p.room attr f dst c ncol fun _ => true
  return attr

/-- Apply the epilogue to a row's sums and write it (R340, R373). -/
def writeResult (w : Who) (slot dst img : Nat) (acc : List Elem) : M Flags := do
  let attr ← checkDst w slot dst img .check
  let out := (acc.take (shapeNcol img)).map fun a => epiElem (shapeInt img) none none (shapeAct img) a
  let fl ← writeRow (unitPort 7 slot w .write) attr dst (shapeNcol img) 0 (fun _ => 0) (out.map Prod.fst)
  return out.foldl (fun f x => f ||| x.2) fl

/-- A row of a running pass: its task, index, and its sums once they are complete. -/
structure PassRow where
  task : DTask
  j : Nat
  src : Nat
  dst : Nat
  acc : Option (List Elem)
  /-- A page request that it waits on, by granule and failing address, or a trap. -/
  stop : Option (Sum (Nat × Nat) TrapInfo)
  deriving DecidableEq, Repr

/-- Compute a row's sums against a bank (R373), and check its destination. -/
def computeRow (die : Nat) (b : BoltBank) (r : PassRow) : M PassRow := do
  let img := r.task.img
  match ← attempt (readActs r.task.who r.task.slot r.src img) with
  | .waits g va => return { r with stop := some (.inl (g, va)) }
  | .trapped t => return { r with stop := some (.inr t) }
  | .done (acts, fl) =>
    let wf := fmtOf (shapeWdesc img)
    let sums := passRow wf.tri acts (fun k col => (b.weight (shapeWdesc img) 0 k col).1) fun _ => 0
    let wfl := (genFrom 64 0 fun col => (genFrom acts.length 0 fun k => (b.weight (shapeWdesc img) 0 k col).2).foldl (· ||| ·) 0).foldl (· ||| ·) 0
    modify fun s => s.setTask die r.task.id fun t =>
      { t with flags := sums.foldl (fun f x => f ||| x.2) (t.flags ||| fl ||| wfl) }
    let r := { r with acc := some (sums.map Prod.fst) }
    match ← attempt (checkDst r.task.who r.task.slot r.dst img .check) with
    | .waits g va => return { r with stop := some (.inl (g, va)) }
    | .trapped t => return { r with stop := some (.inr t) }
    | .done _ => return r

/-- A row is lost (R361). -/
def loseRow (die id : Nat) : M Unit := modify fun s => s.setTask die id fun t => { t with lost := true }

/-- Take a park record of a task's ring (R361): its index, or none where the area is full. -/
def takePark (t : DTask) : M (Option Nat) := do
  let pcap ← unitRead 7 t.slot t.who (t.ring + 32) 4
  let i ← unitAdd 7 t.slot (t.ring + 36) 4 1
  return if pcap ≤ i then none else some i

/-- Write bytes in a context's memory. -/
def unitPut (slot va : Nat) (bs : List Byte) : M Unit := do
  eachM (pieces (bs.length / 64 + 2) va bs.length) fun pc => do
    let m ← unitMap 7 slot pc.1 .write
    modify fun s => s.writeHome m.pa ((bs.drop (pc.1 - va)).take pc.2)

/-- Write a park record (R361): ACC where it is given, and what follows it. -/
def putPark (t : DTask) (q : ParkRequest) (i : Nat) : M Unit := do
  let park ← unitRead 7 t.slot t.who (t.ring + 24) 8
  let va := (park + 320 * i) % 2 ^ 64
  match q.acc with
  | some xs => unitPut t.slot va (xs.flatMap fun e => bytesOfNat 4 e.toNat)
  | none => pure ()
  let head := (if q.valid then 2 ^ 21 else 0) + (if q.wait.isSome then 2 ^ 20 else 0) + q.kind * 2 ^ 16 + q.code * 2 ^ 8 + q.row
  unitPut t.slot (va + 256) (bytesOfNat 8 t.recVa ++ bytesOfNat 8 head ++ bytesOfNat 8 q.tval ++ bytesOfNat 40 0)

/-- Park a row (R361, R374). A row that finds the area full, or whose record faults, is lost; a record that misses at the second
stage waits for its page (R285). -/
def parkRow (die id : Nat) (q : ParkRequest) : M Unit := do
  match ((← get).draper die).tasks.find? fun t => t.id == id with
  | none => pure ()
  | some t =>
    let fault := fun (f : TrapInfo) => do
      loseRow die id
      draperFault die t.fn t.recVa f
    let hold := fun (q : ParkRequest) (g : Nat) =>
      modify fun s => s.setTask die id fun t => { t with parking := t.parking ++ [{ q with hold := g }] }
    match ← attempt (match q.index with | some i => pure (some i) | none => takePark t) with
    | .waits g _ => hold q g
    | .trapped f => fault f
    | .done none => loseRow die id
    | .done (some i) =>
      match ← attempt (putPark t q i) with
      | .waits g _ => hold { q with index := some i } g
      | .trapped f => fault f
      | .done _ =>
        modify fun s => s.setTask die id fun t =>
          { t with parked := t.parked ++ [⟨q.row, i, q.valid, q.wait.map fun g => (q.tval, g), q.answer⟩] }

/-- Park a row of a running pass, with the cause it has met, or the page request that it waits on. -/
def parkPassRow (die : Nat) (r : PassRow) (code kind tval : Nat) (wait : Option Nat) : M Unit :=
  parkRow die r.task.id
    { row := r.j, code := code, kind := kind, tval := tval, wait := wait, answer := none, valid := r.acc.isSome
      acc := some (r.acc.getD (List.replicate 64 0)), index := none, hold := 0 }

/-- A task's first failure in ascending row (R374). -/
def noteFail (die : Nat) (r : PassRow) (t : TrapInfo) : M Unit :=
  modify fun s => s.setTask die r.task.id fun x =>
    match x.fail with
    | some f => if r.j < f.1 then { x with fail := some (r.j, t.cause.code, t.kind) } else x
    | none => { x with fail := some (r.j, t.cause.code, t.kind) }

/-- Finish the rows of one owner in order (R374): each is written, or parked to wait on its page request; where one of them
has met a trap, those that are not written yet are parked. -/
def finishRows (die : Nat) : Bool → List PassRow → M Unit
  | _, [] => pure ()
  | trapped, r :: rest => do
    match r.stop with
    | some (.inr t) =>
      noteFail die r t
      parkPassRow die r t.cause.code t.kind t.tval.toNat none
      finishRows die true rest
    | some (.inl (g, va)) =>
      if trapped then parkPassRow die r 0 0 0 none else parkPassRow die r 0 0 va (some g)
      finishRows die trapped rest
    | none =>
      if trapped then
        parkPassRow die r 0 0 0 none
        finishRows die true rest
      else
        match ← attempt (writeResult r.task.who r.task.slot r.dst r.task.img (r.acc.getD [])) with
        | .done fl =>
          modify fun s => s.setTask die r.task.id fun t => { t with flags := t.flags ||| fl }
          finishRows die false rest
        | .trapped t =>
          noteFail die r t
          parkPassRow die r t.cause.code t.kind t.tval.toNat none
          finishRows die true rest
        | .waits g va =>
          parkPassRow die r 0 0 va (some g)
          finishRows die false rest

/-- Finish the rows of one owner (R374). -/
def finishOwner (die : Nat) (rows : List PassRow) : M Unit :=
  finishRows die (rows.any fun r => match r.stop with | some (.inr _) => true | _ => false) rows

/-- RES of a task that has no row left to wait for (R360). -/
def DTask.result (t : DTask) : Nat := if t.lost then 6 else if t.parked.isEmpty then 1 else 2

/-- A running task ends, or stays parked while a row waits (R371). -/
def settleTask (die id : Nat) : M Unit := do
  match ((← get).draper die).tasks.find? fun t => t.id == id with
  | none => pure ()
  | some t =>
    if !t.parking.isEmpty || t.parked.any fun p => p.wait.isSome then modify fun s => s.setTask die id fun t => { t with st := .parked }
    else endTask die id t.result

/-- Run a placed pass to its end (R373, R374): rows in the order of their tasks, owner by owner. -/
def runDraperPass (die : Nat) (p : DPass) : M Unit := do
  let s ← get
  match p.tile with
  | none => pure ()
  | some tile =>
    let b := s.bolt (boltKey die tile p.bank)
    let ts := p.tasks.filterMap fun i => (s.draper die).tasks.find? fun t => t.id == i
    let rows := ts.flatMap fun t => (t.rows.zip (genFrom t.rows.length 0 id)).map fun r =>
      PassRow.mk t r.2 r.1.1 r.1.2 none none
    let rows ← collectM rows (computeRow die b)
    eachM ((rows.map fun r => r.task.slot).eraseDups) fun slot => finishOwner die (rows.filter fun r => r.task.slot == slot)
    eachM ts fun t => settleTask die t.id
    modify fun s =>
      let d := s.draper die
      let s := s.setDraper die { d with passes := d.passes.filter fun q => q.id != p.id }
      s.passClear die tile ((ts.head?.map DTask.world).getD 0)

/-- The oldest placed pass of a die is complete; none during a checkpoint (R525). -/
def State.completePass (s : State) (die : Nat) : Option State :=
  match (if s.svc.ckptState = 0 then (s.draper die).passes.find? fun p => p.tile.isSome else none) with
  | none => none
  | some p => some (s.run (runDraperPass die p))

/-- Write out the sums of an answered row, or park it again in its record: `acc` is the ACC to write there. -/
def finishRow (die : Nat) (t : DTask) (p : ParkedRow) (valid : Bool) (acc : Option (List Elem)) (m : M (List Elem)) : M Unit := do
  let dst := (t.rows.getD p.row (0, 0)).2
  let q : ParkRequest :=
    { row := p.row, code := 0, kind := 0, tval := 0, wait := none, answer := none, valid := valid, acc := acc
      index := some p.index, hold := 0 }
  match ← attempt (do writeResult t.who t.slot dst t.img (← m)) with
  | .done fl => modify fun s => s.setTask die t.id fun t => { t with flags := t.flags ||| fl }
  | .trapped f =>
    noteFail die ⟨t, p.row, 0, dst, none, none⟩ f
    parkRow die t.id { q with code := f.cause.code, kind := f.kind, tval := f.tval.toNat }
  | .waits g va => parkRow die t.id { q with tval := va, wait := some g }

/-- The sums that stand in a park record. -/
def parkedSums (t : DTask) (i : Nat) : M (List Elem) := do
  let park ← unitRead 7 t.slot t.who (t.ring + 24) 8
  collectM (genFrom 64 0 id) fun c => do
    return BitVec.ofNat 32 (← unitRead 7 t.slot t.who ((park + 320 * i + 4 * c) % 2 ^ 64) 4)

/-- A parked row whose page request was answered is written out, run again alone, or left with the answer's failure (R374). -/
def answerRow (die id : Nat) (p : ParkedRow) (kind : Nat) : M Unit := do
  modify fun s => s.setTask die id fun t => { t with parked := t.parked.filter fun q => q.index != p.index }
  let s ← get
  match (s.draper die).tasks.find? fun t => t.id == id with
  | none => pure ()
  | some t =>
    let (src, dst) := t.rows.getD p.row (0, 0)
    let row : PassRow := ⟨t, p.row, src, dst, none, none⟩
    let failed := fun (valid : Bool) (acc : Option (List Elem)) (f : TrapInfo) => do
      noteFail die row f
      parkRow die id
        { row := p.row, code := f.cause.code, kind := f.kind, tval := f.tval.toNat, wait := none, answer := none, valid := valid
          acc := acc, index := some p.index, hold := 0 }
    if kind ≠ 0 then failed p.valid none ⟨.page, kind, BitVec.ofNat 64 ((p.wait.map Prod.fst).getD 0)⟩
    else if p.valid then finishRow die t p true none (parkedSums t p.index)
    else
      match s.region t.part t.wid with
      | none => failed false none ⟨.page, 1, 0⟩
      | some w =>
        let r ← computeRow die (s.regionBank w) row
        match r.stop, r.acc with
        | some (.inr f), acc => failed acc.isSome acc f
        | some (.inl (g, va)), acc =>
          parkRow die id
            { row := p.row, code := 0, kind := 0, tval := va, wait := some g, answer := none, valid := acc.isSome, acc := acc
              index := some p.index, hold := 0 }
        | none, acc => finishRow die t p true acc (pure (acc.getD []))

/-- A page response for a granule reaches a task (R288, R374): rows and park records that wait on it go on. -/
def answerTask (die id granule kind : Nat) : M Unit := do
  let mark := fun (w : Option Nat) (a : Option Nat) => if w = some granule ∧ a.isNone then some kind else a
  modify fun s => s.setTask die id fun t =>
    { t with
      parked := t.parked.map fun p => { p with answer := mark (p.wait.map Prod.snd) p.answer }
      parking := t.parking.map fun q => { q with answer := mark q.wait q.answer } }
  let task := fun (s : State) => (s.draper die).tasks.find? fun t => t.id == id
  match task (← get) with
  | none => pure ()
  | some t =>
    let held := t.parking.filter fun q => q.hold == granule
    modify fun s => s.setTask die id fun t => { t with parking := t.parking.filter fun q => q.hold != granule }
    eachM held fun q =>
      if kind = 0 then parkRow die id q
      else do
        loseRow die id
        draperFault die t.fn t.recVa ⟨.page, kind, 0⟩
    match task (← get) with
    | none => pure ()
    | some t =>
      eachM (t.parked.filter fun p => p.answer.isSome) fun p => answerRow die id p (p.answer.getD 0)
      if t.st = .parked then settleTask die id

/-- A page response for a granule reaches the records of a function that have ended: a failed one is a fault of the write (R372). -/
def answerEnds (die fn granule kind : Nat) : M Unit := do
  let hit := fun (e : RecordEnd) => e.fn == fn && e.wait == some granule
  let es := ((← get).draper die).ended.filter hit
  modify fun s => let d := s.draper die; s.setDraper die { d with
    ended := d.ended.map fun e =>
      if hit e then { e with wait := none, stage := if kind ≠ 0 ∧ e.stage < 2 then e.stage + 1 else e.stage } else e }
  if kind ≠ 0 then eachM (es.filter fun e => decide (e.stage < 2)) fun e => draperFault die fn e.recVa ⟨.page, kind, 0⟩
  runEnds

/-- A page response of a function frees what waits on its granule in the Drapers (R288, R374). -/
def State.answerDraper (s : State) (fn granule kind : Nat) : State :=
  s.drapers.foldl (fun s d =>
    let s := (d.2.tasks.filter fun t => t.fn == fn).foldl (fun s t => s.run (answerTask d.1 t.id granule kind)) s
    if d.2.ended.any fun e => e.fn == fn && e.wait == some granule then s.run (answerEnds d.1 fn granule kind) else s) s

/-! ## Resets and expiry (R377, R378) -/

/-- Eject every task of the functions named, with nothing written (R377). -/
def State.ejectTasks (s : State) (hit : Nat → Bool) : State :=
  { s with drapers := s.drapers.map fun d =>
    let gone := (d.2.tasks.filter fun t => hit t.fn).map DTask.id
    (d.1, { d.2 with
      tasks := d.2.tasks.filter fun t => !hit t.fn
      ended := d.2.ended.filter fun e => !hit e.fn
      passes := (d.2.passes.map fun p => { p with tasks := p.tasks.filter fun i => !gone.contains i }).filter fun p =>
        !p.tasks.isEmpty }) }

/-- Expire the deadlines of a function (R378). -/
def State.expireTasks (s : State) (fn : Nat) : State :=
  { s with drapers := s.drapers.map fun d => (d.1, { d.2 with tasks := d.2.tasks.map fun t =>
    if t.fn = fn ∧ (t.st = .waiting ∨ t.st = .ready) then { t with deadline := s.clock, patience := 0 } else t }) }

/-- A write of EN = 0 to a weight region entry (R356): tasks of a ready one not yet in a pass are refused, and the banks
that name it lose the identity. -/
def State.weightDisable (s : State) (part i : Nat) : State :=
  match (s.part part).weights.find? fun w => w.1 == i with
  | none => s
  | some (_, w) =>
    if w.st = 2 then
      let s := { s with bolts := s.bolts.map fun (b : Nat × BoltBank) => if b.2.ident = w.id then (b.1, { b.2 with ident := 0 }) else b }
      let s := s.drapers.foldl (fun (s : State) (d : Nat × Draper) =>
        (d.2.tasks.filter fun t => t.part == part && t.wid == w.id && (t.st == .waiting || t.st == .ready)).foldl
          (fun s t => (s.setTask d.1 t.id fun t => { t with fail := some (0, 4, 1) }).run (endTask d.1 t.id 4)) s) s
      (s.setWeight part i fun w => { w with en := false }).advertiseOne part w.world w.id false
    else s.setWeight part i fun w => { w with en := false, st := 0 }

/-- A disabled region goes off once no pass uses it, nor a row that is to be run again (R356, R374). -/
def State.weightOff (s : State) (part i : Nat) : State :=
  match (s.part part).weights.find? fun w => w.1 == i with
  | none => s
  | some (_, w) =>
    let used := s.drapers.any fun d => (d.2.passes.any fun p => p.part == part && p.wid == w.id) ||
      d.2.tasks.any fun t => t.part == part && t.wid == w.id && t.st != .waiting && t.st != .ready
    if w.en = false ∧ w.st = 2 ∧ used = false then s.setWeight part i fun w => { w with st := 0 } else s

/-! ## Events -/

/-- Do a change that may have no occasion; then the state stands. -/
def eventOpt (f : State → Option State) (s : State) : Host.Outcome State Fault Refusal := .next ((f s).getD s)

/-- TASK_DEADLINE (R370): the next pass that is due on a die is formed. -/
def execTaskDeadline (die : Nat) (s : State) := eventOpt (fun s => s.formPass die) s
/-- PASS_PLACE (R371). -/
def execPassPlace (die : Nat) (s : State) := eventOpt (fun s => s.placePass die) s
/-- PASS_COMPLETE (R372 to R374). -/
def execPassComplete (die : Nat) (s : State) := eventOpt (fun s => s.completePass die) s
/-- DRAPER_EXPIRE (R378). -/
def execDraperExpire (fn : Nat) (s : State) : Host.Outcome State Fault Refusal := .next (s.expireTasks fn)
/-- WEIGHT_REGION_ENABLE (R356). -/
def execWeightRegionEnable (part i : Nat) (s : State) : Host.Outcome State Fault Refusal := .next (s.weightEnable part i)
/-- WEIGHT_REGION_HASH_DONE (R356). -/
def execWeightRegionHashDone (part i : Nat) (s : State) : Host.Outcome State Fault Refusal := .next (s.hashDone part i)
/-- WEIGHT_REGION_DISABLE (R356). -/
def execWeightRegionDisable (part i : Nat) (s : State) : Host.Outcome State Fault Refusal := .next (s.weightDisable part i)
/-- WEIGHT_REGION_OFF (R356). -/
def execWeightRegionOff (part i : Nat) (s : State) : Host.Outcome State Fault Refusal := .next (s.weightOff part i)

end Sys2Proof.Machine
end

