-- ==== Sys2Proof/Machine/Ordering.lean ====
section
/-! DEFINITION. Phase words, fences, `qjoin` and `ifence` (R66 to R78, R82, R188 to R190). -/

namespace Sys2Proof.Machine

/-- `ph.open` (R67, R188). -/
def execPhOpen (sc : BitVec 3) (s : State) : Host.Outcome State Fault Refusal :=
  scalarM (.phOpen sc) s fun _ => do
    modify State.open
    return none

/-- `ph.close` (R66, R188): every store it publishes is performed when it completes. -/
def execPhClose (sc : BitVec 3) (s : State) : Host.Outcome State Fault Refusal :=
  scalarM (.phClose sc) s fun _ => do
    closeM sc.toNat
    return none

/-- `ph` (R188): close, then open. -/
def execPh (sc : BitVec 3) (s : State) : Host.Outcome State Fault Refusal :=
  scalarM (.ph sc) s fun _ => do
    closeM sc.toNat
    modify State.open
    return none

/-- `fence.sc` (R73, R188): as `ph`; its place in the total order is the step in which it is executed. -/
def execFenceSc (sc : BitVec 3) (s : State) : Host.Outcome State Fault Refusal :=
  scalarM (.fenceSc sc) s fun _ => do
    closeM sc.toNat
    modify State.open
    return none

/-- The engines that a `qjoin` mask names (R78). -/
def joinEngines (m : BitVec 8) : List Nat := [1, 2, 3, 4, 5, 6].filter fun e => m.getLsbD e

/-- The entry of a `qjoin` stands at the head of every queue that it names: all are reached (R78). -/
def Strand.joinReached (t : Strand) (e : Entry) : Bool :=
  match e.word with
  | .qjoin m => (joinEngines m).all fun k =>
      match t.queue k with | x :: _ => x.seq == e.seq && x.isJoin | [] => false
  | _ => false

/-- Take the entries of one reached `qjoin` from their queues. -/
def Strand.popJoin (t : Strand) (seq : Nat) : Strand :=
  { t with queues := t.queues.map fun q => match q with | x :: rest => if x.isJoin && x.seq == seq then rest else q | [] => [] }

/-- Take every `qjoin` that is reached, as many as there may be, and let the scalar core go on (R78). -/
def Strand.settleJoins : Nat → Strand → Strand
  | 0, t => t
  | n + 1, t =>
    match [1, 2, 3, 4, 5, 6].findSome? fun k => match t.queue k with
      | x :: _ => if t.joinReached x then some x.seq else none
      | [] => none with
    | some seq => Strand.settleJoins n (t.popJoin seq)
    | none => t

/-- Entries in the queues of a strand. -/
def Strand.entryCount (t : Strand) : Nat := (t.queues.toList.map List.length).sum

/-- What follows a change of the queues: reached joins go, and holds that are over end (R74, R78). -/
def State.rejoin (s : State) : State :=
  ({ s with st := Strand.settleJoins s.st.entryCount s.st } : State).settleHold

/-- `qjoin` (R78, R189): one entry in each named queue; a full one stalls the splitter (R22). With bit 0 set the scalar
core waits until every entry is reached. -/
def execQjoin (m : BitVec 8) (s : State) : Host.Outcome State Fault Refusal :=
  steer (.qjoin m) s fun p s =>
    let t := s.st
    if (joinEngines m).any fun e => queueDepth e ≤ (t.queue e).length then s.stall
    else
      let u := (joinEngines m).foldl (fun u e => u.setQueue e (u.queue e ++ [mkEntry (.qjoin m) p t])) t
      let u := if m.getLsbD 0 then { u with hold := .join t.steered } else u
      ({ s with st := u.advance t.nextAddr } : State).rejoin

/-- `ifence` (R82, R190). -/
def execIfence (s : State) : Host.Outcome State Fault Refusal :=
  scalarM .ifence s fun _ => do
    modify fun s => s.trimTile s.st.place.tileKey fun c => c.invalid s.st.place.bank false true
    return none

end Sys2Proof.Machine
end

