-- ==== Sys2Proof/Machine/Pools.lean ====
section
/-! DEFINITION. Key-value pools and the Fuller's records (R398, R399, R422 to R433): geometry, block states, lists, takes
and releases, the order of waiting, scrubs, and the rows of a pool. -/

namespace Sys2Proof.Machine

/-! ## Runs -/

/-- The value of a run list at an index. -/
def runGet {α : Type} : List (Nat × Nat × α) → Nat → α → α
  | [], _, d => d
  | (lo, hi, v) :: rest, i, d => if lo ≤ i ∧ i < hi then v else runGet rest i d

/-- A run list with one index given a value. -/
def runPut {α : Type} (l : List (Nat × Nat × α)) (i : Nat) (v : α) : List (Nat × Nat × α) :=
  let cut := l.flatMap fun r =>
    if r.1 ≤ i ∧ i < r.2.1 then
      (if r.1 < i then [(r.1, i, r.2.2)] else []) ++ [(i, i + 1, v)] ++
      (if i + 1 < r.2.1 then [(i + 1, r.2.1, r.2.2)] else [])
    else [r]
  if l.any fun r => decide (r.1 ≤ i ∧ i < r.2.1) then cut else cut ++ [(i, i + 1, v)]

/-- Numbers in a list of runs. -/
def runsCount (l : List (Nat × Nat)) : Nat := (l.map fun r => r.2 - r.1).foldl (· + ·) 0

/-- Add a number at the tail. -/
def runsPush : List (Nat × Nat) → Nat → List (Nat × Nat)
  | [], i => [(i, i + 1)]
  | [(lo, hi)], i => if hi = i then [(lo, i + 1)] else [(lo, hi), (i, i + 1)]
  | r :: rest, i => r :: runsPush rest i

/-- Take the first `n` numbers that `ok` allows, in list order; the others keep their places (R426, R518). The first
number bounds the steps. -/
def runsTake (ok : Nat → Bool) : Nat → Nat → List (Nat × Nat) → List Nat × List (Nat × Nat)
  | 0, _, l => ([], l)
  | _ + 1, _, [] => ([], [])
  | fuel + 1, n, (lo, hi) :: rest =>
    if n = 0 then ([], (lo, hi) :: rest)
    else if hi ≤ lo then runsTake ok fuel n rest
    else if ok lo then
      let r := runsTake ok fuel (n - 1) ((lo + 1, hi) :: rest)
      (lo :: r.1, r.2)
    else
      let r := runsTake ok fuel n ((lo + 1, hi) :: rest)
      (r.1, (lo, lo + 1) :: r.2)

/-- Remove one number from a list of runs. -/
def runsDrop (l : List (Nat × Nat)) (i : Nat) : List (Nat × Nat) :=
  l.flatMap fun r =>
    if r.1 ≤ i ∧ i < r.2 then (if r.1 < i then [(r.1, i)] else []) ++ (if i + 1 < r.2 then [(i + 1, r.2)] else [])
    else [r]

/-! ## Geometry (R398, R399) -/

/-- The element format. -/
def Pool.fmt (p : Pool) : Fmt := fmtOf p.fmtd

/-- Bytes of element data in a row, and RB. -/
def Pool.rowData (p : Pool) : Nat := p.v * p.fmt.bitsPer / 8
def Pool.rowBytes (p : Pool) : Nat :=
  64 * ((p.rowData + (if p.fmt.scaled then p.v / p.fmt.blockLen else 0) + 63) / 64)

/-- Physical address of a block, and of the row of a token's key or value in it. -/
def Pool.blockPa (p : Pool) (b : Nat) : Nat := p.base * 65536 + b * p.stride
def Pool.rowPa (p : Pool) (b t : Nat) (value : Bool) : Nat := p.blockPa b + (if value then 16 + t else t) * p.rowBytes

/-- First frame beyond the blocks, rounded up, and first beyond the block state area (R425). -/
def Pool.stateFrame (p : Pool) : Nat := p.base + (p.nblk * p.stride + 65535) / 65536
def Pool.endFrame (p : Pool) : Nat := p.stateFrame + (16 * p.nblk + 65535) / 65536

/-- Last frame, not included, that holds blocks. -/
def Pool.lastFrame (p : Pool) : Nat := p.base + (p.nblk * p.stride + 65535) / 65536

/-- FMTD is one that R399 names. -/
def poolFmtOk (d : Nat) : Bool :=
  let f := fmtOf d
  descOk d && (f.fmt == 0 || f.fmt == 2 || f.fmt == 3 || f.fmt == 4 || f.fmt == 5 || f.fmt == 6 || (f.fmt == 7 && f.scaled))

/-- The fields of a pool are within R398 and R399. -/
def Pool.legal (p : Pool) : Bool :=
  p.en && p.bsz ≤ 5 && poolFmtOk p.fmtd && 1 ≤ p.nblk && p.nblk ≤ 2 ^ 32 - 2 && p.v % 16 == 0 && 16 ≤ p.v &&
    p.v ≤ 4096 && (!p.fmt.scaled || p.v % p.fmt.blockLen == 0) && p.sealMode != 3 && (p.sealMode == 0 || p.world != 0) &&
    decide (32 * p.rowBytes ≤ p.stride) && decide (p.endFrame * 65536 ≤ dramEnd)

/-! ## Rows (R399) -/

/-- The code and scale code of element `e` of a row. -/
def Pool.elemCode (p : Pool) (s : State) (who : Who) (row e : Nat) : Nat × Nat :=
  let f := p.fmt
  let code :=
    if f.bitsPer = 4 then s.peekNat who (row + e / 2) 1 / 16 ^ (e % 2) % 16
    else s.peekNat who (row + e * f.bytes) f.bytes
  (code, if f.scaled then s.peekNat who (row + p.rowData + e / f.blockLen) 1 else 0)

/-- Codes packed in bytes: two to a byte for 4-bit elements, the even one low. -/
def packNibbles : List Nat → List Byte
  | a :: b :: rest => BitVec.ofNat 8 (a % 16 + b % 16 * 16) :: packNibbles rest
  | [a] => [BitVec.ofNat 8 (a % 16)]
  | [] => []

/-- The bytes of a row that holds FP32 elements, encoded with rn (R407), and flags. -/
def Pool.encodeRow (p : Pool) (xs : List Elem) : List Byte × Flags :=
  let f := p.fmt
  let pack := fun (codes : List Nat) =>
    if f.bitsPer = 4 then packNibbles codes else codes.flatMap (bytesOfNat f.bytes)
  if f.scaled then
    let blocks := genFrom (p.v / f.blockLen) 0 fun k =>
      f.quantise 0 (((xs.drop (k * f.blockLen)).take f.blockLen).map fun x => (fpOf x, 0))
    (pack (blocks.flatMap fun b => b.1) ++ blocks.map (fun b => BitVec.ofNat 8 b.2.1),
     blocks.foldl (fun a b => a ||| b.2.2) 0)
  else
    let cs := xs.map fun x => f.encode 0 0 (fpOf x)
    (pack (cs.map Prod.fst), cs.foldl (fun a c => a ||| c.2) 0)

/-! ## Pools of a partition -/

/-- A pool entry of a partition. -/
def State.pool (s : State) (part i : Nat) : Pool := assoc (s.part part).pools i Pool.clear

/-- Replace a pool entry. -/
def State.setPool (s : State) (part i : Nat) (p : Pool) : State :=
  let x := s.part part
  s.setPart part { x with pools := assocPut x.pools i p }

/-- A block that no list names. -/
def Block.none : Block := ⟨.withdrawn, 0, 0, 0, 0⟩

/-- The state entry of a block; a number beyond the pool is of no block. -/
def Pool.block (p : Pool) (b : Nat) : Block := runGet p.blocks b Block.none

/-- Replace a block's state entry. -/
def Pool.setBlock (p : Pool) (b : Nat) (x : Block) : Pool := { p with blocks := runPut p.blocks b x }

/-- Blocks of a pool in a state. -/
def Pool.countState (p : Pool) (st : BlockState) : Nat :=
  (p.blocks.map fun r => if r.2.2.st = st then r.2.1 - r.1 else 0).foldl (· + ·) 0

/-- The tenant of a function's contexts (R424). -/
def State.tenant (s : State) (fn : Nat) : Nat := if fn = 0 then 0 else (s.fn fn).tenant

/-- Release one reference (R428): a block left with none goes to the to-scrub list. -/
def Pool.release (p : Pool) (b : Nat) : Pool :=
  let x := p.block b
  if x.st = .held then
    if x.ref ≤ 1 then { p.setBlock b { x with st := .toScrub, ref := 0 } with toScrub := runsPush p.toScrub b }
    else p.setBlock b { x with ref := x.ref - 1 }
  else p

/-- Add one reference. -/
def Pool.addRef (p : Pool) (b : Nat) : Pool :=
  let x := p.block b
  p.setBlock b { x with ref := x.ref + 1 }

/-- Every block held by a context that `hit` names goes to the to-scrub list, whatever its REF (R431). -/
def Pool.dropContexts (p : Pool) (hit : Nat → Bool) : Pool :=
  p.blocks.foldl (fun p r =>
    if r.2.2.st = .held ∧ hit r.2.2.ctx = true then
      (genFrom (r.2.1 - r.1) r.1 id).foldl (fun p b =>
        { p.setBlock b { r.2.2 with st := .toScrub, ref := 0 } with toScrub := runsPush p.toScrub b }) p
    else p) p

/-! ## Waiting in order (R430) -/

/-- A word's place among those that wait. -/
def FullerWait.isOf (w : FullerWait) (gang member seq : Nat) : Bool :=
  w.gang == gang && w.member == member && w.seq == seq

/-- Wait until the list of a pool, or of the page frames, holds `n` for this word: no later waiter overtakes. -/
def needFuller (x : Entry) (pool : Option Nat) (table : Option Nat) (n : Nat) (free : State → Nat) : M Unit := do
  let s ← get
  let p := s.st.place
  let same := s.fullerWaits.filter fun w => w.part == p.part && w.pool == pool
  let first := match same with | [] => true | w :: _ => w.isOf p.gang p.member x.seq
  if first && n ≤ free s then
    set { s with fullerWaits := s.fullerWaits.filter fun w => !w.isOf p.gang p.member x.seq }
  else
    if !(s.fullerWaits.any fun w => w.isOf p.gang p.member x.seq) then
      let w : FullerWait := ⟨p.gang, p.member, x.seq, p.part, pool, table⟩
      set { s with fullerWaits := s.fullerWaits ++ [w] }
    waitM 8 0

/-- A word of the current strand needs nothing of the Fuller any more: it gives up its place (R430). -/
def State.leaveFuller (s : State) (seq : Nat) : State :=
  if s.fullerWaits.isEmpty then s
  else { s with fullerWaits := s.fullerWaits.filter fun w => !w.isOf s.st.place.gang s.st.place.member seq }

/-- The same, for a word being performed. -/
def dropFullerWait (x : Entry) : M Unit := modify fun s => s.leaveFuller x.seq

/-- Wait for `n` blocks of a pool. -/
def needBlocks (x : Entry) (pool table n : Nat) : M Unit := do
  if n = 0 then return ← dropFullerWait x
  let part := (← getSt).place.part
  needFuller x (some pool) (some table) n fun s => runsCount (s.pool part pool).scrubbed

/-- The blocks that a take of `n` gives (R428). -/
def Pool.nextBlocks (p : Pool) (n : Nat) : List Nat × List (Nat × Nat) :=
  runsTake (fun _ => true) (2 * n + p.scrubbed.length + 1) n p.scrubbed

/-- Take `n` blocks that are there (R428): Held with one reference, of the issuing context. -/
def takeBlocks (pool n : Nat) : M (List Nat) := do
  let s ← get
  let pl := s.st.place
  let p := s.pool pl.part pool
  let (bs, rest) := p.nextBlocks n
  let p := bs.foldl (fun p b =>
    p.setBlock b { p.block b with st := .held, ref := 1, tenant := s.tenant pl.fn, ctx := pl.slot }) { p with scrubbed := rest }
  set (s.setPool pl.part pool p)
  return bs

/-- Release one reference to a block of the current strand's partition. -/
def releaseBlock (pool b : Nat) : M Unit :=
  modify fun s => s.setPool s.st.place.part pool ((s.pool s.st.place.part pool).release b)

/-- A word writes bytes of a pool: where they lie in a weight region it traps as every write does (R356), with the entry's
address. -/
def guardPool (pa n ea : Nat) : M Unit := do
  let s ← get
  if (genFrom ((pa % 65536 + n + 65535) / 65536) (pa / 65536) fun f => s.weightFrame (f * 65536)).any id then trapPage 2 ea

/-- Copy the first `n` bytes from an offset of one block to another. -/
def copyBlock (p : Pool) (dst src off n : Nat) : M Unit :=
  modify fun s => s.engineWrite (p.blockPa dst + off) (s.mem.readBytes (p.blockPa src + off) n)

/-- The lines of ranges of a block are read: integrity of all, then poison, of a line or of the whole block (R242, R420). TVAL
is the entry's address. -/
def checkPoolLines (p : Pool) (b : Nat) (ranges : List (Nat × Nat)) (ea : Nat) : M Unit := do
  let lines := ranges.flatMap fun r => genFrom ((r.1 % 64 + r.2 + 63) / 64) (r.1 / 64) id
  eachM lines fun l => checkInteg (l * 64) ea
  if p.poison.contains b then trapM .poison 0 (BitVec.ofNat 64 ea)
  eachM lines fun l => checkPoison (l * 64) ea

/-- Block translation buffers lose what they hold of a table (R261, R392, R403). -/
def State.dropTable (s : State) (part tablePa : Nat) : State :=
  { s with btbs := s.btbs.filter fun b => !(b.part == part && b.tablePa == tablePa) }

/-! ## Scrubs (R428 to R432) -/

/-- Frames that lie in a covered range (R517): each stack of 64 GiB is covered from its base. -/
def State.covered (s : State) (frame : Nat) : Bool :=
  let gib := match s.svc.integNow with | 0 => 0 | 1 => 8 | 2 => 16 | _ => 32
  decide (frame % 2 ^ 20 < gib * 2 ^ 14)

/-- A line lies in a run of bytes. -/
def lineIn (pa n l : Nat) : Bool := decide (pa ≤ l * 64 ∧ l * 64 < pa + n)

/-- Bytes read as zero, with fresh MACs and replay counters, in no L1 (R429 steps 2 and 4): what failed a check before fails it no
more. The memory-value waits read what is written (R302), and versions in the slots that are overwritten are spoiled (R307). -/
def State.zeroBytes (s : State) (pa n : Nat) : State :=
  let mem := s.mem.clear pa n
  { s.modTiles fun c => c.dropLines pa n with
    mem := mem
    narrow := s.narrow.filter fun x => !(decide (pa ≤ x.pa ∧ x.pa < pa + n))
    badLines := s.badLines.filter fun l => !lineIn pa n l
    flakyLines := s.flakyLines.filter fun l => !lineIn pa n l
    lineCtrs := s.lineCtrs.filter fun c => !lineIn pa n c.1
    bankWaits := s.bankWaits.map (BankWait.notice mem pa n)
    spoiled := s.spoiledBy pa n ++ s.spoiled }

/-- A line of a run of bytes is poisoned no more (R432). -/
def State.clearPoison (s : State) (pa n : Nat) : State := { s with poison := s.poison.filter fun l => !lineIn pa n l }

/-- A scrub's check after zeroing: it fails where a line is bad on its re-read as well (R432). A transient fault is
recorded and counted. -/
def State.scrubCheck (s : State) (pa n : Nat) : State × Bool :=
  let hit := lineIn pa n
  if s.badLines.any hit then (s, false)
  else
    let s := (s.flakyLines.filter hit).foldl (fun s l => s.scrivener (lineSrc l) 9 (l * 64) 1) s
    ((({ s with flakyLines := s.flakyLines.filter fun l => !hit l }).correctable (s.flakyLines.filter hit).length).clearPoison pa n, true)

/-- Bolt slots whose contents were read from a frame of a range become empty, and their banks stale (R429 step 4). -/
def State.dropWeights (s : State) (lo hi : Nat) : State :=
  let hit := fun (x : Nat × BoltSlot) => x.2.srcs.any fun r => decide (r.1 < hi ∧ lo < r.2)
  s.bolts.foldl (fun (s : State) (b : Nat × BoltBank) =>
    if b.2.slots.any hit then
      (s.setBolt b.1 { b.2 with slots := b.2.slots.filter fun x => !hit x }).staleOthers b.1 none
    else s) s

end Sys2Proof.Machine
end

