-- ==== Sys2Proof/Machine/KvTable.lean ====
section
/-! DEFINITION. The cache-context engine (R397 to R421): block tables, the positions that a word reaches, the words of
opcodes 0x01 to 0x0D, and the key-value copies of the copy engine (R260 to R262). -/

namespace Sys2Proof.Machine

/-! ## Block tables (R400, R402) -/

/-- The number that stands for no block. -/
def noBlock : Nat := 2 ^ 32 - 1

/-- An open table: its address, its header's physical address and 128-byte image, and the engine and class by which it is
accessed. -/
structure KTable where
  va : Nat
  pa : Nat
  h : Nat
  eng : Nat
  acc : AccessKind
  deriving DecidableEq, Repr

def KTable.live (t : KTable) : Bool := bit t.h 63
def KTable.pool (t : KTable) : Nat := bits t.h 40 8
def KTable.len (t : KTable) : Nat := bits t.h 0 32
def KTable.cap (t : KTable) : Nat := bits t.h 64 32
def KTable.wopen (t : KTable) : Bool := bit t.h 575
def KTable.drafted (t : KTable) : Nat := bits t.h 556 5
def KTable.wctx (t : KTable) : Nat := bits t.h 544 12
def KTable.win (t : KTable) : Nat := bits t.h 512 16
def KTable.rng0 (t : KTable) : Nat := bits t.h 576 64
def KTable.len0 (t : KTable) : Nat := bits t.h 640 32
def KTable.dpt (t : KTable) : Nat := bits t.h 672 32
def KTable.df0 (t : KTable) : Nat := bits t.h 704 32
def KTable.df1 (t : KTable) : Nat := bits t.h 736 32
def KTable.cken (t : KTable) : Bool := bit t.h 768
def KTable.ckz (t : KTable) : Nat := bits t.h 769 3
def KTable.stz (t : KTable) : Nat := bits t.h 772 3
def KTable.stg (t : KTable) : Nat := bits t.h 775 4
def KTable.shadow (t : KTable) : Bool := bit t.h 779
def KTable.ckmask (t : KTable) : Nat := bits t.h 784 16

/-- Change a field of the header image. -/
def KTable.put (t : KTable) (lo len v : Nat) : KTable := { t with h := setBits t.h lo len v }

/-- Address of entry `i`. -/
def KTable.entryVa (t : KTable) (i : Nat) : Nat := (t.va + 128 + 4 * i) % 2 ^ 64

/-- Blocks that `n` positions take. -/
def blocksOf (n : Nat) : Nat := (n + 15) / 16

/-- A table address is a multiple of 128, before any other check (R402). -/
def tableAligned (va : Nat) : M Unit := do
  if va % 128 ≠ 0 then trapM .align 0 (BitVec.ofNat 64 va)

/-- Open a table for a word of an engine (R402). A word of engine 6 waits behind a word on the table that waits for blocks
(R430). `chk` is false for `k.tbl`, which alone accepts a table that is not live. -/
def openTable (x : Entry) (eng : Nat) (acc : AccessKind) (chk : Bool) (va : Nat) : M KTable := do
  tableAligned va
  let p := (← getSt).place
  let m ← mapAccess eng p.slot va acc
  -- the whole header is checked for integrity before it is checked for poison (R180)
  checkInteg m.pa va
  checkInteg (m.pa + 64) va
  checkPoison m.pa va
  checkPoison (m.pa + 64) va
  let s ← get
  if eng = 6 ∧ s.fullerWaits.any (fun w => w.table == some m.pa && !w.isOf p.gang p.member x.seq) = true then waitM 8 0
  let t : KTable := ⟨va, m.pa, natOfBytes (← memBytes m.pa 128), eng, acc⟩
  if chk && (!t.live || !(s.pool p.part t.pool).en) then trapPage 3 va
  return t

/-- The header or an entry may be written: what may wait or trap is done before a word changes anything. Nothing is marked until it
is written (R278). -/
def prepWrite (t : KTable) (va : Nat) : M Unit := do
  let l ← locate t.eng (← getSt).place.slot va .bank
  l.sealed va
  l.ready

/-- Read an entry. -/
def KTable.entry (t : KTable) (i : Nat) : M Nat := do
  let ea := t.entryVa i
  let m ← mapAccess t.eng (← getSt).place.slot ea t.acc
  checkLine m.pa ea
  return natOfBytes (← memBytes m.pa 4)

/-- Write an entry. -/
def KTable.putEntry (t : KTable) (i v : Nat) : M Unit := do
  let m ← mapAccess t.eng (← getSt).place.slot (t.entryVa i) .bank
  memPut m.pa (bytesOfNat 4 v)

/-- OWNER: the context slot that initialised the table (R400). -/
def KTable.owner (t : KTable) : Nat := bits t.h 160 12

/-- The table has an open window now, or none any more. -/
def KTable.noteWindow (t : KTable) (on : Bool) : M Unit := do
  let p := (← getSt).place
  let l ← locate t.eng p.slot t.va .bank
  let w : OpenWindow := ⟨p.part, t.owner, p.slot, t.va, t.pa, l.m.fn, if l.m.two then some l.m.ipa else none, false⟩
  modify fun s => { s with windows := (s.windows.filter fun w => !(w.part == p.part && w.pa == t.pa)) ++ if on then [w] else [] }

/-- The fields of a header (R400): first bit and width. -/
def headerFields : List (Nat × Nat) :=
  [(0, 32), (40, 8), (63, 1), (64, 32), (160, 12), (176, 2), (512, 16), (544, 12), (556, 5), (575, 1), (576, 64), (640, 32),
   (672, 32), (704, 32), (736, 32), (768, 1), (769, 3), (772, 3), (775, 4), (779, 1), (784, 16)]

/-- A header as the device writes it: its reserved fields are zero (R10). -/
def headerImage (h : Nat) : Nat := headerFields.foldl (fun x f => x + bits h f.1 f.2 * 2 ^ f.1) 0

/-- Write the header back; the buffers lose the table's entries (R403). -/
def KTable.save (t : KTable) : M Unit := do
  let p := (← getSt).place
  let m ← mapAccess t.eng p.slot t.va .bank
  memPut m.pa (bytesOfNat 128 (headerImage t.h))
  modify fun s => s.dropTable p.part t.pa

/-- The pool of a table. -/
def KTable.poolOf (t : KTable) : M Pool := do
  let s ← get
  return s.pool s.st.place.part t.pool

/-- A block is allocated, of a tenant, and its frames have the pool's seal mode and world (R402). -/
def State.blockOk (s : State) (p : Pool) (b tenant : Nat) : Bool :=
  (p.block b).st == .held && (p.block b).tenant == tenant && s.sealAt (p.blockPa b) == (p.sealMode, p.world)

/-- A block that a word reaches is checked (R402). -/
def checkBlock (pool b ea : Nat) : M Block := do
  let s ← get
  let pl := s.st.place
  let p := s.pool pl.part pool
  if !s.blockOk p b (s.tenant pl.fn) then trapM .sealing 0 (BitVec.ofNat 64 ea)
  return p.block b

/-- Raise PAGE for the table. -/
def trapTable {α : Type} (kind : Nat) (t : KTable) : M α := trapPage kind t.va

/-! ## Positions (R401, R435) -/

/-- A reachable position: its block, whether it is drafted, and the address of its entry. -/
structure Spot where
  block : Nat
  drafted : Bool
  ea : Nat
  deriving DecidableEq, Repr

/-- Entries of a block translation buffer: of a tile (R261), or of a slice (R392). -/
def btbEntries (tile : Option Nat) : Nat := if tile.isSome then 256 else 512

/-- An entry through a block translation buffer, of a tile or of a slice, which keeps what it reads (R261, R392); a full buffer
loses its oldest entry (log 6). A table's entries are kept by the buffer of its header's home slice: DESIGN CHOICE, R392 names
the slices' buffers and not which of them keeps an entry (log 6). -/
def KTable.buffered (t : KTable) (tile : Option Nat) (i : Nat) : M Nat := do
  let s ← get
  let p := s.st.place
  let slice := if tile.isSome then 0 else s.homeSlice t.pa
  let mine := fun (b : Btb) => b.tile == tile && b.slice == slice
  match s.btbs.find? fun b => mine b && b.part == p.part && b.ctx == p.slot && b.table == t.va && b.logical == i with
  | some b => return b.block
  | none =>
    let v ← t.entry i
    if v ≠ noBlock then
      let b : Btb := ⟨tile, slice, p.part, p.slot, t.va, i, v, t.pa⟩
      modify fun s => { s with btbs := keepOf mine (btbEntries tile) (b :: s.btbs) }
    return v

/-- Find a position; `tile` names the buffer that committed entries come through. -/
def KTable.find (t : KTable) (buf : Bool) (pos : Nat) : M Spot := do
  let i := pos / 16
  let ea := t.entryVa i
  if pos < t.len then
    let p := (← getSt).place
    let b ← if buf then t.buffered (some p.tileKey) i else t.entry i
    if b = noBlock then trapPage 1 ea
    return ⟨b, false, ea⟩
  else if t.wopen ∧ pos < t.len + t.drafted ∧ t.wctx = (← getSt).place.slot then
    return ⟨if i = t.len0 / 16 then t.df0 else t.df1, true, ea⟩
  else trapPage 1 ea

/-! ## k.pool (R404, R433) -/

/-- The pool that a record names. -/
def poolOfRecord (x : Nat) : Pool :=
  { Pool.clear with
    en := bit x 63, base := bits x 16 36, bsz := bits x 13 3, fmtd := bits x 0 8, nblk := bits x 96 32
    v := bits x 64 16, sealMode := bits x 134 2, world := bits x 128 6 }

/-- Every frame of a pool is OWNED by the partition with the pool's seal mode and world, and in a covered range for mode 2
(R433, R518). -/
def State.poolFramesOk (s : State) (part : Nat) (p : Pool) : Bool :=
  let c := (s.part part).cfg
  decide (c.fbase ≤ p.base ∧ p.endFrame ≤ c.flimit) &&
    (genFrom (p.endFrame - p.base) p.base fun i =>
      let f := frameOf s.frames i
      f.st == .owned && f.sealMode == p.sealMode && f.world == p.world &&
        (p.sealMode != 2 || s.covered i)).all fun b => b

/-- The frames of a pool take a state, with the pool's seal mode and world (R427, R433). -/
def State.markFrames (s : State) (p : Pool) (st : FrameState) : State :=
  (genFrom (p.endFrame - p.base) p.base id).foldl (fun s i =>
    let f := { frameOf s.frames i with st := st, sealMode := p.sealMode, world := p.world }
    { s with frames := putFrames s.frames i (i + 1) f }) s

/-- `k.pool`. The device ignores the record's reserved fields (R10). -/
def performKPool (x : Entry) : M Unit := do
  let pl := (← getSt).place
  alignTo' x.opX 32
  let m ← mapEngine 6 pl.slot x.opX.toNat .read
  let img := natOfBytes (← memBytes m.pa 32)
  let p := poolOfRecord img
  let i := bits x.opY.toNat 0 8
  let s ← get
  if !p.legal || (s.pool pl.part i).en || !s.poolFramesOk pl.part p then trapPage 3 x.opX.toNat
  let fresh : Block := ⟨.toScrub, 0, 0, 0, 0⟩
  set ((s.markFrames p .pool).setPool pl.part i
    { p with blocks := [(0, p.nblk, fresh)], toScrub := [(0, p.nblk)] })
where
  alignTo' (v : Word) (n : Nat) : M Unit := do
    if v.toNat % n ≠ 0 then trapM .align 0 v

/-- `k.pool.off`. -/
def performKPoolOff (x : Entry) : M Unit := do
  let s ← get
  let part := s.st.place.part
  let i := bits x.opY.toNat 0 8
  let p := s.pool part i
  if p.en then
    if p.countState .held ≠ 0 then trapPage 2 x.opY.toNat
    if runsCount p.toScrub + runsCount p.scrubbing ≠ 0 then waitM 8 0
    set ((s.markFrames p .owned).setPool part i Pool.clear)

/-! ## k.tbl, k.app, k.len, k.bbinv (R405, R406, R410) -/

/-- The header after `k.tbl` (R400). -/
def newHeader (pool cap die ctx : Nat) : Nat :=
  2 ^ 63 + pool * 2 ^ 40 + cap * 2 ^ 64 + (die % 4) * 2 ^ 176 + ctx * 2 ^ 160 + noBlock * 2 ^ 704 + noBlock * 2 ^ 736

/-- `k.tbl`. -/
def performKTbl (x : Entry) : M Unit := do
  let t ← openTable x 6 .bankRead false x.opX.toNat
  let s ← get
  let pl := s.st.place
  let i := bits x.opY.toNat 0 8
  let cap := bits x.opZ.toNat 0 32
  if t.live then trapTable 2 t
  if !(s.pool pl.part i).en then trapTable 3 t
  if (s.pool pl.part i).world ≠ pl.world then trapM .sealing 0 x.opX
  if cap = 0 ∨ 1048576 < cap then trapTable 3 t
  prepWrite t t.va
  ({ t with h := newHeader i cap pl.die pl.slot } : KTable).save

/-- The first new position of a `k.app` with `.r` is written at an offset. -/
def checkReturn (ret : Bool) (o : Word) : M Unit := do
  if ret then
    spadFree [(o.toNat, o.toNat + 8)]
    let t ← getSt
    if t.spadSize < o.toNat + 8 then trapPage 2 (max o.toNat t.spadSize)

/-- `k.app` without `.w`. -/
def appendCommitted (x : Entry) (ret : Bool) (t : KTable) : M Unit := do
  let n := bits x.opY.toNat 0 32
  let new := t.len + n
  if n = 0 ∨ 65536 < n then trapTable 3 t
  if t.wopen then trapTable 2 t
  if 16 * t.cap < new ∨ 2 ^ 32 ≤ new then trapTable 2 t
  checkReturn ret x.opZ
  let i0 := blocksOf t.len
  let k := blocksOf new - i0
  prepWrite t t.va
  eachM (genFrom k i0 id) fun i => prepWrite t (t.entryVa i)
  needBlocks x t.pool t.pa k
  let bs ← takeBlocks t.pool k
  eachM (bs.zip (genFrom k i0 id)) fun b => t.putEntry b.2 b.1
  (t.put 0 32 new).save
  if ret then spadPut x.opZ.toNat (bytesOfNat 8 t.len)

/-- `k.app.w`: DF0, a shadow of the tail where it is part full, and DF1 are taken as the drafts reach them. -/
def appendDrafted (x : Entry) (ret : Bool) (t : KTable) : M Unit := do
  let n := bits x.opY.toNat 0 32
  if !t.wopen ∨ t.wctx ≠ (← getSt).place.slot then trapTable 1 t
  if n = 0 ∨ 16 < n then trapTable 3 t
  if 16 < t.drafted + n then trapTable 2 t
  let first := t.len + t.drafted
  let new := first + n
  if 16 * t.cap < new ∨ 2 ^ 32 ≤ new then trapTable 2 t
  checkReturn ret x.opZ
  let b0 := t.len0 / 16
  let tail := t.len0 % 16
  let need0 := t.drafted == 0
  let need1 := t.df1 == noBlock && decide (16 * (b0 + 1) < new)
  let p ← t.poolOf
  let old ← if need0 && tail != 0 then do
      let b ← t.entry b0
      if b = noBlock then trapPage 1 (t.entryVa b0)
      let _ ← checkBlock t.pool b (t.entryVa b0)
      checkPoolLines p b [(p.rowPa b 0 false, tail * p.rowBytes), (p.rowPa b 0 true, tail * p.rowBytes)] (t.entryVa b0)
      eachM ((p.nextBlocks 1).1) fun c => guardPool (p.blockPa c) p.stride (t.entryVa b0)
      pure b
    else pure 0
  prepWrite t t.va
  needBlocks x t.pool t.pa (need0.toNat + need1.toNat)
  let bs ← takeBlocks t.pool (need0.toNat + need1.toNat)
  let t := if need0 then t.put 704 32 (bs.headD 0) else t
  let t := if need1 then t.put 736 32 ((if need0 then bs.drop 1 else bs).headD 0) else t
  let t := if need0 && tail != 0 then t.put 779 1 1 else t
  if need0 && tail != 0 then
    copyBlock p t.df0 old 0 (tail * p.rowBytes)
    copyBlock p t.df0 old (16 * p.rowBytes) (tail * p.rowBytes)
  (t.put 556 5 (t.drafted + n)).save
  if ret then spadPut x.opZ.toNat (bytesOfNat 8 first)

/-- `k.app`. -/
def performKApp (r w : Bool) (x : Entry) : M Unit := do
  tableAligned x.opX.toNat
  if r && x.opZ.toNat % 8 != 0 then trapM .align 0 x.opZ
  let t ← openTable x 6 .bankRead true x.opX.toNat
  if w then appendDrafted x r t else appendCommitted x r t

/-- `k.len`. -/
def performKLen (x : Entry) : M Unit := do
  tableAligned x.opY.toNat
  let o := x.opX.toNat
  if o % 16 ≠ 0 then trapM .align 0 x.opX
  let t ← openTable x 6 .bankRead true x.opY.toNat
  spadFree [(o, o + 16)]
  spadPut o (bytesOfNat 4 t.len ++ bytesOfNat 4 (t.wopen.toNat * 2 ^ 31 + t.drafted * 2 ^ 16 + t.win) ++
    bytesOfNat 4 t.cap ++ bytesOfNat 4 t.pool)

/-- A buffer entry is of the context of the current strand, and of the table at `va`, or of any when it is 0. -/
def Btb.isOf (b : Btb) (p : Place) (va : Nat) : Bool :=
  b.part == p.part && b.ctx == p.slot && (va == 0 || b.table == va)

/-- `k.bbinv`: every buffer of the partition. -/
def performKBbinv (x : Entry) : M Unit :=
  modify fun s => { s with btbs := s.btbs.filter fun b => !b.isOf s.st.place x.opY.toNat }

/-! ## k.wr (R407) -/

/-- FP32 elements of a scratchpad vector. -/
def spadElems (o n : Nat) : M (List Elem) := do
  let bs := (← spadBytes o (4 * n)).toArray
  return genFrom n 0 fun i => BitVec.ofNat 32 (natOfBytes (genFrom 4 (4 * i) fun j => bs.getD j 0))

/-- A committed block with more than one reference is copied before it is written (R407): the block to write. -/
def copyOnWrite (x : Entry) (t : KTable) (pos : Nat) (sp : Spot) : M Nat := do
  let p ← t.poolOf
  checkPoolLines p sp.block [(p.blockPa sp.block, p.stride)] sp.ea
  prepWrite t sp.ea
  needBlocks x t.pool t.pa 1
  eachM (((← t.poolOf).nextBlocks 1).1) fun c => guardPool (p.blockPa c) p.stride sp.ea
  let bs ← takeBlocks t.pool 1
  let c := bs.headD 0
  copyBlock p c sp.block 0 p.stride
  t.putEntry (pos / 16) c
  releaseBlock t.pool sp.block
  let part := (← getSt).place.part
  modify fun s => s.dropTable part t.pa
  return c

/-- The blocks that a write of a position reaches (R407): its own, and the tail's shadow. -/
def KTable.targets (t : KTable) (pos : Nat) (sp : Spot) : List Nat :=
  if !sp.drafted && t.wopen && t.shadow && pos / 16 == t.len0 / 16 then [sp.block, t.df0] else [sp.block]

/-- Check the blocks that a write of a position reaches (R402): what stands for its own. -/
def checkTargets (t : KTable) (pos : Nat) (value : Bool) (sp : Spot) : M Block := do
  let p ← t.poolOf
  let own ← checkBlock t.pool sp.block sp.ea
  eachM ((t.targets pos sp).drop 1) fun b => do let _ ← checkBlock t.pool b sp.ea
  eachM (t.targets pos sp) fun b => guardPool (p.rowPa b (pos % 16) value) p.rowBytes sp.ea
  return own

/-- Write the row of a position, in the tail's shadow too (R407). -/
def writeToken (t : KTable) (pos : Nat) (value : Bool) (sp : Spot) (xs : List Elem) : M Unit := do
  let p ← t.poolOf
  let (bs, fl) := p.encodeRow xs
  eachM (t.targets pos sp) fun b => memPut (p.rowPa b (pos % 16) value) bs
  setFlags fl

/-- The bytes of a unit of `k.wr`, `c.kvg` or `c.kvs` (R241): the rows of its position and, for the copy engine, its entry. A unit
whose entry cannot be read yet may reach any row. -/
def kvTouch (x : Entry) (eng : Nat) (buf value : Bool) (j : Nat) : M (List ByteRange) := fun s =>
  let pos := x.opZ.toNat + j
  let rows : M (List ByteRange) := do
    let t ← openTable x eng .bankRead true x.opY.toNat
    let sp ← t.find buf pos
    let p ← t.poolOf
    return (if eng = 3 then [(0, sp.ea, sp.ea + 4)] else []) ++
      (t.targets pos sp).map fun b => (3, p.rowPa b (pos % 16) value, p.rowPa b (pos % 16) value + p.rowBytes)
  match rows s with
  | .ok rs _ => .ok rs s
  | .error _ _ => .ok [(3, 0, 2 ^ 52)] s

/-- `k.wr`. -/
def performKWr (value : Bool) (x : Entry) : M Unit := do
  let c := completionOf x.extB
  tableAligned x.opY.toNat
  if x.opX.toNat % 4 ≠ 0 then trapM .align 0 x.opX
  checkCompletion c false
  markStarted
  runUnits (gatherCount x.extA) (kvTouch x 6 false value) fun j => do
    let pos := x.opZ.toNat + j
    let t ← openTable x 6 .bankRead true x.opY.toNat
    let v := (← t.poolOf).v
    let o := wrapAddr (x.opX.toNat + 4 * j * v : Nat)
    spadFree [(o, o + 4 * v)]
    let (spb, xs) ← bothSides (do
        let sp ← t.find false pos
        let b ← checkTargets t pos value sp
        return (sp, b)) (spadElems o v)
    let (sp, b) := spb
    let dst ← if !sp.drafted && 1 < b.ref then copyOnWrite x t pos sp else do dropFullerWait x; pure sp.block
    writeToken t pos value { sp with block := dst } xs
  giveSignals c none

/-! ## c.kvg, c.kvs and c.bbinv (R260 to R262) -/

/-- `c.kvg`. A pool line has no virtual address, which R242 would have as the TVAL of a failed integrity check of it: the entry's
address is reported, as R420 has it for a poisoned block. DESIGN CHOICE (log 67). -/
def performCKvg (value : Bool) (x : Entry) : M Unit := do
  let c := completionOf x.extB
  tableAligned x.opY.toNat
  checkCompletion c true
  markStarted
  runUnits (gatherCount x.extA) (kvTouch x 3 true value) fun j => do
    let pos := x.opZ.toNat + j
    let t ← openTable x 3 .bankRead true x.opY.toNat
    let p ← t.poolOf
    let o := wrapAddr (x.opX.toNat + 4 * j * p.v : Nat)
    -- the destination of all units is locked, so that it is seen whole (R80, R397)
    if (← getWork).locks.isEmpty then spadLock [(x.opX.toNat, x.opX.toNat + 4 * gatherCount x.extA * p.v)]
    let room : M Unit := do
      let st ← getSt
      if st.spadSize < o + 4 * p.v then trapPage 2 (max o st.spadSize)
    let (sp, _) ← bothSides (do
      let sp ← t.find true pos
      let _ ← checkBlock t.pool sp.block sp.ea
      checkPoolLines p sp.block [(p.rowPa sp.block (pos % 16) value, p.rowBytes)] sp.ea
      return sp) room
    let s ← get
    let vals := genFrom p.v 0 fun e =>
      let r := p.elemCode s s.st.who (p.rowPa sp.block (pos % 16) value) e
      p.fmt.decode r.1 r.2
    spadPut o (vals.flatMap fun v => bytesOfNat 4 v.1.toNat)
    setFlags (vals.foldl (fun f v => f ||| v.2) 0)
    landed c .spad j (4 * p.v)
  giveSignals c none

/-- `c.kvs`: no copy-on-write (R407). -/
def performCKvs (value : Bool) (x : Entry) : M Unit := do
  let c := completionOf x.extB
  tableAligned x.opY.toNat
  checkCompletion c false
  markStarted
  runUnits (gatherCount x.extA) (kvTouch x 3 true value) fun j => do
    let pos := x.opZ.toNat + j
    let t ← openTable x 3 .bankRead true x.opY.toNat
    let v := (← t.poolOf).v
    let o := wrapAddr (x.opX.toNat + 4 * j * v : Nat)
    spadFree [(o, o + 4 * v)]
    let (sp, xs) ← bothSides (do
      let sp ← t.find true pos
      let b ← checkTargets t pos value sp
      if !sp.drafted && 1 < b.ref then trapPage 2 sp.ea
      return sp) (spadElems o v)
    writeToken t pos value sp xs
  giveSignals c none

/-- `c.bbinv`: this tile's buffer. -/
def performCBbinv (x : Entry) : M Unit :=
  modify fun s => { s with btbs := s.btbs.filter fun b =>
    !(b.tile == some s.st.place.tileKey && b.isOf s.st.place x.opY.toNat) }

/-! ## k.fork, k.trunc and k.ret (R408, R409) -/

/-- `k.fork`. -/
def performKFork (x : Entry) : M Unit := do
  tableAligned x.opX.toNat
  tableAligned x.opY.toNat
  let d ← openTable x 6 .bankRead true x.opX.toNat
  let t ← openTable x 6 .bankRead true x.opY.toNat
  let n := bits x.opZ.toNat 0 32
  if d.len ≠ 0 ∨ d.wopen = true ∨ d.pool ≠ t.pool then trapTable 2 d
  let k := blocksOf n
  if t.len < n ∨ d.cap < k then trapTable 3 d
  let bs ← collectM (genFrom k 0 id) fun i => do
    let b ← t.entry i
    if b ≠ noBlock then let _ ← checkBlock t.pool b (t.entryVa i)
    return b
  prepWrite d d.va
  eachM (genFrom k 0 id) fun i => prepWrite d (d.entryVa i)
  let part := (← getSt).place.part
  eachM (bs.zip (genFrom k 0 id)) fun b => do
    if b.1 ≠ noBlock then modify fun s => s.setPool part t.pool ((s.pool part t.pool).addRef b.1)
    d.putEntry b.2 b.1
  (d.put 0 32 n).save

/-- Release the entries from the new length on, and set it: the table with its new header. -/
def cutTable (t : KTable) (new : Nat) : M KTable := do
  let i0 := blocksOf new
  let is := genFrom (blocksOf t.len - i0) i0 id
  let bs ← collectM is fun i => do
    let b ← t.entry i
    if b ≠ noBlock then
      let _ ← checkBlock t.pool b (t.entryVa i)
      prepWrite t (t.entryVa i)
    return (i, b)
  prepWrite t t.va
  eachM bs fun b => do
    if b.2 ≠ noBlock then
      releaseBlock t.pool b.2
      t.putEntry b.1 noBlock
  return t.put 0 32 new

/-- `k.trunc`. -/
def performKTrunc (x : Entry) : M Unit := do
  let t ← openTable x 6 .bankRead true x.opX.toNat
  let n := bits x.opY.toNat 0 32
  if t.wopen then trapTable 2 t
  if t.len < n then trapTable 3 t
  (← cutTable t n).save

/-- Check a draft block that a word installs or releases, if there is one (R402): DF0 for the entry of L0, DF1 for the next. -/
def checkDraft (t : KTable) (b i : Nat) : M Unit := do
  if b ≠ noBlock then
    let _ ← checkBlock t.pool b (t.entryVa i)

/-- Check both draft blocks. -/
def checkDrafts (t : KTable) : M Unit := do
  checkDraft t t.df0 (t.len0 / 16)
  checkDraft t t.df1 (t.len0 / 16 + 1)

/-- Release a draft block, if there is one. -/
def releaseDraft (t : KTable) (b : Nat) : M Unit := do
  if b ≠ noBlock then releaseBlock t.pool b

/-- A closed window: WOPEN, D, DF0 and DF1. -/
def KTable.closed (t : KTable) : KTable := (((t.put 575 1 0).put 556 5 0).put 704 32 noBlock).put 736 32 noBlock

/-- `k.ret`. -/
def performKRet (x : Entry) : M Unit := do
  let t ← openTable x 6 .bankRead true x.opX.toNat
  if t.wopen then checkDrafts t
  let u ← cutTable t 0
  let u ← if t.wopen then do
      releaseDraft t t.df0
      releaseDraft t t.df1
      t.noteWindow false
      pure u.closed
    else pure u
  (u.put 63 1 0).save

/-! ## Speculative windows (R411 to R416) -/

/-- A joined word starts when its mark in the matrix queue is reached as well (R411). -/
def needJoin (x : Entry) : M Unit := do
  let t ← getSt
  let first := fun (q : List Entry) => match q with | e :: _ => e.seq == x.seq | [] => true
  if (t.queue 2).any (fun e => e.seq == x.seq) && !(first (t.queue 2) && first (t.queue 6)) then waitM 0 0

/-- The word turns out not to be joined: its mark leaves the matrix queue. -/
def unjoin (x : Entry) : M Unit :=
  modSt fun t => t.setQueue 2 ((t.queue 2).filter fun e => e.seq != x.seq)

/-- The window of a table that a word names has CKEN = 1, as the splitter finds it (R411): as the last `k.win.open` on the table
that stands in the queue sets it, or else as the header holds it. Where the header waits at the second stage (R285) the word is
taken for a joined one until it has read it. -/
def State.windowCken (s : State) (va : Nat) : Bool :=
  let opens := (s.st.queue 6).filter fun e => match e.word with | .kWinOpen .. => e.opX.toNat == va | _ => false
  match opens.getLast? with
  | some e => bit e.opZ.toNat 0
  | none =>
    match s.translate s.here.walks (s.ctx s.st.place.slot) va .bankRead with
    | .ok x =>
      let h := s.peekNat s.st.who x.pa 128
      bit h 575 && bit h 768
    | .error (.second ..) => true
    | .error _ => false

/-- An accumulator that a joined word names lies in the strand's allocation (R411, R326). -/
def needAcc (z : Nat) : M Unit := do checkAcc (← getSt) z

/-- `k.win.open`. -/
def performKWinOpen (x : Entry) : M Unit := do
  needJoin x
  let t ← openTable x 6 .bankRead true x.opX.toNat
  let ck := x.opZ.toNat
  if t.wopen then trapTable 2 t
  if ck / 2 ^ 11 ≠ 0 then trapTable 3 t
  let cken := bit ck 0
  let ckz := bits ck 1 3
  let stz := bits ck 4 3
  let st ← getSt
  if cken then
    if st.mat.accs.length ≤ ckz then trapPage 2 ckz
    if st.mat.accs.length ≤ stz then trapPage 2 stz
    if ckz = stz then trapPage 2 ckz
  prepWrite t t.va
  let win := 2 ^ 63 + st.place.slot * 2 ^ 32 + bits x.opY.toNat 0 16
  let h := t.h % 2 ^ 512 + win * 2 ^ 512 + st.csr.rngCtr.toNat * 2 ^ 576 + t.len * 2 ^ 640 +
    bits x.extA.toNat 0 32 * 2 ^ 672 + noBlock * 2 ^ 704 + noBlock * 2 ^ 736 + ck * 2 ^ 768 +
    (if cken then 2 ^ 784 else 0)
  let t := { t with h := h }
  if cken then modSt fun u => (u.copyGroup ckz stz 0 (bits ck 7 4)).setCkv ckz 0
  t.noteWindow true
  t.save

/-- The table's window is open, has this number and belongs to the context of the current strand. -/
def needWindow (t : KTable) (w : Word) : M Unit := do
  if !t.wopen ∨ t.win ≠ bits w.toNat 0 16 ∨ t.wctx ≠ (← getSt).place.slot then trapTable 1 t

/-- `k.ckpt`. -/
def performKCkpt (x : Entry) : M Unit := do
  needJoin x
  let t ← openTable x 6 .bankRead true x.opX.toNat
  let j := bits x.opZ.toNat 0 4
  needWindow t x.opY
  if !t.cken then trapTable 3 t
  needAcc t.ckz
  needAcc t.stz
  prepWrite t t.va
  modSt fun u => (u.copyGroup t.ckz t.stz j t.stg).setCkv t.ckz j
  (t.put (784 + j) 1 1).save

/-- `k.commit` and `k.abort` (R414): keep `k` drafted positions. -/
def commitWindow (x : Entry) (nr : Bool) (k : Nat) : M Unit := do
  let t ← openTable x 6 .bankRead true x.opX.toNat
  let joined := !nr && t.cken
  if joined then needJoin x else unjoin x
  needWindow t x.opY
  if t.drafted < k then trapTable 3 t
  let slot := bit t.ckmask k && decide (k ≤ 15)
  if joined && (k != t.drafted || slot) then
    needAcc t.ckz
    needAcc t.stz
    let ckv := match (← getSt).mat.accs[t.ckz]? with | some a => a.ckv | none => 0
    if !slot || !ckv.getLsbD k then trapPage 1 (16 * t.ckz + k)
  let b0 := t.len0 / 16
  let lk := t.len0 + k
  checkDrafts t
  prepWrite t t.va
  if 0 < k then
    let old ← if t.shadow then t.entry b0 else pure noBlock
    if old ≠ noBlock then let _ ← checkBlock t.pool old (t.entryVa b0)
    prepWrite t (t.entryVa b0)
    if 16 * (b0 + 1) < lk then prepWrite t (t.entryVa (b0 + 1))
    releaseDraft t old
    t.putEntry b0 t.df0
    if 16 * (b0 + 1) < lk then t.putEntry (b0 + 1) t.df1 else releaseDraft t t.df1
  else
    releaseDraft t t.df0
    releaseDraft t t.df1
  t.noteWindow false
  (t.closed.put 0 32 lk).save
  if !nr then
    if joined && slot then modSt fun u => u.copyGroup t.stz t.ckz t.stg k
    modSt fun u => { u with csr := { u.csr with rngCtr := BitVec.ofNat 64 (t.rng0 + k * t.dpt) } }

/-- `k.commit`. -/
def performKCommit (nr : Bool) (x : Entry) : M Unit := commitWindow x nr (bits x.opZ.toNat 0 32)
/-- `k.abort`. -/
def performKAbort (nr : Bool) (x : Entry) : M Unit := commitWindow x nr 0

end Sys2Proof.Machine
end

