-- ==== Sys2Proof/Machine/Attention.lean ====
section
/-! DEFINITION. The attention engine (R379 to R396): the attention registers, snapshots, partials and their merge. -/

namespace Sys2Proof.Machine

/-! ## Registers and operand words (R380 to R383) -/

/-- Write register `i`, field by field. -/
def AttnState.put (a : AttnState) (i : Int) (v : Nat) : AttnState :=
  match i with
  | 0 => { a with ascale := BitVec.ofNat 32 v }
  | 1 => { a with dh := bits v 32 9, voff := bits v 16 16, koff := bits v 0 16 }
  | _ => { a with aqdesc := bits v 0 8 }

/-- `a.cfg`. -/
def performACfg (x : Entry) : M Unit := modSt fun t => { t with attn := t.attn.put (immValue x.word x.pfx) x.opX.toNat }

/-- Reserved bits of a control word and of a window word. -/
def controlClean (w : Nat) : Bool := w / 2 ^ 19 == 0 && !bit w 16 && bits w 5 3 == 0
def windowClean (w : Nat) : Bool := w / 2 ^ 33 == 0 && bits w 16 16 == 0

/-- Query rows, and the vector register of the queries. -/
def controlRows (w : Word) : Nat := bits w.toNat 0 5
def controlVreg (w : Word) : Nat := bits w.toNat 8 4

/-- LAND, ARR and G of a control word. -/
def controlSignals (w : Word) : Completion := ⟨0, false, bit w.toNat 18, bit w.toNat 17, bits w.toNat 12 4⟩

/-- Bytes of a query element. -/
def AttnState.queryBytes (a : AttnState) : Nat := if a.aqdesc = 0 then 4 else 2

/-- The registers and the control word keep their limits (R388 order 1). -/
def AttnState.legal (a : AttnState) (control : Word) (v : Bool) : Bool :=
  controlClean control.toNat && 1 ≤ controlRows control && controlRows control ≤ 16 &&
    (v || controlVreg control == 0) && a.dh % 16 == 0 && 16 ≤ a.dh && a.dh ≤ 256 && a.koff ≤ 4095 && a.voff ≤ 4095 &&
    (a.aqdesc == 0 || a.aqdesc == 2 || a.aqdesc == 3) && (!v || a.dh == 64)

/-! ## Triples (R385, R386) -/

/-- A partial: m, l and o. -/
structure Triple where
  m : Elem
  l : Elem
  o : List Elem
  deriving DecidableEq, Repr

/-- EMPTY. -/
def Triple.empty (dh : Nat) : Triple := ⟨0xFF800000, 0, List.replicate dh 0⟩

/-- m = −∞. -/
def Triple.isEmpty (t : Triple) : Bool := t.m == 0xFF800000

/-- `exp2_dev`, whose flags are dropped (R387). -/
def expOf (d : Elem × Flags) : Elem := (exp2Dev d.1).1

/-- Flags of a list of results. -/
def flagsOf (l : List (Elem × Flags)) : Flags := l.foldl (fun f x => f ||| x.2) 0

/-- The dot product of a query and a key (R149). Its sum starts at +0: DESIGN CHOICE, R149 does not say what the accumulator of
R144 starts from (log 31). -/
def dotRow (q k : List Fp) : Elem × Flags := addGroups ((q.length + 15) / 16) (q.zip k) (0, 0)

/-- The partial of the positions whose keys and values are given (R385). -/
def leaf (scale : Elem) (dh : Nat) (q : List Fp) (kvs : List (List Fp × List Fp)) : Triple × Flags :=
  match kvs with
  | [] => (Triple.empty dh, 0)
  | _ =>
    let ds := kvs.map fun kv => dotRow q kv.1
    let ss := ds.map fun d => mul32 0 0 d.1 scale
    let f := flagsOf ds ||| flagsOf ss
    let m := match ss with | [] => 0xFF800000 | s :: rest => rest.foldl (fun a b => max32 a b.1) s.1
    if m = 0xFF800000 then (Triple.empty dh, f)
    else
      let subs := ss.map fun s => sub32 0 0 s.1 m
      let es := subs.map fun d => fpOf (expOf d)
      let l := groupSum (es.map fun e => (e, .fin false 1 0))
      let o := genFrom dh 0 fun i => groupSum (es.zip (kvs.map fun kv => kv.2.getD i .nan))
      (⟨m, l.1, o.map Prod.fst⟩, f ||| flagsOf subs ||| l.2 ||| flagsOf o)

/-- Two products summed exactly and rounded once. -/
def blend (x a y b : Elem) : Elem × Flags :=
  let p := fpMul (fpOf x) (fpOf a)
  let q := fpMul (fpOf y) (fpOf b)
  let s := fpAdd 0 p.1 q.1
  let r := toFp32 0 0 s.1
  (r.1, r.2 ||| s.2 ||| p.2 ||| q.2)

/-- The merge of two triples (R386). -/
def Triple.merge (t u : Triple) : Triple × Flags :=
  if t.isEmpty then (u, 0)
  else if u.isEmpty then (t, 0)
  else
    let m := max32 t.m u.m
    let d1 := sub32 0 0 t.m m
    let d2 := sub32 0 0 u.m m
    let a1 := expOf d1
    let a2 := expOf d2
    let l := blend t.l a1 u.l a2
    let o := (t.o.zip u.o).map fun x => blend x.1 a1 x.2 a2
    (⟨m, l.1, o.map Prod.fst⟩, d1.2 ||| d2.2 ||| l.2 ||| flagsOf o)

/-- One level of the tree. -/
def mergeLevel : List Triple → List Triple × Flags
  | a :: b :: rest =>
    let r := a.merge b
    let l := mergeLevel rest
    (r.1 :: l.1, r.2 ||| l.2)
  | l => (l, 0)

/-- The fixed tree over leaves in ascending block index; the number bounds its levels. -/
def mergeTree (dh : Nat) : Nat → List Triple → Triple × Flags
  | _, [] => (Triple.empty dh, 0)
  | _, [t] => (t, 0)
  | 0, t :: _ => (t, 0)
  | n + 1, l =>
    let r := mergeLevel l
    let u := mergeTree dh n r.1
    (u.1, r.2 ||| u.2)

/-- The FP32 values that a row writes (R388). -/
def Triple.row (t : Triple) (part : Bool) : List Elem × Flags :=
  if part then (t.o ++ [t.m, t.l, 0, 0], 0)
  else if t.isEmpty then (t.o.map fun _ => 0, 0)
  else
    let q := t.o.map fun x => div32 x t.l
    (q.map Prod.fst, flagsOf q)

/-- Bytes of a row. -/
def tripleBytes (dh : Nat) (part : Bool) : Nat := if part then 4 * dh + 16 else 4 * dh

/-! ## Snapshots (R384) -/

/-- The block of a position in a snapshot, and the address of its entry; drafted positions are reached through the
window (R401). A NONE entry traps PAGE with kind 1 (R388 order 7, R435). -/
def snapSpot (t : KTable) (pos : Nat) : M (Nat × Nat) := do
  let j := pos / 16
  let ea := t.entryVa j
  if pos < t.len then
    let b ← t.buffered none j
    if b = noBlock then trapPage 1 ea
    return (b, ea)
  else return (if j = t.len0 / 16 then t.df0 else t.df1, ea)

/-- The visible length; a window that the word may not use traps. -/
def visibleLength (t : KTable) (window : Nat) : M Nat := do
  if bit window 32 then
    if t.wopen = false ∨ t.win ≠ bits window 0 16 ∨ t.wctx ≠ (← getSt).place.slot then trapPage 1 t.va
    return t.len + t.drafted
  else return t.len

/-- The blocks that a range meets, in ascending position; their checks are those of R402 and R242 orders 2 to 5. -/
def snapBlocks (t : KTable) (p : Pool) (p0 p1 : Nat) : M (List (Nat × Nat)) := do
  let spots ← collectM (genFrom (p1 - p0) p0 id) fun pos => do
    let r ← snapSpot t pos
    -- a block is checked once, where the range first reaches it
    if pos = p0 ∨ pos % 16 = 0 ∨ pos = t.len then
      let _ ← checkBlock t.pool r.1 r.2
      checkPoolLines p r.1 [(p.blockPa r.1, 32 * p.rowBytes)] r.2
    return (pos, r.1)
  return spots

/-- Elements of a key or value row, exact. -/
def kvRow (s : State) (p : Pool) (b pos : Nat) (value : Bool) (off dh : Nat) : List (Fp × Flags) :=
  genFrom dh off fun e =>
    let c := p.elemCode s s.st.who (p.rowPa b (pos % 16) value) e
    p.fmt.exact c.1 c.2

/-! ## a.attn and a.part (R388 to R390) -/

/-- Earlier vector words are performed (R390). -/
def vectorCaughtUp (x : Entry) : M Unit := do
  if (((← getSt).queue 1).any fun e => e.unperformed && decide (e.seq < x.seq)) then waitM 0 0

/-- A scratchpad range lies in the allocation (R388 order 3). -/
def spadRange (off n : Nat) : M Unit := do
  let t ← getSt
  if t.spadSize < off + n then trapPage 2 (max off t.spadSize)

/-- The queries of a word, row by row, exact. -/
def queryRows (x : Entry) (v : Bool) (n : Nat) : M (List (List Fp)) := do
  let t ← getSt
  let a := t.attn
  if v then
    let r : Reg := BitVec.ofNat 6 (controlVreg x.extB)
    return genFrom n 0 fun i => genFrom a.dh (64 * i) fun e => fpOf (t.velem r e)
  else
    let f := fmtOf a.aqdesc
    return genFrom n 0 fun i => genFrom a.dh 0 fun e =>
      let c := t.spad.elemCode f (x.extA.toNat + i * a.dh * a.queryBytes) e
      (f.exact c.1 c.2).1

/-- The merged triples of the query rows, with every flag. -/
def attend (a : AttnState) (p0 p1 : Nat) (causal : Bool) (qs : List (List Fp))
    (kvs : List (Nat × List Fp × List Fp)) : List (Triple × Flags) :=
  let nq := qs.length
  (qs.zip (genFrom nq 0 id)).map fun qr =>
    let stop := if causal then p1 - (nq - 1 - qr.2) else p1
    let j0 := p0 / 16
    let leaves := genFrom (if p0 < p1 then (p1 + 15) / 16 - j0 else 0) j0 fun j =>
      leaf a.ascale a.dh qr.1 ((kvs.filter fun k => k.1 / 16 == j && decide (k.1 < stop)).map Prod.snd)
    let r := mergeTree a.dh leaves.length (leaves.map Prod.fst)
    (r.1, leaves.foldl (fun f l => f ||| l.2) r.2)

/-- Write rows of output and give the word's signals (R240, R388). -/
def putRows (x : Entry) (out : Nat) (part : Bool) (c : Completion) (rows : List (Triple × Flags)) (fl : Flags) : M Unit := do
  let rs := rows.map fun r => r.1.row part
  let bs := rs.flatMap fun r => r.1.flatMap fun e => bytesOfNat 4 e.toNat
  spadPut x.opX.toNat bs
  setFlags (rs.foldl (fun f r => f ||| r.2) (rows.foldl (fun f r => f ||| r.2) fl))
  modWork fun w => { w with count := 1 }
  landed c .spad 0 out

/-- The body of `a.attn` and `a.part`. -/
def attention (part v causal : Bool) (x : Entry) : M Unit := do
  let c := controlSignals x.extB
  if (← getWork).count = 0 then
    if v then vectorCaughtUp x
    let a := (← getSt).attn
    let nq := controlRows x.extB
    let win := x.extC.toNat
    if !a.legal x.extB v || !windowClean win then trapPage 3 x.opY.toNat
    if !v && x.extA.toNat % a.queryBytes != 0 then trapM .align 0 x.extA
    if x.opX.toNat % 4 ≠ 0 then trapM .align 0 x.opX
    tableAligned x.opY.toNat
    let qlen := nq * a.dh * a.queryBytes
    let out := nq * tripleBytes a.dh part
    if !v then spadRange x.extA.toNat qlen
    spadRange x.opX.toNat out
    checkCompletion c true
    spadFree ((x.opX.toNat, x.opX.toNat + out) :: if v then [] else [(x.extA.toNat, x.extA.toNat + qlen)])
    let t ← openTable x 5 .read true x.opY.toNat
    let p ← t.poolOf
    if p.v < a.koff + a.dh ∨ p.v < a.voff + a.dh then trapTable 3 t
    let p0 := bits x.opZ.toNat 0 32
    let p1 := bits x.opZ.toNat 32 32
    let len ← visibleLength t win
    if p1 < p0 ∨ len < p1 then trapTable 1 t
    let spots ← snapBlocks t p p0 p1
    let qs ← queryRows x v nq
    let s ← get
    let kvs := spots.map fun sp => (sp.1, kvRow s p sp.2 sp.1 false a.koff a.dh, kvRow s p sp.2 sp.1 true a.voff a.dh)
    let fl := kvs.foldl (fun f k => k.2.2.foldl (fun f y => f ||| y.2) (k.2.1.foldl (fun f y => f ||| y.2) f)) 0
    let rows := attend a p0 p1 causal qs (kvs.map fun k => (k.1, k.2.1.map Prod.fst, k.2.2.map Prod.fst))
    putRows x out part c rows fl
  giveSignals c none

/-- `a.attn`. -/
def performAAttn (k v : Bool) (x : Entry) : M Unit := attention false v k x
/-- `a.part`. -/
def performAPart (k v : Bool) (x : Entry) : M Unit := attention true v k x

/-! ## a.merge, a.binv and a.pref (R391 to R393) -/

/-- A triple in scratchpad. -/
def tripleAt (t : Strand) (off dh : Nat) : Triple :=
  let w := fun (i : Nat) => BitVec.ofNat 32 (t.spad.readNat (off + 4 * i) 4)
  if w dh = 0xFF800000 then Triple.empty dh else ⟨w dh, w (dh + 1), genFrom dh 0 w⟩

/-- `a.merge`. -/
def performAMerge (norm : Bool) (x : Entry) : M Unit := do
  let c := controlSignals x.extA
  if (← getWork).count = 0 then
    let a := (← getSt).attn
    let nq := controlRows x.extA
    if !a.legal x.extA false then trapPage 3 x.opY.toNat
    eachM [x.opY, x.opZ, x.opX] fun o => do if o.toNat % 4 ≠ 0 then trapM .align 0 o
    let tb := tripleBytes a.dh true
    let out := nq * tripleBytes a.dh (!norm)
    spadRange x.opY.toNat (nq * tb)
    spadRange x.opZ.toNat (nq * tb)
    spadRange x.opX.toNat out
    checkCompletion c true
    spadFree [(x.opY.toNat, x.opY.toNat + nq * tb), (x.opZ.toNat, x.opZ.toNat + nq * tb), (x.opX.toNat, x.opX.toNat + out)]
    let t ← getSt
    let rows := genFrom nq 0 fun r =>
      (tripleAt t (x.opY.toNat + r * tb) a.dh).merge (tripleAt t (x.opZ.toNat + r * tb) a.dh)
    putRows x out (!norm) c rows 0
  giveSignals c none

/-- `a.binv`: the slices' buffers. -/
def performABinv (x : Entry) : M Unit :=
  modify fun s => { s with btbs := s.btbs.filter fun b => !(b.tile.isNone && b.isOf s.st.place x.opY.toNat) }

/-- `a.pref`: nothing that software sees. -/
def performAPref (_ : Entry) : M Unit := pure ()

end Sys2Proof.Machine
end

