-- ==== Sys2Proof/Machine/Bank.lean ====
section
/-! DEFINITION. The bank engine (R295 to R319): atomics, reductions and element-wise updates at memory, memory-value waits,
and the versioned words over registered regions. -/

namespace Sys2Proof.Machine

/-! ## At the home bank (R295, R303) -/

/-- Translate a unit of a non-versioned bank word and check its line (R303, R242). In the host window a word that is no
PCI Express AtomicOp traps (R300), and so does one that is sure to write in a weight region (R356). Whether a `b.cas` writes shows
only when its line has been read: its check of weight regions comes then, DEDUCED (log 63). -/
def bankMap (va : Nat) (host writes : Bool) : M Mapped := do
  let l ← sealedAs (va / 64 * 64) (locate 4 (← getSt).place.slot va .bankRead)
  if (hostBase ≤ l.m.pa ∧ host = false) ∨ (writes = true ∧ (← get).weightFrame l.m.pa = true) then trapPage 2 va
  l.sealed (va / 64 * 64)
  checkLine l.m.pa (va / 64 * 64)
  l.use
  return l.m

/-- A bank word that writes translates as a write: D, the dirty bitmap and weight regions (R278, R293, R356). -/
def bankWriteNat (va n x : Nat) : M Unit := do
  let m ← mapAt 4 (← getSt).place.slot va (va / 64 * 64) .bank
  memPut m.pa (bytesOfNat n x)

/-- `n` scratchpad bytes at an offset lie in the allocation. -/
def spadRoom (off n : Nat) : M Unit := do
  let t ← getSt
  if t.spadSize < off + n then trapPage 2 (max off t.spadSize)

/-- Raise ALIGN unless a value is a multiple of `n`. -/
def alignTo (x : Word) (n : Nat) : M Unit := do
  if x.toNat % n ≠ 0 then trapM .align 0 x

/-- Unit `k` of a word is performed, and its `n` bytes land in the scratchpad (R240, R298). -/
def bankLanded (c : Completion) (k n : Nat) : M Unit := landed c .spad k n

/-! ## Atomics (R299) -/

/-- An atomic: `f` gives the new value, or none where nothing is written, as `writes` does not allow. -/
def atomic (x : Entry) (ret dbl : Bool) (off comp : Word) (host writes : Bool) (f : Nat → Nat → Nat → Option Nat) : M Unit := do
  let w := if dbl then 8 else 4
  let n := 8 * w
  let c := completionOf comp
  let ea := x.opX.toNat
  let o := off.toNat
  checkCompletion c ret
  runUnits 1 (fun _ => pure []) fun k => do
    alignTo x.opX w
    if ret then
      alignTo off w
      spadFree [(o, o + w)]
    let (m, _) ← bothSides (bankMap ea host writes) (if ret then spadRoom o w else pure ())
    let old ← homeNat m.pa w
    match f n old (x.opY.toNat % 2 ^ n) with
    | some new => bankWriteNat ea w new
    | none => pure ()
    if ret then
      spadPut o (bytesOfNat w old)
      bankLanded c k w
  markStarted
  giveSignals c none

/-- A read-modify-write of R299 whose return offset is Z. -/
def atomicZ (x : Entry) (ret dbl : Bool) (host : Bool) (f : Nat → Nat → Nat → Nat) : M Unit :=
  atomic x ret dbl x.opZ x.extA host true fun n old b => some (f n old b % 2 ^ n)

/-- `b.add`. -/
def performBAdd (r w : Bool) (x : Entry) : M Unit := atomicZ x r w true fun _ old b => old + b
/-- `b.min`. -/
def performBMin (r w : Bool) (x : Entry) : M Unit :=
  atomicZ x r w false fun n old b => if sextNat b n < sextNat old n then b else old
/-- `b.max`. -/
def performBMax (r w : Bool) (x : Entry) : M Unit :=
  atomicZ x r w false fun n old b => if sextNat old n < sextNat b n then b else old
/-- `b.minu`. -/
def performBMinu (r w : Bool) (x : Entry) : M Unit := atomicZ x r w false fun _ old b => if b < old then b else old
/-- `b.maxu`. -/
def performBMaxu (r w : Bool) (x : Entry) : M Unit := atomicZ x r w false fun _ old b => if old < b then b else old
/-- `b.and`. -/
def performBAnd (r w : Bool) (x : Entry) : M Unit := atomicZ x r w false fun _ old b => old &&& b
/-- `b.or`. -/
def performBOr (r w : Bool) (x : Entry) : M Unit := atomicZ x r w false fun _ old b => old ||| b
/-- `b.xor`. -/
def performBXor (r w : Bool) (x : Entry) : M Unit := atomicZ x r w false fun _ old b => old ^^^ b
/-- `b.swap`. -/
def performBSwap (r w : Bool) (x : Entry) : M Unit := atomicZ x r w true fun _ _ b => b
/-- `b.cas`: no write when the comparison fails; its return offset is an extended operand. -/
def performBCas (r w : Bool) (x : Entry) : M Unit :=
  atomic x r w x.extA x.extB true false fun n old b => if old = b then some (x.opZ.toNat % 2 ^ n) else none

/-! ## Floating-point reductions and updates (R301) -/

/-- Update `n` elements at X by `f`, which is given the memory element and the scratchpad element. -/
def reduceUnits (x : Entry) (bf : Bool) (src : Option Word) (comp : Word) (f : Fp → Fp → Fp × Flags) : M Unit := do
  let fm := fmtOf (if bf then 2 else 0)
  let e := fm.bytes
  let c := completionOf comp
  let n := gatherCount x.opZ
  checkCompletion c false
  if !(← getWork).started then
    alignTo x.opX e
    match src with | some y => alignTo y e | none => pure ()
  markStarted
  runUnits n (fun _ => pure []) fun j => do
    let ea := wrapAddr (x.opX.toNat + j * e : Nat)
    let so := match src with | some y => wrapAddr (y.toNat + j * e : Nat) | none => 0
    if src.isSome then spadFree [(so, so + e)]
    let (m, s) ← bothSides (bankMap ea false true) (if src.isSome then spadBytes so e else pure [])
    let old ← homeNat m.pa e
    let r := f (fm.value old) (fm.value (natOfBytes s))
    let z := fm.encode 0 0 r.1
    bankWriteNat ea e z.1
    setFlags (r.2 ||| z.2)
  giveSignals c none

/-- `b.fadd`. -/
def performBFadd (x : Entry) : M Unit := reduceUnits x false (some x.opY) x.extA fun m s => fpAdd 0 m s
/-- `b.fadb`. -/
def performBFadb (x : Entry) : M Unit := reduceUnits x true (some x.opY) x.extA fun m s => fpAdd 0 m s
/-- `b.scal`. -/
def performBScal (t : Bool) (x : Entry) : M Unit :=
  reduceUnits x t none x.extA fun m _ => fpMul (fpOf (lowElem x.opY)) m
/-- `b.axpy`. -/
def performBAxpy (t : Bool) (x : Entry) : M Unit :=
  reduceUnits x t (some x.opY) x.extB fun m s =>
    let p := fpMul (fpOf (lowElem x.extA)) s
    let r := fpAdd 0 p.1 m
    (r.1, r.2 ||| p.2)

/-! ## Memory-value wait (R302) -/

/-- The wait of an entry at its home, if it stands there. -/
def State.bankWait (s : State) (x : Entry) : Option BankWait :=
  s.bankWaits.find? fun b => b.gang == s.st.place.gang && b.member == s.st.place.member && b.seq == x.seq

/-- `b.wait`: the word arrives at the home once, which reads the location then and after every write to it. -/
def performBWait (z : Reg) (k : BitVec 2) (dbl : Bool) (x : Entry) : M Unit := do
  let w := if dbl then 8 else 4
  let c := completionOf x.extA
  checkCompletion c false
  runUnits 1 (fun _ => pure []) fun _ => do
    alignTo x.opX w
    let s ← get
    let b ← match s.bankWait x with
      | some b => pure b
      | none =>
        let m ← bankMap x.opX.toNat false false
        let p := s.st.place
        let b : BankWait :=
          { gang := p.gang, member := p.member, seq := x.seq, va := x.opX.toNat, slot := p.slot, fn := m.fn, pa := m.pa, w := w
            cond := k.toNat, y := x.opY.toNat % 2 ^ (8 * w)
            mask := if z = 0 then 2 ^ (8 * w) - 1 else x.opZ.toNat % 2 ^ (8 * w), hit := false }
        let v ← homeNat m.pa w
        let b := { b with hit := b.holds v }
        modify fun s => { s with bankWaits := s.bankWaits ++ [b] }
        pure b
    if !b.hit then waitM 5 0
    modify fun s => { s with bankWaits := s.bankWaits.filter (· != b) }
  markStarted
  giveSignals c none

/-- Withdraw what a strand has waiting at the banks and at the Fuller (R304, R418, R441): a wait that is satisfied waits no more,
and its word completes. -/
def State.withdraw (s : State) (gang member : Nat) : State :=
  { s with
    bankWaits := s.bankWaits.filter fun b => b.hit || !(b.gang == gang && b.member == member)
    versWaits := s.versWaits.filter fun b => b.answer.isSome || !(b.gang == gang && b.member == member)
    fullerWaits := s.fullerWaits.filter fun b => !(b.gang == gang && b.member == member) }

/-! ## Version lists (R312) -/

/-- An address lies in the region. -/
def VRegion.covers (r : VRegion) (va : Nat) : Bool := decide (r.base ≤ va ∧ va < r.base + r.pages * 65536)

/-- The registered region of a context that holds an address. -/
def State.regionOf (s : State) (ctx va : Nat) : Option VRegion := s.regions.find? fun r => r.ctx == ctx && r.covers va

/-- Replace a region. -/
def State.setRegion (s : State) (r : VRegion) : State :=
  { s with regions := s.regions.map fun q => if q.ctx = r.ctx ∧ q.base = r.base then r else q }

/-- The base number of a granule. -/
def VRegion.baseOf (r : VRegion) (g : Nat) : Nat := assoc r.bases g r.base0

/-- The Live versions of a granule, in the order of their creation, which is ascending. -/
def VRegion.live (r : VRegion) (g : Nat) : List Version := r.vers.filter fun v => v.gran == g

/-- The newest number of a granule. -/
def VRegion.newest (r : VRegion) (g : Nat) : Nat := (r.live g).foldl (fun n v => max n v.num) (r.baseOf g)

/-- The count of a region (R315). -/
def VRegion.count (r : VRegion) : Nat := r.vers.length

/-- The bytes after DATA of a slot that holds a version (R306). -/
def slotTail (num gran : Nat) (use : Bool) : List Byte := bytesOfNat 4 num ++ bytesOfNat 4 gran ++ bytesOfNat 8 use.toNat

/-- The data of a version: in the pool, or in its slot (R307). -/
def State.versionData (s : State) (r : VRegion) (v : Version) : BitVec 512 :=
  match v.slot with
  | none => v.data
  | some i => BitVec.ofNat 512 (s.mem.readNat (r.slotPa i) 64)

/-- Write bytes into a frame of a region, with the dirty bitmap of a two-stage context (R293). -/
def State.regionWrite (s : State) (r : VRegion) (fs : List VFrame) (off : Nat) (bs : List Byte) : State :=
  match fs[off / 65536]? with
  | none => s
  | some f =>
    let s := match f.ipa with | some g => s.markDirty r.fn (g * 65536) | none => s
    s.engineWrite (f.frame * 65536 + off % 65536) bs

/-- The 128 bytes of a slot that holds a version, or of one that holds none (R10, R306): but for DATA, VER and GRAN, which stand
where USE is 0. -/
def State.writeSlot (s : State) (r : VRegion) (i : Nat) (v : Option Version) : State :=
  let off := r.tableBytes + 128 * i
  match v with
  | some v => s.regionWrite r r.ovfFrames off (bytesOfNat 64 v.data.toNat ++ slotTail v.num v.gran true ++ List.replicate 48 0)
  | none => s.regionWrite r r.ovfFrames (off + 72) (List.replicate 56 0)

/-- Granules of a region whose pages are to be written: a write traps in a weight region as every write does (R356). -/
def guardGranules (r : VRegion) (gs : List Nat) : M Unit := do
  let s ← get
  match gs.find? fun g => s.weightFrame (r.granPa g) with
  | some g => trapPage 2 ((r.base + 64 * g) % 2 ^ 64)
  | none => pure ()

/-- Write a granule's page bytes, by the translation that the region holds (R278, R311). -/
def State.writeGranule (s : State) (r : VRegion) (g : Nat) (d : BitVec 512) : State :=
  (s.noteHeld r.ctx ((r.base + 64 * g) % 2 ^ 64) (r.granPa g)).regionWrite r r.frames (g * 64) (bytesOfNat 64 d.toNat)

/-- The frame of page `i` of a region's overflow area, translated again where its translation has been dropped (R281, R284); none
where the area is no more mapped as R306 asks. -/
def State.ovfFrame (s : State) (r : VRegion) (i : Nat) : Option VFrame :=
  match r.ovfFrames[i]? with
  | none => none
  | some f =>
    if f.fresh then some f
    else
      match s.translate [] (s.ctx r.ctx) ((r.ovf + 65536 * i) % 2 ^ 64) .bankRead with
      | .ok x =>
        if x.agrees && decide (x.pa < hostBase) && (s.sealAt x.pa).1 == 0 then
          some ⟨x.pa / 65536, if x.two then some (x.ipa / 65536) else none, true⟩
        else none
      | .error _ => none

/-- Move a version between the pool and a slot (R307): the device's own choice, which decides no result. It moves none to a slot that
cannot be written. -/
def State.moveVersion (s : State) (ctx base gran num slot : Nat) : State :=
  match s.regions.find? fun r => r.ctx == ctx && r.base == base with
  | none => s
  | some r =>
    match r.vers.find? fun v => v.gran == gran && v.num == num with
    | none => s
    | some v =>
      let d := s.versionData r v
      let put := fun (w : Version) => { r with vers := r.vers.map fun u => if u = v then w else u }
      match v.slot with
      | some i => (s.setRegion (put { v with data := d, slot := none })).writeSlot r i none
      | none =>
        let page := (r.tableBytes + 128 * slot) / 65536
        match s.ovfFrame r page with
        | none => s
        | some f =>
          let r' := { r with ovfFrames := r.ovfFrames.set page f }
          if slot < r.quota ∧ !(r.vers.any fun u => u.slot == some slot) ∧ !s.weightFrame (r'.slotPa slot) then
            let s := s.noteHeld r.ctx ((r.ovf + 65536 * page) % 2 ^ 64) (f.frame * 65536)
            (s.writeSlot r' slot (some { v with data := d })).setRegion
              { put { v with slot := some slot } with ovfFrames := r'.ovfFrames }
          else s

/-! ## Finding a granule (R309, R311) -/

/-- The region that holds an address of the current strand's context, and the granule, by the frame that is mapped now. In the
host window a versioned word traps as every other bank word does (R300). -/
def findGranule (va : Nat) (acc : AccessKind) : M (VRegion × Nat) := do
  let slot := (← getSt).place.slot
  let ga := va / 64 * 64
  let m ← mapAt 4 slot va ga acc
  if hostBase ≤ m.pa then trapPage 2 va
  let s ← get
  match s.regionOf slot va with
  | none => trapPage 1 va
  | some r =>
    match r.frames.findIdx? fun f => f.frame == m.pa / 65536 with
    | none => trapPage 1 va
    | some i =>
      let g := i * 1024 + m.pa % 65536 / 64
      if s.spoiled.contains (r.ctx, r.base, g) then trapM .poison 0 (BitVec.ofNat 64 ga)
      return (r, g)

/-- The region that holds an address, for the words that name a region. -/
def findRegion (va : Nat) : M VRegion := do
  let s ← get
  match s.regionOf s.st.place.slot va with
  | none => trapPage 1 va
  | some r => return r

/-! ## b.vst (R313) -/

/-- Number of granules of a versioned store or load. -/
def granCount (w : Word) : Nat := bits w.toNat 0 10 + 1

/-- The time-out of a parked unit is reached (R314, R317). -/
def VWait.late (w : VWait) (clock : Nat) : Bool := w.timeout != 0 && decide (w.since + w.timeout ≤ clock)

/-- Answer the units parked on a version that is created (R314): those whose time-out came first with a miss. -/
def State.serveVersion (s : State) (r : VRegion) (g num : Nat) (d : BitVec 512) : State :=
  { s with versWaits := s.versWaits.map fun w =>
    if w.ctx = r.ctx ∧ w.base = r.base ∧ w.gran = g ∧ w.num = num ∧ w.answer.isNone then
      { w with answer := some (if w.late s.clock then .miss 1 else .data d num) }
    else w }

/-- `b.vst`: one version of each granule, each unit checked and performed at its home. -/
def performBVst (x : Entry) : M Unit := do
  let c := completionOf x.extB
  let v := bits x.opZ.toNat 0 32
  checkCompletion c false
  if !(← getWork).started then
    alignTo x.opX 64
    alignTo x.opY 64
  markStarted
  runUnits (granCount x.extA) (fun _ => pure []) fun j => do
    let ga := wrapAddr (x.opX.toNat + 64 * j : Nat)
    let o := wrapAddr (x.opY.toNat + 64 * j : Nat)
    spadFree [(o, o + 64)]
    let (rg, bs) ← bothSides (findGranule ga .vcheck) (spadBytes o 64)
    let (r, g) := rg
    let tv : Word := BitVec.ofNat 64 ga
    if v ≤ r.newest g ∨ v < r.floor then trapM .vord 0 tv
    if r.count = r.quota then trapM .vcap 0 tv
    let _ ← findGranule ga .vstore
    let d := BitVec.ofNat 512 (natOfBytes bs)
    modify fun s => (s.setRegion { r with vers := r.vers ++ [⟨g, v, d, none⟩] }).serveVersion r g v d
  giveSignals c none

/-! ## b.vld and b.vld.le (R314) -/

/-- What a home bank answers to a load of version `v`: data, a kind of VMISS, or none where the unit parks. -/
def State.lookVersion (s : State) (r : VRegion) (g v : Nat) (le : Bool) : Option VAnswer :=
  let base := r.baseOf g
  let baseData := VAnswer.data (BitVec.ofNat 512 (s.mem.readNat (r.granPa g) 64)) base
  let give := fun (u : Version) => VAnswer.data (s.versionData r u) u.num
  if v < base then some (.miss 2)
  else if le then
    match (r.live g).filter (fun u => u.num ≤ v) with
    | [] => some baseData
    | u :: rest => some (give (rest.foldl (fun a b => if a.num < b.num then b else a) u))
  else if v < r.floor then some (.miss 2)
  else if v = base then some baseData
  else
    match (r.live g).find? fun u => u.num == v with
    | some u => some (give u)
    | none => if v < r.newest g then some (.miss 3) else none

/-- Units whose time-out is reached are answered (R314, R317). -/
def State.expireVersions (s : State) : State :=
  { s with versWaits := s.versWaits.map fun w =>
    if w.answer.isNone ∧ w.late s.clock = true then { w with answer := some (.miss 1) } else w }

/-- A unit that is parked ends with a miss: of kind 1 where its time-out came first, otherwise of kind 2 (R314). -/
def VWait.passed (w : VWait) (clock : Nat) : VWait := { w with answer := some (.miss (if w.late clock then 1 else 2)) }

/-- One unit of a versioned load. It locks what the word writes, `ranges`, when the word begins to write (R80). -/
def loadVersion (x : Entry) (le tag : Bool) (c : Completion) (timeout : Nat) (ranges : List (Nat × Nat)) (j : Nat) : M Unit := do
  let v := bits x.opZ.toNat 0 32
  let ga := wrapAddr (x.opY.toNat + 64 * j : Nat)
  let len := if tag then 72 else 64
  let o := wrapAddr (x.opX.toNat + (if tag then 128 else 64) * j : Nat)
  modify State.expireVersions
  let s ← get
  let p := s.st.place
  let mine := fun (w : VWait) => w.gang == p.gang && w.member == p.member && w.seq == x.seq && w.unit == j
  let answer ← match s.versWaits.find? mine with
    | some w => pure w.answer
    | none =>
      let (rg, _) ← bothSides (findGranule ga .vload) (spadRoom o len)
      let (r, g) := rg
      let s ← get
      match s.lookVersion r g v le with
      | some (.data d n) =>
        if n = r.baseOf g then checkLine (r.granPa g) ga
        pure (some (.data d n))
      | some a => pure (some a)
      | none =>
        modify fun s => { s with versWaits := s.versWaits ++
          [⟨p.gang, p.member, x.seq, j, r.ctx, r.base, g, v, s.clock, 256 * timeout, none⟩] }
        pure none
  match answer with
  | none => waitM 6 0
  | some a =>
    match a with
    | .miss _ => pure ()
    | .data _ _ => if (← getWork).locks.isEmpty then spadLock ranges
    modify fun s => { s with versWaits := s.versWaits.filter fun w => !mine w }
    match a with
    | .miss k => trapM .vmiss k (BitVec.ofNat 64 ga)
    | .data d n =>
      spadPut o (bytesOfNat 64 d.toNat ++ (if tag then bytesOfNat 8 n else []))
      bankLanded c j len

/-- A versioned load of one or more granules. -/
def versionLoads (x : Entry) (le tag : Bool) : M Unit := do
  let c := completionOf x.extB
  checkCompletion c true
  if !(← getWork).started then
    alignTo x.opX 64
    alignTo x.opY 64
  let o := x.opX.toNat
  markStarted
  let timeout := (← getWork).vals.headD 0
  runParked (granCount x.extA) (loadVersion x le tag c timeout
    (genFrom (granCount x.extA) 0 fun j => (o + (if tag then 128 else 64) * j, o + (if tag then 128 else 64) * j + if tag then 72 else 64)))
  giveSignals c none

/-- `b.vld`. -/
def performBVld (t : Bool) (x : Entry) : M Unit := versionLoads x false t
/-- `b.vld.le`. -/
def performBVldLe (t : Bool) (x : Entry) : M Unit := versionLoads x true t

/-! ## b.vretire, b.vnew and b.vfloor (R316) -/

/-- Raise the floor in one granule: the newest created version below it becomes the base, and the page takes its data. -/
def State.retireGranule (s : State) (ctx base f g : Nat) : State :=
  match s.regions.find? fun r => r.ctx == ctx && r.base == base with
  | none => s
  | some r =>
    match (r.live g).filter (fun u => decide (u.num < f)) with
    | [] => s
    | u :: rest =>
      let b := rest.foldl (fun a b => if a.num < b.num then b else a) u
      let d := s.versionData r b
      (s.writeGranule r g d).setRegion
        { r with bases := assocPut r.bases g b.num, vers := r.vers.filter fun w => !(w.gran == g && decide (w.num < f)) }

/-- Raise a region's floor. Parked units that it passes trap VMISS with kind 2 (R314). -/
def State.raiseFloor (s : State) (r : VRegion) (f : Nat) : State :=
  let s := s.setRegion { r with floor := f }
  let s := ((r.vers.map Version.gran).eraseDups).foldl (fun s g => s.retireGranule r.ctx r.base f g) s
  { s with versWaits := s.versWaits.map fun w =>
    if w.ctx = r.ctx ∧ w.base = r.base ∧ w.num < f ∧ w.answer.isNone then w.passed s.clock else w }

/-- `b.vretire`, which is checked as a versioned store word, with W = 1 and WRO = 0: DEDUCED, R273 does not say which words its
'versioned store and floor words' are (log 64). -/
def performBVretire (x : Entry) : M Unit := do
  let f := bits x.opY.toNat 0 32
  let (r, _) ← findGranule x.opX.toNat .vcheck
  if r.floor < f then
    guardGranules r ((r.vers.filter fun u => decide (u.num < f)).map Version.gran)
    modify fun s => s.raiseFloor r f

/-- Write a number of 8 bytes in the scratchpad. -/
def bankReturn (o : Word) (n : Nat) : M Unit := do
  spadFree [(o.toNat, o.toNat + 8)]
  spadPut o.toNat (bytesOfNat 8 n)

/-- `b.vnew`, which is checked as a versioned load word, with R = 1: DEDUCED, it writes nothing to the region, and R273 does not name
its class (log 64). -/
def performBVnew (x : Entry) : M Unit := do
  alignTo x.opX 8
  let (rg, _) ← bothSides (findGranule x.opY.toNat .vload) (spadRoom x.opX.toNat 8)
  bankReturn x.opX (rg.1.newest rg.2)

/-- `b.vfloor`, which is checked as a versioned load word, with R = 1: DEDUCED, it reads the floor and writes nothing to the region;
the 'floor words' of R273 are taken to be those that raise a floor (log 64). -/
def performBVfloor (x : Entry) : M Unit := do
  alignTo x.opX 8
  let (rg, _) ← bothSides (findGranule x.opY.toNat .vload) (spadRoom x.opX.toNat 8)
  bankReturn x.opX rg.1.floor

/-! ## b.vreg (R308) -/

/-- The region record in its 64 bytes (R305). -/
structure RegionRec where
  filled : Bool
  pages : Nat
  ovf : Nat
  used : Nat
  quota : Nat
  floor : Nat
  deriving DecidableEq, Repr

/-- The fields of a record. -/
def regionRecOf (x : Nat) : RegionRec :=
  ⟨bit x 32, bits x 0 32, bits x 64 64, bits x 160 32, bits x 128 32, bits x 192 32⟩

/-- A page of a region or overflow area: it permits what it must, and is not sealed (R308 step 4). Nothing is marked yet, and an
update of A or D that must wait has waited. -/
def checkPage (va : Nat) (acc : AccessKind) : M Located := do
  let l ← locate 4 (← getSt).place.slot va acc
  if hostBase ≤ l.m.pa then trapPage 2 va
  l.sealed va
  if ((← get).sealAt l.m.pa).1 ≠ 0 then trapM .sealing 0 (BitVec.ofNat 64 va)
  l.ready
  return l

/-- The frame of a checked page. -/
def Located.vframe (l : Located) : VFrame := ⟨l.m.pa / 65536, if l.m.two then some (l.m.ipa / 65536) else none, true⟩

/-- A page that a region registers. -/
def registerPage (va : Nat) (acc : AccessKind) : M VFrame := do
  let l ← checkPage va acc
  l.use
  return l.vframe

/-- A word of the overflow area. -/
def ovfNat (r : VRegion) (off n : Nat) : M Nat := do
  let pa := r.ovfPa off
  checkLine pa ((r.ovf + off) / 64 * 64 % 2 ^ 64)
  return (← get).mem.readNat pa n

/-- Read the slots of a spilled region, in order (R308 step 5, R310); the first slot at fault traps PAGE with kind 3. -/
def readSlots (r : VRegion) (used : Nat) : Nat → Nat → M VRegion
  | 0, _ => pure r
  | n + 1, i => do
    let off := r.tableBytes + 128 * i
    let bad : M VRegion := trapPage 3 ((r.ovf + off) % 2 ^ 64)
    let use ← ovfNat r (off + 72) 8
    if used ≤ i then
      if use % 2 = 1 then bad else readSlots r used n (i + 1)
    else
      let d ← ovfNat r off 64
      let num ← ovfNat r (off + 64) 4
      let gran ← ovfNat r (off + 68) 4
      let after := match r.vers.getLast? with
        | none => true
        | some v => v.gran < gran || (v.gran == gran && v.num < num)
      if use % 2 = 0 ∨ r.pages * 1024 ≤ gran ∨ !after ∨ num ≤ r.baseOf gran ∨ num < r.floor then bad
      else readSlots { r with vers := r.vers ++ [⟨gran, num, BitVec.ofNat 512 d, none⟩] } used n (i + 1)

/-- Register a region from the record (R308). Where no slot is at fault, step 5 reports the slot that a failure touches: slot 0 for an
entry of the base table above FLOOR, and the first slot beyond the area, of number QUOTA, for USED > QUOTA: DESIGN CHOICE, R308 asks
for 'the first slot at fault' (log 65). -/
def registerRegion (x : Entry) : M Unit := do
  let s ← get
  let p := s.st.place
  let va := x.opX.toNat
  alignTo x.opX 65536
  alignTo x.opY 64
  let m ← mapEngine 4 p.slot x.opY.toNat .read
  if hostBase ≤ m.pa then trapPage 2 x.opY.toNat
  let rc := regionRecOf (← homeNat m.pa 64)
  let mine := s.regions.filter fun r => r.ctx == p.slot
  let overlaps := mine.any fun r => decide (va < r.base + r.pages * 65536 ∧ r.base < va + rc.pages * 65536)
  if rc.pages = 0 ∨ 65536 < rc.pages ∨ overlaps = true ∨ rc.ovf % 65536 ≠ 0 then trapPage 2 va
  if 32 ≤ mine.length ∨ 1024 ≤ (s.regions.filter fun r => r.part == p.part).length then trapM .vcap 0 x.opX
  let frames ← collectM (genFrom rc.pages 0 id) fun i => registerPage ((va + 65536 * i) % 2 ^ 64) .vcheck
  let table := 65536 * ((rc.pages + 15) / 16)
  let area := (table + 128 * rc.quota + 65535) / 65536
  let ovfFrames ← collectM (genFrom area 0 id) fun i => registerPage ((rc.ovf + 65536 * i) % 2 ^ 64) .bankRead
  let r0 : VRegion :=
    { ctx := p.slot, fn := p.fn, part := p.part, recVa := x.opY.toNat, base := va, pages := rc.pages, ovf := rc.ovf
      quota := rc.quota, floor := rc.floor, base0 := rc.floor, bases := [], vers := [], frames := frames
      ovfFrames := ovfFrames }
  let r ←
    if rc.filled then do
      let bases ← collectM (genFrom (rc.pages * 1024) 0 id) fun g => do
        let b ← ovfNat r0 (4 * g) 4
        if rc.floor < b then trapPage 3 ((rc.ovf + table) % 2 ^ 64)
        return (g, b)
      if rc.quota < rc.used then trapPage 3 ((rc.ovf + table + 128 * rc.quota) % 2 ^ 64)
      readSlots { r0 with bases := bases } rc.used rc.quota 0
    else do
      let tables ← collectM (genFrom (table / 65536) 0 id) fun i => checkPage ((rc.ovf + 65536 * i) % 2 ^ 64) .bank
      eachM tables Located.use
      eachM (genFrom (rc.pages * 64) 0 id) fun l => modify fun s =>
        s.regionWrite r0 r0.ovfFrames (64 * l) (genFrom 16 0 fun _ => bytesOfNat 4 rc.floor).flatten
      pure r0
  modify fun s => { s with regions := s.regions ++ [r] }

/-- Release a region; what is parked on it traps VMISS with kind 2 (R309). -/
def State.releaseRegion (s : State) (r : VRegion) : State :=
  { s with
    regions := s.regions.filter fun q => !(q.ctx == r.ctx && q.base == r.base)
    spoiled := s.spoiled.filter fun y => !(y.1 == r.ctx && y.2.1 == r.base)
    versWaits := s.versWaits.map fun w =>
      if w.ctx = r.ctx ∧ w.base = r.base ∧ w.answer.isNone then w.passed s.clock else w }

/-- Free a region: the page bytes of each granule take its newest version's data (R309). -/
def State.freeRegion (s : State) (r : VRegion) : State :=
  ((r.vers.map Version.gran).eraseDups).foldl (fun s g =>
    match r.live g with
    | [] => s
    | u :: rest => s.writeGranule r g (s.versionData r (rest.foldl (fun a b => if a.num < b.num then b else a) u)))
    (s.releaseRegion r)

/-- Versions in ascending granule and number. -/
def insertVersion (v : Version) : List Version → List Version
  | [] => [v]
  | u :: rest => if u.gran < v.gran ∨ (u.gran = v.gran ∧ u.num ≤ v.num) then u :: insertVersion v rest else v :: u :: rest

/-- Write a region to its overflow area, in the frames `fs`, and release it (R310); the record is written by the caller. -/
def State.spillRegion (s : State) (r : VRegion) (fs : List VFrame) : State :=
  let sorted := (r.vers.map fun v => { v with data := s.versionData r v, slot := none }).foldr insertVersion []
  let s := s.releaseRegion r
  let r := { r with ovfFrames := fs }
  let s := (genFrom (r.pages * 1024) 0 id).foldl (fun s g =>
    s.regionWrite r r.ovfFrames (4 * g) (bytesOfNat 4 (r.baseOf g))) s
  let s := (sorted.zip (genFrom sorted.length 0 id)).foldl (fun s v => s.writeSlot r v.2 (some v.1)) s
  (genFrom (r.quota - sorted.length) sorted.length id).foldl (fun s i => s.writeSlot r i none) s

/-- A record may be written in the current strand's context: in the host window a bank word traps (R300), and a failed seal check
reports the record's line, `va` (R242). -/
def recordReady (va : Nat) : M Located := do
  let l ← sealedAs va (locate 4 (← getSt).place.slot va .write)
  if hostBase ≤ l.m.pa then trapPage 2 va
  l.sealed va
  l.ready
  return l

/-- Write bytes of a record, by offset. -/
def recordPut (l : Located) (ps : List (Nat × List Byte)) : M Unit := do
  l.use
  eachM ps fun p => memPut (l.m.pa + p.1) p.2

/-- `b.vreg`. -/
def performBVreg (x : Entry) : M Unit := registerRegion x

/-- `b.vreg.free`. -/
def performBVregFree (x : Entry) : M Unit := do
  let r ← findRegion x.opX.toNat
  guardGranules r (r.vers.map Version.gran)
  modify fun s => s.freeRegion r

/-- `b.vreg.rd`: FLOOR and USED are written into the record, and nothing else (R309). A record that is not 64-byte aligned traps
ALIGN, here and for `.spill`, before sX is looked up: DEDUCED from R305 and the order of R242, R308 names the check for registering
alone (log 80). -/
def performBVregRd (x : Entry) : M Unit := do
  alignTo x.opY 64
  let r ← findRegion x.opX.toNat
  let l ← recordReady x.opY.toNat
  recordPut l [(20, bytesOfNat 4 r.count ++ bytesOfNat 4 r.floor)]

/-- What a spill writes into the region's record, by offset: FILLED, USED and FLOOR, with its reserved fields zero (R10, R310). -/
def VRegion.spillRecord (r : VRegion) : List (Nat × List Byte) :=
  [(4, bytesOfNat 4 1), (20, bytesOfNat 4 r.count ++ bytesOfNat 4 r.floor ++ List.replicate 36 0)]

/-- `b.vreg.spill`. -/
def performBVregSpill (x : Entry) : M Unit := do
  alignTo x.opY 64
  let r ← findRegion x.opX.toNat
  let l ← recordReady x.opY.toNat
  let pages ← collectM (genFrom r.ovfFrames.length 0 id) fun i => checkPage ((r.ovf + 65536 * i) % 2 ^ 64) .bank
  eachM pages Located.use
  recordPut l r.spillRecord
  modify fun s => s.spillRegion r (pages.map Located.vframe)

end Sys2Proof.Machine
end

