-- ==== Sys2Proof/Machine/Fuller.lean ====
section
/-! DEFINITION. The Fuller (R422 to R441): its words, and its scrubs of page frames and pool blocks. -/

namespace Sys2Proof.Machine

/-! ## k.falloc, k.ffree and k.fref (R436 to R438) -/

/-- Entries of a table from `i0`, `n` of them, with the blocks checked under R402: entry, block number, references. -/
def readEntries (t : KTable) (i0 n : Nat) : M (List (Nat × Nat × Nat)) :=
  collectM (genFrom n i0 id) fun i => do
    let b ← t.entry i
    if b = noBlock then return (i, b, 0)
    let x ← checkBlock t.pool b (t.entryVa i)
    return (i, b, x.ref)

/-- What `k.falloc` does to entries in order: those that take a block, with the block that each gives up. A block that
two entries name loses a reference when the first of them takes another. -/
def fallocPlan : List (Nat × Nat × Nat) → List Nat → List (Nat × Nat)
  | [], _ => []
  | (i, b, ref) :: rest, gone =>
    if b = noBlock then (i, b) :: fallocPlan rest gone
    else if 1 < ref - (gone.filter (· == b)).length then (i, b) :: fallocPlan rest (b :: gone)
    else fallocPlan rest gone

/-- `k.falloc`; `nc` leaves a block that replaces a shared one zero. -/
def performKFalloc (nc : Bool) (x : Entry) : M Unit := do
  let t ← openTable x 6 .bankRead true x.opX.toNat
  let n := bits x.opZ.toNat 0 16
  let first := bits x.opY.toNat 0 32
  if n = 0 ∨ blocksOf t.len < first + n then trapTable 3 t
  if t.wopen = true ∧ t.len / 16 < first + n then trapTable 2 t
  let plan := fallocPlan (← readEntries t first n) []
  let p ← t.poolOf
  eachM plan fun e => do
    if e.2 ≠ noBlock ∧ nc = false then checkPoolLines p e.2 [(p.blockPa e.2, p.stride)] (t.entryVa e.1)
    prepWrite t (t.entryVa e.1)
  needBlocks x t.pool t.pa plan.length
  eachM (plan.zip (((← t.poolOf).nextBlocks plan.length).1)) fun eb => do
    if eb.1.2 ≠ noBlock ∧ nc = false then guardPool (p.blockPa eb.2) p.stride (t.entryVa eb.1.1)
  let bs ← takeBlocks t.pool plan.length
  eachM (plan.zip bs) fun eb => do
    if eb.1.2 ≠ noBlock then
      if !nc then copyBlock p eb.2 eb.1.2 0 p.stride
      releaseBlock t.pool eb.1.2
    t.putEntry eb.1.1 eb.2
  let part := (← getSt).place.part
  modify fun s => s.dropTable part t.pa

/-- `k.ffree`. -/
def performKFfree (x : Entry) : M Unit := do
  let t ← openTable x 6 .bankRead true x.opX.toNat
  let n := bits x.opZ.toNat 0 16
  let first := bits x.opY.toNat 0 32
  if n = 0 ∨ t.len / 16 < first + n then trapTable 3 t
  let held := (← readEntries t first n).filter fun e => e.2.1 != noBlock
  eachM held fun e => prepWrite t (t.entryVa e.1)
  eachM held fun e => do
    releaseBlock t.pool e.2.1
    t.putEntry e.1 noBlock
  let part := (← getSt).place.part
  modify fun s => s.dropTable part t.pa

/-- `k.fref`. -/
def performKFref (x : Entry) : M Unit := do
  tableAligned x.opX.toNat
  tableAligned x.extA.toNat
  let t ← openTable x 6 .bankRead true x.opX.toNat
  let src ← openTable x 6 .bankRead true x.extA.toNat
  let i := bits x.opY.toNat 0 32
  let j := bits x.opZ.toNat 0 32
  if blocksOf src.len ≤ j then trapTable 1 t
  let b ← src.entry j
  if b = noBlock then trapTable 1 t
  if src.pool ≠ t.pool ∨ blocksOf t.len ≤ i then trapTable 3 t
  if t.wopen = true ∧ t.len / 16 ≤ i then trapTable 2 t
  let _ ← checkBlock t.pool b (src.entryVa j)
  let old ← t.entry i
  if old ≠ b then
    if old ≠ noBlock then let _ ← checkBlock t.pool old (t.entryVa i)
    prepWrite t (t.entryVa i)
    let part := (← getSt).place.part
    modify fun s => s.setPool part t.pool ((s.pool part t.pool).addRef b)
    if old ≠ noBlock then releaseBlock t.pool old
    t.putEntry i b
    modify fun s => s.dropTable part t.pa

/-! ## k.fqry (R439) -/

/-- BST (R425). -/
def BlockState.code : BlockState → Nat
  | .free => 0 | .held => 1 | .toScrub => 2 | .scrubbing => 3 | .withdrawn => 4

/-- `k.fqry.blk`. -/
def performKFqryBlk (x : Entry) : M Unit := do
  tableAligned x.opY.toNat
  let o := x.opX.toNat
  if o % 16 ≠ 0 then trapM .align 0 x.opX
  let t ← openTable x 6 .bankRead true x.opY.toNat
  let j := bits x.opZ.toNat 0 32
  if blocksOf t.len ≤ j then trapPage 3 x.opY.toNat
  let b ← t.entry j
  spadFree [(o, o + 16)]
  let y := (← t.poolOf).block b
  spadPut o (bytesOfNat 4 b ++ (if b = noBlock then bytesOfNat 12 0 else bytesOfNat 4 y.ref ++ bytesOfNat 8 y.st.code))

/-- `k.fqry.pool`. -/
def performKFqryPool (x : Entry) : M Unit := do
  let o := x.opX.toNat
  if o % 16 ≠ 0 then trapM .align 0 x.opX
  let s ← get
  let pl := s.st.place
  let i := bits x.opY.toNat 0 8
  let p := s.pool pl.part i
  if p.en = false then trapPage 3 x.opY.toNat
  if p.world ≠ pl.world then trapM .sealing 0 x.opY
  spadFree [(o, o + 16)]
  let waiting := (s.fullerWaits.filter fun w => w.part == pl.part && w.pool == some i).length
  spadPut o (bytesOfNat 4 (p.countState .free) ++ bytesOfNat 4 (p.countState .toScrub + p.countState .scrubbing) ++
    bytesOfNat 4 (p.countState .held) ++ bytesOfNat 4 (waiting % 65536))

/-! ## Page frames (R440) -/

/-- Change one frame's entry. -/
def State.setFrame (s : State) (i : Nat) (f : Frame) : State := { s with frames := putFrames s.frames i (i + 1) f }

/-- `k.fscrub`. -/
def performKFscrub (x : Entry) : M Unit := do
  let n := bits x.opY.toNat 0 16
  if n = 0 then trapPage 3 x.opX.toNat
  let a := x.opX.toNat
  if a % 65536 ≠ 0 then trapM .align 0 x.opX
  let s ← get
  let part := s.st.place.part
  let c := (s.part part).cfg
  let fs := genFrom n (a / 65536) id
  match fs.find? fun i => !(decide (c.fbase ≤ i ∧ i < c.flimit) && (frameOf s.frames i).st == .owned) with
  | some i => trapPage 2 (i * 65536)
  | none =>
    let p := s.part part
    set ((fs.foldl (fun (s : State) i => s.setFrame i { frameOf s.frames i with st := .toScrub }) s).setPart part
      { p with toScrub := fs.foldl runsPush p.toScrub, toOwn := fs.foldl runsDrop p.toOwn })

/-- The frames that a take would have: the first `n` of the scrubbed list, of the covered ones for seal mode 2 (R518). -/
def State.frameTake (s : State) (part mode n : Nat) : List Nat × List (Nat × Nat) :=
  let l := (s.part part).scrubbed
  runsTake (fun i => mode != 2 || s.covered i) (runsCount l + l.length + 1) n l

/-- `k.fscrub.take`. -/
def performKFscrubTake (x : Entry) : M Unit := do
  let n := bits x.opY.toNat 0 16
  let at' := x.opZ.toNat
  let mode := bits at' 0 2
  let world := bits at' 2 6
  if n = 0 ∨ bits at' 8 8 ≠ 0 ∨ at' / 2 ^ 32 ≠ 0 ∨ mode = 3 ∨ (mode ≠ 0 ∧ world = 0) then trapPage 3 x.opX.toNat
  let o := x.opX.toNat
  if o % 8 ≠ 0 then trapM .align 0 x.opX
  spadFree [(o, o + 8 * n)]
  let t ← getSt
  if t.spadSize < o + 8 * n then trapPage 2 (max o t.spadSize)
  let part := t.place.part
  needFuller x none none n fun s => (s.frameTake part mode n).1.length
  let s ← get
  let (fs, rest) := s.frameTake part mode n
  let s := s.setPart part { s.part part with scrubbed := rest }
  set (fs.foldl (fun (s : State) i =>
    let s := s.setFrame i ⟨.owned, mode, world, bits at' 16 16, (frameOf s.frames i).kgen⟩
    if mode ≠ 0 then s.zeroBytes (i * 65536) 65536 else s) s)
  spadPut o (fs.flatMap fun i => bytesOfNat 8 (i * 65536))

/-! ## Scrubs (R427 to R432) -/

/-- The head of a list of runs and the rest. -/
def runsHead : List (Nat × Nat) → Option (Nat × List (Nat × Nat))
  | [] => none
  | (lo, hi) :: rest => some (lo, if lo + 1 < hi then (lo + 1, hi) :: rest else rest)

/-- An address of a run of bytes is held by what was translated before its frames were released (R428): by a memory-value wait at
its bank, or by a reduction window at its home (R494). -/
def State.bytesHeld (s : State) (pa n : Nat) : Bool :=
  (s.bankWaits.any fun b => !b.hit && decide (b.pa < pa + n ∧ pa < b.pa + b.w)) ||
    (s.fabric.windows ++ s.fabric.past).any fun w => w.home == s.fabric.chip && (w.state == .opened || !w.closed.isEmpty) &&
      w.pages.any fun q => decide (q.pa < pa + n ∧ pa < q.pa + 65536)

/-- The first of a to-scrub list that nothing holds, and the rest. -/
def scrubNext (held : Nat → Bool) (l : List (Nat × Nat)) : Option (Nat × List (Nat × Nat)) :=
  match runsTake (fun i => !held i) (runsCount l + l.length + 1) 1 l with
  | (i :: _, rest) => some (i, rest)
  | ([], _) => none

/-- A frame becomes Withdrawn (R432). -/
def State.withdrawFrame (s : State) (part i : Nat) : State :=
  let p := s.part part
  let s := { s with withdrawn := if s.withdrawn.contains i then s.withdrawn else i :: s.withdrawn }
  ((s.setPart part { p with scrubbing := runsDrop p.scrubbing i, toOwn := runsDrop p.toOwn i }).setFrame i
    { frameOf s.frames i with st := .withdrawn }).scrivener (scrivSrc 0 0 (i / 2 ^ 21)) 4 i 0

/-- A block becomes Withdrawn (R432). -/
def State.withdrawBlock (s : State) (part pool b : Nat) : State :=
  let p := s.pool part pool
  let s := { s with withdrawnBlocks := (p.blockPa b, p.stride) :: s.withdrawnBlocks.filter (· != (p.blockPa b, p.stride)) }
  (s.setPool part pool { p.setBlock b { p.block b with st := .withdrawn } with scrubbing := runsDrop p.scrubbing b }).scrivener
    (scrivSrc 0 0 (p.base / 2 ^ 21)) 4 b 0

/-- Bytes that were withdrawn as a block since device reset lie in a run of bytes. -/
def State.withdrawnIn (s : State) (pa n : Nat) : Bool :=
  s.withdrawnBlocks.any fun w => decide (w.1 < pa + n ∧ pa < w.1 + w.2)

/-- A scrub of a pool's to-scrub list starts, or of the page frames' list where `pool` is 256 or more: the first that nothing holds
(R428) takes its next KGEN and is zeroed (R429 steps 1 and 2). One whose KGEN would wrap, or that has been withdrawn since device
reset, is Withdrawn (R432). -/
def State.scrubStart (s : State) (part pool : Nat) : Option State :=
  if (s.part part).released = false then none
  else if 256 ≤ pool then
    let p := s.part part
    (scrubNext (fun i => s.bytesHeld (i * 65536) 65536) p.toScrub).map fun (i, rest) =>
      let f := frameOf s.frames i
      let s := s.setPart part { p with toScrub := rest, scrubbing := runsPush p.scrubbing i }
      if (f.sealMode ≠ 0 ∧ 0xFFFF ≤ f.kgen) ∨ s.withdrawn.contains i = true then s.withdrawFrame part i
      else (s.setFrame i { f with st := .scrubbing, kgen := f.kgen + (f.sealMode != 0).toNat }).zeroBytes (i * 65536) 65536
  else
    let p := s.pool part pool
    (scrubNext (fun b => s.bytesHeld (p.blockPa b) p.stride) p.toScrub).map fun (b, rest) =>
      let x := p.block b
      let s := s.setPool part pool { p with toScrub := rest, scrubbing := runsPush p.scrubbing b }
      if (p.sealMode ≠ 0 ∧ 0xFFFF ≤ x.kgen) ∨ s.withdrawnIn (p.blockPa b) p.stride = true then s.withdrawBlock part pool b
      else
        let q := s.pool part pool
        (s.setPool part pool (q.setBlock b { x with st := .scrubbing, kgen := x.kgen + (p.sealMode != 0).toNat })).zeroBytes
          (p.blockPa b) p.stride

/-- A line lies in a frame or a block that is being scrubbed. -/
def State.scrubs (s : State) (line : Nat) : Bool :=
  (s.frameAt (line * 64)).st == .scrubbing || s.parts.any fun x => x.2.pools.any fun q =>
    match q.2.blockAt line with
    | some b => (q.2.block b).st == .scrubbing
    | none => false

/-- The read-back of the scrub of page frame `i` (R429 steps 3 and 4). -/
def State.scrubFrame (s : State) (part i : Nat) : State :=
  let (s, ok) := s.scrubCheck (i * 65536) 65536
  if !ok then s.withdrawFrame part i
  else
    let s := s.dropWeights i (i + 1)
    let p := s.part part
    let own := p.toOwn.any fun r => decide (r.1 ≤ i ∧ i < r.2)
    let p := { p with
      scrubbing := runsDrop p.scrubbing i
      scrubbed := if own then p.scrubbed else runsPush p.scrubbed i
      toOwn := runsDrop p.toOwn i }
    (s.setPart part p).setFrame i ⟨if own then .owned else .free, 0, 0, 0, (frameOf s.frames i).kgen⟩

/-- The read-back of the scrub of block `b` of a pool. -/
def State.scrubBlock (s : State) (part pool b : Nat) : State :=
  let p := s.pool part pool
  let (s, ok) := s.scrubCheck (p.blockPa b) p.stride
  if !ok then s.withdrawBlock part pool b
  else
    let s := { s with btbs := s.btbs.filter fun e => !(e.part == part && e.block == b) }
    let s := s.dropWeights (p.blockPa b / 65536) ((p.blockPa b + p.stride + 65535) / 65536)
    let p := s.pool part pool
    s.setPool part pool { p.setBlock b ⟨.free, 0, 0, (p.block b).kgen, 0⟩ with
      scrubbing := runsDrop p.scrubbing b, scrubbed := runsPush p.scrubbed b, poison := p.poison.filter (· != b) }

/-- The oldest scrub of a list is over. -/
def State.scrubDone (s : State) (part pool : Nat) : Option State :=
  if 256 ≤ pool then (runsHead (s.part part).scrubbing).map fun r => s.scrubFrame part r.1
  else (runsHead (s.pool part pool).scrubbing).map fun r => s.scrubBlock part pool r.1

/-- FULLER_SCRUB_START (R428): of pool `pool` of a partition, or of its page frames from 256. A word reads a block in the
step in which it reads the block's entry, so between steps no word holds one (log 7). -/
def execFullerScrubStart (part pool : Nat) (s : State) : Host.Outcome State Fault Refusal :=
  .next ((s.scrubStart part pool).getD s)
/-- SCRUB_COMPLETE (R429 to R432). -/
def execScrubComplete (part pool : Nat) (s : State) : Host.Outcome State Fault Refusal :=
  .next ((s.scrubDone part pool).getD s)

end Sys2Proof.Machine
end

