-- ==== Sys2Proof/Machine/PerformTable.lean ====
section
/-! DEFINITION. What each engine word does when it is performed: one line for each word of engines 1 to 6 (R13). Loop words
are run by the loop runner of their engine. -/

namespace Sys2Proof.Machine

/-- Perform the word of an entry, from where its progress stands. -/
def performWord (x : Entry) : M Unit :=
  match x.word with
  | .vLd d _ _ _ => performVLd d x
  | .vSt d _ _ _ => performVSt d x
  | .vLds d _ _ _ => performVLds d x
  | .vSts d _ _ _ => performVSts d x
  | .vLdh d y _ m _ => performVLdh d y m x
  | .vSth d y _ m _ => performVSth d y m x
  | .vMov d y _ => performVMov d y x
  | .vBcs d _ _ => performVBcs d x
  | .vIota d _ _ _ => performVIota d x
  | .vPset d _ _ _ => performVPset d x
  | .vAdd d y z _ => performVAdd d y z x
  | .vSub d y z _ => performVSub d y z x
  | .vMul d y z _ => performVMul d y z x
  | .vFma d y z m _ => performVFma d y z m x
  | .vMin d y z _ => performVMin d y z x
  | .vMax d y z _ => performVMax d y z x
  | .vAbs d y _ => performVAbs d y x
  | .vNeg d y _ => performVNeg d y x
  | .vIadd d y z _ => performVIadd d y z x
  | .vIsub d y z _ => performVIsub d y z x
  | .vImul d y z m _ => performVImul d y z m x
  | .vImulw d y z m _ => performVImulw d y z m x
  | .vAnd d y z _ => performVAnd d y z x
  | .vOr d y z _ => performVOr d y z x
  | .vXor d y z _ => performVXor d y z x
  | .vNot d y _ => performVNot d y x
  | .vShl d y z _ => performVShl d y z x
  | .vShr d y z _ => performVShr d y z x
  | .vSha d y z _ => performVSha d y z x
  | .vImin d y z m _ => performVImin d y z m x
  | .vImax d y z m _ => performVImax d y z m x
  | .vCmp d y z m _ => performVCmp d y z m x
  | .vIcmp d y z m _ => performVIcmp d y z m x
  | .vSel d y z m _ => performVSel d y z m x
  | .vPand d y z _ => performVPand d y z x
  | .vPor d y z _ => performVPor d y z x
  | .vPxor d y z _ => performVPxor d y z x
  | .vPnot d y _ => performVPnot d y x
  | .vRotr d y _ _ => performVRotr d y x
  | .vRotc d y _ _ => performVRotc d y x
  | .vBcr d y _ _ => performVBcr d y x
  | .vBcc d y _ _ => performVBcc d y x
  | .vRedr d y m _ => performVRedr d y m x
  | .vRedc d y m _ => performVRedc d y m x
  | .vCvtf d y m _ => performVCvtf d y m x
  | .vCvti d y m _ => performVCvti d y m x
  | .vCvtq d y m _ => performVCvtq d y m x
  | .vExp2 d y _ => performVExp2 d y x
  | .vLog2 d y _ => performVLog2 d y x
  | .vRcp d y _ => performVRcp d y x
  | .vRsq d y _ => performVRsq d y x
  | .vTanh d y _ => performVTanh d y x
  | .vSigm d y _ => performVSigm d y x
  | .vRng d m _ => performVRng d m x
  | .vStop d y _ _ => performVStop d y x
  | .mMma d _ _ _ => performMMma d x
  | .mMmaG d _ _ _ => performMMmaG d x
  | .mLdw _ _ _ m _ => performMLdw m x
  | .mSwap _ _ => performMSwap x
  | .mZero d _ _ => performMZero d x
  | .mRdz _ y _ _ => performMRdz y x
  | .mWrz d _ _ _ => performMWrz d x
  | .mCkpt d y _ _ _ => performMCkpt d y x
  | .mRest d y _ _ _ => performMRest d y x
  | .mEpi _ y _ _ => performMEpi y x
  | .mTsub _ _ _ => performMTsub x
  | .mTqry _ _ _ => performMTqry x
  | .mTcan _ _ m _ => performMTcan m x
  | .mRdv _ m _ => performMRdv m x
  | .mWid _ _ _ => performMWid x
  | .cCp _ _ _ m _ => performCCp m x
  | .cCpd _ _ _ m _ => performCCpd m x
  | .cGath _ _ _ m _ => performCGath m x
  | .cScat _ _ _ m _ => performCScat m x
  | .cFill _ _ _ _ => performCFill x
  | .cCvt _ _ _ m _ => performCCvt m x
  | .cBind d _ _ m _ => performCBind d m x
  | .cKvg _ _ _ m _ => performCKvg m x
  | .cKvs _ _ _ m _ => performCKvs m x
  | .cGm _ _ _ m _ => performCGm m x
  | .cPeer _ _ _ _ => performCPeer x
  | .cRwin _ _ _ m _ => performCRwin m x
  | .cPf _ _ _ _ => performCPf x
  | .cUnbind d _ => performCUnbind d x
  | .cDsc d _ m _ => performCDsc d m x
  | .cBbinv _ _ => performCBbinv x
  | .bAdd _ _ _ r w _ => performBAdd r w x
  | .bMin _ _ _ r w _ => performBMin r w x
  | .bMax _ _ _ r w _ => performBMax r w x
  | .bMinu _ _ _ r w _ => performBMinu r w x
  | .bMaxu _ _ _ r w _ => performBMaxu r w x
  | .bAnd _ _ _ r w _ => performBAnd r w x
  | .bOr _ _ _ r w _ => performBOr r w x
  | .bXor _ _ _ r w _ => performBXor r w x
  | .bSwap _ _ _ r w _ => performBSwap r w x
  | .bCas _ _ _ r w _ => performBCas r w x
  | .bFadd _ _ _ _ => performBFadd x
  | .bFadb _ _ _ _ => performBFadb x
  | .bScal _ _ _ t _ => performBScal t x
  | .bAxpy _ _ _ t _ => performBAxpy t x
  | .bWait _ _ z k w _ => performBWait z k w x
  | .bVst _ _ _ _ => performBVst x
  | .bVld _ _ _ t _ => performBVld t x
  | .bVldLe _ _ _ t _ => performBVldLe t x
  | .bVretire _ _ _ => performBVretire x
  | .bVnew _ _ _ => performBVnew x
  | .bVfloor _ _ _ => performBVfloor x
  | .bVreg _ _ _ => performBVreg x
  | .bVregFree _ _ _ => performBVregFree x
  | .bVregRd _ _ _ => performBVregRd x
  | .bVregSpill _ _ _ => performBVregSpill x
  | .aAttn _ _ _ k v _ => performAAttn k v x
  | .aPart _ _ _ k v _ => performAPart k v x
  | .aMerge _ _ _ n _ => performAMerge n x
  | .aCfg _ _ _ => performACfg x
  | .aBinv _ _ => performABinv x
  | .aPref _ _ _ _ => performAPref x
  | .kPool _ _ _ => performKPool x
  | .kPoolOff _ _ => performKPoolOff x
  | .kTbl _ _ _ _ => performKTbl x
  | .kApp _ _ _ r w _ => performKApp r w x
  | .kWr _ _ _ m _ => performKWr m x
  | .kFork _ _ _ _ => performKFork x
  | .kTrunc _ _ _ => performKTrunc x
  | .kRet _ _ => performKRet x
  | .kWinOpen _ _ _ _ => performKWinOpen x
  | .kCommit _ _ _ n _ => performKCommit n x
  | .kAbort _ _ n _ => performKAbort n x
  | .kCkpt _ _ _ _ => performKCkpt x
  | .kLen _ _ _ => performKLen x
  | .kBbinv _ _ => performKBbinv x
  | .kFalloc _ _ _ n _ => performKFalloc n x
  | .kFfree _ _ _ _ => performKFfree x
  | .kFscrub _ _ _ => performKFscrub x
  | .kFscrubTake _ _ _ _ => performKFscrubTake x
  | .kFref _ _ _ _ => performKFref x
  | .kFqryBlk _ _ _ _ => performKFqryBlk x
  | .kFqryPool _ _ _ => performKFqryPool x
  | _ => pure ()

end Sys2Proof.Machine
end

