-- ==== Sys2Proof/Machine/Perform.lean ====
section
/-! DEFINITION. The engines at work: which entry of a queue may be performed (R24, R25, R78), the loop runner (R27, R233),
the traps of engine words (R196, R198), and the steering of an engine word (R15 to R22, R74). -/

namespace Sys2Proof.Machine

/-! ## Entries -/

/-- A joined word lets no later word of its queue start (R411). -/
def Strand.joined (t : Strand) (e : Nat) (x : Entry) : Bool := e == 6 && (t.queue 2).any fun y => y.isMark 2 && y.seq == x.seq

/-- A vector word waits for the read of an earlier attention word whose queries are the register that it writes (R390). -/
def Strand.queriesAwait (t : Strand) (x : Entry) : Bool :=
  match x.word.writesV with
  | none => false
  | some d => (t.queue 5).any fun y => decide (y.seq < x.seq) && (match y.word with
    | .aAttn _ _ _ _ v _ | .aPart _ _ _ _ v _ => v && y.prog.count == 0 && bits y.extB.toNat 8 4 == d.toNat
    | _ => false)

/-- The operand that a nest's offset is added to (R233, R343, R249): X or Y or both, or Z. -/
def Entry.withOffset (x : Entry) (o : Word) : Entry :=
  match x.word with
  | .vLd .. | .vSt .. | .vLds .. | .vSts .. | .mMma .. | .mMmaG .. | .mWrz .. | .cBind .. | .cDsc .. =>
    { x with opY := x.opY + o }
  | .vLdh .. | .vSth .. | .vStop .. => { x with opZ := x.opZ + o }
  | .mLdw .. | .mEpi .. | .mRdz .. | .mRdv .. | .cFill .. | .cPf .. => { x with opX := x.opX + o }
  | .cCp .. | .cCpd .. | .cGath .. | .cScat .. | .cCvt .. | .cKvg .. | .cKvs .. | .cGm .. | .cPeer .. | .cRwin .. =>
    { x with opX := x.opX + o, opY := x.opY + o }
  | _ => x

/-- Body word number `n` of the open nest at `k` (R234): its place, and the word with its iteration's offset (R27, R233); none
where it is not steered yet, or the nest has no such iteration. -/
def Strand.bodyWord (t : Strand) (e k n : Nat) : Option (Nat × Entry) :=
  match (t.queue e)[k]? with
  | none => none
  | some x =>
    let j := k + 1 + n % x.loopLen
    let i := x.prog.count + n / x.loopLen
    match (t.queue e)[j]? with
    | none => none
    | some y =>
      if y.isJoin || y.isMark e || x.iterations ≤ i then none
      else some (j, y.withOffset (wordOfInt (nestOffset (BitVec.ofNat 512 (x.prog.vals.headD 0)) i)))

/-- A nest begins: its descriptor is read once (R233, R247). -/
def openNest (d : Reg) : M Unit := do
  let img := (← getSt).desc d.toNat
  if descDims img = 0 then trapPage 3 0
  modWork fun w => { w with started := true, vals := [img.toNat], count := 0, body := 0 }

/-- Perform an entry, or open the nest of a loop word. -/
def performEntry (x : Entry) : M Unit :=
  match x.word with
  | .vLoop d _ _ | .mLoop d _ _ | .cLoop d _ _ => openNest d
  | _ => performWord x

/-- What became of an entry that was tried. -/
inductive Tried where
  | moved (s : State)
  /-- It waits; the flag says that it performed part of its effect or posted a page request. -/
  | waits (s : State) (news : Bool)
  | faults (s : State) (addr : Word) (t : TrapInfo)

/-- The current strand after the word of entry `j` of engine `e`, with number `seq`, is performed: its flags are set (R143),
a loop word has opened its nest, any other word leaves its queue, wherever it now stands in it (R14). -/
def State.performedWord (s : State) (e seq : Nat) : State :=
  let w := s.st.work
  let t := { s.st with work := Progress.fresh, csr := { s.st.csr with flags := s.st.csr.flags ||| w.flags } }
  match t.placeOf e seq with
  | none => (({ s with st := t } : State).leaveFuller seq).rejoin
  | some j =>
    let opens := match (t.queue e)[j]? with | some y => y.isLoop && !y.prog.started | none => false
    let u := if opens then
        (match (t.queue e)[j]? with | some y => t.setEntry e j { y with prog := w } | none => t)
      else t.finish e j
    (({ s with st := u } : State).leaveFuller seq).rejoin

/-- Try entry `j` of engine `e` as the word `x`: its progress is loaded, the word goes on from there, and what it leaves is
kept (R29). -/
def State.tryWord (s : State) (e j : Nat) (x : Entry) : Option Tried :=
  if x.isJoin || (e == 1 && s.st.queriesAwait x) then none
  else
    -- the progress is in `work` while the word is performed; the queue holds no lock of it
    let base := match (s.st.queue e)[j]? with | some y => { y with prog := Progress.fresh } | none => x
    let keep := fun (s' : State) (w : Option (Nat × Nat)) =>
      { s' with st := { (match s'.st.placeOf e x.seq with
          | some i => s'.st.setEntry e i { base with prog := { s'.st.work with wait := w } }
          | none => s'.st) with work := Progress.fresh } }
    match performEntry x { s with st := { s.st.setEntry e j base with work := x.prog } } with
    | .ok _ s' => some (.moved (s'.performedWord e x.seq))
    | .error (.wait kind i) s' =>
      let news := { s'.st.work with wait := some (kind, i) } != x.prog || s'.st.pageWaits.length != s.st.pageWaits.length
      some (.waits (keep s' (some (kind, i))) news)
    -- a word that traps waits for the Fuller no more (R430)
    | .error (.trap f) s' => some (.faults ((keep s' none).leaveFuller x.seq) x.addr f)

/-- The word draws counter values (R210, R255). -/
def Entry.draws (x : Entry) (t : Strand) : Bool :=
  match x.word with
  | .vRng .. => true
  | i => i.takesRnd && (match x.pfx.rnd with | some m => m.toNat | none => t.csr.rmode.toNat) == 4

/-- The word of an entry draws, or, for a loop word, some word of its body does, as one that is not steered yet may (R210). -/
def Strand.drawsAt (t : Strand) (e : Nat) (x : Entry) : Bool :=
  if x.isLoop then
    match t.placeOf e x.seq with
    | some k =>
      let body := ((t.queue e).drop (k + 1)).take x.loopLen
      decide (body.length < x.loopLen) || body.any fun y => y.draws t
    | none => true
  else x.draws t

/-- A pass of a matrix word has added to accumulator rows and goes on: no other word's additions come in between (R351). -/
def Entry.adding (x : Entry) : Bool :=
  match x.word with
  | .mMma .. => decide (0 < x.prog.count)
  | .mMmaG .. => (x.prog.vals.tail.any fun i => decide (0 < i)) || !x.prog.done.isEmpty
  | _ => false

/-- The entry `x` of engine `e`, which has not been performed, lets a later entry start (R25): it is chained, no joined word
(R411), and, where words start in queue order, it has started: those of the matrix queue (R333), which lets no word pass one
that is adding to its rows (R351), and words that draw (R210). Between loops nothing but the chain bit of the loop word
counts (R234). -/
def Strand.letsPass (t : Strand) (e : Nat) (x y : Entry) : Bool :=
  chainBit x.word && !x.isJoin && !x.isMark e && !t.joined e x &&
    (x.prog.wait != some (8, 0)) &&
    (e != 2 || (x.prog.started && !x.isLoop && !x.adding)) &&
    (!(t.drawsAt e y) || !(t.drawsAt e x) || (x.prog.started && !x.isLoop))

/-- What an engine has come to at an entry: it has gone on, or the entry is held, with whether that has left anything. -/
inductive Went where
  | on (s : State)
  | held (s : State) (news : Bool)

/-- Try entry `j` of engine `e` as the word `x`, and take the trap that it raises (R198). -/
def State.goWord (s : State) (e j : Nat) (x : Entry) : Went :=
  match s.tryWord e j x with
  | none => .held s false
  | some (.moved s') => .on s'
  | some (.waits s' news) => .held s' news
  | some (.faults s' a f) => .on (s'.engineTrap a e x.seq f)

/-- No other strand of the tile is active. -/
def State.ownsTile (s : State) : Bool :=
  !(s.others.any fun t => t.residentOn s.st.place.die s.st.place.tile && t.life == .active)

/-- The current strand has its tile: it is active, or it has parked and the tile has not switched since (R54, R290). -/
def State.hasTile (s : State) : Bool :=
  s.st.life == .active || (s.st.life == .parked && s.ownsTile && s.here.bank == s.st.place.bank)

/-- Engine `e` of the current strand starts no word: the strand stops for a trap of an engine word (R198), the engine has stopped
in a drain (R196), or another strand has the tile (R290). -/
def State.startsNone (s : State) (e : Nat) : Bool :=
  s.st.stopped || (s.st.faultedAt e).isSome || !s.hasTile

/-- An entry goes on where its engine starts no word: a remote unit holds it, ahead of a word that has faulted (R196, R198, R290);
or it is a matrix word that the stop performs whole, or holds scratchpad bytes that such a word may await (R80, R352). -/
def Strand.goesOn (t : Strand) (e : Nat) (x : Entry) : Bool :=
  (x.remote e && t.beforeFault e x) ||
    (t.stopped && t.matrixRuns && ((e == 2 && x.mustFinish) || (!x.prog.locks.isEmpty && (t.faultedAt e).isNone)))

/-- Try the body words of the open nest at `k` from number `b` on, those of the next iteration among them, past words that wait
and let them start (R234); the first number bounds them. -/
def State.moveBody (s : State) (e k : Nat) : Nat → Nat → List Entry → Option State
  | 0, _, _ => none
  | n + 1, b, past =>
    match (s.st.queue e)[k]?, s.st.bodyWord e k b with
    | some x, some (j, y) =>
      if x.prog.done.contains b || (s.startsNone e && !s.st.goesOn e y) then s.moveBody e k n (b + 1) past
      else if !(past.all fun p => s.st.letsPass e p y) then none
      else
        match s.goWord e j y with
        | .on s' => some s'
        | .held s' news =>
          let here := match (s'.st.queue e)[j]? with | some y' => y' | none => y
          match s'.moveBody e k n (b + 1) (past ++ [here]) with
          | some s'' => some s''
          | none => if news then some s' else none
    | _, _ => none

/-- Try entry `k` of engine `e`, or the nest that it has opened. -/
def State.goEntry (s : State) (e k : Nat) (x : Entry) : Went :=
  if x.open then
    match (if s.startsNone e then none else s.st.skipNest e k) with
    | some t => .on ({ s with st := t } : State).rejoin
    | none =>
      match s.moveBody e k x.loopLen x.prog.body [] with
      | some s' => .on s'
      | none => .held s false
  else s.goWord e k x

/-- Let an engine move: the entry at `k`, or else one after it that the entries before it, `past`, let start (R24, R25). Of two
chained words that are both free to run, the earlier one is performed whole first: DESIGN CHOICE (R25, R208 leave the order
open; log 25). A chained later word that has been performed keeps its effect where an earlier word of its queue then traps, as
R25 lets it be performed first, although R29 gives no later word an effect: DESIGN CHOICE (log 57). Where the engine starts no
word, those that go on do so, past words that do not (R196, R198, R290). -/
def State.moveFrom (s : State) (e : Nat) : Nat → Nat → List Entry → Option State
  | 0, _, _ => none
  | n + 1, k, past =>
    match (s.st.queue e)[k]? with
    | none => none
    | some x =>
      if x.isJoin || x.isMark e then none
      else
        let next := if x.open then k + x.loopLen + 1 else k + 1
        if s.startsNone e && !x.open && !s.st.goesOn e x then s.moveFrom e n next past
        else if !(past.all fun p => s.st.letsPass e p x) then none
        else
          match s.goEntry e k x with
          | .on s' => some s'
          | .held s' news =>
            let here := match (s'.st.queue e)[k]? with | some y => y | none => x
            match s'.moveFrom e n next (past ++ [here]) with
            | some s'' => some s''
            | none => if news then some s' else none

/-- An engine may go on: no handler holds it (R200); one that has stopped in a drain (R196), and every engine while the strand is
stopped (R198), does so only for words of remote units, and for matrix words that the stop performs whole (R352). -/
def Strand.mayRun (t : Strand) (e : Nat) : Bool :=
  !t.engHeld.getLsbD (e - 1) && (match t.pend with
    | some p => decide (4 ≤ e) || ((t.faultedAt e).isNone && (!p.stop || t.matrixRuns))
    | none => true)

/-- Let engine `e` of the current strand move once. -/
def State.moveEngine (s : State) (e : Nat) : Option State :=
  if s.st.mayRun e then s.moveFrom e (s.st.queue e).length 0 [] else none

/-! ## Issue (R15, R18, R21, R22, R74) -/

/-- The `.rel` and `.acq` effects of a bank word at steering (R74): bit 0 of ORD closes, bit 1 holds the splitter. -/
def bankClose (p : Prefixes) : M Unit :=
  match p.ord with
  | some (o, sc) => if o = 1 ∨ o = 3 then closeM sc.toNat else pure ()
  | none => pure ()

/-- The hold of an `.acq` bank word. -/
def bankHold (p : Prefixes) (t : Strand) (seq : Nat) : Strand :=
  match p.ord with
  | some (o, sc) => if o = 2 ∨ o = 3 then { t with hold := .acquire seq sc.toNat } else t
  | none => t

/-- The word stands in the matrix queue as well (R411): its window has CKEN = 1. -/
def joinsMatrix (i : Instr) (s : State) : Bool :=
  match i with
  | .kWinOpen _ _ z _ => bit (s.st.reg z).toNat 0
  | .kCkpt x _ _ _ => s.windowCken (s.st.reg x).toNat
  | .kCommit x _ _ n _ | .kAbort x _ n _ => !n && s.windowCken (s.st.reg x).toNat
  | _ => false

/-- The strand with the mark of a joined word placed. -/
def markJoined (i : Instr) (p : Prefixes) (s : State) : Strand :=
  if joinsMatrix i s then s.st.setQueue 2 (s.st.queue 2 ++ [mkEntry i p s.st]) else s.st

/-- Steer an engine word (R15, R18): it takes its place in the queue of its engine, which performs it at once where nothing
stands before it (log 7). A full queue stalls the splitter (R22). -/
def issue (i : Instr) (s : State) : Host.Outcome State Fault Refusal :=
  steer i s fun p s =>
    let e := i.engine
    if queueDepth e ≤ (s.st.queue e).length ∨ (joinsMatrix i s = true ∧ queueDepth 2 ≤ (s.st.queue 2).length) then s.stall
    else
      match bankClose p s with
      | .error (.wait k g) s' => s'.holdUnit k g
      | .error (.trap f) s' => s'.raise s'.st.pc f
      | .ok _ s1 =>
        let s2 := { s1 with st := bankHold p ((markJoined i p s1).enqueue i p) s1.st.steered }
        if s2.st.lag.getLsbD (e - 1) then s2 else (s2.moveEngine e).getD s2

end Sys2Proof.Machine
end

