-- ==== Sys2Proof/Machine/FrontUnit.lean ====
section
/-! DEFINITION. The front end's own accesses (R443, R447), queue records and halts (R442 to R446), completion records
(R450), and how packets complete (R444). -/

namespace Sys2Proof.Machine

/-! ## Queue records (R442) -/

/-- A queue record of a function. -/
def State.queue (s : State) (fn q : Nat) : QueueRec := assoc (s.fn fn).queues q QueueRec.reset

/-- Replace a queue record. -/
def State.setQueue (s : State) (fn q : Nat) (r : QueueRec) : State :=
  let f := s.fn fn
  s.setFn fn { f with queues := assocPut f.queues q r }

/-- The lowest compute die of a partition. -/
def PartCfg.firstDie (c : PartCfg) : Nat := ((genFrom 4 0 id).find? fun d => bit c.dies d).getD 0

/-- KICKPA names slice memory pinned for the queue's partition (R443, R446). -/
def State.kickOk (s : State) (fn q : Nat) : Bool :=
  let pa := (s.queue fn q).kickpa * 64
  decide (sliceBase ≤ pa ∧ pa < sliceBase + sliceBytes) &&
    (match s.partOfSlice (bits pa 21 8 / Config.slicesPerDie) (bits pa 21 8 % Config.slicesPerDie) with
    | some (i, p) => i == (s.fn fn).part && decide (pa % 2 ^ 21 + 64 ≤ p.cfg.slmem * 65536)
    | none => false)

/-- CTX names an entry of the queue's function (R446). -/
def State.ctxOk (s : State) (fn q : Nat) : Bool :=
  let c := s.ctx (s.queue fn q).ctx
  c.v && c.fn == fn

/-- WR of a queue's kick area (R443). -/
def State.queueWr (s : State) (fn q : Nat) : BitVec 32 := BitVec.ofNat 32 (s.peekNat .device ((s.queue fn q).kickpa * 64) 4)

/-- Write RDM with RD (R443). -/
def State.writeRdm (s : State) (fn q : Nat) : State :=
  let r := s.queue fn q
  if s.kickOk fn q then s.writeHomeNat (r.kickpa * 64 + 8) 4 r.rd.toNat else s

/-- SRC of a Scrivener record of a queue: the front end stands on I/O die 0 (R467, R522). -/
def queueSrc (fn q : Nat) : Nat := scrivSrc fn q 4

/-! ## Accesses of the front end (R447) -/

/-- The gang number under which the front end's waits stand; no gang has it. -/
def frontGang : Nat := 2 ^ 64

/-- Where the front end acts for a queue: its context, function and partition, on the partition's first die. -/
def State.frontPlace (s : State) (fn q : Nat) : Place :=
  let r := s.queue fn q
  let p := (s.fn fn).part
  { order := frontGang, gang := frontGang, member := fn * 64 + q, size := 1, fn := fn, slot := r.ctx
    world := (s.ctx r.ctx).world, part := p, die := (s.part p).cfg.firstDie, tile := 1024, bank := 0 }

/-- The accesses of a queue that wait. -/
def State.frontWaits (s : State) (fn q : Nat) : List PageWait × List PageAnswer := assoc s.front.units (fn * 64 + q) ([], [])

/-- Run a computation of a unit of the device at a place (R447): it stands in for a strand there, and its waits are kept
under a key. -/
def State.unitRun {α : Type} (s : State) (key : Nat) (p : Place) (m : M α) : Attempt α × State :=
  let u := assoc s.front.units key ([], [])
  let t := { Strand.fresh p with pageWaits := u.1, pageAnswers := u.2 }
  let back := fun (s' : State) =>
    let left := (s'.st.pageWaits, s'.st.pageAnswers)
    let s1 := match s'.others with
      | x :: rest => { s' with st := x, others := rest }
      | [] => s'
    let others := s1.front.units.filter fun e => e.1 != key
    let units := if left.1.isEmpty && left.2.isEmpty then others else others ++ [(key, left)]
    { s1 with front := { s1.front with units := units } }
  match m { s with st := t, others := s.st :: s.others } with
  | .ok a s' => (.done a, back s')
  | .error (.wait _ g) s' => (.waits g 0, back s')
  | .error (.trap f) s' => (.trapped f, back s')

/-- The front end acts for a function's queues: it is not paused (R480), and neither is the device (R525). -/
def State.frontActs (s : State) (fn : Nat) : Bool := (s.fn fn).migState == 0 && s.svc.ckptState == 0

/-- Run a computation of the front end in a queue's context. -/
def State.frontRun {α : Type} (s : State) (fn q : Nat) (m : M α) : Attempt α × State :=
  s.unitRun (fn * 64 + q) (s.frontPlace fn q) m

/-- Read bytes in the queue's context. -/
def frontRead (va n : Nat) : M (List Byte) := do
  let slot := (← getSt).place.slot
  let ps ← collectM (pieces (n / 64 + 2) va n) fun p => do
    let m ← mapAccess 7 slot p.1 .read
    checkLine m.pa p.1
    return (← get).peekBytes .device m.pa p.2
  return ps.flatten

/-- An unsigned number in the queue's context. -/
def frontNat (va n : Nat) : M Nat := do return natOfBytes (← frontRead va n)

/-- The pieces of a run that an access of a class may make, with nothing marked yet. -/
def frontLocate (va n : Nat) (acc : AccessKind) : M (List (Located × Nat)) := do
  let slot := (← getSt).place.slot
  collectM (pieces (n / 64 + 2) va n) fun p => do
    let l ← sealedAs p.1 (locate 7 slot p.1 acc)
    l.sealed p.1
    l.ready
    return (l, p.2)

/-- Write bytes over located pieces, published at `.sys`. -/
def putPieces : List (Located × Nat) → List Byte → M Unit
  | [], _ => pure ()
  | (l, n) :: rest, bs => do
    l.use
    modify fun s => s.writeHome l.m.pa (bs.take n)
    putPieces rest (bs.drop n)

/-- Write bytes in the queue's context. -/
def frontWrite (va : Nat) (bs : List Byte) : M Unit := do
  let ps ← frontLocate va bs.length .write
  putPieces ps bs

/-- An access that newly waits is news. -/
def State.waitNews (s s' : State) (fn q : Nat) : Option State :=
  if s.frontWaits fn q = s'.frontWaits fn q then none else some s'

/-! ## Packets (R444) -/

/-- A packet is the one at a position of a queue. -/
def PacketRun.isAt (p : PacketRun) (fn q : Nat) (pos : BitVec 32) : Bool := p.fn == fn && p.queue == q && p.pos == pos

/-- Packets of a queue in ring order. -/
def State.packetsOf (s : State) (fn q : Nat) : List PacketRun := s.front.packets.filter fun p => p.fn == fn && p.queue == q

/-- Change a packet that runs. -/
def State.setPacket (s : State) (fn q : Nat) (pos : BitVec 32) (f : PacketRun → PacketRun) : State :=
  { s with front := { s.front with
    packets := s.front.packets.map fun p => if p.isAt fn q pos && !p.done then f p else p } }

/-- RD passes the packets that have completed, in ring order; the number bounds them. -/
def State.settleRd (s : State) (fn q : Nat) : Nat → State
  | 0 => s
  | n + 1 =>
    match (s.packetsOf fn q).find? fun p => !p.detached with
    | some p =>
      if p.done then
        let s1 := { s with front := { s.front with packets := s.front.packets.erase p } }
        let r := s.queue fn q
        ((s1.setQueue fn q { r with rd := r.rd + BitVec.ofNat 32 p.len }).writeRdm fn q).settleRd fn q n
      else s
    | none => s

/-- A packet completes. One of a queue that has halted or gone Off since leaves RD alone. -/
def State.completePacket (s : State) (fn q : Nat) (pos : BitVec 32) : State :=
  let s := s.setPacket fn q pos fun p => { p with done := true }
  let left := s.front.packets.filter fun p => !(p.fn == fn && p.queue == q && p.done && p.detached)
  let s := { s with front := { s.front with packets := left } }
  s.settleRd fn q (s.packetsOf fn q).length

/-- The position of the next packet to start: behind those that run. -/
def State.nextPos (s : State) (fn q : Nat) : BitVec 32 :=
  (s.queue fn q).rd + BitVec.ofNat 32 (((s.packetsOf fn q).filter fun p => !p.detached).map PacketRun.len).sum

/-! ## Completion records (R450) -/

/-- A completion record is to be written. -/
def State.pushCq (s : State) (c : PendCq) : State := { s with front := { s.front with cqWait := s.front.cqWait ++ [c] } }

/-- The words of a KIND 2 record from offset 8 (R450, R201). -/
def KillRec.body (k : KillRec) (tag : Word) : List Word :=
  [tag, BitVec.ofNat 64 k.tcause, k.tval] ++ genFrom 7 0 (fun i => k.epc.getD i 0) ++
    [BitVec.ofNat 64 (k.gx % 2 ^ 32 + k.gy % 2 ^ 16 * 2 ^ 32 + k.gz % 2 ^ 16 * 2 ^ 48), BitVec.ofNat 64 (k.member % 16)]

/-- The packet has done its work: it completes at once, or with its KIND 6 record. -/
def State.endPacket (s : State) (p : PacketRun) : State :=
  if p.cq then s.pushCq ⟨p.fn, p.queue, 6, p.pos, [p.tag], p.irq, true⟩ else s.completePacket p.fn p.queue p.pos

/-- A memory wait's entry at its home bank. -/
def BankWait.isPacket (b : BankWait) (p : PacketRun) : Bool :=
  b.gang == frontGang && b.member == p.fn * 64 + p.queue && b.seq == p.pos.toNat

/-- A packet has done its work, and completes with a record that waits to be written. -/
def State.ending (s : State) (p : PacketRun) : Bool :=
  s.front.cqWait.any fun c => c.ends && c.fn == p.fn && c.queue == p.queue && c.pkt == p.pos

/-- A packet is cut short: the order that it has launched runs to retirement, and nothing more of it starts. A docket whose last
operator is launched completes with that. -/
def State.cutPacket (s : State) (p : PacketRun) : State :=
  if s.ending p then s
  else if p.order.isSome then
    if p.kind = 1 ∧ p.ops.length ≤ p.nextOp then s
    else s.setPacket p.fn p.queue p.pos fun p => { p with dead := true }
  else { s with bankWaits := s.bankWaits.filter fun b => !b.isPacket p }.completePacket p.fn p.queue p.pos

/-- The packets of a queue that run lose their hold on RD (R445). Those that `again` names stand where the queue may read them again:
they are cut short. That a launched order is what R445 calls an order already placed, and that the packets behind a halted queue's RD
go no further, is DEDUCED (log 73). -/
def State.detach (s : State) (fn q : Nat) (again : PacketRun → Bool) : State :=
  let mine := s.packetsOf fn q
  let s := { s with front := { s.front with
    packets := s.front.packets.map fun p => if p.fn = fn ∧ p.queue = q then { p with detached := true } else p } }
  (mine.filter fun p => again p && !p.done).foldl (fun (s : State) p => s.cutPacket p) s

/-- A running queue halts (R445, R448): `tcause` and `tval` are what its KIND 3 record carries, where it writes one. -/
def State.haltQueue (s : State) (fn q : Nat) (pos : BitVec 32) (reason : Nat) (tag : Word) (record : Bool)
    (tcause tval : Word) : State :=
  let r := s.queue fn q
  if r.state ≠ .running then s
  else
    let behind := fun (p : PacketRun) => !p.detached && decide ((pos - r.rd).toNat ≤ (p.pos - r.rd).toNat)
    let s := ((s.setQueue fn q { r with state := .halted, reason := reason, rd := pos }).detach fn q behind).writeRdm fn q
    let s := s.scrivener (queueSrc fn q) 6 pos.toNat reason
    if record then s.pushCq ⟨fn, q, 3, pos, [tag, tcause, tval], false, false⟩ else s

/-- A halt with a reason alone. -/
def State.haltReason (s : State) (fn q : Nat) (pos : BitVec 32) (reason : Nat) (tag : Word) (tval : Word) : State :=
  s.haltQueue fn q pos reason tag true (BitVec.ofNat 64 reason) tval

/-- A halt on a faulting front-end access (R448 reason 5). -/
def State.haltFault (s : State) (fn q : Nat) (pos : BitVec 32) (tag : Word) (t : TrapInfo) : State :=
  s.haltQueue fn q pos 5 tag true ((tcauseImage false false false 0 t).setWidth 64) t.tval

/-- The oldest record that waits in a queue is written, if its ring has room (R450). A fault in the write is recorded and
the record lost. -/
def State.writeCq (s : State) (fn q : Nat) : Option State :=
  match s.front.cqWait.find? fun c => c.fn == fn && c.queue == q with
  | none => none
  | some c =>
    let r := s.queue fn q
    if s.frontActs fn = false ∨ 2 ^ r.cqlogn ≤ (r.cqtail - r.cqhead).toNat then none
    else
      let at' := r.cqtail.toNat
      let phase := 1 - at' / 2 ^ r.cqlogn % 2
      let head := phase * 2 ^ 63 + c.kind % 128 * 2 ^ 48 + q % 64 * 2 ^ 32 + c.pkt.toNat
      let va := (r.cqbase + 128 * (at' % 2 ^ r.cqlogn)) % 2 ^ 64
      let bytes := bytesOfNat 8 head ++ (genFrom 15 0 fun i => bytesOfNat 8 (c.body.getD i 0).toNat).flatten
      let finish := fun (s : State) =>
        let s := { s with front := { s.front with cqWait := s.front.cqWait.erase c } }
        if c.ends then s.completePacket fn q c.pkt else s
      match s.frontRun fn q (frontWrite va bytes) with
      | (.waits .., s') => s.waitNews s' fn q
      | (.trapped f, s') =>
        some (finish (s'.scrivener (queueSrc fn q) 5 va (tcauseImage false false false 0 f).toNat))
      | (.done _, s') =>
        let s' := s'.setQueue fn q { r with cqtail := r.cqtail + 1 }
        let raise := r.ie && (r.cqtail == r.cqhead || c.kind == 2 || c.kind == 3 || c.kind == 5 || c.irq)
        some (finish (if raise then s'.raiseMsi fn r.vec else s'))

/-- COMPLETION_RECORD_WRITE (R450). -/
def execCompletionRecordWrite (fn q : Nat) (s : State) := eventOpt (fun s => s.writeCq fn q) s

/-- CQHEAD_WRITE (R450): a write that leaves records raises the vector. -/
def execCqheadWrite (fn q head : Nat) (s : State) : Host.Outcome State Fault Refusal :=
  let r := s.queue fn q
  let h := BitVec.ofNat 32 head
  let s := s.setQueue fn q { r with cqhead := h }
  .next (if r.ie && h != r.cqtail then s.raiseMsi fn r.vec else s)

end Sys2Proof.Machine
end

