-- ==== Sys2Proof/Machine/Gangs.lean ====
section
/-! DEFINITION. Orders and their grants (R486, R487), gangs and strands: placement (R45 to R49, R452), retirement (R51),
pre-emption and resumption (R46), the two context banks (R53, R54), and the drain before a scalar trap (R196). -/

namespace Sys2Proof.Machine

/-! ## Grant tables (R486, R487) -/

/-- Gangs of an order. -/
def OpRec.total (op : OpRec) : Nat := op.nx * op.ny * op.nz

/-- A grant table entry from its 32 bytes. -/
def grantOf (x : Nat) : Grant :=
  ⟨bits x 32 32, bits x 26 4, bits x 24 2, bits x 20 4, bits x 8 12, bits x 0 8, bits x 96 12, bits x 64 32, bits x 128 64⟩

/-- The entry's reserved bits are zero and its fields in range (R486, R487). -/
def Grant.legal (g : Grant) (op : OpRec) (world x : Nat) : Bool :=
  let noRecv := g.hg == 0 && g.flag == 0 && g.mem == 0
  bits x 30 2 == 0 && bits x 108 20 == 0 && bits x 192 64 == 0 && g.kind ≤ 3 &&
    (match g.kind with
    | 0 => noRecv && g.ncon == 0
    | 1 => noRecv && g.ncon == 0 && g.base == 0 && 1 ≤ g.len && g.chip != 0xFFF
    | 2 => g.flag != 3 && g.ncon == 0 && 1 ≤ g.len && decide (g.mem < op.size) && decide (g.base + g.len ≤ op.spad * 65536)
    | _ => noRecv && 2 ≤ g.ncon && g.ncon ≤ 4095 && 1 ≤ g.len && g.base % 64 == 0 && g.chip != 0xFFF && world == 0)

/-- A window's pages, translated once (R494), or none where one fails R487: a write is permitted too, though none is made yet. -/
def windowPages (va n : Nat) : M (Option (List HeldPage)) := do
  let slot := (← getSt).place.slot
  let first := va / 65536
  let count := (va + n - 1) / 65536 - first + 1
  let rs ← collectM (genFrom count first id) fun p => do
    let a := p * 65536
    let r ← attempt do
      let _ ← mapAccess 7 slot a .read
      let l ← locate 7 slot a .update
      l.ready
      return l.m
    match r with
    | .done m =>
      return (if ((← get).sealAt m.pa).1 = 0 then some ⟨slot, a, m.pa, m.fn, if m.two then some m.ipa else none⟩ else none)
    | .trapped _ => return none
    | .waits g va => waitM 7 (missAt g va)
  return (if rs.all Option.isSome then some (rs.filterMap fun x => x) else none)

/-- Two window entries of one KEY agree (R487). -/
def Grant.agrees (g h : Grant) : Bool :=
  g.kind != 3 || h.kind != 3 || g.key != h.key || (g.chip == h.chip && g.ncon == h.ncon && g.len == h.len)

/-- Read and check the entries of a grant table from entry `i`, behind those of `before`: the entries with their windows' pages, or the
address of the first faulty one. -/
def checkGrants (op : OpRec) (world table : Nat) : Nat → Nat → List Grant → M (Sum Nat (List (Grant × List HeldPage)))
  | 0, _, _ => return .inr []
  | n + 1, i, before => do
    let va := table + 64 + 32 * i
    let x ← frontNat va 32
    let g := grantOf x
    let s ← get
    let clash := g.kind == 2 && s.front.orders.any fun o => o.grants.any fun h => h.kind == 2 && h.key == g.key
    let disagrees := (g.kind == 3 && !s.agrees g.key g.chip g.ncon g.len) || before.any fun h => !g.agrees h
    if !g.legal op world x || clash || disagrees then return .inl va
    let pages ← if g.kind = 3 then windowPages g.base g.len else pure (some [])
    match pages with
    | none => return .inl va
    | some ps =>
      match ← checkGrants op world table n (i + 1) (before ++ [g]) with
      | .inl va => return .inl va
      | .inr rest => return .inr ((g, ps) :: rest)

/-- Read an order's grant table (R486, R487). -/
def readGrants (op : OpRec) (world : Nat) : M (Sum Nat (List (Grant × List HeldPage))) := do
  let table := op.grant.toNat
  if table % 64 ≠ 0 then return .inl table
  let h ← frontNat table 64
  let n := bits h 0 8
  if n = 0 ∨ 64 < n ∨ h / 256 ≠ 0 then return .inl table
  if (← get).fabric.chip = 0xFFF then return .inl (table + 64)
  checkGrants op world table n 0 []

/-- Register the windows of an order that has passed (R492). -/
def State.registerGrants (s : State) (order : Nat) (gs : List (Grant × List HeldPage)) : State :=
  (gs.filter fun g => g.1.kind == 3).foldl (fun (s : State) g =>
    let s := (s.registerWindow g.1.key g.1.chip g.1.ncon g.1.len (some order)).getD s
    if g.1.chip = s.fabric.chip then s.openWindow g.1.key g.1.chip order g.1.base g.2 else s) s

/-! ## Orders (R49 to R52, R456) -/

/-- A front-end access of a packet faulted (R448): its queue halts, with RD behind the packet once an operator has run. -/
def State.failPacket (s : State) (p : PacketRun) (ran : Bool) (t : TrapInfo) : State :=
  let pos := if ran then p.pos + BitVec.ofNat 32 p.len else p.pos
  let s := (s.haltFault p.fn p.queue pos p.tag t).setPacket p.fn p.queue p.pos fun p => { p with dead := true, detached := true }
  if p.order.isNone then s.completePacket p.fn p.queue p.pos else s

/-- No strand is placed from the queue, and no order launched: a check of R446 has failed and no enable has passed since, or its
context is another function's now; or its function, or the device, is paused (R480, R525). -/
def State.queueShut (s : State) (fn q : Nat) : Bool := (s.queue fn q).barred || !s.ctxOk fn q || !s.frontActs fn

/-- Start the order of a packet's next operator, if it has none (R451, R487). -/
def State.launchNext (s : State) (p : PacketRun) : Option State :=
  match p.order, p.ops[p.nextOp]? with
  | none, some rec' =>
    if p.dead || p.done || s.queueShut p.fn p.queue then none
    else
      let op := if rec'.step then { rec' with args := p.args.getD 3 0 } else rec'
      let place := s.frontPlace p.fn p.queue
      let add := fun (s : State) (err : Option KillRec) (gs : List (Grant × List HeldPage)) =>
        let o : Order :=
          { id := s.front.nextOrder, fn := p.fn, queue := p.queue, pkt := p.pos, slot := place.slot, world := place.world
            op := op, nextGang := if err.isSome then op.total else 0, err := err, grants := gs.map Prod.fst }
        let s := s.setPacket p.fn p.queue p.pos fun p => { p with order := some o.id, nextOp := p.nextOp + 1 }
        ({ s with front := { s.front with orders := s.front.orders ++ [o], nextOrder := s.front.nextOrder + 1 } }).registerGrants
          o.id gs
      if op.grant = 0 ∨ op.total = 0 then some (add s none [])
      else
        match s.frontRun p.fn p.queue (readGrants op place.world) with
        | (.waits .., s') => s.waitNews s' p.fn p.queue
        | (.trapped f, s') => some (s'.failPacket p (decide (0 < p.nextOp) || decide (0 < p.stepNo)) f)
        | (.done (.inl va), s') =>
          let t : TrapInfo := ⟨.page, 3, BitVec.ofNat 64 va⟩
          some (add s' (some ⟨(tcauseImage false false false 0 t).toNat, t.tval, [], 0, 0, 0, 0⟩) [])
        | (.done (.inr gs), s') => some (add s' none gs)
  | _, _ => none

/-- The order has no gang left to place or to end. -/
def State.orderOver (s : State) (o : Order) : Bool :=
  (o.err.isSome || decide (o.op.total ≤ o.nextGang)) && !(s.front.gangs.any fun g => g.order == o.id)

/-- An order retires, or ends in error (R51, R456): what its packet does next. -/
def State.endOrder (s : State) (o : Order) : State :=
  let s := s.closeWindowsOf o.id
  let s := { s with front := { s.front with orders := s.front.orders.filter fun x => x.id != o.id } }
  match s.front.packets.find? fun p => p.order == some o.id with
  | none => s
  | some p =>
    let s := s.setPacket p.fn p.queue p.pos fun p => { p with order := none }
    let after := p.pos + BitVec.ofNat 32 p.len
    match o.err with
    | some k =>
      let s := s.pushCq ⟨p.fn, p.queue, 2, p.pos, k.body p.tag, false, false⟩
      if p.dead then s.completePacket p.fn p.queue p.pos
      else if p.kind = 5 then s.setPacket p.fn p.queue p.pos fun p => { p with failed := true, nextOp := p.ops.length }
      else
        let s := (s.haltQueue p.fn p.queue after 0 p.tag false 0 0).setPacket p.fn p.queue p.pos fun p => { p with detached := true }
        s.completePacket p.fn p.queue p.pos
    | none =>
      if p.dead then s.completePacket p.fn p.queue p.pos
      else if p.kind = 5 ∨ p.nextOp < p.ops.length then s
      else s.endPacket p

/-- End the orders that are over, and launch what follows them; the number bounds the orders. -/
def State.settleOrders (s : State) : Nat → State
  | 0 => s
  | n + 1 =>
    match s.front.orders.find? s.orderOver with
    | none => s
    | some o =>
      let s' := s.endOrder o
      let s'' := match s'.front.packets.find? fun p => p.isAt o.fn o.queue o.pkt && !p.done with
        | some p => (s'.launchNext p).getD s'
        | none => s'
      s''.settleOrders n

/-- End what is over: the bound passes every operator of every packet. -/
def State.settle (s : State) : State :=
  s.settleOrders (s.front.orders.length + (s.front.packets.map fun p => p.ops.length).sum)

/-! ## Tiles (R45, R53) -/

/-- The strands resident on a tile. -/
def State.residents (s : State) (die tile : Nat) : List Strand := (s.st :: s.others).filter fun t => t.residentOn die tile

/-- A die's tiles that a partition may use: those not fenced (R519). -/
def State.usableTiles (s : State) (part die : Nat) : List Nat :=
  (genFrom Config.tilesPerDie 0 id).filter fun i => (s.part part).cfg.holds die i Config.tilesPerDie && !s.isFenced die i

/-- A bank of a tile that can take a context with its needs (R53); a Draper pass holds an accumulator (R371). -/
def State.freeBank (s : State) (die tile spad accs : Nat) : Option Nat :=
  let rs := s.residents die tile
  let pass := if (s.draper die).passes.any fun p => p.tile == some tile then 1 else 0
  if 2 ≤ rs.length ∨ 32 < (rs.map Strand.spadUnits).sum + spad ∨ 8 < (rs.map fun t => t.mat.accs.length).sum + accs + pass then none
  else if rs.any fun t => t.place.bank == 0 then some 1 else some 0

/-- Tiles of one die, with their banks, for the members of a gang (R45): tiles with no resident strand come first (log 2). -/
def State.fitGang (s : State) (part die size spad accs : Nat) : Option (List (Nat × Nat)) :=
  let fits := (s.usableTiles part die).filterMap fun i => (s.freeBank die i spad accs).map fun b => (i, b)
  let (empty, shared) := fits.partition fun x => (s.residents die x.1).isEmpty
  if size ≤ fits.length then some ((empty ++ shared).take size) else none

/-- Strands of a function may be placed or resumed (R474 to R476, R480, R525, R527). -/
def State.mayPlace (s : State) (fn : Nat) : Bool :=
  let p := s.part (s.fn fn).part
  s.fnEnabled fn && p.released && !p.busy && (s.fn fn).migState == 0 && !(s.fn fn).rbusy && s.svc.ckptState == 0

/-! ## Placement (R45 to R49, R452) -/

/-- The lowest numbers that a list does not hold. -/
def freeNumbers (n bound : Nat) (used : List Nat) : List Nat := ((genFrom bound 0 id).filter fun i => !used.contains i).take n

/-- The gangs of a queue. -/
def State.gangsOf (s : State) (fn q : Nat) : List GangInfo :=
  s.front.gangs.filter fun g => s.front.orders.any fun o => o.id == g.order && o.fn == fn && o.queue == q

/-- The argument block of a gang (R48, R161). -/
def argBlock (op : OpRec) (gx gy gz : Nat) (argv : List Byte) : List Byte :=
  bytesOfNat 4 gx ++ bytesOfNat 2 gy ++ bytesOfNat 2 gz ++ bytesOfNat 1 op.size ++ bytesOfNat 3 0 ++ bytesOfNat 4 op.nx ++
    bytesOfNat 2 op.ny ++ bytesOfNat 2 op.nz ++ bytesOfNat 4 0 ++ bytesOfNat 8 op.args.toNat ++ argv ++ List.replicate 32 0

/-- Write an argument block by the front end's own path (R452): R = 1 is required, W and WRO are ignored. It is a write for R278,
R293 and R356. -/
def writeArgs (op : OpRec) (va gx gy gz : Nat) : M Unit := do
  let argv ← if op.argv = 0 then pure (List.replicate 64 0) else frontRead op.argv.toNat 64
  let ls ← frontLocate va 128 .args
  putPieces ls (argBlock op gx gy gz argv)

/-- An accumulator at placement (R326). -/
def Acc.fresh (slot : Nat) : Acc := ⟨Vector.replicate 256 ⟨Vector.replicate 64 0, BitVec.ofNat 12 slot, false⟩, 0⟩

/-- A member at placement (R48, R452). -/
def placedStrand (p : Place) (op : OpRec) (r : QueueRec) (kstep : Bool) (stack args : Word) (life : Life) : Strand :=
  let t := Strand.fresh p
  { t with
    life := life
    regs := vput (vput t.regs 2 stack) 3 args
    pc := op.entry
    csr := { t.csr with privl := r.privl, hangto := r.hangto, kstep := kstep }
    mat := { t.mat with accs := List.replicate op.accs (Acc.fresh p.slot) }
    spadUnits := op.spad }

/-- A context that comes to a tile is active where no other is (R53). -/
def State.lifeOn (s : State) (die tile : Nat) : Life :=
  let bank := (s.tileAt (die * Config.tilesPerDie + tile)).bank
  if (s.residents die tile).any fun t => t.life == .active || (t.life == .parked && t.place.bank == bank) then .residentIdle
  else .active

/-- A context comes into a bank of a tile: nothing that the tile caches is valid for it (R67, R82). -/
def State.arrive (s : State) (p : Place) : State := s.trimTile p.tileKey fun c => c.invalid p.bank true true

/-- Strands come to their tiles; where one is active at once, the engines enter its world (R499). -/
def State.arriveAll (s : State) (ts : List Strand) : State :=
  ts.foldl (fun s t =>
    let s := s.arrive t.place
    if t.life = .active then s.takeTile t.place else s) s

/-- Place the next gang of an order on a die, if it fits there (R45, R49): in the context that its queue names now, and that context's
world (R452, R498). Its strands take the lowest free argument slot and stack areas: DESIGN CHOICE, R452 asks for free ones alone
(log 33). -/
def State.placeGang (s : State) (order die : Nat) : Option State :=
  match s.order order with
  | none => none
  | some o =>
    let part := (s.fn o.fn).part
    let q := s.queue o.fn o.queue
    let mine := s.gangsOf o.fn o.queue
    let op := o.op
    let place := s.frontPlace o.fn o.queue
    let slots := freeNumbers 1 1024 (mine.map GangInfo.argSlot)
    let areas := freeNumbers op.size 1024 (mine.flatMap GangInfo.areas)
    if o.err.isSome || decide (op.total ≤ o.nextGang) || !s.mayPlace o.fn || s.queueShut o.fn o.queue then none
    else
      match s.fitGang part die op.size op.spad op.accs, slots with
      | some tiles, slot :: _ =>
        if areas.length < op.size then none
        else
          let gx := o.nextGang % op.nx
          let gy := o.nextGang / op.nx % op.ny
          let gz := o.nextGang / (op.nx * op.ny)
          let va := q.argbase.toNat + 128 * slot
          match s.frontRun o.fn o.queue (writeArgs op va gx gy gz) with
          | (.waits .., s') => s.waitNews s' o.fn o.queue
          | (.trapped f, s') =>
            let stop := { s' with front := { s'.front with
              orders := s'.front.orders.map fun (x : Order) => if x.id = o.id then { x with nextGang := op.total } else x } }
            some (match s'.front.packets.find? fun p => p.order == some o.id with
              | some p => (stop.failPacket p (decide (1 < p.nextOp) || decide (0 < p.stepNo) || decide (0 < o.nextGang)) f).settle
              | none => stop.settle)
          | (.done _, s') =>
            let g := s'.front.nextGang
            let members := ((tiles.zip areas).zip (genFrom op.size 0 id)).map fun x =>
              let p : Place :=
                { order := o.id, gang := g, member := x.2, size := op.size, fn := o.fn, slot := place.slot, world := place.world
                  part := part, die := die, tile := x.1.1.1, bank := x.1.1.2 }
              placedStrand p op q (s'.part part).cfg.kstep
                (BitVec.ofNat 64 (q.stkbase.toNat + (x.1.2 + 1) * q.stkarea * 65536)) (BitVec.ofNat 64 va)
                (s'.lifeOn die p.tile)
            let taken := tiles.map fun t => die * Config.tilesPerDie + t.1
            let next := (s'.front.packets.find? fun p => p.order == some o.id).bind fun p => p.ops[p.nextOp]?
            let shadows := (s'.front.shadows.filter fun x => !taken.contains x.1) ++
              (match next with | some n => taken.map fun t => (t, n) | none => [])
            let u := s'.arriveAll members
            some { u with
              others := u.others ++ members
              front := { s'.front with
                gangs := s'.front.gangs ++ [⟨g, o.id, gx, gy, gz, op.size, slot, areas, false, 0, none, none, false⟩]
                orders := s'.front.orders.map fun (x : Order) =>
                  if x.id = o.id then { x with nextGang := x.nextGang + 1, slot := place.slot, world := place.world } else x
                nextGang := g + 1
                shadows := shadows } }
      | _, _ => none

/-! ## Pre-emption and resumption (R46, R235, R304, R323, R353, R395) -/

/-- A word of engine `e` that waits on a page request, as it is saved (R291): attention words and those of the cache-context
engine but `k.wr` are withdrawn, and begin again (R395, R418); any other keeps its progress. -/
def Entry.recalled (x : Entry) (e : Nat) : Entry :=
  let whole := e == 5 || (e == 6 && (match x.word with | .kWr .. => false | _ => true))
  match x.prog.wait with
  | some (7, _) => if whole then { x with prog := Progress.fresh } else { x with prog := { x.prog with wait := none } }
  | _ => x

/-- The queues with the words that wait on page requests recalled. -/
def Strand.recall (t : Strand) : Strand :=
  [1, 2, 3, 4, 5, 6].foldl (fun t e => t.setQueue e ((t.queue e).map fun x => x.recalled e)) t

/-- A member's context as it is saved: registers and rows that were dirty are stored. An access that waited on a page request
is unperformed, and translates again when the strand resumes, whether an answer has come or not (R291). -/
def Strand.saved (t : Strand) : Strand :=
  let t := t.recall
  { t with
    life := .saved, turn := 0, stall := 0, pageWaits := [], pageAnswers := []
    vec := { t.vec with dirty := 0 }
    mat := { t.mat with accs := t.mat.accs.map fun a => { a with rows := a.rows.map fun r => { r with dirty := false } } } }

/-- An entry of a strand that a stop performs first where KSTEP = 0 (R352): a matrix word that has started, or a word that holds
scratchpad bytes which one may await (R80). -/
def Strand.firstToFinish (t : Strand) : Option (Nat × Nat × Entry) :=
  [2, 1, 3, 4, 5, 6].findSome? fun e =>
    (genFrom (t.queue e).length 0 id).findSome? fun j =>
      match (t.queue e)[j]? with
      | some x =>
        if (e == 2 && x.mustFinish) || (!x.prog.locks.isEmpty && !x.remote e) then
          match t.nestOf e j with
          | some k => ((t.queue e)[k]?.bind fun l => t.bodyWord e k (l.bodyNo (j - k - 1))).map fun y => (e, y.1, y.2)
          | none => some (e, j, x)
        else none
      | none => none

/-- Perform the matrix words of the current strand that have started, as a stop with KSTEP = 0 does, with the words in progress
that they await (R352); the number bounds the tries. -/
def State.finishMatrix (s : State) : Nat → State
  | 0 => s
  | n + 1 =>
    if s.st.matrixRuns then
      match s.st.firstToFinish with
      | some (e, j, x) => (match s.goWord e j x with
        | .on s' => s'.finishMatrix n
        | .held s' news => if news then s'.finishMatrix n else s)
      | none => s
    else s

/-- Make a strand of the others the current one. -/
def State.select (s : State) (gang member : Nat) : State :=
  match s.others.find? fun t => t.place.gang == gang && t.place.member == member with
  | none => s
  | some t =>
    let rest := s.others.filter fun u => !(u.place.gang == gang && u.place.member == member)
    { s with st := t, others := if s.st.life = .gone then rest else rest ++ [s.st] }

/-- The tries that the matrix words of a strand may take before it stops. -/
def Strand.stopTries (t : Strand) : Nat := 64 * (t.entryCount + 1)

/-- Members of a gang whose matrix words a stop performs (R352) do so, each as the current strand. -/
def State.finishGang (s : State) (gang : Nat) : State :=
  let runs := (s.st :: s.others).filter fun t => t.place.gang == gang && t.life == .active && t.matrixRuns
  if runs.isEmpty then s
  else
    let p := s.st.place
    (runs.foldl (fun s t =>
      let s := s.select t.place.gang t.place.member
      s.finishMatrix s.st.stopTries) s).select p.gang p.member

/-- Pre-empt a gang as a unit (R46), once its matrix words that have started are performed where KSTEP = 0 (R352). -/
def State.preempt (s : State) (gang : Nat) : State :=
  if s.front.gangs.any fun g => g.id == gang && !g.saved && g.hung.isNone then
    let s := s.finishGang gang
    let save := fun t : Strand => if t.place.gang = gang ∧ t.life ≠ .gone then t.saved else t
    let members := ((s.st :: s.others).filter fun t => t.place.gang == gang).map fun t => t.place.member
    let s := members.foldl (fun s m => s.withdraw gang m) s
    { s with
      st := save s.st
      others := s.others.map save
      front := { s.front with gangs := s.front.gangs.map fun (g : GangInfo) => if g.id = gang then { g with saved := true, stall := 0 } else g } }
  else s

/-- An `m.ldw` under way begins again, where a bank that it loads is no more the one it wrote (R325; log 27). -/
def Entry.reloads (x : Entry) : Entry :=
  match x.word with
  | .mLdw .. => { x with prog := { x.prog with count := 0 } }
  | _ => x

/-- A member moves to a tile: the load records of banks that are not where they were are stale (R323). -/
def Strand.movedTo (t : Strand) (die : Nat) (tiles : List (Nat × Nat)) (moved : List Nat) (life : Nat → Life) : Strand :=
  match tiles[t.place.member]? with
  | none => t
  | some (tile, bank) =>
    let t := if moved.isEmpty then t else t.setQueue 2 ((t.queue 2).map Entry.reloads)
    { t with
      place := { t.place with die := die, tile := tile, bank := bank }
      life := life tile
      mat := { t.mat with loads := t.mat.loads.map fun l => if moved.contains l.member then { l with stale := true } else l } }

/-- Resume a saved gang on a die (R46). -/
def State.resumeGang (s : State) (gang die : Nat) : Option State :=
  match s.front.gangs.find? fun g => g.id == gang && g.saved with
  | none => none
  | some g =>
    let members := (s.st :: s.others).filter fun t => t.place.gang == gang && t.life == .saved
    match members with
    | [] => none
    | t :: _ =>
      let need := members.foldl (fun n m => max n m.spadUnits) 0
      let accs := members.foldl (fun n m => max n m.mat.accs.length) 0
      if !s.mayPlace t.place.fn then none
      else
        match s.fitGang t.place.part die g.size need accs with
        | none => none
        | some tiles =>
          let moved := members.filterMap fun m =>
            match tiles[m.place.member]? with
            | some (i, _) => if m.place.die = die ∧ m.place.tile = i then none else some m.place.member
            | none => none
          let put := fun t : Strand =>
            if t.place.gang = gang ∧ t.life = .saved then t.movedTo die tiles moved fun _ => .residentIdle else t
          let u := s.arriveAll (members.map put)
          some { u with
            st := put u.st
            others := u.others.map put
            front := { s.front with gangs := s.front.gangs.map fun (x : GangInfo) => if x.id = gang then { x with saved := false } else x } }

/-! ## The two banks (R53, R54, R499) -/

/-- The strand of a gang and member becomes the active one of its tile (R54, R499). -/
def State.activate (s : State) (gang member : Nat) : State :=
  match (s.st :: s.others).find? fun t => t.place.gang == gang && t.place.member == member && t.life == .residentIdle with
  | none => s
  | some t =>
    let p := t.place
    let s := s.takeTile p
    let turn := fun u : Strand =>
      if u.place.gang = gang ∧ u.place.member = member ∧ u.life = .residentIdle then
        { u with life := .active, turn := 0, barred := false }
      else if u.residentOn p.die p.tile ∧ u.life = .active then { u with life := .residentIdle, turn := 0 }
      else u
    { s with st := turn s.st, others := s.others.map turn }

/-- The current strand's gang is hung: the front end has stopped its members (R464). -/
def State.stoppedGang (s : State) : Bool := s.front.gangs.any fun g => g.id == s.st.place.gang && g.hung.isSome

/-- Engine `e` of the current strand may work (R54, R55, R290): every engine where the strand has its tile; where it is resident
without it, those of remote units, which start no word then; none of a hung gang (R464). -/
def State.engineMoves (s : State) (e : Nat) : Bool :=
  !s.stoppedGang && (s.hasTile || (decide (4 ≤ e) && (s.st.life == .parked || s.st.life == .residentIdle)))

/-- The other bank of the current strand's tile holds a strand that can run. Every resident strand that is not parked counts,
one that stands in a wait as well: DESIGN CHOICE, R54 does not say which can run (log 32). -/
def State.rival (s : State) : Option Strand :=
  let p := s.st.place
  s.others.find? fun t => t.residentOn p.die p.tile && t.life == .residentIdle

/-- The strand stands in a wait of R54: of its scalar core, or of a word of an engine. -/
def Strand.inWait (t : Strand) : Bool :=
  let counts := fun (w : Option (Nat × Nat)) => match w with | some (k, _) => decide (1 ≤ k ∧ k ≤ 6) | none => false
  counts t.waiting || t.queues.toList.any fun q => q.any fun x => counts x.prog.wait

/-- R54: the current strand has parked, has stood in a wait for more than 1,024 cycles, or its turn is over. -/
def Strand.yields (t : Strand) : Bool :=
  t.life == .parked || (t.life == .active && ((t.inWait && decide (1024 < t.stall)) || decide (262144 ≤ t.turn)))

/-- The tile of the current strand switches to its other bank, if that can run, once the matrix words that have started are
performed where KSTEP = 0 (R352). -/
def State.switchBank (s : State) : Option State :=
  (s.rival).map fun t =>
    let s := if s.hasTile then s.finishMatrix s.st.stopTries else s
    (s.activate t.place.gang t.place.member).select t.place.gang t.place.member

/-! ## Drain and retirement (R51, R196) -/

/-- Some engine of the strand, or a remote unit, holds a word that may still be performed without the splitter: it waits
on a page, a version or the Fuller (R196 step 5). -/
def Strand.heldElsewhere (t : Strand) : Bool :=
  [1, 2, 3, 4, 5, 6].any fun e => t.mayRun e && (t.queue e).any fun x =>
    t.beforeFault e x && (match x.prog.wait with | some (k, _) => k == 6 || k == 7 || k == 8 | none => false)

/-- The fault of the lowest engine code. -/
def lowestFault (f : Nat × TrapInfo) (rest : List (Nat × TrapInfo)) : Nat × TrapInfo :=
  rest.foldl (fun a b => if b.1 < a.1 then b else a) f

/-- The drain of the current strand is over: its trap is taken (R196). The trap of an engine word is taken once no remote unit
holds a word of the strand (R198), and no matrix word that the stop performs can go on (R352). -/
def State.endDrain (s : State) : Option State :=
  match (if s.stoppedGang then none else s.st.pend) with
  | none => none
  | some p =>
    match p.faults with
    | [] => if s.st.drainEmpty then some (s.takeTrap p.addr p.addr false 0 p.info) else none
    | f :: rest =>
      let low := lowestFault f rest
      if p.stop then
        if s.st.remoteHolds || (s.st.matrixRuns && ([1, 2, 3, 4, 5, 6].findSome? fun e => s.moveEngine e).isSome) then none
        else some (s.takeTrap p.addr s.st.pc false low.1 low.2)
      else if s.st.heldElsewhere || (([1, 2, 3, 4, 5, 6].findSome? fun e => s.moveEngine e).isSome) then none
      else some (s.takeTrap p.addr p.addr true low.1 low.2)

/-- The current strand has retired: its gang and order retire with their last member (R51). -/
def State.retired (s : State) : State :=
  let g := s.st.place.gang
  let last := !(s.others.any fun u => u.place.gang == g)
  let t := s.st
  let s := { s with st := s.st.end }
  if last then { s with front := { s.front with gangs := s.front.gangs.filter fun x => x.id != g } }.settle
  else if t.place.member = 0 then
    -- the leader's limit goes on to hold (R464)
    { s with front := { s.front with gangs := s.front.gangs.map fun (x : GangInfo) =>
      if x.id = g then { x with leader := some (t.csr.hangto, t.place.part, t.place.die) } else x } }
  else s

/-- The current strand retires (R51): it closes at `.sys` first. A store of it that translates again (R194) may park the strand,
or trap at its `end`. -/
def State.retire (s : State) : Option State :=
  let t := s.st
  if t.ended && t.life == .active && t.drained && t.hold == .none && t.pend.isNone && !s.stoppedGang then
    match closeM 4 s with
    | .ok _ s' => some s'.retired
    | .error (.wait k g) s' =>
      let u := s'.holdUnit k g
      if u = s then none else some u
    | .error (.trap f) s' => some (s'.raise s'.st.pc f)
  else none

/-! ## Events -/

/-- Change the current strand's gang. -/
def State.modGang (s : State) (f : GangInfo → GangInfo) : State :=
  { s with front := { s.front with
    gangs := s.front.gangs.map fun g => if g.id = s.st.place.gang then f g else g } }

/-- A word of the current strand has been executed or performed: the stall of its gang, and its own wait, begin again (R54, R464). -/
def State.restarted (s : State) : State :=
  { (s.modGang fun g => { g with stall := 0 }) with st := { s.st with stall := 0 } }

/-- An event by which a word of the current strand goes on, where it can. -/
def wordEvent (f : State → Option State) : State → Host.Outcome State Fault Refusal :=
  eventOpt fun s => (f s).map State.restarted

/-- STEER_RESUME (R21, R22). -/
def execSteerResume (s : State) : Host.Outcome State Fault Refusal :=
  .next (if s.st.slip < s.st.csr.slipLimit then { s with st := { s.st with stalled := false } } else s)

/-- The entries before entry `k` of a queue, but for the words of open nests, let it start (R25); it is no word of a nest. -/
def Strand.mayOvertake (t : Strand) (e k : Nat) : Bool :=
  match (t.queue e)[k]? with
  | none => false
  | some y =>
    (t.nestOf e k).isNone && (genFrom k 0 id).all fun j =>
      (t.nestOf e j).isSome || (match (t.queue e)[j]? with
        | some x => t.letsPass e x y && (!x.isLoop || x.open)
        | none => false)

/-- Let entry `k` of engine `e` of the current strand move. -/
def State.moveEntry (s : State) (e k : Nat) : Option State :=
  if s.engineMoves e && s.st.mayRun e && s.st.mayOvertake e k then s.moveFrom e 1 k [] else none

/-- Let the first engine of the current strand that may work and can move do so; one in the scheduling mask starts no word by
itself (log 7). -/
def State.moveEngines (s : State) : Option State :=
  [1, 2, 3, 4, 5, 6].findSome? fun e => if s.st.lag.getLsbD (e - 1) || !s.engineMoves e then none else s.moveEngine e

/-- REMOTE_UNIT_REPORT (R14): entry `k` of the bank, attention or cache-context queue of the current strand. -/
def execRemoteUnitReport (e k : Nat) (s : State) :=
  wordEvent (fun s => if 4 ≤ e ∧ e ≤ 6 then s.moveEntry e k else none) s
/-- ENGINE_WORD_PERFORMED (R14): entry `k` of the vector, matrix or copy queue of the current strand. -/
def execEngineWordPerformed (e k : Nat) (s : State) :=
  wordEvent (fun s => if 1 ≤ e ∧ e ≤ 3 then s.moveEntry e k else none) s
/-- BANK_WAIT_SATISFIED (R302): the bank queue of the current strand. -/
def execBankWaitSatisfied (s : State) := wordEvent (fun s => if s.engineMoves 4 then s.moveEngine 4 else none) s
/-- VERSION_LOAD_TIMEOUT (R314, R317): parked loads whose time is over get VMISS. -/
def execVersionLoadTimeout (s : State) : Host.Outcome State Fault Refusal :=
  let s := s.expireVersions
  wordEvent (fun s => if s.engineMoves 4 then s.moveEngine 4 else none) s
/-- TASK_ACCEPT (R364, R365): the `m.tsub` at the head of the current strand's matrix queue goes on. -/
def execTaskAccept (s : State) :=
  wordEvent (fun s => match s.st.queue 2 with
    | x :: _ => (match x.word with | .mTsub .. => if s.engineMoves 2 then s.moveEngine 2 else none | _ => none)
    | [] => none) s
/-- TRAP_TAKEN (R196, R199). -/
def execTrapTaken (s : State) : Host.Outcome State Fault Refusal := .next (((s.endDrain).getD s).settle)
/-- GANG_PLACE (R45, R49, R452): the next gang of an order, on a die. -/
def execGangPlace (order die : Nat) (s : State) := eventOpt (fun s => s.placeGang order die) s
/-- GANG_PREEMPT (R46). -/
def execGangPreempt (gang : Nat) (s : State) : Host.Outcome State Fault Refusal := .next (s.preempt gang)
/-- GANG_RESUME (R46): a saved gang, on a die. -/
def execGangResume (gang die : Nat) (s : State) := eventOpt (fun s => s.resumeGang gang die) s
/-- STRAND_RETIRE (R51). -/
def execStrandRetire (s : State) : Host.Outcome State Fault Refusal := .next (((s.retire).getD s).settle)
/-- WAIT_SWITCH_TIMEOUT (R54): the current strand has waited for more than 1,024 cycles. -/
def execWaitSwitchTimeout (s : State) :=
  eventOpt (fun s => if s.st.life = .active ∧ s.st.inWait = true ∧ 1024 < s.st.stall then s.switchBank else none) s
/-- TURN_QUANTUM_EXPIRY (R54): the current strand has run 262,144 cycles in one turn. -/
def execTurnQuantumExpiry (s : State) :=
  eventOpt (fun s => if s.st.life = .active ∧ 262144 ≤ s.st.turn then s.switchBank else none) s

end Sys2Proof.Machine
end

