-- ==== Sys2Proof/Machine/Front.lean ====
section
/-! DEFINITION. The command front end (R442 to R456): enabling queues, kicks, and the packets of R447 but for the batch
step. -/

namespace Sys2Proof.Machine

/-! ## Queues (R443 to R446) -/

/-- The record fails R446: what that does when the queue is enabled. -/
def State.refuseEnable (s : State) (fn q reason : Nat) : State :=
  let r := s.queue fn q
  let s := (s.setQueue fn q { r with en := false, state := .off, reason := reason, barred := true }).detach fn q fun _ => true
  let s := s.scrivener (queueSrc fn q) 6 r.rd.toNat reason
  if r.ie then s.raiseMsi fn r.vec else s

/-- EN written 1 (R445, R446). Of a queue that runs after a reset of its partition though a check of R446 has failed, it makes the
checks anew. -/
def State.enableQueue (s : State) (fn q : Nat) : State :=
  let r := s.queue fn q
  if r.state = .running ∧ r.barred = false then s
  else if !s.ctxOk fn q then s.refuseEnable fn q 8
  else if !s.kickOk fn q then s.refuseEnable fn q 9
  else
    let wr := s.queueWr fn q
    let on := s.setQueue fn q { r with en := true, state := .running, barred := false }
    -- what stands in WR is no kick (R443)
    let on := { on with front := { on.front with seen := assocPut on.front.seen (fn * 64 + q) wr } }
    if r.state = .off ∧ wr ≠ r.rd then on.haltReason fn q r.rd 4 0 0 else on

/-- EN written 0 (R445): the orders that are launched run to retirement, and nothing more of the queue's packets starts. -/
def State.disableQueue (s : State) (fn q : Nat) : State :=
  (s.setQueue fn q { s.queue fn q with en := false, state := .off }).detach fn q fun _ => true

/-- The front end reads the queue's packets (R445, R446, R475, R476, R480, R525). -/
def State.queueReads (s : State) (fn q : Nat) : Bool :=
  let r := s.queue fn q
  let p := s.part (s.fn fn).part
  r.en && r.state == .running && !r.barred && s.fnEnabled fn && (s.fn fn).migState == 0 && !(s.fn fn).rbusy && p.released && !p.busy &&
    s.svc.ckptState == 0 && s.svc.boot == 7

/-! ## Operator records (R451, R454) -/

/-- The fields of an operator record. -/
def opOf (x : Nat) : OpRec :=
  { entry := BitVec.ofNat 64 x, nx := bits x 64 32, ny := bits x 96 16, nz := bits x 112 16, step := bit x 176
    stack := bits x 160 16, accs := bits x 144 8, spad := bits x 136 8, size := bits x 128 8
    args := BitVec.ofNat 64 (bits x 192 64), argv := BitVec.ofNat 64 (bits x 256 64), grant := BitVec.ofNat 64 (bits x 320 64) }

/-- The most usable tiles of a die of a partition (R45). -/
def State.mostTiles (s : State) (part : Nat) : Nat :=
  (genFrom 4 0 fun d => (s.usableTiles part d).length).foldl max 0

/-- A record fails R454; `batch` allows STEP = 1, with bytes 24 to 31 then reserved. -/
def opBad (batch : Bool) (most stkarea x : Nat) : Bool :=
  let op := opOf x
  bits x 177 15 != 0 || bits x 152 8 != 0 || x / 2 ^ 384 != 0 || op.entry.toNat % 4 != 0 || (op.step && (!batch || op.args != 0)) ||
    op.stack == 0 || decide (stkarea ≤ op.stack) || decide (8 < op.accs) || op.spad == 0 || decide (32 < op.spad) ||
    op.size == 0 || decide (16 < op.size) || decide (most < op.size)

/-- The first record that fails, by index. -/
def firstBad (f : Nat → Bool) : List Nat → Nat → Option Nat
  | [], _ => none
  | x :: rest, i => if f x then some i else firstBad f rest (i + 1)

/-! ## Packet headers (R447, R448) -/

/-- LEN of a kind: least and most. -/
def packetLen : Nat → Option (Nat × Nat)
  | 1 => some (2, 64)
  | 0 | 2 | 3 | 4 | 5 => some (1, 1)
  | _ => none

/-- Bytes 16 to 63 of a packet break R447 for their kind; `a` gives the 8-byte words from offset 16. -/
def packetFields (kind : Nat) (a : Nat → Nat) : Bool :=
  let zeroFrom := fun (k : Nat) => (genFrom (6 - k) k a).all fun w => w == 0
  match kind with
  | 0 | 1 => zeroFrom 0
  | 2 => zeroFrom 2 && a 0 % 8 == 0
  | 3 => zeroFrom 3 && a 0 % 8 == 0 && a 0 != 0 && decide (a 2 < 4)
  | 4 => zeroFrom 4 && a 0 % 8 == 0 && decide (a 3 < 4)
  | 5 => zeroFrom 4 && a 1 % 64 == 0 && a 3 % 64 == 0 && bits (a 2) 8 24 == 0 && decide (1 ≤ a 2 % 256 ∧ a 2 % 256 ≤ 63)
  | _ => true

/-- The reason for which a header halts its queue, the lowest that applies (R448). -/
def headerReason (logn x : Nat) : Option Nat :=
  let kind := bits x 0 8
  let len := bits x 8 8
  let range := match packetLen kind with | some (lo, hi) => decide (lo ≤ len ∧ len ≤ hi) | none => true
  if bits x 18 46 ≠ 0 ∨ packetFields kind (fun i => bits x (128 + 64 * i) 64) = false then some 1
  else if len = 0 ∨ 2 ^ logn < len ∨ range = false then some 2
  else if (packetLen kind).isNone then some 3
  else none

/-! ## Starting packets -/

/-- A packet that starts. -/
def packetRun (fn q : Nat) (pos : BitVec 32) (x : Nat) (ops : List OpRec) : PacketRun :=
  { fn := fn, queue := q, pos := pos, len := bits x 8 8, kind := bits x 0 8, tag := BitVec.ofNat 64 (bits x 64 64)
    cq := bit x 17, irq := bit x 16, args := genFrom 6 0 fun i => BitVec.ofNat 64 (bits x (128 + 64 * i) 64)
    ops := ops, nextOp := 0, order := none, stepNo := 0, admitted := [], inStep := false, armed := false, failed := false
    dead := false, done := false, detached := false }

/-- A packet joins those that run. -/
def State.addPacket (s : State) (p : PacketRun) : State :=
  { s with front := { s.front with packets := s.front.packets ++ [p] } }

/-- Every packet of the queue before this one has completed. -/
def State.earlierDone (s : State) (p : PacketRun) : Bool :=
  ((s.packetsOf p.fn p.queue).takeWhile fun x => x != p).all PacketRun.done

/-- Word `i` of a packet's bytes 16 to 63. -/
def PacketRun.arg (p : PacketRun) (i : Nat) : Nat := (p.args.getD i 0).toNat

/-- Perform a signal, if its time has come (R449). -/
def State.trySignal (s : State) (p : PacketRun) : Option State :=
  let add := bit (p.arg 2) 0
  if p.armed || (bit (p.arg 2) 1 && !s.earlierDone p) || !s.frontActs p.fn then none
  else
    let write : M Unit := do
      let slot := (← getSt).place.slot
      let m ← mapAccess 7 slot (p.arg 0) (if add then .bank else .write)
      if add then
        checkLine m.pa (p.arg 0)
        modify fun s => s.writeHomeNat m.pa 8 (s.mem.readNat m.pa 8 + p.arg 1)
      else modify fun s => s.writeHomeNat m.pa 8 (p.arg 1)
    match s.frontRun p.fn p.queue write with
    | (.waits .., s') => s.waitNews s' p.fn p.queue
    | (.trapped f, s') => some (s'.failPacket p (decide (0 < p.nextOp) || decide (0 < p.stepNo)) f)
    | (.done _, s') => some ((s'.setPacket p.fn p.queue p.pos fun p => { p with armed := true }).endPacket p)

/-- Complete a fence, if every earlier packet has completed (R453). -/
def State.tryFence (s : State) (p : PacketRun) : Option State :=
  if p.armed || !s.earlierDone p || !s.frontActs p.fn then none
  else
    let write : M Unit := if p.arg 0 = 0 then pure () else frontWrite (p.arg 0) (bytesOfNat 8 (p.arg 1))
    match s.frontRun p.fn p.queue write with
    | (.waits .., s') => s.waitNews s' p.fn p.queue
    | (.trapped f, s') => some (s'.failPacket p (decide (0 < p.nextOp) || decide (0 < p.stepNo)) f)
    | (.done _, s') =>
      let s' := s'.setQueue p.fn p.queue { s'.queue p.fn p.queue with fpos := p.pos + 1 }
      let s' := (s'.setPacket p.fn p.queue p.pos fun p => { p with armed := true }).pushCq
        ⟨p.fn, p.queue, 1, p.pos, [p.tag], p.irq, !p.cq⟩
      some (if p.cq then s'.pushCq ⟨p.fn, p.queue, 6, p.pos, [p.tag], p.irq, true⟩ else s')

/-- Carry a memory wait on: it stands at its home bank, and is over once its condition has held (R449, R302). -/
def State.tryWait (s : State) (p : PacketRun) : Option State :=
  if !s.frontActs p.fn then none
  else if p.armed then
    match s.bankWaits.find? fun b => b.isPacket p with
    | some b =>
      if b.hit || b.holds (s.mem.readNat b.pa 8) then
        some ({ s with bankWaits := s.bankWaits.filter fun b => !b.isPacket p }.endPacket p)
      else none
    -- its translation has been dropped (R194): it translates again
    | none => some (s.setPacket p.fn p.queue p.pos fun p => { p with armed := false })
  else
    let arm : M Unit := do
      let slot := (← getSt).place.slot
      let m ← mapAccess 7 slot (p.arg 0) .read
      checkLine m.pa (p.arg 0)
      modify fun s => { s with bankWaits := s.bankWaits ++
        [{ gang := frontGang, member := p.fn * 64 + p.queue, seq := p.pos.toNat, va := p.arg 0, slot := slot, fn := p.fn
           pa := m.pa, w := 8, cond := p.arg 3 % 4, y := p.arg 1, mask := p.arg 2, hit := false }] }
    match s.frontRun p.fn p.queue arm with
    | (.waits .., s') => s.waitNews s' p.fn p.queue
    | (.trapped f, s') => some (s'.failPacket p (decide (0 < p.nextOp) || decide (0 < p.stepNo)) f)
    | (.done _, s') => some (s'.setPacket p.fn p.queue p.pos fun p => { p with armed := true })

/-- The address of a unit of a queue's ring (R444). -/
def QueueRec.unitVa (r : QueueRec) (u : BitVec 32) : Nat := (r.base + 64 * (u.toNat % 2 ^ r.logn)) % 2 ^ 64

/-- Read the units of a packet behind its first. -/
def readUnits (r : QueueRec) (pos : BitVec 32) (len : Nat) : M (List Nat) :=
  collectM (genFrom (len - 1) 1 id) fun i => frontNat (r.unitVa (pos + BitVec.ofNat 32 i)) 64

/-- The header of the next packet of a queue, or the state after the queue has halted or waits instead (R444, R446, R448). -/
inductive NextPacket where
  | none
  | other (s : State)
  | ready (s : State) (pos : BitVec 32) (x : Nat)

/-- Look at the packet that comes next; `kick` says that a kick has been observed (R444). One at a position where a packet that was
cut short still runs starts once that has retired (log 73). -/
def State.nextPacket (s : State) (fn q : Nat) (kick : Bool) : NextPacket :=
  let r := s.queue fn q
  let holds := (s.packetsOf fn q).any fun p => !p.done && !p.detached && (p.kind == 2 || p.kind == 4 || p.kind == 5)
  if !s.queueReads fn q then .none
  else
    let wr := s.queueWr fn q
    let pos := s.nextPos fn q
    let filled := (wr - pos).toNat
    if 2 ^ r.logn < (wr - r.rd).toNat then (if kick then .other (s.haltReason fn q r.rd 4 0 0) else .none)
    else if holds || filled == 0 || decide (2 ^ r.logn < filled) || ((s.packetsOf fn q).any fun p => p.pos == pos && !p.done) then
      .none
    else if !s.ctxOk fn q then
      let s := s.haltQueue fn q pos 8 0 false 0 0
      let s := s.setQueue fn q { s.queue fn q with barred := true }
      .other (if r.ie then s.raiseMsi fn r.vec else s)
    else
      match s.frontRun fn q (frontNat (r.unitVa pos) 64) with
      | (.waits .., s') => match s.waitNews s' fn q with | some s' => .other s' | Option.none => .none
      | (.trapped f, s') => .other (s'.haltFault fn q pos 0 f)
      | (.done x, s') =>
        -- a packet is checked once its units are filled; one longer than the ring never is (R448)
        if filled < bits x 8 8 ∧ bits x 8 8 ≤ 2 ^ r.logn then .none
        else
          match headerReason r.logn x with
          | some reason => .other (s'.haltReason fn q pos reason (BitVec.ofNat 64 (bits x 64 64)) 0)
          | Option.none => .ready s' pos x

/-- Start a docket (R451, R454). -/
def State.startDocket (s : State) (fn q : Nat) (pos : BitVec 32) (x : Nat) : Option State :=
  let r := s.queue fn q
  let tag := BitVec.ofNat 64 (bits x 64 64)
  match s.frontRun fn q (readUnits r pos (bits x 8 8)) with
  | (.waits .., s') => s.waitNews s' fn q
  | (.trapped f, s') => some (s'.haltFault fn q pos tag f)
  | (.done us, s') =>
    match firstBad (opBad false (s'.mostTiles (s'.fn fn).part) r.stkarea) us 0 with
    | some i => some (s'.haltReason fn q pos 6 tag (BitVec.ofNat 64 i))
    | none =>
      let p := packetRun fn q pos x (us.map opOf)
      let s' := s'.addPacket p
      some ((s'.launchNext p).getD s').settle

/-! ## Events -/

/-- The front end observes a kick, while it reads the queue. -/
def State.kick (s : State) (fn q : Nat) : State :=
  if !s.queueReads fn q then s
  else
    let s := { s with front := { s.front with seen := assocPut s.front.seen (fn * 64 + q) (s.queueWr fn q) } }
    match s.nextPacket fn q true with
    | .other s' => s'
    | _ => s

/-- WR is not what the front end last observed: a kick has been performed since (R443). -/
def State.kicked (s : State) (fn q : Nat) : Bool := s.queueReads fn q && assoc s.front.seen (fn * 64 + q) 0 != s.queueWr fn q

/-- KICK (R443, R444, R448): the front end looks at what a kick has filled; a packet that is malformed halts the queue. -/
def execKick (fn q : Nat) (s : State) : Host.Outcome State Fault Refusal :=
  .next (s.kick fn q)
/-- KICK_REGISTER_WRITE (R443). -/
def execKickRegisterWrite (fn q value : Nat) (s : State) : Host.Outcome State Fault Refusal :=
  .next (if s.kickOk fn q then s.writeHomeNat ((s.queue fn q).kickpa * 64) 4 value else s)
/-- QUEUE_ENABLE (R445, R446). -/
def execQueueEnable (fn q : Nat) (s : State) : Host.Outcome State Fault Refusal := .next (s.enableQueue fn q)
/-- QUEUE_DISABLE (R445). -/
def execQueueDisable (fn q : Nat) (s : State) : Host.Outcome State Fault Refusal := .next (s.disableQueue fn q)

/-- Start the next packet of a queue where it is of a kind, or carry on one of that kind that waits. -/
def State.packetEvent (s : State) (fn q kind : Nat) (start : State → BitVec 32 → Nat → Option State)
    (go : State → PacketRun → Option State) : Option State :=
  match (s.packetsOf fn q).findSome? fun p => if p.kind = kind ∧ p.done = false then go s p else none with
  | some s' => some s'
  | none =>
    match s.nextPacket fn q false with
    | .ready s' pos x => if bits x 0 8 = kind then start s' pos x else none
    | .other s' => some s'
    | .none => none

/-- Start a packet that needs no more than its header. -/
def startPlain (go : State → PacketRun → Option State) (fn q : Nat) (s : State) (pos : BitVec 32) (x : Nat) : Option State :=
  let p := packetRun fn q pos x []
  let s := s.addPacket p
  some ((go s p).getD s)

/-- Carry on a no-op. -/
def State.noOp (s : State) (p : PacketRun) : Option State := some (s.endPacket p)

/-- NO_OP_PACKET (R447). -/
def execNoOpPacket (fn q : Nat) (s : State) :=
  eventOpt (fun s => s.packetEvent fn q 0 (startPlain State.noOp fn q) fun _ _ => none) s
/-- DOCKET_PACKET (R451, R454): a docket starts, or one launches its next operator. -/
def execDocketPacket (fn q : Nat) (s : State) :=
  eventOpt (fun s => s.packetEvent fn q 1 (fun s pos x => s.startDocket fn q pos x) fun s p => (s.launchNext p).map State.settle) s
/-- QUEUE_FENCE_PACKET (R453): a fence starts; FENCE_COMPLETE completes it. -/
def execQueueFencePacket (fn q : Nat) (s : State) :=
  eventOpt (fun s => s.packetEvent fn q 2 (startPlain (fun _ _ => none) fn q) fun _ _ => none) s
/-- FENCE_COMPLETE (R453). -/
def execFenceComplete (fn q : Nat) (s : State) :=
  eventOpt (fun s => (s.packetsOf fn q).findSome? fun p => if p.kind = 2 ∧ p.done = false then s.tryFence p else none) s
/-- SIGNAL_PACKET (R449). -/
def execSignalPacket (fn q : Nat) (s : State) :=
  eventOpt (fun s => s.packetEvent fn q 3 (startPlain State.trySignal fn q) State.trySignal) s
/-- MEMORY_WAIT_PACKET (R449): a memory wait starts, and stands at its home bank. -/
def execMemoryWaitPacket (fn q : Nat) (s : State) :=
  eventOpt (fun s => s.packetEvent fn q 4 (startPlain State.tryWait fn q) fun s p => if p.armed then none else s.tryWait p) s
/-- MEMORY_WAIT_SATISFIED (R449). -/
def execMemoryWaitSatisfied (fn q : Nat) (s : State) :=
  eventOpt (fun s => (s.packetsOf fn q).findSome? fun p => if p.kind = 4 ∧ p.done = false then s.tryWait p else none) s

end Sys2Proof.Machine
end

