-- ==== Sys2Proof/Machine/Xmss.lean ====
section
/-! DEFINITION. Verification of XMSS-SHAKE256_20_256 signatures (R510), as RFC 8391 and NIST SP 800-208 define them. The spec names the
standard and does not restate it (PRESUMED, log 72). -/

namespace Sys2Proof.Machine

/-- Bytes of a node, of a chain's value and of a seed. -/
abbrev Node := List (BitVec 8)

/-- A number in `n` bytes, the highest first. -/
def bigEndian (n x : Nat) : List (BitVec 8) := (bytesOfNat n x).reverse

/-- The hash functions of SP 800-208, by number: 0 F, 1 H, 2 for messages, 3 the pseudorandom one. -/
def xmssHash (k : Nat) (key msg : List (BitVec 8)) : Node := shakeBytes (bigEndian 32 k ++ key ++ msg) 32

/-- XOR of two nodes. -/
def xorNode (a b : Node) : Node := List.zipWith (· ^^^ ·) a b

/-- A hash address: the type, its three words and what is asked for: 0 the key, 1 and 2 the masks. Layer and tree are zero. -/
def xmssAddr (kind a b c mask : Nat) : List (BitVec 8) :=
  bigEndian 12 0 ++ bigEndian 4 kind ++ bigEndian 4 a ++ bigEndian 4 b ++ bigEndian 4 c ++ bigEndian 4 mask

/-- The pseudorandom node of an address. -/
def xmssPrf (seed : Node) (addr : List (BitVec 8)) : Node := xmssHash 3 seed addr

/-- `n` steps of chain `j` of leaf `leaf`, from step `i` on. -/
def wotsChain (seed : Node) (leaf j : Nat) : Nat → Nat → Node → Node
  | 0, _, x => x
  | n + 1, i, x =>
    wotsChain seed leaf j n (i + 1)
      (xmssHash 0 (xmssPrf seed (xmssAddr 0 leaf j i 0)) (xorNode x (xmssPrf seed (xmssAddr 0 leaf j i 1))))

/-- The digits of a message digest, high half of each byte first, and those of their checksum. -/
def wotsDigits (digest : Node) : List Nat :=
  let ds := digest.flatMap fun b => [b.toNat / 16, b.toNat % 16]
  let c := (ds.map fun d => 15 - d).sum
  ds ++ [c / 256 % 16, c / 16 % 16, c % 16]

/-- The ends of the chains from `j` on, from what a signature reveals of them. -/
def wotsEnds (seed : Node) (leaf : Nat) : Nat → List Nat → List Node → List Node
  | j, d :: ds, x :: xs => wotsChain seed leaf j (15 - d) d x :: wotsEnds seed leaf (j + 1) ds xs
  | _, _, _ => []

/-- The hash of two nodes at an address. -/
def treeHash (seed : Node) (kind a b c : Nat) (l r : Node) : Node :=
  xmssHash 1 (xmssPrf seed (xmssAddr kind a b c 0))
    (xorNode l (xmssPrf seed (xmssAddr kind a b c 1)) ++ xorNode r (xmssPrf seed (xmssAddr kind a b c 2)))

/-- One level of the tree over the ends of a leaf's chains, from node `i` on; an odd node goes up as it is. -/
def leafLevel (seed : Node) (leaf height : Nat) : Nat → List Node → List Node
  | i, l :: r :: rest => treeHash seed 1 leaf height i l r :: leafLevel seed leaf height (i + 1) rest
  | _, rest => rest

/-- The node above all of them; the number bounds the levels. -/
def leafRoot (seed : Node) (leaf : Nat) : Nat → Nat → List Node → Node
  | 0, _, ns => ns.headD []
  | n + 1, height, ns => leafRoot seed leaf n (height + 1) (leafLevel seed leaf height 0 ns)

/-- The root above node `i` of a height, by the nodes beside its path. -/
def treeRoot (seed : Node) : Nat → Nat → Node → List Node → Node
  | _, _, x, [] => x
  | height, i, x, a :: rest =>
    let up := if i % 2 = 0 then treeHash seed 2 0 height (i / 2) x a else treeHash seed 2 0 height (i / 2) a x
    treeRoot seed (height + 1) (i / 2) up rest

/-- Lists of 32 bytes from a list of bytes, `n` of them. -/
def nodesOf : Nat → List (BitVec 8) → List Node
  | 0, _ => []
  | n + 1, bs => bs.take 32 :: nodesOf n (bs.drop 32)

/-- The public key: the root of the tree, and the seed. -/
structure XmssKey where
  root : Node
  seed : Node
  deriving DecidableEq, Repr

/-- A public key from 64 bytes. -/
def xmssKey (k : BitVec 512) : XmssKey := ⟨bytesOfNat 32 k.toNat, bytesOfNat 32 (k.toNat / 2 ^ 256)⟩

/-- The bytes of a signature: the leaf's index, the message's nonce, the values of the 67 chains, and the 20 nodes beside the path. -/
def xmssBytes : Nat := 2820

/-- The root that a signature of a message leads to. -/
def xmssRootOf (key : XmssKey) (msg sig : List (BitVec 8)) : Node :=
  let leaf := natOfBytes (sig.take 4).reverse
  let digest := xmssHash 2 ((sig.drop 4).take 32 ++ key.root ++ bigEndian 32 leaf) msg
  let ends := wotsEnds key.seed leaf 0 (wotsDigits digest) (nodesOf 67 (sig.drop 36))
  treeRoot key.seed 0 leaf (leafRoot key.seed leaf 7 0 ends) (nodesOf 20 (sig.drop 2180))

/-- A signature of a message verifies under a public key (R510). -/
def xmssVerify (key : XmssKey) (msg sig : List (BitVec 8)) : Bool :=
  sig.length == xmssBytes && natOfBytes (sig.take 4).reverse < 2 ^ 20 && xmssRootOf key msg sig == key.root

end Sys2Proof.Machine
end

