-- ==== Sys2Proof/Machine/DecodeRom.lean ====
section
/-! DEFINITION. The decode tables of the tiles (R108 to R110): the mask ROM's reference fields, the decode image that supplies
the others, and the checks of an image. The splitter decodes by fixed logic (Decode.lean), which agrees with the ROM; the image's
fields change timing alone (R26). -/

namespace Sys2Proof.Machine

/-- The opcode map of an engine (R97): for each row of eight opcodes, from its first, the formats by R108's code, 15 where the
opcode is reserved. -/
def romRows : Nat → List (Nat × List Nat)
  | 0 => [(0x00, [15, 0, 0, 0, 0, 0, 0, 0]), (0x08, [0, 0, 0, 0, 0, 0, 0, 0]), (0x10, [0, 0, 0, 0, 0, 0, 0, 15]),
      (0x18, [1, 1, 1, 1, 1, 1, 1, 15]), (0x20, [3, 3, 3, 15, 15, 15, 15, 15]), (0x28, [1, 1, 1, 1, 1, 1, 1, 15]),
      (0x30, [2, 2, 2, 2, 1, 1, 2, 2]), (0x38, [4, 4, 4, 4, 4, 4, 5, 5]), (0x40, [0, 1, 7, 1, 7, 15, 15, 15]),
      (0x48, [6, 6, 6, 6, 0, 15, 15, 15]), (0x50, [7, 7, 7, 7, 7, 7, 15, 15]), (0x58, [8, 8, 8, 8, 8, 15, 15, 15]),
      (0x60, [0, 8, 8, 8, 15, 15, 15, 15]), (0x78, [0, 0, 7, 0, 0, 0, 0, 15])]
  | 1 => [(0x00, [15, 9, 9, 9, 9, 9, 9, 9]), (0x08, [9, 10, 10, 15, 15, 15, 15, 15]), (0x10, [9, 9, 9, 9, 9, 9, 9, 9]),
      (0x18, [9, 9, 9, 9, 9, 9, 9, 9]), (0x20, [9, 9, 9, 9, 9, 15, 15, 15]), (0x28, [9, 9, 9, 9, 9, 9, 9, 15]),
      (0x30, [10, 10, 10, 10, 9, 9, 15, 15]), (0x38, [9, 9, 9, 15, 15, 15, 15, 15]), (0x40, [9, 9, 9, 9, 9, 9, 15, 15]),
      (0x48, [9, 9, 11, 15, 15, 15, 15, 15])]
  | 2 => [(0x00, [15, 9, 9, 9, 10, 9, 9, 9]), (0x08, [10, 10, 9, 11, 9, 9, 9, 9]), (0x10, [9, 15, 15, 15, 15, 15, 15, 15])]
  | 3 => [(0x00, [15, 9, 9, 9, 9, 10, 9, 9]), (0x08, [9, 9, 9, 9, 9, 9, 11, 15]), (0x10, [9, 9, 9, 15, 15, 15, 15, 15])]
  | 4 => [(0x00, [15, 9, 9, 9, 9, 9, 9, 9]), (0x08, [9, 9, 9, 9, 9, 9, 9, 9]), (0x10, [9, 9, 9, 9, 9, 9, 9, 15])]
  | 5 => [(0x00, [15, 9, 9, 9, 10, 9, 9, 15])]
  | 6 => [(0x00, [15, 9, 9, 9, 9, 9, 9, 9]), (0x08, [9, 9, 9, 9, 9, 9, 15, 15]), (0x10, [9, 9, 9, 9, 9, 15, 15, 15])]
  | _ => []

/-- The format of an opcode, none where it is reserved (R97). -/
def romFormat (eng op : Nat) : Option Nat :=
  match (romRows eng).find? fun r => r.1 == op / 8 * 8 with
  | some r => (match r.2.getD (op % 8) 15 with | 15 => none | f => some f)
  | none => none

/-- The feature of an opcode (R103). -/
def romFeature (eng op : Nat) : Nat :=
  match eng with
  | 0 => if 0x78 ≤ op ∧ op ≤ 0x7B then 14 else if 0x7C ≤ op ∧ op ≤ 0x7E then 15 else 0
  | 1 => if op = 0x48 then 13 else 0
  | 2 => if op = 2 then 2 else if 0x0C ≤ op ∧ op ≤ 0x0E then 3 else 1
  | 3 => if op = 8 ∨ op = 9 ∨ op = 0x12 then 7 else if op = 0x0B then 10 else if op = 0x0C then 11 else 0
  | 4 => if op < 0x10 then 4 else 5
  | 5 => 6
  | _ => if 8 ≤ op ∧ op ≤ 0x0B then 8 else if 0x10 ≤ op then 9 else 7

/-- The opcode is privileged (R101). -/
def romPrivileged (eng op : Nat) : Bool :=
  (eng == 0 && decide (0x78 ≤ op ∧ op ≤ 0x7E)) || (eng == 6 && (op == 0x01 || op == 0x12))

/-- The reference fields of an entry (R108): V, PRIVL, FEAT and FMT, zero for a reserved opcode. -/
def romEntry (eng op : Nat) : Nat :=
  match romFormat eng op with
  | some f => 2 ^ 63 + (romPrivileged eng op).toNat * 2 ^ 62 + romFeature eng op * 2 ^ 56 + f * 2 ^ 52
  | none => 0

/-- The fields that an image supplies: ENTRY, LAT and OCC (R108). -/
def imageFields (e : Nat) : Nat := bits e 16 32 * 2 ^ 16

/-- The fields that the loader sees as RO (R108). -/
def fixedFields (e : Nat) : Nat := bits e 48 16 * 2 ^ 48 + bits e 0 16

/-- The image in a tile's decode tables, by die × 128 + tile (R108, R110). -/
def State.tileImage (s : State) (tile : Nat) : Option DecodeImage :=
  match s.svc.decodes.find? fun d => d.1 == tile with
  | some d => some d.2
  | none => s.svc.image

/-- An entry of a tile's decode table (R108). Before any image is accepted the image's fields are zero: DESIGN CHOICE (log 36). -/
def State.decodeEntry (s : State) (tile eng op : Nat) : Nat :=
  match romFormat eng op, s.tileImage tile with
  | some _, some m => romEntry eng op + imageFields (assoc m.entries (eng * 128 + op) 0)
  | _, _ => romEntry eng op

/-- The signature of an image verifies under a public key of the mask ROM (R510). -/
def SignedImage.verifies (m : SignedImage) (key : BitVec 512) : Bool := xmssVerify (xmssKey key) m.bytes m.sig

/-- The SHAKE256-512 digest of an image (R512). -/
def SignedImage.digest (m : SignedImage) : BitVec 512 := BitVec.ofNat 512 (shake256 m.bytes 64)

/-- Why the firmware core refuses an image, 0 where it does not (R109): 1 its signature, 2 its generation, 3 a field that is RO,
4 an entry for a reserved opcode. The codes are the model's: DESIGN CHOICE, the spec gives the record no layout of the reason
(log 36). -/
def DecodeImage.refusal (m : DecodeImage) (key : BitVec 512) : Nat :=
  let defined := fun (e : Nat × Nat) => (romFormat (e.1 / 128) (e.1 % 128)).isSome
  if !m.signed.verifies key then 1
  else if m.generation ≠ Config.generation then 2
  else if m.entries.any fun e => defined e && fixedFields e.2 != romEntry (e.1 / 128) (e.1 % 128) then 3
  else if m.entries.any fun e => !defined e && e.2 != 0 then 4
  else 0

/-- The image that is offered, if there is one, and why it is refused. -/
def State.judged (s : State) : Option (DecodeImage × Nat) := s.svc.offered.map fun m => (m, m.refusal s.sealEng.romDec)

end Sys2Proof.Machine
end

