-- ==== Sys2Proof/Machine/TlbWords.lean ====
section
/-! DEFINITION. Translation maintenance (R194, R281, R282) and the right to name a context slot (R174). -/

namespace Sys2Proof.Machine

/-- A privileged word of the current strand may name a slot (R174). -/
def State.slotAllowed (s : State) (slot : Nat) : Bool :=
  let c := s.ctx slot
  let p := s.st.place
  if p.fn ≠ 0 then c.v && c.fn == p.fn
  else !c.v || 64 < c.fn || (s.fn c.fn).part == p.part

/-- A strand's unpublished stores at addresses of contexts translate again before they are performed (R194). -/
def Strand.staleStores (t : Strand) (hit : Nat → Nat → Nat → Bool) : Strand :=
  { t with stores := t.stores.map fun x => if x.scope.isNone && hit x.fn x.slot x.va then { x with stale := true } else x }

/-- The translations of pages of a region's overflow area are dropped: the versions in their slots come back to the pool, while the
old frames may still be read, and the pages translate again before they are next used (R281, R307). -/
def VRegion.recall (r : VRegion) (mem : Mem) (hit : Nat → Nat → Nat → Bool) : VRegion :=
  let off := fun (page : Nat) => hit r.fn r.ctx ((r.ovf + 65536 * page) % 2 ^ 64)
  { r with
    ovfFrames := (r.ovfFrames.zip (genFrom r.ovfFrames.length 0 id)).map fun f => if off f.2 then { f.1 with fresh := false } else f.1
    vers := r.vers.map fun v => match v.slot with
      | some i => if off ((r.tableBytes + 128 * i) / 65536) then
          { v with data := BitVec.ofNat 512 (mem.readNat (r.slotPa i) 64), slot := none } else v
      | none => v }

/-- Accesses that have been translated and are still to be made translate again (R194, R281, R284): unpublished stores, words that
wait on a memory value whose condition has not been met, and the accesses to overflow areas and to the headers of open windows, at
the addresses that `hit` names by function and slot. -/
def State.retranslate (s : State) (hit : Nat → Nat → Nat → Bool) : State :=
  { s with
    st := s.st.staleStores hit
    others := s.others.map fun t => t.staleStores hit
    bankWaits := s.bankWaits.filter fun b => b.hit || !hit b.fn b.slot b.va
    regions := s.regions.map fun r => r.recall s.mem hit
    windows := s.windows.map fun w => if hit w.fn w.slot w.va then { w with stale := true } else w }

/-- Drop translations from every cache (R194): those of the tiles, of the entries that `f` and `g` name. The Draper keeps
none. -/
def State.dropTranslations (s : State) (f : Tlb → Bool) (g : WalkCached → Bool) : State :=
  s.modTiles fun c => { c with tlbs := c.tlbs.filter fun e => !f e, walks := c.walks.filter fun w => !g w }

/-- The slot that an operand names; one the strand may not name traps PRIV (R194). -/
def namedSlot (w : Word) : M Nat := do
  let slot := bits w.toNat 0 12
  if !(← get).slotAllowed slot then trapM .priv 0 (BitVec.ofNat 64 slot)
  return slot

/-- `tlbi.va` (R194). -/
def execTlbiVa (a b : Reg) (s : State) : Host.Outcome State Fault Refusal :=
  scalarM (.tlbiVa a b) s fun _ => do
    let t ← getSt
    let slot ← namedSlot (t.reg b)
    let va := (t.reg a).toNat
    -- the page of an address that is translated and not yet accessed may be the larger one
    modify fun s => (s.dropTranslations (fun e => e.ofPage slot va) (fun w => w.slot == slot)).retranslate fun _ c a =>
      c == slot && a / 2 ^ 29 == va / 2 ^ 29
    return none

/-- `tlbi.ctx` (R194). -/
def execTlbiCtx (a : Reg) (s : State) : Host.Outcome State Fault Refusal :=
  scalarM (.tlbiCtx a) s fun _ => do
    let slot ← namedSlot ((← getSt).reg a)
    modify fun s => (s.dropTranslations (fun e => e.slot == slot) (fun w => w.slot == slot)).retranslate fun _ c _ => c == slot
    return none

/-- `tlbi.all` (R194): every context that the strand may name. -/
def execTlbiAll (s : State) : Host.Outcome State Fault Refusal :=
  scalarM .tlbiAll s fun _ => do
    modify fun s => (s.dropTranslations (fun e => s.slotAllowed e.slot) (fun w => s.slotAllowed w.slot)).retranslate fun _ c _ =>
      s.slotAllowed c
    return none

/-- The result of `xlat` for a failed walk (R194): kind, and whether it arose at the second stage. -/
def xlatFail (kind : Nat) (second : Bool) : Word := BitVec.ofNat 64 (2 ^ 63 + kind * 2 ^ 60 + second.toNat * 2 ^ 59)

/-- What `xlat` writes (R194, R282): no permission or seal check, no A or D bit, no page request. -/
def State.xlatResult (s : State) (slot va : Nat) : Word :=
  let c := s.ctx slot
  if 2 ^ 55 ≤ va ∨ c.v = false ∨ 64 < c.fn ∨ s.fnEnabled c.fn = false ∨ s.worldOk c = false then xlatFail 1 false
  else
    let two := s.twoStage c
    let ws := s.walksFor 0
    let r := if two then s.walkFirst ws false c va [1, 2, 3] (c.root * 65536) []
      else s.walkPhys ws slot 0 va [1, 2, 3] (c.root * 65536) []
    match r with
    | .ok w => if badFormat (bits w.leaf 53 7) then xlatFail 3 false else BitVec.ofNat 64 (w.addr % 2 ^ 52)
    | .error (.second _ _ kind _) => xlatFail kind true
    | .error (.fault kind) => xlatFail kind false
    | .error .sealing => xlatFail 1 true

/-- `xlat` (R194, R282). -/
def execXlat (d a b : Reg) (s : State) : Host.Outcome State Fault Refusal :=
  scalarM (.xlat d a b) s fun _ => do
    let t ← getSt
    let slot ← namedSlot (t.reg b)
    let r := (← get).xlatResult slot (t.reg a).toNat
    modSt fun t => t.setReg d r
    return none

end Sys2Proof.Machine
end

