-- ==== Sys2Proof/Machine/Pages.lean ====
section
/-! DEFINITION. The hypervisor's side of translation: page requests and responses (R283 to R292), second-stage
invalidation (R284) and dirty bitmaps (R294). -/

namespace Sys2Proof.Machine

/-- Change a function's translation registers. -/
def State.setTrans (s : State) (fn : Nat) (f : TransRegs → TransRegs) : State :=
  let x := s.fn fn
  s.setFn fn { x with trans := f x.trans }

/-- A waiting access is to translate again, or to fail, after a response for a granule (R288): one whose request has gone
otherwise translates again. -/
def PageWait.isOf (w : PageWait) (fn granule : Nat) : Bool := w.fn == fn && w.granule == granule

/-- What a response leaves of a list of waits, and the failures it answers. -/
def answerWaits (fn granule code : Nat) (open' : Nat → Bool) (ws : List PageWait) (as : List PageAnswer) :
    List PageWait × List PageAnswer :=
  (ws.filter fun w => w.fn != fn || (w.granule != granule && open' w.granule),
   if code = 0 then as else as ++ (ws.filter fun w => w.isOf fn granule).map fun w => ⟨w.eng, w.va, code⟩)

/-- A strand after a response: one that was parked and whose own access no longer waits is resident-idle (R290). -/
def Strand.answered (fn granule code : Nat) (open' : Nat → Bool) (t : Strand) : Strand :=
  let r := answerWaits fn granule code open' t.pageWaits t.pageAnswers
  let free := t.life == .parked && !(r.1.any fun w => w.eng == 0)
  { t with pageWaits := r.1, pageAnswers := r.2, life := if free then .residentIdle else t.life }

/-- Granules that a task waits on: its rows, and the records that are to be written for them. -/
def DTask.granules (t : DTask) : List Nat :=
  (t.parked.filterMap fun p => if p.answer.isNone then p.wait.map Prod.snd else none) ++
    t.parking.flatMap fun q => q.hold :: (if q.answer.isNone then q.wait.toList else [])

/-- Granules that the tasks of a function wait on, and its task records that have ended. -/
def State.draperGranules (s : State) (fn : Nat) : List Nat :=
  (s.drapers.flatMap fun d => ((d.2.tasks.filter fun t => t.fn == fn).flatMap DTask.granules) ++
    (d.2.ended.filter fun e => e.fn == fn).filterMap RecordEnd.wait).eraseDups

/-- A response (R288). -/
def State.respond (s : State) (fn tag code : Nat) : State :=
  match (s.fn fn).trans.reqs.find? fun r => r.tag == tag with
  | none => s.setTrans fn fun t => { t with badTag := true }
  | some r =>
    if 3 ≤ code then s.setTrans fn fun t => { t with badTag := true }
    else
      let s := s.setTrans fn fun t => { t with reqs := t.reqs.filter fun x => x.tag != tag }
      let open' := fun (g : Nat) => (s.fn fn).trans.reqs.any fun x => x.granule == g
      let s := { s with
        st := s.st.answered fn r.granule code open'
        others := s.others.map (Strand.answered fn r.granule code open')
        front := { s.front with units := s.front.units.map fun (u : Nat × List PageWait × List PageAnswer) =>
          (u.1, answerWaits fn r.granule code open' u.2.1 u.2.2) } }
      let s := s.answerDraper fn r.granule code
      -- rows that found no free tag try again
      ((s.draperGranules fn).filter fun g => !((s.fn fn).trans.reqs.any fun x => x.granule == g)).foldl
        (fun s g => s.answerDraper fn g 0) s

/-- Abandon every request of a function (R292). -/
def State.abandonRequests (s : State) (fn : Nat) : State := s.setTrans fn fun t => { t with reqs := [] }

/-- Drop the second-stage translations of a function (R284), and let what is translated and still to be performed translate
again (R194). A cache may drop more than it must: KIND 1 drops all. -/
def State.dropSecond (s : State) (fn kind : Nat) : State :=
  if kind = 1 ∨ kind = 2 then
    (s.dropTranslations (fun e => e.two && e.fn == fn) (fun w => w.fn == fn)).retranslate fun f _ _ => f == fn
  else s

/-- PAGE_REQUEST_POST (R286): the oldest request of a function that is not written yet. -/
def execPageRequestPost (fn : Nat) (s : State) : Host.Outcome State Fault Refusal := .next (s.writePageReq fn)

/-- PRQHEAD_WRITE (R287). -/
def execPrqheadWrite (fn head : Nat) (s : State) : Host.Outcome State Fault Refusal :=
  let s := s.setTrans fn fun t => { t with prqHead := BitVec.ofNat 32 head }
  let t := (s.fn fn).trans
  let s := if t.prqIe && t.prqHead != t.prqTail then s.raiseMsi 0 t.prqVec else s
  .next (s.writePageReq fn)

/-- PRSP_WRITE (R288, R289). -/
def execPrspWrite (fn tag code : Nat) (s : State) : Host.Outcome State Fault Refusal := .next (s.respond fn tag code)

/-- S2INV_WRITE (R284): a second write waits while BUSY = 1. -/
def execS2invWrite (fn : Nat) (w : BitVec 64) (s : State) : Host.Outcome State Fault Refusal :=
  .next (if (s.fn fn).trans.invBusy then s.setTrans fn fun t => { t with invNext := t.invNext ++ [w] }
    else (s.dropSecond fn (w.toNat % 4)).setTrans fn fun t => { t with invBusy := true })

/-- S2INV_DONE (R284): between steps no access is under way, and one that is still to be made translates again, so a drop is
complete once it is made. -/
def execS2invDone (fn : Nat) (s : State) : Host.Outcome State Fault Refusal :=
  .next (match (s.fn fn).trans.invNext with
    | w :: rest => (s.dropSecond fn (w.toNat % 4)).setTrans fn fun t => { t with invNext := rest }
    | [] => s.setTrans fn fun t => { t with invBusy := false })

/-- DBMCTL_WRITE (R294): a change of SEL or EN takes effect when BUSY clears. -/
def execDbmctlWrite (fn : Nat) (w : BitVec 64) (s : State) : Host.Outcome State Fault Refusal :=
  .next (s.setTrans fn fun t =>
    let sel := bit w.toNat 1
    let en := bit w.toNat 0
    { t with
      dbmLen := bits w.toNat 32 32, dbmSelW := sel, dbmEnW := en
      dbmBusy := t.dbmBusy || sel != t.dbmSelW || en != t.dbmEnW })

/-- DBM_SWITCH_DONE (R294). -/
def execDbmSwitchDone (fn : Nat) (s : State) : Host.Outcome State Fault Refusal :=
  .next (s.setTrans fn fun t =>
    if t.dbmBusy then { t with dbmSel := t.dbmSelW, dbmEn := t.dbmEnW, dbmBusy := false } else t)

end Sys2Proof.Machine
end

