-- ==== Sys2Proof/Machine/Seal.lean ====
section
/-! DEFINITION. The words of the seal engine (R500 to R515): world keys, measurement registers and evidence. -/

namespace Sys2Proof.Machine

/-! ## Worlds (R500, R503) -/

/-- The entry of a world. -/
def SealEng.world (e : SealEng) (w : Nat) : World := assoc e.worlds w ⟨false, 0, 0, 0, 0, 0⟩

/-- Replace the entry of a world. -/
def State.setWorld (s : State) (w : Nat) (x : World) : State :=
  { s with sealEng := { s.sealEng with worlds := assocPut s.sealEng.worlds w x } }

/-- Something still names a world (R503 order 4): a frame, a pool, a weight region or a context entry with V = 1. -/
def State.worldInUse (s : State) (w : Nat) : Bool :=
  (s.frames.any fun r => decide (r.lo < r.hi) && r.frame.world == w) ||
    (s.parts.any fun p =>
      (p.2.pools.any fun q => q.2.en && q.2.world == w) || (p.2.weights.any fun x => x.2.world == w)) ||
    (genFrom 4096 0 fun i => let c := s.ctx i; c.v && c.world == w).any fun b => b

/-- The checks of R503 but for those that tell `.new` from `.kill`. -/
def worldOperands (a : Word) (n : Nat) (high : Bool) : M Nat := do
  let w := bits a.toNat 0 6
  if w = 0 ∨ a.toNat / 64 ≠ 0 ∨ high = true ∨ 64 < n then trapPage 3 a.toNat
  let s ← get
  let fn := s.st.place.fn
  let e := s.sealEng.world w
  if fn ≠ 0 ∧ (n ≠ fn ∨ (e.live = true ∧ e.fn ≠ fn)) then trapM .priv 0 (BitVec.ofNat 64 w)
  return w

/-- A world with the keys that draw `k` of the random bit generator gives (R500). -/
def World.drawn (fn created k : Nat) : World :=
  let x := Config.worldKey k
  ⟨true, fn, created, x.extractLsb' 0 256, x.extractLsb' 256 256, x.extractLsb' 512 256⟩

/-- `sl.key.new` (R503). -/
def execSlKeyNew (d a b : Reg) (s : State) : Host.Outcome State Fault Refusal :=
  scalarM (.slKeyNew d a b) s fun _ => do
    let t ← getSt
    let n := bits (t.reg b).toNat 0 7
    let w ← worldOperands (t.reg a) n ((t.reg b).toNat / 128 != 0)
    let s ← get
    let e := s.sealEng.world w
    if e.live then trapPage 2 (t.reg a).toNat
    set ({ s with freeCount := s.freeCount + 1 }.setWorld w (World.drawn n (e.created + 1) s.freeCount))
    modSt fun t => t.setReg d (BitVec.ofNat 64 (e.created + 1))
    return none

/-- `sl.key.kill` (R503). -/
def execSlKeyKill (d a : Reg) (s : State) : Host.Outcome State Fault Refusal :=
  scalarM (.slKeyKill d a) s fun _ => do
    let t ← getSt
    let w ← worldOperands (t.reg a) t.place.fn false
    let s ← get
    let e := s.sealEng.world w
    if e.live = false then trapPage 2 (t.reg a).toNat
    if s.worldInUse w then trapPage 2 (t.reg a).toNat
    modify fun s => s.setWorld w { e with live := false, fn := 0, xts1 := 0, xts2 := 0, mac := 0 }
    modSt fun t => t.setReg d 0
    return none

/-! ## Memory (R502) -/

/-- The bytes of a store from its byte `i` on, `n` of them. -/
def PlainStore.part (x : PlainStore) (i n : Nat) : PlainStore :=
  { x with
    va := x.va + i, pa := x.pa + i, data := (x.data.drop i).take n
    track := x.track.map fun t => (t.1, t.2 + i) }

/-- What is left of an unpublished store whose bytes another store of the strand overwrites, `n` bytes at an address; one whose
translation has been dropped is known by its virtual address. -/
def PlainStore.cut (x : PlainStore) (va pa n : Nat) : List PlainStore :=
  let lo := if x.stale then x.va else x.pa
  let a := if x.stale then va else pa
  let stop := lo + x.data.length
  if stop ≤ a ∨ a + n ≤ lo then [x]
  else
    (if lo < a then [x.part 0 (a - lo)] else []) ++ (if a + n < stop then [x.part (a + n - lo) (stop - (a + n))] else [])

/-- Write bytes within a page that has been checked, published at `.sys`; unpublished bytes beneath them are overwritten. -/
def sealWrite (va : Nat) (m : Mapped) (bs : List Byte) : M Unit := do
  modSt fun t => { t with stores := t.stores.flatMap fun x =>
    if x.scope.isNone && x.slot == t.place.slot then x.cut va m.pa bs.length else [x] }
  modify fun s => s.engineWrite m.pa bs
  if m.two then modify fun s => s.markDirty m.fn m.ipa

/-! ## Measurements (R512, R513) -/

/-- SHAKE256 of a message to 512 bits. -/
def digest512 (bs : List Byte) : BitVec 512 := BitVec.ofNat 512 (shake256 bs 64)

/-- A measurement register of a function. -/
def Fn.measure (f : Fn) (r : Nat) : BitVec 512 := vget f.mr r 0

/-- The selector of `sl.meas`: register and function. -/
def measSelector (b : Word) (extend : Bool) : M (Nat × Nat) := do
  let r := bits b.toNat 0 3
  let n := bits b.toNat 8 7
  if bits b.toNat 3 5 ≠ 0 ∨ b.toNat / 2 ^ 15 ≠ 0 ∨ 64 < n ∨ (extend = true ∧ r = 0) then trapPage 3 b.toNat
  let fn := (← getSt).place.fn
  if fn ≠ 0 ∧ n ≠ fn then trapM .priv 0 (BitVec.ofNat 64 n)
  return (r, n)

/-- `sl.meas` (R513). -/
def execSlMeas (d a b : Reg) (s : State) : Host.Outcome State Fault Refusal :=
  scalarM (.slMeas d a b) s fun _ => do
    let t ← getSt
    let (r, n) ← measSelector (t.reg b) true
    if (t.reg a).toNat % 64 ≠ 0 then trapM .align 0 (t.reg a)
    let bs ← scalarRead (t.reg a).toNat 64
    let f := (← get).fn n
    let m := digest512 (bytesOfNat 64 (f.measure r).toNat ++ bs)
    modify fun s => s.setFn n { f with mr := vput f.mr r m, lost := false }
    modSt fun t => t.setReg d (f.mgen.setWidth 64)
    return none

/-- `sl.meas.rd` (R513). -/
def execSlMeasRd (d a b : Reg) (s : State) : Host.Outcome State Fault Refusal :=
  scalarM (.slMeasRd d a b) s fun _ => do
    let t ← getSt
    let (r, n) ← measSelector (t.reg b) false
    if (t.reg a).toNat % 64 ≠ 0 then trapM .align 0 (t.reg a)
    let m ← mapAccess 0 t.place.slot (t.reg a).toNat .write
    let f := (← get).fn n
    sealWrite (t.reg a).toNat m (bytesOfNat 64 (f.measure r).toNat)
    modSt fun t => t.setReg d (f.mgen.setWidth 64)
    return none

/-! ## Evidence (R514) -/


/-- A strand or a Draper row of a function is resident. -/
def State.fnResident (s : State) (n : Nat) : Bool :=
  ((s.st :: s.others).any fun t => t.place.fn == n && t.resident) ||
    s.drapers.any fun d => d.2.tasks.any fun t => t.fn == n && t.st == .running

/-- Bytes 0 to 767 of the record. -/
def State.evidence (s : State) (n : Nat) (nonce : List Byte) : List Byte :=
  let f := s.fn n
  let left := decide (s.sealEng.leaf < leafCount)
  let w8 := (if left then 0 else 8) + f.lost.toNat * 4 + (s.svc.gated.contains f.part).toNat * 2 + (!s.fnResident n).toNat
  let w16 := f.part % 8 * 2 ^ 48 + f.tenant % 2 ^ 16 * 2 ^ 32 + f.mgen.toNat
  bytesOfNat 4 0x45564944 ++ bytesOfNat 2 1 ++ bytesOfNat 2 n ++ bytesOfNat 8 w8 ++ bytesOfNat 8 w16 ++
    bytesOfNat 8 (if left then s.sealEng.leaf else 2 ^ 64 - 1) ++ nonce.take 32 ++ genFrom 64 0 Config.idKeyByte ++
    bytesOfNat 64 s.sealEng.mfw.toNat ++ bytesOfNat 64 s.sealEng.mdec.toNat ++
    (genFrom 8 0 fun r => bytesOfNat 64 (f.measure r).toNat).flatten

/-- `sl.rep` (R514). -/
def execSlRep (d a b : Reg) (s : State) : Host.Outcome State Fault Refusal :=
  scalarM (.slRep d a b) s fun _ => do
    let t ← getSt
    let rec' := (t.reg a).toNat
    let req := (t.reg b).toNat
    if req % 64 ≠ 0 then trapM .align 0 (t.reg b)
    if rec' % 4096 ≠ 0 then trapM .align 0 (t.reg a)
    let bs ← scalarRead req 64
    let n := (bs.getD 32 0).toNat
    if 64 < n ∨ (bs.drop 33).any (fun x => x != 0) = true then trapPage 3 req
    if t.place.fn ≠ 0 ∧ n ≠ t.place.fn then trapM .priv 0 ((encode (.slRep d a b)).setWidth 64)
    let m ← mapAccess 0 t.place.slot rec' .write
    let s ← get
    let left := decide (s.sealEng.leaf < leafCount)
    let body := s.evidence n bs
    let sig := if left then genFrom 2820 0 (Config.sigByte s.sealEng.leaf body) else List.replicate 2820 0
    if left then modify fun s => { s with sealEng := { s.sealEng with leaf := s.sealEng.leaf + 1 } }
    sealWrite rec' m (body ++ sig ++ List.replicate 508 0)
    modSt fun t => t.setReg d (if left then 0 else 1)
    return none

end Sys2Proof.Machine
end

