-- ==== Sys2Proof/Machine/StepDesk.lean ====
section
/-! DEFINITION. The step desk (R457 to R461): batch step packets, their boundaries and their retirements. -/

namespace Sys2Proof.Machine

/-- The header of a sequence table (R457), in its 64 bytes. -/
structure SeqHead where
  x : Nat
  deriving DecidableEq, Repr

def SeqHead.cap (h : SeqHead) : Nat := bits h.x 32 32
def SeqHead.pool (h : SeqHead) : Nat := bits h.x 16 8
def SeqHead.nslot (h : SeqHead) : Nat := bits h.x 0 13
def SeqHead.tblBase (h : SeqHead) : Nat := bits h.x 64 64
def SeqHead.tstride (h : SeqHead) : Nat := bits h.x 128 32
def SeqHead.stopBase (h : SeqHead) : Nat := bits h.x 192 64
def SeqHead.reqBase (h : SeqHead) : Nat := bits h.x 256 64
def SeqHead.reqTail (h : SeqHead) : BitVec 32 := BitVec.ofNat 32 (bits h.x 352 32)
def SeqHead.reqHead (h : SeqHead) : BitVec 32 := BitVec.ofNat 32 (bits h.x 320 32)
def SeqHead.reqLogn (h : SeqHead) : Nat := bits h.x 416 5
def SeqHead.nlive (h : SeqHead) : Nat := bits h.x 384 32

/-- The header keeps the limits of R457. -/
def SeqHead.legal (h : SeqHead) : Bool :=
  bits h.x 24 8 == 0 && bits h.x 13 3 == 0 && bits h.x 160 32 == 0 && bits h.x 421 27 == 0 && bits h.x 448 64 == 0 &&
    decide (1 ≤ h.nslot ∧ h.nslot ≤ 4096) && decide (1 ≤ h.cap ∧ h.cap ≤ 1048576) && h.tstride % 128 == 0 &&
    decide (128 + 4 * h.cap ≤ h.tstride) && h.reqBase % 128 == 0 && decide (h.reqLogn ≤ 16)

/-- Addresses of block table, stop record and entry of slot `i`. -/
def SeqHead.tableVa (h : SeqHead) (i : Nat) : Nat := (h.tblBase + h.tstride * i) % 2 ^ 64
def SeqHead.stopVa (h : SeqHead) (i : Nat) : Nat := (h.stopBase + 64 * i) % 2 ^ 64
def slotVa (tab i : Nat) : Nat := (tab + 64 + 32 * i) % 2 ^ 64

/-- Read a table's header. -/
def readSeqHead (tab : Nat) : M SeqHead := do return ⟨← frontNat tab 64⟩

/-- STATE of a slot. -/
def slotState (tab i : Nat) : M Nat := do return bits (← frontNat (slotVa tab i + 24) 8) 32 2

/-- The slots that are live, in ascending order. -/
def liveSlots (tab nslot : Nat) : M (List Nat) := do
  let sts ← collectM (genFrom nslot 0 id) fun i => do return (i, ← slotState tab i)
  return (sts.filter fun s => s.2 == 1).map Prod.fst

/-- The table lies whole in slice memory, readable and writable, and its header is legal (R459): its physical address. -/
def checkSeqTable (tab : Nat) : M (Option Nat) := do
  let inside := fun (n : Nat) => do
    let r ← attempt (frontLocate tab n .write)
    match r with
    | .waits g va => (waitM 7 (missAt g va) : M (Option Nat))
    | .trapped _ => return none
    | .done ls =>
      let ps := ls.map fun l => l.1.m.pa
      return (if ps.all fun a => decide (sliceBase ≤ a ∧ a < sliceBase + sliceBytes) then ps.head? else none)
  if tab % 64 ≠ 0 then return none
  match ← inside 64 with
  | none => return none
  | some _ =>
    let h ← readSeqHead tab
    if h.legal then inside (64 + 32 * h.nslot) else return none

/-- What a batch step's start comes to (R459). -/
inductive BatchCheck where
  | badTable
  | badOp (i : Nat)
  | ok (pa : Nat) (ops : List Nat)

/-- The checks of R459. -/
def checkBatch (most stkarea tab ops nops : Nat) : M BatchCheck := do
  match ← checkSeqTable tab with
  | none => return .badTable
  | some pa =>
    let us ← collectM (genFrom nops 0 id) fun i => frontNat ((ops + 64 * i) % 2 ^ 64) 64
    return match firstBad (opBad true most stkarea) us 0 with
      | some i => .badOp i
      | none => .ok pa us

/-- Start a batch step (R459): one that names a table that another holds waits. -/
def State.startBatch (s : State) (fn q : Nat) (pos : BitVec 32) (x : Nat) : Option State :=
  let r := s.queue fn q
  let p := packetRun fn q pos x []
  match s.frontRun fn q (checkBatch (s.mostTiles (s.fn fn).part) r.stkarea (p.arg 0) (p.arg 1) (p.arg 2 % 256)) with
  | (.waits .., s') => s.waitNews s' fn q
  | (.trapped f, s') => some (s'.haltFault fn q pos p.tag f)
  | (.done .badTable, s') => some (s'.haltReason fn q pos 7 p.tag 0)
  | (.done (.badOp i), s') => some (s'.haltReason fn q pos 6 p.tag (BitVec.ofNat 64 i))
  | (.done (.ok pa us), s') =>
    if s.front.packets.any fun o => o.kind == 5 && !o.done && o.arg 6 == pa then none
    else some (s'.addPacket { p with
      args := p.args ++ [BitVec.ofNat 64 pa], ops := us.map opOf, nextOp := us.length })

/-- A cache-context word that the front end issues (R461). -/
def deskEntry (i : Instr) (x y z world : Nat) : Entry :=
  { seq := 0, addr := 0, word := i, pfx := noPrefixes, opX := BitVec.ofNat 64 x, opY := BitVec.ofNat 64 y
    opZ := BitVec.ofNat 64 z, extA := 0, extB := 0, extC := 0, world := world, prog := Progress.fresh }

/-- A KIND 4 record (R450). -/
def noteSequence (p : PacketRun) (reqid tcause tval : Nat) : M Unit :=
  modify fun s => s.pushCq ⟨p.fn, p.queue, 4, p.pos, [BitVec.ofNat 64 reqid, BitVec.ofNat 64 tcause, BitVec.ofNat 64 tval], p.irq, false⟩

/-- The stop record of an admitted request (R231, R461). -/
def admitStop (req : Nat) : List Byte :=
  bytesOfNat 4 0 ++ bytesOfNat 4 (bits req 224 32) ++ bytesOfNat 1 (bits req 256 8) ++ bytesOfNat 7 0 ++
    (genFrom 12 0 fun i => bytesOfNat 4 (bits req (320 + 32 * i) 32)).flatten

/-- Admit requests while a slot is free (R461). Every access of a request is resolved before its table is initialised. -/
def admitRequests (p : PacketRun) (tab : Nat) : Nat → M Unit
  | 0 => pure ()
  | n + 1 => do
    let h ← readSeqHead tab
    let live ← liveSlots tab h.nslot
    match (genFrom h.nslot 0 id).find? fun i => !live.contains i with
    | none => pure ()
    | some i =>
      if h.reqHead ≠ h.reqTail then
        let req ← frontNat ((h.reqBase + 128 * (h.reqHead.toNat % 2 ^ h.reqLogn)) % 2 ^ 64) 128
        let stop ← frontLocate (h.stopVa i) 64 .write
        let slot ← frontLocate (slotVa tab i) 32 .write
        let _ ← frontLocate tab 64 .write
        let world := (← getSt).place.world
        match ← attempt (performKTbl (deskEntry (.kTbl 0 0 0 false) (h.tableVa i) h.pool h.cap world)) with
        | .waits g va => waitM 7 (missAt g va)
        | .trapped f => noteSequence p (bits req 0 64) (2 ^ 35 + (tcauseImage false false false 6 f).toNat) 0
        | .done _ =>
          putPieces stop (admitStop req)
          putPieces slot (bytesOfNat 8 (bits req 0 64) ++ bytesOfNat 8 (bits req 64 64) ++ bytesOfNat 8 (bits req 128 64) ++
            bytesOfNat 4 (bits req 192 32) ++ bytesOfNat 4 1)
          frontWrite (tab + 48) (bytesOfNat 4 (h.nlive + 1))
          modify fun s => s.setPacket p.fn p.queue p.pos fun p => { p with admitted := p.admitted ++ [i] }
        frontWrite (tab + 40) (bytesOfNat 4 (h.reqHead + 1).toNat)
        admitRequests p tab n

/-- The grant table of the first step's first operator is read with the boundary: it is one of the accesses that may halt the queue
before an operator has run (R448, R452). -/
def firstGrants (p : PacketRun) : M Unit := do
  match p.ops with
  | op :: _ =>
    if p.stepNo = 0 ∧ op.grant ≠ 0 ∧ op.total ≠ 0 then
      let _ ← readGrants op (← getSt).place.world
  | [] => pure ()

/-- A boundary (R461): admission, and unless the batch ends here, the step record (R460). False where it ends. -/
def boundary (p : PacketRun) : M Bool := do
  let tab := p.arg 0
  let h ← readSeqHead tab
  admitRequests p tab (h.reqTail - h.reqHead).toNat
  let live ← liveSlots tab h.nslot
  if live.isEmpty ∧ p.arg 2 / 2 ^ 32 = 0 then return false
  let new := (((← get).packetsOf p.fn p.queue).find? fun x => x.isAt p.fn p.queue p.pos).elim [] PacketRun.admitted
  frontWrite (p.arg 3) (bytesOfNat 8 p.stepNo ++ bytesOfNat 4 live.length ++ bytesOfNat 4 new.length ++ bytesOfNat 8 tab ++
    bytesOfNat 40 0 ++ (live.map fun i => bytesOfNat 4 (i + (if new.contains i then 2 ^ 16 else 0))).flatten)
  firstGrants p
  return true

/-- What a first boundary that does not go through leaves (R448): nothing of what it did, but for the page requests that it posted,
the failures that it took note of, and the errors of lines that it met (DEDUCED, log 78). -/
def State.undone (s s' : State) : State :=
  let asked := s'.fns.flatMap fun f =>
    (f.2.trans.reqs.filter fun r => !((s.fn f.1).trans.reqs.any fun x => x.granule == r.granule)).map fun r => (f.1, r)
  asked.foldl (fun (s : State) r => s.postPageReq r.1 r.2.eng r.2.ctx r.2.va (r.2.granule * 65536) r.2.lvl r.2.kind r.2.acc)
    { s with
      poison := s.poison ++ s'.poison.filter fun l => !s.poison.contains l
      scriv := s'.scriv, scrivCount := s'.scrivCount, svc := s'.svc
      front := { s.front with units := s'.front.units } }

/-- Carry a batch step over its boundary. -/
def State.stepBoundary (s : State) (p : PacketRun) : Option State :=
  let steps := p.arg 2 / 2 ^ 32
  if p.kind ≠ 5 ∨ p.done = true ∨ p.dead = true ∨ p.inStep = true ∨ p.armed = true ∨ s.frontActs p.fn = false then none
  else
    let finish := fun (s : State) => (s.setPacket p.fn p.queue p.pos fun p => { p with armed := true }).endPacket p
    if steps ≠ 0 ∧ steps ≤ p.stepNo then some (finish s)
    else
      match s.frontRun p.fn p.queue (boundary p) with
      | (.waits .., s') => s.waitNews (if p.stepNo = 0 then s.undone s' else s') p.fn p.queue
      | (.trapped f, s') => some (if p.stepNo = 0 then (s.undone s').failPacket p false f else s'.failPacket p true f)
      | (.done false, s') => some (finish s')
      | (.done true, s') =>
        let s' := s'.setPacket p.fn p.queue p.pos fun p => { p with inStep := true, nextOp := 0 }
        let run := s'.front.packets.find? fun x => x.isAt p.fn p.queue p.pos && !x.done
        some ((run.bind fun x => s'.launchNext x).getD s').settle

/-- Retire the sequences that have finished (R461). -/
def retireSlots (p : PacketRun) (tab : Nat) (h : SeqHead) : List Nat → M Unit
  | [] => pure ()
  | i :: rest => do
    let stop ← frontNat (h.stopVa i) 64
    if bit stop 72 then
      let reqid ← frontNat (slotVa tab i) 8
      let last ← frontLocate (slotVa tab i + 28) 4 .write
      let count ← frontLocate (tab + 48) 4 .write
      let world := (← getSt).place.world
      match ← attempt (performKRet (deskEntry (.kRet 0 false) (h.tableVa i) 0 0 world)) with
      | .waits g va => waitM 7 (missAt g va)
      | .trapped f =>
        modify fun s => s.scrivener (queueSrc p.fn p.queue) 5 (h.tableVa i) (tcauseImage false false false 6 f).toNat
      | .done _ => pure ()
      noteSequence p reqid (bits stop 73 3 * 2 ^ 32 + bits stop 0 32) (bits stop 96 32)
      let n := (← readSeqHead tab).nlive
      putPieces last (bytesOfNat 4 0)
      putPieces count (bytesOfNat 4 (n - 1))
    retireSlots p tab h rest

/-- A step's operators have retired: retire its finished sequences, and go on to the next boundary, or halt where an
operator ended in error (R456, R461). -/
def State.stepRetirement (s : State) (p : PacketRun) : Option State :=
  if p.kind ≠ 5 ∨ p.done = true ∨ p.dead = true ∨ p.inStep = false ∨ p.order.isSome = true ∨ p.nextOp < p.ops.length ∨
      s.frontActs p.fn = false then none
  else
    let work : M Unit := do
      let h ← readSeqHead (p.arg 0)
      retireSlots p (p.arg 0) h (← liveSlots (p.arg 0) h.nslot)
    match s.frontRun p.fn p.queue work with
    | (.waits .., s') => s.waitNews s' p.fn p.queue
    | (.trapped f, s') => some (s'.failPacket p (decide (0 < p.nextOp) || decide (0 < p.stepNo)) f)
    | (.done _, s') =>
      if p.failed then
        let s' := (s'.haltQueue p.fn p.queue (p.pos + BitVec.ofNat 32 p.len) 0 p.tag false 0 0).setPacket p.fn p.queue p.pos
          fun p => { p with detached := true }
        some (s'.completePacket p.fn p.queue p.pos)
      else
        some (s'.setPacket p.fn p.queue p.pos fun p => { p with
          inStep := false, admitted := [], stepNo := p.stepNo + 1, nextOp := p.ops.length })

/-- Carry on the batch step of a queue. -/
def State.batchEvent (s : State) (fn q : Nat) (go : State → PacketRun → Option State) : Option State :=
  (s.packetsOf fn q).findSome? fun p => if p.kind = 5 ∧ p.done = false then go s p else none

/-- BATCH_STEP_PACKET (R459): a batch step starts, or launches its next operator. -/
def execBatchStepPacket (fn q : Nat) (s : State) :=
  eventOpt (fun s => s.packetEvent fn q 5 (fun s pos x => s.startBatch fn q pos x) fun s p =>
    if p.inStep then (s.launchNext p).map State.settle else none) s
/-- STEP_BOUNDARY (R461). -/
def execStepBoundary (fn q : Nat) (s : State) := eventOpt (fun s => s.batchEvent fn q State.stepBoundary) s
/-- STEP_RETIREMENT (R461). -/
def execStepRetirement (fn q : Nat) (s : State) := eventOpt (fun s => s.batchEvent fn q State.stepRetirement) s

end Sys2Proof.Machine
end

