-- ==== Sys2Proof/Machine/Resets.lean ====
section
/-! DEFINITION. Partitions and their release (R473, R474, R527), the resets of a function, a partition and the device
(R476 to R478), the boot sequence (R516, R517), and the assignment of functions (R475). -/

namespace Sys2Proof.Machine

/-! ## Discards of a reset (R476 steps 2 to 5) -/

/-- Kill strands with no record: their queues and unpublished stores go with them (R201). -/
def State.killStrands (s : State) (hit : Place → Bool) : State :=
  let gangs := ((s.st :: s.others).filter fun t => hit t.place).map fun t => t.place.gang
  let gone := fun (g : Nat) => gangs.contains g
  { s with
    st := if hit s.st.place then s.st.end else s.st
    others := s.others.filter fun t => !hit t.place
    bankWaits := s.bankWaits.filter fun b => !gone b.gang
    versWaits := s.versWaits.filter fun b => !gone b.gang
    fullerWaits := s.fullerWaits.filter fun b => !gone b.gang
    front := { s.front with gangs := s.front.gangs.filter fun g => !gone g.id } }

/-- Drop the orders, packets and waiting accesses of the queues of functions; their completion records too, or only the
packets' hold on them. -/
def State.dropQueueWork (s : State) (hit : Nat → Bool) (records : Bool) : State :=
  let s := (s.front.orders.filter fun o => hit o.fn).foldl (fun (s : State) o => s.closeWindowsOf o.id) s
  let cq := if records then s.front.cqWait.filter fun c => !hit c.fn
    else s.front.cqWait.map fun (c : PendCq) => if hit c.fn then { c with ends := false } else c
  { s with
    bankWaits := s.bankWaits.filter fun b => !(b.gang == frontGang && hit (b.member / 64))
    front := { s.front with
      orders := s.front.orders.filter fun o => !hit o.fn
      packets := s.front.packets.filter fun p => !hit p.fn
      units := s.front.units.filter fun u => !hit (u.1 / 64)
      cqWait := cq } }

/-- Release a draft block of a pool, if there is one. A block that R402 would not let the table's owner reach stays as it is. -/
def State.releaseDraft (s : State) (part pool tenant b : Nat) : State :=
  let p := s.pool part pool
  if b = noBlock ∨ s.blockOk p b tenant = false then s else s.setPool part pool (p.release b)

/-- Where the header of an open window's table is written when the window is discarded, with the walk that leads there: by the
translation that stands now; where none permits the write, by the one that the window was opened with, unless that has been dropped
(R281, R284). A window that no translation reaches any more keeps its header: DEDUCED (log 76). -/
def State.windowHeader (s : State) (w : OpenWindow) : Option (Nat × Option Xlat) :=
  let old := if w.stale then none else some (w.pa, none)
  match s.translate [] (s.ctx w.slot) w.va .bank with
  | .ok x => if x.agrees ∧ (x.two = false ∨ (blockedUpdate x true).isNone) then some (x.pa, some x) else old
  | .error _ => old

/-- Discard an open window (R419): its drafts are released, and its header is written, as R278 and R293 note it. -/
def State.discardWindow (s : State) (w : OpenWindow) : State :=
  match s.windowHeader w with
  | none => s
  | some (pa, walk) =>
    let h := s.peekNat .device pa 128
    if bit h 575 then
      let pool := bits h 40 8
      let tenant := s.tenant (s.ctx (bits h 160 12)).fn
      let s := (s.releaseDraft w.part pool tenant (bits h 704 32)).releaseDraft w.part pool tenant (bits h 736 32)
      let closed := setBits (setBits (setBits (setBits h 575 1 0) 556 5 0) 704 32 noBlock) 736 32 noBlock
      let s := match walk with
        | some x => (fun (s : State) => if x.two then s.markDirty (s.ctx w.slot).fn x.ipa else s) (s.markUsed x true)
        | none => match w.ipa with | some i => s.markDirty w.fn i | none => s
      (if s.weightFrame pa then s else s.writeHome pa (bytesOfNat 128 (headerImage closed))).dropTable w.part pa
    else s

/-- Discard the open windows of tables, by partition and by the context slot that initialised the table (R419). -/
def State.discardWindows (s : State) (hit : Nat → Nat → Bool) : State :=
  let gone := s.windows.filter fun w => hit w.part w.owner
  let s := gone.foldl (fun (s : State) w => s.discardWindow w) s
  { s with windows := s.windows.filter fun w => !hit w.part w.owner }

/-- Release regions; their pages keep the base versions (R476 step 5). -/
def State.releaseRegions (s : State) (hit : VRegion → Bool) : State :=
  (s.regions.filter hit).foldl (fun (s : State) r => s.releaseRegion r) s

/-- Every pool of a partition drops the blocks of contexts (R431). -/
def State.dropBlocks (s : State) (part : Nat) (hit : Nat → Bool) : State :=
  let p := s.part part
  s.setPart part { p with pools := p.pools.map fun x => (x.1, x.2.dropContexts hit) }

/-! ## Frames of a partition (R427, R431, R527) -/

/-- Runs cut to a range. -/
def clipRuns (lo hi : Nat) (l : List (Nat × Nat)) : List (Nat × Nat) :=
  (l.map fun r => (max r.1 lo, min r.2 hi)).filter fun r => decide (r.1 < r.2)

/-- The frames of a range that are not FIXED, as runs. -/
def State.looseFrames (s : State) (lo hi : Nat) : List (Nat × Nat) :=
  clipRuns lo hi ((s.frames.filter fun r => r.frame.st != .fixed).map fun r => (r.lo, r.hi))

/-- Every frame of a range that is not FIXED becomes TOSCRUB. -/
def State.scrubRange (s : State) (lo hi : Nat) : State :=
  { s with frames := s.frames.flatMap fun r =>
      if r.frame.st = .fixed ∨ r.hi ≤ lo ∨ hi ≤ r.lo then [r]
      else [{ r with hi := min r.hi lo }, ⟨max r.lo lo, min r.hi hi, { r.frame with st := .toScrub }⟩,
        { r with lo := max r.lo hi }].filter fun r => decide (r.lo < r.hi) }

/-- Give a partition's frame range to its Fuller (R474): `own` are the frames that end their scrub OWNED. -/
def State.giveFrames (s : State) (part : Nat) (own : Nat) : State :=
  let p := s.part part
  let runs := s.looseFrames p.cfg.fbase p.cfg.flimit
  (s.scrubRange p.cfg.fbase p.cfg.flimit).setPart part
    { p with scrubbed := [], scrubbing := [], toScrub := runs, toOwn := clipRuns p.cfg.fbase own runs }

/-- A physical address lies in slice memory that a partition pins (R59). -/
def PartCfg.pins (c : PartCfg) (pa : Nat) : Bool :=
  decide (sliceBase ≤ pa ∧ pa < sliceBase + sliceBytes) &&
    c.holds (bits pa 21 8 / Config.slicesPerDie) (bits pa 21 8 % Config.slicesPerDie) Config.slicesPerDie &&
    decide (bits pa 0 21 < c.slmem * 65536)

/-- Zero the slice memory of a partition (R59): writes, after which memory-value waits read again (R302), and which spoil the versions
in slots there (R307). -/
def State.zeroSlices (s : State) (c : PartCfg) : State :=
  let mem := s.mem.filter fun x => !c.pins x.1
  let lost := fun (r : VRegion) => (r.vers.filter fun v => v.slot.any fun i => c.pins (r.slotPa i)).map fun v => (r.ctx, r.base, v.gran)
  { s.modTiles fun t => { t with l1 := t.l1.filter fun l => !c.pins (l.line * 64) } with
    mem := mem
    narrow := s.narrow.filter fun x => !c.pins x.pa
    bankWaits := s.bankWaits.map fun b => if c.pins b.pa then b.notice mem b.pa b.w else b
    spoiled := s.regions.flatMap lost ++ s.spoiled }

/-- A partition's range is given out on a release: slice memory is pinned and zeroed, frames go to the Fuller (R474). -/
def State.openPart (s : State) (part : Nat) (reset : Bool) : State :=
  let c := (s.part part).cfg
  let s := if c.en then (s.zeroSlices c).giveFrames part c.ownlim
    else s.setPart part { s.part part with scrubbed := [], scrubbing := [], toScrub := [], toOwn := [] }
  let p := s.part part
  let wait := c.en && decide (runsCount p.toOwn ≠ 0)
  { s.setPart part { p with hold := false, err := false, busy := wait, resetting := reset && wait } with
    fabric := { s.fabric with chipLocked := true } }

/-! ## Partition reset (R476) -/

/-- Tiles of a partition by die × 128 + tile. -/
def PartCfg.hasTile (c : PartCfg) (i : Nat) : Bool :=
  c.holds (i / Config.tilesPerDie) (i % Config.tilesPerDie) Config.tilesPerDie

/-- The partition's tables are cleared (R355, R357, R398, R476 step 6). -/
def State.clearTables (s : State) (part : Nat) : State :=
  s.setPart part { s.part part with weights := [], shapes := [], pools := [] }

/-- Tiles and slice memory cleared (R476 step 6), and the fence map acts (R519). -/
def State.clearPart (s : State) (part : Nat) : State :=
  let p := s.part part
  let c := p.cfg
  let s := { s with
    bolts := s.bolts.filter fun b => !c.hasTile (b.1 / 2)
    tiles := s.tiles.filter fun t => !c.hasTile t.1
    btbs := s.btbs.filter fun b => b.part != part
    front := { s.front with shadows := s.front.shadows.filter fun x => !c.hasTile x.1 }
    svc := { s.svc with fenced := s.svc.fenced ++ s.svc.fence.filter fun i => c.hasTile i && !s.svc.fenced.contains i } }
  s.zeroSlices c

/-- The functions of a partition. -/
def State.fnsOf (s : State) (part : Nat) : List Nat := (s.fns.filter fun f => f.2.part == part).map Prod.fst

/-- Queues with EN = 1 run from FPOS (R466, R476 step 8). -/
def Fn.replay (f : Fn) : Fn :=
  { f with queues := f.queues.map fun (q : Nat × QueueRec) =>
      if q.2.en then (q.1, { q.2 with state := .running, rd := q.2.fpos }) else q }

/-- Reset a partition up to step 8 (R476): level 1 for a write, 2 for a hang, 3 within a device reset. -/
def State.resetWork (s : State) (part level : Nat) : State :=
  let fns := s.fnsOf part
  let mine := fun (n : Nat) => fns.contains n
  let s := s.killStrands fun p => p.part == part
  let s := s.dropQueueWork mine false
  let s := fns.foldl (fun (s : State) n => s.abandonRequests n) (s.ejectTasks mine)
  let s := s.discardWindows fun p _ => p == part
  let s := s.releaseRegions fun r => r.part == part
  let live := (s.part part).released
  let s := (if live then s.clearPart part else s).clearTables part
  let s := { s with
    fullerWaits := s.fullerWaits.filter fun w => w.part != part
    front := { s.front with seen := s.front.seen.filter fun x => !mine (x.1 / 64) } }
  let s := fns.foldl (fun (s : State) n => s.setFn n (s.fn n).replay) s
  let p := s.part part
  let s := s.setPart part { p with resetAt := s.clock, busy := false, resetting := false, level := level, toOwn := [] }
  if live then s.openPart part true else s

/-- Reset a partition (R476). It is left held where HOLD = 1; otherwise its step 8 comes once the owned range is OWNED. -/
def State.resetPart (s : State) (part level : Nat) : State :=
  let s := s.resetWork part level
  if (s.part part).resetting then s else s.scrivener 0 8 part level

/-! ## PARTCTL (R473, R474, R527) -/

/-- A write that takes HOLD from 0 to 1: the frames are to be scrubbed, and no Fuller holds them. During a reset of the partition it
is absorbed by it, and the reset is over with HOLD = 1 (R476). -/
def State.holdPart (s : State) (part : Nat) : State :=
  if (s.part part).hold then s
  else
    let s := if (s.part part).resetting then s else s.resetPart part 1
    let p := s.part part
    let u := s.setPart part { p with
      hold := true, busy := false, resetting := false, toOwn := [], toScrub := [], scrubbed := [], scrubbing := [] }
    if p.resetting then u.scrivener 0 8 part p.level else u

/-- Frames of one die that a range reaches: 2^21 frames each (R57). -/
def PartCfg.reaches (c : PartCfg) (die : Nat) : Bool := decide (c.fbase < (die + 1) * 2 ^ 21 ∧ die * 2 ^ 21 < c.flimit)

/-- Two configurations share a tile or a frame. -/
def PartCfg.overlaps (a b : PartCfg) : Bool :=
  ((genFrom 4 0 fun d => genFrom 2 0 fun h => a.holds d h 2 && b.holds d h 2).any fun l => l.any fun x => x) ||
    decide (a.fbase < b.flimit ∧ b.fbase < a.flimit)

/-- The release of a partition is accepted (R474, R527). A fenced tile counts in no die's tiles (R519). -/
def State.releaseOk (s : State) (part : Nat) : Bool :=
  let c := (s.part part).cfg
  let dies := (genFrom 4 0 id).filter fun d => bit c.dies d
  decide (c.ownlim ≤ c.flimit) &&
    (!c.en ||
      (!dies.isEmpty && c.half != 3 && (c.half == 0 || dies.length == 1) && c.slmem ≤ 32 &&
        (dies.all fun d => decide (c.drtiles ≤ (s.usableTiles part d).length)) && decide (c.fbase < c.flimit) &&
        ((genFrom 4 0 id).all fun d => !c.reaches d || bit c.dies d) &&
        s.parts.all fun q => q.1 == part || !q.2.released || !c.overlaps q.2.cfg))

/-- A write that takes HOLD from 1 to 0 (R474). A device that has not booted, or has accepted no decode image, leaves every
partition held (R109, R516). -/
def State.releasePart (s : State) (part : Nat) : State :=
  let p := s.part part
  if !p.hold || s.svc.boot != 7 || s.svc.image.isNone then s
  else if s.releaseOk part then s.openPart part false
  else s.setPart part { p with err := true }

/-- PARTITION_HOLD (R474, R476). -/
def execPartitionHold (part : Nat) (s : State) : Host.Outcome State Fault Refusal := .next (s.holdPart part)
/-- PARTITION_RST (R473, R476): one requested during a reset of the partition is absorbed by it. -/
def execPartitionRst (part : Nat) (s : State) : Host.Outcome State Fault Refusal :=
  .next (if (s.part part).resetting then s else s.resetPart part 1)
/-- PARTITION_RELEASE (R474, R527). -/
def execPartitionRelease (part : Nat) (s : State) : Host.Outcome State Fault Refusal := .next (s.releasePart part)
/-- OWNED_RANGE_READY (R527): a reset is over with it (R476). -/
def execOwnedRangeReady (part : Nat) (s : State) : Host.Outcome State Fault Refusal :=
  let p := s.part part
  .next (if p.busy ∧ runsCount p.toOwn = 0 then
      let u := s.setPart part { p with busy := false, resetting := false }
      if p.resetting then u.scrivener 0 8 part p.level else u
    else s)

/-! ## Functions (R475 to R477, R512) -/

/-- FNCTL as it reads, in 8 bytes (R475). -/
def Fn.fnctl (f : Fn) (n : Nat) : Nat :=
  f.tenant * 2 ^ 48 + f.part * 2 ^ 41 + f.coal.toNat * 2 ^ 40 + f.privq.toNat * 32 + (n == 0 || f.en).toNat * 16 +
    f.rbusy.toNat * 8

/-- The message of MR0 (R512). -/
def Fn.firstMeasure (f : Fn) (n : Nat) : BitVec 512 :=
  digest512 (bytesOfNat 8 (f.fnctl n) ++ bytesOfNat 8 (f.featmask ||| 1).toNat ++ bytesOfNat 48 0)

/-- MR1 to MR7, MGEN and LOST at a reset (R512). -/
def Fn.resetMeasures (f : Fn) : Fn :=
  { f with
    mr := vecGen 8 fun i => if i = 0 then f.measure 0 else 0
    mgen := f.mgen + 1
    lost := f.lost || (genFrom 7 1 fun i => f.measure i).any fun m => m != 0 }

/-- The translation registers after a function reset (R283): a dash holds. -/
def TransRegs.afterReset (t : TransRegs) : TransRegs :=
  { t with
    prqHead := 0, prqTail := 0, badTag := false, full := false, reqs := [], invBusy := false, invNext := []
    dbmSel := false, dbmEn := false, dbmSelW := false, dbmEnW := false, dbmOvr := false, dbmBusy := false }

/-- A function reset (R476), up to its step 8; a function that is being reset already stays as it is. -/
def State.resetFn (s : State) (n : Nat) : State :=
  if (s.fn n).rbusy then s
  else
    let hit := fun (m : Nat) => m == n
    let s := s.killStrands fun p => p.fn == n
    let s := (s.dropQueueWork hit true).ejectTasks hit
    let s := s.abandonRequests n
    let own := fun (slot : Nat) => (s.ctx slot).fn == n
    let s := s.discardWindows fun _ slot => own slot
    let s := s.parts.foldl (fun (s : State) p => s.dropBlocks p.1 own) s
    let s := s.releaseRegions fun r => r.fn == n
    let f := (s.fn n).resetMeasures
    let s := { s with front := { s.front with seen := s.front.seen.filter fun x => x.1 / 64 != n } }
    s.setFn n { f with
      rbusy := true, queues := [], trans := f.trans.afterReset
      migState := 0, migErr := false, migSize := 0, migBase := 0, migUnits := 0, migRegions := [], migUndo := false, migTook := [] }

/-- FUNCTION_RESET (R476). -/
def execFunctionReset (fn : Nat) (s : State) : Host.Outcome State Fault Refusal := .next (s.resetFn fn)
/-- FUNCTION_RESET_DONE (R476): no row of the function is left, and a reset of its partition is over. -/
def execFunctionResetDone (fn : Nat) (s : State) : Host.Outcome State Fault Refusal :=
  let f := s.fn fn
  .next (if (s.part f.part).resetting then s else s.setFn fn { f with rbusy := false })

/-- Clear PRIVQ (R475): ignored for function 0. -/
def State.clearPrivq (s : State) (fn : Nat) : State :=
  if fn = 0 then s
  else
    let f := s.fn fn
    s.setFn fn { f with privq := false, queues := f.queues.map fun (q : Nat × QueueRec) => (q.1, { q.2 with privl := false }) }

/-- Assign or unassign a function (R475, R512): EN of function 0 is read-only. -/
def State.assign (s : State) (fn : Nat) (on : Bool) : State :=
  let f := s.fn fn
  if fn = 0 ∨ f.en = on then s
  else
    let f := { f with en := on }
    s.setFn fn (if on then { f with mr := vput f.mr 0 (f.firstMeasure fn) } else f)

/-- FUNCTION_ENABLE (R475). -/
def execFunctionEnable (fn : Nat) (on : Bool) (s : State) : Host.Outcome State Fault Refusal := .next (s.assign fn on)
/-- PRIVQ_CLEAR (R475). -/
def execPrivqClear (fn : Nat) (s : State) : Host.Outcome State Fault Refusal := .next (s.clearPrivq fn)

/-! ## Boot and device reset (R478, R516, R517) -/

/-- Frames of a stack that hold its MACs and counter trees, by INTEG (R517): 2.5, 5 or 10 GiB. -/
def integrityFrames (integ : Nat) : Nat := if integ = 0 then 0 else 40960 * 2 ^ (integ - 1)

/-- The first frame of the frame table (R517): below stack 7's integrity area, 2,048 frames. -/
def tableFrame (integ : Nat) : Nat := 2 ^ 23 - integrityFrames integ - 2048

/-- The first frame of the firmware area (R517): below the frame table, 4,096 frames. -/
def firmwareFrame (integ : Nat) : Nat := tableFrame integ - 4096

/-- The frame table as boot step 2 leaves it (R423, R516). -/
def bootFrames (integ : Nat) : List FrameRun :=
  let loose : Frame := ⟨.toScrub, 0, 0, 0, 0⟩
  let fixed : Frame := ⟨.fixed, 0, 0, 0, 0⟩
  (genFrom 8 0 fun k =>
    let top := if k = 7 then firmwareFrame integ else (k + 1) * 2 ^ 20 - integrityFrames integ
    [FrameRun.mk (k * 2 ^ 20) top loose] ++
      if top < (k + 1) * 2 ^ 20 then [FrameRun.mk top ((k + 1) * 2 ^ 20) fixed] else []).flatten

/-- The fence map with tiles added, each once (R519). -/
def fenceWith (fence bad : List Nat) : List Nat :=
  bad.foldl (fun l i => if i < 512 ∧ l.contains i = false then l ++ [i] else l) fence

/-- Boot step 4 (R109, R516): the decode image that is offered is loaded into every tile. -/
def State.bootImage (s : State) : State :=
  let stop := fun (s : State) (n : Nat) => { s with svc := { s.svc with boot := n, offered := none } }
  match s.judged with
  | none => stop s 4
  | some (m, reason) =>
    if reason ≠ 0 then stop (s.scrivener 0 1 reason 0) 4
    else
      let f := s.fn 0
      stop ({ s with
        svc := { s.svc with image := some m, decodes := [] }
        sealEng := { s.sealEng with mdec := m.signed.digest } }.setFn 0 { f with mr := vput f.mr 0 (f.firstMeasure 0) }) 7

/-- The boot sequence (R516): `bad` are tiles that fail self-test; `fails` says that step 2 does. Step 2 sets up the integrity areas
anew: no line, node or root of them has been counted (DEDUCED, log 75). Step 3 fails where the host holds no firmware image ready, or
one that does not verify (R510). -/
def State.bootRun (s : State) (bad : List Nat) (fails : Bool) : State :=
  if s.svc.boot ≠ 0 ∨ s.svc.powered = false then s
  else
    let fence := fenceWith s.svc.fence bad
    let s := { s with svc := { s.svc with fence := fence, fenced := fence } }
    let stop := fun (s : State) (n : Nat) => { s with svc := { s.svc with boot := n } }
    if (genFrom 512 0 id).all fun i => fence.contains i then stop s 1
    else if fails then stop s 2
    else
      let n := s.svc.integ
      let s := { s with
        svc := { s.svc with integNow := n }, frames := bootFrames n, withdrawn := [], withdrawnBlocks := []
        lineCtrs := [], nodeCtrs := [], badNodes := [], flakyNodes := [], treeRoots := []
        host := { s.host with ftBase := tableFrame n * 65536 } }
      match s.svc.firmware with
      | none => stop s 3
      | some m =>
        if m.verifies s.sealEng.romFw then State.bootImage { s with sealEng := { s.sealEng with mfw := m.digest } }
        else stop s 3

/-- A function after a device reset (R475, R478, R512). -/
def Fn.deviceReset (f : Fn) : Fn :=
  let g := f.resetMeasures
  { Fn.reset with mr := vput g.mr 0 0, mgen := g.mgen, lost := g.lost }

/-- The service registers after a device reset (R518 to R526): the always-on domain keeps its own. -/
def Service.deviceReset (v : Service) : Service :=
  { v with
    boot := 0, cerr := false, ceCount := 0, ceLimit := 1000, pwrcap := 3000, ckptDst := 0, ckptGib := 0, ckptErr := false
    ckptState := 0, scrivSel := 0, scrivD := [], gated := [] }

/-- A device reset (R478): every partition, every function and every register; the boot sequence comes next. -/
def State.resetDevice (s : State) : State :=
  let s := (genFrom 8 0 id).foldl (fun (s : State) p =>
    -- one that is being reset absorbs this reset (R476)
    let level := if (s.part p).resetting then (s.part p).level else 3
    (s.resetWork p level).scrivener 0 8 p level) s
  let s := s.dropQueueWork (fun _ => true) true
  { s with
    others := [], narrow := [], bolts := [], tiles := [], drapers := [], bankWaits := [], regions := [], spoiled := [], versWaits := []
    fullerWaits := [], btbs := [], windows := []
    st := s.st.end
    fabric := Fabric.reset
    svc := { s.svc.deviceReset with ceSince := s.clock }
    fns := genFrom 65 0 fun n => (n, (s.fn n).deviceReset)
    parts := (genFrom 8 0 fun p => (p, { Part.reset with resetAt := s.clock }))
    host := ⟨0, 0, 0, false, 0, 0, 0, false⟩
    front := { s.front with orders := [], gangs := [], packets := [], cqWait := [], shadows := [], units := [], seen := [] } }

/-- DEVICE_RESET (R478). -/
def execDeviceReset (s : State) : Host.Outcome State Fault Refusal := .next (if s.svc.powered then s.resetDevice else s)
/-- FUNCTION_LEVEL_RESET (R477). -/
def execFunctionLevelReset (fn : Nat) (s : State) : Host.Outcome State Fault Refusal :=
  .next (if fn = 0 then s.resetDevice else s.resetFn fn)

/-! ## The host link (R468, R471, R472) -/

/-- VIOL_CLEAR (R472). -/
def execViolClear (s : State) : Host.Outcome State Fault Refusal :=
  .next { s with host := { s.host with violCount := 0, violW := false, violFn := 0, violOff := 0 } }

/-- The page of a register offset is private (R470). -/
def privateOffset (fn off : Nat) : Bool :=
  if fn = 0 then !(decide (0x1000 ≤ off ∧ off < 0x4000)) else decide (0x4000 ≤ off)

/-- UNTRUSTED_PRIVATE_ACCESS (R471). -/
def execUntrustedPrivateAccess (fn off : Nat) (w : Bool) (s : State) : Host.Outcome State Fault Refusal :=
  .next (if (s.fn fn).locked && privateOffset fn off then
    let s := if w then s else { s with out := .regRead fn off 0 :: s.out }
    let h := s.host
    let s := { s with host := { h with
      violCount := min (h.violCount + 1) (2 ^ 32 - 1), violW := w, violFn := fn, violOff := off % 2 ^ 22 } }
    if h.violIe then s.raiseMsi 0 h.violVec else s
  else s)

/-- UNSUPPORTED_REQUEST (R468). -/
def execUnsupportedRequest (s : State) : Host.Outcome State Fault Refusal := .next { s with out := .unsupported :: s.out }

/-- TDISP_REQUEST (R471): into state RUN, or out of it. -/
def execTdispRequest (fn : Nat) (run : Bool) (s : State) : Host.Outcome State Fault Refusal :=
  .next (s.setFn fn { s.fn fn with locked := run })

/-- The gangs of a partition are pre-empted. -/
def State.preemptPart (s : State) (part : Nat) : State :=
  (s.front.gangs.filter fun g => (s.st :: s.others).any fun t => t.place.gang == g.id && t.place.part == part).foldl
    (fun (s : State) g => s.preempt g.id) s

/-- DECODE_IMAGE_LOAD (R108 to R110): the image that is offered is loaded into a partition's tiles, once no strand of the
partition is resident, or is refused, with a record in the Scrivener. The arguments say which image it is, by its digest, and
what the firmware core finds of it: with others the event does not take place. -/
def execDecodeImageLoad (part reason : Nat) (digest : BitVec 512) (s : State) : Host.Outcome State Fault Refusal :=
  .next (match s.judged with
    | none => s
    | some (m, found) =>
      if found ≠ reason ∨ m.signed.digest ≠ digest then s else
      let s := { s with svc := { s.svc with offered := none } }
      if reason ≠ 0 then s.scrivener 0 1 reason 0
      else
        let s := s.preemptPart part
        let p := s.part part
        let mine := (genFrom 512 0 id).filter fun i => p.released && p.cfg.hasTile i
        { s with
          svc := { s.svc with decodes := (s.svc.decodes.filter fun d => !mine.contains d.1) ++ mine.map fun i => (i, m) }
          sealEng := { s.sealEng with mdec := m.signed.digest } })

end Sys2Proof.Machine
end

