-- ==== Sys2Proof/Machine/Hang.lean ====
section
/-! DEFINITION. Hang detection (R464), the hang record (R465), orphans and the replay after a hang (R466). -/

namespace Sys2Proof.Machine

/-! ## Orphans (R466) -/

/-- The completion word that an entry carries (R239, R298, R388), if its word takes one. -/
def Entry.completion (x : Entry) : Option Completion :=
  match x.word with
  | .cCp .. | .cFill .. | .bWait .. | .cRwin .. | .bAdd .. | .bMin .. | .bMax .. | .bMinu .. | .bMaxu .. | .bAnd .. | .bOr ..
  | .bXor .. | .bSwap .. | .bFadd .. | .bFadb .. | .bScal .. => some (completionOf x.extA)
  | .cCpd .. | .cGath .. | .cScat .. | .cCvt .. | .cGm .. | .cPeer .. | .cKvg .. | .cKvs .. | .kWr .. | .bVst .. | .bVld ..
  | .bCas .. | .bAxpy .. => some (completionOf x.extB)
  | .mEpi .. => some (completionOf x.extC)
  | .aMerge .. => some (completionOf x.extA)
  | .aAttn .. | .aPart .. => some (completionOf x.extB)
  | _ => none

/-- The entry would advance TAIL, or HEAD, of its strand's handle when it is performed. -/
def Entry.advances (x : Entry) (h : Nat) (tail : Bool) : Bool :=
  match x.word with
  | .vSth _ y _ m _ => tail && m && y.toNat == h
  | .vLdh _ y _ m _ => !tail && m && y.toNat == h
  | .cCp _ _ _ m _ =>
    let c := completionOf x.extA
    c.adv && c.h == h && (routeSides m).2.2 == some tail
  | _ => false

/-- The entry would arrive at, or land bytes for, barrier `g` of its own tile. -/
def Entry.arrives (x : Entry) (g : Nat) : Bool :=
  match x.word with
  | .mMmaG .. => bit x.extC.toNat 20 && bits x.extC.toNat 16 4 == g
  | _ => x.completion.any fun c => (c.land || c.arr) && c.g == g

/-- The entry reaches other members' barriers. -/
def Entry.ganged (x : Entry) : Bool := match x.word with | .cGm .. | .mMmaG .. => true | _ => false

/-- The entry binds a stream register. -/
def Entry.binds (x : Entry) (r : Nat) : Bool := match x.word with | .cBind w .. => w.toNat % 8 == r | _ => false

/-- A unit of a started `c.peer` of this chip that is sent to this chip, without its data. -/
def State.sentHere (s : State) (t : Strand) (x : Entry) : Option PeerUnit :=
  match x.word with
  | .cPeer .. =>
    ((s.order t.place.order).bind fun o => o.grants[bits x.extA.toNat 0 6]?).bind fun g =>
      if x.prog.started && g.kind == 1 && g.chip == s.fabric.chip then
        some ⟨g.chip, (t.place.gang, t.place.member, x.seq), g.chip, t.place.world, g.key, bits x.extA.toNat 16 32, x.opX.toNat,
          x.opZ.toNat, 0, []⟩
      else none
  | _ => none

/-- A unit is sent to a gang. -/
def State.sentTo (s : State) (gang : Nat) (u : PeerUnit) : Bool :=
  (s.receiver u).any fun r => s.front.gangs.any fun i => i.id == gang && i.order == r.1.id && i.linear r.1.op == u.dgang

/-- A peer transfer is in flight to a gang: a part of it has landed, or a unit of it is held. -/
def State.peersTo (s : State) (gang : Nat) : Bool :=
  (s.fabric.xfers.any fun x => x.gang == gang) || s.fabric.inbox.any (s.sentTo gang) ||
    (s.st :: s.others).any fun t => (t.queue 3).any fun x => (s.sentHere t x).any (s.sentTo gang)

/-- A word of the gang's queues, or a peer transfer in flight to the gang, could end a wait of member `t`. -/
def State.couldAdvance (s : State) (t : Strand) (kind i : Nat) : Bool :=
  let g := t.place.gang
  let own := t.queues.toList.flatten
  let all := ((s.st :: s.others).filter fun u => u.place.gang == g).flatMap fun u => u.queues.toList.flatten
  let peers := s.peersTo g
  match kind with
  | 1 => peers || own.any fun x => x.advances i true
  | 2 => own.any fun x => x.advances i false
  | 3 => peers || (own.any fun x => x.arrives i) || all.any fun x => x.ganged && x.arrives i
  | _ => own.any fun x => x.binds i

/-! ## The hang record (R465) -/

/-- The entry at an engine's counter (R28, R465): the body word where a nest is open, or a mark that stands alone. -/
def Strand.headEntry (t : Strand) (e : Nat) : Option Entry :=
  match (t.queue e).filter (fun x => !x.isJoin) with
  | [] => (t.queue e).head?
  | x :: rest => if x.isLoop && x.prog.started then (rest[x.prog.body]?).or (some x) else some x

/-- Bits [47:32] of an engine's second word: VALID, WAIT, ORPHAN, WKIND and WIDX. -/
def State.waitBits (s : State) (t : Strand) (valid : Bool) (w : Option (Nat × Nat)) (held : Bool) : Nat :=
  let kind := (w.map Prod.fst).getD 0
  let i := (w.map Prod.snd).getD 0
  let named := decide (1 ≤ kind ∧ kind ≤ 4)
  valid.toNat + (held || w.isSome).toNat * 2 + (named && !s.couldAdvance t kind i).toNat * 4 + kind * 16 +
    (if named then i % 256 * 256 else 0)

/-- The word at a strand's EPC.S that its tile's instruction cache holds, or else as it stands in memory. -/
def textWord (t : Strand) : M (BitVec 32) := do
  match ← frontLocate t.pc.toNat 4 .read with
  | (l, _) :: _ =>
    match ((← get).tileAt t.place.tileKey).icache.find? fun w => w.pa == l.m.pa && w.banks.getLsbD t.place.bank with
    | some w => return w.word
    | none => return BitVec.ofNat 32 (← frontNat t.pc.toNat 4)
  | [] => return 0

/-- The word at EPC.S: of the unit being fetched, or of the text. One that cannot be read is a free value (log 10). -/
def headWord (t : Strand) : M (BitVec 32) := do
  match t.pfx with
  | w :: _ => return w
  | [] =>
    match ← attempt (textWord t) with
    | .done w => return w
    | _ => return (← freshWord).setWidth 32

/-- A member's block. -/
def hangBlock (s : State) (t : Strand) : M (List Byte) := do
  let w0 ← headWord t
  let line := fun (epc : Word) (w : BitVec 32) (flags : Nat) => bytesOfNat 8 (textAddr epc).toNat ++
    bytesOfNat 8 (w.toNat + flags * 2 ^ 32)
  let core := line t.pc w0 (s.waitBits t true t.waiting (t.stalled || t.hold != .none || t.pend.isSome))
  let engines := (genFrom 6 1 fun e =>
    let epc := t.engineCounter t.pc e
    match t.headEntry e with
    | none => line epc 0 0
    | some x => line epc (encode x.word) (s.waitBits t true x.prog.wait x.isJoin)).flatten
  return core ++ engines ++ bytesOfNat 16 0 ++
    (genFrom 16 0 fun h => bytesOfNat 8 (t.ring h).wordB.toNat ++ bytesOfNat 8 (t.ring h).wordC.toNat).flatten ++
    (genFrom 16 0 fun g => bytesOfNat 8 (t.bar g).word0.toNat ++ bytesOfNat 8 (t.bar g).word1.toNat).flatten

/-- Members of a gang in order. -/
def State.members (s : State) (g : GangInfo) : List Strand :=
  (genFrom g.size 0 id).filterMap fun m => (s.st :: s.others).find? fun t =>
    t.place.gang == g.id && t.place.member == m && t.life != .gone

/-- GX, GY and GZ (R450). -/
def GangInfo.indexWord (g : GangInfo) : Nat := g.gx % 2 ^ 32 + g.gy % 2 ^ 16 * 2 ^ 32 + g.gz % 2 ^ 16 * 2 ^ 48

/-- What a gang's leader says of it, present or retired (R464). -/
structure LeaderInfo where
  hangto : BitVec 32
  part : Nat
  die : Nat
  deriving DecidableEq, Repr

/-- Of a gang's leader: its HANGTO, partition and die. -/
def State.leaderOf (s : State) (g : GangInfo) : Option LeaderInfo :=
  match (s.members g).find? fun t => t.place.member == 0 with
  | some t => some ⟨t.csr.hangto, t.place.part, t.place.die⟩
  | none => g.leader.map fun l => ⟨l.1, l.2.1, l.2.2⟩

/-- The block of member `m`: of one that has retired, of which nothing is left to report, free values (DESIGN CHOICE, log 71). -/
def memberBlock (s : State) (g : GangInfo) (m : Nat) : M (List Byte) := do
  match (s.members g).find? fun t => t.place.member == m with
  | some t => hangBlock s t
  | none => return ((← collectM (genFrom 80 0 id) fun _ => freshWord).map fun w => bytesOfNat 8 w.toNat).flatten

/-- Write the hang record of a gang (R465). -/
def writeHang (s : State) (g : GangInfo) (o : Order) (leader : LeaderInfo) (va : Nat) : M Unit := do
  let head := bytesOfNat 8 (g.hung.getD s.clock - (s.part leader.part).resetAt) ++ bytesOfNat 8 g.indexWord ++
    bytesOfNat 8 (o.pkt.toNat * 2 ^ 32 + g.size) ++ bytesOfNat 8 leader.hangto.toNat ++ bytesOfNat 32 0
  let blocks ← collectM (genFrom g.size 0 id) (memberBlock s g)
  frontWrite va (head ++ blocks.flatten)

/-! ## Detection (R464, R466) -/

/-- The gang has stalled for as long as its leader's limit allows (R464), or has been found hung before. -/
def State.hung (s : State) (g : GangInfo) : Option LeaderInfo :=
  (s.leaderOf g).bind fun l =>
    if g.hung.isSome ∨ (l.hangto ≠ 0 ∧ g.saved = false ∧ l.hangto.toNat * 65536 ≤ g.stall) then some l else none

/-- The hung gangs of a partition. -/
def State.hungGangs (s : State) (part : Nat) : List GangInfo :=
  s.front.gangs.filter fun g => (s.hung g).any fun l => l.part == part

/-- Change a gang. -/
def State.setGang (s : State) (g : Nat) (f : GangInfo → GangInfo) : State :=
  { s with front := { s.front with gangs := s.front.gangs.map fun x => if x.id = g then f x else x } }

/-- Record a hung gang: its hang record, and then the completion for the queue that launched it and the Scrivener's (R465 to R467). A
record that waits on a page is tried again; one that cannot be written is lost. -/
def State.recordHang (s : State) (g : GangInfo) : State :=
  match s.hung g, s.order g.order with
  | some leader, some o =>
    let va := (s.queue o.fn o.queue).hangaddr.toNat
    let tag := ((s.front.packets.find? fun p => p.order == some o.id).map PacketRun.tag).getD 0
    match (if va = 0 then (.done (), s) else s.frontRun o.fn o.queue (writeHang s g o leader va)) with
    | (.waits .., s') => s'
    | (_, s') =>
      let reason := (Config.freeWord s'.freeCount).toNat % 256
      let s' := { s'.setGang g.id (fun g => { g with recorded := true }) with freeCount := s'.freeCount + 1 }
      let s' := s'.pushCq ⟨o.fn, o.queue, 5, o.pkt,
        [tag, BitVec.ofNat 64 reason, BitVec.ofNat 64 va] ++ List.replicate 7 0 ++ [BitVec.ofNat 64 g.indexWord], false, false⟩
      s'.scrivener (scrivSrc o.fn o.queue leader.die) 7 va g.indexWord
  | _, _ => s.setGang g.id fun g => { g with recorded := true }

/-- Write the completion records of a queue that wait, as far as its ring has room; the number bounds them. -/
def State.flushCq (s : State) (fn q : Nat) : Nat → State
  | 0 => s
  | n + 1 => match s.writeCq fn q with | some s' => s'.flushCq fn q n | none => s

/-- A completion record of a queue waits on a page. -/
def State.cqParked (s : State) (fn q : Nat) : Bool :=
  (s.front.cqWait.any fun c => c.fn == fn && c.queue == q) && !(s.frontWaits fn q).1.isEmpty

/-- The hung gangs of a partition stop, their records are written, then the completions of the queues that launched them, and then
the partition is reset (R466). A completion whose ring is full, or whose function is paused, stays pending over the reset: DESIGN
CHOICE (log 71). -/
def State.hangPart (s : State) (part : Nat) : State :=
  let s := (s.hungGangs part).foldl (fun (s : State) g => s.setGang g.id fun g => { g with hung := some (g.hung.getD s.clock) }) s
  let s := ((s.hungGangs part).filter fun g => !g.recorded).foldl (fun s g => s.recordHang g) s
  let gs := s.hungGangs part
  if gs.any fun g => !g.recorded then s
  else
    let qs := ((gs.filterMap fun g => s.order g.order).map fun o => (o.fn, o.queue)).eraseDups
    let s := qs.foldl (fun (s : State) k => s.flushCq k.1 k.2 (s.front.cqWait.length + 1)) s
    if qs.any fun k => s.cqParked k.1 k.2 then s else s.resetPart part 2

/-- HANG_DETECTED (R464 to R466). -/
def execHangDetected (gang : Nat) (s : State) :=
  eventOpt (fun s => (s.front.gangs.find? fun g => g.id == gang).bind fun g =>
    (s.hung g).map fun l => s.hangPart l.part) s

end Sys2Proof.Machine
end

