-- ==== Sys2Proof/Machine/Aes.lean ====
section
/-! DEFINITION. The cipher of the seal engine (R505): AES-256 of FIPS 197 in the XTS mode of IEEE Std 1619. The spec names the
standards and does not restate them (PRESUMED, log 72). -/

namespace Sys2Proof.Machine

/-! ## AES-256. A block and a key are lists of bytes, as numbers. -/

/-- The substitution of FIPS 197. Byte `b` of the table stands at bits 8b. -/
def aesTable : Nat :=
  0xC072A49CAFA2D4ADF04759FA7DC982CA76ABD7FE2B670130C56F6BF27B777C63 +
  0x75B227EBE28012079A059618C323C7041531D871F1E5A534CCF73F362693FDB7 * 2 ^ 256 +
  0xCF584C4A39BECB6A5BB1FC20ED00D153842FE329B3D63B52A05A6E1B1A2C8309 * 2 ^ 512 +
  0xD2F3FF1021DAB6BCF5389D928F40A351A89F3C507F02F94585334D43FBAAEFD0 * 2 ^ 768 +
  0xDB0B5EDE14B8EE4688902A22DC4F816073195D643D7EA7C41744975FEC130CCD * 2 ^ 1024 +
  0x08AE7A65EAF4566CA94ED58D6D37C8E779E4959162ACD3C25C2406490A3A32E0 * 2 ^ 1280 +
  0x9E1DC186B95735610EF6034866B53E708A8BBD4B1F74DDE8C6B4A61C2E2578BA * 2 ^ 1536 +
  0x16BB54B00F2D99416842E6BF0D89A18CDF2855CEE9871E9B948ED9691198F8E1 * 2 ^ 1792

/-- The inverse substitution. Byte `b` of the table stands at bits 8b. -/
def aesInvTable : Nat :=
  0xCBE9DEC444438E3487FF2F9B8239E37CFBD7F3819EA340BF38A53630D56A0952 +
  0x25D18B6D49A25B76B224D92866A12E084EC3FA420B954CEE3D23C2A632947B54 * 2 ^ 256 +
  0x849D8DA75746155EDAB9EDFD5048706C92B6655DCC5CA4D41698688664F6F872 * 2 ^ 512 +
  0x6B8A130103BDAFC1020F3FCA8F1E2CD00645B3B80558E4F70AD3BC8C00ABD890 * 2 ^ 768 +
  0x6EDF751CE837F9E28535ADE72274AC9673E6B4F0CECFF297EADC674F4111913A * 2 ^ 1024 +
  0xF45ACD78FEC0DB9A2079D2C64B3E56FC1BBE18AA0E62B76F89C5291D711AF147 * 2 ^ 1280 +
  0xEF9CC9939F7AE52D0D4AB519A97F51605FEC8027591012B131C7078833A8DD1F * 2 ^ 1536 +
  0x7D0C2155631469E126D677BA7E042B17619953833CBBEBC8B0F52AAE4D3BE0A0 * 2 ^ 1792

/-- The substitution of a byte, or its inverse. -/
def subByte (inv : Bool) (b : Nat) : Nat := (if inv then aesInvTable else aesTable) / 2 ^ (8 * b) % 256

/-- Product with x in GF(2^8). -/
def xtime (b : Nat) : Nat := if b < 128 then 2 * b else (2 * b) ^^^ 0x11B

/-- Product with a constant below 16. -/
def gfMul (k b : Nat) : Nat :=
  let b2 := xtime b
  let b4 := xtime b2
  (if k % 2 = 1 then b else 0) ^^^ (if k / 2 % 2 = 1 then b2 else 0) ^^^ (if k / 4 % 2 = 1 then b4 else 0) ^^^
    (if k / 8 % 2 = 1 then xtime b4 else 0)

/-- XOR of two lists of bytes. -/
def xorBytes (a b : List Nat) : List Nat := List.zipWith (· ^^^ ·) a b

/-- The words of the key schedule, newest first: word `i` and the `n - 1` behind it. -/
def aesExpand : Nat → Nat → Nat → List (List Nat) → List (List Nat)
  | 0, _, _, ws => ws
  | n + 1, i, rcon, ws =>
    let t := ws.headD []
    let u := if i % 8 = 0 then xorBytes ((t.drop 1 ++ t.take 1).map (subByte false)) [rcon, 0, 0, 0]
      else if i % 8 = 4 then t.map (subByte false) else t
    aesExpand n (i + 1) (if i % 8 = 0 then xtime rcon else rcon) (xorBytes (ws.getD 7 []) u :: ws)

/-- The 15 round keys of a 256-bit key, first to last. -/
def aesRoundKeys (key : List Nat) : List (List Nat) :=
  let ws := (aesExpand 52 8 1 ((List.range 8).map fun i => (key.drop (4 * i)).take 4).reverse).reverse
  (List.range 15).map fun r => ((ws.drop (4 * r)).take 4).flatten

/-- Rows shifted: byte r of column c comes from column c + r, or c - r in the inverse. -/
def shiftRows (inv : Bool) (b : List Nat) : List Nat :=
  (List.range 16).map fun i => b.getD (i % 4 + 4 * ((i / 4 + (if inv then 4 - i % 4 else i % 4)) % 4)) 0

/-- Columns mixed with the coefficients of FIPS 197. -/
def mixColumns (inv : Bool) (b : List Nat) : List Nat :=
  let m := if inv then [14, 11, 13, 9] else [2, 3, 1, 1]
  (List.range 16).map fun i =>
    let c := (b.drop (i / 4 * 4)).take 4
    (List.range 4).foldl (fun x j => x ^^^ gfMul (m.getD ((j + 4 - i % 4) % 4) 0) (c.getD j 0)) 0

/-- The rounds of the cipher behind the first round key. -/
def aesRounds : List (List Nat) → List Nat → List Nat
  | [], b => b
  | [k], b => xorBytes (shiftRows false (b.map (subByte false))) k
  | k :: rest, b => aesRounds rest (xorBytes (mixColumns false (shiftRows false (b.map (subByte false)))) k)

/-- The rounds of the inverse cipher, with the round keys last to first. -/
def aesInvRounds : List (List Nat) → List Nat → List Nat
  | [], b => b
  | [k], b => xorBytes ((shiftRows true b).map (subByte true)) k
  | k :: rest, b => aesInvRounds rest (mixColumns true (xorBytes ((shiftRows true b).map (subByte true)) k))

/-- AES-256 of a block, or its inverse. -/
def aes256 (inv : Bool) (key b : List Nat) : List Nat :=
  let ks := if inv then (aesRoundKeys key).reverse else aesRoundKeys key
  match ks with
  | [] => b
  | k :: rest => (if inv then aesInvRounds else aesRounds) rest (xorBytes b k)

/-! ## XTS -/

/-- `n` bytes of a number, the lowest first, as numbers. -/
def natBytes (n x : Nat) : List Nat := (List.range n).map fun i => x / 2 ^ (8 * i) % 256

/-- The tweak of the next block of a data unit. -/
def xtsNext (t : Nat) : Nat := if t < 2 ^ 127 then 2 * t else (2 * t % 2 ^ 128) ^^^ 0x87

/-- The blocks of a data unit, with the tweak of the first. -/
def xtsBlocks (inv : Bool) (key : List Nat) : Nat → Nat → List Nat → List Nat
  | 0, _, _ => []
  | n + 1, t, bs =>
    let tb := natBytes 16 t
    xorBytes (aes256 inv key (xorBytes (bs.take 16) tb)) tb ++ xtsBlocks inv key n (xtsNext t) (bs.drop 16)

/-- XTS-AES-256 of a data unit of whole blocks under its two keys and its tweak, or the inverse. -/
def xts (inv : Bool) (key1 key2 : List Nat) (tweak : Nat) (bs : List Nat) : List Nat :=
  let t := (aes256 false key2 (natBytes 16 tweak)).foldr (fun b x => b + 256 * x) 0
  xtsBlocks inv key1 (bs.length / 16) t bs

end Sys2Proof.Machine
end

