-- ==== Sys2Proof/Machine/Cipher.lean ====
section
/-! DEFINITION. Sealed DRAM as it lies in the stacks (R504 to R506): the ciphertext of a line, and its MAC. Memory itself holds the
plaintext that the seal engine gives to every access of the device. -/

namespace Sys2Proof.Machine

/-- Seal mode, world and KGEN of a DRAM line (R504): of its block for a pool block (R425), of its frame otherwise (R423). -/
def State.lineSeal (s : State) (line : Nat) : Nat × Nat × Nat :=
  let f := s.frameAt (line * 64)
  let block := if f.st = .pool then
      s.parts.findSome? fun p => p.2.pools.findSome? fun q => (q.2.blockAt line).map fun b => (q.2.block b).kgen
    else none
  (f.sealMode, f.world, block.getD f.kgen)

/-- A key as bytes. -/
def keyBytes (k : BitVec 256) : List Nat := (bytesOfNat 32 k.toNat).map BitVec.toNat

/-- The bytes of a line under the key context that is in force for it (R505), or back from it: the tweak holds PA[51:6] and KGEN. -/
def State.lineCipher (s : State) (inv : Bool) (line : Nat) (bs : List Byte) : List Byte :=
  let (mode, w, kgen) := s.lineSeal line
  if mode = 0 then bs
  else
    let k := s.sealEng.world w
    (xts inv (keyBytes k.xts1) (keyBytes k.xts2) (line + kgen * 2 ^ 48) (bs.map BitVec.toNat)).map (BitVec.ofNat 8)

/-- The 64 bytes of a line as they lie in DRAM. -/
def State.dramLine (s : State) (line : Nat) : List Byte := s.lineCipher false line (s.mem.readBytes (line * 64) 64)

/-- The MAC of a mode-2 line (R505), as a number. -/
def State.lineMac (s : State) (line : Nat) : Nat :=
  let k := s.sealEng.world (s.lineSeal line).2.1
  natOfBytes (kmac256 (bytesOfNat 32 k.mac.toNat)
    (s.dramLine line ++ bytesOfNat 8 line ++ bytesOfNat 8 (assoc s.lineCtrs line 0)) 8)

end Sys2Proof.Machine
end

