-- ==== Sys2Proof/Machine/HostAccess.lean ====
section
/-! DEFINITION. Host accesses to device memory (R423, R425, R356, R504). -/

namespace Sys2Proof.Machine

/-- STATE of a frame table entry (R423). -/
def FrameState.code : FrameState → Nat
  | .free => 0 | .owned => 1 | .toScrub => 2 | .scrubbing => 3 | .pool => 4 | .fixed => 5 | .withdrawn => 6

/-- The number behind another one in a list of runs, if the list holds both (R426). -/
def runsNext : List (Nat × Nat) → Nat → Option Nat
  | [], _ => none
  | (lo, hi) :: rest, i =>
    if lo ≤ i ∧ i < hi then (if i + 1 < hi then some (i + 1) else (rest.find? fun r => decide (r.1 < r.2)).map Prod.fst)
    else runsNext rest i

/-- NEXT of a member of either of two lists, or NONE. -/
def nextOf (a b : List (Nat × Nat)) (i : Nat) : Nat := ((runsNext a i).or (runsNext b i)).getD noBlock

/-- A frame table entry in 16 bytes (R423). -/
def State.frameEntry (s : State) (i : Nat) : Nat :=
  let f := frameOf s.frames i
  let next := (s.parts.findSome? fun p => let n := nextOf p.2.scrubbed p.2.toScrub i; if n = noBlock then none else some n).getD noBlock
  next + f.tenant * 2 ^ 32 + f.world * 2 ^ 53 + f.sealMode * 2 ^ 59 + f.st.code * 2 ^ 61 + f.kgen * 2 ^ 112

/-- A block state entry in 16 bytes (R425). -/
def Pool.blockEntry (p : Pool) (b : Nat) : Nat :=
  let x := p.block b
  nextOf p.scrubbed p.toScrub b + x.tenant * 2 ^ 32 + x.st.code * 2 ^ 61 + x.ctx * 2 ^ 64 + x.kgen * 2 ^ 80 + x.ref * 2 ^ 96

/-- What an area holds that the host may read but not write (R423, R425). -/
inductive Guarded where
  | table (i : Nat)
  | blocks (p : Pool) (b : Nat)
  /-- The firmware area and the integrity areas. -/
  | hidden
  deriving DecidableEq, Repr

/-- The guarded area that a DRAM address lies in. -/
def State.guarded (s : State) (pa : Nat) : Option Guarded :=
  let f := frameOf s.frames (pa / 65536)
  match f.st with
  | .fixed =>
    if s.host.ftBase ≤ pa ∧ pa < s.host.ftBase + 2 ^ 27 then some (.table ((pa - s.host.ftBase) / 16)) else some .hidden
  | .pool =>
    (s.parts.flatMap fun p => p.2.pools).findSome? fun p =>
      if p.2.en && decide (p.2.stateFrame ≤ pa / 65536 ∧ pa / 65536 < p.2.endFrame) then
        some (.blocks p.2 ((pa - p.2.stateFrame * 65536) / 16))
      else none
  | _ => none

/-- A byte as the host reads it, and whether the read took a free value: what the tables show, ciphertext of a sealed
frame, and a free value of a poisoned line. -/
def State.hostByte (s : State) (pa k : Nat) : Byte :=
  if dramEnd ≤ pa then s.peek .host pa
  else
    match s.guarded pa with
    | some (.table i) => BitVec.ofNat 8 (bits (s.frameEntry i) (8 * (pa % 16)) 8)
    | some (.blocks p b) => BitVec.ofNat 8 (if b < p.nblk then bits (p.blockEntry b) (8 * (pa % 16)) 8 else 0)
    | some .hidden => 0
    | none =>
      let f := s.frameAt pa
      if s.poison.contains (pa / 64) then (Config.freeWord (s.freeCount + k)).setWidth 8
      else if f.sealMode = 0 then s.peek .host pa
      else (s.lineCipher false (pa / 64) (s.peekBytes .host (pa / 64 * 64) 64)).getD (pa % 64) 0

/-- A host write to one line (R356, R423, R425): dropped and recorded on a protected frame. Into a sealed line it writes ciphertext,
under a MAC that does not match (R504, R505). -/
def State.hostWriteLine (s : State) (pa : Nat) (bs : List Byte) : State :=
  let drop := s.scrivener (scrivSrc 0 0 (pa / 2 ^ 37)) 2 pa 0
  if dramEnd ≤ pa then s.writeHome pa bs
  else if s.weightFrame pa then drop
  else
    match s.guarded pa with
    | some .hidden => s
    | some _ => drop
    | none =>
      let f := s.frameAt pa
      if f.sealMode = 0 then s.writeHome pa bs
      else if s.poison.contains (pa / 64) && bs.length != 64 then s
      else
        let line := pa / 64
        let old := s.dramLine line
        let new := old.take (pa % 64) ++ bs ++ old.drop (pa % 64 + bs.length)
        let s := s.writeHome (line * 64) (s.lineCipher true line new)
        if f.sealMode = 2 ∧ s.badLines.contains line = false then { s with badLines := line :: s.badLines } else s

/-- HOST_MEMORY_ACCESS (R423): a write of bytes, or a read of `n` bytes. An address outside the windows of R57 is completed
as Unsupported Request. -/
def execHostMemoryAccess (w : Bool) (pa n : Nat) (data : List (BitVec 8)) (s : State) : Host.Outcome State Fault Refusal :=
  .next (if w then
    (cutLines (data.length + 1) pa data).foldl (fun (s : State) (c : Nat × List Byte) =>
      if s.inWindow c.1 then s.hostWriteLine c.1 c.2 else { s with out := .unsupported :: s.out }) s
  else if s.inWindow pa && s.inWindow (pa + n - 1) then
    { s with
      out := .hostRead pa (genFrom n 0 fun k => s.hostByte (pa + k) k) :: s.out
      freeCount := s.freeCount + n }
  else { s with out := .unsupported :: s.out })

end Sys2Proof.Machine
end

