-- ==== Sys2Proof/Machine/Migrate.lean ====
section
/-! DEFINITION. Live migration (R479 to R482): the final pause, the image and the resume. -/

namespace Sys2Proof.Machine

/-- Waiting accesses of a function translate again when they next run (R291). -/
def State.dropPageWaits (s : State) (fn : Nat) : State :=
  let clear := fun (ws : List PageWait) => ws.filter fun w => w.fn != fn
  let strand := fun t : Strand => { t with pageWaits := clear t.pageWaits }
  { s with
    st := strand s.st
    others := s.others.map strand
    front := { s.front with units := (s.front.units.map fun (u : Nat × List PageWait × List PageAnswer) =>
      (u.1, clear u.2.1, u.2.2)).filter fun u => !(u.2.1.isEmpty && u.2.2.isEmpty) } }

/-- Gangs of a function. -/
def State.gangsOfFn (s : State) (fn : Nat) : List GangInfo :=
  s.front.gangs.filter fun g => (s.st :: s.others).any fun t => t.place.gang == g.id && t.place.fn == fn && t.life != .gone

/-- Steps 1 to 3 of a pause (R480). A row of the Draper whose request is abandoned translates again at once, since the pause waits for
its task (DEDUCED, log 11). A pause of a paused function keeps the list of the regions that it has spilled. -/
def State.pause (s : State) (fn : Nat) : State :=
  let f := s.fn fn
  if fn = 0 ∨ f.rbusy = true ∨ f.migState = 1 ∨ f.migState = 3 then s
  else
    let rs := (s.regions.filter fun r => r.fn == fn).map fun r => (r.ctx, r.base, r.recVa)
    let s := s.setFn fn { f with migState := 1, migErr := false, migRegions := if f.migState = 2 then f.migRegions else rs }
    let s := (s.gangsOfFn fn).foldl (fun (s : State) g => s.preempt g.id) s
    let s := (s.abandonRequests fn).dropPageWaits fn
    let s := (s.draperGranules fn).foldl (fun (s : State) g => s.answerDraper fn g 0) s
    s.expireTasks fn

/-- The front end's place for a context of a function. -/
def State.ctxPlace (s : State) (fn ctx : Nat) : Place := { s.frontPlace fn 0 with slot := ctx, world := (s.ctx ctx).world }

/-- Spill the regions of a function, each as a `b.vreg.spill` of its context (R310); the answer is what the first one that waits met.
One whose spill traps is released, and its record is left as it is: DESIGN CHOICE (log 11). -/
def State.spillAll (s : State) (fn : Nat) : List VRegion → Attempt Unit × State
  | [] => (.done (), s)
  | r :: rest =>
    let place := s.ctxPlace fn r.ctx
    match s.unitRun (fn * 64) place (performBVregSpill (deskEntry (.bVregSpill 0 0 false) r.base r.recVa 0 place.world)) with
    | (.done _, s') => s'.spillAll fn rest
    | (.trapped _, s') => (s'.releaseRegion r).spillAll fn rest
    | (.waits g va, s') => (.waits g va, s')

/-- The Held blocks that a function's contexts took (R480 step 6). -/
def State.heldBlocks (s : State) (fn : Nat) : List ImageBlock :=
  (s.part (s.fn fn).part).pools.flatMap fun p => p.2.blocks.flatMap fun r =>
    if r.2.2.st = .held ∧ (s.ctx r.2.2.ctx).fn = fn then
      (genFrom (r.2.1 - r.1) r.1 id).map fun b => ⟨p.1, p.2.fmtd, p.2.v, p.2.nblk, b, r.2.2.ctx, r.2.2.ref⟩
    else []

/-- The image of a function, numbered (R480 step 6). -/
def State.imageOf (s : State) (fn id : Nat) (regions : List (Nat × Nat × Nat)) : Image :=
  let gangs := s.gangsOfFn fn
  { id := id
    strands := (s.st :: s.others).filter fun t => t.place.fn == fn && t.life == .saved
    gangs := gangs
    orders := s.front.orders.filter fun o => o.fn == fn
    packets := s.front.packets.filter fun p => p.fn == fn
    regions := regions
    blocks := s.heldBlocks fn }

/-- The image area, of `n` bytes, reaches a weight region: the image is not written there (R356). -/
def State.imageBarred (s : State) (f : Fn) (n : Nat) : Bool :=
  (genFrom ((n + 65535) / 65536) f.migBase fun i => s.weightFrame (i * 65536)).any id

/-- Steps 4 to 6 of a pause, once no slot holds a task of the function. A spill that waits on a page is taken up again. -/
def State.paused (s : State) (fn : Nat) : Option State :=
  let busy := s.drapers.any fun d => d.2.tasks.any fun t => t.fn == fn
  if (s.fn fn).migState ≠ 1 ∨ busy = true then none
  else
    let s1 := s.discardWindows fun _ slot => (s.ctx slot).fn == fn
    match s1.spillAll fn (s1.regions.filter fun r => r.fn == fn) with
    | (.waits .., s') => s1.waitNews s' fn 0
    | (_, s') =>
      let id := s'.images.length
      let size := Config.imageSize id
      let f := s'.fn fn
      let s' := { s' with images := s'.images ++ [s'.imageOf fn id f.migRegions] }
      if f.migUnits * 65536 < size ∨ s'.imageBarred f size = true then
        some (s'.setFn fn { f with migErr := true, migState := 2, migSize := size })
      else
        some ((s'.writeHome (f.migBase * 65536) (genFrom size 0 fun k => Config.imageByte id k)).setFn fn
          { f with migState := 2, migSize := size })

/-- The image that stands in a function's image area, of those that are known, the last one first. -/
def State.imageAt (s : State) (f : Fn) : Option Image :=
  s.images.reverse.find? fun i =>
    let n := Config.imageSize i.id
    decide (n ≤ f.migUnits * 65536) && s.peekBytes .device (f.migBase * 65536) n == genFrom n 0 fun k => Config.imageByte i.id k

/-- Register the regions of an image that this resume has not registered yet (R308). -/
def State.registerAll (s : State) (fn : Nat) : List (Nat × Nat × Nat) → Attempt Unit × State
  | [] => (.done (), s)
  | (ctx, base, va) :: rest =>
    if (s.fn fn).migTook.contains (ctx, base) then s.registerAll fn rest
    else
      let place := s.ctxPlace fn ctx
      match s.unitRun (fn * 64) place (registerRegion (deskEntry (.bVreg 0 0 false) base va 0 place.world)) with
      | (.done _, s') => (s'.setFn fn { s'.fn fn with migTook := (s'.fn fn).migTook ++ [(ctx, base)] }).registerAll fn rest
      | (.trapped t, s') => (.trapped t, s')
      | (.waits g va, s') => (.waits g va, s')

/-- A listed block may be taken: its pool is the same and it is Free (R481). -/
def State.blockFits (s : State) (part : Nat) (b : ImageBlock) : Bool :=
  let p := s.pool part b.pool
  p.en && p.fmtd == b.fmtd && p.v == b.v && p.nblk == b.nblk && (p.block b.block).st == .free

/-- Take a listed block with its REF. -/
def State.takeListed (s : State) (fn : Nat) (b : ImageBlock) : State :=
  let part := (s.fn fn).part
  let p := s.pool part b.pool
  s.setPool part b.pool
    { p.setBlock b.block { p.block b.block with st := .held, ref := b.ref, tenant := s.tenant fn, ctx := b.ctx } with
      scrubbed := runsDrop p.scrubbed b.block }

/-- Restore the contexts of an image as saved gangs, under fresh gang and order numbers. -/
def State.restore (s : State) (fn : Nat) (i : Image) : State :=
  let g0 := s.front.nextGang
  let o0 := s.front.nextOrder
  let part := (s.fn fn).part
  let gang := fun (n : Nat) => n + g0
  let order := fun (n : Nat) => n + o0
  let strand := fun (t : Strand) =>
    { t with
      life := .saved
      place := { t.place with gang := gang t.place.gang, order := order t.place.order, fn := fn, part := part }
      queues := t.queues.map fun q => q.map Entry.reloads
      mat := { t.mat with loads := t.mat.loads.map fun l => { l with stale := true } } }
  let top := fun (l : List Nat) => l.foldl max 0 + 1
  { s with
    others := s.others ++ i.strands.map strand
    front := { s.front with
      gangs := s.front.gangs ++ i.gangs.map fun (g : GangInfo) => 
        { g with id := gang g.id, order := order g.order, saved := true, leader := g.leader.map fun l => (l.1, part, l.2.2) }
      orders := s.front.orders ++ i.orders.map fun (o : Order) => { o with id := order o.id, fn := fn }
      packets := s.front.packets ++ i.packets.map fun (p : PacketRun) =>
        { p with fn := fn, order := p.order.map order, detached := true }
      nextGang := g0 + top (i.gangs.map GangInfo.id)
      nextOrder := o0 + top (i.orders.map Order.id) } }

/-- A pause or resume of a function is over. -/
def Fn.migrated (f : Fn) (err : Bool) : Fn :=
  { f with migState := 0, migErr := err, migRegions := [], migUndo := false, migTook := [] }

/-- A resume that fails (R481): what it took is released and nothing is placed; where it was to undo a pause, what was paused goes. -/
def State.resumeFails (s : State) (fn : Nat) : State :=
  let f := s.fn fn
  let s := s.releaseRegions fun r => f.migTook.contains (r.ctx, r.base)
  let s := if f.migUndo then (s.killStrands fun p => p.fn == fn).dropQueueWork (fun n => n == fn) false else s
  s.setFn fn ((s.fn fn).migrated true)

/-- The checks and takes of a resume (R481): from the image, or of what a pause of this device has left. One that waits on a page stays
resuming. -/
def State.tryResume (s : State) (fn : Nat) : Option State :=
  let f := s.fn fn
  let found := if f.migUndo then some (f.migRegions, none) else (s.imageAt f).map fun i => (i.regions, some i)
  match found with
  | none => some (s.resumeFails fn)
  | some (regions, image) =>
    let blocks := (image.map Image.blocks).getD []
    if !f.en || (f.queues.any fun q => q.2.en) || !(blocks.all (s.blockFits f.part)) then some (s.resumeFails fn)
    else
      match s.registerAll fn regions with
      | (.waits .., s') => s.waitNews s' fn 0
      | (.trapped _, s') => some (s'.resumeFails fn)
      | (.done _, s') =>
        let s' := blocks.foldl (fun (s : State) b => s.takeListed fn b) s'
        let s' := s'.setFn fn ((s'.fn fn).migrated false)
        some (match image with | some i => s'.restore fn i | none => s')

/-- A write of RESUME (R481, R482); on a paused function it undoes the pause. -/
def State.resume (s : State) (fn : Nat) : State :=
  let f := s.fn fn
  if fn = 0 ∨ f.rbusy = true ∨ f.migState = 1 ∨ f.migState = 3 then s
  else
    let s := s.setFn fn { f with migState := 3, migUndo := f.migState == 2, migTook := [] }
    (s.tryResume fn).getD s

/-- MIGRATION_PAUSE (R480). -/
def execMigrationPause (fn : Nat) (s : State) : Host.Outcome State Fault Refusal := .next (s.pause fn)
/-- MIGRATION_PAUSED (R480). -/
def execMigrationPaused (fn : Nat) (s : State) := eventOpt (fun s => s.paused fn) s
/-- MIGRATION_RESUME (R481): a resume is asked for, or one that waits goes on. -/
def execMigrationResume (fn : Nat) (s : State) : Host.Outcome State Fault Refusal :=
  .next (if (s.fn fn).migState = 3 then (s.tryResume fn).getD s else s.resume fn)

end Sys2Proof.Machine
end

