-- ==== Sys2Proof/Machine/Service.lean ====
section
/-! DEFINITION. Service (R507, R511, R516 to R526): power, errors and fences, islands and temperature, checkpoints, and the
reading of the Scrivener. -/

namespace Sys2Proof.Machine

/-! ## Power (R467, R511, R512, R516) -/

/-- Power is applied: only what survives power loss is kept, which is the monotonic store (R511, R519), the mask ROM (R510) and what
the host holds. -/
def State.powerOn (s : State) : State :=
  { State.reset with
    mem := s.mem.filter fun c => hostBase ≤ c.1
    svc := { Service.reset with fence := s.svc.fence, firmware := s.svc.firmware }
    sealEng := { State.reset.sealEng with leaf := s.sealEng.leaf, romFw := s.sealEng.romFw, romDec := s.sealEng.romDec }
    moves := s.moves, out := s.out, freeCount := s.freeCount }

/-- POWER_ON (R516): while power is applied there is none to apply. -/
def execPowerOn (s : State) : Host.Outcome State Fault Refusal := .next (if s.svc.powered then s else s.powerOn)

/-- POWER_REMOVED (R511): `leaf` says that an identity leaf was advanced and its signature not yet released. -/
def execPowerRemoved (leaf : Bool) (s : State) : Host.Outcome State Fault Refusal :=
  .next { s with
    st := s.st.end, others := [], scriv := [], scrivCount := 0
    mem := s.mem.filter fun c => !(decide (sliceBase ≤ c.1 ∧ c.1 < sliceBase + sliceBytes))
    sealEng := { s.sealEng with leaf := s.sealEng.leaf + (leaf && decide (s.sealEng.leaf < leafCount)).toNat }
    svc := { s.svc with powered := false, boot := 0 } }

/-! ## Errors (R507, R508, R519 to R521) -/

/-- INTEG_REREAD (R507, R508): a mode-2 line that failed its check on a read for no strand is read again, and passes or is
mismatched. -/
def execIntegReread (line : Nat) (pass : Bool) (s : State) : Host.Outcome State Fault Refusal :=
  .next (if dramEnd ≤ line * 64 ∨ (s.frameAt (line * 64)).sealMode ≠ 2 then s
    else if pass then s.transient line else s.mismatched line)

/-- A line meets an error (R507, R508): a check that fails for good, or once, is met by the next read of a mode-2 line,
and by the next scrub of any line (R432); an uncorrectable error during a scrub is one that its read-back meets. -/
def State.lineFault (s : State) (line kind : Nat) : State :=
  let add := fun (l : List Nat) => if l.contains line then l else line :: l
  if dramEnd ≤ line * 64 then s
  else if kind = 2 then
    (fun (s : State) => if s.scrubs line then { s with badLines := add s.badLines } else s) (s.poisonLine line)
  else if kind = 1 then { s with badLines := add s.badLines }
  else { s with flakyLines := add s.flakyLines }

/-- A node of a counter tree meets an error (R506, R507). -/
def State.nodeFault (s : State) (level index kind : Nat) : State :=
  let add := fun (l : List (Nat × Nat)) => if l.contains (level, index) then l else (level, index) :: l
  if level = 0 ∨ s.treeLevels < level then s
  else if kind = 0 then { s with flakyNodes := add s.flakyNodes }
  else { s with badNodes := add s.badNodes }

/-- A tile's bit of the fence map is set: it acts at once unless the tile runs for a partition (R519). -/
def State.fenceTile (s : State) (i : Nat) : State :=
  let running := s.parts.any fun p => p.2.released && p.2.cfg.hasTile i
  let add := fun (l : List Nat) => if l.contains i then l else l ++ [i]
  { s with svc := { s.svc with fence := add s.svc.fence, fenced := if running then s.svc.fenced else add s.svc.fenced } }

/-- The strand that is active on a tile meets POISON (R508, R519), against the unit that it is at, with a free value as TVAL: DESIGN
CHOICE, the spec says neither which word an SRAM error reaches nor what its TVAL is (log 74). -/
def State.poisonTile (s : State) (i : Nat) : State :=
  match (s.st :: s.others).find? fun t => t.life == .active && t.place.tileKey == i && t.pend.isNone with
  | none => s
  | some t =>
    let p := s.st.place
    let u := { s with freeCount := s.freeCount + 1 }.select t.place.gang t.place.member
    (u.raise u.st.pc ⟨.poison, 0, Config.freeWord s.freeCount⟩).select p.gang p.member

/-- SRAM_UNCORRECTABLE_ERROR (R519): the second one of a tile within 2^36 cycles fences it; while the tile runs, its strand meets it
as poison. -/
def execSramUncorrectableError (die tile : Nat) (s : State) : Host.Outcome State Fault Refusal :=
  let i := (die * Config.tilesPerDie + tile) % 512
  let again := s.svc.sramErrors.any fun e => e.1 == i && decide (s.clock - e.2 ≤ 2 ^ 36)
  let s := { s with svc := { s.svc with sramErrors := (s.svc.sramErrors.filter fun (e : Nat × Nat) => e.1 != i) ++ [(i, s.clock)] } }
  .next ((if again then s.fenceTile i else s).poisonTile i)

/-- CORRECTABLE_ERROR (R521). -/
def execCorrectableError (s : State) : Host.Outcome State Fault Refusal := .next (s.correctable 1)
/-- CE_WINDOW_EXPIRY (R521): where the window's 2^40 cycles are over. -/
def execCeWindowExpiry (s : State) : Host.Outcome State Fault Refusal := .next s.ceRoll

/-! ## Islands (R522 to R524) -/

/-- What an island serves (R522). -/
inductive Island where
  | tile (die tile : Nat)
  /-- One of the four groups of 16 slices of a compute die. -/
  | slices (die group : Nat)
  /-- A compute die's Draper, cache-context unit and Fuller. -/
  | units (die : Nat)
  | dieLinks (die : Nat)
  | dram (die half : Nat)
  /-- Link k on I/O die k. -/
  | hostLink (io : Nat)
  /-- A pair of an I/O die's eight fabric ports. -/
  | ports (io pair : Nat)
  | computeLinks (io : Nat)
  | sealHalf (io : Nat)
  | frontEnd
  | firmware
  deriving DecidableEq, Repr

/-- The islands by number: the tiles, eight for each compute die, seven for each I/O die, and two more on I/O die 0. The numbers are the
model's: DESIGN CHOICE, R522 numbers none (log 77). -/
def islandOf (i : Nat) : Option Island :=
  if i < 512 then some (.tile (i / 128) (i % 128))
  else if i < 544 then
    let d := (i - 512) / 8
    let k := (i - 512) % 8
    some (if k < 4 then .slices d k else if k = 4 then .units d else if k = 5 then .dieLinks d else .dram d (k - 6))
  else if i < 558 then
    let d := (i - 544) / 7
    let k := (i - 544) % 7
    some (if k = 0 then .hostLink d else if k < 5 then .ports d (k - 1) else if k = 5 then .computeLinks d else .sealHalf d)
  else if i = 558 then some .frontEnd
  else if i = 559 then some .firmware
  else none

/-- The compute die that an island lies on. -/
def Island.die : Island → Option Nat
  | .tile d _ | .slices d _ | .units d | .dieLinks d | .dram d _ => some d
  | _ => none

/-- The islands of a compute die. -/
def islandsOf (die : Nat) : List Nat := (genFrom 560 0 id).filter fun i => ((islandOf i).bind Island.die) == some die

/-- The clock of an island in units of 25 MHz: 2.25 GHz unless it is lowered. -/
def State.islandClock (s : State) (i : Nat) : Nat := assoc s.svc.slow i 90

/-- Set the clock of an island between 0.6 and 2.25 GHz (R523). -/
def State.setIsland (s : State) (i c : Nat) : State :=
  let c := max 24 (min c 90)
  let rest := s.svc.slow.filter fun e => e.1 != i
  { s with svc := { s.svc with slow := if c = 90 then rest else rest ++ [(i, c)] } }

/-- POWER_BRAKE (R523): every tile island at 0.6 GHz. -/
def execPowerBrake (s : State) : Host.Outcome State Fault Refusal :=
  .next { s with svc := { s.svc with
    slow := (genFrom 512 0 fun i => (i, 24)) ++ s.svc.slow.filter fun e => decide (512 ≤ e.1) } }

/-- POWER_LIMIT_THROTTLE (R523): the firmware sets the clock of an island. -/
def execPowerLimitThrottle (island clock : Nat) (s : State) : Host.Outcome State Fault Refusal :=
  .next (if island < 560 then s.setIsland island clock else s)

/-- THERMAL_THRESHOLD (R523, R524): the junction of a compute die, or a DRAM stack, reaches a temperature. The clocks of
the die's islands go one step down where they are to be lowered; the refresh of a stack is doubled while it is hot. -/
def execThermalThreshold (dram : Bool) (unit degrees : Nat) (s : State) : Host.Outcome State Fault Refusal :=
  let die := if dram then unit / 2 else unit
  .next (if (if dram then 105 else 115) ≤ degrees then s.resetDevice
    else
      let rest := s.svc.refresh2.filter (· != unit)
      let s := if dram then { s with svc := { s.svc with refresh2 := if 85 ≤ degrees then rest ++ [unit] else rest } } else s
      if 95 ≤ degrees then (islandsOf die).foldl (fun (s : State) i => s.setIsland i (s.islandClock i - 1)) s
      else s)

/-- TLM_REFRESH (R524): the power in watts and the hottest junction and stack in degrees Celsius. -/
def execTlmRefresh (watts junction stack : Nat) (s : State) : Host.Outcome State Fault Refusal :=
  .next { s with svc := { s.svc with
    tlm := BitVec.ofNat 64 (watts % 2 ^ 12 * 2 ^ 52 + junction % 256 * 2 ^ 40 + stack % 256 * 2 ^ 32 + s.svc.slow.length % 1024) } }

/-! ## Checkpoints (R525) -/

/-- CKPTCTL start. -/
def State.ckptStart (s : State) : State :=
  if s.svc.ckptState ≠ 0 ∨ s.svc.ckptDst = 0 then { s with svc := { s.svc with ckptErr := true } }
  else
    let s := { s with svc := { s.svc with ckptState := 1, ckptGib := 0, ckptErr := false } }
    s.front.gangs.foldl (fun (s : State) g => s.preempt g.id) s

/-- CKPTCTL resume. -/
def State.ckptResume (s : State) : State :=
  if s.svc.ckptState = 2 then { s with svc := { s.svc with ckptState := 0 } } else s

/-- Lines of the sealed frames, in address order. -/
def State.sealedLines (s : State) : List Nat :=
  s.frames.flatMap fun r => if r.frame.sealMode = 0 then [] else genFrom ((r.hi - r.lo) * 1024) (r.lo * 1024) id

/-- The stream (R525): DRAM as it lies there, sealed lines as ciphertext (R504), with what the device keeps in it, and pinned slice
memory. -/
def State.ckptImage (s : State) : Checkpoint :=
  { mem := s.mem.filter fun c => decide (c.1 < sliceBase + sliceBytes) && (s.sealAt c.1).1 == 0
    sealedLines := s.sealedLines.map fun l => (l, s.dramLine l)
    frames := s.frames
    lists := s.parts.map fun p => (p.1, p.2.scrubbed, p.2.toScrub)
    pools := s.parts.map fun p => (p.1, p.2.pools)
    saved := (s.st :: s.others).filter fun t => t.life == .saved
    macs := (s.lineCtrs.filter fun c => s.mode2 c.1).map fun c => (c.1, s.lineMac c.1, c.2)
    nodes := s.nodeCtrs }

/-- CKPT_START (R525). -/
def execCkptStart (s : State) : Host.Outcome State Fault Refusal := .next s.ckptStart
/-- CKPT_DONE (R525): 512 GiB of DRAM have been streamed, and the pinned slice memory. -/
def execCkptDone (s : State) : Host.Outcome State Fault Refusal :=
  .next (if s.svc.ckptState = 1 then
    { s with
      svc := { s.svc with ckptState := 2, ckptGib := 512 }
      out := .checkpoint s.svc.ckptDst s.ckptImage :: s.out }
  else s)
/-- CKPT_RESUME (R525). -/
def execCkptResume (s : State) : Host.Outcome State Fault Refusal := .next s.ckptResume

/-! ## The Scrivener (R467, R526) -/

/-- The four words of a record. -/
def ScrivRec.words (r : ScrivRec) : List Word :=
  [BitVec.ofNat 64 r.time, BitVec.ofNat 64 (r.src % 2 ^ 16 * 2 ^ 48 + r.event % 2 ^ 16 * 2 ^ 32 + r.seq % 2 ^ 32),
   BitVec.ofNat 64 r.a, BitVec.ofNat 64 r.b]

/-- SCRIVSEL_WRITE (R526): a snapshot of a slot; one that holds no record gives free values. -/
def execScrivselWrite (slot : Nat) (s : State) : Host.Outcome State Fault Refusal :=
  let k := slot % 4096
  .next (match s.scriv.find? fun r => r.seq % 4096 == k with
    | some r => { s with svc := { s.svc with scrivSel := k, scrivD := r.words } }
    | none => { s with
      svc := { s.svc with scrivSel := k, scrivD := genFrom 4 s.freeCount Config.freeWord }
      freeCount := s.freeCount + 4 })

end Sys2Proof.Machine
end

