-- ==== Sys2Proof/Machine/Registers.lean ====
section
/-! DEFINITION. The register pages (R470 to R473, R475, R479, R283, R442): what each register reads as, and a write applied
field by field (R8, R9). Offsets are those of the function's BAR0. -/

namespace Sys2Proof.Machine

/-! ## Reads -/

/-- STATE of a queue record (R442). -/
def QState.code : QState → Nat | .off => 0 | .running => 1 | .halted => 2

/-- A word of a queue record (R442). -/
def QueueRec.read (r : QueueRec) (off : Nat) : Nat :=
  match off with
  | 0 => r.base
  | 8 => r.reason * 2 ^ 40 + r.state.code * 2 ^ 32 + r.en.toNat * 2 ^ 29 + r.privl.toNat * 2 ^ 28 + r.ctx * 2 ^ 16 + r.logn
  | 16 => r.fpos.toNat * 2 ^ 32 + r.rd.toNat
  | 24 => r.cqbase
  | 32 => r.cqtail.toNat * 2 ^ 32 + r.ie.toNat * 2 ^ 16 + r.vec * 2 ^ 8 + r.cqlogn
  | 40 => r.hangto.toNat * 2 ^ 32 + r.cqhead.toNat
  | 48 => r.stkbase.toNat
  | 56 => r.argbase.toNat
  | 64 => r.hangaddr.toNat
  | 72 => r.stkarea
  | 80 => r.kickpa * 64
  | _ => 0

/-- A word of the MSI-X table: address, or data and mask (R470; PCI Express gives the layout). -/
def Fn.msixRead (f : Fn) (off : Nat) : Nat :=
  let e := assoc f.msix (off / 16) (0, 0, false)
  if off % 16 < 8 then e.1 else e.2.1 + e.2.2.toNat * 2 ^ 32

/-- A word of the PBA. -/
def Fn.pbaRead (f : Fn) (off : Nat) : Nat :=
  (genFrom 64 0 fun i => if f.pba.contains (off * 8 + i) then 2 ^ i else 0).sum

/-- A translation register of R283, by its place in the table. -/
def TransRegs.read (t : TransRegs) (k : Nat) : Nat :=
  match k with
  | 0 => t.s2root * 65536 + t.s2en.toNat
  | 1 => t.prqBase * 4096 + t.prqLogn
  | 2 => t.prqVec * 256 + t.prqIe.toNat * 2 + t.prqEn.toNat
  | 3 => t.prqHead.toNat
  | 4 => t.prqTail.toNat
  | 5 => t.reqs.length * 2 ^ 16 + t.badTag.toNat * 2 + t.full.toNat
  | 8 => t.invBusy.toNat
  | 9 => t.dbmBase0 * 4096
  | 10 => t.dbmBase1 * 4096
  | 11 => t.dbmLen * 2 ^ 32 + t.dbmSelW.toNat * 2 + t.dbmEnW.toNat
  | 12 => t.dbmOvr.toNat * 2 + t.dbmBusy.toNat
  | _ => 0

/-- QOS (R475). -/
def Fn.qos (f : Fn) : Nat := f.pcw * 2 ^ 24 + f.sbw * 2 ^ 16 + f.daw * 2 ^ 8 + f.few

/-- A register of function `n`'s block in the physical function's page (R470). -/
def Fn.read (f : Fn) (n off : Nat) : Nat :=
  match off with
  | 0 => f.fnctl n
  | 8 => (f.featmask ||| 1).toNat
  | 16 => f.qos
  | 32 => if n = 0 then 0 else f.migSize * 2 ^ 32 + f.migErr.toNat * 4 + f.migState
  | 40 => if n = 0 then 0 else f.migBase * 65536 + f.migUnits
  | _ => if 64 ≤ off ∧ n ≠ 0 then f.trans.read ((off - 64) / 8) else 0

/-- A word of a weight region entry (R355). -/
def WeightEntry.read (w : WeightEntry) (off : Nat) : Nat :=
  match off with
  | 0 => bits w.id 0 64
  | 8 => bits w.id 64 64
  | 16 => w.en.toNat * 2 ^ 63 + w.st * 2 ^ 61 + w.world * 2 ^ 52 + w.frame * 2 ^ 16
  | _ => w.ngr * 2 ^ 48 + w.k * 2 ^ 31 + w.n * 2 ^ 24 + w.wdesc * 2 ^ 16 + w.cstr

/-- A register of partition `p`'s page (R473, R527, R355, R357). -/
def Part.read (p : Part) (off : Nat) : Nat :=
  let c := p.cfg
  match off with
  | 0 => c.en.toNat * 2 ^ 63 + c.slmem * 2 ^ 48 + c.drtiles * 2 ^ 40 + c.kstep.toNat * 2 ^ 39 + c.half * 2 ^ 34 + c.dies
  | 8 => c.flimit * 2 ^ 32 + c.fbase
  | 16 => p.err.toNat * 4 + p.busy.toNat * 2 + p.hold.toNat
  | 24 => c.ownlim
  | _ =>
    if 0x2000 ≤ off ∧ off < 0x4000 then (assoc p.weights ((off - 0x2000) / 32) WeightEntry.clear).read (off % 32)
    else if 0x4000 ≤ off ∧ off < 0x4800 then assoc p.shapes ((off - 0x4000) / 8) 0
    else 0

/-- SVCSTAT (R520). -/
def State.svcstat (s : State) : Nat :=
  let v := s.svc
  let left := leafCount - s.sealEng.leaf
  let leaf := decide (left < 2 ^ 16)
  let fence := !v.fence.isEmpty
  v.boot * 2 ^ 52 + (512 - v.fenced.length) * 2 ^ 42 + min (left / 1024) 1023 * 2 ^ 32 + leaf.toNat * 8 + fence.toNat * 4 +
    v.cerr.toNat * 2 + (v.cerr || fence || leaf).toNat

/-- A device register (R472, R485, R518 to R526). -/
def State.readDevice (s : State) (off : Nat) : Nat :=
  let v := s.svc
  let h := s.host
  match off with
  | 0x000 => h.ctxBase
  | 0x008 => h.ftBase
  | 0x018 => h.violCount * 2 ^ 32 + h.violW.toNat * 2 ^ 29 + h.violFn * 2 ^ 22 + h.violOff
  | 0x020 => h.violVec * 2 ^ 8 + h.violIe.toNat
  | 0x100 => s.fabric.chip
  | 0x108 => s.fabric.err.toNat * 2 ^ 16 + s.fabric.up.toNat
  | 0x110 => s.fabric.advEn.toNat * 2 ^ 63 + s.fabric.advParts.toNat
  | 0x200 => v.integ
  | 0x208 => s.svcstat
  | 0x210 => v.ceCount * 2 ^ 32 + v.ceLimit
  | 0x218 => v.pwrcap
  | 0x220 => v.tlm.toNat
  | 0x230 => v.ckptDst
  | 0x240 => v.ckptGib * 2 ^ 32 + v.ckptErr.toNat * 4 + v.ckptState
  | 0x248 => v.scrivSel
  | 0x250 => (v.scrivD.getD 0 0).toNat
  | 0x258 => (v.scrivD.getD 1 0).toNat
  | 0x260 => (v.scrivD.getD 2 0).toNat
  | 0x268 => (v.scrivD.getD 3 0).toNat
  | 0x270 => if s.scrivCount = 0 then 2 ^ 32 else (s.scrivCount - 1) % 2 ^ 32
  | _ => 0

/-- A kick register reads as WR, and as zero while KICKPA does not name memory that is pinned for it (R443, R470). -/
def State.readKick (s : State) (fn q : Nat) : Nat := if s.kickOk fn q then (s.queueWr fn q).toNat else 0

/-- What a register reads as (R470): an 8-byte aligned offset of a function's BAR0. -/
def State.readReg (s : State) (fn off : Nat) : Nat :=
  let f := s.fn fn
  if fn = 0 then
    if off < 0x1000 then s.readDevice off
    else if off < 0x2000 then f.msixRead (off - 0x1000)
    else if off < 0x2200 then s.readKick 0 ((off - 0x2000) / 8)
    else if 0x3000 ≤ off ∧ off < 0x3020 then f.pbaRead (off - 0x3000)
    else if 0x10000 ≤ off ∧ off < 0x12000 then (s.queue 0 ((off - 0x10000) / 128)).read (off % 128)
    else if 0x100000 ≤ off ∧ off < 0x180000 then (s.part ((off - 0x100000) / 0x10000)).read (off % 0x10000)
    else if 0x200000 ≤ off ∧ off < 0x200000 + 65 * 0x400 then
      (s.fn ((off - 0x200000) / 0x400)).read ((off - 0x200000) / 0x400) (off % 0x400)
    else 0
  else
    if off < 0x200 then s.readKick fn (off / 8)
    else if 0x1000 ≤ off ∧ off < 0x1400 then f.msixRead (off - 0x1000)
    else if off = 0x1800 then f.pbaRead 0
    else if 0x4000 ≤ off ∧ off < 0x6000 then (s.queue fn ((off - 0x4000) / 128)).read (off % 128)
    else if off = 0x6000 then f.fnctl fn
    else if off = 0x6008 then (f.featmask ||| 1).toNat
    else 0

/-! ## Writes -/

/-- The state of a next outcome. -/
def State.after (s : State) (o : Host.Outcome State Fault Refusal) : State := match o with | .next t => t | _ => s

/-- A field of 4 to `hi`; a write outside that range stores 4 (R442). -/
def lognField (v hi : Nat) : Nat := if 4 ≤ v ∧ v ≤ hi then v else 4

/-- The fields of a queue record that are written only while the queue is Off or Halted (R442). An address
whose low bits are set is stored whole: DESIGN CHOICE, R442 calls them aligned and does not say what such a write does (log 34). -/
def QueueRec.write (r : QueueRec) (off v : Nat) (privl : Bool) : QueueRec :=
  match off with
  | 0 => { r with base := v }
  | 8 => { r with
      privl := if privl then bit v 28 else r.privl
      ctx := bits v 16 12, logn := lognField (bits v 0 5) 20 }
  | 16 => { r with rd := BitVec.ofNat 32 (bits v 0 32) }
  | 24 => { r with cqbase := v }
  | 32 => { r with ie := bit v 16, vec := bits v 8 8, cqlogn := lognField (bits v 0 5) 16 }
  | 48 => { r with stkbase := BitVec.ofNat 64 v }
  | 56 => { r with argbase := BitVec.ofNat 64 v }
  | 64 => { r with hangaddr := BitVec.ofNat 64 v }
  | 72 => { r with stkarea := bits v 0 16 }
  | 80 => { r with kickpa := bits v 6 46 }
  | _ => r

/-- A write to a queue record (R442, R445): EN, CQHEAD and HANGTO are always written. -/
def State.writeQueue (s : State) (fn q off v : Nat) : State :=
  let r := s.queue fn q
  let s := if r.state = .running then s else s.setQueue fn q (r.write off v (fn == 0 || (s.fn fn).privq))
  if off = 8 then
    if bit v 29 then s.enableQueue fn q else if r.en then s.disableQueue fn q else s
  else if off = 40 then
    s.after (execCqheadWrite fn q (bits v 0 32) (s.setQueue fn q { s.queue fn q with hangto := BitVec.ofNat 32 (bits v 32 32) }))
  else s

/-- A write to the MSI-X table: a pending vector that is unmasked is raised. -/
def State.writeMsix (s : State) (fn off v : Nat) : State :=
  let f := s.fn fn
  let i := off / 16
  let e := assoc f.msix i (0, 0, false)
  let e := if off % 16 < 8 then (v, e.2) else (e.1, v % 2 ^ 32, bit v 32)
  let s := s.setFn fn { f with msix := assocPut f.msix i e }
  if e.2.2 = false ∧ f.pba.contains i = true then
    (s.setFn fn { s.fn fn with pba := f.pba.filter (· != i) }).raiseMsi fn i
  else s

/-- A write to FNCTL (R475): TENANT and PART only while EN = 0, which EN of function 0 never is. -/
def State.writeFnctl (s : State) (n v : Nat) : State :=
  let f := s.fn n
  let free := n != 0 && !f.en
  let s := s.setFn n { f with
    tenant := if free then bits v 48 16 else f.tenant
    part := if free then bits v 41 3 else f.part
    coal := bit v 40
    privq := if n = 0 then f.privq else f.privq || bit v 5 }
  let s := if bit v 5 then s else s.clearPrivq n
  let s := s.assign n (bit v 4)
  let s := if bit v 2 then s.expireTasks n else s
  if bit v 1 then s.resetFn n else s

/-- A QOS field: 0 stores 1 (R475). -/
def qosField (v lo : Nat) : Nat := max 1 (bits v lo 8)

/-- A write to a register of R283, by its place in the table. -/
def State.writeTrans (s : State) (n k v : Nat) : State :=
  match k with
  | 0 => s.setTrans n fun t => { t with s2root := bits v 16 36, s2en := bit v 0 }
  | 1 => s.setTrans n fun t => { t with prqBase := bits v 12 40, prqLogn := max 4 (bits v 0 4) }
  | 2 => s.setTrans n fun t => { t with prqVec := bits v 8 8, prqIe := bit v 1, prqEn := bit v 0 }
  | 3 => s.after (execPrqheadWrite n (bits v 0 32) s)
  | 5 => s.setTrans n fun t => { t with badTag := t.badTag && !bit v 1, full := t.full && !bit v 0 }
  | 6 => s.respond n (bits v 0 16) (bits v 16 2)
  | 7 => s.after (execS2invWrite n (BitVec.ofNat 64 v) s)
  | 9 => s.setTrans n fun t => { t with dbmBase0 := bits v 12 40 }
  | 10 => s.setTrans n fun t => { t with dbmBase1 := bits v 12 40 }
  | 11 => s.after (execDbmctlWrite n (BitVec.ofNat 64 v) s)
  | 12 => s.setTrans n fun t => { t with dbmOvr := t.dbmOvr && !bit v 1 }
  | _ => s

/-- A write to function `n`'s block (R470): migration and translation registers are of virtual functions. FEATMASK of function 0
is not written and reads as every feature: DESIGN CHOICE, R104 gives the register to virtual functions alone (log 35). -/
def State.writeFnBlock (s : State) (n off v : Nat) : State :=
  let f := s.fn n
  match off with
  | 0 => s.writeFnctl n v
  | 8 => if n = 0 then s else s.setFn n { f with featmask := BitVec.ofNat 16 (v % 2 ^ 16) ||| 1 }
  | 16 => s.setFn n { f with pcw := qosField v 24, sbw := qosField v 16, daw := qosField v 8, few := qosField v 0 }
  | 24 =>
    let s := if bit v 0 then s.pause n else s
    if bit v 1 then s.resume n else s
  | 32 => if n = 0 then s else s.setFn n { f with migErr := f.migErr && !bit v 2 }
  | 40 => if n = 0 then s else s.setFn n { f with migBase := bits v 16 36, migUnits := bits v 0 16 }
  | _ => if 64 ≤ off ∧ n ≠ 0 then s.writeTrans n ((off - 64) / 8) v else s

/-- A write to a weight region entry (R355, R356). -/
def State.writeWeight (s : State) (p i off v : Nat) : State :=
  let x := s.part p
  let w := assoc x.weights i WeightEntry.clear
  let put := fun (w : WeightEntry) => s.setPart p { x with weights := assocPut x.weights i w }
  let free := !w.en && w.st == 0
  if off = 16 then
    let s := if free then put { w with world := bits v 52 6, frame := bits v 16 36 } else s
    if bit v 63 then s.weightEnable p i else if w.en then s.weightDisable p i else s
  else if off = 24 ∧ free = true then
    put { w with ngr := bits v 48 16, k := bits v 31 17, n := bits v 24 7, wdesc := bits v 16 8, cstr := bits v 0 16 }
  else s

/-- A write to PARTCTL (R473, R474). -/
def State.writePartctl (s : State) (p v : Nat) : State :=
  let held := (s.part p).hold
  let s := if bit v 0 && !held then s.holdPart p else if bit v 3 then s.after (execPartitionRst p s) else s
  if held && !bit v 0 then s.releasePart p else s

/-- A write to partition `p`'s page (R473, R527, R357). -/
def State.writePart (s : State) (p off v : Nat) : State :=
  let x := s.part p
  let set := fun (c : PartCfg) => if x.hold then s.setPart p { x with cfg := c } else s
  let c := x.cfg
  match off with
  | 0 => set { c with
      en := bit v 63, slmem := bits v 48 8, drtiles := bits v 40 8, kstep := bit v 39, half := bits v 34 2, dies := bits v 0 4 }
  | 8 => set { c with flimit := bits v 32 23, fbase := bits v 0 23 }
  | 16 => s.writePartctl p v
  | 24 => set { c with ownlim := bits v 0 23 }
  | _ =>
    if 0x2000 ≤ off ∧ off < 0x4000 then s.writeWeight p ((off - 0x2000) / 32) (off % 32) v
    else if 0x4000 ≤ off ∧ off < 0x4800 then
      s.setPart p { x with shapes := assocPut x.shapes ((off - 0x4000) / 8) (bits v 0 45) }
    else s

/-- A write to a device register (R472, R485, R518 to R526). -/
def State.writeDevice (s : State) (off v : Nat) : State :=
  let h := s.host
  let g := s.fabric
  let d := s.svc
  match off with
  | 0x000 => { s with host := { h with ctxBase := bits v 17 35 * 2 ^ 17 } }
  | 0x010 => if bit v 0 then s.resetDevice else s
  | 0x020 =>
    let s := { s with host := { h with violVec := bits v 8 8, violIe := bit v 0 } }
    if bit v 16 then s.after (execViolClear s) else s
  | 0x100 => if g.chipLocked then s else { s with fabric := { g with chip := bits v 0 12 } }
  | 0x108 => { s with fabric := { g with err := g.err &&& ~~~(BitVec.ofNat 16 (bits v 16 16)) } }
  | 0x110 => { s with fabric := { g with
      advEn := bit v 63, advParts := BitVec.ofNat 8 v, advAt := if bit v 63 && !g.advEn then s.clock else g.advAt } }
  | 0x200 => { s with svc := { d with integ := bits v 0 2 } }
  | 0x208 => { s with svc := { d with cerr := d.cerr && !bit v 1 } }
  | 0x210 => { s with svc := { d with ceLimit := bits v 0 32 } }
  | 0x218 => { s with svc := { d with pwrcap := max 1000 (min (bits v 0 12) 3000) } }
  | 0x230 => { s with svc := { d with ckptDst := v } }
  | 0x238 =>
    let s := if bit v 0 then s.ckptStart else s
    if bit v 1 then s.ckptResume else s
  | 0x248 => s.after (execScrivselWrite (bits v 0 12) s)
  | _ => s

/-- A write of a whole register (R470): until the device has booted, the physical function takes a device reset alone
(R516). -/
def State.writeReg (s : State) (fn off v : Nat) : State :=
  if fn = 0 then
    if s.svc.boot ≠ 7 ∧ off ≠ 0x010 then s
    else if off < 0x1000 then s.writeDevice off v
    else if off < 0x2000 then s.writeMsix 0 (off - 0x1000) v
    else if off < 0x2200 then s.after (execKickRegisterWrite 0 ((off - 0x2000) / 8) (v % 2 ^ 32) s)
    else if 0x10000 ≤ off ∧ off < 0x12000 then s.writeQueue 0 ((off - 0x10000) / 128) (off % 128) v
    else if 0x100000 ≤ off ∧ off < 0x180000 then s.writePart ((off - 0x100000) / 0x10000) (off % 0x10000) v
    else if 0x200000 ≤ off ∧ off < 0x200000 + 65 * 0x400 then
      s.writeFnBlock ((off - 0x200000) / 0x400) (off % 0x400) v
    else s
  else
    if off < 0x200 then s.after (execKickRegisterWrite fn (off / 8) (v % 2 ^ 32) s)
    else if 0x1000 ≤ off ∧ off < 0x1400 then s.writeMsix fn (off - 0x1000) v
    else if 0x4000 ≤ off ∧ off < 0x6000 then s.writeQueue fn ((off - 0x4000) / 128) (off % 128) v
    else s

/-- REGISTER_WRITE (R8): of a whole register, or of its low 32 bits, the upper ones then being written as they read
(R470). -/
def execRegisterWrite (fn off value : Nat) (half : Bool) (s : State) : Host.Outcome State Fault Refusal :=
  let v := if half then s.readReg fn off / 2 ^ 32 * 2 ^ 32 + value % 2 ^ 32 else value % 2 ^ 64
  .next (if off % 8 = 0 ∧ s.svc.powered = true ∧ fn ≤ 64 then s.writeReg fn off v else s)

end Sys2Proof.Machine
end

