-- ==== Sys2Proof/Machine/ScalarAlu.lean ====
section
/-! DEFINITION. Integer arithmetic of the scalar core (R175 to R178): none of these words traps on its values or sets a
flag. -/

namespace Sys2Proof.Machine

/-! ## The operations (R175, R176) -/

/-- `div`: quotient toward zero; all ones for a zero divisor; the dividend for −2⁶³ ÷ −1. -/
def divWord (a b : Word) : Word :=
  if b = 0 then BitVec.allOnes 64
  else if a.toInt = -(2 ^ 63) ∧ b.toInt = -1 then a
  else wordOfInt (Int.tdiv a.toInt b.toInt)

/-- `divu`: all ones for a zero divisor. -/
def divuWord (a b : Word) : Word := if b = 0 then BitVec.allOnes 64 else BitVec.ofNat 64 (a.toNat / b.toNat)

/-- `rem`: the dividend for a zero divisor; 0 for −2⁶³ and −1. -/
def remWord (a b : Word) : Word :=
  if b = 0 then a
  else if a.toInt = -(2 ^ 63) ∧ b.toInt = -1 then 0
  else wordOfInt (a.toInt - b.toInt * Int.tdiv a.toInt b.toInt)

/-- `remu`: the dividend for a zero divisor. -/
def remuWord (a b : Word) : Word := if b = 0 then a else BitVec.ofNat 64 (a.toNat % b.toNat)

/-- `mulh`: the high half of the signed product. -/
def mulhWord (a b : Word) : Word := wordOfInt ((a.toInt * b.toInt) / 2 ^ 64)

/-- `mulhu`: the high half of the unsigned product. -/
def mulhuWord (a b : Word) : Word := BitVec.ofNat 64 (a.toNat * b.toNat / 2 ^ 64)

/-- `sll`, `srl` and `sra` by b mod 64. -/
def sllWord (a b : Word) : Word := BitVec.ofNat 64 (a.toNat * 2 ^ (b.toNat % 64))
def srlWord (a b : Word) : Word := BitVec.ofNat 64 (a.toNat / 2 ^ (b.toNat % 64))
def sraWord (a b : Word) : Word := wordOfInt (a.toInt / ((2 ^ (b.toNat % 64) : Nat) : Int))

/-- The truth of a comparison as a word. -/
def flagWord (c : Bool) : Word := if c then 1 else 0

/-- `min` and `max`, signed. -/
def minWord (a b : Word) : Word := if a.toInt < b.toInt then a else b
def maxWord (a b : Word) : Word := if a.toInt > b.toInt then a else b

/-- Leading zeros of the low `n` bits, from bit `n - 1` down. -/
def clzFrom (a : Word) : Nat → Nat
  | 0 => 0
  | n + 1 => if a.getLsbD n then 0 else clzFrom a n + 1

/-- Trailing zeros from bit `64 - n` up. -/
def ctzFrom (a : Word) : Nat → Nat
  | 0 => 0
  | n + 1 => if a.getLsbD (63 - n) then 0 else ctzFrom a n + 1

/-! ## The words -/

/-- A register-register word (R175): sD takes `f` of sA and sB. -/
def aluRR (i : Instr) (d a b : Reg) (s : State) (f : Word → Word → Word) : Host.Outcome State Fault Refusal :=
  scalarPure i s fun _ t => t.setReg d (f (t.reg a) (t.reg b))

/-- An immediate word (R177): sD takes `f` of sA and the unit's immediate, sign-extended to 64 bits. -/
def aluRI (i : Instr) (d a : Reg) (s : State) (f : Word → Word → Word) : Host.Outcome State Fault Refusal :=
  scalarPure i s fun p t => t.setReg d (f (t.reg a) (wordOfInt (immValue i p)))

/-- `add` (R175). -/
def execAdd (d a b : Reg) (s : State) := aluRR (.add d a b) d a b s (· + ·)
/-- `sub` (R175). -/
def execSub (d a b : Reg) (s : State) := aluRR (.sub d a b) d a b s (· - ·)
/-- `and` (R175). -/
def execAnd (d a b : Reg) (s : State) := aluRR (.and d a b) d a b s (· &&& ·)
/-- `or` (R175). -/
def execOr (d a b : Reg) (s : State) := aluRR (.or d a b) d a b s (· ||| ·)
/-- `xor` (R175). -/
def execXor (d a b : Reg) (s : State) := aluRR (.xor d a b) d a b s (· ^^^ ·)
/-- `sll` (R175). -/
def execSll (d a b : Reg) (s : State) := aluRR (.sll d a b) d a b s sllWord
/-- `srl` (R175). -/
def execSrl (d a b : Reg) (s : State) := aluRR (.srl d a b) d a b s srlWord
/-- `sra` (R175). -/
def execSra (d a b : Reg) (s : State) := aluRR (.sra d a b) d a b s sraWord
/-- `slt` (R175). -/
def execSlt (d a b : Reg) (s : State) := aluRR (.slt d a b) d a b s fun x y => flagWord (decide (x.toInt < y.toInt))
/-- `sltu` (R175). -/
def execSltu (d a b : Reg) (s : State) := aluRR (.sltu d a b) d a b s fun x y => flagWord (decide (x.toNat < y.toNat))
/-- `mul` (R175). -/
def execMul (d a b : Reg) (s : State) := aluRR (.mul d a b) d a b s (· * ·)
/-- `mulh` (R175). -/
def execMulh (d a b : Reg) (s : State) := aluRR (.mulh d a b) d a b s mulhWord
/-- `mulhu` (R175). -/
def execMulhu (d a b : Reg) (s : State) := aluRR (.mulhu d a b) d a b s mulhuWord
/-- `div` (R175). -/
def execDiv (d a b : Reg) (s : State) := aluRR (.div d a b) d a b s divWord
/-- `divu` (R175). -/
def execDivu (d a b : Reg) (s : State) := aluRR (.divu d a b) d a b s divuWord
/-- `rem` (R175). -/
def execRem (d a b : Reg) (s : State) := aluRR (.rem d a b) d a b s remWord
/-- `remu` (R175). -/
def execRemu (d a b : Reg) (s : State) := aluRR (.remu d a b) d a b s remuWord
/-- `min` (R175). -/
def execMin (d a b : Reg) (s : State) := aluRR (.min d a b) d a b s minWord
/-- `max` (R175). -/
def execMax (d a b : Reg) (s : State) := aluRR (.max d a b) d a b s maxWord
/-- `clz` (R176). -/
def execClz (d a : Reg) (s : State) :=
  scalarPure (.clz d a) s fun _ t => t.setReg d (BitVec.ofNat 64 (clzFrom (t.reg a) 64))
/-- `ctz` (R176). -/
def execCtz (d a : Reg) (s : State) :=
  scalarPure (.ctz d a) s fun _ t => t.setReg d (BitVec.ofNat 64 (ctzFrom (t.reg a) 64))
/-- `cmov` (R176). -/
def execCmov (d a b : Reg) (s : State) :=
  scalarPure (.cmov d a b) s fun _ t => if t.reg b ≠ 0 then t.setReg d (t.reg a) else t
/-- `addi` (R177). -/
def execAddi (d a : Reg) (i : BitVec 10) (s : State) := aluRI (.addi d a i) d a s (· + ·)
/-- `andi` (R177). -/
def execAndi (d a : Reg) (i : BitVec 10) (s : State) := aluRI (.andi d a i) d a s (· &&& ·)
/-- `ori` (R177). -/
def execOri (d a : Reg) (i : BitVec 10) (s : State) := aluRI (.ori d a i) d a s (· ||| ·)
/-- `xori` (R177). -/
def execXori (d a : Reg) (i : BitVec 10) (s : State) := aluRI (.xori d a i) d a s (· ^^^ ·)
/-- `slli` (R177). -/
def execSlli (d a : Reg) (i : BitVec 10) (s : State) := aluRI (.slli d a i) d a s sllWord
/-- `srli` (R177). -/
def execSrli (d a : Reg) (i : BitVec 10) (s : State) := aluRI (.srli d a i) d a s srlWord
/-- `srai` (R177). -/
def execSrai (d a : Reg) (i : BitVec 10) (s : State) := aluRI (.srai d a i) d a s sraWord
/-- `li` (R178). -/
def execLi (d : Reg) (i : BitVec 16) (s : State) :=
  scalarPure (.li d i) s fun p t => t.setReg d (wordOfInt (immValue (.li d i) p))
/-- `lui` (R178). -/
def execLui (d : Reg) (i : BitVec 16) (s : State) :=
  scalarPure (.lui d i) s fun p t => t.setReg d (wordOfInt (immValue (.lui d i) p * 65536))
/-- `auipc` (R178): relative to the address of the word itself, not of its prefix. -/
def execAuipc (d : Reg) (i : BitVec 16) (s : State) :=
  scalarPure (.auipc d i) s fun p t => t.setReg d (t.wordAddr + wordOfInt (immValue (.auipc d i) p))

end Sys2Proof.Machine
end

