-- ==== Sys2Proof/Machine/ScalarMem.lean ====
section
/-! DEFINITION. Scalar memory and scratchpad words (R179 to R181). -/

namespace Sys2Proof.Machine

/-- The address of a load or store (R179), or the offset of a scratchpad word (R181): sA plus the unit's immediate,
wrapped to 64 bits. -/
def effAddr (i : Instr) (p : Prefixes) (t : Strand) (a : Reg) : Word := t.reg a + wordOfInt (immValue i p)

/-- `x` of `n` bytes, sign-extended. -/
def signExtend (n x : Nat) : Word := wordOfInt (sextNat x (8 * n))

/-- A load word (R179): `n` bytes at the effective address, widened by `f`, to sD. -/
def loadWord (i : Instr) (d a : Reg) (n : Nat) (f : Nat → Word) (s : State) : Host.Outcome State Fault Refusal :=
  scalarM i s fun p => do
    let x ← scalarLoad (effAddr i p (← getSt) a).toNat n
    modSt fun t => t.setReg d (f x)
    return none

/-- A store word (R179): the `n` low bytes of sB to the effective address. -/
def storeWord (i : Instr) (b a : Reg) (n : Nat) (s : State) : Host.Outcome State Fault Refusal :=
  scalarM i s fun p => do
    let t ← getSt
    scalarStore (effAddr i p t a).toNat n (t.reg b).toNat
    return none

/-- A scratchpad load (R181). -/
def spadLoadWord (i : Instr) (d a : Reg) (n : Nat) (f : Nat → Word) (s : State) : Host.Outcome State Fault Refusal :=
  scalarM i s fun p => do
    let x ← spadLoad (effAddr i p (← getSt) a).toNat n
    modSt fun t => t.setReg d (f x)
    return none

/-- A scratchpad store (R181). -/
def spadStoreWord (i : Instr) (b a : Reg) (n : Nat) (s : State) : Host.Outcome State Fault Refusal :=
  scalarM i s fun p => do
    let t ← getSt
    spadStore (effAddr i p t a).toNat n (t.reg b).toNat
    return none

/-- `ld.b` (R179). -/
def execLdB (d a : Reg) (i : BitVec 10) (s : State) := loadWord (.ldB d a i) d a 1 (signExtend 1) s
/-- `ld.h` (R179). -/
def execLdH (d a : Reg) (i : BitVec 10) (s : State) := loadWord (.ldH d a i) d a 2 (signExtend 2) s
/-- `ld.w` (R179). -/
def execLdW (d a : Reg) (i : BitVec 10) (s : State) := loadWord (.ldW d a i) d a 4 (signExtend 4) s
/-- `ld.d` (R179). -/
def execLdD (d a : Reg) (i : BitVec 10) (s : State) := loadWord (.ldD d a i) d a 8 (BitVec.ofNat 64) s
/-- `ld.bu` (R179). -/
def execLdBu (d a : Reg) (i : BitVec 10) (s : State) := loadWord (.ldBu d a i) d a 1 (BitVec.ofNat 64) s
/-- `ld.hu` (R179). -/
def execLdHu (d a : Reg) (i : BitVec 10) (s : State) := loadWord (.ldHu d a i) d a 2 (BitVec.ofNat 64) s
/-- `ld.wu` (R179). -/
def execLdWu (d a : Reg) (i : BitVec 10) (s : State) := loadWord (.ldWu d a i) d a 4 (BitVec.ofNat 64) s
/-- `st.b` (R179). -/
def execStB (b a : Reg) (i : BitVec 10) (s : State) := storeWord (.stB b a i) b a 1 s
/-- `st.h` (R179). -/
def execStH (b a : Reg) (i : BitVec 10) (s : State) := storeWord (.stH b a i) b a 2 s
/-- `st.w` (R179). -/
def execStW (b a : Reg) (i : BitVec 10) (s : State) := storeWord (.stW b a i) b a 4 s
/-- `st.d` (R179). -/
def execStD (b a : Reg) (i : BitVec 10) (s : State) := storeWord (.stD b a i) b a 8 s
/-- `lds.w` (R181). -/
def execLdsW (d a : Reg) (i : BitVec 10) (s : State) := spadLoadWord (.ldsW d a i) d a 4 (signExtend 4) s
/-- `lds.d` (R181). -/
def execLdsD (d a : Reg) (i : BitVec 10) (s : State) := spadLoadWord (.ldsD d a i) d a 8 (BitVec.ofNat 64) s
/-- `sts.w` (R181). -/
def execStsW (b a : Reg) (i : BitVec 10) (s : State) := spadStoreWord (.stsW b a i) b a 4 s
/-- `sts.d` (R181). -/
def execStsD (b a : Reg) (i : BitVec 10) (s : State) := spadStoreWord (.stsD b a i) b a 8 s

end Sys2Proof.Machine
end

