-- ==== Sys2Proof/Machine/Words.lean ====
section
/-! DEFINITION. The engine words as the splitter executes them: each is steered into the queue of its engine and
performed by it (R15, R18, R24); what it does is its `perform` meaning. -/

namespace Sys2Proof.Machine

/-- `v.ld` (R213). -/
def execVLd (x : Reg) (y : Reg) (z : Reg) (c : Bool) (s : State) := issue (.vLd x y z c) s
/-- `v.st` (R213). -/
def execVSt (x : Reg) (y : Reg) (z : Reg) (c : Bool) (s : State) := issue (.vSt x y z c) s
/-- `v.lds` (R215). -/
def execVLds (x : Reg) (y : Reg) (z : Reg) (c : Bool) (s : State) := issue (.vLds x y z c) s
/-- `v.sts` (R215). -/
def execVSts (x : Reg) (y : Reg) (z : Reg) (c : Bool) (s : State) := issue (.vSts x y z c) s
/-- `v.ldh` (R216). -/
def execVLdh (x : Reg) (y : Reg) (z : Reg) (m : Bool) (c : Bool) (s : State) := issue (.vLdh x y z m c) s
/-- `v.sth` (R216). -/
def execVSth (x : Reg) (y : Reg) (z : Reg) (m : Bool) (c : Bool) (s : State) := issue (.vSth x y z m c) s
/-- `v.mov` (R219). -/
def execVMov (x : Reg) (y : Reg) (c : Bool) (s : State) := issue (.vMov x y c) s
/-- `v.bcs` (R219). -/
def execVBcs (x : Reg) (y : Reg) (c : Bool) (s : State) := issue (.vBcs x y c) s
/-- `v.iota` (R219). -/
def execVIota (x : Reg) (y : Reg) (i : BitVec 9) (c : Bool) (s : State) := issue (.vIota x y i c) s
/-- `v.pset` (R219). -/
def execVPset (x : Reg) (y : Reg) (i : BitVec 9) (c : Bool) (s : State) := issue (.vPset x y i c) s
/-- `v.add` (R220). -/
def execVAdd (x : Reg) (y : Reg) (z : Reg) (c : Bool) (s : State) := issue (.vAdd x y z c) s
/-- `v.sub` (R220). -/
def execVSub (x : Reg) (y : Reg) (z : Reg) (c : Bool) (s : State) := issue (.vSub x y z c) s
/-- `v.mul` (R220). -/
def execVMul (x : Reg) (y : Reg) (z : Reg) (c : Bool) (s : State) := issue (.vMul x y z c) s
/-- `v.fma` (R220). -/
def execVFma (x : Reg) (y : Reg) (z : Reg) (m : BitVec 2) (c : Bool) (s : State) := issue (.vFma x y z m c) s
/-- `v.min` (R220). -/
def execVMin (x : Reg) (y : Reg) (z : Reg) (c : Bool) (s : State) := issue (.vMin x y z c) s
/-- `v.max` (R220). -/
def execVMax (x : Reg) (y : Reg) (z : Reg) (c : Bool) (s : State) := issue (.vMax x y z c) s
/-- `v.abs` (R220). -/
def execVAbs (x : Reg) (y : Reg) (c : Bool) (s : State) := issue (.vAbs x y c) s
/-- `v.neg` (R220). -/
def execVNeg (x : Reg) (y : Reg) (c : Bool) (s : State) := issue (.vNeg x y c) s
/-- `v.iadd` (R221). -/
def execVIadd (x : Reg) (y : Reg) (z : Reg) (c : Bool) (s : State) := issue (.vIadd x y z c) s
/-- `v.isub` (R221). -/
def execVIsub (x : Reg) (y : Reg) (z : Reg) (c : Bool) (s : State) := issue (.vIsub x y z c) s
/-- `v.imul` (R221). -/
def execVImul (x : Reg) (y : Reg) (z : Reg) (m : Bool) (c : Bool) (s : State) := issue (.vImul x y z m c) s
/-- `v.imulw` (R221). -/
def execVImulw (x : Reg) (y : Reg) (z : Reg) (m : Bool) (c : Bool) (s : State) := issue (.vImulw x y z m c) s
/-- `v.and` (R221). -/
def execVAnd (x : Reg) (y : Reg) (z : Reg) (c : Bool) (s : State) := issue (.vAnd x y z c) s
/-- `v.or` (R221). -/
def execVOr (x : Reg) (y : Reg) (z : Reg) (c : Bool) (s : State) := issue (.vOr x y z c) s
/-- `v.xor` (R221). -/
def execVXor (x : Reg) (y : Reg) (z : Reg) (c : Bool) (s : State) := issue (.vXor x y z c) s
/-- `v.not` (R221). -/
def execVNot (x : Reg) (y : Reg) (c : Bool) (s : State) := issue (.vNot x y c) s
/-- `v.shl` (R221). -/
def execVShl (x : Reg) (y : Reg) (z : Reg) (c : Bool) (s : State) := issue (.vShl x y z c) s
/-- `v.shr` (R221). -/
def execVShr (x : Reg) (y : Reg) (z : Reg) (c : Bool) (s : State) := issue (.vShr x y z c) s
/-- `v.sha` (R221). -/
def execVSha (x : Reg) (y : Reg) (z : Reg) (c : Bool) (s : State) := issue (.vSha x y z c) s
/-- `v.imin` (R221). -/
def execVImin (x : Reg) (y : Reg) (z : Reg) (m : Bool) (c : Bool) (s : State) := issue (.vImin x y z m c) s
/-- `v.imax` (R221). -/
def execVImax (x : Reg) (y : Reg) (z : Reg) (m : Bool) (c : Bool) (s : State) := issue (.vImax x y z m c) s
/-- `v.cmp` (R222). -/
def execVCmp (x : Reg) (y : Reg) (z : Reg) (m : BitVec 3) (c : Bool) (s : State) := issue (.vCmp x y z m c) s
/-- `v.icmp` (R222). -/
def execVIcmp (x : Reg) (y : Reg) (z : Reg) (m : BitVec 3) (c : Bool) (s : State) := issue (.vIcmp x y z m c) s
/-- `v.sel` (R222). -/
def execVSel (x : Reg) (y : Reg) (z : Reg) (m : BitVec 3) (c : Bool) (s : State) := issue (.vSel x y z m c) s
/-- `v.pand` (R222). -/
def execVPand (x : Reg) (y : Reg) (z : Reg) (c : Bool) (s : State) := issue (.vPand x y z c) s
/-- `v.por` (R222). -/
def execVPor (x : Reg) (y : Reg) (z : Reg) (c : Bool) (s : State) := issue (.vPor x y z c) s
/-- `v.pxor` (R222). -/
def execVPxor (x : Reg) (y : Reg) (z : Reg) (c : Bool) (s : State) := issue (.vPxor x y z c) s
/-- `v.pnot` (R222). -/
def execVPnot (x : Reg) (y : Reg) (c : Bool) (s : State) := issue (.vPnot x y c) s
/-- `v.rotr` (R223). -/
def execVRotr (x : Reg) (y : Reg) (i : BitVec 9) (c : Bool) (s : State) := issue (.vRotr x y i c) s
/-- `v.rotc` (R223). -/
def execVRotc (x : Reg) (y : Reg) (i : BitVec 9) (c : Bool) (s : State) := issue (.vRotc x y i c) s
/-- `v.bcr` (R223). -/
def execVBcr (x : Reg) (y : Reg) (i : BitVec 9) (c : Bool) (s : State) := issue (.vBcr x y i c) s
/-- `v.bcc` (R223). -/
def execVBcc (x : Reg) (y : Reg) (i : BitVec 9) (c : Bool) (s : State) := issue (.vBcc x y i c) s
/-- `v.redr` (R224). -/
def execVRedr (x : Reg) (y : Reg) (m : BitVec 3) (c : Bool) (s : State) := issue (.vRedr x y m c) s
/-- `v.redc` (R224). -/
def execVRedc (x : Reg) (y : Reg) (m : BitVec 3) (c : Bool) (s : State) := issue (.vRedc x y m c) s
/-- `v.cvtf` (R225). -/
def execVCvtf (x : Reg) (y : Reg) (m : Bool) (c : Bool) (s : State) := issue (.vCvtf x y m c) s
/-- `v.cvti` (R225). -/
def execVCvti (x : Reg) (y : Reg) (m : Bool) (c : Bool) (s : State) := issue (.vCvti x y m c) s
/-- `v.cvtq` (R225). -/
def execVCvtq (x : Reg) (y : Reg) (m : BitVec 3) (c : Bool) (s : State) := issue (.vCvtq x y m c) s
/-- `v.exp2` (R226). -/
def execVExp2 (x : Reg) (y : Reg) (c : Bool) (s : State) := issue (.vExp2 x y c) s
/-- `v.log2` (R227). -/
def execVLog2 (x : Reg) (y : Reg) (c : Bool) (s : State) := issue (.vLog2 x y c) s
/-- `v.rcp` (R228). -/
def execVRcp (x : Reg) (y : Reg) (c : Bool) (s : State) := issue (.vRcp x y c) s
/-- `v.rsq` (R228). -/
def execVRsq (x : Reg) (y : Reg) (c : Bool) (s : State) := issue (.vRsq x y c) s
/-- `v.tanh` (R229). -/
def execVTanh (x : Reg) (y : Reg) (c : Bool) (s : State) := issue (.vTanh x y c) s
/-- `v.sigm` (R229). -/
def execVSigm (x : Reg) (y : Reg) (c : Bool) (s : State) := issue (.vSigm x y c) s
/-- `v.rng` (R230). -/
def execVRng (x : Reg) (m : BitVec 2) (c : Bool) (s : State) := issue (.vRng x m c) s
/-- `v.stop` (R232). -/
def execVStop (x : Reg) (y : Reg) (z : Reg) (c : Bool) (s : State) := issue (.vStop x y z c) s
/-- `v.loop` (R233). -/
def execVLoop (d : Reg) (l : BitVec 4) (c : Bool) (s : State) := issue (.vLoop d l c) s
/-- `m.mma` (R331). -/
def execMMma (x : Reg) (y : Reg) (z : Reg) (c : Bool) (s : State) := issue (.mMma x y z c) s
/-- `m.mma.g` (R348). -/
def execMMmaG (x : Reg) (y : Reg) (z : Reg) (c : Bool) (s : State) := issue (.mMmaG x y z c) s
/-- `m.ldw` (R335). -/
def execMLdw (x : Reg) (y : Reg) (z : Reg) (m : BitVec 3) (c : Bool) (s : State) := issue (.mLdw x y z m c) s
/-- `m.swap` (R333). -/
def execMSwap (i : BitVec 9) (c : Bool) (s : State) := issue (.mSwap i c) s
/-- `m.zero` (R337). -/
def execMZero (x : Reg) (y : Reg) (c : Bool) (s : State) := issue (.mZero x y c) s
/-- `m.rdz` (R337). -/
def execMRdz (x : Reg) (y : Reg) (z : Reg) (c : Bool) (s : State) := issue (.mRdz x y z c) s
/-- `m.wrz` (R337). -/
def execMWrz (x : Reg) (y : Reg) (z : Reg) (c : Bool) (s : State) := issue (.mWrz x y z c) s
/-- `m.ckpt` (R338). -/
def execMCkpt (x : Reg) (y : Reg) (sc : BitVec 4) (t : BitVec 4) (c : Bool) (s : State) := issue (.mCkpt x y sc t c) s
/-- `m.rest` (R338). -/
def execMRest (x : Reg) (y : Reg) (sc : BitVec 4) (t : BitVec 4) (c : Bool) (s : State) := issue (.mRest x y sc t c) s
/-- `m.epi` (R340). -/
def execMEpi (x : Reg) (y : Reg) (z : Reg) (c : Bool) (s : State) := issue (.mEpi x y z c) s
/-- `m.loop` (R343). -/
def execMLoop (d : Reg) (l : BitVec 4) (c : Bool) (s : State) := issue (.mLoop d l c) s
/-- `m.tsub` (R364). -/
def execMTsub (x : Reg) (y : Reg) (c : Bool) (s : State) := issue (.mTsub x y c) s
/-- `m.tqry` (R366). -/
def execMTqry (x : Reg) (y : Reg) (c : Bool) (s : State) := issue (.mTqry x y c) s
/-- `m.tcan` (R367). -/
def execMTcan (x : Reg) (y : Reg) (m : Bool) (c : Bool) (s : State) := issue (.mTcan x y m c) s
/-- `m.rdv` (R342). -/
def execMRdv (x : Reg) (m : Bool) (c : Bool) (s : State) := issue (.mRdv x m c) s
/-- `m.wid` (R342). -/
def execMWid (x : Reg) (y : Reg) (c : Bool) (s : State) := issue (.mWid x y c) s
/-- `c.cp` (R251). -/
def execCCp (x : Reg) (y : Reg) (z : Reg) (m : BitVec 3) (c : Bool) (s : State) := issue (.cCp x y z m c) s
/-- `c.cpd` (R252). -/
def execCCpd (x : Reg) (y : Reg) (z : Reg) (m : BitVec 2) (c : Bool) (s : State) := issue (.cCpd x y z m c) s
/-- `c.gath` (R254). -/
def execCGath (x : Reg) (y : Reg) (z : Reg) (m : BitVec 3) (c : Bool) (s : State) := issue (.cGath x y z m c) s
/-- `c.scat` (R254). -/
def execCScat (x : Reg) (y : Reg) (z : Reg) (m : BitVec 3) (c : Bool) (s : State) := issue (.cScat x y z m c) s
/-- `c.fill` (R253). -/
def execCFill (x : Reg) (y : Reg) (i : BitVec 9) (c : Bool) (s : State) := issue (.cFill x y i c) s
/-- `c.cvt` (R255). -/
def execCCvt (x : Reg) (y : Reg) (z : Reg) (m : BitVec 2) (c : Bool) (s : State) := issue (.cCvt x y z m c) s
/-- `c.bind` (R257). -/
def execCBind (x : Reg) (y : Reg) (z : Reg) (m : BitVec 2) (c : Bool) (s : State) := issue (.cBind x y z m c) s
/-- `c.kvg` (R260). -/
def execCKvg (x : Reg) (y : Reg) (z : Reg) (m : Bool) (c : Bool) (s : State) := issue (.cKvg x y z m c) s
/-- `c.kvs` (R260). -/
def execCKvs (x : Reg) (y : Reg) (z : Reg) (m : Bool) (c : Bool) (s : State) := issue (.cKvs x y z m c) s
/-- `c.gm` (R263). -/
def execCGm (x : Reg) (y : Reg) (z : Reg) (m : Bool) (c : Bool) (s : State) := issue (.cGm x y z m c) s
/-- `c.peer` (R264). -/
def execCPeer (x : Reg) (y : Reg) (z : Reg) (c : Bool) (s : State) := issue (.cPeer x y z c) s
/-- `c.rwin` (R265). -/
def execCRwin (x : Reg) (y : Reg) (z : Reg) (m : BitVec 3) (c : Bool) (s : State) := issue (.cRwin x y z m c) s
/-- `c.pf` (R267). -/
def execCPf (x : Reg) (y : Reg) (m : Bool) (c : Bool) (s : State) := issue (.cPf x y m c) s
/-- `c.loop` (R249). -/
def execCLoop (d : Reg) (l : BitVec 4) (c : Bool) (s : State) := issue (.cLoop d l c) s
/-- `c.unbind` (R259). -/
def execCUnbind (x : Reg) (c : Bool) (s : State) := issue (.cUnbind x c) s
/-- `c.dsc` (R248). -/
def execCDsc (x : Reg) (y : Reg) (m : Bool) (c : Bool) (s : State) := issue (.cDsc x y m c) s
/-- `c.bbinv` (R262). -/
def execCBbinv (y : Reg) (c : Bool) (s : State) := issue (.cBbinv y c) s
/-- `b.add` (R299). -/
def execBAdd (x : Reg) (y : Reg) (z : Reg) (r : Bool) (w : Bool) (c : Bool) (s : State) := issue (.bAdd x y z r w c) s
/-- `b.min` (R299). -/
def execBMin (x : Reg) (y : Reg) (z : Reg) (r : Bool) (w : Bool) (c : Bool) (s : State) := issue (.bMin x y z r w c) s
/-- `b.max` (R299). -/
def execBMax (x : Reg) (y : Reg) (z : Reg) (r : Bool) (w : Bool) (c : Bool) (s : State) := issue (.bMax x y z r w c) s
/-- `b.minu` (R299). -/
def execBMinu (x : Reg) (y : Reg) (z : Reg) (r : Bool) (w : Bool) (c : Bool) (s : State) := issue (.bMinu x y z r w c) s
/-- `b.maxu` (R299). -/
def execBMaxu (x : Reg) (y : Reg) (z : Reg) (r : Bool) (w : Bool) (c : Bool) (s : State) := issue (.bMaxu x y z r w c) s
/-- `b.and` (R299). -/
def execBAnd (x : Reg) (y : Reg) (z : Reg) (r : Bool) (w : Bool) (c : Bool) (s : State) := issue (.bAnd x y z r w c) s
/-- `b.or` (R299). -/
def execBOr (x : Reg) (y : Reg) (z : Reg) (r : Bool) (w : Bool) (c : Bool) (s : State) := issue (.bOr x y z r w c) s
/-- `b.xor` (R299). -/
def execBXor (x : Reg) (y : Reg) (z : Reg) (r : Bool) (w : Bool) (c : Bool) (s : State) := issue (.bXor x y z r w c) s
/-- `b.swap` (R299). -/
def execBSwap (x : Reg) (y : Reg) (z : Reg) (r : Bool) (w : Bool) (c : Bool) (s : State) := issue (.bSwap x y z r w c) s
/-- `b.cas` (R299). -/
def execBCas (x : Reg) (y : Reg) (z : Reg) (r : Bool) (w : Bool) (c : Bool) (s : State) := issue (.bCas x y z r w c) s
/-- `b.fadd` (R301). -/
def execBFadd (x : Reg) (y : Reg) (z : Reg) (c : Bool) (s : State) := issue (.bFadd x y z c) s
/-- `b.fadb` (R301). -/
def execBFadb (x : Reg) (y : Reg) (z : Reg) (c : Bool) (s : State) := issue (.bFadb x y z c) s
/-- `b.scal` (R301). -/
def execBScal (x : Reg) (y : Reg) (z : Reg) (t : Bool) (c : Bool) (s : State) := issue (.bScal x y z t c) s
/-- `b.axpy` (R301). -/
def execBAxpy (x : Reg) (y : Reg) (z : Reg) (t : Bool) (c : Bool) (s : State) := issue (.bAxpy x y z t c) s
/-- `b.wait` (R302). -/
def execBWait (x : Reg) (y : Reg) (z : Reg) (k : BitVec 2) (w : Bool) (c : Bool) (s : State) := issue (.bWait x y z k w c) s
/-- `b.vst` (R313). -/
def execBVst (x : Reg) (y : Reg) (z : Reg) (c : Bool) (s : State) := issue (.bVst x y z c) s
/-- `b.vld` (R314). -/
def execBVld (x : Reg) (y : Reg) (z : Reg) (t : Bool) (c : Bool) (s : State) := issue (.bVld x y z t c) s
/-- `b.vld.le` (R314). -/
def execBVldLe (x : Reg) (y : Reg) (z : Reg) (t : Bool) (c : Bool) (s : State) := issue (.bVldLe x y z t c) s
/-- `b.vretire` (R316). -/
def execBVretire (x : Reg) (y : Reg) (c : Bool) (s : State) := issue (.bVretire x y c) s
/-- `b.vnew` (R316). -/
def execBVnew (x : Reg) (y : Reg) (c : Bool) (s : State) := issue (.bVnew x y c) s
/-- `b.vfloor` (R316). -/
def execBVfloor (x : Reg) (y : Reg) (c : Bool) (s : State) := issue (.bVfloor x y c) s
/-- `b.vreg` (R308). -/
def execBVreg (x : Reg) (y : Reg) (c : Bool) (s : State) := issue (.bVreg x y c) s
/-- `b.vreg.free` (R309). -/
def execBVregFree (x : Reg) (y : Reg) (c : Bool) (s : State) := issue (.bVregFree x y c) s
/-- `b.vreg.rd` (R309). -/
def execBVregRd (x : Reg) (y : Reg) (c : Bool) (s : State) := issue (.bVregRd x y c) s
/-- `b.vreg.spill` (R310). -/
def execBVregSpill (x : Reg) (y : Reg) (c : Bool) (s : State) := issue (.bVregSpill x y c) s
/-- `a.attn` (R388). -/
def execAAttn (x : Reg) (y : Reg) (z : Reg) (k : Bool) (v : Bool) (c : Bool) (s : State) := issue (.aAttn x y z k v c) s
/-- `a.part` (R388). -/
def execAPart (x : Reg) (y : Reg) (z : Reg) (k : Bool) (v : Bool) (c : Bool) (s : State) := issue (.aPart x y z k v c) s
/-- `a.merge` (R391). -/
def execAMerge (x : Reg) (y : Reg) (z : Reg) (n : Bool) (c : Bool) (s : State) := issue (.aMerge x y z n c) s
/-- `a.cfg` (R382). -/
def execACfg (x : Reg) (i : BitVec 9) (c : Bool) (s : State) := issue (.aCfg x i c) s
/-- `a.binv` (R392). -/
def execABinv (y : Reg) (c : Bool) (s : State) := issue (.aBinv y c) s
/-- `a.pref` (R393). -/
def execAPref (y : Reg) (z : Reg) (m : Bool) (c : Bool) (s : State) := issue (.aPref y z m c) s
/-- `k.pool` (R404). -/
def execKPool (x : Reg) (y : Reg) (c : Bool) (s : State) := issue (.kPool x y c) s
/-- `k.pool.off` (R404). -/
def execKPoolOff (y : Reg) (c : Bool) (s : State) := issue (.kPoolOff y c) s
/-- `k.tbl` (R405). -/
def execKTbl (x : Reg) (y : Reg) (z : Reg) (c : Bool) (s : State) := issue (.kTbl x y z c) s
/-- `k.app` (R406). -/
def execKApp (x : Reg) (y : Reg) (z : Reg) (r : Bool) (w : Bool) (c : Bool) (s : State) := issue (.kApp x y z r w c) s
/-- `k.wr` (R407). -/
def execKWr (x : Reg) (y : Reg) (z : Reg) (m : Bool) (c : Bool) (s : State) := issue (.kWr x y z m c) s
/-- `k.fork` (R408). -/
def execKFork (x : Reg) (y : Reg) (z : Reg) (c : Bool) (s : State) := issue (.kFork x y z c) s
/-- `k.trunc` (R409). -/
def execKTrunc (x : Reg) (y : Reg) (c : Bool) (s : State) := issue (.kTrunc x y c) s
/-- `k.ret` (R409). -/
def execKRet (x : Reg) (c : Bool) (s : State) := issue (.kRet x c) s
/-- `k.win.open` (R412). -/
def execKWinOpen (x : Reg) (y : Reg) (z : Reg) (c : Bool) (s : State) := issue (.kWinOpen x y z c) s
/-- `k.commit` (R414). -/
def execKCommit (x : Reg) (y : Reg) (z : Reg) (n : Bool) (c : Bool) (s : State) := issue (.kCommit x y z n c) s
/-- `k.abort` (R414). -/
def execKAbort (x : Reg) (y : Reg) (n : Bool) (c : Bool) (s : State) := issue (.kAbort x y n c) s
/-- `k.ckpt` (R413). -/
def execKCkpt (x : Reg) (y : Reg) (z : Reg) (c : Bool) (s : State) := issue (.kCkpt x y z c) s
/-- `k.len` (R410). -/
def execKLen (x : Reg) (y : Reg) (c : Bool) (s : State) := issue (.kLen x y c) s
/-- `k.bbinv` (R410). -/
def execKBbinv (y : Reg) (c : Bool) (s : State) := issue (.kBbinv y c) s
/-- `k.falloc` (R436). -/
def execKFalloc (x : Reg) (y : Reg) (z : Reg) (n : Bool) (c : Bool) (s : State) := issue (.kFalloc x y z n c) s
/-- `k.ffree` (R437). -/
def execKFfree (x : Reg) (y : Reg) (z : Reg) (c : Bool) (s : State) := issue (.kFfree x y z c) s
/-- `k.fscrub` (R440). -/
def execKFscrub (x : Reg) (y : Reg) (c : Bool) (s : State) := issue (.kFscrub x y c) s
/-- `k.fscrub.take` (R440). -/
def execKFscrubTake (x : Reg) (y : Reg) (z : Reg) (c : Bool) (s : State) := issue (.kFscrubTake x y z c) s
/-- `k.fref` (R438). -/
def execKFref (x : Reg) (y : Reg) (z : Reg) (c : Bool) (s : State) := issue (.kFref x y z c) s
/-- `k.fqry.blk` (R439). -/
def execKFqryBlk (x : Reg) (y : Reg) (z : Reg) (c : Bool) (s : State) := issue (.kFqryBlk x y z c) s
/-- `k.fqry.pool` (R439). -/
def execKFqryPool (x : Reg) (y : Reg) (c : Bool) (s : State) := issue (.kFqryPool x y c) s

end Sys2Proof.Machine
end

