-- ==== Sys2Proof/Machine/Dispatch.lean ====
section
/-! DEFINITION. One arm for each constructor of `Instr`. -/

namespace Sys2Proof.Machine

def exec (i : Instr) (s : State) : Host.Outcome State Fault Refusal :=
  match i with
  | .add d a b => Sys2Proof.Machine.execAdd d a b s
  | .sub d a b => Sys2Proof.Machine.execSub d a b s
  | .and d a b => Sys2Proof.Machine.execAnd d a b s
  | .or d a b => Sys2Proof.Machine.execOr d a b s
  | .xor d a b => Sys2Proof.Machine.execXor d a b s
  | .sll d a b => Sys2Proof.Machine.execSll d a b s
  | .srl d a b => Sys2Proof.Machine.execSrl d a b s
  | .sra d a b => Sys2Proof.Machine.execSra d a b s
  | .slt d a b => Sys2Proof.Machine.execSlt d a b s
  | .sltu d a b => Sys2Proof.Machine.execSltu d a b s
  | .mul d a b => Sys2Proof.Machine.execMul d a b s
  | .mulh d a b => Sys2Proof.Machine.execMulh d a b s
  | .mulhu d a b => Sys2Proof.Machine.execMulhu d a b s
  | .div d a b => Sys2Proof.Machine.execDiv d a b s
  | .divu d a b => Sys2Proof.Machine.execDivu d a b s
  | .rem d a b => Sys2Proof.Machine.execRem d a b s
  | .remu d a b => Sys2Proof.Machine.execRemu d a b s
  | .min d a b => Sys2Proof.Machine.execMin d a b s
  | .max d a b => Sys2Proof.Machine.execMax d a b s
  | .clz d a => Sys2Proof.Machine.execClz d a s
  | .ctz d a => Sys2Proof.Machine.execCtz d a s
  | .cmov d a b => Sys2Proof.Machine.execCmov d a b s
  | .addi d a im => Sys2Proof.Machine.execAddi d a im s
  | .andi d a im => Sys2Proof.Machine.execAndi d a im s
  | .ori d a im => Sys2Proof.Machine.execOri d a im s
  | .xori d a im => Sys2Proof.Machine.execXori d a im s
  | .slli d a im => Sys2Proof.Machine.execSlli d a im s
  | .srli d a im => Sys2Proof.Machine.execSrli d a im s
  | .srai d a im => Sys2Proof.Machine.execSrai d a im s
  | .li d im => Sys2Proof.Machine.execLi d im s
  | .lui d im => Sys2Proof.Machine.execLui d im s
  | .auipc d im => Sys2Proof.Machine.execAuipc d im s
  | .ldB d a im => Sys2Proof.Machine.execLdB d a im s
  | .ldH d a im => Sys2Proof.Machine.execLdH d a im s
  | .ldW d a im => Sys2Proof.Machine.execLdW d a im s
  | .ldD d a im => Sys2Proof.Machine.execLdD d a im s
  | .ldBu d a im => Sys2Proof.Machine.execLdBu d a im s
  | .ldHu d a im => Sys2Proof.Machine.execLdHu d a im s
  | .ldWu d a im => Sys2Proof.Machine.execLdWu d a im s
  | .stB b a im => Sys2Proof.Machine.execStB b a im s
  | .stH b a im => Sys2Proof.Machine.execStH b a im s
  | .stW b a im => Sys2Proof.Machine.execStW b a im s
  | .stD b a im => Sys2Proof.Machine.execStD b a im s
  | .ldsW d a im => Sys2Proof.Machine.execLdsW d a im s
  | .ldsD d a im => Sys2Proof.Machine.execLdsD d a im s
  | .stsW b a im => Sys2Proof.Machine.execStsW b a im s
  | .stsD b a im => Sys2Proof.Machine.execStsD b a im s
  | .beq a b o => Sys2Proof.Machine.execBeq a b o s
  | .bne a b o => Sys2Proof.Machine.execBne a b o s
  | .blt a b o => Sys2Proof.Machine.execBlt a b o s
  | .bge a b o => Sys2Proof.Machine.execBge a b o s
  | .bltu a b o => Sys2Proof.Machine.execBltu a b o s
  | .bgeu a b o => Sys2Proof.Machine.execBgeu a b o s
  | .j o => Sys2Proof.Machine.execJ o s
  | .call o => Sys2Proof.Machine.execCall o s
  | .jr a => Sys2Proof.Machine.execJr a s
  | .calli d a im => Sys2Proof.Machine.execCalli d a im s
  | .endStrand => Sys2Proof.Machine.execEndStrand s
  | .brk im => Sys2Proof.Machine.execBrk im s
  | .tret => Sys2Proof.Machine.execTret s
  | .csrr d c => Sys2Proof.Machine.execCsrr d c s
  | .csrw d a c => Sys2Proof.Machine.execCsrw d a c s
  | .csrs d a c => Sys2Proof.Machine.execCsrs d a c s
  | .csrc d a c => Sys2Proof.Machine.execCsrc d a c s
  | .rdw d a => Sys2Proof.Machine.execRdw d a s
  | .phOpen sc => Sys2Proof.Machine.execPhOpen sc s
  | .phClose sc => Sys2Proof.Machine.execPhClose sc s
  | .ph sc => Sys2Proof.Machine.execPh sc s
  | .fenceSc sc => Sys2Proof.Machine.execFenceSc sc s
  | .qjoin m => Sys2Proof.Machine.execQjoin m s
  | .ifence => Sys2Proof.Machine.execIfence s
  | .rbind a h => Sys2Proof.Machine.execRbind a h s
  | .rwe d a h im => Sys2Proof.Machine.execRwe d a h im s
  | .rwf d a h im => Sys2Proof.Machine.execRwf d a h im s
  | .radvT a h im => Sys2Proof.Machine.execRadvT a h im s
  | .radvH a h im => Sys2Proof.Machine.execRadvH a h im s
  | .barInit g a b => Sys2Proof.Machine.execBarInit g a b s
  | .barArr d a h im => Sys2Proof.Machine.execBarArr d a h im s
  | .barExp a h im => Sys2Proof.Machine.execBarExp a h im s
  | .barWait d h im => Sys2Proof.Machine.execBarWait d h im s
  | .tlbiVa a b => Sys2Proof.Machine.execTlbiVa a b s
  | .tlbiCtx a => Sys2Proof.Machine.execTlbiCtx a s
  | .tlbiAll => Sys2Proof.Machine.execTlbiAll s
  | .xlat d a b => Sys2Proof.Machine.execXlat d a b s
  | .slKeyNew d a b => Sys2Proof.Machine.execSlKeyNew d a b s
  | .slKeyKill d a => Sys2Proof.Machine.execSlKeyKill d a s
  | .slMeas d a b => Sys2Proof.Machine.execSlMeas d a b s
  | .slMeasRd d a b => Sys2Proof.Machine.execSlMeasRd d a b s
  | .slRep d a b => Sys2Proof.Machine.execSlRep d a b s
  | .xImm h => Sys2Proof.Machine.execXImm h s
  | .xCap a b c => Sys2Proof.Machine.execXCap a b c s
  | .xRnd m => Sys2Proof.Machine.execXRnd m s
  | .xPm z n p => Sys2Proof.Machine.execXPm z n p s
  | .xOrd o sc => Sys2Proof.Machine.execXOrd o sc s
  | .xHint h => Sys2Proof.Machine.execXHint h s
  | .vLd x y z c => Sys2Proof.Machine.execVLd x y z c s
  | .vSt x y z c => Sys2Proof.Machine.execVSt x y z c s
  | .vLds x y z c => Sys2Proof.Machine.execVLds x y z c s
  | .vSts x y z c => Sys2Proof.Machine.execVSts x y z c s
  | .vLdh x y z m c => Sys2Proof.Machine.execVLdh x y z m c s
  | .vSth x y z m c => Sys2Proof.Machine.execVSth x y z m c s
  | .vMov x y c => Sys2Proof.Machine.execVMov x y c s
  | .vBcs x y c => Sys2Proof.Machine.execVBcs x y c s
  | .vIota x y im c => Sys2Proof.Machine.execVIota x y im c s
  | .vPset x y im c => Sys2Proof.Machine.execVPset x y im c s
  | .vAdd x y z c => Sys2Proof.Machine.execVAdd x y z c s
  | .vSub x y z c => Sys2Proof.Machine.execVSub x y z c s
  | .vMul x y z c => Sys2Proof.Machine.execVMul x y z c s
  | .vFma x y z m c => Sys2Proof.Machine.execVFma x y z m c s
  | .vMin x y z c => Sys2Proof.Machine.execVMin x y z c s
  | .vMax x y z c => Sys2Proof.Machine.execVMax x y z c s
  | .vAbs x y c => Sys2Proof.Machine.execVAbs x y c s
  | .vNeg x y c => Sys2Proof.Machine.execVNeg x y c s
  | .vIadd x y z c => Sys2Proof.Machine.execVIadd x y z c s
  | .vIsub x y z c => Sys2Proof.Machine.execVIsub x y z c s
  | .vImul x y z m c => Sys2Proof.Machine.execVImul x y z m c s
  | .vImulw x y z m c => Sys2Proof.Machine.execVImulw x y z m c s
  | .vAnd x y z c => Sys2Proof.Machine.execVAnd x y z c s
  | .vOr x y z c => Sys2Proof.Machine.execVOr x y z c s
  | .vXor x y z c => Sys2Proof.Machine.execVXor x y z c s
  | .vNot x y c => Sys2Proof.Machine.execVNot x y c s
  | .vShl x y z c => Sys2Proof.Machine.execVShl x y z c s
  | .vShr x y z c => Sys2Proof.Machine.execVShr x y z c s
  | .vSha x y z c => Sys2Proof.Machine.execVSha x y z c s
  | .vImin x y z m c => Sys2Proof.Machine.execVImin x y z m c s
  | .vImax x y z m c => Sys2Proof.Machine.execVImax x y z m c s
  | .vCmp x y z m c => Sys2Proof.Machine.execVCmp x y z m c s
  | .vIcmp x y z m c => Sys2Proof.Machine.execVIcmp x y z m c s
  | .vSel x y z m c => Sys2Proof.Machine.execVSel x y z m c s
  | .vPand x y z c => Sys2Proof.Machine.execVPand x y z c s
  | .vPor x y z c => Sys2Proof.Machine.execVPor x y z c s
  | .vPxor x y z c => Sys2Proof.Machine.execVPxor x y z c s
  | .vPnot x y c => Sys2Proof.Machine.execVPnot x y c s
  | .vRotr x y im c => Sys2Proof.Machine.execVRotr x y im c s
  | .vRotc x y im c => Sys2Proof.Machine.execVRotc x y im c s
  | .vBcr x y im c => Sys2Proof.Machine.execVBcr x y im c s
  | .vBcc x y im c => Sys2Proof.Machine.execVBcc x y im c s
  | .vRedr x y m c => Sys2Proof.Machine.execVRedr x y m c s
  | .vRedc x y m c => Sys2Proof.Machine.execVRedc x y m c s
  | .vCvtf x y m c => Sys2Proof.Machine.execVCvtf x y m c s
  | .vCvti x y m c => Sys2Proof.Machine.execVCvti x y m c s
  | .vCvtq x y m c => Sys2Proof.Machine.execVCvtq x y m c s
  | .vExp2 x y c => Sys2Proof.Machine.execVExp2 x y c s
  | .vLog2 x y c => Sys2Proof.Machine.execVLog2 x y c s
  | .vRcp x y c => Sys2Proof.Machine.execVRcp x y c s
  | .vRsq x y c => Sys2Proof.Machine.execVRsq x y c s
  | .vTanh x y c => Sys2Proof.Machine.execVTanh x y c s
  | .vSigm x y c => Sys2Proof.Machine.execVSigm x y c s
  | .vRng x m c => Sys2Proof.Machine.execVRng x m c s
  | .vStop x y z c => Sys2Proof.Machine.execVStop x y z c s
  | .vLoop d l c => Sys2Proof.Machine.execVLoop d l c s
  | .mMma x y z c => Sys2Proof.Machine.execMMma x y z c s
  | .mMmaG x y z c => Sys2Proof.Machine.execMMmaG x y z c s
  | .mLdw x y z m c => Sys2Proof.Machine.execMLdw x y z m c s
  | .mSwap im c => Sys2Proof.Machine.execMSwap im c s
  | .mZero x y c => Sys2Proof.Machine.execMZero x y c s
  | .mRdz x y z c => Sys2Proof.Machine.execMRdz x y z c s
  | .mWrz x y z c => Sys2Proof.Machine.execMWrz x y z c s
  | .mCkpt x y sc t c => Sys2Proof.Machine.execMCkpt x y sc t c s
  | .mRest x y sc t c => Sys2Proof.Machine.execMRest x y sc t c s
  | .mEpi x y z c => Sys2Proof.Machine.execMEpi x y z c s
  | .mLoop d l c => Sys2Proof.Machine.execMLoop d l c s
  | .mTsub x y c => Sys2Proof.Machine.execMTsub x y c s
  | .mTqry x y c => Sys2Proof.Machine.execMTqry x y c s
  | .mTcan x y m c => Sys2Proof.Machine.execMTcan x y m c s
  | .mRdv x m c => Sys2Proof.Machine.execMRdv x m c s
  | .mWid x y c => Sys2Proof.Machine.execMWid x y c s
  | .cCp x y z m c => Sys2Proof.Machine.execCCp x y z m c s
  | .cCpd x y z m c => Sys2Proof.Machine.execCCpd x y z m c s
  | .cGath x y z m c => Sys2Proof.Machine.execCGath x y z m c s
  | .cScat x y z m c => Sys2Proof.Machine.execCScat x y z m c s
  | .cFill x y im c => Sys2Proof.Machine.execCFill x y im c s
  | .cCvt x y z m c => Sys2Proof.Machine.execCCvt x y z m c s
  | .cBind x y z m c => Sys2Proof.Machine.execCBind x y z m c s
  | .cKvg x y z m c => Sys2Proof.Machine.execCKvg x y z m c s
  | .cKvs x y z m c => Sys2Proof.Machine.execCKvs x y z m c s
  | .cGm x y z m c => Sys2Proof.Machine.execCGm x y z m c s
  | .cPeer x y z c => Sys2Proof.Machine.execCPeer x y z c s
  | .cRwin x y z m c => Sys2Proof.Machine.execCRwin x y z m c s
  | .cPf x y m c => Sys2Proof.Machine.execCPf x y m c s
  | .cLoop d l c => Sys2Proof.Machine.execCLoop d l c s
  | .cUnbind x c => Sys2Proof.Machine.execCUnbind x c s
  | .cDsc x y m c => Sys2Proof.Machine.execCDsc x y m c s
  | .cBbinv y c => Sys2Proof.Machine.execCBbinv y c s
  | .bAdd x y z r w c => Sys2Proof.Machine.execBAdd x y z r w c s
  | .bMin x y z r w c => Sys2Proof.Machine.execBMin x y z r w c s
  | .bMax x y z r w c => Sys2Proof.Machine.execBMax x y z r w c s
  | .bMinu x y z r w c => Sys2Proof.Machine.execBMinu x y z r w c s
  | .bMaxu x y z r w c => Sys2Proof.Machine.execBMaxu x y z r w c s
  | .bAnd x y z r w c => Sys2Proof.Machine.execBAnd x y z r w c s
  | .bOr x y z r w c => Sys2Proof.Machine.execBOr x y z r w c s
  | .bXor x y z r w c => Sys2Proof.Machine.execBXor x y z r w c s
  | .bSwap x y z r w c => Sys2Proof.Machine.execBSwap x y z r w c s
  | .bCas x y z r w c => Sys2Proof.Machine.execBCas x y z r w c s
  | .bFadd x y z c => Sys2Proof.Machine.execBFadd x y z c s
  | .bFadb x y z c => Sys2Proof.Machine.execBFadb x y z c s
  | .bScal x y z t c => Sys2Proof.Machine.execBScal x y z t c s
  | .bAxpy x y z t c => Sys2Proof.Machine.execBAxpy x y z t c s
  | .bWait x y z k w c => Sys2Proof.Machine.execBWait x y z k w c s
  | .bVst x y z c => Sys2Proof.Machine.execBVst x y z c s
  | .bVld x y z t c => Sys2Proof.Machine.execBVld x y z t c s
  | .bVldLe x y z t c => Sys2Proof.Machine.execBVldLe x y z t c s
  | .bVretire x y c => Sys2Proof.Machine.execBVretire x y c s
  | .bVnew x y c => Sys2Proof.Machine.execBVnew x y c s
  | .bVfloor x y c => Sys2Proof.Machine.execBVfloor x y c s
  | .bVreg x y c => Sys2Proof.Machine.execBVreg x y c s
  | .bVregFree x y c => Sys2Proof.Machine.execBVregFree x y c s
  | .bVregRd x y c => Sys2Proof.Machine.execBVregRd x y c s
  | .bVregSpill x y c => Sys2Proof.Machine.execBVregSpill x y c s
  | .aAttn x y z k v c => Sys2Proof.Machine.execAAttn x y z k v c s
  | .aPart x y z k v c => Sys2Proof.Machine.execAPart x y z k v c s
  | .aMerge x y z n c => Sys2Proof.Machine.execAMerge x y z n c s
  | .aCfg x im c => Sys2Proof.Machine.execACfg x im c s
  | .aBinv y c => Sys2Proof.Machine.execABinv y c s
  | .aPref y z m c => Sys2Proof.Machine.execAPref y z m c s
  | .kPool x y c => Sys2Proof.Machine.execKPool x y c s
  | .kPoolOff y c => Sys2Proof.Machine.execKPoolOff y c s
  | .kTbl x y z c => Sys2Proof.Machine.execKTbl x y z c s
  | .kApp x y z r w c => Sys2Proof.Machine.execKApp x y z r w c s
  | .kWr x y z m c => Sys2Proof.Machine.execKWr x y z m c s
  | .kFork x y z c => Sys2Proof.Machine.execKFork x y z c s
  | .kTrunc x y c => Sys2Proof.Machine.execKTrunc x y c s
  | .kRet x c => Sys2Proof.Machine.execKRet x c s
  | .kWinOpen x y z c => Sys2Proof.Machine.execKWinOpen x y z c s
  | .kCommit x y z n c => Sys2Proof.Machine.execKCommit x y z n c s
  | .kAbort x y n c => Sys2Proof.Machine.execKAbort x y n c s
  | .kCkpt x y z c => Sys2Proof.Machine.execKCkpt x y z c s
  | .kLen x y c => Sys2Proof.Machine.execKLen x y c s
  | .kBbinv y c => Sys2Proof.Machine.execKBbinv y c s
  | .kFalloc x y z n c => Sys2Proof.Machine.execKFalloc x y z n c s
  | .kFfree x y z c => Sys2Proof.Machine.execKFfree x y z c s
  | .kFscrub x y c => Sys2Proof.Machine.execKFscrub x y c s
  | .kFscrubTake x y z c => Sys2Proof.Machine.execKFscrubTake x y z c s
  | .kFref x y z c => Sys2Proof.Machine.execKFref x y z c s
  | .kFqryBlk x y z c => Sys2Proof.Machine.execKFqryBlk x y z c s
  | .kFqryPool x y c => Sys2Proof.Machine.execKFqryPool x y c s
  | .steerResume => Sys2Proof.Machine.execSteerResume s
  | .remoteUnitReport e k => Sys2Proof.Machine.execRemoteUnitReport e k s
  | .trapTaken => Sys2Proof.Machine.execTrapTaken s
  | .gangPlace order die => Sys2Proof.Machine.execGangPlace order die s
  | .gangPreempt gang => Sys2Proof.Machine.execGangPreempt gang s
  | .gangResume gang die => Sys2Proof.Machine.execGangResume gang die s
  | .strandRetire => Sys2Proof.Machine.execStrandRetire s
  | .waitSwitchTimeout => Sys2Proof.Machine.execWaitSwitchTimeout s
  | .turnQuantumExpiry => Sys2Proof.Machine.execTurnQuantumExpiry s
  | .bankWaitSatisfied => Sys2Proof.Machine.execBankWaitSatisfied s
  | .versionLoadTimeout => Sys2Proof.Machine.execVersionLoadTimeout s
  | .pageRequestPost fn => Sys2Proof.Machine.execPageRequestPost fn s
  | .prqheadWrite fn head => Sys2Proof.Machine.execPrqheadWrite fn head s
  | .prspWrite fn tag code => Sys2Proof.Machine.execPrspWrite fn tag code s
  | .s2invWrite fn w => Sys2Proof.Machine.execS2invWrite fn w s
  | .s2invDone fn => Sys2Proof.Machine.execS2invDone fn s
  | .dbmctlWrite fn w => Sys2Proof.Machine.execDbmctlWrite fn w s
  | .dbmSwitchDone fn => Sys2Proof.Machine.execDbmSwitchDone fn s
  | .weightRegionEnable part im => Sys2Proof.Machine.execWeightRegionEnable part im s
  | .weightRegionHashDone part im => Sys2Proof.Machine.execWeightRegionHashDone part im s
  | .weightRegionDisable part im => Sys2Proof.Machine.execWeightRegionDisable part im s
  | .weightRegionOff part im => Sys2Proof.Machine.execWeightRegionOff part im s
  | .taskAccept => Sys2Proof.Machine.execTaskAccept s
  | .taskDeadline die => Sys2Proof.Machine.execTaskDeadline die s
  | .passPlace die => Sys2Proof.Machine.execPassPlace die s
  | .passComplete die => Sys2Proof.Machine.execPassComplete die s
  | .draperExpire fn => Sys2Proof.Machine.execDraperExpire fn s
  | .fullerScrubStart part pool => Sys2Proof.Machine.execFullerScrubStart part pool s
  | .scrubComplete part pool => Sys2Proof.Machine.execScrubComplete part pool s
  | .hostMemoryAccess w pa n data => Sys2Proof.Machine.execHostMemoryAccess w pa n data s
  | .kickRegisterWrite fn q value => Sys2Proof.Machine.execKickRegisterWrite fn q value s
  | .kick fn q => Sys2Proof.Machine.execKick fn q s
  | .queueEnable fn q => Sys2Proof.Machine.execQueueEnable fn q s
  | .queueDisable fn q => Sys2Proof.Machine.execQueueDisable fn q s
  | .noOpPacket fn q => Sys2Proof.Machine.execNoOpPacket fn q s
  | .docketPacket fn q => Sys2Proof.Machine.execDocketPacket fn q s
  | .queueFencePacket fn q => Sys2Proof.Machine.execQueueFencePacket fn q s
  | .fenceComplete fn q => Sys2Proof.Machine.execFenceComplete fn q s
  | .signalPacket fn q => Sys2Proof.Machine.execSignalPacket fn q s
  | .memoryWaitPacket fn q => Sys2Proof.Machine.execMemoryWaitPacket fn q s
  | .memoryWaitSatisfied fn q => Sys2Proof.Machine.execMemoryWaitSatisfied fn q s
  | .batchStepPacket fn q => Sys2Proof.Machine.execBatchStepPacket fn q s
  | .stepBoundary fn q => Sys2Proof.Machine.execStepBoundary fn q s
  | .stepRetirement fn q => Sys2Proof.Machine.execStepRetirement fn q s
  | .completionRecordWrite fn q => Sys2Proof.Machine.execCompletionRecordWrite fn q s
  | .cqheadWrite fn q head => Sys2Proof.Machine.execCqheadWrite fn q head s
  | .hangDetected gang => Sys2Proof.Machine.execHangDetected gang s
  | .decodeImageLoad part reason digest => Sys2Proof.Machine.execDecodeImageLoad part reason digest s
  | .partitionHold part => Sys2Proof.Machine.execPartitionHold part s
  | .partitionRst part => Sys2Proof.Machine.execPartitionRst part s
  | .partitionRelease part => Sys2Proof.Machine.execPartitionRelease part s
  | .ownedRangeReady part => Sys2Proof.Machine.execOwnedRangeReady part s
  | .functionReset fn => Sys2Proof.Machine.execFunctionReset fn s
  | .functionResetDone fn => Sys2Proof.Machine.execFunctionResetDone fn s
  | .functionLevelReset fn => Sys2Proof.Machine.execFunctionLevelReset fn s
  | .functionEnable fn on => Sys2Proof.Machine.execFunctionEnable fn on s
  | .privqClear fn => Sys2Proof.Machine.execPrivqClear fn s
  | .deviceReset => Sys2Proof.Machine.execDeviceReset s
  | .violClear => Sys2Proof.Machine.execViolClear s
  | .untrustedPrivateAccess fn off w => Sys2Proof.Machine.execUntrustedPrivateAccess fn off w s
  | .unsupportedRequest => Sys2Proof.Machine.execUnsupportedRequest s
  | .migrationPause fn => Sys2Proof.Machine.execMigrationPause fn s
  | .migrationPaused fn => Sys2Proof.Machine.execMigrationPaused fn s
  | .migrationResume fn => Sys2Proof.Machine.execMigrationResume fn s
  | .peerUnitArrival src xfer world key dgang off len unit data => Sys2Proof.Machine.execPeerUnitArrival src xfer world key dgang off len unit data s
  | .peerUnitResend => Sys2Proof.Machine.execPeerUnitResend s
  | .rwinContribution chip key home e op value => Sys2Proof.Machine.execRwinContribution chip key home e op value s
  | .rwinHomeWrite key home => Sys2Proof.Machine.execRwinHomeWrite key home s
  | .flitRetransmit port => Sys2Proof.Machine.execFlitRetransmit port s
  | .portDown port => Sys2Proof.Machine.execPortDown port s
  | .advertisePeriod => Sys2Proof.Machine.execAdvertisePeriod s
  | .integReread line pass => Sys2Proof.Machine.execIntegReread line pass s
  | .powerOn => Sys2Proof.Machine.execPowerOn s
  | .sramUncorrectableError die tile => Sys2Proof.Machine.execSramUncorrectableError die tile s
  | .correctableError => Sys2Proof.Machine.execCorrectableError s
  | .ceWindowExpiry => Sys2Proof.Machine.execCeWindowExpiry s
  | .powerBrake => Sys2Proof.Machine.execPowerBrake s
  | .powerLimitThrottle island clock => Sys2Proof.Machine.execPowerLimitThrottle island clock s
  | .thermalThreshold dram unit degrees => Sys2Proof.Machine.execThermalThreshold dram unit degrees s
  | .tlmRefresh watts junction stack => Sys2Proof.Machine.execTlmRefresh watts junction stack s
  | .ckptStart => Sys2Proof.Machine.execCkptStart s
  | .ckptDone => Sys2Proof.Machine.execCkptDone s
  | .ckptResume => Sys2Proof.Machine.execCkptResume s
  | .scrivselWrite slot => Sys2Proof.Machine.execScrivselWrite slot s
  | .registerWrite fn off value half => Sys2Proof.Machine.execRegisterWrite fn off value half s
  | .engineWordPerformed e k => Sys2Proof.Machine.execEngineWordPerformed e k s
  | .undefinedEncoding w => Sys2Proof.Machine.execUndefinedEncoding w s
  | .portTrained port => Sys2Proof.Machine.execPortTrained port s
  | .powerRemoved leaf => Sys2Proof.Machine.execPowerRemoved leaf s
  | .tdispRequest fn run => Sys2Proof.Machine.execTdispRequest fn run s

end Sys2Proof.Machine
end

