-- ==== Sys2Proof/Machine/Schedule.lean ====
section
/-! DEFINITION. What happens next (log 2): the moves that are asked for, the current strand's fetch and engines (R15 to R22,
R28, R196), the tile's banks (R53, R54), and the device's own events. -/

namespace Sys2Proof.Machine

/-! ## Fetch and execution of one unit -/

/-- What a fetch comes to: an instruction and the state in which it is executed, a word that encodes none (R99) and that
state, or the state after a fetch that gave no word. -/
inductive Fetched where
  | word (i : Instr) (s : State)
  | undefined (w : BitVec 32) (s : State)
  | held (s : State)

/-- Fetch the current strand's next word and decode it (R15, R82, R99): a fault of the fetch is the unit's (R28), and a fetch
that waits on a page parks the strand (R290). -/
def State.fetch (s : State) : Fetched :=
  match fetchWord s.st.wordAddr.toNat s with
  | .ok w s' =>
    match decodeWord w with
    | some i => .word i s'
    | none => .undefined w s'
  | .error (.wait k g) s' => .held (s'.holdUnit k g)
  | .error (.trap f) s' => .held (s'.raise s'.st.pc f)

/-- The current strand is held back: its own word waits, or the splitter stalls. -/
def Strand.blocked (t : Strand) : Bool := t.waiting.isSome || t.stalled

/-- The splitter of the current strand is free to steer (R15, R20, R51, R74, R78, R196). -/
def Strand.steering (t : Strand) : Bool := t.life == .active && t.pend.isNone && t.hold == .none && !t.ended

/-! ## Counts of a step (R54, R464) -/

/-- A step in which the current strand has moved. -/
def State.moved (s : State) : State :=
  let u := s.restarted
  { u with clock := s.clock + 1, st := { u.st with turn := s.st.turn + 1 } }

/-- A step in which it could not. -/
def State.stuck (s : State) : State :=
  { (s.modGang fun g => { g with stall := g.stall + 1 }) with
    st := { s.st with stall := s.st.stall + 1, turn := s.st.turn + 1 } }

/-! ## The device's own events -/

/-- An event of the device, as a change of its state. -/
abbrev Event := State → Host.Outcome State Fault Refusal

/-- Events of the queues of a function. -/
def queueEvents (fn q : Nat) : List Event :=
  [execCompletionRecordWrite fn q, (fun s => if s.kicked fn q then execKick fn q s else .next s), execFenceComplete fn q, execMemoryWaitSatisfied fn q, execNoOpPacket fn q,
   execDocketPacket fn q, execQueueFencePacket fn q, execSignalPacket fn q, execMemoryWaitPacket fn q, execBatchStepPacket fn q,
   execStepRetirement fn q, execStepBoundary fn q]

/-- The events that the device makes by itself, in the order in which they are tried. -/
def State.ownEvents (s : State) : List Event :=
  [execStrandRetire, execVersionLoadTimeout, execPeerUnitResend] ++
  (s.front.gangs.map fun g => execHangDetected g.id) ++
  (if s.fabric.advEn then [execAdvertisePeriod] else []) ++ (if s.svc.ceSince + ceWindow ≤ s.clock then [execCeWindowExpiry] else []) ++
  (s.fns.flatMap fun f => [execPageRequestPost f.1, execS2invDone f.1, execDbmSwitchDone f.1, execFunctionResetDone f.1] ++
    (if f.2.migState = 1 then [execMigrationPaused f.1] else if f.2.migState = 3 then [execMigrationResume f.1] else []) ++
    f.2.queues.flatMap fun q => queueEvents f.1 q.1) ++
  (s.drapers.flatMap fun d => [execTaskDeadline d.1, execPassPlace d.1, execPassComplete d.1]) ++
  ((s.fabric.windows ++ s.fabric.past).map fun w => execRwinHomeWrite w.key w.home) ++
  (s.parts.flatMap fun p =>
    (p.2.weights.flatMap fun w => [execWeightRegionHashDone p.1 w.1, execWeightRegionOff p.1 w.1]) ++
    [execOwnedRangeReady p.1, execFullerScrubStart p.1 256, execScrubComplete p.1 256] ++
    p.2.pools.flatMap fun q => [execFullerScrubStart p.1 q.1, execScrubComplete p.1 q.1]) ++
  ((s.front.gangs.filter fun g => g.saved).flatMap fun g => genFrom 4 0 fun d => execGangResume g.id d) ++
  (s.front.orders.flatMap fun o => genFrom 4 0 fun d => execGangPlace o.id d) ++
  (if s.svc.ckptState = 1 then [execCkptDone] else [])

/-- The first event of a list that changes anything. -/
def State.tryEvents (s : State) : List Event → Option State
  | [] => none
  | i :: rest =>
    match i s with
    | .next t => if t = s then s.tryEvents rest else some t
    | _ => s.tryEvents rest

/-- The strand that takes its turn next. -/
def State.nextStrand (s : State) : Option Strand := s.others.find? fun t => t.life != .saved && t.life != .gone

/-- Nothing more can be done for the current strand in this step: the tile switches to its other bank where the strand is
parked or has waited long enough (R54), the device makes an event of its own, or the next strand takes its turn. -/
def State.yieldTurn (s : State) : State :=
  let switched :=
    if s.st.yields then s.switchBank else none
  let t := match switched with
    | some t => t
    | none =>
      match s.tryEvents s.ownEvents with
      | some t => t
      | none =>
        match s.nextStrand with
        | some u => s.select u.place.gang u.place.member
        | none => s
  { t with clock := t.clock + 1 }

/-- After a unit: it has been steered, or it is held back. -/
def State.afterUnit (s : State) : State := if s.st.blocked then s.stuck.yieldTurn else s.moved

/-- What a unit's execution leads to. -/
def afterExec (o : Host.Outcome State Fault Refusal) : Host.Outcome State Fault Refusal :=
  match o with
  | .next u => .next u.afterUnit
  | .fault r => .fault r
  | .refused r => .refused r

/-! ## The current strand -/

/-- The strand's turn is to be interrupted, so that others move as well (log 2). -/
def Strand.pauses (t : Strand) : Bool := t.turn % 256 == 255

/-- The current strand moves: its next unit, or else an engine, the end of a drain or of the strand. The splitter runs
ahead of the engines until it is held back (R20, R21; log 2). While the slip is at its limit nothing is fetched (R21). -/
def State.runStrand (s : State) : Host.Outcome State Fault Refusal :=
  if s.st.pauses || s.stoppedGang then .next s.stuck.yieldTurn
  else
    match (if s.st.steering && !s.st.blocked then none else s.moveEngines) with
    | some t => .next t.moved
    | none =>
      if s.st.steering then
        if s.st.csr.slipLimit ≤ s.st.slip then .next s.stall.afterUnit
        else match s.fetch with
        | .held t => .next t.afterUnit
        | .word i t => afterExec (exec i t)
        | .undefined w t => afterExec (execUndefinedEncoding w t)
      else if s.st.life = .residentIdle ∧ s.ownsTile = true then
        .next (s.activate s.st.place.gang s.st.place.member).moved
      else
        match s.endDrain with
        | some t => .next t.settle.moved
        | none =>
          match s.retire with
          | some t => .next t.settle.moved
          | none => .next s.stuck.yieldTurn

/-! ## Moves that are asked for -/

/-- Cycles pass in which nothing else happens (R54, R464). -/
def State.tick (s : State) (n micros : Nat) : State :=
  let wait := fun t : Strand => if t.life = .active then { t with stall := t.stall + n, turn := t.turn + n } else t
  { s with
    st := wait s.st
    others := s.others.map wait
    front := { s.front with gangs := s.front.gangs.map fun g => if g.saved then g else { g with stall := g.stall + n } }
    clock := s.clock + n
    aon := s.aon + micros }

/-- The firmware gates a partition whose strands are all gone or saved, or ungates one (R514). -/
def State.gate (s : State) (part : Nat) (on : Bool) : State :=
  let rest := s.svc.gated.filter (· != part)
  let idle := !((s.st :: s.others).any fun t => t.place.part == part && t.life != .gone && t.life != .saved)
  if on && !idle then s else { s with svc := { s.svc with gated := if on then rest ++ [part] else rest } }

/-- A tile's caches lose the translations of an address (R280). -/
def TileCache.dropTlb (c : TileCache) (va : Nat) : TileCache :=
  { c with tlbs := c.tlbs.filter fun e => !(decide (e.va ≤ va ∧ va < e.va + e.size)), walks := [] }

/-- Do one move. -/
def State.doMove (s : State) (m : Move) : Host.Outcome State Fault Refusal :=
  match m with
  | .select g k => .next (s.select g k)
  | .event i =>
    match exec i s with
    -- a word that is executed ends a stall (R464)
    | .next t => .next (if i.isWord && !t.st.blocked then t.restarted else t)
    | o => o
  | .dropL1 line => .next (s.trimTile s.st.place.tileKey fun c => c.dropLines (line * 64) 1)
  | .dropTlb va => .next (s.trimTile s.st.place.tileKey fun c => c.dropTlb va)
  | .moveVersion c b g n k => .next (s.moveVersion c b g n k)
  | .setLag mask => .next { s with st := { s.st with lag := mask } }
  | .tick n us => .next (s.tick n us)
  | .lineFault line k => .next (s.lineFault line k)
  | .nodeFault level i k => .next (s.nodeFault level i k)
  | .gate p on => .next (s.gate p on)
  | .boot bad fails => .next (s.bootRun bad fails)
  | .offerFirmware m => .next { s with svc := { s.svc with firmware := some m } }
  | .offer m => .next { s with svc := { s.svc with offered := some m } }
  | .image i => .next { s with images := s.images ++ [{ i with id := s.images.length }] }
  | .fabric i => .next (s.fabricInput i)

/-- What happens next: the first move that is asked for; without one the boot sequence, where it is still to run, and then
the current strand. A device without power does nothing by itself. The Draper passes that are due in this cycle form first
(R370). -/
def State.happen (s : State) : Host.Outcome State Fault Refusal :=
  match s.moves with
  | m :: rest => ({ s with moves := rest } : State).formPasses.doMove m
  | [] =>
    if s.svc.powered = false then .next s
    else if s.svc.boot = 0 then .next (s.bootRun [] false)
    else s.formPasses.runStrand

end Sys2Proof.Machine
end

