-- ==== Sys2Proof/Machine/Step.lean ====
section
/-! DEFINITION. The step function, and a state whose next step runs a given word. -/

namespace Sys2Proof.Machine

/-- One step of the machine. -/
def step (s : State) : Host.Outcome State Fault Refusal := s.happen

/-- The place of the strand that runs a word under test: of the physical function, in context slot 0, on tile 0 of die 0 in
partition 0. -/
def wordPlace : Place :=
  { order := 0, gang := 0, member := 0, size := 1, fn := 0, slot := 0, world := 0, part := 0, die := 0, tile := 0, bank := 0 }

/-- Physical memory that a placed strand fetches through: the context table at 0x2_0000 with slot 0 valid (R269), a table
node at each level (R271) and, at virtual address 0x10_0000, one page that may be fetched (R273). -/
def wordMem (m : Mem) (nbits w : Nat) : Mem :=
  let m := m.writeNat 0x20000 8 1
  let m := m.writeNat 0x20008 8 0x40000
  let m := m.writeNat 0x40000 8 0x50101
  let m := m.writeNat 0x50000 8 0x60101
  let m := m.writeNat 0x60080 8 0x70153
  m.writeNat 0x70000 4 (w % 2 ^ nbits)

/-- `s` with a word placed where the next step fetches (log 1): the device has booted, partition 0 is released with the eight
frames that hold the context table, the page tables and the page of text, and the current strand is an active one that
stands at the word with nothing queued. Its registers and the rest of its context are as they were. -/
def State.withFetchWord (s : State) (nbits w : Nat) : State :=
  let cfg : PartCfg := ⟨true, 0, 0, false, 0, 1, 8, 0, 8⟩
  let mem := wordMem s.mem nbits w
  { s with
    st := { s.st with
      place := wordPlace, life := .active, pc := 0x100000, pfx := [], ended := false, hold := .none, broken := .none, pend := none
      stalled := false, waiting := none, queues := Vector.replicate 6 [], loopLeft := Vector.replicate 3 0, engHeld := 0
      pageWaits := [], pageAnswers := [], turn := 0 }
    mem := mem
    narrow := []
    tiles := []
    drapers := []
    frames := putFrames s.frames 0 8 ⟨.owned, 0, 0, 0, 0⟩
    poison := [], badLines := [], flakyLines := [], badNodes := [], flakyNodes := []
    parts := assocPut s.parts 0 { s.part 0 with cfg := cfg, hold := false, busy := false }
    host := { s.host with ctxBase := 0x20000 }
    svc := { s.svc with powered := true, boot := 7 }
    moves := [] }

end Sys2Proof.Machine
end

