-- ==== Sys2Proof/Safety.lean ====
section
/-! DEFINITION. What counts as a safe state and a safe step, in the terms that claims use: the states in which a word is
steered and performed at once, and what the machine looks like when it is done. -/

namespace Sys2Proof.Machine

/-- The memory of the device is in its canonical form. -/
def State.Wf (s : State) : Prop := s.mem.wf = true

/-- A step that is neither a fault nor a refusal: the machine goes on. -/
def State.GoesOn (s : State) : Prop := ∃ t, step s = .next t

/-- The splitter steers `i` with the prefixes `p`: a strand runs, every check of R102 passes and the slip is below its limit
(R21). -/
def Steers (i : Instr) (p : Prefixes) (s : State) : Prop :=
  s.st.life ≠ .gone ∧ unitCheck i s.st (s.features s.st.place.fn) = .ok p ∧ s.st.slip < s.st.csr.slipLimit

/-- The strand is active, with its gang-member rights, with nothing queued and nothing pending, and no engine of it is held: a
word that is steered is performed at once (log 7). -/
structure Strand.Quiet (t : Strand) : Prop where
  active : t.life = .active
  rights : t.barred = false
  queues : t.queues = Vector.replicate 6 []
  loops : t.loopLeft = Vector.replicate 3 0
  work : t.work = Progress.fresh
  hold : t.hold = .none
  pend : t.pend = none
  held : t.engHeld = 0
  lag : t.lag = 0

/-- No ganged word of the strand's leader locks bytes of a member's scratchpad (R80, R351). -/
def State.SharesFree (s : State) : Prop :=
  ∀ t ∈ s.others, t.place.gang = s.st.place.gang → t.place.member = 0 → ∀ x ∈ t.queue 2, x.prog.shareLocks = []

/-- No word of the strand that is still to be steered waits for the Fuller (R430). -/
def State.FullerFree (s : State) : Prop :=
  ∀ w ∈ s.fullerWaits, w.gang = s.st.place.gang → w.member = s.st.place.member → w.seq < s.st.steered

/-- `i` is steered with the prefixes `p` and performed at once. -/
def Runs (i : Instr) (p : Prefixes) (s : State) : Prop := Steers i p s ∧ s.st.Quiet ∧ s.SharesFree ∧ s.FullerFree

/-- The effect `f` of a word on its strand, and fetch goes on at the next unit. -/
def State.did (s : State) (f : Strand → Strand) : State := { s with st := (f s.st).advance s.st.nextAddr }

/-- The unit's `x.ord` prefix asks for an open when its word is performed (R74). -/
def Prefixes.acquires (p : Prefixes) : Bool :=
  match p.ord with
  | some (o, _) => o == 2 || o == 3
  | none => false

/-- The open that `x.ord` asks for (R67, R74). -/
def State.opened (s : State) (p : Prefixes) : State := if p.acquires then s.open else s

/-- The register fields of class VW among `rs` that name stream registers have a unit each, and name different ones. -/
def Strand.UnitsReady (t : Strand) (rs : List Reg) : Prop :=
  (rs.filterMap streamNo).Nodup ∧
    ∀ n ∈ rs.filterMap streamNo, ∃ u, (vget t.streams n Stream.unbound).take true = .inr u

/-- What a field of class VW reads as (R205, R206): a register, or the next unit of a stream register. -/
def Strand.source (t : Strand) (r : Reg) (e : Nat) : Elem :=
  match streamNo r with
  | none => t.velem r e
  | some n =>
    match (vget t.streams n Stream.unbound).take true with
    | .inr u => u.1.toArray.getD e 0
    | .inl _ => 0

/-- The stream registers after a unit of each one named among `rs` is consumed (R38, R39). -/
def Strand.consumed (t : Strand) (rs : List Reg) : Vector Stream 8 :=
  vecGen 8 fun n =>
    let w := vget t.streams n Stream.unbound
    if (rs.filterMap streamNo).contains n then
      match w.take true with
      | .inr u => u.2
      | .inl _ => w
    else w

/-- From `s` to `t` nothing has changed but memory at its homes, what stands beside it there (publication, poison of lines and
of pool blocks, integrity, counters, waits on a value, slots of versions), and the functions' dirty-bitmap flags. -/
def State.OnlyMemory (s t : State) : Prop :=
  t = { s with
    mem := t.mem, narrow := t.narrow, poison := t.poison, badLines := t.badLines, flakyLines := t.flakyLines
    bankWaits := t.bankWaits, lineCtrs := t.lineCtrs, nodeCtrs := t.nodeCtrs, treeRoots := t.treeRoots, fns := t.fns, parts := t.parts
    spoiled := t.spoiled }

/-- No line of a range of DRAM is poisoned (R508) or near the end of its counters (R506): a write to it is stored. -/
def State.Stores (s : State) (pa n : Nat) : Prop :=
  ∀ a, pa ≤ a → a < pa + n → a < dramEnd →
    s.poison.contains (a / 64) = false ∧ ((s.frameAt a).sealMode = 2 → ∀ c ∈ s.ctrsOf (a / 64), c + n < 2 ^ 56)

end Sys2Proof.Machine
end

