-- ==== Sys2Proof/Certificates/Slice0/Obligations.lean ====
section
/-! DEFINITION. The statements for the provers: what reset leaves, what each word and event does, where a word traps, and
what every step keeps. A word's result is stated as the next state, so that whatever it does not name is unchanged. -/

open Sys2Proof Sys2Proof.Machine

namespace Sys2Proof.Machine

/-! ## Words that the statements share -/

/-- The unit's immediate, signed: its field, with the 22 bits of `x.imm` before it where there is one (R91). -/
def signedImm {n : Nat} (p : Prefixes) (f : BitVec n) : Word :=
  match p.imm with
  | none => f.signExtend 64
  | some h => (h ++ f).signExtend 64

/-- The unit's immediate, unsigned. -/
def unsignedImm {n : Nat} (p : Prefixes) (f : BitVec n) : Word :=
  match p.imm with
  | none => f.setWidth 64
  | some h => (h ++ f).setWidth 64

/-- A word of engine `e`, opcode `op`, with a 22-bit payload (R84). -/
def IsWord (i : Instr) (e op payload : Nat) : Prop := (encode i).toNat = e * 2 ^ 29 + op * 2 ^ 22 + payload

/-- The trap `t` is raised at the unit's address, and the word has no effect. -/
def Raises (i : Instr) (s : State) (c : Cause) (kind : Nat) (tval : Word) : Prop :=
  exec i s = .next (s.raise s.st.pc ⟨c, kind, tval⟩)

/-- sD takes `f` of sA and sB; nothing else changes but the place of fetch. -/
def ComputesRR (w : Reg → Reg → Reg → Instr) (f : Word → Word → Word) : Prop :=
  ∀ s p d a b, Steers (w d a b) p s →
    exec (w d a b) s = .next (s.did fun t => t.setReg d (f (t.reg a) (t.reg b)))

/-- sD takes `f` of sA and the unit's immediate; nothing else changes but the place of fetch. -/
def ComputesRI (w : Reg → Reg → BitVec 10 → Instr) (imm : Prefixes → BitVec 10 → Word) (f : Word → Word → Word) : Prop :=
  ∀ s p d a i, Steers (w d a i) p s →
    exec (w d a i) s = .next (s.did fun t => t.setReg d (f (t.reg a) (imm p i)))

/-- `n` zero bits, from bit 63 down (`lead`) or from bit 0 up, before the first one, or 64. -/
def ZeroCount (lead : Bool) (a : Word) (n : Nat) : Prop :=
  n ≤ 64 ∧ (∀ k, k < n → a.getLsbD (if lead then 63 - k else k) = false) ∧
    (n < 64 → a.getLsbD (if lead then 63 - n else n) = true)

/-- A shift word with an amount above 63 traps UNDEF, whatever else its unit breaks. -/
def ShiftTraps (w : Reg → Reg → BitVec 10 → Instr) : Prop :=
  ∀ s p d a i, s.st.life ≠ .gone → Prefixes.ofWords s.st.pfx noPrefixes = some p → 64 ≤ (unsignedImm p i).toNat →
    Raises (w d a i) s .undef 0 ((encode (w d a i)).setWidth 64)

end Sys2Proof.Machine

/-! ## The state after reset -/

/-- What the maps of R472, R473, R475, R485, R518 to R521 and R526 give for device reset: boot has not begun, every partition
is held, no function but function 0 is enabled, and nothing is placed, queued or recorded. -/
def Obligations.ResetState : Prop :=
  let s := State.reset
  s.Wf ∧ s.st.life = .gone ∧ s.others = [] ∧ s.front.orders = [] ∧ s.front.gangs = [] ∧ s.front.packets = [] ∧ s.front.cqWait = [] ∧
  s.svc.boot = 0 ∧ s.svc.integ = 0 ∧ s.svc.cerr = false ∧ s.svc.ceCount = 0 ∧ s.svc.ceLimit = 1000 ∧ s.svc.pwrcap = 3000 ∧
  s.svc.ckptDst = 0 ∧ s.svc.scrivSel = 0 ∧ s.scriv = [] ∧ s.host.ctxBase = 0 ∧ s.host.violCount = 0 ∧
  s.fabric.chip = 0xFFF ∧ s.fabric.err = 0 ∧ s.fabric.advEn = false ∧ s.fabric.advParts = 0 ∧ s.sealEng.worlds = [] ∧ s.tiles = [] ∧ s.svc.image = none ∧
  (∀ p, (s.part p).hold = true ∧ (s.part p).cfg.en = false ∧ (s.part p).err = false ∧ (s.part p).busy = false ∧
    (s.part p).cfg.ownlim = 0 ∧ (s.part p).weights = [] ∧ (s.part p).shapes = [] ∧ (s.part p).pools = []) ∧
  (∀ f, (s.fn f).en = false ∧ (s.fn f).part = 0 ∧ (s.fn f).privq = false ∧ (s.fn f).featmask = 0xFFFF ∧ (s.fn f).pcw = 16 ∧
    (s.fn f).sbw = 16 ∧ (s.fn f).daw = 16 ∧ (s.fn f).few = 16 ∧ (s.fn f).migState = 0 ∧ (s.fn f).queues = [] ∧
    (s.fn f).mgen = 0 ∧ (s.fn f).lost = false ∧ (s.fn f).mr = Vector.replicate 8 0) ∧
  ∀ f, s.fnEnabled f = (f == 0)

/-- What R23, R32, R38, R41, R173, R187, R205, R235, R246, R317, R333 and R380 give a strand at placement, where nothing else
has been set for it. -/
def Obligations.PlacementState : Prop :=
  ∀ (p : Place) (r : Reg) (n : Nat),
    let t := Strand.fresh p
    t.reg r = 0 ∧ t.csr.slipLimit = 256 ∧ t.csr.flags = 0 ∧ t.csr.rmode = 0 ∧ t.csr.rngKey = 0 ∧ t.csr.rngCtr = 0 ∧
    t.csr.trap = false ∧ t.csr.emu = false ∧ t.csr.tvec = 0 ∧ t.csr.emuvec = 0 ∧ t.csr.emuepc = 0 ∧ t.csr.epcS = 0 ∧
    t.csr.tcause = 0 ∧ t.csr.tval = 0 ∧ t.csr.tscr = 0 ∧ t.csr.vtimeout = 4096 ∧
    (n < 16 → vget t.vec.v n (Vector.replicate 1024 1) = Vector.replicate 1024 0) ∧
    (n < 8 → vget t.vec.p n 1 = 0) ∧ t.vec.dirty = 0 ∧ t.mat.bankSel = false ∧ t.mat.loads = [] ∧
    t.attn = ⟨0x3F800000, 64, 0, 0, 0⟩ ∧ (n < 8 → t.desc n = 0) ∧
    t.ring n = Ring.unbound ∧ t.bar n = Barrier.fresh ∧ vget t.streams n Stream.unbound = Stream.unbound ∧
    (∀ e, t.queue e = []) ∧ t.stores = []

/-! ## Scalar registers and arithmetic -/

/-- From R173: s0 reads as zero and discards what is written to it; every other register holds what was written last, and a
write leaves the others. -/
def Obligations.ScalarRegisters : Prop :=
  ∀ (t : Strand) (v : Word),
    t.reg 0 = 0 ∧ t.setReg 0 v = t ∧
    (∀ d : Reg, d ≠ 0 → (t.setReg d v).reg d = v) ∧
    (∀ d r : Reg, r ≠ d → (t.setReg d v).reg r = t.reg r) ∧
    ∀ d : Reg, t.setReg d v = { t with regs := (t.setReg d v).regs }

/-- The effect column of R175: register-register arithmetic, its corners of division included; it neither traps on its values
nor sets a flag. R176, whole. -/
def Obligations.RegisterArithmetic : Prop :=
  (ComputesRR .add (· + ·) ∧ ComputesRR .sub (· - ·) ∧ ComputesRR .and (· &&& ·) ∧ ComputesRR .or (· ||| ·) ∧
  ComputesRR .xor (· ^^^ ·) ∧
  ComputesRR .sll (fun a b => a <<< (b.toNat % 64)) ∧
  ComputesRR .srl (fun a b => a >>> (b.toNat % 64)) ∧
  ComputesRR .sra (fun a b => a.sshiftRight (b.toNat % 64)) ∧
  ComputesRR .slt (fun a b => if a.toInt < b.toInt then 1 else 0) ∧
  ComputesRR .sltu (fun a b => if a.toNat < b.toNat then 1 else 0) ∧
  ComputesRR .mul (· * ·) ∧
  ComputesRR .mulh (fun a b => ((a.signExtend 128 * b.signExtend 128) >>> 64).setWidth 64) ∧
  ComputesRR .mulhu (fun a b => ((a.setWidth 128 * b.setWidth 128) >>> 64).setWidth 64) ∧
  ComputesRR .div (fun a b => if b = 0 then BitVec.allOnes 64 else a.sdiv b) ∧
  ComputesRR .divu (fun a b => if b = 0 then BitVec.allOnes 64 else a / b) ∧
  ComputesRR .rem (fun a b => if b = 0 then a else a.srem b) ∧
  ComputesRR .remu (fun a b => if b = 0 then a else a % b) ∧
  ComputesRR .min (fun a b => if a.toInt < b.toInt then a else b) ∧
  ComputesRR .max (fun a b => if b.toInt < a.toInt then a else b)) ∧
  ((∀ s p d a, Steers (.clz d a) p s → ∃ n, ZeroCount true (s.st.reg a) n ∧
    exec (.clz d a) s = .next (s.did fun t => t.setReg d (BitVec.ofNat 64 n))) ∧
  (∀ s p d a, Steers (.ctz d a) p s → ∃ n, ZeroCount false (s.st.reg a) n ∧
    exec (.ctz d a) s = .next (s.did fun t => t.setReg d (BitVec.ofNat 64 n))) ∧
  (∀ s p d a b, Steers (.cmov d a b) p s →
    exec (.cmov d a b) s = .next (s.did fun t => if t.reg b ≠ 0 then t.setReg d (t.reg a) else t)) ∧
  ∀ d a b : Reg,
    IsWord (.clz d a) 0 0x14 (d.toNat * 2 ^ 16 + a.toNat * 2 ^ 10) ∧
    IsWord (.ctz d a) 0 0x15 (d.toNat * 2 ^ 16 + a.toNat * 2 ^ 10) ∧
    IsWord (.cmov d a b) 0 0x16 (d.toNat * 2 ^ 16 + a.toNat * 2 ^ 10 + b.toNat * 2 ^ 4))

/-- R177, whole. R178, whole: `auipc` counts from the word itself, which stands after the unit's prefixes. -/
def Obligations.ImmediateArithmetic : Prop :=
  (ComputesRI .addi signedImm (· + ·) ∧ ComputesRI .andi signedImm (· &&& ·) ∧ ComputesRI .ori signedImm (· ||| ·) ∧
  ComputesRI .xori signedImm (· ^^^ ·) ∧
  ComputesRI .slli unsignedImm (fun a b => a <<< b.toNat) ∧
  ComputesRI .srli unsignedImm (fun a b => a >>> b.toNat) ∧
  ComputesRI .srai unsignedImm (fun a b => a.sshiftRight b.toNat) ∧
  ShiftTraps .slli ∧ ShiftTraps .srli ∧ ShiftTraps .srai ∧
  ∀ (d a : Reg) (i : BitVec 10), let f := d.toNat * 2 ^ 16 + a.toNat * 2 ^ 10 + i.toNat
    IsWord (.addi d a i) 0 0x18 f ∧ IsWord (.andi d a i) 0 0x19 f ∧ IsWord (.ori d a i) 0 0x1A f ∧
    IsWord (.xori d a i) 0 0x1B f ∧ IsWord (.slli d a i) 0 0x1C f ∧ IsWord (.srli d a i) 0 0x1D f ∧
    IsWord (.srai d a i) 0 0x1E f) ∧
  ((∀ s p d i, Steers (.li d i) p s → exec (.li d i) s = .next (s.did fun t => t.setReg d (signedImm p i))) ∧
  (∀ s p d i, Steers (.lui d i) p s → exec (.lui d i) s = .next (s.did fun t => t.setReg d (signedImm p i <<< 16))) ∧
  (∀ s p d i, Steers (.auipc d i) p s → exec (.auipc d i) s =
    .next (s.did fun t => t.setReg d (s.st.pc + BitVec.ofNat 64 (4 * s.st.pfx.length) + signedImm p i))) ∧
  ∀ (d : Reg) (i : BitVec 16), let f := d.toNat * 2 ^ 16 + i.toNat
    IsWord (.li d i) 0 0x20 f ∧ IsWord (.lui d i) 0 0x21 f ∧ IsWord (.auipc d i) 0 0x22 f)

/-! ## Scalar memory and scratchpad -/

namespace Sys2Proof.Machine

/-- The bytes that a scalar load of `n` bytes finds at a physical address (R60, R62): those of the line that the tile's L1 holds
for the strand, else those at the home; the host window is never cached. -/
def State.loadBytes (s : State) (pa n : Nat) : List Byte :=
  if hostBase ≤ pa then s.peekBytes s.st.who pa n
  else match s.l1Hit (pa / 64) with
    | some data => (data.drop (pa % 64)).take n
    | none => s.peekBytes s.st.who pa n

/-- The state after it: a line that the L1 did not hold for the strand fills it. -/
def State.loaded (s : State) (pa : Nat) : State :=
  if hostBase ≤ pa ∨ (s.l1Hit (pa / 64)).isSome = true then s else s.fillL1 (pa / 64)

/-- The line of a physical address meets no integrity fault and no poison (R507, R508). -/
def State.Sound (s : State) (pa : Nat) : Prop :=
  pa < dramEnd → s.poison.contains (pa / 64) = false ∧
    ((s.frameAt pa).sealMode = 2 → s.pathBad (pa / 64) = false ∧ s.pathFlaky (pa / 64) = false)

/-- A load word: where its address is aligned, translates to `m` and lies in a sound line, sD takes the `n` bytes that the
strand sees there, its own unpublished stores and those of its phase laid over them (R69), as `f` widens them. -/
def Loads (w : Reg → Reg → BitVec 10 → Instr) (n : Nat) (f : Nat → Word) : Prop :=
  ∀ s s1 p d a i m, Steers (w d a i) p s →
    let ea := (s.st.reg a + signedImm p i).toNat
    ea % n = 0 → mapAccess 0 s.st.place.slot ea .read s = .ok m s1 → s.Sound m.pa →
    let x := f (natOfBytes (s1.st.overlayOwn s.st.place.slot ea m.pa (s1.loadBytes m.pa n)))
    let u := s1.loaded m.pa
    exec (w d a i) s = .next { u with st := (u.st.setReg d x).advance s.st.nextAddr }

/-- A store word: where its address is aligned and translates to `m`, the `n` low bytes of sB stand unpublished until a
close (R66); no byte of memory changes but in the translation. -/
def StoresWord (w : Reg → Reg → BitVec 10 → Instr) (n : Nat) : Prop :=
  ∀ s s1 p b a i m, Steers (w b a i) p s →
    let ea := (s.st.reg a + signedImm p i).toNat
    ea % n = 0 → mapAccess 0 s.st.place.slot ea .write s = .ok m s1 →
    let x : PlainStore := ⟨ea, s.st.place.slot, m.fn, m.pa, bytesOfNat n (s.st.reg b).toNat, none, true, false,
      if m.two then some (m.fn, m.ipa) else none⟩
    exec (w b a i) s =
      .next { s1 with st := { s1.st with stores := s1.st.stores ++ [x] }.advance s.st.nextAddr }

/-- A misaligned address traps ALIGN, with the address in TVAL (R180, R181). -/
def Misaligned (w : Reg → Reg → BitVec 10 → Instr) (n : Nat) : Prop :=
  ∀ s p r a i, Steers (w r a i) p s →
    let ea := s.st.reg a + signedImm p i
    ea.toNat % n ≠ 0 → Raises (w r a i) s .align 0 ea

/-- A translation that fails traps with what the walk reports, and the word has no effect (R180, R195): the registers and the
unpublished stores are what they were, before the trap is raised and after. -/
def TranslationTraps (w : Reg → Reg → BitVec 10 → Instr) (n : Nat) (acc : AccessKind) : Prop :=
  ∀ s s1 p r a i c, Steers (w r a i) p s →
    let ea := (s.st.reg a + signedImm p i).toNat
    ea % n = 0 → mapAccess 0 s.st.place.slot ea acc s = .error (.trap c) s1 →
    exec (w r a i) s = .next (s1.raise s.st.pc c) ∧
      s1 = { s with st := { s.st with pageAnswers := s1.st.pageAnswers } } ∧
      (s1.raise s.st.pc c).st.regs = s.st.regs ∧ (s1.raise s.st.pc c).st.stores = s.st.stores

/-- A scratchpad word whose bytes reach beyond the allocation traps PAGE, kind permission, with the offset (R181). -/
def SpadBeyond (w : Reg → Reg → BitVec 10 → Instr) (n : Nat) : Prop :=
  ∀ s p r a i, Steers (w r a i) p s →
    let so := s.st.reg a + signedImm p i
    so.toNat % n = 0 → s.st.spadSize < so.toNat + n → Raises (w r a i) s .page 2 so

/-- A scratchpad load (R181). -/
def SpadLoads (w : Reg → Reg → BitVec 10 → Instr) (n : Nat) (f : Nat → Word) : Prop :=
  ∀ s p d a i, Steers (w d a i) p s →
    let so := (s.st.reg a + signedImm p i).toNat
    so % n = 0 → so + n ≤ s.st.spadSize → s.locked s.st so n = false →
    exec (w d a i) s = .next (s.did fun t => t.setReg d (f (t.spad.readNat so n)))

/-- A scratchpad store (R181). -/
def SpadStores (w : Reg → Reg → BitVec 10 → Instr) (n : Nat) : Prop :=
  ∀ s p b a i, Steers (w b a i) p s →
    let so := (s.st.reg a + signedImm p i).toNat
    so % n = 0 → so + n ≤ s.st.spadSize → s.locked s.st so n = false →
    exec (w b a i) s = .next (s.did fun t => { t with spad := t.spad.writeNat so n (t.reg b).toNat })

end Sys2Proof.Machine

/-- From R179: the loads. From R179, R66: the stores. -/
def Obligations.LoadsAndStores : Prop :=
  (Loads .ldB 1 (fun x => (BitVec.ofNat 8 x).signExtend 64) ∧ Loads .ldH 2 (fun x => (BitVec.ofNat 16 x).signExtend 64) ∧
  Loads .ldW 4 (fun x => (BitVec.ofNat 32 x).signExtend 64) ∧ Loads .ldD 8 (BitVec.ofNat 64) ∧
  Loads .ldBu 1 (BitVec.ofNat 64) ∧ Loads .ldHu 2 (BitVec.ofNat 64) ∧ Loads .ldWu 4 (BitVec.ofNat 64)) ∧
  (StoresWord .stB 1 ∧ StoresWord .stH 2 ∧ StoresWord .stW 4 ∧ StoresWord .stD 8)

/-- From R181: the scratchpad words, with where they trap. From R180, R195: order 1 of the checks, ALIGN; and, of every load
and store, a translation that fails traps with what the walk reports, with every register and every unpublished store as it
was. -/
def Obligations.ScratchpadAndTraps : Prop :=
  (SpadLoads .ldsW 4 (fun x => (BitVec.ofNat 32 x).signExtend 64) ∧ SpadLoads .ldsD 8 (BitVec.ofNat 64) ∧
  SpadStores .stsW 4 ∧ SpadStores .stsD 8 ∧
  Misaligned .ldsW 4 ∧ Misaligned .ldsD 8 ∧ Misaligned .stsW 4 ∧ Misaligned .stsD 8 ∧
  SpadBeyond .ldsW 4 ∧ SpadBeyond .ldsD 8 ∧ SpadBeyond .stsW 4 ∧ SpadBeyond .stsD 8) ∧
  (Misaligned .ldH 2 ∧ Misaligned .ldW 4 ∧ Misaligned .ldD 8 ∧ Misaligned .ldHu 2 ∧ Misaligned .ldWu 4 ∧
  Misaligned .stH 2 ∧ Misaligned .stW 4 ∧ Misaligned .stD 8 ∧
  TranslationTraps .ldB 1 .read ∧ TranslationTraps .ldH 2 .read ∧ TranslationTraps .ldW 4 .read ∧
  TranslationTraps .ldD 8 .read ∧ TranslationTraps .ldBu 1 .read ∧ TranslationTraps .ldHu 2 .read ∧
  TranslationTraps .ldWu 4 .read ∧ TranslationTraps .stB 1 .write ∧ TranslationTraps .stH 2 .write ∧
  TranslationTraps .stW 4 .write ∧ TranslationTraps .stD 8 .write)

/-! ## Control transfer, traps and CSRs -/

namespace Sys2Proof.Machine

/-- A branch: fetch goes on at the word's address plus 4 × the offset where the condition holds, else at the next unit. -/
def Branches (w : Reg → Reg → BitVec 10 → Instr) (c : Word → Word → Prop) : Prop :=
  ∀ s p a b o, Steers (w a b o) p s →
    let here := s.st.pc + BitVec.ofNat 64 (4 * s.st.pfx.length)
    (c (s.st.reg a) (s.st.reg b) → exec (w a b o) s = .next { s with st := s.st.advance (here + 4 * signedImm p o) }) ∧
    (¬ c (s.st.reg a) (s.st.reg b) → exec (w a b o) s = .next { s with st := s.st.advance (here + 4) })

end Sys2Proof.Machine

/-- R182, whole. -/
def Obligations.Branching : Prop :=
  Branches .beq (· = ·) ∧ Branches .bne (· ≠ ·) ∧ Branches .blt (fun a b => a.toInt < b.toInt) ∧
  Branches .bge (fun a b => b.toInt ≤ a.toInt) ∧ Branches .bltu (fun a b => a.toNat < b.toNat) ∧
  Branches .bgeu (fun a b => b.toNat ≤ a.toNat) ∧
  ∀ (a b : Reg) (o : BitVec 10), let f := a.toNat * 2 ^ 16 + b.toNat * 2 ^ 10 + o.toNat
    IsWord (.beq a b o) 0 0x38 f ∧ IsWord (.bne a b o) 0 0x39 f ∧ IsWord (.blt a b o) 0 0x3A f ∧
    IsWord (.bge a b o) 0 0x3B f ∧ IsWord (.bltu a b o) 0 0x3C f ∧ IsWord (.bgeu a b o) 0 0x3D f

/-- From R199 as its pseudocode goes: EMU entry, the kill of a gang and trap entry, of a trap `c` that engine `e` raises at
the unit `a` with the scalar core's counter at `k`. From R195, R196: a scalar word's trap is taken at once where nothing is
queued; with words queued the strand drains first and nothing else changes. From R201: killing ends the strand and its gang:
no member of it is left, with its queues and unpublished stores, and no word of it waits at a remote unit. Memory and every
other strand stand. -/
def Obligations.ScalarTraps : Prop :=
  (∀ (s : State) (a k : Word) (drain : Bool) (e : Nat) (c : TrapInfo),
    let t := s.st
    let clear : State := { s with st := { t with pend := none, pfx := [], waiting := none, stalled := false } }
    let undef := c.cause = .undef ∧ t.csr.trap = false
    (undef ∧ t.csr.emu = true → s.takeTrap a k drain e c =
      clear.killGang { c with cause := .emu } (tcauseImage true false drain e { c with cause := .emu }) k) ∧
    (undef ∧ t.csr.emu = false ∧ t.csr.emuvec ≠ 0 → s.takeTrap a k drain e c =
      { clear with st := { clear.st with csr := { t.csr with emuepc := textAddr a, emu := true }, pc := t.csr.emuvec } }) ∧
    (¬ (undef ∧ (t.csr.emu = true ∨ t.csr.emuvec ≠ 0)) → t.csr.trap = true ∨ t.csr.tvec = 0 →
      s.takeTrap a k drain e c = clear.killGang c (tcauseImage t.csr.emu t.csr.trap drain e c) k) ∧
    (¬ (undef ∧ (t.csr.emu = true ∨ t.csr.emuvec ≠ 0)) → t.csr.trap = false → t.csr.tvec ≠ 0 →
      let u := (s.takeTrap a k drain e c).st
      s.takeTrap a k drain e c = { s with st := u } ∧
      u.csr = { t.csr with tcause := tcauseImage t.csr.emu false drain e c, tval := c.tval, epcS := textAddr k,
                           epcE := u.csr.epcE, trap := true } ∧
      (∀ i, i < 6 → vget u.csr.epcE i 0 = textAddr (t.engineCounter k (i + 1))) ∧
      u.pc = t.csr.tvec ∧ u.regs = t.regs ∧ u.vec = t.vec ∧ u.mat = t.mat ∧ u.attn = t.attn ∧ u.descs = t.descs ∧
      u.streams = t.streams ∧ u.rings = t.rings ∧ u.bars = t.bars ∧ u.spad = t.spad ∧ u.stores = t.stores ∧
      (∀ i, (u.queue i).map (fun x => (x.seq, x.addr, x.word, x.opX, x.opY, x.opZ, x.extA, x.extB, x.extC)) =
        (t.queue i).map fun x => (x.seq, x.addr, x.word, x.opX, x.opY, x.opZ, x.extA, x.extB, x.extC)) ∧
      ∀ i, 1 ≤ i → i ≤ 6 → (u.engHeld.getLsbD (i - 1) = true ↔ t.queue i ≠ []))) ∧
  (∀ (s : State) (a : Word) (c : TrapInfo),
    ((∀ e, s.st.queue e = []) → s.raise a c = s.takeTrap a a false 0 c) ∧
    ((∃ e, 1 ≤ e ∧ e ≤ 6 ∧ s.st.queue e ≠ [] ∧ s.st.engHeld.getLsbD (e - 1) = false) →
      s.raise a c = { s with st := { s.st with pend := some ⟨a, c, [], [], false⟩ } })) ∧
  (∀ (s : State) (c : TrapInfo) (tc : BitVec 19) (k : Word),
    let u := s.killGang c tc k
    let g := s.st.place.gang
    u.st = { s.st with life := .gone } ∧
    (∀ t, t ∈ u.others ↔ t ∈ s.others ∧ t.place.gang ≠ g) ∧
    (∀ b, b ∈ u.bankWaits ↔ b ∈ s.bankWaits ∧ b.gang ≠ g) ∧
    (∀ b, b ∈ u.versWaits ↔ b ∈ s.versWaits ∧ b.gang ≠ g) ∧
    (∀ b, b ∈ u.fullerWaits ↔ b ∈ s.fullerWaits ∧ b.gang ≠ g) ∧
    (∀ x ∈ u.front.gangs, x.id ≠ g) ∧
    (∀ o ∈ s.front.orders, o.id = s.st.place.order → o.err = none →
      ∃ o' ∈ u.front.orders, ∃ r, o' = { o with err := some r } ∧ r.tcause = tc.toNat ∧ r.tval = c.tval ∧
        r.epc = s.st.counters k ∧ r.member = s.st.place.member) ∧
    u.mem = s.mem ∧ u.parts = s.parts ∧ u.fns = s.fns ∧ u.out = s.out)

/-- From R202: `tret` in a trap handler, in an emulation handler, and outside a handler, where it traps PRIV. A strand that stood
in no hold when it trapped goes on without one; one whose `qjoin` or `.acq` word (R74, R78) the trap broke off is held by it
again, unless that has been reached or performed by now: then it goes on, after the open that the `.acq` word asks for. -/
def Obligations.TrapReturn : Prop :=
  (∀ s p, Steers .tret p s → s.st.csr.trap = true → s.st.broken = .none →
    exec .tret s = .next { s with st := { s.st with
      csr := { s.st.csr with trap := false }, engHeld := 0, pc := s.st.csr.epcS, pfx := [], hold := .none, broken := .none
      steered := s.st.steered + 1, waiting := none, stalled := false } }) ∧
  (∀ s p q, Steers .tret p s → s.st.csr.trap = true → s.st.broken = .join q →
    let t : Strand := { s.st with
      csr := { s.st.csr with trap := false }, engHeld := 0, pc := s.st.csr.epcS, pfx := [], hold := .join q, broken := .none
      steered := s.st.steered + 1, waiting := none, stalled := false }
    ((∃ e x, 1 ≤ e ∧ e ≤ 6 ∧ x ∈ s.st.queue e ∧ x.seq = q) → exec .tret s = .next { s with st := t }) ∧
    ((∀ e x, 1 ≤ e → e ≤ 6 → x ∈ s.st.queue e → x.seq ≠ q) → exec .tret s = .next { s with st := { t with hold := .none } })) ∧
  (∀ s p q sc, Steers .tret p s → s.st.csr.trap = true → s.st.broken = .acquire q sc →
    let t : Strand := { s.st with
      csr := { s.st.csr with trap := false }, engHeld := 0, pc := s.st.csr.epcS, pfx := [], hold := .acquire q sc, broken := .none
      steered := s.st.steered + 1, waiting := none, stalled := false }
    (q ∈ s.st.pending → exec .tret s = .next { s with st := t }) ∧
    (q ∉ s.st.pending → exec .tret s = .next { s with st := { t with hold := .none } }.open)) ∧
  (∀ s p, Steers .tret p s → s.st.csr.trap = false → s.st.csr.emu = true → s.st.hold = .none →
    exec .tret s = .next { s with st := { s.st with
      csr := { s.st.csr with emu := false }, pc := s.st.csr.emuepc, pfx := []
      steered := s.st.steered + 1, waiting := none, stalled := false } }) ∧
  ∀ s p, Steers .tret p s → s.st.csr.trap = false → s.st.csr.emu = false → Raises .tret s .priv 0 0x11000000

/-- From R183: jumps and calls, and the ALIGN trap of a register jump, which leaves sD unchanged. From R184, R185: `end`
stops fetch, or kills a strand in its trap handler with the cause that it holds; `brk` raises BRK with its code, and the
unit's address is what EPC.S is to name. -/
def Obligations.JumpsAndEnds : Prop :=
  ((∀ s p o, Steers (.j o) p s →
    exec (.j o) s = .next { s with st := s.st.advance (s.st.wordAddr + 4 * o.signExtend 64) }) ∧
  (∀ s p o, Steers (.call o) p s →
    exec (.call o) s = .next { s with st := (s.st.setReg 1 (s.st.wordAddr + 4)).advance (s.st.wordAddr + 4 * o.signExtend 64) }) ∧
  (∀ s p a, Steers (.jr a) p s → (s.st.reg a).toNat % 4 = 0 →
    exec (.jr a) s = .next { s with st := s.st.advance (s.st.reg a) }) ∧
  (∀ s p d a i, Steers (.calli d a i) p s → (s.st.reg a).toNat % 4 = 0 →
    exec (.calli d a i) s = .next { s with st := (s.st.setReg d (s.st.wordAddr + 4)).advance (s.st.reg a) }) ∧
  (∀ s p a, Steers (.jr a) p s → (s.st.reg a).toNat % 4 ≠ 0 → Raises (.jr a) s .align 0 (s.st.reg a)) ∧
  ∀ s p d a i, Steers (.calli d a i) p s → (s.st.reg a).toNat % 4 ≠ 0 → Raises (.calli d a i) s .align 0 (s.st.reg a)) ∧
  ((∀ s p, Steers .endStrand p s → s.st.csr.trap = false → s.st.csr.emu = false →
    exec .endStrand s = .next { s with st := { s.st with ended := true, pfx := [], steered := s.st.steered + 1, waiting := none } }) ∧
  (∀ s p, Steers .endStrand p s → s.st.csr.trap = true →
    ∃ c, c.tval = s.st.csr.tval ∧ exec .endStrand s = .next (s.killGang c s.st.csr.tcause s.st.pc)) ∧
  (∀ s p i, Steers (.brk i) p s → Raises (.brk i) s .brk 0 (unsignedImm p i)) ∧
  (∀ s p i, Steers (.brk i) p s → (∀ e, s.st.queue e = []) → s.st.csr.trap = false → s.st.csr.tvec ≠ 0 →
    ∃ u, exec (.brk i) s = .next u ∧ u.st.csr.epcS = textAddr s.st.pc ∧ u.st.csr.trap = true ∧
      u.st.csr.tval = unsignedImm p i ∧ u.st.pc = s.st.csr.tvec ∧ u.st.csr.tcause = 14 + (if s.st.csr.emu then 2 ^ 18 else 0)))

namespace Sys2Proof.Machine

/-- No engine word stands before a CSR word that shares the CSR with engines (R20, R186). -/
def Strand.CsrFree (t : Strand) (c : Nat) : Prop :=
  ∀ e ∈ (match c with | 0x008 => [1, 2, 3, 4, 5, 6] | 0x009 | 0x00A => [1, 2, 3] | 0x00B => [1, 2, 3, 6] | _ => []), t.queue e = []

/-- A CSR word reads the old value to sD and writes what `f` makes of it and of sA, as one step. -/
def ReadsWritesCsr (w : Reg → Reg → BitVec 10 → Instr) (f : Word → Word → Word) : Prop :=
  ∀ s p d a c, Steers (w d a c) p s → s.st.CsrFree c.toNat →
    let old := csrRead s c.toNat
    exec (w d a c) s = .next (s.did fun t =>
      { t with csr := csrWrite t.csr ((s.features t.place.fn).getLsbD 12) c.toNat (f old (t.reg a)) }.setReg d old)

/-- The CSRs with one writable field that holds what is written (R187): number and the bits of the field. -/
def plainCsrs : List (Nat × Nat) :=
  [(0x008, 2 ^ 6 - 1), (0x00A, 2 ^ 64 - 1), (0x00B, 2 ^ 64 - 1), (0x020, 2 ^ 55 - 4), (0x021, 2 ^ 19 - 1 - 2 ^ 15),
   (0x022, 2 ^ 64 - 1), (0x023, 2 ^ 64 - 1), (0x024, 2 ^ 55 - 4), (0x025, 2 ^ 55 - 4), (0x028, 2 ^ 55 - 4),
   (0x030, 2 ^ 32 - 1), (0x032, 2 ^ 32 - 1)]

/-- Read-only CSRs (R187). -/
def readOnlyCsrs : List Nat :=
  [0x000, 0x001, 0x002, 0x003, 0x004, 0x010, 0x029, 0x02A, 0x02B, 0x02C, 0x02D, 0x02E, 0x031]

end Sys2Proof.Machine

/-- From R186: the CSR words. From R187, R8, R9, R23: what a CSR holds after a write: the bits of its field; a read-only CSR
what it held; SLIPW a bound from 1 to 256; FCTL a mode that exists and is not masked. A write changes no other CSR. -/
def Obligations.CsrWords : Prop :=
  ((∀ s p d c, Steers (.csrr d c) p s → s.st.CsrFree c.toNat →
    exec (.csrr d c) s = .next (s.did fun t => t.setReg d (csrRead s c.toNat))) ∧
  ReadsWritesCsr .csrw (fun _ a => a) ∧ ReadsWritesCsr .csrs (fun old a => old ||| a) ∧
  ReadsWritesCsr .csrc (fun old a => old &&& ~~~a)) ∧
  (∀ (s : State) (v : Word) (srnd : Bool),
    let after := fun c : Nat => { s with st := { s.st with csr := csrWrite s.st.csr srnd c v } }
    (∀ x ∈ plainCsrs, csrRead (after x.1) x.1 = v &&& BitVec.ofNat 64 x.2) ∧
    (∀ c ∈ readOnlyCsrs, csrWrite s.st.csr srnd c v = s.st.csr) ∧
    csrRead (after 0x005) 0x005 = BitVec.ofNat 64 (max 1 (min 256 (v.toNat % 512))) ∧
    csrRead (after 0x009) 0x009 = (if v.toNat % 8 < 4 ∨ (v.toNat % 8 = 4 ∧ srnd = true) then v &&& 7 else 0) ∧
    ∀ c d, c ≠ d → csrRead (after c) d = csrRead s d)

namespace Sys2Proof.Machine

/-- `u`, with the word that `s` steers behind it. -/
def State.steered (s u : State) : State := { u with st := u.st.advance s.st.nextAddr }

/-- No unpublished store waits for a translation (R194). -/
def Strand.Translated (t : Strand) : Prop := ∀ x ∈ t.stores, x.scope = none → x.stale = false

end Sys2Proof.Machine

/-- From R32 to R34, R191: binding and the four ring operations, each where it succeeds, errs (RINGOV, nothing changed) and
waits. That `radv.t` and `radv.h` by a count of 0 err is the model's reading of R34, DEDUCED (log 23). From R34: every ring
operation that succeeds keeps HEAD ≤ CLAIMH ≤ TAIL ≤ CLAIMT ≤ HEAD + COUNT, judged by difference, in whatever ring of at most
4,096 slots it holds. From R38, R39, R192: `rdw` takes the next unit, widened by its format, and unbinds the register after
the last; a register that is unbound or the vector engine's traps RINGOV; one whose unit is still to come waits. -/
def Obligations.RingWords : Prop :=
  ((∀ s p a (h : Reg), Steers (.rbind a h) p s → h.toNat < 16 → (∀ e, s.st.queue e = []) →
    let v := s.st.reg a
    let slot := (v >>> 48).toNat
    let count := (v >>> 35).toNat % 2 ^ 13
    let base := (v >>> 6).toNat % 2 ^ 15
    if 1 ≤ slot ∧ slot ≤ 32768 ∧ 1 ≤ count ∧ count ≤ 4096 ∧ base * 64 + count * slot * 64 ≤ s.st.spadSize then
      exec (.rbind a h) s = .next (s.did fun t => t.setRing h.toNat ⟨slot, count, base, 0, 0, 0, 0, []⟩)
    else Raises (.rbind a h) s .ringov 0 (h.setWidth 64)) ∧
  (∀ s p d a h i, Steers (.rwe d a h i) p s →
    let r := s.st.ring h.toNat
    let n := (s.st.reg a + i.setWidth 64).toNat
    if n = 0 ∨ r.count < n then Raises (.rwe d a h i) s .ringov 0 (h.setWidth 64)
    else if n ≤ (r.head + BitVec.ofNat 32 r.count - r.claimT).toNat then
      exec (.rwe d a h i) s = .next (s.did fun t =>
        (t.setRing h.toNat { r with claimT := r.claimT + BitVec.ofNat 32 n }).setReg d (r.claimT.setWidth 64))
    else exec (.rwe d a h i) s = .next (s.holdUnit 2 h.toNat)) ∧
  (∀ s p d a h i, Steers (.rwf d a h i) p s →
    let r := s.st.ring h.toNat
    let n := (s.st.reg a + i.setWidth 64).toNat
    if n = 0 ∨ r.count < n then Raises (.rwf d a h i) s .ringov 0 (h.setWidth 64)
    else if n ≤ (r.tail - r.claimH).toNat ∧ (r.tail - r.claimH).toNat < 2 ^ 31 then
      exec (.rwf d a h i) s = .next (s.did fun t =>
        (t.setRing h.toNat { r with claimH := r.claimH + BitVec.ofNat 32 n }).setReg d (r.claimH.setWidth 64))
    else exec (.rwf d a h i) s = .next (s.holdUnit 1 h.toNat)) ∧
  (∀ s p a h i, Steers (.radvT a h i) p s →
    let r := s.st.ring h.toNat
    let n := (s.st.reg a + i.setWidth 64).toNat
    r.peers = [] →
    if 1 ≤ n ∧ n ≤ r.count ∧ (r.claimT - (r.tail + BitVec.ofNat 32 n)).toNat < 2 ^ 31 then
      exec (.radvT a h i) s = .next (s.did fun t => t.setRing h.toNat { r with tail := r.tail + BitVec.ofNat 32 n })
    else Raises (.radvT a h i) s .ringov 0 (h.setWidth 64)) ∧
  ∀ s p a h i, Steers (.radvH a h i) p s →
    let r := s.st.ring h.toNat
    let n := (s.st.reg a + i.setWidth 64).toNat
    if 1 ≤ n ∧ n ≤ r.count ∧ (r.claimH - (r.head + BitVec.ofNat 32 n)).toNat < 2 ^ 31 then
      exec (.radvH a h i) s = .next (s.did fun t => t.setRing h.toNat { r with head := r.head + BitVec.ofNat 32 n })
    else Raises (.radvH a h i) s .ringov 0 (h.setWidth 64)) ∧
  (let Ordered := fun r : Ring =>
    r.count ≤ 4096 ∧ (r.claimH - r.head).toNat ≤ (r.tail - r.head).toNat ∧
      (r.tail - r.head).toNat ≤ (r.claimT - r.head).toNat ∧ (r.claimT - r.head).toNat ≤ r.count
  ∀ (r u : Ring) (n : Nat), Ordered r →
    (r.reserve n = .done u → Ordered u) ∧ (r.claim n = .done u → Ordered u) ∧
    (r.advanceHead n = .done u → Ordered u) ∧ (r.peers = [] → r.advanceTail n = .done u → Ordered u)) ∧
  (∀ s p d (a : Reg), Steers (.rdw d a) p s → a.toNat < 8 →
    let w := vget s.st.streams a.toNat Stream.unbound
    (w.bound = false ∨ w.vector = true → Raises (.rdw d a) s .ringov 0 (BitVec.ofNat 64 (64 + a.toNat))) ∧
    (w.bound = true → w.vector = false → w.units = [] → w.left ≠ 0 →
      exec (.rdw d a) s = .next (s.holdUnit 4 a.toNat)) ∧
    ∀ e u rest, w.bound = true → w.vector = false → w.units = (e :: u) :: rest →
      let after := if rest = [] ∧ w.left = 0 then Stream.unbound else { w with units := rest }
      exec (.rdw d a) s = .next (s.did fun t => { t with streams := vput t.streams a.toNat after }.setReg d
        (if w.fmt ∈ [1, 7, 8, 9, 10] then e.signExtend 64 else e.setWidth 64)))

namespace Sys2Proof.Machine

/-- A copy of a barrier takes an arrival with `n` bytes (R43). -/
def Barrier.Takes (b : Barrier) (n : Int) : Prop :=
  b.expect ≠ 0 ∧ b.arrived ≠ b.expect ∧ -(2 ^ 31) ≤ b.pending.toInt + n ∧ b.pending.toInt + n < 2 ^ 31

/-- What it then holds (R42, R43). -/
def Barrier.taken (b : Barrier) (n : Int) : Barrier :=
  let c : Barrier := { b with arrived := b.arrived + 1, pending := b.pending + BitVec.ofInt 32 n }
  if c.arrived = c.expect ∧ c.pending = 0 then { c with arrived := 0, gen := c.gen + 1 } else c

/-- From `s` to `u`, copy `g` of every member of the current strand's gang that `mask` names, and that accepts, is changed by
`f`; nothing else is. -/
def State.Broadcasts (s u : State) (g : Nat) (mask : BitVec 16) (accepts : Barrier → Prop) (f : Barrier → Barrier) : Prop :=
  let one := fun x y : Strand =>
    (x.place.gang = s.st.place.gang ∧ mask.getLsbD x.place.member = true ∧ accepts (x.bar g) → y = x.setBar g (f (x.bar g))) ∧
    (¬ (x.place.gang = s.st.place.gang ∧ mask.getLsbD x.place.member = true ∧ accepts (x.bar g)) → y = x)
  u = { s with st := u.st, others := u.others } ∧ one s.st u.st ∧ List.Forall₂ one s.others u.others

/-- Every copy that `mask` names accepts. -/
def State.AllAccept (s : State) (g : Nat) (mask : BitVec 16) (accepts : Barrier → Prop) : Prop :=
  ∀ t ∈ s.st :: s.others, t.place.gang = s.st.place.gang → mask.getLsbD t.place.member = true → accepts (t.bar g)

end Sys2Proof.Machine

/-- From R78, R189: with every queue that it names empty a `qjoin` is reached at once; where one holds words, its entry
stands behind them, and with bit 0 the scalar core is held. From R41 to R43, R193: the barrier words of a strand that is its
gang's only member, and those that reach every copy of a larger gang: each copy accepts or refuses on its own, and one
refusal traps BAROV. -/
def Obligations.JoinsAndBarriers : Prop :=
  ((∀ s p m, Runs (.qjoin m) p s → exec (.qjoin m) s = .next (s.did id)) ∧
  ∀ s p (m : BitVec 8) (e : Nat) (x : Entry) (l : List Entry), Steers (.qjoin m) p s → 1 ≤ e → e ≤ 6 → m.getLsbD e = true →
    s.st.queue e = x :: l → x.isJoin = false → (∀ k, (s.st.queue k).length < queueDepth k) →
    (∀ k y, k ≠ e → y ∈ s.st.queue k → y.isJoin = false) → (∀ y ∈ l, y.isJoin = false) →
    (∀ k y, y ∈ s.st.queue k → y.seq < s.st.steered) → s.st.hold = .none →
    ∃ u, exec (.qjoin m) s = .next { s with st := u } ∧
      (∃ y, u.queue e = x :: (l ++ [y]) ∧ y.word = .qjoin m ∧ y.seq = s.st.steered) ∧
      u.pc = s.st.nextAddr ∧ u.regs = s.st.regs ∧
      (u.hold = if m.getLsbD 0 then .join s.st.steered else .none)) ∧
  ((∀ s p (g : Reg) a b, Steers (.barInit g a b) p s → g.toNat < 16 →
    1 ≤ (s.st.reg a).toNat → (s.st.reg a).toNat ≤ 65535 → s.st.reg b ≠ 0 → (s.st.reg b).toNat < 2 ^ s.st.place.size →
    s.st.place.size ≤ 16 →
    let mask : BitVec 16 := (s.st.reg b).setWidth 16
    let idle := fun c : Barrier => c.arrived = 0 ∧ c.pending = 0
    ∃ u, s.Broadcasts u g.toNat mask idle (fun c => { c with expect := (s.st.reg a).setWidth 16, mask := mask }) ∧
      (s.AllAccept g.toNat mask idle → exec (.barInit g a b) s = .next (s.steered u)) ∧
      (¬ s.AllAccept g.toNat mask idle → exec (.barInit g a b) s = .next (u.raise s.st.pc ⟨.barov, 0, g.setWidth 64⟩))) ∧
  (∀ s p d a (h : Reg) i, Steers (.barArr d a h i) p s → h.toNat < 16 →
    let b := s.st.bar h.toNat
    let n := (s.st.reg a + i.setWidth 64).toInt
    n < 2 ^ 31 → -(2 ^ 31) ≤ n → b.expect ≠ 0 →
    let r : State := { s with st := s.st.setBar h.toNat { b with recorded := some b.gen } }
    ∃ s1 u, (b.Takes n → s1 = r) ∧ (¬ b.Takes n → s1 = s) ∧ s1.Broadcasts u h.toNat b.mask (·.Takes n) (·.taken n) ∧
      (s.AllAccept h.toNat b.mask (·.Takes n) →
        exec (.barArr d a h i) s = .next { u with st := (u.st.setReg d (b.gen.setWidth 64)).advance s.st.nextAddr }) ∧
      (¬ s.AllAccept h.toNat b.mask (·.Takes n) →
        exec (.barArr d a h i) s = .next (u.raise s.st.pc ⟨.barov, 0, h.setWidth 64⟩))) ∧
  (∀ s p (g : Reg) a b, Steers (.barInit g a b) p s → g.toNat < 16 → s.others = [] → s.st.place.member = 0 →
    s.st.place.size = 1 →
    if s.st.reg a = 0 ∨ 65535 < (s.st.reg a).toNat ∨ s.st.reg b ≠ 1 ∨ (s.st.bar g.toNat).arrived ≠ 0 ∨
        (s.st.bar g.toNat).pending ≠ 0 then Raises (.barInit g a b) s .barov 0 (g.setWidth 64)
    else exec (.barInit g a b) s = .next (s.did fun t => t.setBar g.toNat
      { t.bar g.toNat with expect := (t.reg a).setWidth 16, mask := 1, arrived := 0, pending := 0 })) ∧
  (∀ s p d a (h : Reg) i, Steers (.barArr d a h i) p s → h.toNat < 16 → s.others = [] → s.st.place.member = 0 →
    let b := s.st.bar h.toNat
    let n := (s.st.reg a + i.setWidth 64).toInt
    b.mask = 1 →
    if n < -(2 ^ 31) ∨ 2 ^ 31 ≤ n ∨ b.expect = 0 ∨ b.arrived = b.expect ∨ b.pending.toInt + n < -(2 ^ 31) ∨
        2 ^ 31 ≤ b.pending.toInt + n then Raises (.barArr d a h i) s .barov 0 (h.setWidth 64)
    else
      let c : Barrier := { b with arrived := b.arrived + 1, pending := b.pending + BitVec.ofInt 32 n, recorded := some b.gen }
      exec (.barArr d a h i) s = .next (s.did fun t => (t.setBar h.toNat
        (if c.arrived = c.expect ∧ c.pending = 0 then { c with arrived := 0, gen := c.gen + 1 } else c)).setReg d
          (b.gen.setWidth 64))) ∧
  (∀ s p a (h : Reg) i, Steers (.barExp a h i) p s → h.toNat < 16 →
    let b := s.st.bar h.toNat
    let n := (s.st.reg a + i.setWidth 64).toInt
    if n < -(2 ^ 31) ∨ 2 ^ 31 ≤ n ∨ b.expect = 0 ∨ b.pending.toInt + n < -(2 ^ 31) ∨ 2 ^ 31 ≤ b.pending.toInt + n then
      Raises (.barExp a h i) s .barov 0 (h.setWidth 64)
    else
      let c : Barrier := { b with pending := b.pending + BitVec.ofInt 32 n }
      exec (.barExp a h i) s = .next (s.did fun t => t.setBar h.toNat
        (if c.arrived = c.expect ∧ c.pending = 0 then { c with arrived := 0, gen := c.gen + 1 } else c))) ∧
  ∀ s p d h i, Steers (.barWait d h i) p s →
    let b := s.st.bar h.toNat
    if i = 0 ∧ b.recorded = some b.gen then exec (.barWait d h i) s = .next (s.holdUnit 3 h.toNat)
    else exec (.barWait d h i) s = .next (s.did fun t => t.setReg d (b.gen.setWidth 64)))

/-! ## Translation maintenance, the seal engine, prefixes -/

namespace Sys2Proof.Machine

/-- The current strand may name a context slot, as R174 words it. -/
def State.MayName (s : State) (slot : Nat) : Prop :=
  if s.st.place.fn = 0 then
    (s.ctx slot).v = false ∨ 64 < (s.ctx slot).fn ∨ (s.fn (s.ctx slot).fn).part = s.st.place.part
  else (s.ctx slot).v = true ∧ (s.ctx slot).fn = s.st.place.fn

/-- A region after the translations at the slots and addresses of `h` are dropped: the pages of its overflow area that they gave
are to be translated again, and the versions in the slots there, read at the old frames, are back in the pool. -/
def VRegion.Recalled (mem : Mem) (h : Nat → Nat → Prop) (x y : VRegion) : Prop :=
  let off := fun page => h x.ctx ((x.ovf + 65536 * page) % 2 ^ 64)
  y = { x with ovfFrames := y.ovfFrames, vers := y.vers } ∧ y.ovfFrames.length = x.ovfFrames.length ∧
  (∀ (i : Nat) (f : VFrame), x.ovfFrames[i]? = some f →
    (off i → y.ovfFrames[i]? = some { f with fresh := false }) ∧ (¬ off i → y.ovfFrames[i]? = some f)) ∧
  List.Forall₂ (fun v w : Version => ∀ i, v.slot = some i →
    (off ((x.tableBytes + 128 * i) / 65536) → w = { v with data := BitVec.ofNat 512 (mem.readNat (x.slotPa i) 64), slot := none }) ∧
    (¬ off ((x.tableBytes + 128 * i) / 65536) → w = v)) x.vers y.vers ∧
  List.Forall₂ (fun v w : Version => v.slot = none → w = v) x.vers y.vers

/-- From `s` to `t` the translation caches of every tile have lost what `f` and `g` name; what has been translated at the slots
and addresses of `h` and is not accessed yet translates again: unpublished stores, words that wait on a memory value, overflow
areas and the headers of open windows. Nothing else has changed. -/
def State.Dropped (s t : State) (f : Tlb → Prop) (g : WalkCached → Prop) (h : Nat → Nat → Prop) : Prop :=
  let stale := fun (x y : PlainStore) => y = { x with stale := y.stale } ∧
    (y.stale = true ↔ x.stale = true ∨ (x.scope = none ∧ h x.slot x.va))
  let again := fun (u v : Strand) => v = { u with stores := v.stores } ∧ List.Forall₂ stale u.stores v.stores
  let lost := fun (x y : Nat × TileCache) => y = (x.1, { x.2 with tlbs := y.2.tlbs, walks := y.2.walks }) ∧
    (∀ e, e ∈ y.2.tlbs ↔ e ∈ x.2.tlbs ∧ ¬ f e) ∧ (∀ w, w ∈ y.2.walks ↔ w ∈ x.2.walks ∧ ¬ g w)
  t = { s with st := t.st, others := t.others, tiles := t.tiles, bankWaits := t.bankWaits, regions := t.regions, windows := t.windows } ∧
    List.Forall₂ lost s.tiles t.tiles ∧ again s.st t.st ∧ List.Forall₂ again s.others t.others ∧
    List.Forall₂ (VRegion.Recalled s.mem h) s.regions t.regions ∧
    List.Forall₂ (fun x y : OpenWindow => y = { x with stale := y.stale } ∧ (y.stale = true ↔ x.stale = true ∨ h x.slot x.va))
      s.windows t.windows ∧
    ∀ b, b ∈ t.bankWaits ↔ b ∈ s.bankWaits ∧ (b.hit = true ∨ ¬ h b.slot b.va)

end Sys2Proof.Machine

/-- From R60, R66, R67, R73, R188, R190: the phase words and `ifence`. A close leaves no unpublished store but, below `.sys`,
those to the host window; it changes memory alone beside the store buffer and the tile's L1, and waits for no engine. After
an open the L1 holds no line for the strand, and after `ifence` the instruction cache no word; no other tile loses anything.
From R174, R194: the invalidation words, and `xlat`, which changes nothing but sD; a slot that the strand may not name traps
PRIV. That what is translated and not accessed yet translates again is DEDUCED (log 37). -/
def Obligations.PhaseWords : Prop :=
  ((∀ s p sc, Steers (.phOpen sc) p s → exec (.phOpen sc) s = .next (s.steered s.open)) ∧
  (∀ s p sc, Steers (.phClose sc) p s → s.st.Translated →
    exec (.phClose sc) s = .next (s.steered (s.close sc.toNat))) ∧
  (∀ s p sc, Steers (.ph sc) p s → s.st.Translated →
    exec (.ph sc) s = .next (s.steered (s.close sc.toNat).open)) ∧
  (∀ s p sc, Steers (.fenceSc sc) p s → s.st.Translated →
    exec (.fenceSc sc) s = .next (s.steered (s.close sc.toNat).open)) ∧
  (∀ s p, Steers .ifence p s → ∃ u, exec .ifence s = .next (s.steered u) ∧ u = { s with tiles := u.tiles } ∧
    (∀ pa, u.codeHit pa = none) ∧ (∀ line, u.l1Hit line = s.l1Hit line) ∧
    ∀ k, k ≠ s.st.place.tileKey → u.tileAt k = s.tileAt k) ∧
  (∀ s : State, s.open = { s with tiles := s.open.tiles, st := { s.st with stores := s.open.st.stores } } ∧
    (∀ line, s.open.l1Hit line = none) ∧ (∀ pa, s.open.codeHit pa = s.codeHit pa) ∧
    (∀ k, k ≠ s.st.place.tileKey → s.open.tileAt k = s.tileAt k) ∧ (∀ x ∈ s.open.st.stores, x.current = false) ∧
    ∀ x ∈ s.st.stores, x.scope ≠ some 4 → { x with current := false } ∈ s.open.st.stores) ∧
  ∀ (s : State) (n : Nat),
    let u := s.close n
    State.OnlyMemory { s with st := u.st, tiles := u.tiles } u ∧
    u.st = { s.st with stores := u.st.stores } ∧
    (∀ x ∈ u.st.stores, x.scope = none → hostBase ≤ x.pa ∧ n < 4) ∧
    (4 ≤ n → ∀ x ∈ u.st.stores, ∃ c, x.scope = some c ∧ 4 ≤ c) ∧
    (∀ x ∈ u.st.stores, x.scope = some 4 → x.current = true) ∧ (s.st.stores = [] → u = s)) ∧
  ((∀ s p a b, Steers (.tlbiVa a b) p s →
    let slot := (s.st.reg b).toNat % 4096
    let va := (s.st.reg a).toNat
    (s.MayName slot → ∃ t, exec (.tlbiVa a b) s = .next { t with st := t.st.advance s.st.nextAddr } ∧
      s.Dropped t (fun e => e.slot = slot ∧ e.va / e.span = va / e.span) (fun w => w.slot = slot)
        fun c a => c = slot ∧ a / 2 ^ 29 = va / 2 ^ 29) ∧
    (¬ s.MayName slot → Raises (.tlbiVa a b) s .priv 0 (BitVec.ofNat 64 slot))) ∧
  (∀ s p a, Steers (.tlbiCtx a) p s →
    let slot := (s.st.reg a).toNat % 4096
    (s.MayName slot → ∃ t, exec (.tlbiCtx a) s = .next { t with st := t.st.advance s.st.nextAddr } ∧
      s.Dropped t (fun e => e.slot = slot) (fun w => w.slot = slot) fun c _ => c = slot) ∧
    (¬ s.MayName slot → Raises (.tlbiCtx a) s .priv 0 (BitVec.ofNat 64 slot))) ∧
  (∀ s p, Steers .tlbiAll p s → ∃ t, exec .tlbiAll s = .next { t with st := t.st.advance s.st.nextAddr } ∧
    s.Dropped t (fun e => s.MayName e.slot) (fun w => s.MayName w.slot) fun c _ => s.MayName c) ∧
  ∀ s p d a b, Steers (.xlat d a b) p s →
    let slot := (s.st.reg b).toNat % 4096
    let va := (s.st.reg a).toNat
    (¬ s.MayName slot → Raises (.xlat d a b) s .priv 0 (BitVec.ofNat 64 slot)) ∧
    (s.MayName slot → exec (.xlat d a b) s = .next (s.did fun t => t.setReg d (s.xlatResult slot va))) ∧
    (2 ^ 55 ≤ va ∨ (s.ctx slot).v = false → s.xlatResult slot va = 9#64 <<< 60) ∧
    (∀ w, va < 2 ^ 55 → (s.ctx slot).v = true → (s.ctx slot).fn = 0 → s.worldOk (s.ctx slot) = true →
      s.walkPhys (s.walksFor 0) slot 0 va [1, 2, 3] ((s.ctx slot).root * 65536) [] = .ok w → badFormat (bits w.leaf 53 7) = false →
      s.xlatResult slot va = BitVec.ofNat 64 (w.addr % 2 ^ 52)))

/-! ## The translation walk -/

namespace Sys2Proof.Machine

/-- Where an entry leads (R271): bits 51 to 16, as an address. -/
def entryFrame (e : Nat) : Nat := e / 2 ^ 16 % 2 ^ 36 * 65536

/-- The entry of the table at `tbl` that an address selects at a level (R271, R276): by its bits 54:42, 41:29 or 28:16. -/
def entryOf (lvl tbl a : Nat) : Nat := tbl + 8 * (a / 2 ^ (55 - 13 * lvl) % 2 ^ 13)

/-- Bytes that a leaf of a level maps (R272). -/
def leafSize (lvl : Nat) : Nat := if lvl = 2 then 2 ^ 29 else 2 ^ 16

/-- An entry is not present at a level (R272). -/
def State.Absent (s : State) (e lvl : Nat) : Prop :=
  e.testBit 0 = false ∨ (e.testBit 1 = true ∧ lvl = 1) ∨ (e.testBit 1 = false ∧ lvl = 3) ∨
    (e.testBit 1 = true ∧ lvl = 2 ∧ entryFrame e % 2 ^ 29 ≠ 0) ∨
    (e.testBit 1 = true ∧ (e.testBit 5 = true ∧ e.testBit 4 = false ∨ e / 2 ^ 62 % 4 = 3)) ∨ s.inWindow (entryFrame e) = false

/-- A walk of one stage (R276) with the root table `root` comes to `r`: `entry` gives the entry of a level and a table, or how its
read fails; `absent` is what an entry that is not present comes to, and `leaf` what a leaf of a level does. -/
def State.WalkIs (s : State) {α : Type} (entry : Nat → Nat → Except XFail Nat) (root : Nat) (r : Except XFail α) (absent : XFail)
    (leaf : Nat → Nat → Prop) : Prop :=
  let read := fun (lvl tbl : Nat) (next : Nat → Prop) =>
    (∀ f, entry lvl tbl = .error f → r = .error f) ∧
    ∀ e, entry lvl tbl = .ok e → (s.Absent e lvl → r = .error absent) ∧ (¬ s.Absent e lvl → next e)
  read 1 root fun e1 => read 2 (entryFrame e1) fun e2 =>
    (e2.testBit 1 = true → leaf e2 2) ∧ (e2.testBit 1 = false → read 3 (entryFrame e2) fun e3 => leaf e3 3)

/-- A first-stage entry of a two-stage context: the second stage maps the table, and the seal of the frame it lies in agrees
(R275, R276). -/
def State.firstEntry (s : State) (c : Ctx) (va lvl tbl : Nat) : Except XFail Nat :=
  match s.walkSecond [] c (entryOf lvl tbl va) lvl .table with
  | .error f => .error f
  | .ok w => if s.sealOk (w.leaf / 2 ^ 62 % 4) w.addr c.world = true then .ok (s.peekNat .device w.addr 8) else .error .sealing

/-- What the leaf `e` of a one-stage walk gives an access (R272, R273, R275, R276). -/
def State.OneStageLeaf (s : State) (c : Ctx) (va : Nat) (acc : AccessKind) (e lvl : Nat) : Prop :=
  let r := s.translate [] c va acc
  let pa := entryFrame e + va % leafSize lvl
  if badFormat (e / 2 ^ 53 % 2 ^ 7) = true then r = .error (.fault 3)
  else if permits e false acc = false then r = .error (.fault 2)
  else if s.inWindow pa = false then r = .error (.fault 1)
  else ∃ x, r = .ok x ∧ x.pa = pa ∧ x.two = false ∧ x.size = leafSize lvl ∧ x.agrees = s.sealOk (e / 2 ^ 62 % 4) pa c.world

/-- What the first-stage leaf `e` of a two-stage walk gives an access (R272 to R276). -/
def State.TwoStageLeaf (s : State) (c : Ctx) (va : Nat) (acc : AccessKind) (e lvl : Nat) : Prop :=
  let r := s.translate [] c va acc
  let ipa := entryFrame e + va % leafSize lvl
  if badFormat (e / 2 ^ 53 % 2 ^ 7) = true then r = .error (.fault 3)
  else if permits e false acc = false then r = .error (.fault 2)
  else
    (∀ f, s.walkSecond [] c ipa 0 acc = .error f → r = .error f) ∧
    ∀ w, s.walkSecond [] c ipa 0 acc = .ok w →
      if s.inWindow w.addr = false then r = .error (.fault 1)
      else ∃ x, r = .ok x ∧ x.pa = w.addr ∧ x.ipa = ipa ∧ x.two = true ∧ x.size = min (leafSize lvl) w.size ∧
        x.agrees = (s.sealOk (w.leaf / 2 ^ 62 % 4) w.addr c.world && s.sealOk (e / 2 ^ 62 % 4) w.addr c.world)

end Sys2Proof.Machine

/-- From R271 to R276, R278, R285: what a leaf permits; the walk of one stage and of two, read from the tables in memory; what an access
comes to that no cache holds: a trap, a page request and a wait, or an address; and the A and D bits that it sets. -/
def Obligations.TranslationWalk : Prop :=
  (∀ e, (permits e false .read = true ↔ e.testBit 4 = true ∧ e.testBit 61 = false) ∧
    (∀ acc ∈ [AccessKind.write, .bank], permits e false acc = true ↔
      e.testBit 4 = true ∧ e.testBit 5 = true ∧ e.testBit 60 = false ∧ e.testBit 61 = false) ∧
    (permits e false .vload = true ↔ e.testBit 4 = true ∧ e.testBit 61 = true) ∧
    (permits e false .vstore = true ↔ e.testBit 4 = true ∧ e.testBit 5 = true ∧ e.testBit 60 = false ∧ e.testBit 61 = true) ∧
    (∀ two, permits e two .fetch = e.testBit 6) ∧
    (∀ acc ∈ [AccessKind.read, .vload, .table], permits e true acc = e.testBit 4) ∧
    ∀ acc ∈ [AccessKind.write, .bank, .vstore, .update], permits e true acc = (e.testBit 4 && e.testBit 5)) ∧
  (∀ (s : State) (c : Ctx) (va : Nat) (acc : AccessKind),
    2 ^ 55 ≤ va ∨ c.v = false ∨ 64 < c.fn ∨ s.fnEnabled c.fn = false ∨ s.worldOk c = false →
    s.translate [] c va acc = .error (.fault 1)) ∧
  (∀ (s : State) (c : Ctx) (va : Nat) (acc : AccessKind),
    va < 2 ^ 55 → c.v = true → c.fn ≤ 64 → s.fnEnabled c.fn = true → s.worldOk c = true →
    (s.twoStage c = false → s.WalkIs (fun lvl tbl => .ok (s.peekNat .device (entryOf lvl tbl va) 8)) (c.root * 65536)
      (s.translate [] c va acc) (.fault 1) (s.OneStageLeaf c va acc)) ∧
    (s.twoStage c = true → s.WalkIs (s.firstEntry c va) (c.root * 65536)
      (s.translate [] c va acc) (.fault 1) (s.TwoStageLeaf c va acc))) ∧
  (∀ (s : State) (c : Ctx) (ipa lvl : Nat) (acc : AccessKind), ipa < 2 ^ 52 →
    s.WalkIs (fun k tbl => .ok (s.peekNat .device (entryOf k tbl ipa) 8)) ((s.fn c.fn).trans.s2root * 65536)
      (s.walkSecond [] c ipa lvl acc) (.second ipa lvl 1 acc.code) fun e k =>
        if permits e true acc = false then s.walkSecond [] c ipa lvl acc = .error (.second ipa lvl 2 acc.code)
        else ∃ w, s.walkSecond [] c ipa lvl acc = .ok w ∧ w.leaf = e ∧ w.addr = entryFrame e + ipa % leafSize k ∧ w.size = leafSize k) ∧
  (∀ (s : State) (eng slot va : Nat) (acc : AccessKind), eng ≤ 6 →
    (∀ a ∈ s.st.pageAnswers, ¬ (a.eng = eng ∧ a.va = va)) → (∀ w ∈ s.st.pageWaits, ¬ (w.eng = eng ∧ w.va = va)) →
    (∀ t ∈ s.here.tlbs, t.hits eng slot va = false) → s.here.walks = [] →
    let c := s.ctx slot
    let r := s.translate [] c va acc
    let tval := BitVec.ofNat 64 va
    (∀ k, r = .error (.fault k) → mapAccess eng slot va acc s = .error (.trap ⟨.page, k, tval⟩) s) ∧
    (r = .error .sealing → mapAccess eng slot va acc s = .error (.trap ⟨.sealing, 0, tval⟩) s) ∧
    (∀ ipa lvl k a, r = .error (.second ipa lvl k a) →
      let u := s.postPageReq c.fn eng slot va ipa lvl k a
      mapAccess eng slot va acc s = .error (.wait 7 0)
        { u with st := { u.st with pageWaits := u.st.pageWaits ++ [⟨eng, va, c.fn, ipa / 65536⟩] } }) ∧
    ∀ x, r = .ok x →
      (acc.writes = true → s.weightFrame x.pa = true → mapAccess eng slot va acc s = .error (.trap ⟨.page, 2, tval⟩) s) ∧
      (¬ (acc.writes = true ∧ s.weightFrame x.pa = true) →
        (x.agrees = false → mapAccess eng slot va acc s = .error (.trap ⟨.sealing, 0, tval⟩) s) ∧
        (x.agrees = true → x.two = false → ∃ m tiles, m.pa = x.pa ∧
          mapAccess eng slot va acc s = .ok m { s.markUsed x acc.writes with tiles := tiles }))) ∧
  ∀ (s : State) (x : Xlat) (w : Bool), s.Wf →
    (∀ v ∈ x.visited, v.pa % 8 = 0 ∧
      (v.pa < dramEnd → s.poison.contains (v.pa / 64) = false ∧ (s.frameAt v.pa).sealMode ≠ 2)) →
    let u := s.markUsed x w
    (∀ v ∈ x.visited, (u.mem.readNat v.pa 8).testBit 8 = true) ∧
    (w = true → ∀ l ∈ x.visited, l.leaf = true → l.stage ≠ 2 → (∀ v ∈ x.visited, v.leaf = true → v.stage ≠ 2 → v = l) →
      (u.mem.readNat l.pa 8).testBit 9 = true ∧
      (x.two = true → ∀ v, x.visited.getLast? = some v → (u.mem.readNat v.pa 8).testBit 9 = true)) ∧
    (∀ v ∈ x.visited, ∀ i, i ≠ 8 → (w = true → i ≠ 9) → (u.mem.readNat v.pa 8).testBit i = (s.mem.readNat v.pa 8).testBit i) ∧
    ∀ a, (∀ v ∈ x.visited, a < v.pa ∨ v.pa + 8 ≤ a) → u.mem.read a = s.mem.read a

/-- From R66, R65, R4: a close at `.sys` with one unpublished store performs it at its home: the bytes stored read there as
they were stored, by every reader, and every other byte reads as before. From R77, R62, R65: a write of an engine puts its
bytes at their home, published at `.sys`, and drops the lines that it covers from the L1 of the writing tile; every other
byte reads as before, and nothing else changes. That every other tile's L1 keeps its lines is the model's reading, DEDUCED
(log 21). -/
def Obligations.StoresPublished : Prop :=
  (∀ (s : State) (x : PlainStore) (w : Who), s.Wf → s.st.stores = [x] → x.scope = none → x.track = none →
    s.Stores x.pa x.data.length →
    let u := s.close 4
    (∀ i, i < x.data.length → u.peek w (x.pa + i) = x.data.getD i 0) ∧
    (∀ a, a < x.pa ∨ x.pa + x.data.length ≤ a → u.peek w a = s.peek w a) ∧ ∀ y ∈ u.st.stores, y.scope = some 4) ∧
  (∀ (s : State) (pa : Nat) (bs : List Byte) (w : Who), s.Wf → s.Stores pa bs.length →
    let u := s.engineWrite pa bs
    (∀ i, i < bs.length → u.peek w (pa + i) = bs.getD i 0 ∧ u.mem.read (pa + i) = bs.getD i 0) ∧
    (∀ a, a < pa ∨ pa + bs.length ≤ a → u.peek w a = s.peek w a ∧ u.mem.read a = s.mem.read a) ∧
    State.OnlyMemory { s with st := u.st, tiles := u.tiles } u ∧
    u.st = { s.st with stores := s.st.stores.map fun x =>
      if x.scope.isSome ∧ x.pa < pa + bs.length ∧ pa < x.pa + x.data.length then { x with current := false } else x } ∧
    u.here = { s.here with l1 := u.here.l1 } ∧
    (∀ l, l ∈ u.here.l1 ↔ l ∈ s.here.l1 ∧ ¬ (pa / 64 ≤ l.line ∧ l.line * 64 < pa + bs.length)) ∧
    ∀ k, k ≠ s.st.place.tileKey → u.tileAt k = s.tileAt k)

namespace Sys2Proof.Machine

/-- The 64 bytes of a line that a word of the seal engine reads at an address, which is mapped at `pa` (R502). -/
def State.lineBytes (s : State) (va pa : Nat) : List Byte := s.st.overlayOwn s.st.place.slot va pa (s.loadBytes pa 64)

end Sys2Proof.Machine

/-- From R500, R503: a world is created, with fresh keys and with its count returned, and killed, its keys with it, once
nothing names it; a live world is not created again, a dead one not killed, and a world in use stands, each with PAGE, kind
permission. What the keys are is free. From R512, R513: an extend sets MR[r] to the digest of its old value with the 64 bytes
at sA, clears LOST and returns MGEN; a read stores MR[r] at sA and returns MGEN. From R511, R514: `sl.rep` forms the record
of its table, bytes 0 to 767, signs it with the next leaf, which it uses up, and returns 0; with no leaf left it writes a
zero signature and returns 1. -/
def Obligations.SealWords : Prop :=
  ((∀ s p d a b, Steers (.slKeyNew d a b) p s → 1 ≤ (s.st.reg a).toNat → (s.st.reg a).toNat < 64 → (s.st.reg b).toNat ≤ 64 →
    let w := (s.st.reg a).toNat
    let n := (s.st.reg b).toNat
    let e := s.sealEng.world w
    s.st.place.fn = 0 ∨ s.st.place.fn = n ∧ (e.live = true → e.fn = n) →
    if e.live = true then Raises (.slKeyNew d a b) s .page 2 (s.st.reg a)
    else exec (.slKeyNew d a b) s =
      .next (({ s with freeCount := s.freeCount + 1 }.setWorld w (World.drawn n (e.created + 1) s.freeCount)).did fun t =>
        t.setReg d (BitVec.ofNat 64 (e.created + 1)))) ∧
  ∀ s p d a, Steers (.slKeyKill d a) p s → 1 ≤ (s.st.reg a).toNat → (s.st.reg a).toNat < 64 → s.st.place.fn ≤ 64 →
    let w := (s.st.reg a).toNat
    let e := s.sealEng.world w
    s.st.place.fn = 0 ∨ (e.live = true → e.fn = s.st.place.fn) →
    if e.live = false ∨ s.worldInUse w = true then Raises (.slKeyKill d a) s .page 2 (s.st.reg a)
    else exec (.slKeyKill d a) s =
      .next ((s.setWorld w { e with live := false, fn := 0, xts1 := 0, xts2 := 0, mac := 0 }).did fun t => t.setReg d 0)) ∧
  ((∀ s s1 p d a b r n m, Steers (.slMeas d a b) p s → 1 ≤ r → r ≤ 7 → n ≤ 64 → (s.st.reg b).toNat = n * 256 + r →
    s.st.place.fn = 0 ∨ s.st.place.fn = n → (s.st.reg a).toNat % 64 = 0 →
    mapAccess 0 s.st.place.slot (s.st.reg a).toNat .read s = .ok m s1 → s.Sound m.pa →
    let f := s1.fn n
    let x := digest512 (bytesOfNat 64 (f.measure r).toNat ++ s1.lineBytes (s.st.reg a).toNat m.pa)
    let u := (s1.loaded m.pa).setFn n { f with mr := vput f.mr r x, lost := false }
    exec (.slMeas d a b) s = .next { u with st := (u.st.setReg d (f.mgen.setWidth 64)).advance s.st.nextAddr }) ∧
  ∀ s s1 p d a b r n m, Steers (.slMeasRd d a b) p s → r ≤ 7 → n ≤ 64 → (s.st.reg b).toNat = n * 256 + r →
    s.st.place.fn = 0 ∨ s.st.place.fn = n → (s.st.reg a).toNat % 64 = 0 →
    mapAccess 0 s.st.place.slot (s.st.reg a).toNat .write s = .ok m s1 → m.two = false → s1.st.stores = [] →
    let f := s1.fn n
    let u := s1.engineWrite m.pa (bytesOfNat 64 (f.measure r).toNat)
    exec (.slMeasRd d a b) s = .next { u with st := (u.st.setReg d (f.mgen.setWidth 64)).advance s.st.nextAddr }) ∧
  ((∀ s s1 s2 p d a b m m2, Steers (.slRep d a b) p s → (s.st.reg b).toNat % 64 = 0 → (s.st.reg a).toNat % 4096 = 0 →
    mapAccess 0 s.st.place.slot (s.st.reg b).toNat .read s = .ok m s1 → s.Sound m.pa →
    let bs := s1.lineBytes (s.st.reg b).toNat m.pa
    let n := (bs.getD 32 0).toNat
    n ≤ 64 → (∀ x ∈ bs.drop 33, x = 0) → s.st.place.fn = 0 ∨ s.st.place.fn = n →
    mapAccess 0 s.st.place.slot (s.st.reg a).toNat .write (s1.loaded m.pa) = .ok m2 s2 → m2.two = false → s2.st.stores = [] →
    let body := s2.evidence n bs
    if s2.sealEng.leaf < 2 ^ 20 then
      let v := { s2 with sealEng := { s2.sealEng with leaf := s2.sealEng.leaf + 1 } }
      let u := v.engineWrite m2.pa
        (body ++ genFrom 2820 0 (Config.sigByte s2.sealEng.leaf body) ++ List.replicate 508 0)
      exec (.slRep d a b) s = .next { u with st := (u.st.setReg d 0).advance s.st.nextAddr }
    else
      let u := s2.engineWrite m2.pa (body ++ List.replicate 2820 0 ++ List.replicate 508 0)
      exec (.slRep d a b) s = .next { u with st := (u.st.setReg d 1).advance s.st.nextAddr }) ∧
  ∀ (s : State) (n : Nat) (nonce : List Byte), n ≤ 64 → 32 ≤ nonce.length →
    let x := s.evidence n nonce
    let f := s.fn n
    let at' := fun off k => natOfBytes ((x.drop off).take k)
    x.length = 768 ∧ at' 0 4 = 0x45564944 ∧ at' 4 2 = 1 ∧ at' 6 2 = n ∧
    at' 8 8 = (if s.sealEng.leaf < 2 ^ 20 then 0 else 8) + (if f.lost then 4 else 0) +
      (if f.part ∈ s.svc.gated then 2 else 0) + (if s.fnResident n then 0 else 1) ∧
    at' 16 8 = f.part % 8 * 2 ^ 48 + f.tenant % 2 ^ 16 * 2 ^ 32 + f.mgen.toNat ∧
    at' 24 8 = (if s.sealEng.leaf < 2 ^ 20 then s.sealEng.leaf else 2 ^ 64 - 1) ∧
    (x.drop 32).take 32 = nonce.take 32 ∧ at' 128 64 = s.sealEng.mfw.toNat ∧ at' 192 64 = s.sealEng.mdec.toNat ∧
    ∀ r, r < 8 → at' (256 + 64 * r) 64 = (f.measure r).toNat)

namespace Sys2Proof.Machine

/-- A prefix word joins the unit that is being fetched. -/
def JoinsUnit (i : Instr) : Prop :=
  ∀ s : State, s.st.life ≠ .gone → s.st.pfx.length < 4 →
    exec i s = .next { s with st := { s.st with pfx := s.st.pfx ++ [encode i] } }

end Sys2Proof.Machine

/-- From R16, R90: each prefix joins its unit; a fifth one in a row traps UNDEF at the first, with the fifth word. From R87,
R90 to R95, R99 to R101, R105: a unit with two prefixes of one kind, with a prefix that does not apply, with a field outside
its class, or of a masked feature traps UNDEF with its extended word; a privileged one that passes these checks traps PRIV in
a strand that is not privileged; none has any effect. A word that encodes nothing traps UNDEF. -/
def Obligations.UnitChecks : Prop :=
  ((∀ h, JoinsUnit (.xImm h)) ∧ (∀ a b c, JoinsUnit (.xCap a b c)) ∧ (∀ m, JoinsUnit (.xRnd m)) ∧
  (∀ z n p, JoinsUnit (.xPm z n p)) ∧ (∀ o c, JoinsUnit (.xOrd o c)) ∧ (∀ h, JoinsUnit (.xHint h)) ∧
  ∀ (i : Instr) (s : State), i.engine = 7 → i.isWord = true → s.st.life ≠ .gone → s.st.pfx.length = 4 →
    exec i s = .next (s.raise s.st.pc ⟨.undef, 0, (encode i).setWidth 64⟩)) ∧
  ((∀ (i : Instr) (s : State), i.isWord = true → i.engine ≠ 7 → s.st.life ≠ .gone →
    Prefixes.ofWords s.st.pfx noPrefixes = none ∨
      (∃ p, Prefixes.ofWords s.st.pfx noPrefixes = some p ∧
        (prefixesFit i p = false ∨ i.wellFormed = false ∨ (s.features s.st.place.fn).getLsbD i.feature = false)) →
    Raises i s .undef 0 ((encode i).setWidth 64)) ∧
  (∀ (i : Instr) (s : State) (p : Prefixes), i.isWord = true → s.st.life ≠ .gone → i.privileged = true →
    Prefixes.ofWords s.st.pfx noPrefixes = some p → prefixesFit i p = true → i.wellFormed = true →
    featuresOk i p (s.features s.st.place.fn) = true → wideFits i p = true →
    s.st.csr.privl = false ∨ (i.physicalOnly = true ∧ s.st.place.fn ≠ 0) →
    Raises i s .priv 0 ((encode i).setWidth 64)) ∧
  (∀ (w : BitVec 32) (s : State), s.st.life ≠ .gone → w.toNat / 2 ^ 29 ≠ 7 →
    exec (.undefinedEncoding w) s = .next (s.raise s.st.pc ⟨.undef, 0, w.setWidth 64⟩)) ∧
  decodeWord 0 = none ∧ decodeWord (BitVec.allOnes 32) = none)

/-! ## Fetch, decoding and the step -/

namespace Sys2Proof.Machine

/-- The splitter of the current strand is free, its slip is below the limit (R21), and nothing else is asked for or due: the
next step is its next unit (log 2). -/
def State.StepsStrand (s : State) : Prop :=
  s.moves = [] ∧ s.svc.powered = true ∧ s.svc.boot ≠ 0 ∧ s.formPasses = s ∧ s.st.pauses = false ∧ s.st.steering = true ∧
  s.st.blocked = false ∧ s.stoppedGang = false ∧ s.st.slip < s.st.csr.slipLimit

end Sys2Proof.Machine

/-- From R15, R82, R84, R99: a step fetches the four bytes at the current word's address, as the strand sees them, and runs the
instruction that they decode to, with the step's own counts around it; bytes that decode to nothing raise UNDEF; a word that
the instruction cache holds is taken from there. -/
def Obligations.StepRunsDecoded : Prop :=
  (∀ s s1 m i, s.StepsStrand → mapAccess 0 s.st.place.slot s.st.wordAddr.toNat .fetch s = .ok m s1 →
    s.codeHit m.pa = none → s.Sound m.pa →
    let bs := s1.peekBytes s1.st.who m.pa 4
    let t := s1.fillCode m.pa
    (decodeBytes bs = some (i, []) → step s = afterExec (exec i t)) ∧
    (decodeBytes bs = none → step s = afterExec (exec (.undefinedEncoding (BitVec.ofNat 32 (natOfBytes bs))) t))) ∧
  (∀ s s1 m i w, s.StepsStrand → mapAccess 0 s.st.place.slot s.st.wordAddr.toNat .fetch s = .ok m s1 →
    s.codeHit m.pa = some w → decodeWord w = some i → step s = afterExec (exec i s1)) ∧
  (∀ s s1 c, s.StepsStrand → mapAccess 0 s.st.place.slot s.st.wordAddr.toNat .fetch s = .error (.trap c) s1 →
    step s = .next (s1.raise s1.st.pc c).afterUnit) ∧
  ∀ (u : State), u.st.blocked = false → afterExec (.next u) = .next { u.modGang (fun g => { g with stall := 0 }) with
    clock := u.clock + 1, st := { u.st with stall := 0, turn := u.st.turn + 1 } }

/-- From R84, R85, R97: the decoder gives back every well-formed word that the encoder writes, and every word that it accepts is the
one that the encoder writes: no bit of a word is dropped and no two words are one instruction. -/
def Obligations.DecodeEncode : Prop :=
  (∀ i : Instr, i.isWord = true → i.wellFormed = true →
    decodeWord (encode i) = some i ∧ ∀ rest, decodeBytes (encodeBytes i ++ rest) = some (i, rest)) ∧
  ∀ (w : BitVec 32) (i : Instr), decodeWord w = some i → encode i = w ∧ i.isWord = true ∧ i.wellFormed = true

/-- From R84, R85, R97: words written out from the tables, one or more of each engine. -/
def Obligations.DecodeWords : Prop :=
  decodeWord 0x064C30FF = some (.andi 12 12 255) ∧          -- scalar: andi s12, s12, 255 (R204)
  decodeWord 0x0E4C0006 = some (.bne 12 0 6) ∧              -- bne s12, s0, +6
  decodeWord 0x12403023 = some (.csrw 0 12 0x023) ∧         -- csrw s0, TSCR, s12
  decodeWord 0x11000000 = some .tret ∧
  decodeWord 0x2D010002 = some (.vRedr 1 0 1 false) ∧       -- v.redr.max v1, v0 (R236)
  decodeWord 0x20801460 = some (.vSt 0 5 6 false) ∧         -- v.st v0, s5, s6
  decodeWord (BitVec.ofNat 32 (2 * 2 ^ 29 + 0x01 * 2 ^ 22 + 3 * 2 ^ 16 + 4 * 2 ^ 10 + 5 * 2 ^ 4)) = some (.mMma 3 4 5 false) ∧
  decodeWord (BitVec.ofNat 32 (3 * 2 ^ 29 + 0x0D * 2 ^ 22 + 6 * 2 ^ 16 + 7 * 2 ^ 10 + 1)) = some (.cPf 6 7 false true) ∧
  decodeWord (BitVec.ofNat 32 (4 * 2 ^ 29 + 0x01 * 2 ^ 22 + 8 * 2 ^ 16 + 9 * 2 ^ 10 + 1 * 2)) =
    some (.bAdd 8 9 0 0 true false) ∧                       -- RET = 0, so Z = 0 (R299)
  decodeWord (BitVec.ofNat 32 (5 * 2 ^ 29 + 0x05 * 2 ^ 22 + 12 * 2 ^ 10)) = some (.aBinv 12 false) ∧
  decodeWord (BitVec.ofNat 32 (6 * 2 ^ 29 + 0x0C * 2 ^ 22 + 13 * 2 ^ 16 + 14 * 2 ^ 10)) = some (.kLen 13 14 false) ∧
  decodeWord (BitVec.ofNat 32 (7 * 2 ^ 29 + 0x02 * 2 ^ 22 + 1 * 2 ^ 16 + 2 * 2 ^ 10 + 3 * 2 ^ 4)) = some (.xCap 1 2 3)

/-! ## The vector engine -/

namespace Sys2Proof.Machine

/-- The elements that a vector word acts on (R94). -/
def Prefixes.acts (p : Prefixes) (t : Strand) (e : Nat) : Bool :=
  match p.pm with
  | none => true
  | some (_, n, r) => (t.pred r.toNat).getLsbD e != n

/-- `x.pm.z`: inactive elements become zero (R94). -/
def Prefixes.zeroes (p : Prefixes) : Bool := match p.pm with | some (z, _, _) => z | none => false

/-- The fields whose stream registers a vector word consumes a unit of: none where it acts on no element (R206). -/
def Prefixes.reads (p : Prefixes) (t : Strand) (rs : List Reg) : List Reg :=
  if (List.range 1024).any (p.acts t) then rs else []

/-- The rounding mode of a word with a selectable step (R93). -/
def Prefixes.mode (p : Prefixes) (t : Strand) : Nat :=
  match p.rnd with | some m => m.toNat | none => t.csr.rmode.toNat

/-- The draw of element `e` under mode rs (R139, R210). -/
def Strand.drawn (t : Strand) (mode e : Nat) : Nat :=
  if mode = 4 then (rngOut t.csr.rngKey (t.csr.rngCtr + BitVec.ofNat 64 e)).toNat else 0

/-- From `s` to `t` a vector word has been steered and performed that reads the fields `rs` of class VW and takes `draws`
counter values: of the strand, beside the place of fetch, only the vector registers and predicates, the stream registers
among `rs`, FLAGS and RNGCTR have changed. -/
def VectorStep (s t : State) (p : Prefixes) (rs : List Reg) (draws : Nat) : Prop :=
  t = { s with st := { s.st.advance s.st.nextAddr with
    vec := t.st.vec
    streams := s.st.consumed (p.reads s.st rs)
    csr := { s.st.csr with flags := t.st.csr.flags, rngCtr := s.st.csr.rngCtr + BitVec.ofNat 64 draws } } }

/-- FLAGS have gained what the active elements raise, and nothing else. -/
def RaisesFlags (s t : State) (p : Prefixes) (f : Nat → Flags) : Prop :=
  ∀ k, t.st.csr.flags.getLsbD k = true ↔
    (s.st.csr.flags.getLsbD k = true ∨ ∃ e, e < 1024 ∧ p.acts s.st e = true ∧ (f e).getLsbD k = true)

/-- Register `d` has taken `f`: its active elements hold it, the others what they held, or zero (R94); the other vector
registers and the predicates stand, and the dirty bit of `d` is set (R235). -/
def TakesElements (s t : State) (p : Prefixes) (d : Reg) (f : Nat → Elem) : Prop :=
  (∀ e, e < 1024 → t.st.velem d e =
    if p.acts s.st e = true then f e else if p.zeroes = true then 0 else s.st.velem d e) ∧
  (∀ r e, r ≠ d → t.st.velem r e = s.st.velem r e) ∧ t.st.vec.p = s.st.vec.p ∧
  t.st.vec.dirty = s.st.vec.dirty ||| BitVec.ofNat 24 (2 ^ d.toNat)

/-- Predicate `d` has taken `f`. -/
def TakesBits (s t : State) (p : Prefixes) (d : Reg) (f : Nat → Bool) : Prop :=
  (∀ e, e < 1024 → (t.st.pred d.toNat).getLsbD e =
    if p.acts s.st e = true then f e else if p.zeroes = true then false else (s.st.pred d.toNat).getLsbD e) ∧
  (∀ r : Reg, r ≠ d → t.st.pred r.toNat = s.st.pred r.toNat) ∧ t.st.vec.v = s.st.vec.v ∧
  t.st.vec.dirty = s.st.vec.dirty ||| BitVec.ofNat 24 (2 ^ (16 + d.toNat))

/-- An element-wise word of two sources; `f` takes the rounding mode, the draw and the operands. -/
def TwoSource (w : Reg → Reg → Reg → Bool → Instr) (rounds : Bool) (f : Nat → Nat → Elem → Elem → Elem × Flags) : Prop :=
  ∀ s p d y z c, Runs (w d y z c) p s → s.st.UnitsReady (p.reads s.st [y, z]) →
    let mode := if rounds then p.mode s.st else 0
    let r := fun e => f mode (s.st.drawn mode e) (s.st.source y e) (s.st.source z e)
    ∃ t, exec (w d y z c) s = .next t ∧ VectorStep s t p [y, z] (if mode = 4 then 1024 else 0) ∧
      TakesElements s t p d (fun e => (r e).1) ∧ RaisesFlags s t p fun e => (r e).2

/-- An element-wise word of one source. -/
def OneSource (w : Reg → Reg → Bool → Instr) (rounds : Bool) (f : Nat → Nat → Elem → Elem × Flags) : Prop :=
  ∀ s p d y c, Runs (w d y c) p s → s.st.UnitsReady (p.reads s.st [y]) →
    let mode := if rounds then p.mode s.st else 0
    let r := fun e => f mode (s.st.drawn mode e) (s.st.source y e)
    ∃ t, exec (w d y c) s = .next t ∧ VectorStep s t p [y] (if mode = 4 then 1024 else 0) ∧
      TakesElements s t p d (fun e => (r e).1) ∧ RaisesFlags s t p fun e => (r e).2

/-- An integer word of two sources: no flag. -/
def TwoPatterns (w : Reg → Reg → Reg → Bool → Instr) (f : Elem → Elem → Elem) : Prop :=
  TwoSource w false fun _ _ a b => (f a b, 0)

/-- A word that writes a predicate from two sources. -/
def Compares (w : Reg → Reg → Reg → Bool → Instr) (f : Elem → Elem → Bool × Flags) : Prop :=
  ∀ s p d y z c, Runs (w d y z c) p s → s.st.UnitsReady (p.reads s.st [y, z]) →
    let r := fun e => f (s.st.source y e) (s.st.source z e)
    ∃ t, exec (w d y z c) s = .next t ∧ VectorStep s t p [y, z] 0 ∧ TakesBits s t p d (fun e => (r e).1) ∧
      RaisesFlags s t p fun e => (r e).2

/-- A word that moves elements of its source: element e takes element `f i e`, for the immediate i. -/
def Permutes (w : Reg → Reg → BitVec 9 → Bool → Instr) (f : Prefixes → BitVec 9 → Nat → Nat) : Prop :=
  ∀ s p d y i c, Runs (w d y i c) p s → s.st.UnitsReady (p.reads s.st [y]) →
    ∃ t, exec (w d y i c) s = .next t ∧ VectorStep s t p [y] 0 ∧
      TakesElements s t p d (fun e => s.st.source y (f p i e)) ∧ t.st.csr.flags = s.st.csr.flags

/-- FP32 infinities and the canonical NaN. -/
def infE (neg : Bool) : Elem := if neg then 0xFF800000 else 0x7F800000
def qnanE : Elem := 0x7FC00000

/-- An element holds a NaN, an infinity, a zero. -/
def IsNan (x : Elem) : Prop := x.toNat / 2 ^ 23 % 2 ^ 8 = 255 ∧ x.toNat % 2 ^ 23 ≠ 0
def IsInf (x : Elem) : Prop := x = infE false ∨ x = infE true
def IsZero (x : Elem) : Prop := x = 0 ∨ x = 0x80000000

/-- The value of a finite FP32 element (R127). -/
def valueE (x : Elem) : ℚ :=
  let e : ℕ := x.toNat / 2 ^ 23 % 2 ^ 8
  let m : ℕ := x.toNat % 2 ^ 23
  (if x.msb then -1 else 1) *
    (if e = 0 then (m : ℚ) * 2 ^ (-149 : ℤ) else ((2 ^ 23 + m : ℕ) : ℚ) * 2 ^ ((e : ℤ) - 150))

/-- The value of a finite exact operand (R125 to R130). -/
def valueF : Fp → ℚ
  | .fin neg m e => (if neg then -1 else 1) * (m : ℚ) * 2 ^ e
  | _ => 0

/-- An element is finite. -/
def IsFinite (x : Elem) : Prop := x.toNat / 2 ^ 23 % 2 ^ 8 ≠ 255

end Sys2Proof.Machine

/-- From R220, R209: the floating-point words apply one rounded step to each element, under the word's rounding mode; `v.min`,
`v.max`, `v.abs` and `v.neg` set no flag. -/
def Obligations.VectorFloat : Prop :=
  TwoSource .vAdd true add32 ∧ TwoSource .vSub true sub32 ∧ TwoSource .vMul true mul32 ∧
  (∀ s p d y z m c, Runs (.vFma d y z m c) p s → s.st.UnitsReady (p.reads s.st [y, z]) →
    let mode := p.mode s.st
    let r := fun e => fma32 mode (s.st.drawn mode e) (m.getLsbD 1) (m.getLsbD 0) (s.st.source y e) (s.st.source z e)
      (s.st.velem d e)
    ∃ t, exec (.vFma d y z m c) s = .next t ∧ VectorStep s t p [y, z] (if mode = 4 then 1024 else 0) ∧
      TakesElements s t p d (fun e => (r e).1) ∧ RaisesFlags s t p fun e => (r e).2) ∧
  TwoSource .vMin false (fun _ _ a b => (min32 a b, 0)) ∧ TwoSource .vMax false (fun _ _ a b => (max32 a b, 0)) ∧
  OneSource .vAbs false (fun _ _ a => (a &&& 0x7FFFFFFF, 0)) ∧ OneSource .vNeg false (fun _ _ a => (a ^^^ 0x80000000, 0))

/-- From R209, R220: what the steps give for NaNs, infinities and zeros: a NaN result is canonical, ∞ − ∞ and 0 × ∞ set INV, a NaN
operand alone sets nothing; a sum that is exactly zero is +0, or −0 under rd; `v.min` and `v.max` order −0 below +0 and pass
over one NaN. -/
def Obligations.FloatSpecials : Prop :=
  ∀ (m d : Nat) (x y : Elem),
    (IsNan x ∨ IsNan y → add32 m d x y = (qnanE, 0) ∧ sub32 m d x y = (qnanE, 0) ∧ mul32 m d x y = (qnanE, 0)) ∧
    (∀ a b, add32 m d (infE a) (infE b) = if a = b then (infE a, 0) else (qnanE, fINV)) ∧
    (∀ a, IsFinite x → add32 m d (infE a) x = (infE a, 0) ∧ add32 m d x (infE a) = (infE a, 0)) ∧
    (∀ a, IsZero x → mul32 m d (infE a) x = (qnanE, fINV) ∧ mul32 m d x (infE a) = (qnanE, fINV)) ∧
    (∀ a b z, IsZero x → IsNan z → (fma32 m d a b x (infE b) z) = (qnanE, fINV)) ∧
    (IsFinite x → IsFinite y → ¬ (IsZero x ∧ IsZero y) → valueE x + valueE y = 0 →
      add32 m d x y = (if m = 3 then 0x80000000 else 0, 0)) ∧
    (∀ z, IsZero z → add32 m d z z = (z, 0)) ∧
    min32 0 0x80000000 = 0x80000000 ∧ max32 0x80000000 0 = 0 ∧
    (IsNan x → ¬ IsNan y → min32 x y = y ∧ min32 y x = y ∧ max32 x y = y ∧ max32 y x = y) ∧
    (IsNan x → IsNan y → min32 x y = qnanE ∧ max32 x y = qnanE)

/-- From R137, R138, R209: under rn the sum and the product of finite elements are no farther from the exact value than any
finite FP32 value is, unless they overflow; INX is set if and only if they differ from it. R144: so is the sum of the products
of a group of the Loom, which is rounded once. -/
def Obligations.FloatNearest : Prop :=
  (∀ (ps : List (Fp × Fp)) (w : Elem), IsFinite w →
    (∀ q ∈ ps, (∃ n m e, q.1 = .fin n m e) ∧ ∃ n m e, q.2 = .fin n m e) → IsFinite (groupSum ps).1 →
    let v := (ps.map fun q => valueF q.1 * valueF q.2).sum
    |valueE (groupSum ps).1 - v| ≤ |valueE w - v|) ∧
  ∀ (x y w : Elem), IsFinite x → IsFinite y → IsFinite w →
    (IsFinite (add32 0 0 x y).1 →
      |valueE (add32 0 0 x y).1 - (valueE x + valueE y)| ≤ |valueE w - (valueE x + valueE y)| ∧
      ((add32 0 0 x y).2.getLsbD 0 = true ↔ valueE (add32 0 0 x y).1 ≠ valueE x + valueE y)) ∧
    (IsFinite (mul32 0 0 x y).1 →
      |valueE (mul32 0 0 x y).1 - valueE x * valueE y| ≤ |valueE w - valueE x * valueE y| ∧
      ((mul32 0 0 x y).2.getLsbD 0 = true ↔ valueE (mul32 0 0 x y).1 ≠ valueE x * valueE y))

/-- From R221: the integer words. -/
def Obligations.VectorInteger : Prop :=
  TwoPatterns .vIadd (· + ·) ∧ TwoPatterns .vIsub (· - ·) ∧
  TwoPatterns (fun d y z c => .vImul d y z false c)
    (fun a b => (a.setWidth 24).signExtend 32 * (b.setWidth 24).signExtend 32) ∧
  TwoPatterns (fun d y z c => .vImul d y z true c) (· * ·) ∧
  TwoPatterns (fun d y z c => .vImulw d y z false c)
    (fun a b => ((a.signExtend 64 * b.signExtend 64) >>> 32).setWidth 32) ∧
  TwoPatterns (fun d y z c => .vImulw d y z true c)
    (fun a b => ((a.setWidth 64 * b.setWidth 64) >>> 32).setWidth 32) ∧
  TwoPatterns .vAnd (· &&& ·) ∧ TwoPatterns .vOr (· ||| ·) ∧ TwoPatterns .vXor (· ^^^ ·) ∧
  OneSource .vNot false (fun _ _ a => (~~~a, 0)) ∧
  TwoPatterns .vShl (fun a b => a <<< (b.toNat % 32)) ∧ TwoPatterns .vShr (fun a b => a >>> (b.toNat % 32)) ∧
  TwoPatterns .vSha (fun a b => a.sshiftRight (b.toNat % 32)) ∧
  TwoPatterns (fun d y z c => .vImin d y z false c) (fun a b => if a.toInt ≤ b.toInt then a else b) ∧
  TwoPatterns (fun d y z c => .vImin d y z true c) (fun a b => if a.toNat ≤ b.toNat then a else b) ∧
  TwoPatterns (fun d y z c => .vImax d y z false c) (fun a b => if a.toInt ≤ b.toInt then b else a) ∧
  TwoPatterns (fun d y z c => .vImax d y z true c) (fun a b => if a.toNat ≤ b.toNat then b else a)

/-- From R222: comparisons and selection, by M, and what FP32 comparison means. From R219, R222: the predicate words, which
take no predicate. -/
def Obligations.VectorCompare : Prop :=
  ((∀ m, Compares (fun d y z c => .vCmp d y z m c) (cmpElem m)) ∧
  (∀ m, Compares (fun d y z c => .vIcmp d y z m c) fun a b => (
    match m.toNat with
    | 0 => decide (a = b) | 1 => decide (a ≠ b) | 2 => decide (a.toInt < b.toInt) | 3 => decide (a.toInt ≤ b.toInt)
    | 4 => decide (a.toNat < b.toNat) | _ => decide (a.toNat ≤ b.toNat), 0)) ∧
  (∀ s p d y z (m : BitVec 3) c, Runs (.vSel d y z m c) p s → s.st.UnitsReady (p.reads s.st [y, z]) →
    ∃ t, exec (.vSel d y z m c) s = .next t ∧ VectorStep s t p [y, z] 0 ∧
      TakesElements s t p d (fun e => if (s.st.pred m.toNat).getLsbD e then s.st.source y e else s.st.source z e) ∧
      t.st.csr.flags = s.st.csr.flags) ∧
  (∀ a b : Elem, IsFinite a → IsFinite b →
    cmpElem 0 a b = (decide (valueE a = valueE b), 0) ∧ cmpElem 1 a b = (decide (valueE a ≠ valueE b), 0) ∧
    cmpElem 2 a b = (decide (valueE a < valueE b), 0) ∧ cmpElem 3 a b = (decide (valueE a ≤ valueE b), 0) ∧
    cmpElem 4 a b = (decide (valueE b < valueE a), 0) ∧ cmpElem 5 a b = (decide (valueE b ≤ valueE a), 0) ∧
    cmpElem 6 a b = (false, 0) ∧ cmpElem 7 a b = (true, 0)) ∧
  ∀ a b : Elem, IsNan a ∨ IsNan b →
    cmpElem 0 a b = (false, 0) ∧ cmpElem 1 a b = (true, 0) ∧ cmpElem 2 a b = (false, fINV) ∧ cmpElem 3 a b = (false, fINV) ∧
    cmpElem 4 a b = (false, fINV) ∧ cmpElem 5 a b = (false, fINV) ∧ cmpElem 6 a b = (true, 0) ∧ cmpElem 7 a b = (false, 0)) ∧
  ((∀ s p d y i c, Runs (.vPset d y i c) p s → ∃ v, exec (.vPset d y i c) s = .next (s.did fun t => t.setP d v) ∧
    ∀ e, e < 1024 → (v.getLsbD e = true ↔ (e : Int) < (s.st.reg y).toInt + (signedImm p i).toInt)) ∧
  (∀ s p d y z c, Runs (.vPand d y z c) p s →
    exec (.vPand d y z c) s = .next (s.did fun t => t.setP d (t.pred y.toNat &&& t.pred z.toNat))) ∧
  (∀ s p d y z c, Runs (.vPor d y z c) p s →
    exec (.vPor d y z c) s = .next (s.did fun t => t.setP d (t.pred y.toNat ||| t.pred z.toNat))) ∧
  (∀ s p d y z c, Runs (.vPxor d y z c) p s →
    exec (.vPxor d y z c) s = .next (s.did fun t => t.setP d (t.pred y.toNat ^^^ t.pred z.toNat))) ∧
  (∀ s p d y c, Runs (.vPnot d y c) p s → exec (.vPnot d y c) s = .next (s.did fun t => t.setP d (~~~(t.pred y.toNat)))) ∧
  ∀ (t : Strand) (d r : Reg) (v : BitVec 1024), d.toNat < 8 →
    (t.setP d v).pred d.toNat = v ∧ (r ≠ d → (t.setP d v).pred r.toNat = t.pred r.toNat))

/-- From R224: each reduction gives every element of a row, or column, the reduction of its active elements; integer sum,
maximum and minimum by their values, and the floating-point extrema of lines with no NaN as one of their elements that bounds
them all. From R225 to R229: conversions, and the functions, with their special values. -/
def Obligations.VectorFunctions : Prop :=
  ((∀ s p d y m c, Runs (.vRedr d y m c) p s → s.st.UnitsReady (p.reads s.st [y]) →
    let line := fun i => genFrom 64 0 fun j => if p.acts s.st (64 * i + j) then some (s.st.source y (64 * i + j)) else none
    ∃ t, exec (.vRedr d y m c) s = .next t ∧ VectorStep s t p [y] 0 ∧
      TakesElements s t p d (fun e => (reduce m (line (e / 64))).1) ∧
      ∀ k, t.st.csr.flags.getLsbD k = true ↔
        (s.st.csr.flags.getLsbD k = true ∨ ∃ i, i < 16 ∧ (reduce m (line i)).2.getLsbD k = true)) ∧
  (∀ s p d y m c, Runs (.vRedc d y m c) p s → s.st.UnitsReady (p.reads s.st [y]) →
    let line := fun i => genFrom 16 0 fun j => if p.acts s.st (64 * j + i) then some (s.st.source y (64 * j + i)) else none
    ∃ t, exec (.vRedc d y m c) s = .next t ∧ VectorStep s t p [y] 0 ∧
      TakesElements s t p d (fun e => (reduce m (line (e % 64))).1) ∧
      ∀ k, t.st.csr.flags.getLsbD k = true ↔
        (s.st.csr.flags.getLsbD k = true ∨ ∃ i, i < 64 ∧ (reduce m (line i)).2.getLsbD k = true)) ∧
  ∀ l : List (Option Elem),
    reduce 4 l = ((l.filterMap id).sum, 0) ∧
    (∀ a ∈ l.filterMap id, a.toInt ≤ (reduce 5 l).1.toInt ∧ (reduce 6 l).1.toInt ≤ a.toInt) ∧
    ((reduce 5 l).1 = 0x80000000 ∨ (reduce 5 l).1 ∈ l.filterMap id) ∧
    ((reduce 6 l).1 = 0x7FFFFFFF ∨ (reduce 6 l).1 ∈ l.filterMap id) ∧
    ((∀ a ∈ l.filterMap id, ¬ IsNan a) → l.filterMap id ≠ [] →
      ((reduce 1 l).1 ∈ l.filterMap id ∧ ∀ a ∈ l.filterMap id, IsFinite a → IsFinite (reduce 1 l).1 →
        valueE a ≤ valueE (reduce 1 l).1) ∧
      ((reduce 2 l).1 ∈ l.filterMap id ∧ ∀ a ∈ l.filterMap id, IsFinite a → IsFinite (reduce 2 l).1 →
        valueE (reduce 2 l).1 ≤ valueE a)) ∧
    (l.filterMap id ≠ [] → (∀ a ∈ l.filterMap id, IsNan a) →
      reduce 1 l = (qnanE, 0) ∧ reduce 2 l = (qnanE, 0) ∧ reduce 3 l = (qnanE, 0)) ∧
    (l.filterMap id = [] → reduce 1 l = (infE true, 0) ∧ reduce 2 l = (infE false, 0) ∧ reduce 3 l = (0, 0))) ∧
  ((∀ m, OneSource (fun d y c => .vCvtf d y m c) true fun mode draw a =>
    toFp32 mode draw (fpOfInt (if m then a.toNat else a.toInt))) ∧
  (∀ m, OneSource (fun d y c => .vCvti d y m c) true fun mode draw a =>
    let r := encodeInt (if m then 0 else -(2 ^ 31)) (if m then 2 ^ 32 - 1 else 2 ^ 31 - 1) mode draw (fpOf a)
    (BitVec.ofInt 32 r.1, r.2)) ∧
  (∀ m, OneSource (fun d y c => .vCvtq d y m c) true fun mode draw a =>
    let r := (cvtqFmt m).encode mode draw (fpOf a)
    (((cvtqFmt m).decode r.1 0).1, r.2)) ∧
  OneSource .vExp2 false (fun _ _ a => exp2Dev a) ∧ OneSource .vLog2 false (fun _ _ a => log2Dev a) ∧
  OneSource .vRcp false (fun _ _ a => rcpDev a) ∧ OneSource .vRsq false (fun _ _ a => rsqDev a) ∧
  OneSource .vTanh false (fun _ _ a => tanhDev a) ∧ OneSource .vSigm false (fun _ _ a => sigmDev a) ∧
  ∀ x : Elem,
    (IsNan x → exp2Dev x = (qnanE, 0) ∧ log2Dev x = (qnanE, 0) ∧ rcpDev x = (qnanE, 0) ∧ rsqDev x = (qnanE, 0) ∧
      tanhDev x = (qnanE, 0) ∧ sigmDev x = (qnanE, 0)) ∧
    exp2Dev (infE false) = (infE false, 0) ∧ exp2Dev (infE true) = (0, 0) ∧
    (IsFinite x → 128 ≤ valueE x → exp2Dev x = (infE false, fOVF ||| fINX)) ∧
    (IsFinite x → valueE x < -150 → exp2Dev x = (0, fUNF ||| fINX)) ∧
    exp2Dev 0x3F000000 = (0x3FB504F3, fINX) ∧
    (IsZero x → log2Dev x = (infE true, 0) ∧ rcpDev x = (infE x.msb, 0) ∧ rsqDev x = (infE x.msb, 0)) ∧
    log2Dev (infE false) = (infE false, 0) ∧ rsqDev (infE false) = (0, 0) ∧
    rcpDev (infE false) = (0, 0) ∧ rcpDev (infE true) = (0x80000000, 0) ∧
    (IsFinite x → valueE x < 0 → log2Dev x = (qnanE, fINV) ∧ rsqDev x = (qnanE, fINV)) ∧
    log2Dev (infE true) = (qnanE, fINV) ∧ rsqDev (infE true) = (qnanE, fINV) ∧
    (IsFinite x → |valueE x| < 2 ^ (-12 : ℤ) → tanhDev x = (x, 0)) ∧
    (IsFinite x → 16 ≤ |valueE x| → tanhDev x = (if x.msb then 0xBF800000 else 0x3F800000, 0)))

/-- From R219, R223: moves, constants and the row and column axes. From R139, R210, R230: `v.rng` takes 1,024 counter values,
active or not, and writes the draw of RNGCTR + e, or the FP32 value of its high 24 bits in [0, 1) or (0, 1]. -/
def Obligations.VectorMoves : Prop :=
  (OneSource .vMov false (fun _ _ a => (a, 0)) ∧
  (∀ s p d y c, Runs (.vBcs d y c) p s → ∃ t, exec (.vBcs d y c) s = .next t ∧ VectorStep s t p [] 0 ∧
    TakesElements s t p d (fun _ => (s.st.reg y).setWidth 32) ∧ t.st.csr.flags = s.st.csr.flags) ∧
  (∀ s p d y i c, Runs (.vIota d y i c) p s → ∃ t, exec (.vIota d y i c) s = .next t ∧ VectorStep s t p [] 0 ∧
    TakesElements s t p d (fun e => (s.st.reg y).setWidth 32 + BitVec.ofNat 32 e * (signedImm p i).setWidth 32) ∧
    t.st.csr.flags = s.st.csr.flags) ∧
  Permutes .vRotr (fun p k e => e / 64 * 64 + (((e : Int) - (signedImm p k).toInt) % 64).toNat) ∧
  Permutes .vRotc (fun p k e => (((e / 64 : Nat) - (signedImm p k).toInt) % 16).toNat * 64 + e % 64) ∧
  Permutes .vBcr (fun p k e => e / 64 * 64 + (unsignedImm p k).toNat) ∧
  Permutes .vBcc (fun p k e => (unsignedImm p k).toNat * 64 + e % 64)) ∧
  ((∀ s p d (m : BitVec 2) c, Runs (.vRng d m c) p s →
    let x := fun e => rngOut s.st.csr.rngKey (s.st.csr.rngCtr + BitVec.ofNat 64 e)
    ∃ t, exec (.vRng d m c) s = .next t ∧ VectorStep s t p [] 1024 ∧
      TakesElements s t p d (fun e => rngShape m (x e).toNat) ∧ t.st.csr.flags = s.st.csr.flags) ∧
  ∀ n, n < 2 ^ 32 → rngShape 0 n = BitVec.ofNat 32 n ∧
    (IsFinite (rngShape 1 n) ∧ valueE (rngShape 1 n) = (n / 2 ^ 8 : ℕ) * 2 ^ (-24 : ℤ)) ∧
    (IsFinite (rngShape 2 n) ∧ valueE (rngShape 2 n) = (n / 2 ^ 8 + 1 : ℕ) * 2 ^ (-24 : ℤ)))

/-! ## Vector memory, the stop test and loop words -/

namespace Sys2Proof.Machine

/-- The translation cache of engine `eng` (0 to 3) of the tile holds the page of `va`, which permits the access and gives `m`: in a
window, of an enabled function, and sealed as the frame is. No page request stands for it, a write meets no weight region
and no dirty bitmap, and the copy stream TLB holds the 64 KiB page as well, so that it need not walk ahead for it. -/
def State.Cached (s : State) (eng slot va : Nat) (acc : AccessKind) (m : Mapped) : Prop :=
  eng ≤ 3 ∧ (∀ a ∈ s.st.pageAnswers, ¬ (a.eng = eng ∧ a.va = va)) ∧ (∀ w ∈ s.st.pageWaits, ¬ (w.eng = eng ∧ w.va = va)) ∧
  (∃ t, s.here.tlbs.find? (fun t => t.hits eng slot va && (t.dirty || !acc.writes)) = some t ∧
    t.permits t.perm1 false acc = true ∧ (t.two = true → t.permits t.perm2 true acc = true) ∧ s.fnEnabled t.fn = true ∧
    m = t.mapped va ∧ s.inWindow m.pa = true ∧ s.sealOk t.sealMode m.pa t.world = true) ∧
  (acc.writes = true → s.weightFrame m.pa = false ∧ (m.two = true → (s.fn m.fn).trans.dbmEn = false)) ∧
  (eng = 3 → ∃ t ∈ s.here.tlbs, t.hits 3 slot (va / 65536 * 65536) = true)

/-- The line of a physical address is not poisoned and not in a frame of seal mode 2: no access of it is stopped, and no count
of its writes ends (R506 to R508). -/
def State.PlainAt (s : State) (pa : Nat) : Prop :=
  pa < dramEnd → s.poison.contains (pa / 64) = false ∧ (s.frameAt pa).sealMode ≠ 2

/-- An access of an engine goes through: its page is cached, and its line is plain. -/
def State.Reaches (s : State) (eng va : Nat) (acc : AccessKind) (m : Mapped) : Prop :=
  s.Cached eng s.st.place.slot va acc m ∧ s.PlainAt m.pa

/-- What the tile's L1 holds of the line of a physical address is what the home holds (R62). -/
def State.L1Agrees (s : State) (pa : Nat) : Prop :=
  ∀ data, s.l1Hit (pa / 64) = some data → data = s.peekBytes s.st.who (pa / 64 * 64) 64

/-- An unscaled format of whole bytes (R122): element `e` of an image stands at `imageAt`. -/
def ByteFormat (a : Nat) : Prop :=
  a < 128 ∧ (fmtOf a).scaled = false ∧ (fmtOf a).raw = false ∧ (fmtOf a).tri = false ∧ 8 ≤ (fmtOf a).bitsPer

/-- The address of element `e` of an image of 16 rows of 64 (R211). -/
def imageAt (a : Nat) (base stride : Word) (e : Nat) : Nat :=
  ((base.toNat + e / 64 * stride.toNat) % 2 ^ 64 + e % 64 * (fmtOf a).bytes) % 2 ^ 64

/-- Base and stride are multiples of the element size (R212). -/
def ImageAligned (a : Nat) (base stride : Word) : Prop :=
  base.toNat % (fmtOf a).bytes = 0 ∧ stride.toNat % (fmtOf a).bytes = 0

/-- The element that `n` bytes decode to, in a format of whole bytes (R213). -/
def decodedAt (a : Nat) (bs : List Byte) : Elem := ((fmtOf a).decode (natOfBytes bs) 0).1

/-- The bytes that an element encodes to, with its flags (R137, R213). -/
def encodedAs (a mode draw : Nat) (x : Elem) : List Byte × Flags :=
  let r := (fmtOf a).encode mode draw ((fmtOf a).source x)
  (bytesOfNat (fmtOf a).bytes r.1, r.2)

/-- The descriptor byte of a scratchpad word (R215). -/
def Prefixes.format (p : Prefixes) (t : Strand) : Nat := (extValue t p 0).toNat % 256

/-- The slot of the ring that a ring word names by its low 32 bits (R216). -/
def Strand.slotAt (t : Strand) (h : Nat) (z : Word) : Word := BitVec.ofNat 64 ((t.ring h).slotOffset (z.setWidth 32))

/-- The bytes of one row of an image in a ring slot. -/
def slotStride (a : Nat) : Word := BitVec.ofNat 64 ((fmtOf a).footprint 64)

/-- A ring word may use its slot (R216). -/
def Strand.SlotReady (t : Strand) (h a : Nat) : Prop :=
  (t.ring h).count ≠ 0 ∧ 16 * (fmtOf a).footprint 64 ≤ (t.ring h).slot * 64 ∧ descOk a = true

/-- The scratchpad after the active elements of an image are stored in it. -/
def storedSpad (s : State) (p : Prefixes) (x : Reg) (a mode : Nat) (base stride : Word) : Mem :=
  (List.range 1024).foldl (fun sp e =>
    if p.acts s.st e then sp.writeBytes (imageAt a base stride e) (encodedAs a mode (s.st.drawn mode e) (s.st.source x e)).1
    else sp) s.st.spad

/-- The states that `v.stop` goes through: element `e` updates the record at the `e`-th 64 bytes, at its home (R65, R232). -/
def stopped (s : State) (p : Prefixes) (y : Reg) (m : Nat → Mapped) : Nat → State
  | 0 => s
  | e + 1 =>
    let u := stopped s p y m e
    if p.acts s.st e then
      match (stopRecord (u.mem.readNat (m e).pa 64) (s.st.source y e).toNat).1 with
      | some new => u.engineWrite (m e).pa (bytesOfNat 64 new)
      | none => u
    else u

/-- A loop word of engine `e` opens its nest: its descriptor is read once, and its body units are awaited (R27, R233). -/
def OpensNest (w : Reg → BitVec 4 → Bool → Instr) (e : Nat) : Prop :=
  ∀ s p (d : Reg) l c, Runs (w d l c) p s → descDims (s.st.desc d.toNat) ≠ 0 →
    let x := { mkEntry (w d l c) p s.st with
      prog := { Progress.fresh with started := true, vals := [(s.st.desc d.toNat).toNat] } }
    exec (w d l c) s = .next (s.did fun t => { t.setQueue e [x] with loopLeft := vput t.loopLeft (e - 1) (l.toNat + 1) })

end Sys2Proof.Machine

/-- From R211 to R216: the vector loads and stores in the unscaled formats of whole bytes: each active element is decoded from its
place, or encoded to it, in element order. -/
def Obligations.VectorMemory : Prop :=
  (∀ s p d y z c a (m : Nat → Mapped), Runs (.vLd d y z c) p s → ByteFormat a → ImageAligned a (s.st.reg y) (s.st.reg z) →
    (∃ e, e < 1024 ∧ p.acts s.st e = true) →
    (∀ e, e < 1024 → s.Reaches 1 (imageAt a (s.st.reg y) (s.st.reg z) e) .read (m e) ∧ (m e).fmta = a ∧ s.L1Agrees (m e).pa) →
    ∃ t, exec (.vLd d y z c) s = .next t ∧ VectorStep { s with tiles := t.tiles } t p [] 0 ∧
      t.st.csr.flags = s.st.csr.flags ∧
      TakesElements s t p d fun e => decodedAt a (s.peekBytes s.st.who (m e).pa (fmtOf a).bytes)) ∧
  (∀ s p d y z c, Runs (.vLd d y z c) p s → (∀ e, p.acts s.st e = false) → p.zeroes = false →
    exec (.vLd d y z c) s = .next (s.did id)) ∧
  (∀ s p x y z c a (m : Nat → Mapped), Runs (.vSt x y z c) p s → ByteFormat a → ImageAligned a (s.st.reg y) (s.st.reg z) →
    (∃ e, e < 1024 ∧ p.acts s.st e = true) → s.st.UnitsReady [x] →
    (∀ e, e < 1024 → s.Reaches 1 (imageAt a (s.st.reg y) (s.st.reg z) e) .write (m e) ∧ (m e).fmta = a) →
    let mode := p.mode s.st
    let r := fun e => encodedAs a mode (s.st.drawn mode e) (s.st.source x e)
    let u := (List.range 1024).foldl (fun u e => if p.acts s.st e then u.engineWrite (m e).pa (r e).1 else u) s
    ∃ t, exec (.vSt x y z c) s = .next t ∧ RaisesFlags s t p (fun e => (r e).2) ∧
      t = { u with st := { u.st.advance s.st.nextAddr with
        streams := s.st.consumed [x]
        csr := { s.st.csr with
          flags := t.st.csr.flags, rngCtr := s.st.csr.rngCtr + (if mode = 4 then 1024 else 0) } } }) ∧
  (∀ s p d y z c, Runs (.vLds d y z c) p s → descOk (p.format s.st) = true → ByteFormat (p.format s.st) →
    let a := p.format s.st
    ImageAligned a (s.st.reg y) (s.st.reg z) → (∃ e, e < 1024 ∧ p.acts s.st e = true) →
    (∀ e, e < 1024 → imageAt a (s.st.reg y) (s.st.reg z) e < s.st.spadSize) →
    ∃ t, exec (.vLds d y z c) s = .next t ∧ VectorStep s t p [] 0 ∧ t.st.csr.flags = s.st.csr.flags ∧
      TakesElements s t p d fun e => decodedAt a (s.st.spad.readBytes (imageAt a (s.st.reg y) (s.st.reg z) e) (fmtOf a).bytes)) ∧
  (∀ s p x y z c, Runs (.vSts x y z c) p s → descOk (p.format s.st) = true → ByteFormat (p.format s.st) →
    let a := p.format s.st
    ImageAligned a (s.st.reg y) (s.st.reg z) → s.st.UnitsReady (p.reads s.st [x]) →
    (∀ e, e < 1024 → imageAt a (s.st.reg y) (s.st.reg z) e < s.st.spadSize) →
    let mode := p.mode s.st
    ∃ t, exec (.vSts x y z c) s = .next t ∧ VectorStep { s with st := { s.st with spad := t.st.spad } } t p [x]
        (if mode = 4 then 1024 else 0) ∧ t.st.vec = s.st.vec ∧
      t.st.spad = storedSpad s p x a mode (s.st.reg y) (s.st.reg z) ∧
      RaisesFlags s t p fun e => (encodedAs a mode (s.st.drawn mode e) (s.st.source x e)).2) ∧
  (∀ s p d (h : Reg) z g c, Runs (.vLdh d h z g c) p s → ByteFormat (p.format s.st) →
    s.st.SlotReady h.toNat (p.format s.st) → seqLe ((s.st.reg z).setWidth 32 + 1) (s.st.ring h.toNat).tail = true →
    let a := p.format s.st
    let base := s.st.slotAt h.toNat (s.st.reg z)
    ImageAligned a base (slotStride a) → (∃ e, e < 1024 ∧ p.acts s.st e = true) →
    (∀ e, e < 1024 → imageAt a base (slotStride a) e < s.st.spadSize) →
    ∀ q, (if g then (s.st.ring h.toNat).advanceHead 1 else .done (s.st.ring h.toNat)) = .done q →
    ∃ t, exec (.vLdh d h z g c) s = .next t ∧ VectorStep { s with st := s.st.setRing h.toNat q } t p [] 0 ∧
      t.st.csr.flags = s.st.csr.flags ∧
      TakesElements s t p d fun e => decodedAt a (s.st.spad.readBytes (imageAt a base (slotStride a) e) (fmtOf a).bytes)) ∧
  (∀ s p x (h : Reg) z g c, Runs (.vSth x h z g c) p s → ByteFormat (p.format s.st) →
    s.st.SlotReady h.toNat (p.format s.st) →
    seqLe ((s.st.reg z).setWidth 32 + 1) ((s.st.ring h.toNat).head + BitVec.ofNat 32 (s.st.ring h.toNat).count) = true →
    let a := p.format s.st
    let base := s.st.slotAt h.toNat (s.st.reg z)
    ImageAligned a base (slotStride a) → s.st.UnitsReady (p.reads s.st [x]) →
    (∀ e, e < 1024 → imageAt a base (slotStride a) e < s.st.spadSize) →
    ∀ q, (if g then (s.st.ring h.toNat).advanceTail 1 else .done (s.st.ring h.toNat)) = .done q →
    let mode := p.mode s.st
    ∃ t, exec (.vSth x h z g c) s = .next t ∧
      VectorStep { s with st := { s.st.setRing h.toNat q with spad := t.st.spad } } t p [x] (if mode = 4 then 1024 else 0) ∧
      t.st.vec = s.st.vec ∧ t.st.spad = storedSpad s p x a mode base (slotStride a) ∧
      RaisesFlags s t p fun e => (encodedAs a mode (s.st.drawn mode e) (s.st.source x e)).2)

namespace Sys2Proof.Machine

/-- Where element `e` of an image in any format stands: its byte, and its nibble or digit there (R211). -/
def spotOf (a : Nat) (base stride : Word) (e : Nat) : Nat × Nat :=
  let p := (fmtOf a).place ((base.toNat + e / 64 * stride.toNat) % 2 ^ 64) (e % 64)
  (p.1 % 2 ^ 64, p.2)

/-- The code at nibble or digit `sub` of the bytes `x` of an element (R126, R211), and the bytes with another code there. -/
def codeIn (f : Fmt) (x sub : Nat) : Nat :=
  if f.tri then x / 3 ^ sub % 3 else if f.bitsPer = 4 then x / 16 ^ sub % 16 else x
def putIn (f : Fmt) (x sub code : Nat) : Nat :=
  if f.tri then x - x / 3 ^ sub % 3 * 3 ^ sub + code % 3 * 3 ^ sub
  else if f.bitsPer = 4 then x - x / 16 ^ sub % 16 * 16 ^ sub + code % 16 * 16 ^ sub
  else code

/-- The byte that holds the scale of the block of an element (R132). -/
def scaleSpot (a : Nat) (e : Nat × Nat) : Nat := (fmtOf a).scaleByte e.1 e.2

/-- An image in any format that decodes: its rows are aligned to the element size, and the elements that `acts` names lie below D
of their granule (R134, R212). -/
def ImageFits (a : Nat) (base stride : Word) (acts : Nat → Prop) : Prop :=
  descOk a = true ∧
  (2 ≤ (fmtOf a).bytes → base.toNat % (fmtOf a).bytes = 0 ∧ stride.toNat % (fmtOf a).bytes = 0) ∧
  ∀ e, e < 1024 → acts e → (fmtOf a).scaled = true → (spotOf a base stride e).1 % 65536 < (fmtOf a).dataBytes

/-- A scratchpad holds an image: what `acts` names lies in it, with its scales, and no byte of TRI5 elements exceeds 242. -/
def Strand.HoldsImage (t : Strand) (a : Nat) (base stride : Word) (acts : Nat → Prop) : Prop :=
  ∀ e, e < 1024 → acts e → (spotOf a base stride e).1 < t.spadSize ∧
    ((fmtOf a).scaled = true → scaleSpot a (spotOf a base stride e) < t.spadSize) ∧
    ((fmtOf a).tri = true → (t.spad.read (spotOf a base stride e).1).toNat ≤ 242)

/-- Element `e` of an image in the scratchpad, decoded under its scale (R128 to R131). -/
def Strand.imageElem (t : Strand) (a : Nat) (base stride : Word) (e : Nat) : Elem × Flags :=
  let p := spotOf a base stride e
  (fmtOf a).decode (codeIn (fmtOf a) (t.spad.readNat p.1 (fmtOf a).bytes) p.2)
    (if (fmtOf a).scaled then (t.spad.read (scaleSpot a p)).toNat else 0)

/-- Every row of a scaled image begins on a block boundary (R135). -/
def RowsOnBlocks (a : Nat) (base stride : Word) : Prop :=
  ∀ r, r < 16 → (fmtOf a).onBlock ((base.toNat + r * stride.toNat) % 2 ^ 64) = true

/-- Block `k` of a scaled store, quantised whole, its inactive elements as zero (R135, R140, R214): codes, scale and flags. -/
def State.blockOf (s : State) (p : Prefixes) (x : Reg) (a mode k : Nat) : List Nat × Nat × Flags :=
  let n := (fmtOf a).blockLen
  (fmtOf a).quantise mode (genFrom n (k * n) fun e =>
    (if p.acts s.st e then fpOf (s.st.source x e) else .fin false 0 0, s.st.drawn mode e))

/-- The bytes after block `k` of a scaled store is written with `put` (R135): its codes in element order, and then its scale. -/
def writeBlockAt {α : Type} (a : Nat) (base stride : Word) (get : α → Nat → Nat) (put : α → Nat → Nat → α)
    (q : List Nat × Nat × Flags) (k : Nat) (s : α) : α :=
  let n := (fmtOf a).blockLen
  let s := (List.range n).foldl (fun s i =>
    let e := k * n + i
    put s e (putIn (fmtOf a) (get s e) (spotOf a base stride e).2 (q.1.getD i 0))) s
  put s (1024 + k) q.2.1

/-- The code that an element encodes to in an unscaled format (R137, R213), with its flags. -/
def packedAs (a mode draw : Nat) (x : Elem) : Nat × Flags := (fmtOf a).encode mode draw ((fmtOf a).source x)

end Sys2Proof.Machine

/-- From R132 to R135, R140 to R142, R213 to R215: the data areas of R133; scratchpad and memory loads in every format that decodes,
scaled, INT4 and TRI5 among them; stores of INT4 and TRI5 elements, which keep their byte's other elements; and stores of scaled
images, block by block. A block that holds a NaN is written as zeros under the NaN scale, and one of zeros as zeros under 1. -/
def Obligations.StoredFormats : Prop :=
  ((fmtOf 0x16).dataBytes = 58240 ∧ (fmtOf 0x26).dataBytes = 61632 ∧ (fmtOf 0x14).dataBytes = 61632 ∧
    (fmtOf 0x36).dataBytes = 63488 ∧ (fmtOf 0x24).dataBytes = 63488 ∧ (fmtOf 0x34).dataBytes = 64512) ∧
  (∀ (f : Fmt) (mode : Nat) (xs : List (Fp × Nat)),
    ((∃ x ∈ xs, x.1 = .nan) → f.quantise mode xs = (xs.map fun _ => 0, if f.sk then 0x7F else 0xFF, fINV)) ∧
    (f ∈ [fmtOf 0x14, fmtOf 0x15, fmtOf 0x16, fmtOf 0x17, fmtOf 0x19, fmtOf 0x54, fmtOf 0x55, fmtOf 0x56, fmtOf 0x57, fmtOf 0x59] →
      mode < 5 → (∀ x ∈ xs, x.1 = .fin false 0 0) → f.quantise mode xs = (xs.map fun _ => 0, if f.sk then 0x38 else 127, 0))) ∧
  (∀ s p d y z c, Runs (.vLds d y z c) p s → s.st.spadSize < 2 ^ 64 →
    let a := p.format s.st
    let acts := fun e => p.acts s.st e = true
    ImageFits a (s.st.reg y) (s.st.reg z) acts → s.st.HoldsImage a (s.st.reg y) (s.st.reg z) acts →
    ∃ t, exec (.vLds d y z c) s = .next t ∧ VectorStep s t p [] 0 ∧
      TakesElements s t p d (fun e => (s.st.imageElem a (s.st.reg y) (s.st.reg z) e).1) ∧
      RaisesFlags s t p fun e => (s.st.imageElem a (s.st.reg y) (s.st.reg z) e).2) ∧
  (∀ s p d y z c a (m ms : Nat → Mapped), Runs (.vLd d y z c) p s →
    let acts := fun e => p.acts s.st e = true
    let spot := spotOf a (s.st.reg y) (s.st.reg z)
    ImageFits a (s.st.reg y) (s.st.reg z) acts → (fmtOf a).bytes = 1 → (∃ e, e < 1024 ∧ acts e) →
    (∀ e, e < 1024 → s.Reaches 1 (spot e).1 .read (m e) ∧ (m e).fmta = a ∧ s.L1Agrees (m e).pa ∧
      ((fmtOf a).tri = true → (s.peek s.st.who (m e).pa).toNat ≤ 242) ∧
      ((fmtOf a).scaled = true → s.Reaches 1 (scaleSpot a (spot e)) .read (ms e) ∧ (ms e).fmta = a ∧ s.L1Agrees (ms e).pa)) →
    let r := fun e => (fmtOf a).decode (codeIn (fmtOf a) (s.peek s.st.who (m e).pa).toNat (spot e).2)
      (if (fmtOf a).scaled then (s.peek s.st.who (ms e).pa).toNat else 0)
    ∃ t, exec (.vLd d y z c) s = .next t ∧ VectorStep { s with tiles := t.tiles } t p [] 0 ∧
      TakesElements s t p d (fun e => (r e).1) ∧ RaisesFlags s t p fun e => (r e).2) ∧
  (∀ s p x y z c, Runs (.vSts x y z c) p s → s.st.spadSize < 2 ^ 64 →
    let a := p.format s.st
    let f := fmtOf a
    let acts := fun e => p.acts s.st e = true
    ImageFits a (s.st.reg y) (s.st.reg z) acts → s.st.HoldsImage a (s.st.reg y) (s.st.reg z) acts →
    f.scaled = false → (f.tri = true ∨ f.bitsPer = 4) → s.st.UnitsReady (p.reads s.st [x]) →
    let mode := p.mode s.st
    let r := fun e => packedAs a mode (s.st.drawn mode e) (s.st.source x e)
    ∃ t, exec (.vSts x y z c) s = .next t ∧ VectorStep { s with st := { s.st with spad := t.st.spad } } t p [x]
        (if mode = 4 then 1024 else 0) ∧ t.st.vec = s.st.vec ∧
      t.st.spad = (List.range 1024).foldl (fun sp e =>
        let q := spotOf a (s.st.reg y) (s.st.reg z) e
        if p.acts s.st e then sp.writeNat q.1 1 (putIn f (sp.read q.1).toNat q.2 (r e).1) else sp) s.st.spad ∧
      RaisesFlags s t p fun e => (r e).2) ∧
  (∀ s p x y z c, Runs (.vSts x y z c) p s → s.st.spadSize < 2 ^ 64 →
    let a := p.format s.st
    let f := fmtOf a
    ImageFits a (s.st.reg y) (s.st.reg z) (fun _ => True) → s.st.HoldsImage a (s.st.reg y) (s.st.reg z) (fun _ => True) →
    f.scaled = true → RowsOnBlocks a (s.st.reg y) (s.st.reg z) → s.st.UnitsReady (p.reads s.st [x]) →
    let mode := p.mode s.st
    let spot := spotOf a (s.st.reg y) (s.st.reg z)
    let at' := fun i => if i < 1024 then (spot i).1 else scaleSpot a (spot ((i - 1024) * f.blockLen))
    ∃ t, exec (.vSts x y z c) s = .next t ∧ VectorStep { s with st := { s.st with spad := t.st.spad } } t p [x]
        (if mode = 4 then 1024 else 0) ∧ t.st.vec = s.st.vec ∧
      t.st.spad = (List.range (1024 / f.blockLen)).foldl (fun sp k =>
        writeBlockAt a (s.st.reg y) (s.st.reg z) (fun sp i => (sp.read (at' i)).toNat) (fun sp i v => sp.writeNat (at' i) 1 v)
          (s.blockOf p x a mode k) k sp) s.st.spad ∧
      ∀ i, t.st.csr.flags.getLsbD i = true ↔
        (s.st.csr.flags.getLsbD i = true ∨ ∃ k, k < 1024 / f.blockLen ∧ (s.blockOf p x a mode k).2.2.getLsbD i = true)) ∧
  ∀ s p x y z c a (m : Nat → Mapped), Runs (.vSt x y z c) p s →
    let f := fmtOf a
    let spot := spotOf a (s.st.reg y) (s.st.reg z)
    let at' := fun i => if i < 1024 then (spot i).1 else scaleSpot a (spot ((i - 1024) * f.blockLen))
    ImageFits a (s.st.reg y) (s.st.reg z) (fun _ => True) → f.scaled = true → RowsOnBlocks a (s.st.reg y) (s.st.reg z) →
    (∃ e, e < 1024 ∧ p.acts s.st e = true) → s.st.UnitsReady [x] →
    (∀ i, i < 1024 + 1024 / f.blockLen → s.Reaches 1 (at' i) .write (m i) ∧ (m i).fmta = a) →
    let mode := p.mode s.st
    let u := (List.range (1024 / f.blockLen)).foldl (fun u k =>
      writeBlockAt a (s.st.reg y) (s.st.reg z) (fun u i => (u.mem.read (m i).pa).toNat)
        (fun u i v => u.engineWrite (m i).pa [BitVec.ofNat 8 v]) (s.blockOf p x a mode k) k u) s
    ∃ t, exec (.vSt x y z c) s = .next t ∧
      t = { u with st := { u.st.advance s.st.nextAddr with
        streams := s.st.consumed [x]
        csr := { s.st.csr with
          flags := t.st.csr.flags, rngCtr := s.st.csr.rngCtr + (if mode = 4 then 1024 else 0) } } } ∧
      ∀ i, t.st.csr.flags.getLsbD i = true ↔
        (s.st.csr.flags.getLsbD i = true ∨ ∃ k, k < 1024 / f.blockLen ∧ (s.blockOf p x a mode k).2.2.getLsbD i = true)

/-- From R231, R232: `v.stop` updates the stop record of each active element and sets its bit of the predicate; what one update
does to a record; and R27, R233: loop words open their nests. -/
def Obligations.StopAndLoopWords : Prop :=
  (∀ s p (d : Reg) y z c (m m2 : Nat → Mapped), Runs (.vStop d y z c) p s → (s.st.reg z).toNat % 64 = 0 →
    s.st.UnitsReady (p.reads s.st [y]) → (∃ e, e < 1024 ∧ p.acts s.st e = true) →
    (∀ e, e < 1024 → p.acts s.st e = true → let va := ((s.st.reg z).toNat + 64 * e) % 2 ^ 64
      s.Reaches 1 va .bankRead (m e) ∧ s.Reaches 1 va .bank (m2 e) ∧ (m2 e).pa = (m e).pa) →
    let u := stopped s p y m 1024
    ∃ t, exec (.vStop d y z c) s = .next t ∧
      t = { u with st := { u.st.advance s.st.nextAddr with vec := t.st.vec, streams := s.st.consumed (p.reads s.st [y]) } } ∧
      TakesBits s t p d fun e =>
        let v := stopped s p y m e
        (stopRecord (v.mem.readNat (m e).pa 64) (s.st.source y e).toNat).2) ∧
  (∀ old tok, tok < 2 ^ 32 → old < 2 ^ 512 → bit old 72 = true → stopRecord old tok = (none, true)) ∧
  (∀ old tok, tok < 2 ^ 32 → old < 2 ^ 512 → bit old 72 = false → bits old 0 32 ≠ 2 ^ 32 - 1 →
    let n := bits old 0 32 + 1
    let hit := ∃ k, k < min (bits old 64 8) 12 ∧ bits old (128 + 32 * k) 32 = tok
    let lim := bits old 32 32 ≠ 0 ∧ bits old 32 32 ≤ n
    ∃ new fin, stopRecord old tok = (some new, fin) ∧ (fin = true ↔ hit ∨ lim) ∧ (bit new 72 = true ↔ hit ∨ lim) ∧
      bits new 0 32 = n ∧ bits new 96 32 = tok ∧ bits new 32 32 = bits old 32 32 ∧ bits new 64 8 = bits old 64 8 ∧
      bits new 128 384 = bits old 128 384 ∧
      (hit → bits new 73 3 = 1) ∧ (¬ hit → lim → bits new 73 3 = 2) ∧ (¬ hit → ¬ lim → bits new 73 3 = 0)) ∧
  OpensNest .vLoop 1 ∧ OpensNest .mLoop 2 ∧ OpensNest .cLoop 3

/-! ## The matrix engine -/

namespace Sys2Proof.Machine

/-- The strand after each row `row0 + r`, r below `nr`, of accumulator `z` has taken `f r`, under R327. -/
def Strand.rowsTaken (t : Strand) (z row0 nr : Nat) (f : Nat → Vector Elem 64) : Strand :=
  (List.range nr).foldl (fun u r => u.setAccRow z (row0 + r) t.place.slot (f r)) t

/-- The 256 bytes of a row, and the row of 256 bytes (R337). -/
def rowImage (v : Vector Elem 64) : List Byte := v.toList.flatMap fun e => bytesOfNat 4 e.toNat
def rowOf (m : Mem) (a : Nat) : Vector Elem 64 := vecGen 64 fun c => BitVec.ofNat 32 (m.readNat (a + 4 * c) 4)

/-- Element `c` of row `r` of an image in a format of whole bytes (R211). -/
def elemAt (a : Nat) (base : Word) (stride r c : Nat) : Nat :=
  ((base.toNat + r * stride) % 2 ^ 64 + c * (fmtOf a).bytes) % 2 ^ 64

/-- The exact activations of row `r` of a pass (R329, R331). -/
def Strand.activations (t : Strand) (act : Word) (sh : Shape) (r : Nat) : List (Fp × Flags) :=
  genFrom sh.k 0 fun k =>
    (fmtOf sh.adesc).exact (t.spad.readNat ((act.toNat + r * sh.astride) % 2 ^ 64 + k * (fmtOf sh.adesc).bytes)
      (fmtOf sh.adesc).bytes) 0

/-- The 64 sums of row `r` of a pass with the weights of a bank: the sums of R144 to R147 over what the row held, or over
zero under INIT. -/
def Strand.passSums (t : Strand) (b : BoltBank) (wd z : Nat) (act : Word) (sh : Shape) (r : Nat) : List (Elem × Flags) :=
  passRow (fmtOf wd).tri ((t.activations act sh r).map Prod.fst) (fun k c => (b.weight wd sh.slot k c).1)
    (fun c => if sh.init then 0 else vget (t.accRow z (sh.row0 + r)).data c 0)

/-- The strand after a pass (R331). -/
def Strand.passed (t : Strand) (b : BoltBank) (wd z : Nat) (act : Word) (sh : Shape) : Strand :=
  t.rowsTaken z sh.row0 sh.nr fun r => vecGen 64 fun c => ((t.passSums b wd z act sh r).getD c (0, 0)).1

/-- The flags that a pass raises: those of its weights, its activations and its sums. -/
def Strand.passFlag (t : Strand) (b : BoltBank) (wd z : Nat) (act : Word) (sh : Shape) (i : Nat) : Prop :=
  (∃ k c, k < sh.k ∧ c < 64 ∧ (b.weight wd sh.slot k c).2.getLsbD i = true) ∨
  ∃ r, r < sh.nr ∧ ((∃ x ∈ t.activations act sh r, x.2.getLsbD i = true) ∨
    ∃ x ∈ t.passSums b wd z act sh r, x.2.getLsbD i = true)

/-- A pass of the current strand goes through (R330): the accumulator is allocated, the bank is current and holds weights
of one descriptor that pair with the activations, and these lie in the scratchpad. -/
def State.PassReady (s : State) (z : Nat) (act : Word) (sh : Shape) (wd : Nat) : Prop :=
  let t := s.st
  let bank := t.mat.bankSel.toNat
  z < t.mat.accs.length ∧ sh.fits = true ∧ (∃ l, t.loadState t.place.member bank = some l ∧ l.stale = false) ∧
  (s.bolt (boltKey t.place.die t.place.tile bank)).passDesc sh.slot sh.k = some wd ∧
  descOk sh.adesc = true ∧ ByteFormat sh.adesc ∧ pairOk (fmtOf wd) (fmtOf sh.adesc) = true ∧
  ∀ r, r < sh.nr →
    (act.toNat + r * sh.astride) % 2 ^ 64 + sh.k * (fmtOf sh.adesc).bytes ≤ t.spadSize

/-- The bank that a strand's passes read. -/
def State.passBank (s : State) : BoltBank :=
  s.bolt (boltKey s.st.place.die s.st.place.tile s.st.mat.bankSel.toNat)

/-- Element `c` of row `r` of an epilogue without a bias (R340), and the bytes that it encodes to. -/
def Strand.epiOut (t : Strand) (z : Nat) (e : Epi) (scale : Option Elem) (r c : Nat) : Elem × Flags :=
  epiElem e.int scale none e.act (vget (t.accRow z (e.row0 + r)).data c 0)
def Strand.epiCode (t : Strand) (z : Nat) (e : Epi) (scale : Option Elem) (mode r c : Nat) : List Byte × Flags :=
  let x := (fmtOf e.ddesc).encode mode (t.drawn mode (r * e.ncol + c)) (fpOf (t.epiOut z e scale r c).1)
  (bytesOfNat (fmtOf e.ddesc).bytes x.1, x.2)

/-- The strand after an epilogue of its own rows to its scratchpad (R340); `t` holds the rows. -/
def Strand.epilogued (t : Strand) (z : Nat) (dst : Word) (e : Epi) (scale : Option Elem) (mode : Nat) : Strand :=
  let u := if e.zero then t.rowsTaken z e.row0 e.nr fun _ => Vector.replicate 64 0 else t
  { u with
    spad := (List.range e.nr).foldl (fun sp r => (List.range e.ncol).foldl (fun sp c =>
      sp.writeBytes (elemAt e.ddesc dst e.dstride r c) (t.epiCode z e scale mode r c).1) sp) t.spad
    csr := { u.csr with rngCtr := u.csr.rngCtr + BitVec.ofNat 64 (if mode = 4 then e.nr * e.ncol else 0) } }

/-- The flags that it raises. -/
def Strand.epiFlag (t : Strand) (z : Nat) (e : Epi) (scale : Option Elem) (mode i : Nat) : Prop :=
  ∃ r c, r < e.nr ∧ c < e.ncol ∧
    ((t.epiOut z e scale r c).2.getLsbD i = true ∨ (t.epiCode z e scale mode r c).2.getLsbD i = true)

/-- An epilogue without a bias to the scratchpad goes through (R341). -/
def State.EpiReady (s : State) (z : Nat) (dst : Word) (e : Epi) : Prop :=
  z < s.st.mat.accs.length ∧ e.fits = true ∧ e.legal = true ∧ e.sp = true ∧ e.bias = false ∧ ByteFormat e.ddesc ∧
  dst.toNat % (fmtOf e.ddesc).bytes = 0 ∧ e.dstride % (fmtOf e.ddesc).bytes = 0 ∧
  ∀ r c, r < e.nr → c < e.ncol → elemAt e.ddesc dst e.dstride r c < s.st.spadSize

/-- A word has put `t` in place of the strand, raised the flags that `f` gives, and nothing else. -/
def StrandStep (s : State) (t : Strand) (f : Nat → Prop) (u : State) : Prop :=
  u = { s with st := { t.advance s.st.nextAddr with csr := { t.csr with flags := u.st.csr.flags } } } ∧
  ∀ i, u.st.csr.flags.getLsbD i = true ↔ (s.st.csr.flags.getLsbD i = true ∨ (i < 8 ∧ f i))

end Sys2Proof.Machine

/-- From R333, R337, R338, R342: the bank select, the accumulator moves, checkpoints and their return, and the records of bank
state and of weight identity. -/
def Obligations.MatrixMoves : Prop :=
  (∀ s p i c, Runs (.mSwap i c) p s →
    exec (.mSwap i c) s = .next (s.did fun t => { t with mat := { t.mat with
      bankSel := if (unsignedImm p i).toNat = 0 then false else if (unsignedImm p i).toNat = 1 then true
        else !t.mat.bankSel } })) ∧
  (∀ s p (x : Reg) y c row0 nr, Runs (.mZero x y c) p s → x.toNat < s.st.mat.accs.length →
    rangeOf (s.st.reg y) = some (row0, nr) →
    exec (.mZero x y c) s = .next (s.did fun t => t.rowsTaken x.toNat row0 nr fun _ => Vector.replicate 64 0)) ∧
  (∀ s p x (y : Reg) z c row0 nr, Runs (.mRdz x y z c) p s → y.toNat < s.st.mat.accs.length → s.st.spadSize < 2 ^ 64 →
    rangeOf (s.st.reg z) = some (row0, nr) → (s.st.reg x).toNat % 4 = 0 → (s.st.reg x).toNat + 256 * nr ≤ s.st.spadSize →
    exec (.mRdz x y z c) s = .next (s.did fun t => { t with
      spad := (List.range nr).foldl (fun sp r =>
        sp.writeBytes ((t.reg x).toNat + 256 * r) (rowImage (t.accRow y.toNat (row0 + r)).data)) t.spad })) ∧
  (∀ s p (x : Reg) y z c row0 nr, Runs (.mWrz x y z c) p s → x.toNat < s.st.mat.accs.length → s.st.spadSize < 2 ^ 64 →
    rangeOf (s.st.reg z) = some (row0, nr) → (s.st.reg y).toNat % 4 = 0 → (s.st.reg y).toNat + 256 * nr ≤ s.st.spadSize →
    exec (.mWrz x y z c) s = .next (s.did fun t =>
      t.rowsTaken x.toNat row0 nr fun r => rowOf t.spad ((t.reg y).toNat + 256 * r))) ∧
  (∀ s p (x y : Reg) (dg sg : BitVec 4) c, Runs (.mCkpt x y sg dg c) p s → x.toNat < s.st.mat.accs.length →
    y.toNat < s.st.mat.accs.length →
    exec (.mCkpt x y sg dg c) s = .next (s.did fun t =>
      (t.copyGroup x.toNat y.toNat dg.toNat sg.toNat).setCkv x.toNat dg.toNat)) ∧
  (∀ s p (x y : Reg) (dg sg : BitVec 4) c a, Runs (.mRest x y sg dg c) p s → x.toNat < s.st.mat.accs.length →
    s.st.mat.accs[y.toNat]? = some a → a.ckv.getLsbD sg.toNat = true →
    exec (.mRest x y sg dg c) s = .next (s.did fun t => t.copyGroup x.toNat y.toNat dg.toNat sg.toNat)) ∧
  (∀ (t : Strand) (x y dg sg i row : Nat), x < t.mat.accs.length → dg < 16 → i < 16 →
    let u := t.copyGroup x y dg sg
    u.accRow x (16 * dg + i) = { t.accRow y (16 * sg + i) with dirty := true } ∧
    (¬ (16 * dg ≤ row ∧ row < 16 * dg + 16) → u.accRow x row = t.accRow x row)) ∧
  (∀ s p x (m : Bool) c, Runs (.mRdv x m c) p s → s.st.spadSize < 2 ^ 64 → (s.st.reg x).toNat % 32 = 0 →
    (s.st.reg x).toNat + 32 ≤ s.st.spadSize →
    let b := s.bolt (boltKey s.st.place.die s.st.place.tile m.toNat)
    let state := match s.st.loadState s.st.place.member m.toNat with
      | none => 0
      | some l => if l.stale then 2 else 1
    exec (.mRdv x m c) s = .next (s.did fun t => { t with
      spad := t.spad.writeBytes (t.reg x).toNat
        (bytesOfNat 16 b.ident ++ bytesOfNat 16 (state + 256 * (t.loadRecord m.toNat).length)) })) ∧
  ∀ s p x y c m, Runs (.mWid x y c) p s → s.st.spadSize < 2 ^ 64 → (s.st.reg x).toNat % 16 = 0 →
    (s.st.reg x).toNat + 16 ≤ s.st.spadSize → s.Reaches 2 (s.st.reg y).toNat .read m →
    exec (.mWid x y c) s = .next (s.did fun t => { t with
      spad := t.spad.writeBytes (t.reg x).toNat
        (bytesOfNat 16 (match s.regionAt t.place.part m.pa with | some w => w.id | none => 0)) })

/-- From R322, R331, R335, R340, R347: `m.ldw` from the scratchpad fills the slots of the strand's bank with its columns, zero
elsewhere; `m.mma` adds a pass to its rows; `m.epi` writes rows out; and `m.mma.g` of a leader alone does both. -/
def Obligations.MatrixPasses : Prop :=
  (∀ s p x y z (bank : Bool) c d k n slot kt span,
    let m : BitVec 3 := if bank then 5 else 4
    Runs (.mLdw x y z m c) p s → loadWordOf (s.st.reg z) true = some (d, k, n, slot) → descOk d = true → ByteFormat d →
    weightTile (fmtOf d) = some (kt, span) → slot + slotCount (fmtOf d) k ≤ 768 → ImageAligned d (s.st.reg x) (s.st.reg y) →
    s.st.spadSize < 2 ^ 64 →
    (∀ col i, col < n → i < k → elemAt d (s.st.reg x) (s.st.reg y).toNat col i < s.st.spadSize) →
    let f := fmtOf d
    let key := boltKey s.st.place.die s.st.place.tile bank.toNat
    let cell := fun i col => f.exact (s.st.spad.readNat (elemAt d (s.st.reg x) (s.st.reg y).toNat col i) f.bytes) 0
    s.rowsInFlight key s.st.steered false = false →
    ∃ t, exec (.mLdw x y z m c) s = .next t ∧
      t = { s with
        bolts := t.bolts, others := t.others
        st := { s.st.advance s.st.nextAddr with
          mat := { s.st.mat with loads := t.st.mat.loads, records := t.st.mat.records }
          csr := { s.st.csr with flags := t.st.csr.flags } } } ∧
      (∀ b, t.st.csr.flags.getLsbD b = true ↔ (s.st.csr.flags.getLsbD b = true ∨
        ∃ i col, i < k ∧ col < n ∧ (cell i col).2.getLsbD b = true)) ∧
      (∀ i col, i < slotCount f k * slotRows f → col < 64 → (t.bolt key).weight d slot i col =
        if i < k ∧ col < n then cell i col else f.exact 0 0) ∧
      (t.bolt key).passDesc slot k = some d ∧ (t.bolt key).ident = 0 ∧
      (∀ x, ¬ (slot ≤ x.1 ∧ x.1 < slot + slotCount f k) → (x ∈ (t.bolt key).slots ↔ x ∈ (s.bolt key).slots)) ∧
      (∀ key', key' ≠ key → t.bolt key' = s.bolt key') ∧
      List.Forall₂ (fun x y => y = { x with
        mat := { x.mat with loads := y.mat.loads }, queues := (s.restartLoads key x).queues }) s.others t.others ∧
      (∃ l, t.st.loadState s.st.place.member bank.toNat = some l) ∧
      ∃ r, t.st.loadRecord bank.toNat = (s.st.loadRecord bank.toNat ++ [r]).drop ((s.st.loadRecord bank.toNat).length - 15) ∧
        r.word = .mLdw x y z m c ∧ r.mask = 2 ^ s.st.place.member ∧ r.pfx = p ∧ r.opX = s.st.reg x ∧ r.opY = s.st.reg y ∧ r.opZ = s.st.reg z) ∧
  (∀ s p (x : Reg) y z c wd, Runs (.mMma x y z c) p s →
    let sh := shapeOf (s.st.reg z)
    let act := s.st.reg y
    s.PassReady x.toNat act sh wd →
    ∃ u, exec (.mMma x y z c) s = .next u ∧
      StrandStep s (s.st.passed s.passBank wd x.toNat act sh) (s.st.passFlag s.passBank wd x.toNat act sh) u) ∧
  (∀ s p x (y : Reg) z c, Runs (.mEpi x y z c) p s →
    let e := epiOf (s.st.reg z)
    let scale := if e.scale then some ((extValue s.st p 1).setWidth 32) else none
    let mode := p.mode s.st
    s.EpiReady y.toNat (s.st.reg x) e → extValue s.st p 2 = 0 →
    ∃ u, exec (.mEpi x y z c) s = .next u ∧
      StrandStep s (s.st.epilogued y.toNat (s.st.reg x) e scale mode) (s.st.epiFlag y.toNat e scale mode) u) ∧
  ∀ s p (x : Reg) y z c wd, Runs (.mMmaG x y z c) p s →
    let sh := shapeOf (s.st.reg z)
    let act := s.st.reg y
    let e := epiOf (extValue s.st p 0)
    let dst := extValue s.st p 1
    let mode := p.mode s.st
    s.PassReady x.toNat act sh wd → s.EpiReady x.toNat dst e → e.scale = false → extValue s.st p 2 = 1 →
    s.st.place.member = 0 → 1 ≤ s.st.place.size →
    let v := s.st.passed s.passBank wd x.toNat act sh
    ∃ u, exec (.mMmaG x y z c) s = .next u ∧
      StrandStep s (v.epilogued x.toNat dst e none mode)
        (fun i => s.st.passFlag s.passBank wd x.toNat act sh i ∨ v.epiFlag x.toNat e none mode i) u

namespace Sys2Proof.Machine

/-- The tasks that a cancel word ends (R367), by die and number: a ring may have tasks in the Drapers of several dies (R46). -/
def State.cancelled (s : State) (ring : Nat) (all : Bool) (tag : Word) : List (Nat × Nat) :=
  s.drapers.flatMap fun d => (d.2.tasks.filter fun t =>
    t.slot == s.st.place.slot && t.ring == ring && (t.st == .waiting || t.st == .ready) && (all || t.tag == tag.toNat % 2 ^ 16)).map
      fun t => (d.1, t.id)

/-- A submission of `n` units to the ring at `ring` hands over one record, which becomes the task `k`, and leaves `u`: TAIL has
passed the record (R358 to R365). -/
def State.Submits (s : State) (ring n : Nat) (k : DTask) (u : State) : Prop :=
  ∃ (m mt mw mr : Mapped) (ms : Nat → Mapped),
    let die := s.st.place.die
    let r := ringDescOf (s.peekNat s.st.who m.pa 64)
    let tail := s.mem.readNat mt.pa 4
    let unit := fun i => s.peekNat s.st.who (ms i).pa 64
    let nr := bits (unit 0) 392 6
    let d := s.draper die
    ring % 64 = 0 ∧ s.Reaches 2 ring .bankRead m ∧ r.legal = true ∧ (r.tail - r.head).toNat + n ≤ r.units ∧
    s.Reaches 2 (ring + 16) .bankRead mt ∧ s.Reaches 2 (ring + 16) .bank mw ∧ mw.pa = mt.pa ∧
    (∀ i, i < n → s.Reaches 2 (r.unitVa (BitVec.ofNat 32 tail + BitVec.ofNat 32 i)) .read (ms i)) ∧
    1 ≤ nr ∧ nr ≤ 60 ∧ n = recordUnits nr ∧ s.mayTakeSlot die s.st.place.fn = true ∧
    s.Reaches 2 (bits (unit 0) 192 64) .read mr ∧
    checkRecord s s.st.place r ring (r.unitVa (BitVec.ofNat 32 tail)) (BitVec.ofNat 32 tail) (unit 0)
      ((genFrom (n - 1) 1 unit).foldr (fun u n => n * 2 ^ 512 + u) 0) s = .ok (.inr k) s ∧
    u = ((s.setDraper die { d with tasks := d.tasks ++ [k], nextTask := d.nextTask + 1 }).refreshReady).writeHomeNat
      mw.pa 4 ((tail + n) % 2 ^ 32)

end Sys2Proof.Machine

/-- From R358 to R367: `m.tsub` hands one record over, which becomes a task, and TAIL passes it; `m.tqry` reports free slots, slots
held, and a task's time and state, in the bytes of its 16 that lie in the allocation (log 30); `m.tcan` ends the tasks of its ring, or of a tag, that no pass has taken. -/
def Obligations.DraperWords : Prop :=
  (∀ s p x y c k u, Runs (.mTsub x y c) p s → s.Submits (s.st.reg x).toNat ((s.st.reg y).toNat % 2 ^ 32) k u →
    exec (.mTsub x y c) s = .next (u.did id)) ∧
  (∀ s p x y c, Runs (.mTqry x y c) p s → (s.st.reg x).toNat % 16 = 0 →
    let d := s.draper s.st.place.die
    let held := (d.tasks.filter fun t => t.slot == s.st.place.slot).length
    let k := d.tasks.find? fun t => t.slot == s.st.place.slot && t.recVa == (s.st.reg y).toNat
    let left := match k with | some t => if t.st = .ready then t.deadline - s.clock else 0 | none => 0
    let st := match k with
      | none => 0
      | some t => match t.st with | .waiting => 1 | .ready => 2 | .formed => 3 | .running => 4 | .parked => 5
    exec (.mTqry x y c) s = .next (s.did fun t => { t with
      spad := t.spad.writeBytes (t.reg x).toNat
        ((bytesOfNat 8 ((4096 - d.tasks.length) * 2 ^ 48 + held % 2 ^ 16 * 2 ^ 32 + left % 2 ^ 16 * 2 ^ 16 + st) ++
          bytesOfNat 8 0).take (s.st.spadSize - (s.st.reg x).toNat)) })) ∧
  (∀ s p x y g c m, Runs (.mTcan x y g c) p s → (s.st.reg x).toNat % 64 = 0 → s.Reaches 2 (s.st.reg x).toNat .bankRead m →
    (ringDescOf (s.peekNat s.st.who m.pa 64)).legal = true →
    let u := (s.cancelled (s.st.reg x).toNat g (s.st.reg y)).foldl (fun u k => u.run (endTask k.1 k.2 3)) s
    exec (.mTcan x y g c) s = .next (u.did id) ∧ u.st = s.st) ∧
  ∀ (s : State) (die id res : Nat),
    let u := s.run (endTask die id res)
    u.st = s.st ∧ u.others = s.others ∧ (∀ t ∈ (u.draper die).tasks, t.id ≠ id) ∧
    (u.draper die).tasks.map DTask.id = ((s.draper die).tasks.filter fun t => t.id != id).map DTask.id

/-! ## The copy engine -/

namespace Sys2Proof.Machine

/-- One side of a unit is ready: `n` bytes at `a`, whose lines in memory `m` maps, or in the scratchpad. -/
def State.SideReady (s : State) (d : Side) (write : Bool) (a n : Nat) (m : Nat → Mapped) : Prop :=
  a < 2 ^ 64 ∧ match d with
    | .mem => ∀ q ∈ pieces (n / 64 + 2) a n,
        s.Cached 3 s.st.place.slot q.1 (if write then .write else .read) (m q.1) ∧ (write = false → s.PlainAt (m q.1).pa)
    | .spad => a + n ≤ s.st.spadSize

/-- Write bytes to lines of memory, one after the other. -/
def State.putLines (m : Nat → Mapped) : List (Nat × Nat) → List Byte → State → State
  | [], _, s => s
  | q :: rest, bs, s => State.putLines m rest (bs.drop q.2) (s.engineWrite (m q.1).pa (bs.take q.2))

/-- The bytes of a side, and the state after they are written to it. -/
def State.sideBytes (s : State) (d : Side) (a n : Nat) (m : Nat → Mapped) : List Byte :=
  match d with
  | .mem => (pieces (n / 64 + 2) a n).flatMap fun q => s.peekBytes s.st.who (m q.1).pa q.2
  | .spad => s.st.spad.readBytes a n
def State.sideWrite (s : State) (d : Side) (a : Nat) (m : Nat → Mapped) (bs : List Byte) : State :=
  match d with
  | .mem => State.putLines m (pieces (bs.length / 64 + 2) a bs.length) bs s
  | .spad => { s with st := { s.st with spad := s.st.spad.writeBytes a bs } }

/-- The units of a copy: unit `k` goes from `place k`'s second place to its first, so many bytes; each is read before it is
written, in order (R241). -/
def State.copied (s : State) (dst src : Side) (place : Nat → Nat × Nat × Nat) (m : Nat → Mapped) : Nat → State
  | 0 => s
  | k + 1 =>
    let u := s.copied dst src place m k
    let q := place k
    u.sideWrite dst q.1 m (u.sideBytes src q.2.1 q.2.2 m)

/-- Both sides of every unit are ready. -/
def State.UnitsReady (s : State) (dst src : Side) (place : Nat → Nat × Nat × Nat) (m : Nat → Mapped) (n : Nat) : Prop :=
  ∀ k, k < n → s.SideReady dst true (place k).1 (place k).2.2 m ∧ s.SideReady src false (place k).2.1 (place k).2.2 m

/-- The places of the units of a copy of `len` bytes. -/
def linear (a b len : Nat) (k : Nat) : Nat × Nat × Nat := (a + 64 * k, b + 64 * k, min 64 (len - 64 * k))

/-- Bytes `lo` up to `hi` and `lo'` up to `hi'` do not meet. -/
def Apart (lo hi lo' hi' : Nat) : Prop := hi ≤ lo' ∨ hi' ≤ lo

end Sys2Proof.Machine

/-- From R237 to R241, R247, R251 to R253: `c.cp` by its eight routes, `c.cpd` over its two nests, `c.fill`, each with the signals
of its completion word. -/
def Obligations.CopyWords : Prop :=
  (∀ s p x y z (f : BitVec 3) c (m : Nat → Mapped) q, Runs (.cCp x y z f c) p s → f.toNat < 4 →
    let w := completionOf (extValue s.st p 0)
    let src := if f.getLsbD 1 then Side.spad else Side.mem
    let dst := if f.getLsbD 0 then Side.spad else Side.mem
    let len := (s.st.reg z).toNat
    let place := linear (s.st.reg x).toNat (s.st.reg y).toNat len
    s.UnitsReady dst src place m ((len + 63) / 64) → w.land = false →
    (if w.arr then (s.st.bar w.g).expect ≠ 0 ∧ (s.st.bar w.g).engineArrive = some q else q = s.st.bar w.g) →
    exec (.cCp x y z f c) s =
      .next ((s.copied dst src place m ((len + 63) / 64)).did fun t => t.setBar w.g q)) ∧
  (∀ s p x y z (f : BitVec 3) c (m : Nat → Mapped) q, Runs (.cCp x y z f c) p s → 4 ≤ f.toNat →
    let w := completionOf (extValue s.st p 0)
    let src := if f.toNat = 4 then Side.mem else Side.spad
    let dst := if f.toNat = 5 then Side.mem else Side.spad
    let fills := f.getLsbD 0 = false
    let len := (s.st.reg z).toNat
    let r := s.st.ring w.h
    let off := fun v : Word => r.slotOffset (v.setWidth 32)
    let place := linear (if fills then off (s.st.reg x) else (s.st.reg x).toNat)
      (if fills then (s.st.reg y).toNat else off (s.st.reg y)) len
    r.count ≠ 0 → len ≤ r.slot * 64 →
    (if fills then seqLe ((s.st.reg x).setWidth 32 + 1) (r.head + BitVec.ofNat 32 r.count) = true
      else seqLe ((s.st.reg y).setWidth 32 + 1) r.tail = true) →
    s.UnitsReady dst src place m ((len + 63) / 64) → w.land = false → w.arr = false →
    (if w.adv then (if fills then r.advanceTail 1 else r.advanceHead 1) = .done q else q = r) →
    exec (.cCp x y z f c) s =
      .next ((s.copied dst src place m ((len + 63) / 64)).did fun t => t.setRing w.h q)) ∧
  (∀ s p x y z (f : BitVec 2) c (m : Nat → Mapped), Runs (.cCpd x y z f c) p s → extValue s.st p 1 = 0 →
    let src := if f.getLsbD 1 then Side.spad else Side.mem
    let dst := if f.getLsbD 0 then Side.spad else Side.mem
    let dd := s.st.desc ((extValue s.st p 0).toNat % 8)
    let ds := s.st.desc ((extValue s.st p 0).toNat / 16 % 8)
    let len := (s.st.reg z).toNat
    let per := (len + 63) / 64
    let place := fun k =>
      let i := nestIndices dd (k / per)
      (((s.st.reg x) + wordOfInt (nestSum dd i 0) + BitVec.ofNat 64 (64 * (k % per))).toNat,
       ((s.st.reg y) + wordOfInt (nestSum ds i 0) + BitVec.ofNat 64 (64 * (k % per))).toNat, min 64 (len - 64 * (k % per)))
    descDims dd ≠ 0 → s.UnitsReady dst src place m (descCount dd * per) →
    exec (.cCpd x y z f c) s = .next ((s.copied dst src place m (descCount dd * per)).did id)) ∧
  ∀ s p x y i c (m : Nat → Mapped), Runs (.cFill x y i c) p s → extValue s.st p 0 = 0 →
    let v := (unsignedImm p i).toNat
    let dst := if v < 256 then Side.mem else Side.spad
    let len := (s.st.reg y).toNat
    let a := (s.st.reg x).toNat
    (∀ k, k < (len + 63) / 64 → s.SideReady dst true (a + 64 * k) (min 64 (len - 64 * k)) m) →
    exec (.cFill x y i c) s = .next (((List.range ((len + 63) / 64)).foldl (fun u k =>
      u.sideWrite dst (a + 64 * k) m (List.replicate (min 64 (len - 64 * k)) (BitVec.ofNat 8 v))) s).did id)

/-- From R254, R255: `c.gath` and `c.scat` move elements by their indices, and `c.cvt` converts elements of scratchpad, each with
one rounding; the index array, the source and the destination stand apart. -/
def Obligations.GatherAndConvert : Prop :=
  (∀ s p x y z (f : BitVec 3) c (m : Nat → Mapped), Runs (.cGath x y z f c) p s → extValue s.st p 1 = 0 →
    let e : Nat := 2 ^ (f.toNat + 2)
    let n := if (extValue s.st p 0).toNat % 2 ^ 16 = 0 then 2 ^ 16 else (extValue s.st p 0).toNat % 2 ^ 16
    let a := (s.st.reg x).toNat
    let z0 := (s.st.reg z).toNat
    let index := fun k : Nat => sextNat (s.st.spad.readNat (z0 + 4 * k) 4) 32
    let place : Nat → Nat × Nat × Nat := fun k => (a + k * e, (s.st.reg y + wordOfInt (index k * (e : Int))).toNat, e)
    z0 % 4 = 0 → z0 + 4 * n ≤ s.st.spadSize → s.st.spadSize < 2 ^ 64 → Apart a (a + n * e) z0 (z0 + 4 * n) →
    (∀ k, k < n → (place k).1 % min e 64 = 0 ∧ (place k).2.1 % min e 64 = 0) →
    s.UnitsReady .spad .mem place m n →
    exec (.cGath x y z f c) s = .next ((s.copied .spad .mem place m n).did id)) ∧
  (∀ s p x y z (f : BitVec 3) c (m : Nat → Mapped), Runs (.cScat x y z f c) p s → extValue s.st p 1 = 0 →
    let e : Nat := 2 ^ (f.toNat + 2)
    let n := if (extValue s.st p 0).toNat % 2 ^ 16 = 0 then 2 ^ 16 else (extValue s.st p 0).toNat % 2 ^ 16
    let b := (s.st.reg y).toNat
    let z0 := (s.st.reg z).toNat
    let index := fun k : Nat => sextNat (s.st.spad.readNat (z0 + 4 * k) 4) 32
    let place : Nat → Nat × Nat × Nat := fun k => ((s.st.reg x + wordOfInt (index k * (e : Int))).toNat, b + k * e, e)
    z0 % 4 = 0 → z0 + 4 * n ≤ s.st.spadSize → s.st.spadSize < 2 ^ 64 →
    (∀ k, k < n → (place k).1 % min e 64 = 0 ∧ (place k).2.1 % min e 64 = 0) →
    s.UnitsReady .mem .spad place m n →
    exec (.cScat x y z f c) s = .next ((s.copied .mem .spad place m n).did id)) ∧
  ∀ s p x y z c, Runs (.cCvt x y z 3 c) p s → extValue s.st p 1 = 0 →
    let n := (s.st.reg z).toNat % 2 ^ 32
    let source := (extValue s.st p 0).toNat % 2 ^ 8
    let into := (extValue s.st p 0).toNat / 2 ^ 8 % 2 ^ 8
    let sf := fmtOf source
    let df := fmtOf into
    let a := (s.st.reg x).toNat
    let b := (s.st.reg y).toNat
    let mode := p.mode s.st
    let out := fun j => df.encode mode (s.st.drawn mode j) (sf.exact (s.st.spad.readNat (b + j * sf.bytes) sf.bytes) 0).1
    descOk source = true → descOk into = true → ByteFormat source → ByteFormat into →
    a + n * df.bytes ≤ s.st.spadSize → b + n * sf.bytes ≤ s.st.spadSize → s.st.spadSize < 2 ^ 64 →
    Apart a (a + n * df.bytes) b (b + n * sf.bytes) →
    ∃ u, exec (.cCvt x y z 3 c) s = .next u ∧
      StrandStep s { s.st with
        spad := (List.range n).foldl (fun sp j => sp.writeBytes (a + j * df.bytes) (bytesOfNat df.bytes (out j).1)) s.st.spad
        csr := { s.st.csr with rngCtr := s.st.csr.rngCtr + BitVec.ofNat 64 (if mode = 4 then n else 0) } }
        (fun i => ∃ j, j < n ∧ (out j).2.getLsbD i = true) u

/-! ## The bank engine -/

namespace Sys2Proof.Machine

/-- Engine `eng` translates an access of the current strand at once, with nothing to note in tables or caches, and no poison
or replay counter stands in the way. -/
def State.Maps (s : State) (eng va : Nat) (acc : AccessKind) (m : Mapped) : Prop :=
  mapAccess eng s.st.place.slot va acc s = .ok m s ∧ s.PlainAt m.pa

/-- A bank word has done `f` to its strand, in the state `u` that it left memory in; `.acq` opens (R74). -/
def State.banked (u : State) (p : Prefixes) (f : Strand → Strand) : State := (u.did f).opened p

/-- A completion word that asks for no landing and no arrival. -/
def quietWord (w : Word) : Prop := (completionOf w).land = false ∧ (completionOf w).arr = false

/-- An atomic of R299: `f` takes the width in bits, the old value and the operand. `.rel` closes first (R74). -/
def Atomic (w : Reg → Reg → Reg → Bool → Bool → Bool → Instr) (host : Bool) (f : Nat → Nat → Nat → Nat) : Prop :=
  ∀ s s0 p x y z r d c m m2, Runs (w x y z r d c) p s → bankClose p s = .ok () s0 →
    let k := if d then 8 else 4
    let ea := (s.st.reg x).toNat
    let o := (s.st.reg z).toNat
    ea % k = 0 → s0.Maps 4 ea .bankRead m → s0.Maps 4 ea .bank m2 → m2.pa = m.pa → (host = true ∨ m.pa < hostBase) →
    (r = true → o % k = 0 ∧ o + k ≤ s.st.spadSize) → quietWord (extValue s.st p 0) →
    let old := s0.mem.readNat m.pa k
    let u := s0.engineWrite m.pa (bytesOfNat k (f (8 * k) old ((s.st.reg y).toNat % 2 ^ (8 * k)) % 2 ^ (8 * k)))
    exec (w x y z r d c) s = .next (u.banked p fun t =>
      if r then { t with spad := t.spad.writeBytes o (bytesOfNat k old) } else t)

/-- The states that an element-wise update of R301 goes through, with its flags: element `j` at `m j` becomes what `f` makes
of it and of the scratchpad's element, each result rounded once to the element's format. -/
def State.reduced (s : State) (fm : Fmt) (src : Option Nat) (m : Nat → Mapped) (f : Fp → Fp → Fp × Flags) :
    Nat → State × Flags
  | 0 => (s, 0)
  | j + 1 =>
    let v := s.reduced fm src m f j
    let y := match src with | some o => s.st.spad.readNat (o + j * fm.bytes) fm.bytes | none => 0
    let r := f (fm.value (v.1.mem.readNat (m j).pa fm.bytes)) (fm.value y)
    let z := fm.encode 0 0 r.1
    (v.1.engineWrite (m j).pa (bytesOfNat fm.bytes z.1), v.2 ||| r.2 ||| z.2)

/-- A floating-point word of R301 over elements of format `fm`; `src` is its scratchpad operand and `comp` its completion
word. -/
def Reduces (i : Instr) (z : Reg) (x : Reg) (fm : Fmt) (src : State → Option Nat) (comp : Prefixes → State → Word)
    (f : Prefixes → State → Fp → Fp → Fp × Flags) : Prop :=
  ∀ s s0 p (m m2 : Nat → Mapped), Runs i p s → bankClose p s = .ok () s0 →
    let k := (s.st.reg z).toNat % 2 ^ 16
    let n := if k = 0 then 2 ^ 16 else k
    let ea := fun j => (s.st.reg x).toNat + j * fm.bytes
    (s.st.reg x).toNat % fm.bytes = 0 → ea n < 2 ^ 64 →
    (∀ o, src s = some o → o % fm.bytes = 0 ∧ o + n * fm.bytes ≤ s.st.spadSize ∧ s.st.spadSize < 2 ^ 64) →
    quietWord (comp p s) →
    (∀ j, j < n → let v := (s0.reduced fm (src s) m (f p s) j).1
      v.Maps 4 (ea j) .bankRead (m j) ∧ v.Maps 4 (ea j) .bank (m2 j) ∧ (m2 j).pa = (m j).pa ∧ (m j).pa < hostBase) →
    let u := s0.reduced fm (src s) m (f p s) n
    exec i s = .next (u.1.banked p fun t => { t with csr := { t.csr with flags := t.csr.flags ||| u.2 } })

end Sys2Proof.Machine

/-- From R74, R295 to R299: the atomics. The old value is read and the new one written at the home in one step; it returns where
the word asks for it; a `b.cas` whose comparison fails writes nothing. -/
def Obligations.BankAtomics : Prop :=
  Atomic .bAdd true (fun _ a b => a + b) ∧
  Atomic .bMin false (fun n a b => if sextNat b n < sextNat a n then b else a) ∧
  Atomic .bMax false (fun n a b => if sextNat a n < sextNat b n then b else a) ∧
  Atomic .bMinu false (fun _ a b => min a b) ∧ Atomic .bMaxu false (fun _ a b => max a b) ∧
  Atomic .bAnd false (fun _ a b => a &&& b) ∧ Atomic .bOr false (fun _ a b => a ||| b) ∧
  Atomic .bXor false (fun _ a b => a ^^^ b) ∧ Atomic .bSwap true (fun _ _ b => b) ∧
  (∀ s s0 p x y z r d c m m2, Runs (.bCas x y z r d c) p s → bankClose p s = .ok () s0 →
    let k := if d then 8 else 4
    let ea := (s.st.reg x).toNat
    let o := (extValue s.st p 0).toNat
    ea % k = 0 → s0.Maps 4 ea .bankRead m → s0.Maps 4 ea .bank m2 → m2.pa = m.pa →
    (r = true → o % k = 0 ∧ o + k ≤ s.st.spadSize) → quietWord (extValue s.st p 1) →
    let old := s0.mem.readNat m.pa k
    let u := if old = (s.st.reg y).toNat % 2 ^ (8 * k) then
      s0.engineWrite m.pa (bytesOfNat k ((s.st.reg z).toNat % 2 ^ (8 * k))) else s0
    exec (.bCas x y z r d c) s = .next (u.banked p fun t =>
      if r then { t with spad := t.spad.writeBytes o (bytesOfNat k old) } else t)) ∧
  (∀ s s0 p x y (z : Reg) (k : BitVec 2) d c m, Runs (.bWait x y z k d c) p s → bankClose p s = .ok () s0 →
    let w := if d then 8 else 4
    (s.st.reg x).toNat % w = 0 → s0.Maps 4 (s.st.reg x).toNat .bankRead m → m.pa < hostBase →
    quietWord (extValue s.st p 0) → (∀ b ∈ s0.bankWaits, b.gang ≠ s.st.place.gang ∨ b.member ≠ s.st.place.member) →
    let mask := if z = 0 then 2 ^ (8 * w) - 1 else (s.st.reg z).toNat % 2 ^ (8 * w)
    let v := s0.mem.readNat m.pa w &&& mask
    let t := (s.st.reg y).toNat % 2 ^ (8 * w) &&& mask
    (match k.toNat with
      | 0 => v = t | 1 => v ≠ t | 2 => t ≤ v | _ => sextNat t (8 * w) ≤ sextNat v (8 * w)) →
    exec (.bWait x y z k d c) s = .next (s0.banked p id)) ∧
  (∀ x y z c, Reduces (.bFadd x y z c) z x (fmtOf 0) (fun s => some (s.st.reg y).toNat) (fun p s => extValue s.st p 0)
    fun _ _ a b => fpAdd 0 a b) ∧
  (∀ x y z c, Reduces (.bFadb x y z c) z x (fmtOf 2) (fun s => some (s.st.reg y).toNat) (fun p s => extValue s.st p 0)
    fun _ _ a b => fpAdd 0 a b) ∧
  (∀ x y z t c, Reduces (.bScal x y z t c) z x (fmtOf (if t then 2 else 0)) (fun _ => none) (fun p s => extValue s.st p 0)
    fun _ s a _ => fpMul (fpOf ((s.st.reg y).setWidth 32)) a) ∧
  ∀ x y z t c, Reduces (.bAxpy x y z t c) z x (fmtOf (if t then 2 else 0)) (fun s => some (s.st.reg y).toNat)
    (fun p s => extValue s.st p 1) fun p s a b =>
      let q := fpMul (fpOf ((extValue s.st p 0).setWidth 32)) b
      let r := fpAdd 0 q.1 a
      (r.1, r.2 ||| q.2)

namespace Sys2Proof.Machine

/-- An address lies in granule `g` of the region `r` of the current context, by the frame that is mapped there; no slot of a
version of the granule has been spoiled (R307). -/
def State.GranuleAt (s : State) (va : Nat) (acc : AccessKind) (r : VRegion) (g : Nat) : Prop :=
  ∃ m i, mapAccess 4 s.st.place.slot va acc s = .ok m s ∧ m.pa < hostBase ∧ s.regionOf s.st.place.slot va = some r ∧
    (r.frames.findIdx? fun f => f.frame == m.pa / 65536) = some i ∧ g = i * 1024 + m.pa % 65536 / 64 ∧
    s.spoiled.contains (r.ctx, r.base, g) = false

/-- A versioned load of one granule finds its data and puts it, with the version's number under `.t`, in the scratchpad. -/
def VersionLoad (w : Reg → Reg → Reg → Bool → Bool → Instr) (le : Bool) : Prop :=
  ∀ s p x y z t c r g d n, Runs (w x y z t c) p s → (extValue s.st p 0).toNat % 2 ^ 10 = 0 → quietWord (extValue s.st p 1) →
    let o := (s.st.reg x).toNat
    let va := (s.st.reg y).toNat
    let u := s.expireVersions
    o % 64 = 0 → va % 64 = 0 → o + (if t then 72 else 64) ≤ s.st.spadSize →
    (∀ v ∈ s.versWaits, v.gang ≠ s.st.place.gang ∨ v.member ≠ s.st.place.member) → u.GranuleAt va .vload r g →
    u.lookVersion r g ((s.st.reg z).toNat % 2 ^ 32) le = some (.data d n) → s.PlainAt (r.granPa g) →
    exec (w x y z t c) s = .next (u.did fun t' => { t' with
      spad := t'.spad.writeBytes o (bytesOfNat 64 d.toNat ++ (if t then bytesOfNat 8 n else [])) })

end Sys2Proof.Machine

/-- From R306, R311 to R316: a store creates a version above the newest and at or above the floor, within the quota; a load finds
the version that it names, or the newest at or below it; `b.vnew` and `b.vfloor` report, and `b.vretire` raises the floor. What
a home bank answers is stated for each place of a number among the base, the floor and the Live versions. -/
def Obligations.VersionedWords : Prop :=
  (∀ s p x y z c r g, Runs (.bVst x y z c) p s → (extValue s.st p 0).toNat % 2 ^ 10 = 0 → quietWord (extValue s.st p 1) →
    let va := (s.st.reg x).toNat
    let o := (s.st.reg y).toNat
    let v := (s.st.reg z).toNat % 2 ^ 32
    va % 64 = 0 → o % 64 = 0 → o + 64 ≤ s.st.spadSize → s.GranuleAt va .vcheck r g → s.GranuleAt va .vstore r g →
    r.newest g < v → r.floor ≤ v → r.count ≠ r.quota →
    let d := BitVec.ofNat 512 (s.st.spad.readNat o 64)
    exec (.bVst x y z c) s =
      .next (((s.setRegion { r with vers := r.vers ++ [⟨g, v, d, none⟩] }).serveVersion r g v d).did id)) ∧
  VersionLoad .bVld false ∧ VersionLoad .bVldLe true ∧
  (∀ (s : State) (r : VRegion) (g v : Nat) (le : Bool),
    let base := VAnswer.data (BitVec.ofNat 512 (s.mem.readNat (r.granPa g) 64)) (r.baseOf g)
    (v < r.baseOf g → s.lookVersion r g v le = some (.miss 2)) ∧
    (r.baseOf g ≤ v → v < r.floor → s.lookVersion r g v false = some (.miss 2)) ∧
    (r.floor ≤ v → v = r.baseOf g → s.lookVersion r g v false = some base) ∧
    (r.floor ≤ v → r.baseOf g < v → ∀ u, (r.live g).find? (fun u => u.num == v) = some u →
      s.lookVersion r g v false = some (.data (s.versionData r u) v)) ∧
    (r.floor ≤ v → r.baseOf g < v → (∀ u ∈ r.live g, u.num ≠ v) →
      s.lookVersion r g v false = if v < r.newest g then some (.miss 3) else none) ∧
    (r.baseOf g ≤ v → (∀ u ∈ r.live g, v < u.num) → s.lookVersion r g v true = some base) ∧
    (r.baseOf g ≤ v → (∃ u ∈ r.live g, u.num ≤ v) → ∃ u ∈ r.live g, u.num ≤ v ∧ (∀ w ∈ r.live g, w.num ≤ v → w.num ≤ u.num) ∧
      s.lookVersion r g v true = some (.data (s.versionData r u) u.num))) ∧
  (∀ s p x y c r g, Runs (.bVretire x y c) p s → let f := (s.st.reg y).toNat % 2 ^ 32
    s.GranuleAt (s.st.reg x).toNat .vcheck r g →
    (∀ v ∈ r.vers, v.num < f → s.weightFrame (r.granPa v.gran) = false) →
    exec (.bVretire x y c) s = .next ((if r.floor < f then s.raiseFloor r f else s).did id)) ∧
  (∀ s p x y c r g, Runs (.bVnew x y c) p s → (s.st.reg x).toNat % 8 = 0 → (s.st.reg x).toNat + 8 ≤ s.st.spadSize →
    s.GranuleAt (s.st.reg y).toNat .vload r g →
    exec (.bVnew x y c) s = .next (s.did fun t => { t with
      spad := t.spad.writeBytes (t.reg x).toNat (bytesOfNat 8 (r.newest g)) })) ∧
  ∀ s p x y c r g, Runs (.bVfloor x y c) p s → (s.st.reg x).toNat % 8 = 0 → (s.st.reg x).toNat + 8 ≤ s.st.spadSize →
    s.GranuleAt (s.st.reg y).toNat .vload r g →
    exec (.bVfloor x y c) s = .next (s.did fun t => { t with
      spad := t.spad.writeBytes (t.reg x).toNat (bytesOfNat 8 r.floor) })

namespace Sys2Proof.Machine

/-- The frames of a region, or of its overflow area, lie apart in memory that takes every write: none is poisoned or sealed with
integrity, and a write there notes nothing in a dirty bitmap of function `fn`. -/
def State.PlainFrames (s : State) (fn : Nat) (fs : List VFrame) : Prop :=
  (fs.map VFrame.frame).Nodup ∧ ((s.fn fn).trans.dbmEn = false ∨ ∀ f ∈ fs, f.ipa = none) ∧
  ∀ f ∈ fs, (s.frameAt (f.frame * 65536)).sealMode ≠ 2 ∧ ∀ l ∈ s.poison, l / 1024 ≠ f.frame

/-- The region that the record `rc` at `recVa` makes at `va` for the current strand's context, in these frames. -/
def State.newRegion (s : State) (va recVa : Nat) (rc : RegionRec) (fs os : List VFrame) : VRegion :=
  { ctx := s.st.place.slot, fn := s.st.place.fn, part := s.st.place.part, recVa := recVa, base := va, pages := rc.pages
    ovf := rc.ovf, quota := rc.quota, floor := rc.floor, base0 := rc.floor, bases := [], vers := [], frames := fs
    ovfFrames := os }

/-- The conditions of R308 to register a region, up to its table and slots. -/
def State.Registers (s : State) (va recVa : Nat) (m : Mapped) (rc : RegionRec) (fs os : Nat → VFrame) : Prop :=
  va % 65536 = 0 ∧ recVa % 64 = 0 ∧ s.Maps 4 recVa .read m ∧ m.pa < hostBase ∧ rc = regionRecOf (s.mem.readNat m.pa 64) ∧
  1 ≤ rc.pages ∧ rc.pages ≤ 65536 ∧ rc.ovf % 65536 = 0 ∧
  (∀ r ∈ s.regions, r.ctx = s.st.place.slot → va + rc.pages * 65536 ≤ r.base ∨ r.base + r.pages * 65536 ≤ va) ∧
  (s.regions.filter fun r => r.ctx == s.st.place.slot).length < 32 ∧
  (s.regions.filter fun r => r.part == s.st.place.part).length < 1024 ∧
  (∀ i, i < rc.pages → registerPage ((va + 65536 * i) % 2 ^ 64) .vcheck s = .ok (fs i) s) ∧
  ∀ i, i < (65536 * ((rc.pages + 15) / 16) + 128 * rc.quota + 65535) / 65536 →
    registerPage ((rc.ovf + 65536 * i) % 2 ^ 64) .bankRead s = .ok (os i) s

/-- The overflow area of `n` pages at `ovf` may be written: its pages are those of `pg`, and are not sealed (R308, R310). -/
def State.AreaWritable (s : State) (ovf n : Nat) (pg : Nat → Mapped) : Prop :=
  ∀ i, i < n → s.Maps 4 ((ovf + 65536 * i) % 2 ^ 64) .bank (pg i) ∧ (pg i).pa < hostBase ∧ (s.sealAt (pg i).pa).1 = 0

/-- A page of it, as a region holds it. -/
def Mapped.pageFrame (m : Mapped) : VFrame := ⟨m.pa / 65536, if m.two then some (m.ipa / 65536) else none, true⟩

/-- The base table of a region filled with a number, a line at a time. -/
def State.fillTable (s : State) (r : VRegion) (n : Nat) : State :=
  (List.range (r.pages * 64)).foldl (fun u l =>
    u.regionWrite r r.ovfFrames (64 * l) (List.replicate 16 (bytesOfNat 4 n)).flatten) s

/-- The place of a version in a spilled region: in ascending granule, then ascending number (R310). -/
def VRegion.rank (r : VRegion) (v : Version) : Nat :=
  r.vers.countP fun w => decide (w.gran < v.gran ∨ (w.gran = v.gran ∧ w.num < v.num))

end Sys2Proof.Machine

/-- From R305 to R310, R316: a region is registered with no version, its table filled with the floor, or, FILLED, with the bases and
the versions of its overflow area; freed, with each page taking its granules' newest data; FLOOR and USED written in its
record; and spilled, the table, the slots in order and the record written. A raised floor turns the newest version below it into
the base of its granule. What stands in memory after each is stated byte by byte, where nothing is to be noted in a table entry.
That a record which is not aligned traps for every word is log 80, and of no clause here. -/
def Obligations.RegionWords : Prop :=
  (∀ s p x y c m rc (fs os : Nat → VFrame) (pg : Nat → Mapped), Runs (.bVreg x y c) p s →
    s.Registers (s.st.reg x).toNat (s.st.reg y).toNat m rc fs os → rc.filled = false →
    s.AreaWritable rc.ovf ((rc.pages + 15) / 16) pg →
    let r := s.newRegion (s.st.reg x).toNat (s.st.reg y).toNat rc (genFrom rc.pages 0 fs)
      (genFrom ((65536 * ((rc.pages + 15) / 16) + 128 * rc.quota + 65535) / 65536) 0 os)
    let u := s.fillTable r rc.floor
    exec (.bVreg x y c) s = .next (({ u with regions := u.regions ++ [r] } : State).did id)) ∧
  (∀ s p x y c m rc (fs os : Nat → VFrame), Runs (.bVreg x y c) p s →
    s.Registers (s.st.reg x).toNat (s.st.reg y).toNat m rc fs os → rc.filled = true →
    let area := (65536 * ((rc.pages + 15) / 16) + 128 * rc.quota + 65535) / 65536
    (∀ i, i < area → ∀ a, a / 65536 = (os i).frame → s.PlainAt a) →
    let r := s.newRegion (s.st.reg x).toNat (s.st.reg y).toNat rc (genFrom rc.pages 0 fs) (genFrom area 0 os)
    let base := fun g => s.mem.readNat (r.ovfPa (4 * g)) 4
    let num := fun i => s.mem.readNat (r.slotPa i + 64) 4
    let gran := fun i => s.mem.readNat (r.slotPa i + 68) 4
    let use := fun i => s.mem.readNat (r.slotPa i + 72) 8
    (∀ g, g < rc.pages * 1024 → base g ≤ rc.floor) → rc.used ≤ rc.quota →
    (∀ i, i < rc.used → use i % 2 = 1 ∧ gran i < rc.pages * 1024 ∧ base (gran i) < num i ∧ rc.floor ≤ num i ∧
      (i ≠ 0 → gran (i - 1) < gran i ∨ (gran (i - 1) = gran i ∧ num (i - 1) < num i))) →
    (∀ i, rc.used ≤ i → i < rc.quota → use i % 2 = 0) →
    exec (.bVreg x y c) s = .next (({ s with regions := s.regions ++ [{ r with
      bases := genFrom (rc.pages * 1024) 0 fun g => (g, base g)
      vers := genFrom rc.used 0 fun i => ⟨gran i, num i, BitVec.ofNat 512 (s.mem.readNat (r.slotPa i) 64), none⟩ }] } : State).did
      id)) ∧
  (∀ s p x y c r, Runs (.bVregFree x y c) p s → s.regionOf s.st.place.slot (s.st.reg x).toNat = some r →
    (∀ v ∈ r.vers, s.weightFrame (r.granPa v.gran) = false) →
    exec (.bVregFree x y c) s = .next ((s.freeRegion r).did id)) ∧
  (∀ s p x y c r m, Runs (.bVregRd x y c) p s → s.regionOf s.st.place.slot (s.st.reg x).toNat = some r →
    (s.st.reg y).toNat % 64 = 0 → s.Maps 4 (s.st.reg y).toNat .write m → m.pa < hostBase →
    exec (.bVregRd x y c) s =
      .next ((s.engineWrite (m.pa + 20) (bytesOfNat 4 r.vers.length ++ bytesOfNat 4 r.floor)).did id)) ∧
  (∀ s p x y c r m (pg : Nat → Mapped), Runs (.bVregSpill x y c) p s →
    s.regionOf s.st.place.slot (s.st.reg x).toNat = some r →
    (s.st.reg y).toNat % 64 = 0 → s.Maps 4 (s.st.reg y).toNat .write m → m.pa < hostBase →
    s.AreaWritable r.ovf r.ovfFrames.length pg →
    let u := s.engineWrite (m.pa + 4) (bytesOfNat 4 1)
    let v := u.engineWrite (m.pa + 20) (bytesOfNat 4 r.vers.length ++ bytesOfNat 4 r.floor ++ List.replicate 36 0)
    exec (.bVregSpill x y c) s =
      .next ((v.spillRegion r (genFrom r.ovfFrames.length 0 fun i => (pg i).pageFrame)).did id)) ∧
  (∀ (s : State) (r : VRegion) (n : Nat), s.mem.wf = true → s.PlainFrames r.fn r.ovfFrames →
    r.tableBytes ≤ 65536 * r.ovfFrames.length →
    (∀ g, g < r.pages * 1024 → (s.fillTable r n).mem.readNat (r.ovfPa (4 * g)) 4 = n % 2 ^ 32) ∧
    ∀ a, (∀ f ∈ r.ovfFrames, a / 65536 ≠ f.frame) → (s.fillTable r n).mem.read a = s.mem.read a) ∧
  (∀ (s : State) (r : VRegion) (new : Nat → Version), s.mem.wf = true → s.PlainFrames r.fn r.frames →
    (∀ v ∈ r.vers, v.gran < 1024 * r.frames.length ∧ new v.gran ∈ r.live v.gran ∧
      (∀ w ∈ r.live v.gran, w = new v.gran ∨ w.num < (new v.gran).num) ∧
      ∀ i, v.slot = some i → ∀ f ∈ r.frames, r.slotPa i / 65536 ≠ f.frame) →
    let gs := (r.vers.map Version.gran).eraseDups
    let after := fun k => (gs.take k).foldl (fun (u : State) g =>
      u.engineWrite (r.granPa g) (bytesOfNat 64 (s.versionData r (new g)).toNat)) (s.releaseRegion r)
    (∀ k g, gs[k]? = some g → (after k).noteHeld r.ctx ((r.base + 64 * g) % 2 ^ 64) (r.granPa g) = after k) →
    let u := s.freeRegion r
    (∀ v ∈ r.vers, u.mem.readNat (r.granPa v.gran) 64 = (s.versionData r (new v.gran)).toNat) ∧
    ∀ a, (∀ v ∈ r.vers, a < r.granPa v.gran ∨ r.granPa v.gran + 64 ≤ a) → u.mem.read a = s.mem.read a) ∧
  (∀ (s : State) (r : VRegion) (fs : List VFrame), s.mem.wf = true → s.PlainFrames r.fn fs →
    r.tableBytes + 128 * r.quota ≤ 65536 * fs.length → r.vers.length ≤ r.quota →
    (r.vers.map fun v => (v.gran, v.num)).Nodup → (∀ v ∈ r.vers, v.gran < 2 ^ 32 ∧ v.num < 2 ^ 32) →
    let q := { r with ovfFrames := fs }
    let u := s.spillRegion r fs
    (∀ g, g < r.pages * 1024 → u.mem.readNat (q.ovfPa (4 * g)) 4 = r.baseOf g % 2 ^ 32) ∧
    (∀ v ∈ r.vers, u.mem.readNat (q.slotPa (r.rank v)) 64 = (s.versionData r v).toNat ∧
      u.mem.readNat (q.slotPa (r.rank v) + 64) 4 = v.num ∧ u.mem.readNat (q.slotPa (r.rank v) + 68) 4 = v.gran ∧
      u.mem.readNat (q.slotPa (r.rank v) + 72) 8 = 1) ∧
    (∀ i, r.vers.length ≤ i → i < r.quota → u.mem.readNat (q.slotPa i + 72) 8 = 0) ∧
    ∀ a, (∀ f ∈ fs, a / 65536 ≠ f.frame) → u.mem.read a = s.mem.read a) ∧
  (∀ (s : State) (r : VRegion) (fs : List VFrame), r ∈ s.regions →
    (∀ q, q ∈ (s.freeRegion r).regions ↔ q ∈ s.regions ∧ ¬ (q.ctx = r.ctx ∧ q.base = r.base)) ∧
    (∀ q, q ∈ (s.spillRegion r fs).regions ↔ q ∈ s.regions ∧ ¬ (q.ctx = r.ctx ∧ q.base = r.base))) ∧
  ∀ (s : State) (r q : VRegion) (f g : Nat), s.regions.filter (fun q => q.ctx == r.ctx && q.base == r.base) = [r] →
    r.floor < f → (s.raiseFloor r f).regions.find? (fun q => q.ctx == r.ctx && q.base == r.base) = some q →
    q.floor = f ∧ (∀ v, v ∈ q.vers ↔ v ∈ r.vers ∧ f ≤ v.num) ∧
    ((∀ v ∈ r.live g, f ≤ v.num) → q.baseOf g = r.baseOf g) ∧
    ((∃ v ∈ r.live g, v.num < f) → ∃ v ∈ r.live g, v.num < f ∧ q.baseOf g = v.num ∧ ∀ w ∈ r.live g, w.num < f → w.num ≤ v.num)
/-! ## Streams, gangs, the fabric and key-value rows in the copy engine -/

namespace Sys2Proof.Machine

/-- The lines of a range are plain. -/
def State.PlainRange (s : State) (pa n : Nat) : Prop := ∀ l, pa / 64 ≤ l → l * 64 < pa + n → s.PlainAt (l * 64)

/-- A word of engine `eng` opens the table at `va`, with class `acc` (R402): aligned, mapped, read whole. -/
def State.Opens (s : State) (eng va : Nat) (acc : AccessKind) (t : KTable) : Prop :=
  va % 128 = 0 ∧ ∃ m, s.Maps eng va acc m ∧ s.PlainAt (m.pa + 64) ∧ t = ⟨va, m.pa, s.peekNat s.st.who m.pa 128, eng, acc⟩ ∧
    ∀ w ∈ s.fullerWaits, w.table ≠ some m.pa

/-- The table's pool, and what a live table asks for. -/
def State.poolAt (s : State) (t : KTable) : Pool := s.pool s.st.place.part t.pool
def State.OpensLive (s : State) (eng va : Nat) (acc : AccessKind) (t : KTable) : Prop :=
  s.Opens eng va acc t ∧ t.live = true ∧ (s.poolAt t).en = true

/-- Entry `i` of a table reads as `v`; it may be written, at `m`; and so may the header, where it was read. -/
def State.EntryIs (s : State) (t : KTable) (i v : Nat) : Prop :=
  ∃ m, s.Maps t.eng (t.entryVa i) t.acc m ∧ s.peekNat s.st.who m.pa 4 = v
def State.EntryAt (s : State) (t : KTable) (i : Nat) (m : Mapped) : Prop := s.Maps t.eng (t.entryVa i) .bank m
def State.HeaderAt (s : State) (t : KTable) : Prop := ∃ m, s.Maps t.eng t.va .bank m ∧ m.pa = t.pa

/-- A block of the table's pool is Held, of the context's tenant, and sealed as its pool is (R402). -/
def State.HoldsBlock (s : State) (t : KTable) (b : Nat) (x : Block) : Prop :=
  let p := s.poolAt t
  p.block b = x ∧ x.st = .held ∧ x.tenant = s.tenant s.st.place.fn ∧ s.sealAt (p.blockPa b) = (p.sealMode, p.world)

/-- Bytes of a block may be read: their lines are plain and the block is not poisoned (R242, R420). -/
def State.BlockReads (s : State) (t : KTable) (b pa n : Nat) : Prop :=
  s.PlainRange pa n ∧ (s.poolAt t).poison.contains b = false

/-- Bytes may be written: no frame of theirs is in a weight region (R356). -/
def State.Unweighted (s : State) (pa n : Nat) : Prop :=
  ∀ l, pa / 65536 ≤ l → l * 65536 < pa + n → s.weightFrame (l * 65536) = false

/-- A key-value row in the copy engine: its table is open, its position committed, its entry in the tile's buffer, and its
block held. -/
def State.RowReady (s : State) (t : KTable) (pos b : Nat) (x : Block) : Prop :=
  pos < t.len ∧ b ≠ noBlock ∧
  (∃ e, s.btbs.find? (fun e => e.tile == some s.st.place.tileKey && e.slice == 0 && e.part == s.st.place.part &&
    e.ctx == s.st.place.slot && e.table == t.va && e.logical == pos / 16) = some e ∧ e.block = b) ∧
  s.HoldsBlock t b x

/-- The FP32 elements of a scratchpad row. -/
def Strand.rowElems (t : Strand) (o n : Nat) : List Elem := genFrom n 0 fun i => BitVec.ofNat 32 (t.spad.readNat (o + 4 * i) 4)

end Sys2Proof.Machine

/-- From R248, R257 to R259, R262, R263, R267: streams bound and unbound, descriptor registers, the tile's buffer, units between the
scratchpads of a gang, and prefetch, which nothing shows. -/
def Obligations.StreamsAndGangs : Prop :=
  (∀ s p (x : Reg) y z (m : BitVec 2) c (at' : Nat → Mapped), Runs (.cBind x y z m c) p s → x.toNat < 8 →
    let d := (extValue s.st p 0).toNat % 2 ^ 8
    let f := fmtOf d
    let n := (s.st.reg z).toNat % 2 ^ 32
    let per := if m.getLsbD 0 then 1024 else 1
    let src := if m.getLsbD 1 then Side.spad else Side.mem
    let a := fun k => (s.st.reg y).toNat + k * (per * f.bytes)
    d ∈ [0, 1, 2, 3, 4, 5, 7, 8] → (s.st.reg y).toNat % f.bytes = 0 → 1 ≤ n → n ≤ 4 →
    (vget s.st.streams x.toNat Stream.unbound).bound = false →
    (∀ k, k < n → s.SideReady src false (a k) (per * f.bytes) at') →
    let unit := fun k =>
      let bs := s.sideBytes src (a k) (per * f.bytes) at'
      genFrom per 0 fun i => (f.decode (natOfBytes ((bs.drop (i * f.bytes)).take f.bytes)) 0).1
    exec (.cBind x y z m c) s = .next (s.did fun t => { t with
      streams := vput t.streams x.toNat ⟨true, m.getLsbD 0, d, genFrom n 0 unit, 0⟩ })) ∧
  (∀ s p (x : Reg) c, Runs (.cUnbind x c) p s →
    exec (.cUnbind x c) s = .next (s.did fun t => { t with streams := vput t.streams x.toNat Stream.unbound })) ∧
  (∀ s p (x : Reg) y (g : Bool) c m, Runs (.cDsc x y g c) p s → (s.st.reg y).toNat % 64 = 0 →
    let src := if g then Side.spad else Side.mem
    s.SideReady src false (s.st.reg y).toNat 64 m →
    let img := BitVec.ofNat 512 (natOfBytes (s.sideBytes src (s.st.reg y).toNat 64 m))
    descOkImage img = true →
    exec (.cDsc x y g c) s = .next (s.did fun t => { t with descs := vput t.descs x.toNat img })) ∧
  (∀ s p y c, Runs (.cBbinv y c) p s → exec (.cBbinv y c) s =
    .next (({ s with btbs := s.btbs.filter fun b =>
      !(b.tile == some s.st.place.tileKey && b.isOf s.st.place (s.st.reg y).toNat) } : State).did id)) ∧
  (∀ s p x y g c, Runs (.cPf x y g c) p s → exec (.cPf x y g c) s = .next (s.did id)) ∧
  ∀ s p x y z (pull : Bool) c o, Runs (.cGm x y z pull c) p s → quietWord (extValue s.st p 1) →
    let m := (extValue s.st p 0).toNat % 16
    let a := (s.st.reg x).toNat
    let b := (s.st.reg y).toNat
    let len := (s.st.reg z).toNat
    m < s.st.place.size → m ≠ s.st.place.member → s.member m = some o → o.life ≠ .gone → o.barred = false →
    a + len < 2 ^ 64 → b + len < 2 ^ 64 →
    (if pull then b + len ≤ o.spadSize ∧ a + len ≤ s.st.spadSize else b + len ≤ s.st.spadSize ∧ a + len ≤ o.spadSize) →
    exec (.cGm x y z pull c) s = .next ((if pull then
        { s with st := { s.st with spad := s.st.spad.writeBytes a (o.spad.readBytes b len) } }
      else s.setMember m fun t => { t with spad := t.spad.writeBytes a (s.st.spad.readBytes b len) }).did id)

/-- From R260, R264, R265, R407: a key-value row read and written through the tile's buffer, a peer unit that lands on its own chip,
and an element contributed to a window; and what a round of a window merges to, in ascending chip number whatever the order
in which its contributions come. That a row takes sX at any alignment, and that a unit to its own chip needs no port, is the
model's reading (log 48). -/
def Obligations.FabricAndRows : Prop :=
  (∀ s p x y z (value : Bool) c t b k, Runs (.cKvg x y z value c) p s → (extValue s.st p 0).toNat % 2 ^ 16 = 1 →
    quietWord (extValue s.st p 1) →
    let pos := (s.st.reg z).toNat
    let o := (s.st.reg x).toNat
    s.OpensLive 3 (s.st.reg y).toNat .bankRead t → s.RowReady t pos b k →
    let q := s.poolAt t
    s.BlockReads t b (q.rowPa b (pos % 16) value) q.rowBytes → o + 4 * q.v ≤ s.st.spadSize →
    let vals := genFrom q.v 0 fun e =>
      let r := q.elemCode s s.st.who (q.rowPa b (pos % 16) value) e
      q.fmt.decode r.1 r.2
    ∃ u, exec (.cKvg x y z value c) s = .next u ∧
      StrandStep s { s.st with spad := s.st.spad.writeBytes o (vals.flatMap fun v => bytesOfNat 4 v.1.toNat) }
        (fun i => ∃ v ∈ vals, v.2.getLsbD i = true) u) ∧
  (∀ s p x y z (value : Bool) c t b k, Runs (.cKvs x y z value c) p s → (extValue s.st p 0).toNat % 2 ^ 16 = 1 →
    quietWord (extValue s.st p 1) →
    let pos := (s.st.reg z).toNat
    let o := (s.st.reg x).toNat
    s.OpensLive 3 (s.st.reg y).toNat .bankRead t → s.RowReady t pos b k → k.ref ≤ 1 → t.wopen = false →
    let q := s.poolAt t
    o + 4 * q.v ≤ s.st.spadSize →
    let r := q.encodeRow (s.st.rowElems o q.v)
    s.Unweighted (q.rowPa b (pos % 16) value) q.rowBytes →
    exec (.cKvs x y z value c) s = .next ((s.engineWrite (q.rowPa b (pos % 16) value) r.1).did fun t => { t with
      csr := { t.csr with flags := t.csr.flags ||| r.2 } })) ∧
  (∀ s p x y z c g, Runs (.cPeer x y z c) p s → quietWord (extValue s.st p 1) →
    let i := (extValue s.st p 0).toNat
    let len := (s.st.reg z).toNat
    let b := (s.st.reg y).toNat
    let off := (s.st.reg x).toNat
    s.grants[i % 2 ^ 6]? = some g → g.kind = 1 → g.chip = s.fabric.chip → off + len ≤ g.len → 1 ≤ len → len ≤ 256 →
    b + len ≤ s.st.spadSize →
    let u : PeerUnit := ⟨s.fabric.chip, (s.st.place.gang, s.st.place.member, s.st.steered), s.fabric.chip, s.st.place.world,
      g.key, i / 2 ^ 16 % 2 ^ 32, off, len, 0, s.st.spad.readBytes b len⟩
    (s.landPeer u).1 = .landed → exec (.cPeer x y z c) s = .next ((s.landPeer u).2.did id)) ∧
  (∀ s p x y z (m : BitVec 3) c g w v, Runs (.cRwin x y z m c) p s → quietWord (extValue s.st p 0) → m.toNat < 7 →
    let size := [4, 2, 4, 8, 4, 4, 1].getD m.toNat 1
    let a := (s.st.reg x).toNat
    let b := (s.st.reg y).toNat
    (s.st.reg z).toNat = size → a % size = 0 → b % size = 0 →
    s.grants.find? (fun g => g.kind == 3 && decide (g.base ≤ a ∧ a < g.base + g.len)) = some g → a + size ≤ g.base + g.len →
    s.fabric.up ≠ 0 → b + size ≤ s.st.spadSize → s.window g.key g.chip = some w →
    w.state ≠ .retired → w.accept ⟨s.fabric.chip, a - g.base, m.toNat, s.st.spad.readNat b size⟩ = some v →
    exec (.cRwin x y z m c) s = .next ((s.setWindow v).did id)) ∧
  ∀ l l' : List Contribution, l.Perm l' → (l.map Contribution.chip).Nodup → mergeRound l = mergeRound l'

/-! ## The attention engine -/

namespace Sys2Proof.Machine

/-- A position of a table lies in block `b`, as the attention word sees it through the slices' buffers (R392) or through the
window (R401); the block may be read. -/
def State.SeesBlock (s : State) (t : KTable) (pos b : Nat) : Prop :=
  let p := s.poolAt t
  (pos < t.len → b ≠ noBlock ∧ ∃ e, s.btbs.find? (fun e => e.tile == none && e.slice == s.homeSlice t.pa &&
    e.part == s.st.place.part && e.ctx == s.st.place.slot && e.table == t.va && e.logical == pos / 16) = some e ∧ e.block = b) ∧
  (t.len ≤ pos → b = if pos / 16 = t.len0 / 16 then t.df0 else t.df1) ∧
  (∃ x, s.HoldsBlock t b x) ∧ s.BlockReads t b (p.blockPa b) (32 * p.rowBytes)

/-- The positions below `n` are visible to a word with window word `w` (R401). -/
def State.Shows (s : State) (t : KTable) (w n : Nat) : Prop :=
  (bit w 32 = false ∧ n ≤ t.len) ∨
  (bit w 32 = true ∧ t.wopen = true ∧ t.win = bits w 0 16 ∧ t.wctx = s.st.place.slot ∧ n ≤ t.len + t.drafted)

/-- The queries of a word: rows of its scratchpad operand, or of the vector register that its control word names (R383). -/
def Strand.queries (t : Strand) (v : Bool) (q : Nat) (ctl : Word) : List (List Fp) :=
  genFrom (controlRows ctl) 0 fun i => genFrom t.attn.dh 0 fun e =>
    if v then fpOf (t.velem (BitVec.ofNat 6 (controlVreg ctl)) (64 * i + e))
    else
      let f := fmtOf t.attn.aqdesc
      let c := t.spad.elemCode f (q + i * t.attn.dh * t.attn.queryBytes) e
      (f.exact c.1 c.2).1

/-- The bytes that rows of triples leave in the scratchpad. -/
def rowsBytes (part : Bool) (rows : List (Triple × Flags)) : List Byte :=
  rows.flatMap fun r => (r.1.row part).1.flatMap fun e => bytesOfNat 4 e.toNat

/-- A flag that rows of triples raise. -/
def rowsRaise (part : Bool) (rows : List (Triple × Flags)) (i : Nat) : Prop :=
  ∃ r ∈ rows, r.2.getLsbD i = true ∨ (r.1.row part).2.getLsbD i = true

/-- `a.attn` or `a.part` attends to the positions from P0 to P1 of its table (R388, R389). -/
def Attends (w : Reg → Reg → Reg → Bool → Bool → Bool → Instr) (part : Bool) : Prop :=
  ∀ s p x y z k v c t (b : Nat → Nat), Runs (w x y z k v c) p s →
    let a := s.st.attn
    let ctl := extValue s.st p 1
    let win := (extValue s.st p 2).toNat
    let q := (extValue s.st p 0).toNat
    let o := (s.st.reg x).toNat
    let p0 := bits (s.st.reg z).toNat 0 32
    let p1 := bits (s.st.reg z).toNat 32 32
    a.legal ctl v = true → windowClean win = true → bit ctl.toNat 17 = false → bit ctl.toNat 18 = false → o % 4 = 0 →
    (v = false → q % a.queryBytes = 0 ∧ q + controlRows ctl * a.dh * a.queryBytes ≤ s.st.spadSize) →
    o + controlRows ctl * tripleBytes a.dh part ≤ s.st.spadSize → s.OpensLive 5 (s.st.reg y).toNat .read t →
    let pool := s.poolAt t
    a.koff + a.dh ≤ pool.v → a.voff + a.dh ≤ pool.v → p0 ≤ p1 → s.Shows t win p1 →
    (∀ pos, p0 ≤ pos → pos < p1 → s.SeesBlock t pos (b pos)) →
    let row := fun (pos : Nat) (value : Bool) (off : Nat) => kvRow s pool (b pos) pos value off a.dh
    let kvs := genFrom (p1 - p0) p0 fun pos =>
      (pos, (row pos false a.koff).map Prod.fst, (row pos true a.voff).map Prod.fst)
    let rows := attend a p0 p1 k (s.st.queries v q ctl) kvs
    ∃ u, exec (w x y z k v c) s = .next u ∧
      StrandStep s { s.st with spad := s.st.spad.writeBytes o (rowsBytes part rows) }
        (fun i => rowsRaise part rows i ∨ ∃ pos, p0 ≤ pos ∧ pos < p1 ∧
          ∃ e ∈ row pos false a.koff ++ row pos true a.voff, e.2.getLsbD i = true) u

end Sys2Proof.Machine

/-- From R382, R388, R389, R391 to R393: the attention registers; `a.attn` and `a.part` over a range of positions of a table;
`a.merge` of two rows of triples; `a.binv`, which empties the slices' buffers; and `a.pref`, which nothing shows; and
that the merge of two triples takes them in either order. -/
def Obligations.AttentionWords : Prop :=
  (∀ s p x i c, Runs (.aCfg x i c) p s →
    let v := (s.st.reg x).toNat
    let i' := immValue (.aCfg x i c) p
    let a := s.st.attn
    let b := if i' = 0 then { a with ascale := (s.st.reg x).setWidth 32 } else
      if i' = 1 then { a with dh := v / 2 ^ 32 % 512, voff := v / 2 ^ 16 % 2 ^ 16, koff := v % 2 ^ 16 } else
      { a with aqdesc := v % 256 }
    exec (.aCfg x i c) s = .next (s.did fun t => { t with attn := b })) ∧
  Attends .aAttn false ∧ Attends .aPart true ∧
  (∀ s p x y z (norm : Bool) c, Runs (.aMerge x y z norm c) p s →
    let a := s.st.attn
    let ctl := extValue s.st p 0
    let o := (s.st.reg x).toNat
    let f := (s.st.reg y).toNat
    let g := (s.st.reg z).toNat
    let n := controlRows ctl
    let tb := 4 * a.dh + 16
    a.legal ctl false = true → bit ctl.toNat 17 = false → bit ctl.toNat 18 = false →
    o % 4 = 0 → f % 4 = 0 → g % 4 = 0 → f + n * tb ≤ s.st.spadSize → g + n * tb ≤ s.st.spadSize →
    o + n * tripleBytes a.dh (!norm) ≤ s.st.spadSize →
    let rows := genFrom n 0 fun r => (tripleAt s.st (f + r * tb) a.dh).merge (tripleAt s.st (g + r * tb) a.dh)
    ∃ u, exec (.aMerge x y z norm c) s = .next u ∧
      StrandStep s { s.st with spad := s.st.spad.writeBytes o (rowsBytes (!norm) rows) } (rowsRaise (!norm) rows) u) ∧
  (∀ s p y c, Runs (.aBinv y c) p s → exec (.aBinv y c) s =
    .next (({ s with btbs := s.btbs.filter fun b => !(b.tile.isNone && b.isOf s.st.place (s.st.reg y).toNat) } : State).did id)) ∧
  (∀ s p y z m c, Runs (.aPref y z m c) p s → exec (.aPref y z m c) s = .next (s.did id)) ∧
  ∀ t u : Triple, (t.isEmpty = true → t.merge u = (u, 0)) ∧ (u.isEmpty = true → t.isEmpty = false → t.merge u = (t, 0)) ∧
    (t.isEmpty = false → u.isEmpty = false → t.merge u = u.merge t) ∧
    ∀ dh, (mergeTree dh 0 []).1 = Triple.empty dh ∧ mergeTree dh 0 [t] = (t, 0) ∧ mergeTree dh 1 [t, u] = t.merge u

/-! ## The cache-context engine -/

namespace Sys2Proof.Machine

/-- A table's header written back, its reserved fields zero (R10, R400); the buffers lose its entries (R403). -/
def State.saved (s : State) (t : KTable) : State := (s.engineWrite t.pa (bytesOfNat 128 (headerImage t.h))).dropTable s.st.place.part t.pa

/-- The first `n` scrubbed blocks of a pool are `bs`, and `rest` stays; they are taken: Held, with one reference (R428). -/
def State.HasBlocks (s : State) (t : KTable) (n : Nat) (bs : List Nat) (rest : List (Nat × Nat)) : Prop :=
  let l := (s.poolAt t).scrubbed
  n ≤ runsCount l ∧ runsTake (fun _ => true) (2 * n + l.length + 1) n l = (bs, rest) ∧ (n ≠ 0 → s.fullerWaits = [])
def State.took (s : State) (t : KTable) (bs : List Nat) (rest : List (Nat × Nat)) : State :=
  let p := s.st.place
  s.setPool p.part t.pool (bs.foldl (fun q b =>
    q.setBlock b { q.block b with st := .held, ref := 1, tenant := s.tenant p.fn, ctx := p.slot })
    { s.poolAt t with scrubbed := rest })

/-- A reference to a block is released, or added. -/
def State.released (s : State) (t : KTable) (b : Nat) : State := s.setPool s.st.place.part t.pool ((s.poolAt t).release b)
def State.shared (s : State) (t : KTable) (b : Nat) : State := s.setPool s.st.place.part t.pool ((s.poolAt t).addRef b)

/-- Entries become the numbers that `b` gives, at `m`, in order. -/
def State.entered (s : State) (m : Nat → Mapped) (b : Nat → Nat) : Nat → State
  | 0 => s
  | j + 1 => (s.entered m b j).engineWrite (m j).pa (bytesOfNat 4 (b j))

/-- As `entered`, with a reference added to each block. -/
def State.forked (s : State) (t : KTable) (m : Nat → Mapped) (b : Nat → Nat) : Nat → State
  | 0 => s
  | j + 1 =>
    let u := s.forked t m b j
    (if b j = noBlock then u else u.shared t (b j)).engineWrite (m j).pa (bytesOfNat 4 (b j))

/-- Entries that name a block release it and become NONE. -/
def State.cutBack (s : State) (t : KTable) (m : Nat → Mapped) (b : Nat → Nat) : Nat → State
  | 0 => s
  | j + 1 =>
    let u := s.cutBack t m b j
    if b j = noBlock then u else (u.released t (b j)).engineWrite (m j).pa (bytesOfNat 4 noBlock)

/-- `n` entries of a table from `i` read as `b`; each block named may be reached, and its entry written, before the first
write and in its turn. -/
def State.CutsAt (s : State) (t : KTable) (i : Nat) (m : Nat → Mapped) (b : Nat → Nat) (n : Nat) : Prop :=
  ∀ j, j < n → s.EntryIs t (i + j) (b j) ∧ (b j ≠ noBlock →
    (∃ x, s.HoldsBlock t (b j) x) ∧ s.EntryAt t (i + j) (m j) ∧ (s.cutBack t m b j).EntryAt t (i + j) (m j))

/-- The draft blocks of a window that a word installs or releases are held as every block is (R402). -/
def State.DraftsHeld (s : State) (t : KTable) : Prop :=
  (t.df0 = noBlock ∨ ∃ x, s.HoldsBlock t t.df0 x) ∧ (t.df1 = noBlock ∨ ∃ x, s.HoldsBlock t t.df1 x)

/-- The blocks that a table's positions reach beyond the first `n`. -/
def KTable.blocksPast (t : KTable) (n : Nat) : Nat := blocksOf t.len - blocksOf n

/-- Where a position lies: committed, by its entry, or drafted, in the window of the context (R401). -/
def State.SpotIs (s : State) (t : KTable) (pos b : Nat) (drafted : Bool) : Prop :=
  (drafted = false ∧ pos < t.len ∧ b ≠ noBlock ∧ s.EntryIs t (pos / 16) b) ∨
  (drafted = true ∧ t.len ≤ pos ∧ t.wopen = true ∧ pos < t.len + t.drafted ∧ t.wctx = s.st.place.slot ∧
    b = if pos / 16 = t.len0 / 16 then t.df0 else t.df1)

/-- The row of a position written in block `b`, and in the shadow of the tail (R407). -/
def State.rowWritten (s : State) (t : KTable) (pos : Nat) (value : Bool) (b : Nat) (drafted : Bool) (bs : List Byte) : State :=
  let p := s.poolAt t
  let u := s.engineWrite (p.rowPa b (pos % 16) value) bs
  if drafted = false ∧ t.wopen = true ∧ t.shadow = true ∧ pos / 16 = t.len0 / 16 then
    u.engineWrite (p.rowPa t.df0 (pos % 16) value) bs
  else u

/-- The row of a position may be written in block `b`, and in the shadow of the tail, which is held as every block is. -/
def State.RowWrites (s : State) (t : KTable) (pos : Nat) (value : Bool) (b : Nat) (drafted : Bool) : Prop :=
  let p := s.poolAt t
  s.Unweighted (p.rowPa b (pos % 16) value) p.rowBytes ∧
    (drafted = false → t.wopen = true → t.shadow = true → pos / 16 = t.len0 / 16 →
      (∃ x, s.HoldsBlock t t.df0 x) ∧ s.Unweighted (p.rowPa t.df0 (pos % 16) value) p.rowBytes)

/-- A word that wants a return in the scratchpad at `o` has room for `n` bytes there. -/
def Strand.Room (t : Strand) (o a n : Nat) : Prop := o % a = 0 ∧ o + n ≤ t.spadSize

end Sys2Proof.Machine

/-- From R400, R404 to R410: pools enabled and disabled, tables initialised, positions committed and drafted, the length read, rows
written (in place, or in a copy where the block is shared), tables forked, cut and returned. -/
def Obligations.TableWords : Prop :=
  (∀ s p x y c m, Runs (.kPool x y c) p s → (s.st.reg x).toNat % 32 = 0 → s.Maps 6 (s.st.reg x).toNat .read m →
    let img := natOfBytes (s.peekBytes s.st.who m.pa 32)
    let q := poolOfRecord img
    let i := (s.st.reg y).toNat % 256
    let part := s.st.place.part
    q.legal = true → (s.pool part i).en = false → s.poolFramesOk part q = true →
    exec (.kPool x y c) s = .next (((s.markFrames q .pool).setPool part i
      { q with blocks := [(0, q.nblk, ⟨.toScrub, 0, 0, 0, 0⟩)], toScrub := [(0, q.nblk)] }).did id)) ∧
  (∀ s p y c, Runs (.kPoolOff y c) p s →
    let i := (s.st.reg y).toNat % 256
    let q := s.pool s.st.place.part i
    (q.en = true → q.countState .held = 0 ∧ runsCount q.toScrub = 0 ∧ runsCount q.scrubbing = 0) →
    exec (.kPoolOff y c) s = .next ((if q.en then
      (s.markFrames q .owned).setPool s.st.place.part i Pool.clear else s).did id)) ∧
  (∀ s p x y z c t, Runs (.kTbl x y z c) p s → s.Opens 6 (s.st.reg x).toNat .bankRead t → t.live = false → s.HeaderAt t →
    let i := (s.st.reg y).toNat % 256
    let cap := (s.st.reg z).toNat % 2 ^ 32
    let pl := s.st.place
    (s.pool pl.part i).en = true → (s.pool pl.part i).world = pl.world → 1 ≤ cap → cap ≤ 1048576 →
    exec (.kTbl x y z c) s = .next ((s.saved { t with h := newHeader i cap pl.die pl.slot }).did id)) ∧
  (∀ pool cap die ctx va pa, pool < 2 ^ 8 → cap < 2 ^ 32 → ctx < 2 ^ 12 →
    let t : KTable := ⟨va, pa, newHeader pool cap die ctx, 6, .bankRead⟩
    t.live = true ∧ t.pool = pool ∧ t.len = 0 ∧ t.cap = cap ∧ bits t.h 176 2 = die % 4 ∧ bits t.h 160 12 = ctx ∧
      t.wopen = false ∧ t.df0 = noBlock ∧ t.df1 = noBlock ∧ t.cken = false) ∧
  (∀ s p x y z (r : Bool) c t (m : Nat → Mapped) bs rest, Runs (.kApp x y z r false c) p s →
    s.OpensLive 6 (s.st.reg x).toNat .bankRead t → s.HeaderAt t → t.wopen = false →
    let n := (s.st.reg y).toNat % 2 ^ 32
    let o := (s.st.reg z).toNat
    let i := blocksOf t.len
    let k := blocksOf (t.len + n) - i
    let u := s.took t bs rest
    let v := u.entered m (fun j => bs.getD j 0) k
    1 ≤ n → n ≤ 65536 → t.len + n ≤ 16 * t.cap → t.len + n < 2 ^ 32 → (r = true → s.st.Room o 8 8) → s.HasBlocks t k bs rest →
    (∀ j, j < k → s.EntryAt t (i + j) (m j) ∧ (u.entered m (fun j => bs.getD j 0) j).EntryAt t (i + j) (m j)) → v.HeaderAt t →
    exec (.kApp x y z r false c) s = .next ((v.saved (t.put 0 32 (t.len + n))).did fun st =>
      if r then { st with spad := st.spad.writeBytes o (bytesOfNat 8 t.len) } else st)) ∧
  (∀ s p x y z (r : Bool) c t bs rest, Runs (.kApp x y z r true c) p s →
    s.OpensLive 6 (s.st.reg x).toNat .bankRead t → s.HeaderAt t → t.wopen = true → t.wctx = s.st.place.slot →
    let n := (s.st.reg y).toNat % 2 ^ 32
    let o := (s.st.reg z).toNat
    let first := t.len + t.drafted
    let b0 := t.len0 / 16
    let tail := t.len0 % 16
    let q := s.poolAt t
    let new0 := t.drafted = 0
    let new1 := t.df1 = noBlock ∧ 16 * (b0 + 1) < first + n
    1 ≤ n → t.drafted + n ≤ 16 → first + n ≤ 16 * t.cap → first + n < 2 ^ 32 → (r = true → s.st.Room o 8 8) →
    s.HasBlocks t ((if new0 then 1 else 0) + if new1 then 1 else 0) bs rest →
    ∀ old, (new0 → tail ≠ 0 → s.EntryIs t b0 old ∧ old ≠ noBlock ∧ (∃ x, s.HoldsBlock t old x) ∧
      s.BlockReads t old (q.rowPa old 0 false) (tail * q.rowBytes) ∧
      s.BlockReads t old (q.rowPa old 0 true) (tail * q.rowBytes) ∧ s.Unweighted (q.blockPa (bs.getD 0 0)) q.stride) →
    let u := s.took t bs rest
    let df0 := if new0 then bs.getD 0 0 % 2 ^ 32 else t.df0
    let df1 := if new1 then bs.getD (if new0 then 1 else 0) 0 % 2 ^ 32 else t.df1
    let len := tail * q.rowBytes
    let u' := if new0 ∧ tail ≠ 0 then
        let w := u.engineWrite (q.blockPa df0) (u.mem.readBytes (q.blockPa old) len)
        w.engineWrite (q.blockPa df0 + 16 * q.rowBytes) (w.mem.readBytes (q.blockPa old + 16 * q.rowBytes) len)
      else u
    u'.HeaderAt t →
    ∃ h, exec (.kApp x y z r true c) s = .next ((u'.saved { t with h := h }).did fun st =>
        if r then { st with spad := st.spad.writeBytes o (bytesOfNat 8 first) } else st) ∧
      (let t' : KTable := { t with h := h }
       t'.drafted = t.drafted + n ∧ t'.df0 = df0 ∧ t'.df1 = df1 ∧
         t'.shadow = (t.shadow || decide (new0 ∧ tail ≠ 0)) ∧ t'.len = t.len ∧ t'.wopen = true ∧ t'.win = t.win ∧
         t'.rng0 = t.rng0 ∧ t'.len0 = t.len0 ∧ t'.ckmask = t.ckmask)) ∧
  (∀ s p x y c t, Runs (.kLen x y c) p s → s.OpensLive 6 (s.st.reg y).toNat .bankRead t →
    s.st.Room (s.st.reg x).toNat 16 16 →
    let bs := bytesOfNat 4 t.len ++ bytesOfNat 4 (t.wopen.toNat * 2 ^ 31 + t.drafted * 2 ^ 16 + t.win) ++
      bytesOfNat 4 t.cap ++ bytesOfNat 4 t.pool
    exec (.kLen x y c) s = .next (s.did fun st => { st with spad := st.spad.writeBytes (s.st.reg x).toNat bs })) ∧
  (∀ s p y c, Runs (.kBbinv y c) p s → exec (.kBbinv y c) s =
    .next (({ s with btbs := s.btbs.filter fun b => !b.isOf s.st.place (s.st.reg y).toNat } : State).did id)) ∧
  (∀ s p x y z (value : Bool) c t b k d, Runs (.kWr x y z value c) p s → (extValue s.st p 0).toNat % 2 ^ 16 = 1 →
    quietWord (extValue s.st p 1) →
    let pos := (s.st.reg z).toNat
    let o := (s.st.reg x).toNat
    s.OpensLive 6 (s.st.reg y).toNat .bankRead t → s.SpotIs t pos b d → s.HoldsBlock t b k → s.RowWrites t pos value b d →
    let q := s.poolAt t
    s.st.Room o 4 (4 * q.v) →
    let r := q.encodeRow (s.st.rowElems o q.v)
    let flag := fun (st : Strand) => { st with csr := { st.csr with flags := st.csr.flags ||| r.2 } }
    (d = true ∨ k.ref ≤ 1 → exec (.kWr x y z value c) s = .next ((s.rowWritten t pos value b d r.1).did flag)) ∧
    (d = false → 1 < k.ref → ∀ n rest m, s.HasBlocks t 1 [n] rest → s.EntryAt t (pos / 16) m →
      s.BlockReads t b (q.blockPa b) q.stride → s.Unweighted (q.blockPa n) q.stride →
      let u := s.took t [n] rest
      let v := u.engineWrite (q.blockPa n) (u.mem.readBytes (q.blockPa b) q.stride)
      v.EntryAt t (pos / 16) m →
      let w := ((v.engineWrite m.pa (bytesOfNat 4 n)).released t b).dropTable s.st.place.part t.pa
      exec (.kWr x y z value c) s = .next ((w.rowWritten t pos value n false r.1).did flag))) ∧
  (∀ s p x y z c d t (m : Nat → Mapped) (b : Nat → Nat), Runs (.kFork x y z c) p s →
    s.OpensLive 6 (s.st.reg x).toNat .bankRead d → s.OpensLive 6 (s.st.reg y).toNat .bankRead t → s.HeaderAt d →
    let n := (s.st.reg z).toNat % 2 ^ 32
    d.len = 0 → d.wopen = false → d.pool = t.pool → n ≤ t.len → blocksOf n ≤ d.cap →
    (∀ j, j < blocksOf n → s.EntryIs t j (b j) ∧ (b j ≠ noBlock → ∃ k, s.HoldsBlock t (b j) k) ∧ s.EntryAt d j (m j) ∧
      (s.forked t m b j).EntryAt d j (m j)) → (s.forked t m b (blocksOf n)).HeaderAt d →
    exec (.kFork x y z c) s = .next (((s.forked t m b (blocksOf n)).saved (d.put 0 32 n)).did id)) ∧
  (∀ s p x y c t (m : Nat → Mapped) (b : Nat → Nat), Runs (.kTrunc x y c) p s →
    s.OpensLive 6 (s.st.reg x).toNat .bankRead t → s.HeaderAt t → t.wopen = false →
    let n := (s.st.reg y).toNat % 2 ^ 32
    n ≤ t.len → s.CutsAt t (blocksOf n) m b (t.blocksPast n) → (s.cutBack t m b (t.blocksPast n)).HeaderAt t →
    exec (.kTrunc x y c) s = .next (((s.cutBack t m b (t.blocksPast n)).saved (t.put 0 32 n)).did id)) ∧
  ∀ s p x c t (m : Nat → Mapped) (b : Nat → Nat), Runs (.kRet x c) p s →
    s.OpensLive 6 (s.st.reg x).toNat .bankRead t → s.HeaderAt t → s.CutsAt t 0 m b (blocksOf t.len) →
    (t.wopen = true → s.DraftsHeld t) →
    let u := s.cutBack t m b (blocksOf t.len)
    let drop := fun (u : State) (d : Nat) => if d = noBlock then u else u.released t d
    let v := drop (drop u t.df0) t.df1
    let w : State := { v with windows := v.windows.filter fun w => !(w.part == s.st.place.part && w.pa == t.pa) }
    (if t.wopen then v.HeaderAt t ∧ w.HeaderAt t else u.HeaderAt t) →
    exec (.kRet x c) s = .next ((if t.wopen then w.saved ((t.put 0 32 0).closed.put 63 1 0)
      else u.saved ((t.put 0 32 0).put 63 1 0)).did id)

/-! ## Speculative windows, and the Fuller's words -/

namespace Sys2Proof.Machine

/-- The machine knows that a table's window is open, of the table's owner, and where its header is mapped (R400, R419), or no
more. -/
def State.noted (s : State) (t : KTable) (at' : Option Mapped) : State :=
  let p := s.st.place
  { s with windows := (s.windows.filter fun w => !(w.part == p.part && w.pa == t.pa)) ++ (at'.map fun m =>
      (⟨p.part, t.owner, p.slot, t.va, t.pa, m.fn, if m.two then some m.ipa else none, false⟩ : OpenWindow)).toList }

/-- A table has window `w` of the current context open. -/
def State.InWindow (s : State) (t : KTable) (w : Word) : Prop :=
  t.wopen = true ∧ t.win = w.toNat % 2 ^ 16 ∧ t.wctx = s.st.place.slot

/-- A draft block, or none, is released. -/
def State.dropped (s : State) (t : KTable) (b : Nat) : State := if b = noBlock then s else s.released t b

/-- The window of a commit or an abort ends with `k` of its drafted positions kept; `old` is what the tail's entry held where
a shadow replaces it, and the entries of DF0 and DF1 are written at `m0` and `m1` (R414): the blocks and entries. -/
def State.settling (s : State) (t : KTable) (k old : Nat) (m0 m1 : Mapped) : State :=
  if k = 0 then (s.dropped t t.df0).dropped t t.df1
  else
    let v := (s.dropped t old).engineWrite m0.pa (bytesOfNat 4 t.df0)
    if 16 * (t.len0 / 16 + 1) < t.len0 + k then v.engineWrite m1.pa (bytesOfNat 4 t.df1) else v.dropped t t.df1

/-- And the header. -/
def State.settled (s : State) (t : KTable) (k old : Nat) (m0 m1 : Mapped) : State :=
  ((s.settling t k old m0 m1).noted t none).saved (t.closed.put 0 32 (t.len0 + k))

/-- Slot `k` of the table's checkpoints is written (R413). -/
def KTable.kept (t : KTable) (k : Nat) : Bool := bit t.ckmask k && decide (k ≤ 15)

/-- What `k.commit` and `k.abort` ask for beside their table: the entries that they read and write, and where the strand's
state is restored, a checkpoint of it (R411, R414). -/
def State.EndsWindow (s : State) (t : KTable) (w : Word) (nr : Bool) (k old : Nat) (m0 m1 : Mapped) : Prop :=
  s.HeaderAt t ∧ (s.settling t k old m0 m1).HeaderAt t ∧ ((s.settling t k old m0 m1).noted t none).HeaderAt t ∧
  s.InWindow t w ∧ k ≤ t.drafted ∧ s.DraftsHeld t ∧
  (k ≠ 0 → (if t.shadow then s.EntryIs t (t.len0 / 16) old else old = noBlock) ∧
    (old ≠ noBlock → ∃ x, s.HoldsBlock t old x) ∧ s.EntryAt t (t.len0 / 16) m0 ∧
    (s.dropped t old).EntryAt t (t.len0 / 16) m0 ∧
    (16 * (t.len0 / 16 + 1) < t.len0 + k → s.EntryAt t (t.len0 / 16 + 1) m1 ∧
      ((s.dropped t old).engineWrite m0.pa (bytesOfNat 4 t.df0)).EntryAt t (t.len0 / 16 + 1) m1)) ∧
  (nr = false → t.cken = true → if t.kept k then
      t.ckz < s.st.mat.accs.length ∧ t.stz < s.st.mat.accs.length ∧
        ∃ a, s.st.mat.accs[t.ckz]? = some a ∧ a.ckv.getLsbD k = true
    else k = t.drafted)

/-- The strand after its window ends: with `.nr` as it was; else with RNGCTR at the kept position, and its state restored from
the checkpoint, if there is one (R414). -/
def Strand.restored (st : Strand) (t : KTable) (nr : Bool) (k : Nat) : Strand :=
  if nr then st
  else
    let u := if t.cken && t.kept k then st.copyGroup t.stz t.ckz t.stg k else st
    { u with csr := { u.csr with rngCtr := BitVec.ofNat 64 (t.rng0 + k * t.dpt) } }

end Sys2Proof.Machine

/-- From R411 to R416: a window opens, with what it saves in the header and slot 0 of its checkpoints; `k.ckpt` writes another
slot; and `k.commit` and `k.abort` keep so many of its drafted positions, and restore the strand's draws and checkpointed
state. -/
def Obligations.WindowWords : Prop :=
  (∀ s p x y z c t m, Runs (.kWinOpen x y z c) p s → s.OpensLive 6 (s.st.reg x).toNat .bankRead t →
    s.Maps 6 t.va .bank m → m.pa = t.pa → (s.noted t (some m)).HeaderAt t →
    let ck := (s.st.reg z).toNat
    let ckz := bits ck 1 3
    let stz := bits ck 4 3
    t.wopen = false → ck < 2 ^ 11 → s.st.place.slot < 2 ^ 12 →
    (bit ck 0 = true → ckz < s.st.mat.accs.length ∧ stz < s.st.mat.accs.length ∧ ckz ≠ stz) →
    ∃ h, exec (.kWinOpen x y z c) s = .next (((s.noted t (some m)).saved { t with h := h }).did fun st =>
        if bit ck 0 then (st.copyGroup ckz stz 0 (bits ck 7 4)).setCkv ckz 0 else st) ∧
      (let t' : KTable := { t with h := h }
       bits h 0 512 = bits t.h 0 512 ∧ t'.wopen = true ∧ t'.drafted = 0 ∧ t'.wctx = s.st.place.slot ∧
         t'.win = (s.st.reg y).toNat % 2 ^ 16 ∧ t'.rng0 = s.st.csr.rngCtr.toNat ∧ t'.len0 = t.len ∧
         t'.dpt = (extValue s.st p 0).toNat % 2 ^ 32 ∧ t'.df0 = noBlock ∧ t'.df1 = noBlock ∧ t'.shadow = false ∧
         t'.cken = bit ck 0 ∧ t'.ckz = ckz ∧ t'.stz = stz ∧ t'.stg = bits ck 7 4 ∧
         t'.ckmask = (if bit ck 0 then 1 else 0))) ∧
  (∀ s p x y z c t, Runs (.kCkpt x y z c) p s → s.OpensLive 6 (s.st.reg x).toNat .bankRead t → s.HeaderAt t →
    let j := (s.st.reg z).toNat % 16
    s.InWindow t (s.st.reg y) → t.cken = true → t.ckz < s.st.mat.accs.length → t.stz < s.st.mat.accs.length →
    exec (.kCkpt x y z c) s = .next ((s.saved (t.put (784 + j) 1 1)).did fun st =>
      (st.copyGroup t.ckz t.stz j t.stg).setCkv t.ckz j)) ∧
  (∀ s p x y z nr c t old m0 m1, Runs (.kCommit x y z nr c) p s → s.OpensLive 6 (s.st.reg x).toNat .bankRead t →
    let k := (s.st.reg z).toNat % 2 ^ 32
    s.EndsWindow t (s.st.reg y) nr k old m0 m1 →
    exec (.kCommit x y z nr c) s = .next ((s.settled t k old m0 m1).did fun st => st.restored t nr k)) ∧
  (∀ s p x y nr c t m, Runs (.kAbort x y nr c) p s → s.OpensLive 6 (s.st.reg x).toNat .bankRead t →
    s.EndsWindow t (s.st.reg y) nr 0 noBlock m m →
    exec (.kAbort x y nr c) s = .next ((s.settled t 0 noBlock m m).did fun st => st.restored t nr 0)) ∧
  ∀ t : KTable, t.closed.wopen = false ∧ t.closed.drafted = 0 ∧ t.closed.df0 = noBlock ∧ t.closed.df1 = noBlock ∧
    t.closed.len = t.len ∧ t.closed.pool = t.pool ∧ t.closed.live = t.live

/-- From R436 to R440: a block given to an entry that has none or shares its block; blocks given up; a block shared between tables;
what is asked of a block and of a pool; and page frames handed to the scrubber and taken from it. -/
def Obligations.FullerWords : Prop :=
  (∀ s p x y z (nc : Bool) c t b, Runs (.kFalloc x y z nc c) p s → s.OpensLive 6 (s.st.reg x).toNat .bankRead t →
    let i := (s.st.reg y).toNat % 2 ^ 32
    let q := s.poolAt t
    (s.st.reg z).toNat % 2 ^ 16 = 1 → i < blocksOf t.len → (t.wopen = true → i < t.len / 16) → s.EntryIs t i b →
    (∀ k, b ≠ noBlock → s.HoldsBlock t b k → k.ref ≤ 1 →
      exec (.kFalloc x y z nc c) s = .next ((s.dropTable s.st.place.part t.pa).did id)) ∧
    (∀ k n rest m, b = noBlock ∨ (s.HoldsBlock t b k ∧ 1 < k.ref ∧ (nc = false →
        s.BlockReads t b (q.blockPa b) q.stride ∧ s.Unweighted (q.blockPa n) q.stride)) →
      s.HasBlocks t 1 [n] rest → s.EntryAt t i m →
      let u := s.took t [n] rest
      let v := if b = noBlock then u else
        (if nc then u else u.engineWrite (q.blockPa n) (u.mem.readBytes (q.blockPa b) q.stride)).released t b
      v.EntryAt t i m →
      exec (.kFalloc x y z nc c) s =
        .next (((v.engineWrite m.pa (bytesOfNat 4 n)).dropTable s.st.place.part t.pa).did id))) ∧
  (∀ s p x y z c t (m : Nat → Mapped) (b : Nat → Nat), Runs (.kFfree x y z c) p s →
    s.OpensLive 6 (s.st.reg x).toNat .bankRead t →
    let i := (s.st.reg y).toNat % 2 ^ 32
    let n := (s.st.reg z).toNat % 2 ^ 16
    n ≠ 0 → i + n ≤ t.len / 16 → s.CutsAt t i m b n →
    exec (.kFfree x y z c) s = .next (((s.cutBack t m b n).dropTable s.st.place.part t.pa).did id)) ∧
  (∀ s p x y z c t src b old m, Runs (.kFref x y z c) p s → s.OpensLive 6 (s.st.reg x).toNat .bankRead t →
    s.OpensLive 6 (extValue s.st p 0).toNat .bankRead src →
    let i := (s.st.reg y).toNat % 2 ^ 32
    let j := (s.st.reg z).toNat % 2 ^ 32
    j < blocksOf src.len → s.EntryIs src j b → b ≠ noBlock → src.pool = t.pool → i < blocksOf t.len →
    (t.wopen = true → i < t.len / 16) → (∃ k, s.HoldsBlock t b k) → s.EntryIs t i old →
    (old = b → exec (.kFref x y z c) s = .next (s.did id)) ∧
    (old ≠ b → (old ≠ noBlock → ∃ k, s.HoldsBlock t old k) → s.EntryAt t i m →
      let u := s.shared t b
      let v := if old = noBlock then u else u.released t old
      v.EntryAt t i m →
      exec (.kFref x y z c) s =
        .next (((v.engineWrite m.pa (bytesOfNat 4 b)).dropTable s.st.place.part t.pa).did id))) ∧
  (∀ s p x y z c t b, Runs (.kFqryBlk x y z c) p s → s.OpensLive 6 (s.st.reg y).toNat .bankRead t →
    let o := (s.st.reg x).toNat
    let j := (s.st.reg z).toNat % 2 ^ 32
    let k := (s.poolAt t).block b
    s.st.Room o 16 16 → j < blocksOf t.len → s.EntryIs t j b →
    let bs := bytesOfNat 4 b ++ if b = noBlock then bytesOfNat 12 0 else bytesOfNat 4 k.ref ++ bytesOfNat 8 k.st.code
    exec (.kFqryBlk x y z c) s = .next (s.did fun st => { st with spad := st.spad.writeBytes o bs })) ∧
  (∀ s p x y c, Runs (.kFqryPool x y c) p s →
    let o := (s.st.reg x).toNat
    let i := (s.st.reg y).toNat % 2 ^ 8
    let q := s.pool s.st.place.part i
    s.st.Room o 16 16 → q.en = true → q.world = s.st.place.world →
    let waiting := (s.fullerWaits.filter fun w => w.part == s.st.place.part && w.pool == some i).length
    let bs := bytesOfNat 4 (q.countState .free) ++ bytesOfNat 4 (q.countState .toScrub + q.countState .scrubbing) ++
      bytesOfNat 4 (q.countState .held) ++ bytesOfNat 4 (waiting % 65536)
    exec (.kFqryPool x y c) s = .next (s.did fun st => { st with spad := st.spad.writeBytes o bs })) ∧
  (∀ s p x y c, Runs (.kFscrub x y c) p s →
    let n := (s.st.reg y).toNat % 2 ^ 16
    let f := (s.st.reg x).toNat / 65536
    let part := s.st.place.part
    let q := s.part part
    n ≠ 0 → (s.st.reg x).toNat % 65536 = 0 →
    (∀ i, f ≤ i → i < f + n → q.cfg.fbase ≤ i ∧ i < q.cfg.flimit ∧ (frameOf s.frames i).st = .owned) →
    let fs := genFrom n f id
    exec (.kFscrub x y c) s = .next (((fs.foldl (fun (u : State) i =>
      u.setFrame i { frameOf u.frames i with st := .toScrub }) s).setPart part
      { q with toScrub := fs.foldl runsPush q.toScrub, toOwn := fs.foldl runsDrop q.toOwn }).did id)) ∧
  ∀ s p x y z c fs rest, Runs (.kFscrubTake x y z c) p s →
    let n := (s.st.reg y).toNat % 2 ^ 16
    let a := (s.st.reg z).toNat
    let o := (s.st.reg x).toNat
    let mode := a % 4
    let world := bits a 2 6
    let part := s.st.place.part
    n ≠ 0 → bits a 8 8 = 0 → a < 2 ^ 32 → mode ≠ 3 → (mode ≠ 0 → world ≠ 0) → s.st.Room o 8 (8 * n) → s.fullerWaits = [] →
    s.frameTake part mode n = (fs, rest) → fs.length = n →
    let u := fs.foldl (fun (u : State) i =>
      let v := u.setFrame i ⟨.owned, mode, world, bits a 16 16, (frameOf u.frames i).kgen⟩
      if mode = 0 then v else v.zeroBytes (i * 65536) 65536) (s.setPart part { s.part part with scrubbed := rest })
    exec (.kFscrubTake x y z c) s = .next (u.did fun st => { st with
      spad := st.spad.writeBytes o (fs.flatMap fun i => bytesOfNat 8 (i * 65536)) })

/-! ## Events of strands and gangs -/

namespace Sys2Proof.Machine

/-- Engine `e` of the current strand may run, and the word `x` stands at the head of its queue, before `rest` (R14, R24): it starts
words, or this one goes on all the same. -/
def State.Heads (s : State) (e : Nat) (x : Entry) (rest : List Entry) : Prop :=
  s.st.queue e = x :: rest ∧ x.isJoin = false ∧ x.isMark e = false ∧ x.isLoop = false ∧
    s.engineMoves e = true ∧ s.st.mayRun e = true ∧ (s.startsNone e = false ∨ s.st.goesOn e x = true) ∧
    (e = 1 → s.st.queriesAwait x = false)

/-- The state in which the word at the head of a queue goes on: its progress is loaded. -/
def State.heading (s : State) (e : Nat) (x : Entry) (rest : List Entry) : State :=
  { s with st := { s.st.setQueue e ({ x with prog := Progress.fresh } :: rest) with work := x.prog } }

/-- Engine `e` of the current strand performs the word at the head of its queue: `t` is what is left (R14, R24). -/
def State.Performs (s : State) (e : Nat) (t : State) : Prop :=
  ∃ x rest u, s.Heads e x rest ∧ performWord x (s.heading e x rest) = .ok () u ∧ t = (u.performedWord e x.seq).restarted

/-- The word has performed no part of its effect; it may have waited. -/
def Entry.Untouched (x : Entry) : Prop := ∃ b w, x.prog = { Progress.fresh with started := b, wait := w }

/-- No two strands have one gang and member number. -/
def State.Distinct (s : State) : Prop := ((s.st :: s.others).map fun t => (t.place.gang, t.place.member)).Nodup

/-- No order is over. -/
def State.Settled (s : State) : Prop := ∀ o ∈ s.front.orders, s.orderOver o = false

/-- An event that switches the tile of the current strand to its other bank (R53, R54), no matrix word having started that must be
performed first (R352): where the strands are of different worlds, the one that leaves has no access right, and where the tile has
worked for another world, it keeps nothing that it cached (R499). -/
def Switches (i : Instr) (due : State → Prop) : Prop :=
  ∀ s u, s.Distinct → s.st.life = .active → s.st.matrixRuns = false → due s → s.rival = some u →
    let k := s.st.place.tileKey
    let world := (s.tileAt k).world
    let apart := ∃ w, world = some w ∧ w ≠ u.place.world
    ∃ t, exec i s = .next t ∧ t.st = { u with life := .active, turn := 0, barred := false } ∧
      { s.st with life := .residentIdle, turn := 0, barred := s.st.barred || s.st.place.world != u.place.world } ∈ t.others ∧
      t.others.length = s.others.length ∧
      (∀ v ∈ s.others, v.residentOn u.place.die u.place.tile = false → v ∈ t.others) ∧
      t = { s with st := t.st, others := t.others, tiles := t.tiles, btbs := t.btbs } ∧
      (apart → t.tileAt k = { TileCache.empty with world := some u.place.world, bank := u.place.bank }) ∧
      (¬ apart → t.tileAt k = { s.tileAt k with world := some u.place.world, bank := u.place.bank }) ∧
      (∀ j, j ≠ k → t.tileAt j = s.tileAt j) ∧
      ∀ b, b ∈ t.btbs ↔ b ∈ s.btbs ∧ (apart → b.tile ≠ some k)

/-- `v` is the saved context of `u` (R46, R235, R291, R304, R353, R395, R418): it awaits no page, and an attention word that did
begins again. -/
def SavedFrom (u v : Strand) : Prop :=
  v = { u with
    life := .saved, turn := 0, stall := 0, queues := v.queues, pageWaits := [], pageAnswers := []
    vec := { u.vec with dirty := 0 }
    mat := { u.mat with accs := u.mat.accs.map fun a => { a with rows := a.rows.map fun r => { r with dirty := false } } } } ∧
  (∀ e, (v.queue e).map Entry.word = (u.queue e).map Entry.word) ∧
  (∀ e, (∀ x ∈ u.queue e, ∀ g, x.prog.wait ≠ some (7, g)) → v.queue e = u.queue e) ∧
  v.queue 5 = (u.queue 5).map fun x => match x.prog.wait with | some (7, _) => { x with prog := Progress.fresh } | _ => x

/-- A member of a gang as it is placed (R48, R452): in the context that its queue names, and that context's world (R498). -/
def PlacedAs (m : Strand) (o : Order) (g k part die world : Nat) (q : QueueRec) (va : Nat) (kstep : Bool) : Prop :=
  m.place.gang = g ∧ m.place.member = k ∧ m.place.order = o.id ∧ m.place.size = o.op.size ∧ m.place.fn = o.fn ∧
  m.place.slot = q.ctx ∧ m.place.world = world ∧ m.place.part = part ∧ m.place.die = die ∧
  (m.life = .active ∨ m.life = .residentIdle) ∧ m.pc = o.op.entry ∧
  (∀ r : Reg, m.reg r = if r = 3 then BitVec.ofNat 64 va else if r = 2 then m.reg 2 else 0) ∧
  (∃ a, a < 1024 ∧ m.reg 2 = BitVec.ofNat 64 (q.stkbase.toNat + (a + 1) * q.stkarea * 65536)) ∧
  m.csr.privl = q.privl ∧ m.csr.hangto = q.hangto ∧ m.csr.kstep = kstep ∧ m.spadUnits = o.op.spad ∧
  m.mat.accs = List.replicate o.op.accs (Acc.fresh q.ctx) ∧ (∀ e, m.queue e = [])

/-- The front end acts for a queue (R447). -/
def State.frontOf (s : State) (fn q : Nat) : State :=
  { s with st := Strand.fresh (s.frontPlace fn q), others := s.st :: s.others }

/-- An access of the front end for a queue goes through (R447): nothing of the queue waits, and the access leaves the machine
as it is. -/
def State.FrontMaps (s : State) (fn q va : Nat) (acc : AccessKind) (m : Mapped) : Prop :=
  (∀ e ∈ s.front.units, e.1 ≠ fn * 64 + q) ∧ s.PlainAt m.pa ∧
    mapAccess 7 (s.queue fn q).ctx va acc (s.frontOf fn q) = .ok m (s.frontOf fn q)

/-- The front end reads `n` bytes of one line for a queue, and they are `x`. -/
def State.FrontReads (s : State) (fn q va n x : Nat) : Prop :=
  1 ≤ n ∧ va % 64 + n ≤ 64 ∧ va < 2 ^ 64 ∧ ∃ m, s.FrontMaps fn q va .read m ∧ s.peekNat .device m.pa n = x

/-- Write bytes over located pieces, one after the other, at their homes. -/
def State.writePieces : List (Located × Nat) → List Byte → State → State
  | [], _, s => s
  | p :: rest, bs, s => State.writePieces rest (bs.drop p.2) (s.writeHome p.1.m.pa (bs.take p.2))

/-- The front end may write bytes at `va` for a queue, by accesses of a class, and this leaves `u`: nothing of the queue waits, every
line is located before the first is written, and each write notes nothing in the tables. -/
def State.FrontWrites (s : State) (fn q va : Nat) (acc : AccessKind) (bs : List Byte) (u : State) : Prop :=
  (∀ e ∈ s.front.units, e.1 ≠ fn * 64 + q) ∧
  ∃ ls, frontLocate va bs.length acc (s.frontOf fn q) = .ok ls (s.frontOf fn q) ∧ u = State.writePieces ls bs s ∧
    ∀ j l, ls[j]? = some l →
      let v := (State.writePieces (ls.take j) bs s).frontOf fn q
      l.1.use v = .ok () v

/-- An order's next gang can be placed on a die (R45 to R48, R452): it is grid point `(gx, gy, gz)`, its members take `tiles`,
and its argument block is number `slot` of the queue. -/
structure State.GangFits (s : State) (i die : Nat) (o : Order) (tiles : List (Nat × Nat)) (slot gx gy gz : Nat) : Prop where
  order : s.order i = some o
  sound : o.err = none
  more : o.nextGang < o.op.total
  may : s.mayPlace o.fn = true
  openQueue : s.queueShut o.fn o.queue = false
  fits : s.fitGang (s.fn o.fn).part die o.op.size o.op.spad o.op.accs = some tiles
  slotFree : (freeNumbers 1 1024 ((s.gangsOf o.fn o.queue).map GangInfo.argSlot)).head? = some slot
  areasFree : (freeNumbers o.op.size 1024 ((s.gangsOf o.fn o.queue).flatMap GangInfo.areas)).length = o.op.size
  point : gx = o.nextGang % o.op.nx ∧ gy = o.nextGang / o.op.nx % o.op.ny ∧ gz = o.nextGang / (o.op.nx * o.op.ny)

/-- A gang of an order has been placed, its argument block having been written from `s` to `s'`. Strands that were resident keep all
but, on a tile that is taken, their access rights (R499). -/
def State.GangPlaced (s s' t : State) (die : Nat) (o : Order) (tiles : List (Nat × Nat)) (slot gx gy gz : Nat) : Prop :=
  let part := (s.fn o.fn).part
  let q := s.queue o.fn o.queue
  let world := (s.ctx q.ctx).world
  ∃ old ms areas, t.others = old ++ ms ∧ t.mem = s'.mem ∧ old.length = s'.others.length ∧
    (∀ u v, (u, v) ∈ (s'.st :: s'.others).zip (t.st :: old) → v = { u with barred := v.barred } ∧
      ((∀ m ∈ ms, u.residentOn die m.place.tile = false) → v = u)) ∧
    ms.length = o.op.size ∧ areas.length = o.op.size ∧ areas.Nodup ∧
    (∀ k, k < o.op.size → ∃ m, ms[k]? = some m ∧
      PlacedAs m o s'.front.nextGang k part die world q (q.argbase.toNat + 128 * slot) (s'.part part).cfg.kstep ∧
      tiles[k]? = some (m.place.tile, m.place.bank) ∧ m.place.tile ∈ s.usableTiles part die) ∧
    t.front.gangs = s'.front.gangs ++
      [⟨s'.front.nextGang, o.id, gx, gy, gz, o.op.size, slot, areas, false, 0, none, none, false⟩] ∧
    t.front.nextGang = s'.front.nextGang + 1 ∧
    t.front.orders = s'.front.orders.map fun (x : Order) =>
      if x.id = o.id then { x with nextGang := x.nextGang + 1, slot := q.ctx, world := world } else x

end Sys2Proof.Machine

/-- From R14, R21, R22, R54, R196, R302, R314, R364: the splitter goes on; engine words that waited in their queues are performed;
parked versioned loads time out; a drain ends, with the scalar trap or with the fault of the lowest engine; and a tile
switches its banks. -/
def Obligations.StrandEvents : Prop :=
  (∀ s : State, exec .steerResume s =
    .next { s with st := { s.st with stalled := s.st.stalled && decide (s.st.csr.slipLimit ≤ s.st.slip) } }) ∧
  (∀ s t e, 1 ≤ e → e ≤ 3 → s.Performs e t → exec (.engineWordPerformed e 0) s = .next t) ∧
  (∀ s t e, 4 ≤ e → e ≤ 6 → s.Performs e t → exec (.remoteUnitReport e 0) s = .next t) ∧
  (∀ s t, s.Performs 4 t → exec .bankWaitSatisfied s = .next t) ∧
  (∀ s t, s.Performs 2 t → (∃ x rest y z c, s.st.queue 2 = x :: rest ∧ x.word = .mTsub y z c) → exec .taskAccept s = .next t) ∧
  (∀ s x rest y z g c, s.Heads 3 x rest → x.word = .cPf y z g c →
    exec (.engineWordPerformed 3 0) s = .next ((s.heading 3 x rest).performedWord 3 x.seq).restarted) ∧
  (∀ s x rest y z m c, s.Heads 5 x rest → x.word = .aPref y z m c →
    exec (.remoteUnitReport 5 0) s = .next ((s.heading 5 x rest).performedWord 5 x.seq).restarted) ∧
  (∀ s x rest y a b k d c r, s.Heads 4 x rest → x.word = .bWait y a b k d c → x.Untouched → quietWord x.extA →
    x.opX.toNat % (if d then 8 else 4) = 0 → (s.heading 4 x rest).bankWait x = some r → r.hit = true →
    let u := s.heading 4 x rest
    exec .bankWaitSatisfied s =
      .next (({ u with bankWaits := u.bankWaits.filter (· != r) } : State).performedWord 4 x.seq).restarted) ∧
  (∀ s x rest y z c k u, s.Heads 2 x rest → x.word = .mTsub y z c → x.Untouched →
    (s.heading 2 x rest).Submits x.opX.toNat (x.opY.toNat % 2 ^ 32) k u →
    exec .taskAccept s = .next (u.performedWord 2 x.seq).restarted) ∧
  (∀ s e k, ∃ t, exec (.engineWordPerformed e k) s = .next t) ∧ (∀ s e k, ∃ t, exec (.remoteUnitReport e k) s = .next t) ∧
  (∀ s, ∃ t, exec .bankWaitSatisfied s = .next t) ∧ (∀ s, ∃ t, exec .taskAccept s = .next t) ∧
  (∀ s, ∃ t, exec .trapTaken s = .next t) ∧
  (∀ s : State, s.st.queue 4 = [] → ∃ t, exec .versionLoadTimeout s = .next t ∧ t = { s with versWaits := t.versWaits } ∧
    t.versWaits.length = s.versWaits.length ∧
    ∀ w v, (w, v) ∈ s.versWaits.zip t.versWaits →
      if w.answer = none ∧ w.late s.clock = true then v = { w with answer := some (.miss 1) }
      else v = w) ∧
  (∀ (w : VWait) c, w.late c = true ↔ w.timeout ≠ 0 ∧ w.since + w.timeout ≤ c) ∧
  (∀ s p, s.stoppedGang = false → s.st.pend = some p → p.faults = [] → (∀ e, 1 ≤ e → e ≤ 6 → s.st.queue e = []) →
    exec .trapTaken s = .next (s.takeTrap p.addr p.addr false 0 p.info).settle) ∧
  (∀ s p a b e f, s.stoppedGang = false → s.st.pend = some p → p.faults = a ++ (e, f) :: b → (∀ x ∈ a, e < x.1) →
    (∀ x ∈ b, e ≤ x.1) → p.stop = true → s.st.remoteHolds = false →
    (s.st.matrixRuns = true → ∀ k, 1 ≤ k → k ≤ 6 → s.moveEngine k = none) →
    exec .trapTaken s = .next (s.takeTrap p.addr s.st.pc false e f).settle) ∧
  (∀ s p a b e f, s.stoppedGang = false → s.st.pend = some p → p.faults = a ++ (e, f) :: b → (∀ x ∈ a, e < x.1) →
    (∀ x ∈ b, e ≤ x.1) → p.stop = false → s.st.heldElsewhere = false → (∀ k, 1 ≤ k → k ≤ 6 → s.moveEngine k = none) →
    exec .trapTaken s = .next (s.takeTrap p.addr p.addr true e f).settle) ∧
  Switches .waitSwitchTimeout (fun s => s.st.inWait = true ∧ 1024 < s.st.stall) ∧
  Switches .turnQuantumExpiry fun s => 262144 ≤ s.st.turn

/-- From R45 to R52, R452, R456, R464 to R466: the next gang of an order is placed whole; a gang is pre-empted and resumed as a
unit; a strand retires, its gang with the last member, and its order with the last gang, whose packet then goes on or ends;
a hung gang leaves its record, its completion and a reset partition. That its members stop when it is found, that every gang of
the partition that hangs leaves its record before the one reset, the SRC of event 7, and what becomes of a completion that cannot
be written then, are the model's choices (logs 51 and 71); so are the tiles that a gang takes (log 2), its free argument slot and
stack areas (log 33), and the value of a word that cannot be read for a hang record (log 10). -/
def Obligations.GangEvents : Prop :=
  (∀ s i die o tiles slot gx gy gz s', s.GangFits i die o tiles slot gx gy gz →
    s.frontRun o.fn o.queue (writeArgs o.op ((s.queue o.fn o.queue).argbase.toNat + 128 * slot) gx gy gz) = (.done (), s') →
    ∃ t, exec (.gangPlace i die) s = .next t ∧ s.GangPlaced s' t die o tiles slot gx gy gz) ∧
  (∀ s i die o tiles slot gx gy gz u, s.GangFits i die o tiles slot gx gy gz → o.op.argv = 0 →
    s.FrontWrites o.fn o.queue ((s.queue o.fn o.queue).argbase.toNat + 128 * slot) .args
      (argBlock o.op gx gy gz (List.replicate 64 0)) u →
    ∃ t, exec (.gangPlace i die) s = .next t ∧ s.GangPlaced u t die o tiles slot gx gy gz) ∧
  (∀ s g, (∃ x ∈ s.front.gangs, x.id = g ∧ x.saved = false ∧ x.hung = none) →
    (∀ u ∈ s.st :: s.others, u.place.gang = g → u.life = .active → u.matrixRuns = false) → ∃ t, exec (.gangPreempt g) s = .next t ∧ t.mem = s.mem ∧
    t.others.length = s.others.length ∧
    (∀ u v, (u, v) ∈ (s.st :: s.others).zip (t.st :: t.others) →
      if u.place.gang = g ∧ u.life ≠ .gone then SavedFrom u v else v = u) ∧
    t.front.gangs = s.front.gangs.map (fun (x : GangInfo) => if x.id = g then { x with saved := true, stall := 0 } else x) ∧
    (∀ b ∈ t.bankWaits, b ∈ s.bankWaits) ∧ (∀ b ∈ t.versWaits, b ∈ s.versWaits) ∧ ∀ b ∈ t.fullerWaits, b ∈ s.fullerWaits) ∧
  (∀ s g die x m tiles, s.front.gangs.find? (fun y => y.id == g && y.saved) = some x →
    let members := (s.st :: s.others).filter fun t => t.place.gang == g && t.life == .saved
    members.head? = some m → s.mayPlace m.place.fn = true →
    s.fitGang m.place.part die x.size ((members.map Strand.spadUnits).foldl max 0)
      ((members.map fun t => t.mat.accs.length).foldl max 0) = some tiles →
    (∀ u ∈ members, u.place.member < x.size) →
    ∃ t, exec (.gangResume g die) s = .next t ∧ t.mem = s.mem ∧ t.others.length = s.others.length ∧
      (∀ u v, (u, v) ∈ (s.st :: s.others).zip (t.st :: t.others) →
        if u.place.gang = g ∧ u.life = .saved then
          ∃ tile bank, tiles[u.place.member]? = some (tile, bank) ∧
            v = { u with
              place := { u.place with die := die, tile := tile, bank := bank }
              life := .residentIdle, mat := v.mat, queues := v.queues } ∧
            v.mat = { u.mat with loads := v.mat.loads } ∧ (∀ e, e ≠ 2 → v.queue e = u.queue e) ∧
            (v.queue 2 = u.queue 2 ∨ v.queue 2 = (u.queue 2).map Entry.reloads)
        else v = u) ∧
      t.front.gangs = s.front.gangs.map (fun (y : GangInfo) => if y.id = g then { y with saved := false } else y)) ∧
  (∀ s : State, s.st.ended = true → s.st.life = .active → (∀ e, s.st.queue e = []) → s.st.hold = .none → s.st.pend = none →
    s.stoppedGang = false → s.st.Translated →
    let u := s.close 4
    let out : State := { u with st := { u.st with life := .gone } }
    let g := s.st.place.gang
    let led : State := { out with front := { out.front with gangs := out.front.gangs.map fun (x : GangInfo) =>
      if x.id = g then { x with leader := some (u.st.csr.hangto, u.st.place.part, u.st.place.die) } else x } }
    ((∃ v ∈ s.others, v.place.gang = g) → s.st.place.member ≠ 0 → out.Settled → exec .strandRetire s = .next out) ∧
    ((∃ v ∈ s.others, v.place.gang = g) → s.st.place.member = 0 → led.Settled → exec .strandRetire s = .next led) ∧
    ((∀ v ∈ s.others, v.place.gang ≠ g) →
      let left : State := { out with front := { out.front with gangs := out.front.gangs.filter fun x => x.id != g } }
      left.Settled → exec .strandRetire s = .next left)) ∧
  (∀ (s : State) o p, s.front.packets.find? (fun p => p.order == some o.id) = some p → o.err = none → p.dead = false →
    p.kind ≠ 5 → p.ops.length ≤ p.nextOp →
    let u := s.closeWindowsOf o.id
    let v : State := { u with front := { u.front with orders := u.front.orders.filter fun x => x.id != o.id } }
    v.front.packets.find? (fun p => p.order == some o.id) = some p →
    s.endOrder o = (v.setPacket p.fn p.queue p.pos fun p => { p with order := none }).endPacket p) ∧
  (∀ (s : State) (g : GangInfo) (l : LeaderInfo), s.leaderOf g = some l → g.hung = none → g.saved = false → l.hangto ≠ 0 → l.hangto.toNat * 65536 ≤ g.stall →
    s.hung g = some l) ∧
  (∀ s g i l o u, s.front.gangs.find? (fun x => x.id == i) = some g → s.hung g = some l → s.order g.order = some o →
    g.hung = none → g.recorded = false → s.hungGangs l.part = [g] → (∀ x ∈ s.front.gangs, x.id = i → x = g) →
    let now := { g with hung := some s.clock }
    let s1 := s.setGang i fun _ => now
    let va := (s.queue o.fn o.queue).hangaddr.toNat
    let tag := ((s.front.packets.find? fun p => p.order == some o.id).map PacketRun.tag).getD 0
    (if va = 0 then u = s1 else s1.frontRun o.fn o.queue (writeHang s1 now o l va) = (.done (), u) ∧
      u.front = s1.front ∧ u.st = s1.st ∧ u.others = s1.others) →
    ∃ reason : Word, reason.toNat < 256 ∧
      let v : State := { u.setGang i (fun g => { g with recorded := true }) with freeCount := u.freeCount + 1 }
      let w := (v.pushCq ⟨o.fn, o.queue, 5, o.pkt, [tag, reason, BitVec.ofNat 64 va] ++ List.replicate 7 0 ++
        [BitVec.ofNat 64 g.indexWord], false, false⟩).scrivener (scrivSrc o.fn o.queue l.die) 7 va g.indexWord
      let out := w.flushCq o.fn o.queue (w.front.cqWait.length + 1)
      exec (.hangDetected i) s = .next (if out.cqParked o.fn o.queue then out else out.resetPart l.part 2)) ∧
  ∀ (s : State) fn q n, s.writeCq fn q = none → s.flushCq fn q n = s

/-! ## Events of translation, of weight regions, of the Draper and of the Fuller -/

namespace Sys2Proof.Machine

/-- The registers of a function's translation. -/
def State.trans (s : State) (fn : Nat) : TransRegs := (s.fn fn).trans

/-- A function's queue of page requests has a record to write, and room for it. -/
def State.DueRequest (s : State) (fn : Nat) (r : PageReq) : Prop :=
  let t := s.trans fn
  t.reqs.find? (fun r => !r.written) = some r ∧ t.prqEn = true ∧ (t.prqTail - t.prqHead).toNat < 2 ^ t.prqLogn

/-- What a response with a code does to the waits of one strand on a granule, where `live` tells the granules that still have
a request (R288 to R290). -/
def Answers (fn g code : Nat) (live : Nat → Prop) (u v : Strand) : Prop :=
  v = { u with pageWaits := v.pageWaits, pageAnswers := v.pageAnswers, life := v.life } ∧
  (∀ w, w ∈ v.pageWaits ↔ w ∈ u.pageWaits ∧ (w.fn ≠ fn ∨ (w.granule ≠ g ∧ live w.granule))) ∧
  (code = 0 → v.pageAnswers = u.pageAnswers) ∧
  (code ≠ 0 → ∀ a, a ∈ v.pageAnswers ↔ a ∈ u.pageAnswers ∨ ∃ w ∈ u.pageWaits, w.fn = fn ∧ w.granule = g ∧ a = ⟨w.eng, w.va, code⟩) ∧
  v.life = if u.life = .parked ∧ ∀ w ∈ v.pageWaits, w.eng ≠ 0 then .residentIdle else u.life

/-- No second-stage translation of a function is held: none is cached, and what has been translated for it and is not accessed
yet translates again, the pages of its regions' overflow areas and the headers of its open windows among it (R284; log 37). -/
def State.NoSecond (t : State) (fn : Nat) : Prop :=
  (∀ c ∈ t.tiles, (∀ e ∈ c.2.tlbs, ¬ (e.two = true ∧ e.fn = fn)) ∧ ∀ w ∈ c.2.walks, w.fn ≠ fn) ∧
    (∀ u ∈ t.st :: t.others, ∀ x ∈ u.stores, x.scope = none → x.fn = fn → x.stale = true) ∧
    (∀ b ∈ t.bankWaits, b.fn = fn → b.hit = true) ∧
    (∀ r ∈ t.regions, r.fn = fn → (∀ f ∈ r.ovfFrames, f.fresh = false) ∧ ∀ v ∈ r.vers, v.slot = none) ∧
    ∀ w ∈ t.windows, w.fn = fn → w.stale = true

/-- A unit of the device makes an access in a context, whatever the Drapers hold; the access leaves the machine as it is, and its
line is plain. -/
def State.UnitMaps (s : State) (slot va : Nat) (acc : AccessKind) (m : Mapped) : Prop :=
  s.PlainAt m.pa ∧ ∀ ds, unitMap 7 slot va acc { s with drapers := ds } = .ok m { s with drapers := ds }

/-- Elements written one after the other, element `c` at `m c`. -/
def State.putElems (s : State) (n : Nat) (m : Nat → Mapped) (out : Nat → Nat) : Nat → State
  | 0 => s
  | c + 1 => (s.putElems n m out c).writeHome (m c).pa (bytesOfNat n (out c))

/-- The row of a task from `src` to `dst` goes through (R373): its activations are read at `ms`, its destination, of attribute `a`,
is checked at `mk`, and column `c` is written, as `out c`, at `md c`; the formats are of whole bytes. -/
structure State.RowRuns (s : State) (t : DTask) (src dst a : Nat) (ms mk md : Nat → Mapped) (out : Nat → Nat) : Prop where
  formats : ByteFormat (shapeAdesc t.img) ∧ ByteFormat a ∧ 1 ≤ shapeK t.img ∧ 1 ≤ shapeNcol t.img ∧ shapeNcol t.img ≤ 64
  aligned : src % (fmtOf (shapeAdesc t.img)).bytes = 0 ∧ dst % (fmtOf a).bytes = 0
  reads : ∀ k, k < shapeK t.img → (ms k).fmta = shapeAdesc t.img ∧
    s.UnitMaps t.slot ((src + k * (fmtOf (shapeAdesc t.img)).bytes) % 2 ^ 64) .read (ms k)
  checks : ∀ c, c < shapeNcol t.img → (mk c).fmta = a ∧ (md c).fmta = a ∧
    s.UnitMaps t.slot ((dst + c * (fmtOf a).bytes) % 2 ^ 64) .check (mk c) ∧
    s.UnitMaps t.slot ((dst + c * (fmtOf a).bytes) % 2 ^ 64) .write (md c)
  writes : ∀ c, c < shapeNcol t.img →
    (s.putElems (fmtOf a).bytes md out c).UnitMaps t.slot ((dst + c * (fmtOf a).bytes) % 2 ^ 64) .write (md c)

/-- The record of a task ends with `status` (R372), from the state `s` that its rows leave: STATUS is written, DONE counts, where
there is one, and HEAD, which stands at the record, passes its units. `u` is what is left. -/
structure State.RecordEnds (s u : State) (t : DTask) (status : Nat) (m : Nat → Mapped) : Prop where
  statusAt : s.UnitMaps t.slot (t.recVa + 40) .write (m 0)
  doneAt : t.doneVa ≠ 0 → t.doneVa % 8 = 0 ∧ (s.writeHomeNat (m 0).pa 8 status).UnitMaps t.slot t.doneVa .bank (m 1)
  headAt : let x := s.writeHomeNat (m 0).pa 8 status
    let y := if t.doneVa = 0 then x else x.writeHomeNat (m 1).pa 8 ((x.mem.readNat (m 1).pa 8 + 1) % 2 ^ 64)
    t.ring % 64 = 0 ∧ y.UnitMaps t.slot (t.ring + 20) .read (m 2) ∧ y.UnitMaps t.slot (t.ring + 20) .bank (m 3) ∧
    y.peekNat t.who (m 2).pa 4 = t.unit.toNat ∧
    u = y.writeHomeNat (m 3).pa 4 ((y.mem.readNat (m 3).pa 4 + t.len) % 2 ^ 32)

/-- The entry `i` of a partition's weight region table. -/
def State.weightAt (s : State) (part i : Nat) (w : WeightEntry) : Prop :=
  (s.part part).weights.find? (fun w => w.1 == i) = some (i, w)

/-- A frame is in a list of runs. -/
def inRuns (l : List (Nat × Nat)) (i : Nat) : Prop := ∃ r ∈ l, r.1 ≤ i ∧ i < r.2

/-- From `s` to `t` the `n` bytes at `pa` have become zero, with fresh checks, and no L1 holds a line of theirs; no other byte has
changed (R429). -/
def State.Zeroed (s t : State) (pa n : Nat) : Prop :=
  let hit := fun l => pa ≤ l * 64 ∧ l * 64 < pa + n
  (∀ a, pa ≤ a → a < pa + n → t.mem.read a = 0) ∧ (∀ a, a < pa ∨ pa + n ≤ a → t.mem.read a = s.mem.read a) ∧
    (∀ l ∈ t.badLines, ¬ hit l) ∧ (∀ l ∈ t.flakyLines, ¬ hit l) ∧
    ∀ c ∈ t.tiles, ∀ e ∈ c.2.l1, ¬ (pa / 64 ≤ e.line ∧ e.line * 64 < pa + n)

/-- Runs as the Fuller keeps them. -/
def RunsOk (l : List (Nat × Nat)) : Prop := ∀ r ∈ l, r.1 ≤ r.2

end Sys2Proof.Machine

/-- From R284 to R290, R294: a page request's record is written in its queue's order and announced; a response frees its tag and
acts on every access that waits on it; second-stage translations are dropped one write after another; and a dirty bitmap
switches when the switch is done. That a drop of KIND 1 leaves no second-stage translation of the function is the model's choice: it
drops more than the leaf that R284 asks for (log 49). -/
def Obligations.TranslationEvents : Prop :=
  (∀ s fn r, s.DueRequest fn r → ∃ t, exec (.pageRequestPost fn) s = .next t ∧
    let q := s.trans fn
    t.mem = (s.writeHome (q.prqBase * 4096 + 32 * (q.prqTail.toNat % 2 ^ q.prqLogn)) (r.record fn q)).mem ∧
    t.trans fn = { q with
      prqTail := q.prqTail + 1, reqs := q.reqs.map fun x => if x.tag = r.tag then { x with written := true } else x } ∧
    t.st = s.st ∧ ((q.prqIe = false ∨ q.prqTail ≠ q.prqHead) → t.out = s.out)) ∧
  (∀ s fn r, s.DueRequest fn r → (s.trans fn).prqIe = true → (s.trans fn).prqTail = (s.trans fn).prqHead → fn ≠ 0 →
    (∀ e ∈ (s.fn 0).msix, e.1 ≠ (s.trans fn).prqVec) → (s.trans fn).prqVec < 256 →
    ∃ t, exec (.pageRequestPost fn) s = .next t ∧ t.out = .msi 0 (s.trans fn).prqVec :: s.out) ∧
  (∀ s fn, (∀ r ∈ (s.trans fn).reqs, r.written = true) ∨ (s.trans fn).prqEn = false → exec (.pageRequestPost fn) s = .next s) ∧
  (∀ (r : PageReq) (fn : Nat) (q : TransRegs), r.eng < 8 → r.ctx < 2 ^ 12 → r.lvl < 4 → r.kind < 4 → r.acc < 4 → fn < 128 →
    r.tag < 2 ^ 16 → r.granule < 2 ^ 48 → r.va < 2 ^ 64 →
    let x := natOfBytes (r.record fn q)
    (r.record fn q).length = 32 ∧ bit x 63 = !(bit (q.prqTail.toNat / 2 ^ q.prqLogn) 0) ∧ bits x 48 3 = r.eng ∧
      bits x 32 12 = r.ctx ∧ bits x 28 2 = r.lvl ∧ bits x 26 2 = r.kind ∧ bits x 24 2 = r.acc ∧ bits x 16 7 = fn ∧
      bits x 0 16 = r.tag ∧ bits x 64 64 = r.granule * 65536 ∧ bits x 128 64 = r.va ∧ bits x 192 64 = 0) ∧
  (∀ s fn head, (∀ r ∈ (s.trans fn).reqs, r.written = true) → let q := s.trans fn
    let u := s.setTrans fn fun t => { t with prqHead := BitVec.ofNat 32 head }
    exec (.prqheadWrite fn head) s =
      .next (if q.prqIe = true ∧ BitVec.ofNat 32 head ≠ q.prqTail then u.raiseMsi 0 q.prqVec else u)) ∧
  (∀ s fn tag code, (∀ r ∈ (s.trans fn).reqs, r.tag ≠ tag) ∨ 3 ≤ code →
    exec (.prspWrite fn tag code) s = .next (s.setTrans fn fun t => { t with badTag := true })) ∧
  (∀ s fn tag code r, (s.trans fn).reqs.find? (fun r => r.tag == tag) = some r → code < 3 →
    (∀ d ∈ s.drapers, (∀ x ∈ d.2.tasks, x.fn ≠ fn) ∧ ∀ e ∈ d.2.ended, e.fn ≠ fn) →
    let left := (s.trans fn).reqs.filter fun x => x.tag != tag
    let live := fun g => ∃ x ∈ left, x.granule = g
    ∃ t, exec (.prspWrite fn tag code) s = .next t ∧ t.trans fn = { s.trans fn with reqs := left } ∧ t.mem = s.mem ∧
      t.others.length = s.others.length ∧
      ∀ u v, (u, v) ∈ (s.st :: s.others).zip (t.st :: t.others) → Answers fn r.granule code live u v) ∧
  (∀ s fn w, ∃ t, exec (.s2invWrite fn w) s = .next t ∧ t.mem = s.mem ∧
    ((s.trans fn).invBusy = true → t = s.setTrans fn fun q => { q with invNext := q.invNext ++ [w] }) ∧
    ((s.trans fn).invBusy = false → (t.trans fn).invBusy = true ∧
      (w.toNat % 4 = 1 ∨ w.toNat % 4 = 2 → t.NoSecond fn))) ∧
  (∀ s fn, (s.trans fn).invNext = [] → exec (.s2invDone fn) s = .next (s.setTrans fn fun q => { q with invBusy := false })) ∧
  (∀ s fn w rest, (s.trans fn).invNext = w :: rest → ∃ t, exec (.s2invDone fn) s = .next t ∧ t.mem = s.mem ∧
    t.trans fn = { s.trans fn with invNext := rest } ∧
    (w.toNat % 4 = 1 ∨ w.toNat % 4 = 2 → t.NoSecond fn)) ∧
  (∀ s fn (w : BitVec 64), ∃ t, exec (.dbmctlWrite fn w) s = .next t ∧ let q := s.trans fn
    t = s.setTrans fn (fun _ => t.trans fn) ∧
    t.trans fn = { q with
      dbmLen := w.toNat / 2 ^ 32, dbmSelW := w.getLsbD 1, dbmEnW := w.getLsbD 0
      dbmBusy := q.dbmBusy || decide (w.getLsbD 1 ≠ q.dbmSelW ∨ w.getLsbD 0 ≠ q.dbmEnW) }) ∧
  ∀ s fn, (s.trans fn).dbmBusy = true → exec (.dbmSwitchDone fn) s =
    .next (s.setTrans fn fun q => { q with dbmSel := q.dbmSelW, dbmEn := q.dbmEnW, dbmBusy := false })

/-- From R356, R369 to R374, R378: weight regions are registered, checked, disabled and go off; tasks form passes, passes find a
tile whose bank holds their region, and end with every row of theirs written or parked; and deadlines expire. Of a row that
succeeds it is stated what is written: the elements at DST, STATUS with RES 1 and the flags, one added to DONE, and HEAD passed over
the record's units. -/
def Obligations.DraperEvents : Prop :=
  (∀ s part i w, s.weightAt part i w → ∃ t, exec (.weightRegionEnable part i) s = .next t ∧ t.mem = s.mem ∧
    t.weightAt part i (if w.en = false ∧ w.st = 0 then { w with en := true, st := 1 } else w)) ∧
  (∀ (s : State) part i, (∀ x ∈ (s.part part).weights, x.1 ≠ i) → ∃ t, exec (.weightRegionEnable part i) s = .next t ∧
    t.mem = s.mem ∧ t.weightAt part i { WeightEntry.clear with en := true, st := 1 }) ∧
  (∀ s part i w, s.weightAt part i w → w.st ≠ 1 → exec (.weightRegionHashDone part i) s = .next s) ∧
  (∀ s part i w, s.weightAt part i w → w.st = 1 →
    let id := s.identity w
    let clear := ∀ x ∈ (s.part part).weights, x.1 ≠ i → x.2.en = true →
      (w.frame + w.ngr ≤ x.2.frame ∨ x.2.frame + x.2.ngr ≤ w.frame) ∧ ¬ (x.2.st = 2 ∧ x.2.id = id)
    let good := w.legal = true ∧ w.inside = true ∧ s.framesAgree w = true ∧ s.tritsOk w = true ∧ clear
    (good → exec (.weightRegionHashDone part i) s =
      .next ((s.setWeight part i fun w => { w with st := 2, id := id }).advertiseOne part w.world id true)) ∧
    (¬ good → exec (.weightRegionHashDone part i) s = .next (s.setWeight part i fun w => { w with st := 3 }))) ∧
  (∀ s part i w, s.weightAt part i w → w.st ≠ 2 →
    exec (.weightRegionDisable part i) s = .next (s.setWeight part i fun w => { w with en := false, st := 0 })) ∧
  (∀ s part i w, s.weightAt part i w → w.st = 2 →
    (∀ d ∈ s.drapers, ∀ x ∈ d.2.tasks, x.part = part → x.wid = w.id → x.st ≠ .waiting ∧ x.st ≠ .ready) →
    ∃ t, exec (.weightRegionDisable part i) s = .next t ∧ t.mem = s.mem ∧ t.weightAt part i { w with en := false } ∧
      (w.id ≠ 0 → ∀ b ∈ t.bolts, b.2.ident ≠ w.id)) ∧
  (∀ s part i w, s.weightAt part i w → w.en = false → w.st = 2 →
    (∀ d ∈ s.drapers, (∀ p ∈ d.2.passes, ¬ (p.part = part ∧ p.wid = w.id)) ∧
      ∀ x ∈ d.2.tasks, x.part = part → x.wid = w.id → x.st = .waiting ∨ x.st = .ready) →
    exec (.weightRegionOff part i) s = .next (s.setWeight part i fun w => { w with st := 0 })) ∧
  (∀ (s : State) die x, s.trigger die = some x → x ∈ (s.draper die).tasks ∧ x.st = .ready ∧
    (x.deadline ≤ s.clock ∨ 256 ≤ rowsOf ((s.draper die).tasks.filter fun u => u.st == .ready && s.tasksMatch x u)) ∧
    ∀ u ∈ (s.draper die).tasks, u.st = .ready → u.deadline ≤ s.clock → x.deadline ≤ u.deadline ∧ x.deadline ≤ s.clock) ∧
  (∀ (s : State) die x, s.trigger die = some x → ∃ t p, exec (.taskDeadline die) s = .next t ∧ t.mem = s.mem ∧
    let d := s.draper die
    (t.draper die).passes = d.passes ++ [p] ∧ p.tile = none ∧ p.wid = x.wid ∧ p.part = x.part ∧ p.tasks.head? = some x.id ∧
      (∀ i ∈ p.tasks, i = x.id ∨ ∃ u ∈ d.tasks, u.id = i ∧ u.st = .ready ∧ s.tasksMatch x u = true) ∧
      (t.draper die).tasks = d.tasks.map fun u => if u.id ∈ p.tasks then { u with st := .formed } else u) ∧
  (∀ acc l : List DTask, rowsOf acc ≤ 256 → rowsOf (joinTasks acc l) ≤ 256 ∧
    ∃ l' rest, l = l' ++ rest ∧ joinTasks acc l = acc ++ l' ∧
      ∀ a, rest.head? = some a → 256 < rowsOf (joinTasks acc l) + a.rows.length) ∧
  (∀ (s : State) die p w, (s.draper die).passes.find? (fun p => p.tile.isNone) = some p → s.region p.part p.wid = some w →
    (∃ i b, i ∈ s.passTiles p.part die ∧ s.tileFree die i = true ∧ b < 2 ∧ s.bankBusy (boltKey die i b) = false) →
    s.svc.ckptState = 0 →
    ∃ t i b, exec (.passPlace die) s = .next t ∧ t.mem = s.mem ∧ i ∈ s.passTiles p.part die ∧ s.tileFree die i = true ∧ b < 2 ∧
      (t.bolt (boltKey die i b)).holds (s.regionBank w) = true ∧
      (t.draper die).passes = (s.draper die).passes.map (fun q => if q.id = p.id then { q with tile := some i, bank := b } else q) ∧
      (t.draper die).tasks = (s.draper die).tasks.map fun u => if u.id ∈ p.tasks then { u with st := .running } else u) ∧
  (∀ (s : State) die p, (s.draper die).passes.find? (fun p => p.tile.isSome) = some p → s.svc.ckptState = 0 →
    ∃ t, exec (.passComplete die) s = .next t ∧
    (∀ q ∈ (t.draper die).passes, q.id ≠ p.id) ∧ ∀ x ∈ (t.draper die).tasks, x.id ∈ p.tasks → x.st = .parked) ∧
  (∀ (s : State) die p tile (x : DTask) src dst a (ms mk md m : Nat → Mapped) u status flags,
    (s.draper die).passes.find? (fun p => p.tile.isSome) = some p → s.svc.ckptState = 0 → p.tile = some tile → p.tasks = [x.id] →
    (s.draper die).tasks.find? (fun t => t.id == x.id) = some x → x.rows = [(src, dst)] → x.fail = none → x.lost = false →
    x.parked = [] → x.parking = [] → (∀ d ∈ s.drapers, d.2.ended = []) →
    let b := s.bolt (boltKey die tile p.bank)
    let k := shapeK x.img
    let sf := fmtOf (shapeAdesc x.img)
    let act := fun i => sf.exact (s.peekNat x.who (ms i).pa sf.bytes) 0
    let weight := fun i col => b.weight (shapeWdesc x.img) 0 i col
    let sums := passRow (fmtOf (shapeWdesc x.img)).tri (genFrom k 0 fun i => (act i).1) (fun i col => (weight i col).1) fun _ => 0
    let epi := fun c => epiElem (shapeInt x.img) none none (shapeAct x.img) ((sums.map Prod.fst).getD c 0)
    let out := fun c => (fmtOf a).encode 0 0 (fpOf (epi c).1)
    let w := s.putElems (fmtOf a).bytes md (fun c => (out c).1) (shapeNcol x.img)
    s.RowRuns x src dst a ms mk md (fun c => (out c).1) →
    (∀ i : Nat, flags.getLsbD i = true ↔ x.flags.getLsbD i = true ∨ (∃ j, j < k ∧ (act j).2.getLsbD i = true) ∨
      (∃ j col, j < k ∧ col < 64 ∧ (weight j col).2.getLsbD i = true) ∨ (∃ y ∈ sums, y.2.getLsbD i = true) ∨
      ∃ c, c < shapeNcol x.img ∧ ((epi c).2.getLsbD i = true ∨ (out c).2.getLsbD i = true)) →
    status = statusOf 1 0 0 0 flags → w.RecordEnds u x status m →
    ∃ t, exec (.passComplete die) s = .next t ∧ t.mem = u.mem ∧ (∀ q ∈ (t.draper die).passes, q.id ≠ p.id) ∧
      (∀ y ∈ (t.draper die).tasks, y.id ≠ x.id) ∧ (t.draper die).ended = []) ∧
  ∀ (s : State) fn, ∃ t, exec (.draperExpire fn) s = .next t ∧ t = { s with drapers := t.drapers } ∧
    t.drapers = s.drapers.map fun d =>
      let ts := d.2.tasks.map fun u =>
        if u.fn = fn ∧ (u.st = .waiting ∨ u.st = .ready) then { u with deadline := s.clock, patience := 0 } else u
      (d.1, { d.2 with tasks := ts })

/-- From R427 to R433, R440, R474, R527: a scrub starts with the first of its list that nothing holds, which takes the next key
generation and is zeroed; its read-back gives the frame or block back, or withdraws it; one whose key generation would wrap, or
that has been withdrawn since device reset, is withdrawn at once; and an owned range is ready when every frame of it is owned. That
a frame withdrawn before is withdrawn again, though its lines are sound, is the model's reading (log 12); what a release leaves of
mode and world is log 13. -/
def Obligations.ScrubEvents : Prop :=
  (∀ (s : State) part b hi rest i, s.Wf → i < 256 → (s.part part).released = true → RunsOk (s.pool part i).scrubbing →
    (s.pool part i).toScrub = (b, hi) :: rest → b < hi →
    let q := s.pool part i
    let x := q.block b
    let pa := q.blockPa b
    s.bytesHeld pa q.stride = false →
    ((q.sealMode = 0 ∨ x.kgen < 0xFFFF) → s.withdrawnIn pa q.stride = false →
      ∃ t, exec (.fullerScrubStart part i) s = .next t ∧ s.Zeroed t pa q.stride ∧
        (t.pool part i).block b = { x with st := .scrubbing, kgen := if q.sealMode = 0 then x.kgen else x.kgen + 1 } ∧
        (∀ c, c ≠ b → (t.pool part i).block c = q.block c) ∧ inRuns (t.pool part i).scrubbing b) ∧
    ((q.sealMode ≠ 0 ∧ 0xFFFF ≤ x.kgen) ∨ s.withdrawnIn pa q.stride = true →
      ∃ t, exec (.fullerScrubStart part i) s = .next t ∧ t.mem = s.mem ∧ ((t.pool part i).block b).st = .withdrawn ∧
        t.withdrawnIn pa q.stride = true)) ∧
  (∀ (s : State) part f hi rest k, s.Wf → 256 ≤ k → (s.part part).released = true → RunsOk (s.part part).scrubbing →
    (s.part part).toScrub = (f, hi) :: rest → f < hi → s.bytesHeld (f * 65536) 65536 = false →
    let x := frameOf s.frames f
    ((x.sealMode = 0 ∨ x.kgen < 0xFFFF) → f ∉ s.withdrawn →
      ∃ t, exec (.fullerScrubStart part k) s = .next t ∧ s.Zeroed t (f * 65536) 65536 ∧
        frameOf t.frames f = { x with st := .scrubbing, kgen := if x.sealMode = 0 then x.kgen else x.kgen + 1 } ∧
        inRuns (t.part part).scrubbing f) ∧
    ((x.sealMode ≠ 0 ∧ 0xFFFF ≤ x.kgen) ∨ f ∈ s.withdrawn →
      ∃ t, exec (.fullerScrubStart part k) s = .next t ∧ t.mem = s.mem ∧ (frameOf t.frames f).st = .withdrawn ∧ f ∈ t.withdrawn)) ∧
  (∀ (s : State) part i, ((s.part part).released = false ∨
      (if 256 ≤ i then (s.part part).toScrub = [] else (s.pool part i).toScrub = [])) →
    exec (.fullerScrubStart part i) s = .next s) ∧
  (∀ (s : State) part f hi rest k, 256 ≤ k → RunsOk (s.part part).scrubbed → (s.part part).scrubbing = (f, hi) :: rest → f < hi →
    let hit := fun l => f * 65536 ≤ l * 64 ∧ l * 64 < f * 65536 + 65536
    ((∃ l ∈ s.badLines, hit l) →
      ∃ t, exec (.scrubComplete part k) s = .next t ∧ t.mem = s.mem ∧ t.poison = s.poison ∧
        (frameOf t.frames f).st = .withdrawn ∧ f ∈ t.withdrawn) ∧
    ((∀ l ∈ s.badLines, ¬ hit l) →
      ∃ t, exec (.scrubComplete part k) s = .next t ∧ t.mem = s.mem ∧ (∀ l, l ∈ t.poison ↔ l ∈ s.poison ∧ ¬ hit l) ∧
        (let own := inRuns (s.part part).toOwn f
         (own → frameOf t.frames f = ⟨.owned, 0, 0, 0, (frameOf s.frames f).kgen⟩) ∧
         (¬ own → frameOf t.frames f = ⟨.free, 0, 0, 0, (frameOf s.frames f).kgen⟩ ∧ inRuns (t.part part).scrubbed f)))) ∧
  (∀ (s : State) part i b hi rest, i < 256 → RunsOk (s.pool part i).scrubbed → (s.pool part i).scrubbing = (b, hi) :: rest → b < hi →
    let q := s.pool part i
    let pa := q.blockPa b
    let hit := fun l => pa ≤ l * 64 ∧ l * 64 < pa + q.stride
    ((∃ l ∈ s.badLines, hit l) →
      ∃ t, exec (.scrubComplete part i) s = .next t ∧ t.mem = s.mem ∧ t.poison = s.poison ∧
        ((t.pool part i).block b).st = .withdrawn ∧ t.withdrawnIn pa q.stride = true) ∧
    ((∀ l ∈ s.badLines, ¬ hit l) →
      ∃ t, exec (.scrubComplete part i) s = .next t ∧ t.mem = s.mem ∧ (∀ l, l ∈ t.poison ↔ l ∈ s.poison ∧ ¬ hit l) ∧
        (t.pool part i).block b = ⟨.free, 0, 0, (q.block b).kgen, 0⟩ ∧ b ∉ (t.pool part i).poison ∧
        inRuns (t.pool part i).scrubbed b ∧ ∀ e ∈ t.btbs, ¬ (e.part = part ∧ e.block = b))) ∧
  ∀ (s : State) part, let p := s.part part
    let u := s.setPart part { p with busy := false, resetting := false }
    exec (.ownedRangeReady part) s = .next (if p.busy = true ∧ runsCount p.toOwn = 0 then
      if p.resetting then u.scrivener 0 8 part p.level else u else s)

/-! ## Events of the host link's memory accesses and of the fabric -/

namespace Sys2Proof.Machine

/-- A unit of another chip matches a receive entry of an order of its world: gang `x` of `o` is placed and runs, its member is
`t`, and the unit is within the entry (R488). -/
def State.Receives (s : State) (u : PeerUnit) (o : Order) (g : Grant) (x : GangInfo) (t : Strand) : Prop :=
  o ∈ s.front.orders ∧ s.receiver u = some (o, g) ∧ g.key = u.key ∧ (g.chip = 0xFFF ∨ g.chip = u.srcChip) ∧ o.world = u.world ∧
  u.dgang < o.op.nx * o.op.ny * o.op.nz ∧
  s.front.gangs.find? (fun i => i.order == o.id && i.linear o.op == u.dgang) = some x ∧ x.saved = false ∧
  s.strandOf x.id g.mem = some t ∧ t.life = .active ∧ u.off + u.len ≤ g.len

end Sys2Proof.Machine

/-- From R484, R488, R489, R493, R494, R496: units of other chips land, wait or are refused; contributions make rounds, which close
with the last of NCON chips and are applied at their home; ports go down and up, and a unit of a sealed world takes one that has
agreed a key; and identities are advertised. That a port which trains when no leaf of the identity key is left carries world 0 alone
is the model's reading (log 70). -/
def Obligations.FabricEvents : Prop :=
  (∀ s src xf world key dg off len unit data, s.fabric.inbox = [] →
    let u : PeerUnit := ⟨src, (xf, 0, 0), s.fabric.chip, world, key, dg, off, len, unit, data.take 256⟩
    let v : State := { s with fabric := { s.fabric with inbox := [u] } }
    exec (.peerUnitArrival src xf world key dg off len unit data) s = .next (
      if (v.landPeer u).1 = .waits then v
      else
        let w := (v.landPeer u).2
        { w with fabric := { w.fabric with inbox := w.fabric.inbox.filter (· != u) }, out := .fate u (v.landPeer u).1 :: w.out })) ∧
  (∀ s : State, s.fabric.inbox = [] → exec .peerUnitResend s = .next s) ∧
  (∀ (s : State) u, s.fabric.inbox = [u] → exec .peerUnitResend s = .next (
      if (s.landPeer u).1 = .waits then s
      else
        let w := (s.landPeer u).2
        { w with fabric := { w.fabric with inbox := w.fabric.inbox.filter (· != u) }, out := .fate u (s.landPeer u).1 :: w.out })) ∧
  (∀ (s : State) u o g x t, s.Receives u o g x t → g.flag = 0 → s.landPeer u = (.landed, s.onStrand x.id g.mem fun t =>
    { t with spad := t.spad.writeBytes (g.base + u.off + 256 * u.unit) u.data })) ∧
  (∀ (s : State) u o g x t b, s.Receives u o g x t → g.flag = 2 → (t.bar g.hg).land u.data.length = some b →
    s.landPeer u = (.landed, (s.onStrand x.id g.mem fun t =>
      { t with spad := t.spad.writeBytes (g.base + u.off + 256 * u.unit) u.data }).onStrand x.id g.mem fun t => t.setBar g.hg b)) ∧
  (∀ (s : State) u, (∀ o ∈ s.front.orders, ∀ g ∈ o.grants, ¬ (g.kind = 2 ∧ g.key = u.key)) → s.landPeer u = (.page 1, s)) ∧
  (∀ s chip key home e op value w, s.window key home = some w → w.state = .opened → w.held = [] → home = s.fabric.chip →
    (∀ d ∈ w.rounds, ¬ (d.e = e ∧ d.chip = chip)) →
    let c : Contribution := ⟨chip, e, op, value⟩
    let round := (w.rounds.filter fun d => d.e == e) ++ [c]
    ∃ t, exec (.rwinContribution chip key home e op value) s = .next t ∧ t.mem = s.mem ∧ t.out = s.out ∧
      (round.length < w.ncon → t.window key home = some { w with rounds := w.rounds ++ [c] }) ∧
      (w.ncon ≤ round.length → t.window key home = some { w with
        rounds := w.rounds.filter fun d => d.e != e
        closed := w.closed ++ [⟨0, e, (mergeRound round).1, (mergeRound round).2⟩] })) ∧
  (∀ s key w c rest p, s.window key s.fabric.chip = some w → w.closed = c :: rest → w.held = [] → s.fabric.up ≠ 0 →
    (∀ x ∈ s.fabric.past, ¬ (x.key = key ∧ x.home = s.fabric.chip)) →
    let va := w.base + c.e
    w.pages[va / 65536 - w.base / 65536]? = some p →
    let pa := p.pa + va % 65536
    let n := rwinBytes c.op
    s.weightFrame pa = false → s.noteHeld p.slot va pa = s → (p.ipa = none ∨ (s.fn p.fn).trans.dbmEn = false) → ∃ t, exec (.rwinHomeWrite key s.fabric.chip) s = .next t ∧
      t.mem = (s.writeHomeNat pa n (rwinApply c.op c.value (s.mem.readNat pa n))).mem ∧
      t.window key s.fabric.chip = some { w with closed := rest }) ∧
  (∀ s key home, home ≠ s.fabric.chip ∨ s.fabric.up = 0 → exec (.rwinHomeWrite key home) s = .next s) ∧
  (∀ m x, rwinApply 2 m x = (x + m) % 2 ^ 32 ∧ rwinApply 3 m x = (x + m) % 2 ^ 64 ∧ rwinApply 6 m x = m ∧
    rwinApply 4 m x = (if sextNat x 32 < sextNat m 32 then m else x) ∧
    rwinApply 5 m x = (if sextNat m 32 < sextNat x 32 then m else x) ∧
    rwinApply 0 m x = (add32 0 0 (BitVec.ofNat 32 x) (BitVec.ofNat 32 m)).1.toNat) ∧
  (∀ s i, exec (.flitRetransmit i) s =
    .next { s with fabric := { s.fabric with err := s.fabric.err ||| BitVec.ofNat 16 (2 ^ (i % 16)) } }) ∧
  (∀ s i, ∃ t, exec (.portDown i) s = .next t ∧
    t = { s with fabric := { s.fabric with up := t.fabric.up, keys := s.fabric.keys.filter fun k => k.1 != i % 16 } } ∧
    ∀ k, k < 16 → t.fabric.up.getLsbD k = (s.fabric.up.getLsbD k && decide (k ≠ i % 16))) ∧
  (∀ s i, s.sealEng.leaf < leafCount → ∃ t key, exec (.portTrained i) s = .next t ∧
    t = { s with
      sealEng := { s.sealEng with leaf := s.sealEng.leaf + 1 }, freeCount := t.freeCount
      fabric := { s.fabric with
        up := t.fabric.up, keys := (s.fabric.keys.filter fun k => k.1 != i % 16) ++ [(i % 16, key)] } } ∧
    ∀ k, k < 16 → t.fabric.up.getLsbD k = (s.fabric.up.getLsbD k || decide (k = i % 16))) ∧
  (∀ s i, leafCount ≤ s.sealEng.leaf → ∃ t, exec (.portTrained i) s = .next t ∧
    t = { s with fabric := { s.fabric with up := t.fabric.up, keys := s.fabric.keys.filter fun k => k.1 != i % 16 } } ∧
    ∀ k, k < 16 → t.fabric.up.getLsbD k = (s.fabric.up.getLsbD k || decide (k = i % 16))) ∧
  (∀ (f : Fabric) w, (w = 0 → (f.route w = none ↔ f.up = 0)) ∧
    (w ≠ 0 → (f.route w = none ↔ ∀ k ∈ f.keys, f.up.getLsbD k.1 = false) ∧
      ∀ x, f.route w = some x → ∃ k ∈ f.keys, f.up.getLsbD k.1 = true ∧ x = some k)) ∧
  (∀ s : State, s.fabric.advEn = false ∨ s.clock < s.fabric.advAt + 2 ^ 24 → exec .advertisePeriod s = .next s) ∧
  (∀ s : State, s.fabric.advEn = true → s.fabric.advAt + 2 ^ 24 ≤ s.clock → ∃ fs, fs ≠ [] ∧
    exec .advertisePeriod s = .next { s with
      out := (fs.map Out.advert).reverse ++ s.out
      fabric := { s.fabric with advSeq := s.fabric.advSeq + 1, advAt := s.clock } } ∧
    fs.length = (s.advertised.length + 14) / 15 + (if s.advertised = [] then 1 else 0) ∧
    ∀ k f, fs[k]? = some f → s.fabric.chip < 2 ^ 12 → s.fabric.advSeq < 2 ^ 64 →
      let x := natOfBytes f
      f.length = 256 ∧ bits x 0 12 = s.fabric.chip ∧ bits x 64 64 = s.fabric.advSeq ∧
        bits x 16 4 = ((s.advertised.drop (15 * k)).take 15).length ∧ bit x 20 = decide (k + 1 = fs.length)) ∧
  ∀ s : State, ∀ i ∈ s.advertised, ∃ p ∈ s.parts, ∃ w ∈ p.2.weights, w.2.id = i ∧ w.2.st = 2 ∧ w.2.world = 0 ∧
    s.fabric.advParts.getLsbD p.1 = true

/-! ## Events of the command front end -/

namespace Sys2Proof.Machine

/-- The queue reads its packet at RD, with nothing of it under way: the packet's header is `x`, in 64 bytes (R444, R446,
R448). -/
def State.NextIs (s : State) (fn q x : Nat) : Prop :=
  let r := s.queue fn q
  let filled := (s.queueWr fn q - r.rd).toNat
  s.queueReads fn q = true ∧ s.packetsOf fn q = [] ∧ 1 ≤ filled ∧ bits x 8 8 ≤ filled ∧ filled ≤ 2 ^ r.logn ∧
  s.ctxOk fn q = true ∧ s.FrontReads fn q (r.unitVa r.rd) 64 x ∧ headerReason r.logn x = none

/-- The front end has observed WR of a queue (R443). -/
def State.seeing (s : State) (fn q : Nat) : State :=
  { s with front := { s.front with seen := assocPut s.front.seen (fn * 64 + q) (s.queueWr fn q) } }

/-- Packets of a queue that has gone Off: they have done their work, or an order of theirs runs on (R445). -/
def Ends (t : State) (fn q : Nat) : Prop :=
  ∀ p ∈ t.front.packets, p.fn = fn → p.queue = q → p.detached = true ∧
    (p.done = true ∨ t.ending p = true ∨ p.order.isSome = true ∧ (p.dead = true ∨ p.kind = 1 ∧ p.ops.length ≤ p.nextOp))

/-- A packet of one unit with header `x` has completed at once: RD passes it, or its KIND 6 record waits to be written (R444,
R447); that RD stays on it until then is log 50's choice. -/
def State.packetDone (u : State) (fn q x : Nat) (p : PacketRun) : State :=
  let r := u.queue fn q
  if bit x 17 then (u.addPacket p).pushCq ⟨fn, q, 6, p.pos, [p.tag], p.irq, true⟩
  else (u.setQueue fn q { r with rd := r.rd + 1 }).writeRdm fn q

/-- A running queue has halted (R445, R448). -/
def Halted (s t : State) (fn q : Nat) (pos : BitVec 32) (reason : Nat) : Prop :=
  (t.queue fn q).state = .halted ∧ (t.queue fn q).reason = reason ∧ (t.queue fn q).rd = pos ∧
  (∀ p ∈ t.front.packets, p.fn = fn → p.queue = q → p.detached = true) ∧ t.scrivCount = s.scrivCount + 1 ∧
  t.scriv.head?.map (fun r => (r.event, r.a, r.b)) = some (6, pos.toNat, reason)

end Sys2Proof.Machine

/-- From R443 to R446, R448, R450: queues are enabled, refused and disabled; kicks, those that halt the queue and those after which it reads
on; and completion records are written in order. That an enable refused from Halted leaves the queue Off is log 50's choice; which
packets go on when a queue goes Off is log 73's. -/
def Obligations.QueueEvents : Prop :=
  (∀ s fn q, (s.queue fn q).state ≠ .running ∨ (s.queue fn q).barred = true → s.ctxOk fn q = true → s.kickOk fn q = true →
    let r := s.queue fn q
    ((r.state = .off → s.queueWr fn q = r.rd) →
      exec (.queueEnable fn q) s =
        .next ((s.seeing fn q).setQueue fn q { r with en := true, state := .running, barred := false })) ∧
    (r.state = .off → s.queueWr fn q ≠ r.rd → ∃ t, exec (.queueEnable fn q) s = .next t ∧ Halted s t fn q r.rd 4 ∧
      t.front.cqWait = s.front.cqWait ++ [⟨fn, q, 3, r.rd, [0, 4, 0], false, false⟩])) ∧
  (∀ s fn q, (s.queue fn q).state ≠ .running ∨ (s.queue fn q).barred = true → s.ctxOk fn q = false ∨ s.kickOk fn q = false →
    let r := s.queue fn q
    let n := if s.ctxOk fn q then 9 else 8
    ∃ t, exec (.queueEnable fn q) s = .next (if r.ie then t.raiseMsi fn r.vec else t) ∧
      t.queue fn q = { r with en := false, state := .off, reason := n, barred := true } ∧ Ends t fn q ∧
      t.front.cqWait = s.front.cqWait ∧ t.mem = s.mem ∧ t.scrivCount = s.scrivCount + 1 ∧
      t.scriv.head?.map (fun r => (r.event, r.a, r.b)) = some (6, r.rd.toNat, n)) ∧
  (∀ s fn q, (s.queue fn q).state = .running → (s.queue fn q).barred = false → exec (.queueEnable fn q) s = .next s) ∧
  (∀ s fn q, ∃ t, exec (.queueDisable fn q) s = .next t ∧ t.mem = s.mem ∧ t.st = s.st ∧ t.front.orders = s.front.orders ∧
    t.front.gangs = s.front.gangs ∧ t.queue fn q = { s.queue fn q with en := false, state := .off } ∧ Ends t fn q) ∧
  (∀ s fn q v, exec (.kickRegisterWrite fn q v) s =
    .next (if s.kickOk fn q then s.writeHomeNat ((s.queue fn q).kickpa * 64) 4 v else s)) ∧
  (∀ s fn q, s.queueReads fn q = true → 2 ^ (s.queue fn q).logn < (s.queueWr fn q - (s.queue fn q).rd).toNat →
    ∃ t, exec (.kick fn q) s = .next t ∧ Halted s t fn q (s.queue fn q).rd 4) ∧
  (∀ s fn q, let r := s.queue fn q
    (s.queueReads fn q = false → exec (.kick fn q) s = .next s) ∧
    (s.queueReads fn q = true → s.packetsOf fn q = [] → s.queueWr fn q = r.rd → exec (.kick fn q) s = .next (s.seeing fn q)) ∧
    (∀ x, (s.seeing fn q).NextIs fn q x → exec (.kick fn q) s = .next (s.seeing fn q)) ∧
    ∀ x, s.queueReads fn q = true → s.packetsOf fn q = [] → s.queueWr fn q ≠ r.rd → (s.queueWr fn q - r.rd).toNat < bits x 8 8 →
      bits x 8 8 ≤ 2 ^ r.logn → s.ctxOk fn q = true → (s.seeing fn q).FrontReads fn q (r.unitVa r.rd) 64 x →
      exec (.kick fn q) s = .next (s.seeing fn q)) ∧
  (∀ s fn q, s.queueReads fn q = true → s.packetsOf fn q = [] → s.queueWr fn q ≠ (s.queue fn q).rd →
    (s.queueWr fn q - (s.queue fn q).rd).toNat ≤ 2 ^ (s.queue fn q).logn → s.ctxOk fn q = false →
    ∀ i ∈ ([.kick fn q, .noOpPacket fn q, .docketPacket fn q, .queueFencePacket fn q, .signalPacket fn q, .memoryWaitPacket fn q,
      .batchStepPacket fn q] : List Instr), ∃ t, exec i s = .next t ∧ Halted s t fn q (s.queue fn q).rd 8 ∧
      t.front.cqWait = s.front.cqWait ∧ (t.queue fn q).barred = true) ∧
  (∀ s fn q x n, let r := s.queue fn q
    let u := s.seeing fn q
    s.queueReads fn q = true → s.packetsOf fn q = [] → s.queueWr fn q ≠ r.rd → (s.queueWr fn q - r.rd).toNat ≤ 2 ^ r.logn →
    (bits x 8 8 ≤ (s.queueWr fn q - r.rd).toNat ∨ 2 ^ r.logn < bits x 8 8) →
    s.ctxOk fn q = true → u.FrontReads fn q (r.unitVa r.rd) 64 x → headerReason r.logn x = some n →
    ∃ t, exec (.kick fn q) s = .next t ∧ Halted s t fn q r.rd n) ∧
  (∀ logn x, (bits x 18 46 ≠ 0 → headerReason logn x = some 1) ∧
    (headerReason logn x = none → bits x 18 46 = 0 ∧ 1 ≤ bits x 8 8 ∧ bits x 8 8 ≤ 2 ^ logn ∧ bits x 0 8 ≤ 5 ∧
      (bits x 0 8 ≠ 1 → bits x 8 8 = 1))) ∧
  (∀ (s s' : State) fn q c, s.front.cqWait.find? (fun c => c.fn == fn && c.queue == q) = some c → s.frontActs fn = true →
    let r := s.queue fn q
    let at' := r.cqtail.toNat
    let head := (1 - at' / 2 ^ r.cqlogn % 2) * 2 ^ 63 + c.kind % 128 * 2 ^ 48 + q % 64 * 2 ^ 32 + c.pkt.toNat
    let bytes := bytesOfNat 8 head ++ (genFrom 15 0 fun i => bytesOfNat 8 (c.body.getD i 0).toNat).flatten
    let va := (r.cqbase + 128 * (at' % 2 ^ r.cqlogn)) % 2 ^ 64
    (r.cqtail - r.cqhead).toNat < 2 ^ r.cqlogn → s.FrontWrites fn q va .write bytes s' →
    let u := s'.setQueue fn q { r with cqtail := r.cqtail + 1 }
    let ring := r.ie = true ∧ (r.cqtail = r.cqhead ∨ c.kind = 2 ∨ c.kind = 3 ∨ c.kind = 5 ∨ c.irq = true)
    let v := if ring then u.raiseMsi fn r.vec else u
    let w : State := { v with front := { v.front with cqWait := v.front.cqWait.erase c } }
    exec (.completionRecordWrite fn q) s = .next (if c.ends then w.completePacket fn q c.pkt else w)) ∧
  (∀ (s : State) fn q, 2 ^ (s.queue fn q).cqlogn ≤ ((s.queue fn q).cqtail - (s.queue fn q).cqhead).toNat ∨
    s.frontActs fn = false → exec (.completionRecordWrite fn q) s = .next s) ∧
  ∀ s fn q h, let r := s.queue fn q
    let u := s.setQueue fn q { r with cqhead := BitVec.ofNat 32 h }
    exec (.cqheadWrite fn q h) s = .next (if r.ie = true ∧ BitVec.ofNat 32 h ≠ r.cqtail then u.raiseMsi fn r.vec else u)

/-- From R447 to R451, R453 to R455, R459 to R461: the packets of a queue, each as the next one that an idle queue reads, and the
batch step's boundary and retirement. That RD waits for the KIND 6 record of a no-op, a fence or a signal is log 50's choice. -/
def Obligations.PacketEvents : Prop :=
  (∀ s fn q x, s.NextIs fn q x → bits x 0 8 = 0 →
    exec (.noOpPacket fn q) s = .next (s.packetDone fn q x (packetRun fn q (s.queue fn q).rd x []))) ∧
  (∀ s fn q x (us : List Nat), s.NextIs fn q x → bits x 0 8 = 1 → let r := s.queue fn q
    let bad := fun y => opBad false (s.mostTiles (s.fn fn).part) r.stkarea y
    us.length + 1 = bits x 8 8 →
    (∀ i y, us[i]? = some y → s.FrontReads fn q (r.unitVa (r.rd + BitVec.ofNat 32 (i + 1))) 64 y) →
    (∀ (i y : Nat), us[i]? = some y → bad y = true → (∀ (j z : Nat), j < i → us[j]? = some z → bad z = false) →
      ∃ t, exec (.docketPacket fn q) s = .next t ∧ Halted s t fn q r.rd 6) ∧
    ((∀ y ∈ us, bad y = false) →
      ∀ y rest, us = y :: rest → (opOf y).grant = 0 → (opOf y).total ≠ 0 → s.Settled →
        let p := packetRun fn q r.rd x (us.map opOf)
        let pl := s.frontPlace fn q
        let o : Order := ⟨s.front.nextOrder, fn, q, r.rd, pl.slot, pl.world, opOf y, 0, none, []⟩
        ∃ t, exec (.docketPacket fn q) s = .next t ∧ t.front.orders = s.front.orders ++ [o] ∧
          t.front.nextOrder = s.front.nextOrder + 1 ∧ t.mem = s.mem ∧
          { p with order := some s.front.nextOrder, nextOp := 1 } ∈ t.front.packets)) ∧
  (∀ s fn q x, s.NextIs fn q x → bits x 0 8 = 2 →
    exec (.queueFencePacket fn q) s = .next (s.addPacket (packetRun fn q (s.queue fn q).rd x []))) ∧
  (∀ (s s' : State) fn q p, s.packetsOf fn q = [p] → p.kind = 2 → p.done = false → p.armed = false → s.frontActs fn = true →
    (∀ e ∈ s.front.units, e.1 ≠ fn * 64 + q) →
    (if p.arg 0 = 0 then s' = s else s.FrontWrites fn q (p.arg 0) .write (bytesOfNat 8 (p.arg 1)) s') →
    let u := (s'.setQueue fn q { s'.queue fn q with fpos := p.pos + 1 }).setPacket fn q p.pos fun p => { p with armed := true }
    let v := u.pushCq ⟨fn, q, 1, p.pos, [p.tag], p.irq, !p.cq⟩
    exec (.fenceComplete fn q) s = .next (if p.cq then v.pushCq ⟨fn, q, 6, p.pos, [p.tag], p.irq, true⟩ else v)) ∧
  (∀ s fn q x m, s.NextIs fn q x → bits x 0 8 = 3 →
    let add := bit x 256
    let v := bits x 192 64
    let p := packetRun fn q (s.queue fn q).rd x []
    (s.addPacket p).FrontMaps fn q (bits x 128 64) (if add then .bank else .write) m →
    ∃ t, exec (.signalPacket fn q) s = .next t ∧
      t.mem = ((s.writeHomeNat m.pa 8 (if add then s.mem.readNat m.pa 8 + v else v)).packetDone fn q x p).mem ∧
      (bit x 17 = false → (t.queue fn q).rd = (s.queue fn q).rd + 1) ∧
      (bit x 17 = true → t.front.cqWait =
        s.front.cqWait ++ [⟨fn, q, 6, (s.queue fn q).rd, [BitVec.ofNat 64 (bits x 64 64)], bit x 16, true⟩])) ∧
  (∀ s fn q x m, s.NextIs fn q x → bits x 0 8 = 4 →
    (s.addPacket (packetRun fn q (s.queue fn q).rd x [])).FrontMaps fn q (bits x 128 64) .read m →
    ∃ t, exec (.memoryWaitPacket fn q) s = .next t ∧ t.mem = s.mem ∧
      t.bankWaits = s.bankWaits ++ [⟨frontGang, fn * 64 + q, (s.queue fn q).rd.toNat, bits x 128 64, (s.queue fn q).ctx, fn, m.pa, 8,
        bits x 320 64 % 4, bits x 192 64, bits x 256 64, false⟩] ∧
      { packetRun fn q (s.queue fn q).rd x [] with armed := true } ∈ t.front.packets) ∧
  (∀ (s : State) fn q p b, s.packetsOf fn q = [p] → p.kind = 4 → p.done = false → p.armed = true → s.frontActs fn = true →
    s.bankWaits.find? (fun b => b.isPacket p) = some b → b.hit = true ∨ b.holds (s.mem.readNat b.pa 8) = true →
    exec (.memoryWaitSatisfied fn q) s =
      .next (({ s with bankWaits := s.bankWaits.filter fun b => !b.isPacket p } : State).endPacket p)) ∧
  (∀ s fn q x (us : List Nat) (head whole : List (Located × Nat)) l h, s.NextIs fn q x → bits x 0 8 = 5 →
    let p := packetRun fn q (s.queue fn q).rd x []
    let tab := p.arg 0
    let size := 64 + 32 * (SeqHead.mk h).nslot
    let u := s.frontOf fn q
    let pa := l.1.m.pa
    tab % 64 = 0 → s.FrontReads fn q tab 64 h → (SeqHead.mk h).legal = true →
    frontLocate tab 64 .write u = .ok head u → frontLocate tab size .write u = .ok (l :: whole) u →
    (∀ a ∈ head ++ l :: whole, sliceBase ≤ a.1.m.pa ∧ a.1.m.pa < sliceBase + sliceBytes) → head ≠ [] →
    us.length = p.arg 2 % 256 → (∀ i y, us[i]? = some y → s.FrontReads fn q ((p.arg 1 + 64 * i) % 2 ^ 64) 64 y) →
    (∀ y ∈ us, opBad true (s.mostTiles (s.fn fn).part) (s.queue fn q).stkarea y = false) →
    (∀ o ∈ s.front.packets, ¬ (o.kind = 5 ∧ o.done = false ∧ o.arg 6 = pa)) →
    exec (.batchStepPacket fn q) s = .next (s.addPacket
      { p with args := p.args ++ [BitVec.ofNat 64 pa], ops := us.map opOf, nextOp := us.length })) ∧
  (∀ (s : State) fn q p, s.packetsOf fn q = [p] → p.kind = 5 → p.done = false → p.dead = false → p.inStep = false →
    p.armed = false → s.frontActs fn = true → let steps := p.arg 2 / 2 ^ 32
    (steps ≠ 0 → steps ≤ p.stepNo → exec (.stepBoundary fn q) s =
      .next ((s.setPacket fn q p.pos fun p => { p with armed := true }).endPacket p)) ∧
    (∀ s', steps = 0 ∨ p.stepNo < steps → s.frontRun fn q (boundary p) = (.done true, s') →
      let u := s'.setPacket fn q p.pos fun p => { p with inStep := true, nextOp := 0 }
      ∀ x w, u.front.packets.find? (fun x => x.isAt fn q p.pos && !x.done) = some x → u.launchNext x = some w →
        exec (.stepBoundary fn q) s = .next w.settle)) ∧
  (∀ (s : State) fn q p s', s.packetsOf fn q = [p] → p.kind = 5 → p.done = false → p.dead = false → p.inStep = true →
    p.order = none → p.ops.length ≤ p.nextOp → p.failed = false → s.frontActs fn = true →
    s.frontRun fn q (do
      let h ← readSeqHead (p.arg 0)
      retireSlots p (p.arg 0) h (← liveSlots (p.arg 0) h.nslot)) = (.done (), s') →
    exec (.stepRetirement fn q) s = .next (s'.setPacket fn q p.pos fun x => { x with
      inStep := false, admitted := [], stepNo := x.stepNo + 1, nextOp := x.ops.length })) ∧
  (∀ (s : State) fn q p h (slot : Nat → Nat) (stop : Nat → Nat), s.packetsOf fn q = [p] → p.kind = 5 → p.done = false →
    p.dead = false → p.inStep = true → p.order = none → p.ops.length ≤ p.nextOp → p.failed = false → s.frontActs fn = true →
    s.FrontReads fn q (p.arg 0) 64 h → let t := SeqHead.mk h
    (∀ i, i < t.nslot → s.FrontReads fn q (slotVa (p.arg 0) i + 24) 8 (slot i) ∧
      (bits (slot i) 32 2 = 1 → s.FrontReads fn q (t.stopVa i) 64 (stop i) ∧ bit (stop i) 72 = false)) →
    exec (.stepRetirement fn q) s = .next (s.setPacket fn q p.pos fun x => { x with
      inStep := false, admitted := [], stepNo := x.stepNo + 1, nextOp := x.ops.length })) ∧
  (∀ (s u : State) fn q p h h' i reqid (slot : Nat → Nat) (stop : Nat → Nat) (l c : Located), s.packetsOf fn q = [p] →
    p.kind = 5 → p.done = false → p.dead = false → p.inStep = true → p.order = none → p.ops.length ≤ p.nextOp →
    p.failed = false → s.frontActs fn = true → s.FrontReads fn q (p.arg 0) 64 h →
    let tab := p.arg 0
    let t := SeqHead.mk h
    let d := s.frontOf fn q
    i < t.nslot → (∀ j, j < t.nslot → s.FrontReads fn q (slotVa tab j + 24) 8 (slot j)) → bits (slot i) 32 2 = 1 →
    (∀ j, j < i → bits (slot j) 32 2 = 1 → s.FrontReads fn q (t.stopVa j) 64 (stop j) ∧ bit (stop j) 72 = false) →
    s.FrontReads fn q (t.stopVa i) 64 (stop i) → bit (stop i) 72 = true → s.FrontReads fn q (slotVa tab i) 8 reqid →
    frontLocate (slotVa tab i + 28) 4 .write d = .ok [(l, 4)] d → frontLocate (tab + 48) 4 .write d = .ok [(c, 4)] d →
    performKRet (deskEntry (.kRet 0 false) (t.tableVa i) 0 0 (s.frontPlace fn q).world) d = .ok () (u.frontOf fn q) →
    let f := stop i
    let v := u.pushCq ⟨fn, q, 4, p.pos, [BitVec.ofNat 64 reqid, BitVec.ofNat 64 (bits f 73 3 * 2 ^ 32 + bits f 0 32),
      BitVec.ofNat 64 (bits f 96 32)], p.irq, false⟩
    let w := v.writeHome l.m.pa (bytesOfNat 4 0)
    let z := w.writeHome c.m.pa (bytesOfNat 4 ((SeqHead.mk h').nlive - 1))
    v.FrontReads fn q tab 64 h' → l.use (v.frontOf fn q) = .ok () (v.frontOf fn q) →
    c.use (w.frontOf fn q) = .ok () (w.frontOf fn q) →
    (∀ j, i < j → j < t.nslot → bits (slot j) 32 2 = 1 → z.FrontReads fn q (t.stopVa j) 64 (stop j) ∧ bit (stop j) 72 = false) →
    exec (.stepRetirement fn q) s = .next (z.setPacket fn q p.pos fun x => { x with
      inStep := false, admitted := [], stepNo := p.stepNo + 1, nextOp := p.ops.length })) ∧
  (∀ s fn q, ∃ t, exec (.docketPacket fn q) s = .next t) ∧ (∀ s fn q, ∃ t, exec (.batchStepPacket fn q) s = .next t) ∧
  (∀ s fn q, ∃ t, exec (.stepBoundary fn q) s = .next t) ∧ (∀ s fn q, ∃ t, exec (.stepRetirement fn q) s = .next t) ∧
  (∀ s fn q, ∃ t, exec (.completionRecordWrite fn q) s = .next t) ∧ ∀ s fn q, ∃ t, exec (.fenceComplete fn q) s = .next t

/-! ## Events of resets, of the boot and of the host link -/

namespace Sys2Proof.Machine

/-- What a reset has dropped of the strands that `hit` says, and of the queue work and Draper tasks of the functions `fns`, with
no completion record for it (R476 steps 1 to 3). -/
def State.WorkDropped (s t : State) (hit : Place → Bool) (fns : List Nat) : Prop :=
  (hit s.st.place = true → t.st.life = .gone) ∧ (∀ u ∈ t.others, hit u.place = false) ∧
  t.others.map Strand.place = (s.others.map Strand.place).filter (fun p => !hit p) ∧
  (∀ o ∈ t.front.orders, o.fn ∉ fns) ∧ (∀ p ∈ t.front.packets, p.fn ∉ fns) ∧
  (∀ d ∈ t.drapers, ∀ x ∈ d.2.tasks, x.fn ∉ fns) ∧ (∀ fn ∈ fns, (t.fn fn).trans.reqs = []) ∧
  ∀ c ∈ t.front.cqWait, ∃ b ∈ s.front.cqWait, c = { b with ends := c.ends }

/-- What the reset `t` of a partition at `s` leaves: its work and its regions are dropped, its queues with EN = 1 run from FPOS
where they are not held, and Scrivener event 8 is written, at once or with the owned range ready (R466, R476). -/
def State.PartReset (s t : State) (part level : Nat) : Prop :=
  s.WorkDropped t (fun p => p.part == part) (s.fnsOf part) ∧ (∀ r ∈ t.regions, r.part ≠ part) ∧
  (∀ fn q, t.queue fn q =
    let r := s.queue fn q
    if fn ∈ s.fnsOf part ∧ r.en = true then { r with state := .running, rd := r.fpos } else r) ∧
  (if (t.part part).resetting then t.scrivCount = s.scrivCount ∧ t.scriv = s.scriv
    else t.scrivCount = s.scrivCount + 1 ∧ t.scriv.head?.map (fun r => (r.event, r.a, r.b)) = some (8, part, level)) ∧
  (t.part part).cfg = (s.part part).cfg ∧ (t.part part).resetAt = s.clock ∧
  (t.part part).weights = [] ∧ (t.part part).shapes = [] ∧ (t.part part).pools = [] ∧
  ((s.part part).released = true →
    (∀ b ∈ t.bolts, (s.part part).cfg.hasTile (b.1 / 2) = false) ∧ ∀ b ∈ t.btbs, b.part ≠ part)

/-- The device has booted, and has accepted a decode image (R109, R516). -/
def State.Booted (s : State) : Prop := s.svc.boot = 7 ∧ s.svc.image ≠ none

/-- A partition's frame range is given out: its frames that are not FIXED are TOSCRUB, and its slice memory is zero (R59, R474,
R527). -/
def State.RangeGiven (s t : State) (part : Nat) : Prop :=
  let c := (s.part part).cfg
  (∀ f, (∃ r ∈ s.frames, r.lo ≤ f ∧ f < r.hi) → frameOf t.frames f =
    if c.fbase ≤ f ∧ f < c.flimit ∧ (frameOf s.frames f).st ≠ .fixed then { frameOf s.frames f with st := .toScrub }
    else frameOf s.frames f) ∧
  (∀ a, c.pins a = true → t.mem.read a = 0) ∧ (t.part part).scrubbed = [] ∧ (t.part part).scrubbing = []

/-- Memory is unchanged, but for slice memory that a partition pins. -/
def State.KeptElsewhere (s t : State) (part : Nat) : Prop :=
  ∀ a, (s.part part).cfg.pins a = false → t.mem.read a = s.mem.read a

/-- What a device reset leaves (R473, R475, R478, R485, R518 to R526). -/
def State.DeviceReset (s t : State) : Prop :=
  t.st.life = .gone ∧ t.others = [] ∧ t.windows = [] ∧ t.front.orders = [] ∧ t.front.gangs = [] ∧ t.front.packets = [] ∧ t.front.cqWait = [] ∧
  (∀ d ∈ t.drapers, d.2.tasks = []) ∧ t.regions = [] ∧ t.fabric = Fabric.reset ∧ t.host.ctxBase = 0 ∧ t.svc.boot = 0 ∧
  t.svc.ceLimit = 1000 ∧ t.svc.pwrcap = 3000 ∧ t.svc.fence = s.svc.fence ∧ t.sealEng.leaf = s.sealEng.leaf ∧
  t.scrivCount = s.scrivCount + 8 ∧
  (∀ p, (t.part p).hold = true ∧ (t.part p).cfg = Part.reset.cfg ∧ (t.part p).weights = [] ∧ (t.part p).pools = []) ∧
  ∀ f, (t.fn f).en = false ∧ (t.fn f).rbusy = false ∧ (t.fn f).queues = [] ∧ (t.fn f).daw = 16 ∧ (t.fn f).few = 16 ∧
    (t.fn f).featmask = 0xFFFF ∧ (t.fn f).mr = Vector.replicate 8 0

/-- A reset of a function (R283, R442, R475 to R477, R512): RBUSY is set, its work and regions are dropped, its queue records and
translation registers take their reset values, and its measurements begin again. -/
def State.FnReset (s t : State) (n : Nat) : Prop :=
  let f := s.fn n
  let u := t.fn n
  s.WorkDropped t (fun p => p.fn == n) [n] ∧ (∀ r ∈ t.regions, r.fn ≠ n) ∧ (∀ c ∈ t.front.cqWait, c.fn ≠ n) ∧
  u.rbusy = true ∧ u.queues = [] ∧ u.migState = 0 ∧ u.trans.prqTail = 0 ∧ u.trans.dbmEn = false ∧
  u.tenant = f.tenant ∧ u.part = f.part ∧ u.coal = f.coal ∧ u.privq = f.privq ∧ u.en = f.en ∧ u.featmask = f.featmask ∧
  u.trans.s2root = f.trans.s2root ∧ u.trans.prqEn = f.trans.prqEn ∧ u.mgen = f.mgen + 1 ∧ u.measure 0 = f.measure 0 ∧
  (∀ k, 1 ≤ k → k < 8 → u.measure k = 0) ∧
  (u.lost = true ↔ f.lost = true ∨ ∃ k, 1 ≤ k ∧ k < 8 ∧ f.measure k ≠ 0) ∧ t.scrivCount = s.scrivCount

end Sys2Proof.Machine

/-- From R466, R473 to R478, R512, R516, R517, R519, R527: partitions are held, released and refused; partitions, functions and the
device are reset; functions are enabled; and the boot sequence gives the fixed areas. Each reset is one step, and its readings are
those of log 12; that a boot with no decode image on offer ends at BOOT 4 is log 36's choice, and that boot step 2 clears the
counters is log 75's. -/
def Obligations.ResetEvents : Prop :=
  (∀ s part, (s.part part).hold = true → exec (.partitionHold part) s = .next s) ∧
  (∀ s part, s.Wf → (s.part part).hold = false → (s.part part).resetting = false → ∃ t, exec (.partitionHold part) s = .next t ∧
    s.PartReset t part 1 ∧ (t.part part).hold = true ∧ (t.part part).busy = false ∧ (t.part part).resetting = false ∧
    (t.part part).toScrub = [] ∧ ((s.part part).cfg.en = true → s.RangeGiven t part) ∧
    ((∀ w ∈ s.windows, w.part ≠ part) → s.KeptElsewhere t part)) ∧
  (∀ s part, let p := s.part part
    p.hold = false → p.resetting = true → exec (.partitionHold part) s = .next ((s.setPart part { p with
      hold := true, busy := false, resetting := false, toOwn := [], toScrub := [], scrubbed := [], scrubbing := [] }).scrivener
        0 8 part p.level)) ∧
  (∀ s part, (s.part part).resetting = true → exec (.partitionRst part) s = .next s) ∧
  (∀ s part, s.Wf → (s.part part).resetting = false → ∃ t, exec (.partitionRst part) s = .next t ∧ s.PartReset t part 1 ∧
    (t.part part).hold = (s.part part).hold ∧ ((∀ w ∈ s.windows, w.part ≠ part) → s.KeptElsewhere t part) ∧
    if (s.part part).released then s.RangeGiven t part ∧
      (t.part part).busy = decide (runsCount (t.part part).toOwn ≠ 0) ∧ (t.part part).resetting = (t.part part).busy
    else (t.part part).busy = false ∧ (t.part part).resetting = false) ∧
  (∀ (s : State) part, s.svc.boot ≠ 7 ∨ s.svc.image = none → exec (.partitionRelease part) s = .next s) ∧
  (∀ s part, s.Booted → (s.part part).hold = true → s.releaseOk part = false →
    exec (.partitionRelease part) s = .next (s.setPart part { s.part part with err := true })) ∧
  (∀ (s : State) part, let c := (s.part part).cfg
    (c.flimit < c.ownlim ∨ c.en = true ∧ ((∀ d, d < 4 → bit c.dies d = false) ∨
      (c.half ≠ 0 ∧ ∃ d e, d < e ∧ e < 4 ∧ bit c.dies d = true ∧ bit c.dies e = true) ∨ c.half = 3 ∨ 32 < c.slmem ∨
      (∃ d, d < 4 ∧ bit c.dies d = true ∧ (s.usableTiles part d).length < c.drtiles) ∨ c.flimit ≤ c.fbase ∨
      (∃ d, d < 4 ∧ c.reaches d = true ∧ bit c.dies d = false) ∨
      ∃ q ∈ s.parts, q.1 ≠ part ∧ q.2.released = true ∧ c.overlaps q.2.cfg = true)) ↔ s.releaseOk part = false) ∧
  (∀ s part, s.Wf → s.Booted → (s.part part).hold = true → s.releaseOk part = true → ∃ t, exec (.partitionRelease part) s = .next t ∧
    (t.part part).hold = false ∧ (t.part part).err = false ∧ t.fabric.chipLocked = true ∧
    if (s.part part).cfg.en then s.RangeGiven t part ∧ s.KeptElsewhere t part ∧ (t.part part).busy = decide (runsCount (t.part part).toOwn ≠ 0)
    else t = { s with parts := t.parts, fabric := t.fabric } ∧ (t.part part).busy = false) ∧
  (∀ s part, (s.part part).hold = false → exec (.partitionRelease part) s = .next s) ∧
  (∀ s n, (s.fn n).rbusy = true →
    exec (.functionReset n) s = .next s ∧ (n ≠ 0 → exec (.functionLevelReset n) s = .next s)) ∧
  (∀ s n, (s.fn n).rbusy = false → ∃ t, exec (.functionReset n) s = .next t ∧ s.FnReset t n ∧
    (n ≠ 0 → exec (.functionLevelReset n) s = .next t)) ∧
  (∀ s n, exec (.functionResetDone n) s =
    .next (if (s.part (s.fn n).part).resetting then s else s.setFn n { s.fn n with rbusy := false })) ∧
  (∀ s, s.svc.powered = true →
    ∃ t, exec .deviceReset s = .next t ∧ s.DeviceReset t ∧ exec (.functionLevelReset 0) s = .next t) ∧
  (∀ s n on, (n = 0 ∨ (s.fn n).en = on → exec (.functionEnable n on) s = .next s) ∧
    (n ≠ 0 → (s.fn n).en ≠ on → ∃ t, exec (.functionEnable n on) s = .next t ∧ t = { s with fns := t.fns } ∧
      t.fn n = { s.fn n with en := on, mr := (t.fn n).mr } ∧
      (t.fn n).measure 0 = (if on then ({ s.fn n with en := on } : Fn).firstMeasure n else (s.fn n).measure 0) ∧
      ∀ k, 1 ≤ k → k < 8 → (t.fn n).measure k = (s.fn n).measure k)) ∧
  (∀ s n, (n = 0 → exec (.privqClear n) s = .next s) ∧
    (n ≠ 0 → ∃ t, exec (.privqClear n) s = .next t ∧ t = { s with fns := t.fns } ∧
      t.fn n = { s.fn n with privq := false, queues := (t.fn n).queues } ∧
      ∀ q, t.queue n q = { s.queue n q with privl := false })) ∧
  (∀ (s : State) bad fails, s.svc.boot ≠ 0 ∨ s.svc.powered = false → s.bootRun bad fails = s) ∧
  (∀ (s : State) bad fails, s.svc.boot = 0 → s.svc.powered = true →
    (∀ i, i ∈ (s.bootRun bad fails).svc.fence ↔ i ∈ s.svc.fence ∨ i ∈ bad ∧ i < 512) ∧
    ((∀ i, i < 512 → i ∈ s.svc.fence ∨ i ∈ bad) → (s.bootRun bad fails).svc.boot = 1) ∧
    ((∃ i, i < 512 ∧ i ∉ s.svc.fence ∧ i ∉ bad) → (s.bootRun bad true).svc.boot = 2)) ∧
  ∀ (s : State) bad i, s.svc.boot = 0 → s.svc.powered = true → i < 512 → i ∉ s.svc.fence → i ∉ bad → s.svc.integ < 4 →
    let t := s.bootRun bad false
    (s.svc.firmware = none → t.svc.boot = 3) ∧
    (∀ f, s.svc.firmware = some f → f.verifies s.sealEng.romFw = false → t.svc.boot = 3) ∧
    (∀ f, s.svc.firmware = some f → f.verifies s.sealEng.romFw = true → t.sealEng.mfw = f.digest ∧
      (s.svc.offered = none → t.svc.boot = 4) ∧
      (∀ m, s.svc.offered = some m → m.refusal s.sealEng.romDec = 0 →
        t.svc.boot = 7 ∧ t.sealEng.mdec = m.signed.digest ∧ ∀ i, t.tileImage i = some m) ∧
      ∀ m, s.svc.offered = some m → m.refusal s.sealEng.romDec ≠ 0 → t.svc.boot = 4 ∧
        t.scriv.head?.map (fun r => (r.event, r.a)) = some (1, m.refusal s.sealEng.romDec)) ∧
    t.lineCtrs = [] ∧ t.nodeCtrs = [] ∧ t.treeRoots = [] ∧ t.withdrawn = [] ∧ t.withdrawnBlocks = [] ∧
    t.host.ftBase = [0x7FF8000000, 0x7F58000000, 0x7EB8000000, 0x7D78000000].getD s.svc.integ 0 ∧
    ∀ f, f < 8388608 → (frameOf t.frames f).st =
      if t.host.ftBase / 65536 ≤ f + 4096 ∨ 1048576 ≤ f % 1048576 + [0, 40960, 81920, 163840].getD s.svc.integ 0 then .fixed
      else .toScrub

/-- From R356, R423, R425, R504: a host read is answered with the bytes that it may see, a host write is stored at its home,
or dropped and recorded where the frame is protected, and an access outside the windows is an Unsupported Request. That the
host reads a sealed frame as ciphertext and writes ciphertext into it, and that its writes to the firmware and integrity
areas are dropped with no record, is the model's reading (log 52). From R108 to R110, R468, R471, R472, R510: the violation
record is cleared; an untrusted access to a private page of a locked function is refused and recorded; an unsupported request
and an interface's state; and a decode image is loaded or refused. That the event acts on the image on offer alone, and the
numbers of the reasons for a refusal, are log 36's choices. -/
def Obligations.HostEvents : Prop :=
  ((∀ s pa n data, s.inWindow pa = true → s.inWindow (pa + n - 1) = true → ∃ bs, bs.length = n ∧
    exec (.hostMemoryAccess false pa n data) s =
      .next { s with out := .hostRead pa bs :: s.out, freeCount := s.freeCount + n } ∧
    ∀ k, k < n →
      (dramEnd ≤ pa + k → bs[k]? = some (s.peek .host (pa + k))) ∧
      (pa + k < dramEnd → s.guarded (pa + k) = none → s.poison.contains ((pa + k) / 64) = false →
        ((s.frameAt (pa + k)).sealMode = 0 → bs[k]? = some (s.peek .host (pa + k))) ∧
        ((s.frameAt (pa + k)).sealMode ≠ 0 → let line := (pa + k) / 64
          bs[k]? = some ((s.lineCipher false line (s.peekBytes .host (line * 64) 64)).getD ((pa + k) % 64) 0))) ∧
      (pa + k < dramEnd → s.guarded (pa + k) = some .hidden → bs[k]? = some 0)) ∧
  (∀ s pa n data, s.inWindow pa = false ∨ s.inWindow (pa + n - 1) = false →
    exec (.hostMemoryAccess false pa n data) s = .next { s with out := .unsupported :: s.out }) ∧
  (∀ s pa n data, data ≠ [] → pa % 64 + data.length ≤ 64 →
    (s.inWindow pa = false → exec (.hostMemoryAccess true pa n data) s = .next { s with out := .unsupported :: s.out }) ∧
    (s.inWindow pa = true → dramEnd ≤ pa ∨ (s.weightFrame pa = false ∧ s.guarded pa = none ∧ (s.frameAt pa).sealMode = 0) →
      exec (.hostMemoryAccess true pa n data) s = .next (s.writeHome pa data)) ∧
    (s.inWindow pa = true → pa < dramEnd → s.weightFrame pa = false → s.guarded pa = none → (s.frameAt pa).sealMode ≠ 0 →
      s.poison.contains (pa / 64) = false →
      let old := s.dramLine (pa / 64)
      let new := old.take (pa % 64) ++ data ++ old.drop (pa % 64 + data.length)
      let v := s.writeHome (pa / 64 * 64) (s.lineCipher true (pa / 64) new)
      exec (.hostMemoryAccess true pa n data) s =
        .next (if (s.frameAt pa).sealMode = 2 ∧ v.badLines.contains (pa / 64) = false then
          { v with badLines := pa / 64 :: v.badLines } else v)) ∧
    (s.inWindow pa = true → pa < dramEnd → s.weightFrame pa = true →
      exec (.hostMemoryAccess true pa n data) s = .next (s.scrivener (scrivSrc 0 0 (pa / 2 ^ 37)) 2 pa 0)) ∧
    (s.inWindow pa = true → pa < dramEnd → s.weightFrame pa = false → ∀ x, s.guarded pa = some x →
      exec (.hostMemoryAccess true pa n data) s =
        .next (if x = .hidden then s else s.scrivener (scrivSrc 0 0 (pa / 2 ^ 37)) 2 pa 0)))) ∧
  ((∀ s, ∃ t, exec .violClear s = .next t ∧ t = { s with host := t.host } ∧
    t.host = { s.host with violCount := 0, violW := false, violFn := 0, violOff := 0 }) ∧
  (∀ s fn off w, (s.fn fn).locked = false ∨ privateOffset fn off = false →
    exec (.untrustedPrivateAccess fn off w) s = .next s) ∧
  (∀ s fn off w, (s.fn fn).locked = true → privateOffset fn off = true → s.host.violIe = false →
    exec (.untrustedPrivateAccess fn off w) s = .next { s with
      out := if w then s.out else .regRead fn off 0 :: s.out
      host := { s.host with
        violCount := min (s.host.violCount + 1) 0xFFFFFFFF, violW := w, violFn := fn, violOff := off % 2 ^ 22 } }) ∧
  (∀ s fn off w, (s.fn fn).locked = true → privateOffset fn off = true → s.host.violIe = true → s.host.violVec < 256 →
    (∀ e ∈ (s.fn 0).msix, e.1 ≠ s.host.violVec) →
    ∃ t, exec (.untrustedPrivateAccess fn off w) s = .next t ∧ t.out.head? = some (.msi 0 s.host.violVec)) ∧
  (∀ n off, n ≠ 0 → (privateOffset n off = true ↔ 0x4000 ≤ off)) ∧
  (∀ off, privateOffset 0 off = true ↔ off < 0x1000 ∨ 0x4000 ≤ off) ∧
  (∀ s, exec .unsupportedRequest s = .next { s with out := .unsupported :: s.out }) ∧
  (∀ s fn run, exec (.tdispRequest fn run) s = .next (s.setFn fn { s.fn fn with locked := run })) ∧
  (∀ (s : State) part reason digest,
    (∀ m, s.svc.offered = some m → ¬ (m.refusal s.sealEng.romDec = reason ∧ m.signed.digest = digest)) →
    exec (.decodeImageLoad part reason digest) s = .next s) ∧
  (∀ (s : State) part m, s.svc.offered = some m → let n := m.refusal s.sealEng.romDec
    n ≠ 0 → exec (.decodeImageLoad part n m.signed.digest) s =
      .next (({ s with svc := { s.svc with offered := none } } : State).scrivener 0 1 n 0)) ∧
  (∀ (m : SignedImage) key, m.verifies key = true → m.sig.length = 2820) ∧
  (∀ (m : DecodeImage) key, m.refusal key = 0 ↔ m.signed.verifies key = true ∧ m.generation = Config.generation ∧ ∀ e ∈ m.entries,
    ((romFormat (e.1 / 128) (e.1 % 128)).isSome = true → fixedFields e.2 = romEntry (e.1 / 128) (e.1 % 128)) ∧
    (romFormat (e.1 / 128) (e.1 % 128) = none → e.2 = 0)) ∧
  (∀ (s : State) i e op m, (romFormat e op).isSome = true → s.tileImage i = some m →
    let x := s.decodeEntry i e op
    bits x 48 16 = bits (romEntry e op) 48 16 ∧ bits x 16 32 = bits (assoc m.entries (e * 128 + op) 0) 16 32) ∧
  ∀ (s : State) part m, s.svc.offered = some m → m.refusal s.sealEng.romDec = 0 →
    (∀ u ∈ s.st :: s.others, u.place.part = part → u.life = .active → u.matrixRuns = false) →
    ∃ t, exec (.decodeImageLoad part 0 m.signed.digest) s = .next t ∧ t.mem = s.mem ∧ t.sealEng.mdec = m.signed.digest ∧
    (∀ i, t.tileImage i =
      if i < 512 ∧ (s.part part).released = true ∧ (s.part part).cfg.hasTile i = true then some m else s.tileImage i) ∧
    (∀ u ∈ t.st :: t.others, u.place.part = part →
      (∃ g ∈ s.front.gangs, g.id = u.place.gang ∧ g.saved = false ∧ g.hung = none) → u.life = .saved ∨ u.life = .gone))

/-! ## Events of service, of migration and of the registers -/

namespace Sys2Proof.Machine

/-- A device register reads back the bits of `mask` that were written, and zero elsewhere. -/
def ReadsBack (off mask : Nat) : Prop :=
  ∀ s v, s.svc.powered = true → s.svc.boot = 7 → v < 2 ^ 64 → ∃ t, exec (.registerWrite 0 off v false) s = .next t ∧
    t.readReg 0 off = v &&& mask

/-- The gangs that `hit` says are saved, and memory is as it was. -/
def State.Preempted (s t : State) (hit : Place → Bool) : Prop :=
  t.mem = s.mem ∧ (t.st :: t.others).map Strand.place = (s.st :: s.others).map Strand.place ∧
  ∀ u ∈ t.st :: t.others, hit u.place = true →
    (∃ g ∈ s.front.gangs, g.id = u.place.gang ∧ g.saved = false ∧ g.hung = none) → u.life = .saved ∨ u.life = .gone

/-- The window of 2^40 cycles in which correctable errors are counted is over (R521). -/
def State.WindowOver (s : State) : Prop := s.svc.ceSince + 2 ^ 40 ≤ s.clock

/-- The service registers in the window that the clock is in. -/
def State.ceNow (s : State) : Service :=
  { s.svc with
    ceCount := if s.svc.ceSince + 2 ^ 40 ≤ s.clock then 0 else s.svc.ceCount
    ceSince := if s.svc.ceSince + 2 ^ 40 ≤ s.clock then s.svc.ceSince + (s.clock - s.svc.ceSince) / 2 ^ 40 * 2 ^ 40
      else s.svc.ceSince }

/-- What a checkpoint's stream holds (R525). -/
structure State.Streams (s : State) (c : Checkpoint) : Prop where
  clear : ∀ x, x ∈ c.mem ↔ x ∈ s.mem ∧ x.1 < sliceBase + sliceBytes ∧ ¬ (x.1 < dramEnd ∧ (s.frameAt x.1).sealMode ≠ 0)
  sealedLine : ∀ l r, r ∈ s.frames → r.frame.sealMode ≠ 0 → r.lo ≤ l / 1024 → l / 1024 < r.hi →
    (l, s.lineCipher false l (s.mem.readBytes (l * 64) 64)) ∈ c.sealedLines
  frames : c.frames = s.frames
  lists : c.lists = s.parts.map fun p => (p.1, p.2.scrubbed, p.2.toScrub)
  pools : c.pools = s.parts.map fun p => (p.1, p.2.pools)
  saved : ∀ t, t ∈ c.saved ↔ t ∈ s.st :: s.others ∧ t.life = .saved
  macs : ∀ x, x ∈ s.lineCtrs → s.mode2 x.1 = true → (x.1, s.lineMac x.1, x.2) ∈ c.macs
  nodes : c.nodes = s.nodeCtrs

end Sys2Proof.Machine

/-- From R507, R511, R516, R519, R521, R523 to R526: power is applied and removed; errors are counted and fence tiles; the clocks of
islands are lowered and the device is reset by heat; checkpoints start, end and are resumed; and a record of the Scrivener is
read. The contents of a checkpoint's list and the step by which clocks are lowered are the model's (log 13), as are the numbers of
the islands (log 77), the zeros of memory below the host window once power is applied (log 3), what an advanced leaf without its
signature comes to (log 55), and which word of a tile an error of its SRAM reaches, with its TVAL (log 74). -/
def Obligations.ServiceEvents : Prop :=
  (∀ (s : State) line, line * 64 < dramEnd → (s.frameAt (line * 64)).sealMode = 2 →
    (∃ t, exec (.integReread line true) s = .next t ∧ line ∉ t.flakyLines ∧ t.mem = s.mem ∧
      (s.ctrFull line = false → t.poison = s.poison ∧ assoc t.lineCtrs line 0 = assoc s.lineCtrs line 0 + 1) ∧
      (s.ctrFull line = true → line ∈ t.poison) ∧ t.svc.ceCount = min (s.ceNow.ceCount + 1) 0xFFFFFFFF ∧
      t.scriv.head?.map (fun r => (r.event, r.a, r.b)) = some (9, line * 64, 1)) ∧
    ∃ t, exec (.integReread line false) s = .next t ∧ line ∈ t.poison ∧ line ∉ t.badLines ∧ t.mem = s.mem ∧
      (∀ k ∈ s.pathOf line, k ∈ s.badNodes → k ∉ t.badNodes ∧ ∀ l, s.mode2 l = true → l / 8 ^ k.1 = k.2 → l ∈ t.poison) ∧
      t.svc.ceCount = s.svc.ceCount ∧ t.scriv.head?.map (fun r => (r.event, r.a, r.b)) = some (9, line * 64, 2)) ∧
  (∀ s, s.svc.powered = true → exec .powerOn s = .next s) ∧
  (∀ s, s.Wf → s.svc.powered = false → ∃ t, exec .powerOn s = .next t ∧ t.svc.powered = true ∧ t.svc.boot = 0 ∧ t.svc.integ = 0 ∧
    t.svc.fence = s.svc.fence ∧ t.sealEng.leaf = s.sealEng.leaf ∧ t.sealEng.romFw = s.sealEng.romFw ∧
    t.sealEng.romDec = s.sealEng.romDec ∧ t.sealEng.worlds = [] ∧ t.scrivCount = 0 ∧ t.st.life = .gone ∧ t.others = [] ∧
    ∀ a, t.mem.read a = if a < hostBase then 0 else s.mem.read a) ∧
  (∀ s leaf, s.Wf → ∃ t, exec (.powerRemoved leaf) s = .next t ∧ t.svc.powered = false ∧ t.st.life = .gone ∧ t.others = [] ∧
    t.scriv = [] ∧ t.svc.fence = s.svc.fence ∧ (leaf = false → t.sealEng.leaf = s.sealEng.leaf) ∧
    (leaf = true → s.sealEng.leaf < leafCount → t.sealEng.leaf = s.sealEng.leaf + 1) ∧
    ∀ a, hostBase ≤ a → t.mem.read a = s.mem.read a) ∧
  (∀ (s : State) die tile, die < 4 → tile < 128 → let i := die * 128 + tile
    ((∃ e ∈ s.svc.sramErrors, e.1 = i ∧ s.clock - e.2 ≤ 2 ^ 36) → ∃ t, exec (.sramUncorrectableError die tile) s = .next t ∧
      i ∈ t.svc.fence ∧ (∀ j ∈ s.svc.fence, j ∈ t.svc.fence) ∧
      ((∃ p ∈ s.parts, p.2.released = true ∧ p.2.cfg.hasTile i = true) → t.svc.fenced = s.svc.fenced) ∧
      ((∀ p ∈ s.parts, p.2.released = true → p.2.cfg.hasTile i = false) → i ∈ t.svc.fenced)) ∧
    ((∀ e ∈ s.svc.sramErrors, e.1 = i → 2 ^ 36 < s.clock - e.2) → ∃ t, exec (.sramUncorrectableError die tile) s = .next t ∧
      t.svc.fence = s.svc.fence ∧ (i, s.clock) ∈ t.svc.sramErrors) ∧
    ((∀ u ∈ s.st :: s.others, u.life = .active → u.place.tileKey ≠ i) → ∃ t, exec (.sramUncorrectableError die tile) s = .next t ∧
      t = { s with svc := t.svc }) ∧
    (s.Distinct → s.st.life = .active → s.st.place.tileKey = i → s.st.pend = none →
      ∃ t v, exec (.sramUncorrectableError die tile) s = .next t ∧
        t = ({ s with svc := v, freeCount := s.freeCount + 1 } : State).raise s.st.pc ⟨.poison, 0, Config.freeWord s.freeCount⟩)) ∧
  (∀ s, let v := s.ceNow
    let c := min (v.ceCount + 1) 0xFFFFFFFF
    exec .correctableError s = .next { s with svc := { v with
      ceCount := c, cerr := v.cerr || decide (v.ceLimit ≠ 0 ∧ v.ceLimit ≤ c) } }) ∧
  (∀ s, exec .ceWindowExpiry s = .next { s with svc := s.ceNow } ∧ (s.WindowOver → s.ceNow.ceCount = 0)) ∧
  (∀ s, ∃ t, exec .powerBrake s = .next t ∧ t = { s with svc := { s.svc with slow := t.svc.slow } } ∧
    ∀ i, t.islandClock i = if i < 512 then 24 else s.islandClock i) ∧
  (∀ s island clock, (560 ≤ island → exec (.powerLimitThrottle island clock) s = .next s) ∧
    (island < 560 → ∃ t, exec (.powerLimitThrottle island clock) s = .next t ∧
      t = { s with svc := { s.svc with slow := t.svc.slow } } ∧
      ∀ i, t.islandClock i = if i = island then max 24 (min clock 90) else s.islandClock i)) ∧
  (∀ s dram unit degrees,
    ((if dram then 105 else 115) ≤ degrees →
      ∃ t, exec (.thermalThreshold dram unit degrees) s = .next t ∧ s.DeviceReset t) ∧
    (degrees < (if dram then 105 else 115) → ∃ t, exec (.thermalThreshold dram unit degrees) s = .next t ∧
      t = { s with svc := { s.svc with slow := t.svc.slow, refresh2 := t.svc.refresh2 } } ∧
      (∀ k, k ∈ t.svc.refresh2 ↔ if dram = true ∧ k = unit then 85 ≤ degrees else k ∈ s.svc.refresh2) ∧
      ∀ i, t.islandClock i =
        if 95 ≤ degrees ∧ (islandOf i).bind Island.die = some (if dram then unit / 2 else unit)
        then max 24 (min (s.islandClock i - 1) 90) else s.islandClock i)) ∧
  (∀ s w j k, w < 4096 → j < 256 → k < 256 → ∃ t, exec (.tlmRefresh w j k) s = .next t ∧
    t = { s with svc := { s.svc with tlm := t.svc.tlm } } ∧
    bits t.svc.tlm.toNat 52 12 = w ∧ bits t.svc.tlm.toNat 40 8 = j ∧ bits t.svc.tlm.toNat 32 8 = k ∧
    bits t.svc.tlm.toNat 0 10 = s.svc.slow.length % 1024) ∧
  (∀ s, (s.svc.ckptState ≠ 0 ∨ s.svc.ckptDst = 0 →
      exec .ckptStart s = .next { s with svc := { s.svc with ckptErr := true } }) ∧
    (s.svc.ckptState = 0 → s.svc.ckptDst ≠ 0 → (∀ u ∈ s.st :: s.others, u.life = .active → u.matrixRuns = false) →
      ∃ t, exec .ckptStart s = .next t ∧ s.Preempted t (fun _ => true) ∧
        t.svc = { s.svc with ckptState := 1, ckptGib := 0, ckptErr := false })) ∧
  (∀ s, (s.svc.ckptState ≠ 1 → exec .ckptDone s = .next s) ∧
    (s.svc.ckptState = 1 → ∃ c, s.Streams c ∧ exec .ckptDone s = .next { s with
      svc := { s.svc with ckptState := 2, ckptGib := 512 }, out := .checkpoint s.svc.ckptDst c :: s.out })) ∧
  (∀ s, exec .ckptResume s = .next (if s.svc.ckptState = 2 then { s with svc := { s.svc with ckptState := 0 } } else s)) ∧
  (∀ (s : State) slot r, slot < 4096 → s.scriv.find? (fun r => r.seq % 4096 == slot) = some r →
    exec (.scrivselWrite slot) s = .next { s with svc := { s.svc with
      scrivSel := slot
      scrivD := [BitVec.ofNat 64 r.time, BitVec.ofNat 64 (r.src % 2 ^ 16 * 2 ^ 48 + r.event % 2 ^ 16 * 2 ^ 32 + r.seq % 2 ^ 32),
        BitVec.ofNat 64 r.a, BitVec.ofNat 64 r.b] } }) ∧
  ∀ (s : State) slot, slot < 4096 → (∀ r ∈ s.scriv, r.seq % 4096 ≠ slot) → ∃ t, exec (.scrivselWrite slot) s = .next t ∧
    t = { s with svc := t.svc, freeCount := s.freeCount + 4 } ∧ t.svc = { s.svc with scrivSel := slot, scrivD := t.svc.scrivD }

/-- From R479 to R482: a function is paused, its image is made and it is resumed on the device where the image stands. What an image
holds byte by byte is the generation's own and is opaque here (log 11). -/
def Obligations.MigrationEvents : Prop :=
  (∀ s fn, fn = 0 ∨ (s.fn fn).rbusy = true ∨ (s.fn fn).migState = 1 → exec (.migrationPause fn) s = .next s ∧
    ((s.fn fn).migState ≠ 3 → exec (.migrationResume fn) s = .next s)) ∧
  (∀ s fn, (s.fn fn).migState = 3 → exec (.migrationPause fn) s = .next s) ∧
  (∀ s fn, fn ≠ 0 → (s.fn fn).rbusy = false → (s.fn fn).migState = 0 ∨ (s.fn fn).migState = 2 → s.draperGranules fn = [] →
    (∀ u ∈ s.st :: s.others, u.place.fn = fn → u.life = .active → u.matrixRuns = false) → ∃ t, exec (.migrationPause fn) s = .next t ∧ (t.fn fn).migState = 1 ∧ (t.fn fn).migErr = false ∧
      (t.fn fn).trans.reqs = [] ∧ s.Preempted t (fun p => p.fn == fn) ∧
      (∀ u ∈ t.st :: t.others, ∀ w ∈ u.pageWaits, w.fn ≠ fn) ∧
      t.drapers = s.drapers.map fun (d : Nat × Draper) => (d.1, { d.2 with tasks := d.2.tasks.map fun u =>
        if u.fn = fn ∧ (u.st = .waiting ∨ u.st = .ready) then { u with deadline := s.clock, patience := 0 } else u })) ∧
  (∀ (s : State) fn, (s.fn fn).migState ≠ 1 ∨ (∃ d ∈ s.drapers, ∃ x ∈ d.2.tasks, x.fn = fn) →
    exec (.migrationPaused fn) s = .next s) ∧
  (∀ (s : State) fn, (s.fn fn).migState = 1 → (∀ d ∈ s.drapers, ∀ x ∈ d.2.tasks, x.fn ≠ fn) →
    (∀ w ∈ s.windows, (s.ctx w.owner).fn ≠ fn) → (∀ r ∈ s.regions, r.fn ≠ fn) →
    let f := s.fn fn
    let id := s.images.length
    let size := Config.imageSize id
    let u : State := { s with images := s.images ++ [s.imageOf fn id f.migRegions] }
    exec (.migrationPaused fn) s = .next (
      if f.migUnits * 65536 < size ∨ (∃ i, i < (size + 65535) / 65536 ∧ s.weightFrame ((f.migBase + i) * 65536) = true) then u.setFn fn { f with migErr := true, migState := 2, migSize := size }
      else (u.writeHome (f.migBase * 65536) (genFrom size 0 fun k => Config.imageByte id k)).setFn fn
        { f with migState := 2, migSize := size })) ∧
  (∀ (s : State) fn id regions, let i := s.imageOf fn id regions
    i.regions = regions ∧ (∀ t, t ∈ i.strands ↔ t ∈ s.st :: s.others ∧ t.place.fn = fn ∧ t.life = .saved) ∧
    (∀ o, o ∈ i.orders ↔ o ∈ s.front.orders ∧ o.fn = fn)) ∧
  (∀ (s : State) fn, fn ≠ 0 → (s.fn fn).rbusy = false → (s.fn fn).migState = 2 →
    let f := s.fn fn
    (f.en = true → (∀ q ∈ f.queues, q.2.en = false) → f.migRegions = [] → ∃ t, exec (.migrationResume fn) s = .next t ∧
      t = { s with fns := t.fns } ∧ t.fn fn = f.migrated false) ∧
    ((f.en = false ∨ ∃ q ∈ f.queues, q.2.en = true) → ∃ t, exec (.migrationResume fn) s = .next t ∧ t.mem = s.mem ∧
      (t.fn fn).migState = 0 ∧ (t.fn fn).migErr = true ∧ (∀ u ∈ t.others, u.place.fn ≠ fn) ∧
      (s.st.place.fn = fn → t.st.life = .gone) ∧ ∀ o ∈ t.front.orders, o.fn ≠ fn)) ∧
  (∀ (s : State) fn, let f := s.fn fn
    fn ≠ 0 → f.rbusy = false → f.migState = 0 →
    (s.imageAt f = none → ∃ t, exec (.migrationResume fn) s = .next t ∧ t = { s with fns := t.fns } ∧
      t.fn fn = f.migrated true) ∧
    ∀ i, s.imageAt f = some i → i.regions = [] →
      ((f.en = false ∨ (∃ q ∈ f.queues, q.2.en = true) ∨ (∃ b ∈ i.blocks, s.blockFits f.part b = false)) →
        ∃ t, exec (.migrationResume fn) s = .next t ∧ t = { s with fns := t.fns } ∧ t.fn fn = f.migrated true) ∧
      (f.en = true → (∀ q ∈ f.queues, q.2.en = false) → (∀ b ∈ i.blocks, s.blockFits f.part b = true) →
        ∃ t, exec (.migrationResume fn) s = .next t ∧ (t.fn fn).migState = 0 ∧ (t.fn fn).migErr = false ∧ t.mem = s.mem ∧
          t.st = s.st ∧ t.others.take s.others.length = s.others ∧
          (∀ x ∈ t.others.drop s.others.length, x.life = .saved ∧ x.place.fn = fn ∧ x.place.part = f.part) ∧
          t.others.length = s.others.length + i.strands.length ∧
          (∀ g ∈ t.front.gangs.drop s.front.gangs.length, g.saved = true) ∧
          t.front.gangs.length = s.front.gangs.length + i.gangs.length ∧
          t.front.orders.length = s.front.orders.length + i.orders.length))

/-- From R104, R283, R355, R357, R470, R472 to R475, R479, R485, R516, R518, R520, R521, R524 to R527: what the registers take and read
back, and which writes they ignore. That an address of a queue record with low bits set is stored and read back whole is log 34's choice, and
that a write of the low half keeps the upper half as it reads is log 55's. -/
def Obligations.RegisterWrites : Prop :=
  (∀ s fn off v half, off % 8 ≠ 0 ∨ s.svc.powered = false ∨ 64 < fn →
    exec (.registerWrite fn off v half) s = .next s) ∧
  (∀ s fn off v, s.readReg fn off < 2 ^ 64 → exec (.registerWrite fn off v true) s =
    exec (.registerWrite fn off (s.readReg fn off / 2 ^ 32 * 2 ^ 32 + v % 2 ^ 32) false) s) ∧
  (∀ s off v half, s.svc.boot ≠ 7 → off ≠ 0x10 → exec (.registerWrite 0 off v half) s = .next s) ∧
  (∀ s v, s.svc.powered = true → v % 2 = 1 → ∃ t, exec (.registerWrite 0 0x10 v false) s = .next t ∧ s.DeviceReset t) ∧
  ReadsBack 0x000 (0x7FFFFFFFF * 2 ^ 17) ∧ ReadsBack 0x020 0xFF01 ∧ ReadsBack 0x110 (2 ^ 63 + 0xFF) ∧
  ReadsBack 0x200 3 ∧ ReadsBack 0x230 (2 ^ 64 - 1) ∧ ReadsBack 0x248 0xFFF ∧
  (∀ s v, s.svc.powered = true → s.svc.boot = 7 → ∃ t, exec (.registerWrite 0 0x210 v false) s = .next t ∧
    t.readReg 0 0x210 = s.svc.ceCount * 2 ^ 32 + v % 2 ^ 32) ∧
  (∀ s v, s.svc.powered = true → s.svc.boot = 7 → ∃ t, exec (.registerWrite 0 0x218 v false) s = .next t ∧
    t.readReg 0 0x218 = max 1000 (min (v % 4096) 3000)) ∧
  (∀ s v, s.svc.powered = true → s.svc.boot = 7 → ∃ t, exec (.registerWrite 0 0x100 v false) s = .next t ∧
    t.readReg 0 0x100 = if s.fabric.chipLocked then s.fabric.chip else v % 4096) ∧
  (∀ s off v half, off ∈ [0x008, 0x018, 0x220, 0x240, 0x250, 0x258, 0x260, 0x268, 0x270] →
    exec (.registerWrite 0 off v half) s = .next s) ∧
  (∀ s p v, p < 8 → s.svc.powered = true → s.svc.boot = 7 → let at' := 0x100000 + p * 0x10000
    (∀ off, off ∈ [0, 8, 24] → (s.part p).hold = false → exec (.registerWrite 0 (at' + off) v false) s = .next s) ∧
    ((s.part p).hold = true →
      (∃ t, exec (.registerWrite 0 at' v false) s = .next t ∧ t.readReg 0 at' = v &&& 0x80FFFF8C0000000F) ∧
      (∃ t, exec (.registerWrite 0 (at' + 8) v false) s = .next t ∧ t.readReg 0 (at' + 8) = v &&& 0x007FFFFF007FFFFF) ∧
      ∃ t, exec (.registerWrite 0 (at' + 24) v false) s = .next t ∧ t.readReg 0 (at' + 24) = v &&& 0x7FFFFF)) ∧
  (∀ s p v, p < 8 → s.svc.powered = true → s.svc.boot = 7 → (s.part p).hold = true → v % 2 = 0 → v / 8 % 2 = 0 →
    exec (.registerWrite 0 (0x100010 + p * 0x10000) v false) s = exec (.partitionRelease p) s) ∧
  (∀ s n v, n ≤ 64 → s.svc.powered = true → s.svc.boot = 7 → let at' := 0x200000 + n * 0x400
    (∃ t, exec (.registerWrite 0 (at' + 16) v false) s = .next t ∧
      (t.fn n).few = max 1 (bits v 0 8) ∧ (t.fn n).daw = max 1 (bits v 8 8) ∧ (t.fn n).sbw = max 1 (bits v 16 8) ∧
      (t.fn n).pcw = max 1 (bits v 24 8)) ∧
    (n ≠ 0 → ∃ t, exec (.registerWrite 0 (at' + 8) v false) s = .next t ∧ t.readReg 0 (at' + 8) = v % 2 ^ 16 ||| 1) ∧
    (v / 2 % 2 = 0 → ∃ t, exec (.registerWrite 0 at' v false) s = .next t ∧
      (t.fn n).tenant = (if n ≠ 0 ∧ (s.fn n).en = false then bits v 48 16 else (s.fn n).tenant) ∧
      (t.fn n).part = (if n ≠ 0 ∧ (s.fn n).en = false then bits v 41 3 else (s.fn n).part) ∧
      (t.fn n).coal = bit v 40 ∧ (t.fn n).en = (if n = 0 then (s.fn n).en else bit v 4) ∧
      (t.fn n).privq = (if n = 0 then (s.fn n).privq else bit v 5))) ∧
  (∀ (s : State) fn q off v, 1 ≤ fn → fn ≤ 64 → q < 64 → off % 8 = 0 → off < 128 → s.svc.powered = true → v < 2 ^ 64 →
    let r := s.queue fn q
    let at' := 0x4000 + 128 * q
    (r.state = .running → off ≠ 8 → off ≠ 40 → exec (.registerWrite fn (at' + off) v false) s = .next s) ∧
    (r.state ≠ .running → off ∈ [0, 24, 48, 56, 64] →
      ∃ t, exec (.registerWrite fn (at' + off) v false) s = .next t ∧ t.readReg fn (at' + off) = v) ∧
    (r.state ≠ .running → off = 72 → ∃ t, exec (.registerWrite fn (at' + off) v false) s = .next t ∧
      t.readReg fn (at' + off) = v % 2 ^ 16) ∧
    (r.state ≠ .running → off = 16 → ∃ t, exec (.registerWrite fn (at' + off) v false) s = .next t ∧
      t.readReg fn (at' + off) = r.fpos.toNat * 2 ^ 32 + v % 2 ^ 32) ∧
    (r.state ≠ .running → off = 80 → ∃ t, exec (.registerWrite fn (at' + off) v false) s = .next t ∧
      t.readReg fn (at' + off) = v &&& 0xFFFFFFFFFFFC0) ∧
    (off = 40 → let u := if r.state = .running then s else s.setQueue fn q r
      exec (.registerWrite fn (at' + off) v false) s = exec (.cqheadWrite fn q (bits v 0 32))
        (u.setQueue fn q { r with hangto := BitVec.ofNat 32 (bits v 32 32) })) ∧
    (r.state ≠ .running → off = 8 → v / 2 ^ 29 % 2 = 0 → r.en = false →
      ∃ t, exec (.registerWrite fn (at' + off) v false) s = .next t ∧ (t.queue fn q).ctx = bits v 16 12 ∧
        (t.queue fn q).logn = (if 4 ≤ bits v 0 5 ∧ bits v 0 5 ≤ 20 then bits v 0 5 else 4) ∧
        (t.queue fn q).privl = (if (s.fn fn).privq then bit v 28 else r.privl))) ∧
  (∀ s fn q v half, 1 ≤ fn → fn ≤ 64 → q < 64 → s.svc.powered = true →
    exec (.registerWrite fn (8 * q) v half) s = exec (.kickRegisterWrite fn q (v % 2 ^ 32)) s) ∧
  (∀ s n v, 1 ≤ n → n ≤ 64 → s.svc.powered = true → s.svc.boot = 7 → v < 2 ^ 64 →
    let at' := fun (k : Nat) => 0x200000 + n * 0x400 + 64 + 8 * k
    let write := fun (k : Nat) => exec (.registerWrite 0 (at' k) v false) s
    let tr := (s.fn n).trans
    (∀ k m, (k, m) ∈ [(0, 0x000FFFFFFFFF0001), (2, 0xFF03), (3, 2 ^ 32 - 1), (9, 0x000FFFFFFFFFF000), (10, 0x000FFFFFFFFFF000)] →
      ∃ t, write k = .next t ∧ t.readReg 0 (at' k) = v &&& m) ∧
    (∃ t, write 1 = .next t ∧ t.readReg 0 (at' 1) = bits v 12 40 * 4096 + max 4 (bits v 0 4)) ∧
    (∃ t, write 5 = .next t ∧ t.readReg 0 (at' 5) =
      tr.reqs.length * 2 ^ 16 + (tr.badTag && !bit v 1).toNat * 2 + (tr.full && !bit v 0).toNat) ∧
    (∃ t, write 12 = .next t ∧ t.readReg 0 (at' 12) = (tr.dbmOvr && !bit v 1).toNat * 2 + tr.dbmBusy.toNat) ∧
    write 3 = exec (.prqheadWrite n (v % 2 ^ 32)) s ∧ write 6 = exec (.prspWrite n (v % 2 ^ 16) (bits v 16 2)) s ∧
    write 7 = exec (.s2invWrite n (BitVec.ofNat 64 v)) s ∧ write 11 = exec (.dbmctlWrite n (BitVec.ofNat 64 v)) s ∧
    write 4 = .next s ∧ write 8 = .next s ∧ ∀ k, k < 13 → exec (.registerWrite 0 (0x200040 + 8 * k) v false) s = .next s) ∧
  (∀ s p i v, p < 8 → i < 256 → s.svc.powered = true → s.svc.boot = 7 → v < 2 ^ 64 →
    let at' := 0x102000 + p * 0x10000 + 32 * i
    let x := s.part p
    let w := assoc x.weights i WeightEntry.clear
    let free := w.en = false ∧ w.st = 0
    let put := s.setPart p { x with weights := assocPut x.weights i { w with world := bits v 52 6, frame := bits v 16 36 } }
    (free → bit v 63 = false → ∃ t, exec (.registerWrite 0 (at' + 16) v false) s = .next t ∧
      t.readReg 0 (at' + 16) = v &&& 0x03FFFFFFFFFF0000) ∧
    (free → ∃ t, exec (.registerWrite 0 (at' + 24) v false) s = .next t ∧ t.readReg 0 (at' + 24) = v) ∧
    (free → bit v 63 = true → exec (.registerWrite 0 (at' + 16) v false) s = exec (.weightRegionEnable p i) put) ∧
    (¬ free → exec (.registerWrite 0 (at' + 24) v false) s = .next s ∧ exec (.registerWrite 0 (at' + 16) v false) s =
      if bit v 63 then exec (.weightRegionEnable p i) s else if w.en then exec (.weightRegionDisable p i) s else .next s) ∧
    exec (.registerWrite 0 at' v false) s = .next s ∧ exec (.registerWrite 0 (at' + 8) v false) s = .next s ∧
    ∃ t, exec (.registerWrite 0 (0x104000 + p * 0x10000 + 8 * i) v false) s = .next t ∧
      t.readReg 0 (0x104000 + p * 0x10000 + 8 * i) = v % 2 ^ 45) ∧
  (∀ s n v, 1 ≤ n → n ≤ 64 → s.svc.powered = true → s.svc.boot = 7 → let at' := 0x200000 + n * 0x400
    (∃ t, exec (.registerWrite 0 (at' + 40) v false) s = .next t ∧ t.readReg 0 (at' + 40) = v % 2 ^ 52) ∧
    (∃ t, exec (.registerWrite 0 (at' + 32) v false) s = .next t ∧ t.readReg 0 (at' + 32) =
      (s.fn n).migSize * 2 ^ 32 + ((s.fn n).migErr && !bit v 2).toNat * 4 + (s.fn n).migState) ∧
    (v % 4 = 0 → exec (.registerWrite 0 (at' + 24) v false) s = .next s) ∧
    (v % 4 = 1 → exec (.registerWrite 0 (at' + 24) v false) s = exec (.migrationPause n) s) ∧
    (v % 4 = 2 → (s.fn n).migState ≠ 3 → exec (.registerWrite 0 (at' + 24) v false) s = exec (.migrationResume n) s)) ∧
  ∀ s fn i v, fn ≤ 64 → i < (if fn = 0 then 256 else 64) → s.svc.powered = true → (fn = 0 → s.svc.boot = 7) → v < 2 ^ 64 →
    let at' := 0x1000 + 16 * i
    let pending := (s.fn fn).pba.contains i
    (∃ t, exec (.registerWrite fn at' v false) s = .next t ∧ t.readReg fn at' = v ∧
      t.readReg fn (at' + 8) = s.readReg fn (at' + 8)) ∧
    ∃ t, exec (.registerWrite fn (at' + 8) v false) s = .next t ∧ t.readReg fn at' = s.readReg fn at' ∧
      t.readReg fn (at' + 8) = v % 2 ^ 33 ∧ (bit v 32 = true ∨ pending = false → t.out = s.out ∧ (t.fn fn).pba = (s.fn fn).pba) ∧
      (bit v 32 = false → pending = true → t.out = .msi fn i :: s.out ∧ i ∉ (t.fn fn).pba)

/-! ## What every step keeps -/

/-- Every step that answers a next state keeps memory in its canonical form: equal memories stay equal data, and a read meets
the byte that the last write put. This holds of every word, of every event and of every move. And the machine goes on: where
a strand is current, every word and every event answers a next state, and so does a step in which no move is asked for. -/
def Obligations.StepKeepsWf : Prop :=
  (∀ s t : State, s.Wf → step s = .next t → t.Wf) ∧ (∀ i (s : State), s.st.life ≠ .gone → ∃ t, exec i s = .next t) ∧
    ∀ s : State, s.moves = [] → s.GoesOn
end

