-- ==== Sys2Proof/Laws/Mem.lean ====
section
/-! SUPPORT. Laws of the sparse memory: reads after writes, and the canonical form kept by every operation. -/

namespace Sys2Proof.Machine

/-- Below its first listed address a canonical memory lists nothing. -/
theorem Mem.read_of_lt_first {m : Mem} {lo a : Nat} (h : Mem.wfFrom (some lo) m = true) (ha : a ≤ lo) :
    m.read a = unlistedByte := by
  cases m with
  | nil => rfl
  | cons c rest =>
    obtain ⟨k, v⟩ := c
    simp [Mem.wfFrom] at h
    simp [Mem.read, show k ≠ a by omega, show a < k by omega]

/-- The bound of a canonical memory may be lowered. -/
theorem Mem.wfFrom_mono {m : Mem} {l1 l2 : Nat} (h : Mem.wfFrom (some l1) m = true) (hl : l2 ≤ l1) :
    Mem.wfFrom (some l2) m = true := by
  cases m with
  | nil => rfl
  | cons c rest =>
    obtain ⟨k, v⟩ := c
    simp [Mem.wfFrom] at h ⊢
    exact ⟨⟨by omega, h.1.2⟩, h.2⟩

/-- A canonical memory with a bound is canonical. -/
theorem Mem.wfFrom_none {m : Mem} {lo : Option Nat} (h : Mem.wfFrom lo m = true) : Mem.wfFrom none m = true := by
  cases m with
  | nil => rfl
  | cons c rest =>
    obtain ⟨k, v⟩ := c
    cases lo <;> simp [Mem.wfFrom] at h ⊢
    · exact h
    · exact ⟨h.1.2, h.2⟩

/-- Putting a byte keeps the canonical form above a bound. -/
theorem Mem.wfFrom_write {m : Mem} {lo : Option Nat} {a : Nat} {b : Byte} (h : Mem.wfFrom lo m = true)
    (hl : ∀ l, lo = some l → l < a) : Mem.wfFrom lo (m.write a b) = true := by
  induction m generalizing lo with
  | nil =>
    unfold Mem.write
    split
    · rfl
    · cases lo with
      | none => simp_all [Mem.wfFrom]
      | some l => simp_all [Mem.wfFrom]
  | cons c rest ih =>
    obtain ⟨k, v⟩ := c
    have hr : Mem.wfFrom (some k) rest = true := by simp [Mem.wfFrom] at h; exact h.2
    have hv : (v != unlistedByte) = true := by simp [Mem.wfFrom] at h; simpa using h.1.2
    unfold Mem.write
    by_cases hk : k = a
    · subst hk
      simp only [if_true]
      split
      · cases lo with
        | none => exact Mem.wfFrom_none hr
        | some l => exact Mem.wfFrom_mono hr (by have := hl l rfl; omega)
      · rename_i hb
        cases lo with
        | none => simp [Mem.wfFrom, hr, hb]
        | some l => simp [Mem.wfFrom, hr, hb, hl l rfl]
    · simp only [if_neg hk]
      split
      · rename_i hlt
        split
        · exact h
        · rename_i hb
          have hrest : Mem.wfFrom (some a) ((k, v) :: rest) = true := by simp [Mem.wfFrom, hlt, hr]; simpa using hv
          cases lo with
          | none => simp only [Mem.wfFrom] at hrest ⊢; simp_all
          | some l => have := hl l rfl; simp only [Mem.wfFrom] at hrest ⊢; simp_all
      · rename_i hlt
        have hi : Mem.wfFrom (some k) (Mem.write rest a b) = true := ih hr (by intro l hl'; injection hl' with e; omega)
        cases lo with
        | none => simp only [Mem.wfFrom, hi, hv]; rfl
        | some l =>
          have : l < k := by simp [Mem.wfFrom] at h; exact h.1.1
          simp only [Mem.wfFrom, hi, hv]; simp [this]

/-- Putting a byte keeps the canonical form. -/
theorem Mem.wf_write {m : Mem} (h : m.wf = true) (a : Nat) (b : Byte) : (m.write a b).wf = true :=
  Mem.wfFrom_write h (by intro l hl; cases hl)

/-- Putting bytes keeps the canonical form. -/
theorem Mem.wf_writeBytes {m : Mem} (h : m.wf = true) (a : Nat) (bs : List Byte) : (m.writeBytes a bs).wf = true := by
  induction bs generalizing m a with
  | nil => exact h
  | cons b rest ih => exact ih (Mem.wf_write h a b) (a + 1)

/-- Storing a number keeps the canonical form. -/
theorem Mem.wf_writeNat {m : Mem} (h : m.wf = true) (a n x : Nat) : (m.writeNat a n x).wf = true :=
  Mem.wf_writeBytes h a _

/-- Dropping listed bytes keeps the canonical form. -/
theorem Mem.wfFrom_filter {m : Mem} {lo : Option Nat} (f : Host.Cell → Bool) (h : Mem.wfFrom lo m = true) :
    Mem.wfFrom lo (m.filter f) = true := by
  induction m generalizing lo with
  | nil => exact h
  | cons c rest ih =>
    obtain ⟨k, v⟩ := c
    have hr : Mem.wfFrom (some k) rest = true := by simp [Mem.wfFrom] at h; exact h.2
    simp only [List.filter]
    split
    · cases lo with
      | none => simp [Mem.wfFrom] at h ⊢; exact ⟨h.1, ih h.2⟩
      | some l => simp [Mem.wfFrom] at h ⊢; exact ⟨h.1, ih h.2⟩
    · cases lo with
      | none => exact Mem.wfFrom_none (ih hr)
      | some l => exact Mem.wfFrom_mono (ih hr) (by simp [Mem.wfFrom] at h; omega)

/-- Dropping listed bytes keeps the canonical form. -/
theorem Mem.wf_filter {m : Mem} (f : Host.Cell → Bool) (h : m.wf = true) : Mem.wf (m.filter f) = true :=
  Mem.wfFrom_filter f h

/-- Clearing a range keeps the canonical form. -/
theorem Mem.wf_clear {m : Mem} (h : m.wf = true) (a n : Nat) : (m.clear a n).wf = true := Mem.wfFrom_filter _ h

/-- A byte reads as what was put there last, above a bound. -/
theorem Mem.read_write_same_from {m : Mem} {lo : Option Nat} (h : Mem.wfFrom lo m = true) (a : Nat) (b : Byte) :
    (m.write a b).read a = b := by
  induction m generalizing lo with
  | nil => unfold Mem.write; split <;> simp_all [Mem.read]
  | cons c rest ih =>
    obtain ⟨k, v⟩ := c
    have hr : Mem.wfFrom (some k) rest = true := by simp [Mem.wfFrom] at h; exact h.2
    unfold Mem.write
    by_cases hk : k = a
    · subst hk
      simp only [if_true]
      split
      · rename_i hb; rw [hb]; exact Mem.read_of_lt_first hr (Nat.le_refl _)
      · simp [Mem.read]
    · simp only [if_neg hk]
      split
      · rename_i hlt
        split
        · rename_i hb; simp [Mem.read, hk, hlt, hb]
        · simp [Mem.read]
      · rename_i hlt
        simp only [Mem.read, if_neg hk, if_neg hlt]
        exact ih hr

/-- A byte of a canonical memory reads as what was put there last. -/
theorem Mem.read_write_same {m : Mem} (h : m.wf = true) (a : Nat) (b : Byte) : (m.write a b).read a = b :=
  Mem.read_write_same_from h a b

/-- Putting a byte leaves every other byte, above a bound. -/
theorem Mem.read_write_other_from {m : Mem} {lo : Option Nat} (h : Mem.wfFrom lo m = true) {a a' : Nat} (b : Byte)
    (ha : a' ≠ a) : (m.write a b).read a' = m.read a' := by
  induction m generalizing lo with
  | nil =>
    unfold Mem.write
    split
    · rfl
    · simp [Mem.read, Ne.symm ha]
  | cons c rest ih =>
    obtain ⟨k, v⟩ := c
    have hr : Mem.wfFrom (some k) rest = true := by simp [Mem.wfFrom] at h; exact h.2
    unfold Mem.write
    by_cases hk : k = a
    · subst hk
      simp only [if_true]
      split
      · simp only [Mem.read, if_neg (Ne.symm ha)]
        split
        · rename_i hlt; exact Mem.read_of_lt_first hr (by omega)
        · rfl
      · simp only [Mem.read, if_neg (Ne.symm ha)]
    · simp only [if_neg hk]
      split
      · rename_i hlt
        split
        · rfl
        · by_cases h1 : a' < a
          · simp [Mem.read, Ne.symm ha, h1, show k ≠ a' by omega, show a' < k by omega]
          · simp only [Mem.read, if_neg (Ne.symm ha), if_neg h1]
      · simp only [Mem.read]
        split
        · rfl
        · split
          · rfl
          · exact ih hr

/-- Putting a byte leaves every other byte of a canonical memory. -/
theorem Mem.read_write_other {m : Mem} (h : m.wf = true) {a a' : Nat} (b : Byte) (ha : a' ≠ a) :
    (m.write a b).read a' = m.read a' :=
  Mem.read_write_other_from h b ha

/-- Putting bytes leaves every byte outside them. -/
theorem Mem.read_writeBytes_other {m : Mem} (h : m.wf = true) (a : Nat) (bs : List Byte) {a' : Nat}
    (ha : a' < a ∨ a + bs.length ≤ a') : (m.writeBytes a bs).read a' = m.read a' := by
  induction bs generalizing m a with
  | nil => rfl
  | cons b rest ih =>
    simp only [List.length_cons] at ha
    rw [Mem.writeBytes, ih (Mem.wf_write h a b) (a + 1) (by omega)]
    exact Mem.read_write_other h b (by omega)

/-- Bytes read as what was put there. -/
theorem Mem.read_writeBytes_same {m : Mem} (h : m.wf = true) (a : Nat) (bs : List Byte) {i : Nat} (hi : i < bs.length) :
    (m.writeBytes a bs).read (a + i) = bs[i] := by
  induction bs generalizing m a i with
  | nil => simp at hi
  | cons b rest ih =>
    rw [Mem.writeBytes]
    cases i with
    | zero =>
      rw [Mem.read_writeBytes_other (Mem.wf_write h a b) (a + 1) rest (by omega)]
      exact Mem.read_write_same h a b
    | succ j =>
      have := ih (Mem.wf_write h a b) (a + 1) (i := j) (by simpa using hi)
      rw [show a + (j + 1) = a + 1 + j by omega, this]
      rfl

/-- The low bytes of a number are as many as asked for. -/
@[simp] theorem length_bytesOfNat (n x : Nat) : (bytesOfNat n x).length = n := by
  induction n generalizing x with
  | zero => rfl
  | succ n ih => simp [bytesOfNat, ih]

/-- A number comes back from its bytes. -/
theorem natOfBytes_bytesOfNat (n x : Nat) : natOfBytes (bytesOfNat n x) = x % 2 ^ (8 * n) := by
  induction n generalizing x with
  | zero => simp [bytesOfNat, natOfBytes, Nat.mod_one]
  | succ n ih =>
    simp only [bytesOfNat, natOfBytes, ih, BitVec.toNat_ofNat]
    rw [show 8 * (n + 1) = 8 + 8 * n by ring, pow_add, Nat.mod_mul]; rfl

/-- Reading leaves off where it is asked to. -/
@[simp] theorem Mem.length_readBytes (m : Mem) (a n : Nat) : (m.readBytes a n).length = n := by
  induction n generalizing a with
  | zero => rfl
  | succ n ih => simp [Mem.readBytes, ih]

end Sys2Proof.Machine
end

