-- ==== Sys2Proof/Laws/State.lean ====
section
/-! SUPPORT. One lemma for each field and each update of a strand or of the device: what the update leaves, and what it sets. -/

namespace Sys2Proof.Machine

/-! `Strand.setReg` -/

@[simp] theorem Strand.setReg_place (t : Strand) (r : Reg) (v : Word) :
    (t.setReg r v).place = t.place := by unfold Strand.setReg; split <;> rfl
@[simp] theorem Strand.setReg_life (t : Strand) (r : Reg) (v : Word) :
    (t.setReg r v).life = t.life := by unfold Strand.setReg; split <;> rfl
@[simp] theorem Strand.setReg_pc (t : Strand) (r : Reg) (v : Word) :
    (t.setReg r v).pc = t.pc := by unfold Strand.setReg; split <;> rfl
@[simp] theorem Strand.setReg_pfx (t : Strand) (r : Reg) (v : Word) :
    (t.setReg r v).pfx = t.pfx := by unfold Strand.setReg; split <;> rfl
@[simp] theorem Strand.setReg_ended (t : Strand) (r : Reg) (v : Word) :
    (t.setReg r v).ended = t.ended := by unfold Strand.setReg; split <;> rfl
@[simp] theorem Strand.setReg_hold (t : Strand) (r : Reg) (v : Word) :
    (t.setReg r v).hold = t.hold := by unfold Strand.setReg; split <;> rfl
@[simp] theorem Strand.setReg_broken (t : Strand) (r : Reg) (v : Word) :
    (t.setReg r v).broken = t.broken := by unfold Strand.setReg; split <;> rfl
@[simp] theorem Strand.setReg_pend (t : Strand) (r : Reg) (v : Word) :
    (t.setReg r v).pend = t.pend := by unfold Strand.setReg; split <;> rfl
@[simp] theorem Strand.setReg_stalled (t : Strand) (r : Reg) (v : Word) :
    (t.setReg r v).stalled = t.stalled := by unfold Strand.setReg; split <;> rfl
@[simp] theorem Strand.setReg_waiting (t : Strand) (r : Reg) (v : Word) :
    (t.setReg r v).waiting = t.waiting := by unfold Strand.setReg; split <;> rfl
@[simp] theorem Strand.setReg_steered (t : Strand) (r : Reg) (v : Word) :
    (t.setReg r v).steered = t.steered := by unfold Strand.setReg; split <;> rfl
@[simp] theorem Strand.setReg_csr (t : Strand) (r : Reg) (v : Word) :
    (t.setReg r v).csr = t.csr := by unfold Strand.setReg; split <;> rfl
@[simp] theorem Strand.setReg_vec (t : Strand) (r : Reg) (v : Word) :
    (t.setReg r v).vec = t.vec := by unfold Strand.setReg; split <;> rfl
@[simp] theorem Strand.setReg_mat (t : Strand) (r : Reg) (v : Word) :
    (t.setReg r v).mat = t.mat := by unfold Strand.setReg; split <;> rfl
@[simp] theorem Strand.setReg_attn (t : Strand) (r : Reg) (v : Word) :
    (t.setReg r v).attn = t.attn := by unfold Strand.setReg; split <;> rfl
@[simp] theorem Strand.setReg_queues (t : Strand) (r : Reg) (v : Word) :
    (t.setReg r v).queues = t.queues := by unfold Strand.setReg; split <;> rfl
@[simp] theorem Strand.setReg_loopLeft (t : Strand) (r : Reg) (v : Word) :
    (t.setReg r v).loopLeft = t.loopLeft := by unfold Strand.setReg; split <;> rfl
@[simp] theorem Strand.setReg_engHeld (t : Strand) (r : Reg) (v : Word) :
    (t.setReg r v).engHeld = t.engHeld := by unfold Strand.setReg; split <;> rfl
@[simp] theorem Strand.setReg_lag (t : Strand) (r : Reg) (v : Word) :
    (t.setReg r v).lag = t.lag := by unfold Strand.setReg; split <;> rfl
@[simp] theorem Strand.setReg_work (t : Strand) (r : Reg) (v : Word) :
    (t.setReg r v).work = t.work := by unfold Strand.setReg; split <;> rfl
@[simp] theorem Strand.setReg_descs (t : Strand) (r : Reg) (v : Word) :
    (t.setReg r v).descs = t.descs := by unfold Strand.setReg; split <;> rfl
@[simp] theorem Strand.setReg_streams (t : Strand) (r : Reg) (v : Word) :
    (t.setReg r v).streams = t.streams := by unfold Strand.setReg; split <;> rfl
@[simp] theorem Strand.setReg_rings (t : Strand) (r : Reg) (v : Word) :
    (t.setReg r v).rings = t.rings := by unfold Strand.setReg; split <;> rfl
@[simp] theorem Strand.setReg_bars (t : Strand) (r : Reg) (v : Word) :
    (t.setReg r v).bars = t.bars := by unfold Strand.setReg; split <;> rfl
@[simp] theorem Strand.setReg_spad (t : Strand) (r : Reg) (v : Word) :
    (t.setReg r v).spad = t.spad := by unfold Strand.setReg; split <;> rfl
@[simp] theorem Strand.setReg_spadUnits (t : Strand) (r : Reg) (v : Word) :
    (t.setReg r v).spadUnits = t.spadUnits := by unfold Strand.setReg; split <;> rfl
@[simp] theorem Strand.setReg_stores (t : Strand) (r : Reg) (v : Word) :
    (t.setReg r v).stores = t.stores := by unfold Strand.setReg; split <;> rfl
@[simp] theorem Strand.setReg_barred (t : Strand) (r : Reg) (v : Word) :
    (t.setReg r v).barred = t.barred := by unfold Strand.setReg; split <;> rfl
@[simp] theorem Strand.setReg_pageWaits (t : Strand) (r : Reg) (v : Word) :
    (t.setReg r v).pageWaits = t.pageWaits := by unfold Strand.setReg; split <;> rfl
@[simp] theorem Strand.setReg_pageAnswers (t : Strand) (r : Reg) (v : Word) :
    (t.setReg r v).pageAnswers = t.pageAnswers := by unfold Strand.setReg; split <;> rfl
@[simp] theorem Strand.setReg_stall (t : Strand) (r : Reg) (v : Word) :
    (t.setReg r v).stall = t.stall := by unfold Strand.setReg; split <;> rfl
@[simp] theorem Strand.setReg_turn (t : Strand) (r : Reg) (v : Word) :
    (t.setReg r v).turn = t.turn := by unfold Strand.setReg; split <;> rfl

/-! `Strand.advance` -/

@[simp] theorem Strand.advance_place (t : Strand) (n : Word) : (t.advance n).place = t.place := rfl
@[simp] theorem Strand.advance_life (t : Strand) (n : Word) : (t.advance n).life = t.life := rfl
@[simp] theorem Strand.advance_regs (t : Strand) (n : Word) : (t.advance n).regs = t.regs := rfl
@[simp] theorem Strand.advance_ended (t : Strand) (n : Word) : (t.advance n).ended = t.ended := rfl
@[simp] theorem Strand.advance_hold (t : Strand) (n : Word) : (t.advance n).hold = t.hold := rfl
@[simp] theorem Strand.advance_broken (t : Strand) (n : Word) : (t.advance n).broken = t.broken := rfl
@[simp] theorem Strand.advance_pend (t : Strand) (n : Word) : (t.advance n).pend = t.pend := rfl
@[simp] theorem Strand.advance_csr (t : Strand) (n : Word) : (t.advance n).csr = t.csr := rfl
@[simp] theorem Strand.advance_vec (t : Strand) (n : Word) : (t.advance n).vec = t.vec := rfl
@[simp] theorem Strand.advance_mat (t : Strand) (n : Word) : (t.advance n).mat = t.mat := rfl
@[simp] theorem Strand.advance_attn (t : Strand) (n : Word) : (t.advance n).attn = t.attn := rfl
@[simp] theorem Strand.advance_queues (t : Strand) (n : Word) : (t.advance n).queues = t.queues := rfl
@[simp] theorem Strand.advance_loopLeft (t : Strand) (n : Word) : (t.advance n).loopLeft = t.loopLeft := rfl
@[simp] theorem Strand.advance_engHeld (t : Strand) (n : Word) : (t.advance n).engHeld = t.engHeld := rfl
@[simp] theorem Strand.advance_lag (t : Strand) (n : Word) : (t.advance n).lag = t.lag := rfl
@[simp] theorem Strand.advance_work (t : Strand) (n : Word) : (t.advance n).work = t.work := rfl
@[simp] theorem Strand.advance_descs (t : Strand) (n : Word) : (t.advance n).descs = t.descs := rfl
@[simp] theorem Strand.advance_streams (t : Strand) (n : Word) : (t.advance n).streams = t.streams := rfl
@[simp] theorem Strand.advance_rings (t : Strand) (n : Word) : (t.advance n).rings = t.rings := rfl
@[simp] theorem Strand.advance_bars (t : Strand) (n : Word) : (t.advance n).bars = t.bars := rfl
@[simp] theorem Strand.advance_spad (t : Strand) (n : Word) : (t.advance n).spad = t.spad := rfl
@[simp] theorem Strand.advance_spadUnits (t : Strand) (n : Word) : (t.advance n).spadUnits = t.spadUnits := rfl
@[simp] theorem Strand.advance_stores (t : Strand) (n : Word) : (t.advance n).stores = t.stores := rfl
@[simp] theorem Strand.advance_barred (t : Strand) (n : Word) : (t.advance n).barred = t.barred := rfl
@[simp] theorem Strand.advance_pageWaits (t : Strand) (n : Word) : (t.advance n).pageWaits = t.pageWaits := rfl
@[simp] theorem Strand.advance_pageAnswers (t : Strand) (n : Word) : (t.advance n).pageAnswers = t.pageAnswers := rfl
@[simp] theorem Strand.advance_stall (t : Strand) (n : Word) : (t.advance n).stall = t.stall := rfl
@[simp] theorem Strand.advance_turn (t : Strand) (n : Word) : (t.advance n).turn = t.turn := rfl

/-! `Strand.setQueue` -/

@[simp] theorem Strand.setQueue_place (t : Strand) (e : Nat) (q : List Entry) : (t.setQueue e q).place = t.place := rfl
@[simp] theorem Strand.setQueue_life (t : Strand) (e : Nat) (q : List Entry) : (t.setQueue e q).life = t.life := rfl
@[simp] theorem Strand.setQueue_regs (t : Strand) (e : Nat) (q : List Entry) : (t.setQueue e q).regs = t.regs := rfl
@[simp] theorem Strand.setQueue_pc (t : Strand) (e : Nat) (q : List Entry) : (t.setQueue e q).pc = t.pc := rfl
@[simp] theorem Strand.setQueue_pfx (t : Strand) (e : Nat) (q : List Entry) : (t.setQueue e q).pfx = t.pfx := rfl
@[simp] theorem Strand.setQueue_ended (t : Strand) (e : Nat) (q : List Entry) : (t.setQueue e q).ended = t.ended := rfl
@[simp] theorem Strand.setQueue_hold (t : Strand) (e : Nat) (q : List Entry) : (t.setQueue e q).hold = t.hold := rfl
@[simp] theorem Strand.setQueue_broken (t : Strand) (e : Nat) (q : List Entry) : (t.setQueue e q).broken = t.broken := rfl
@[simp] theorem Strand.setQueue_pend (t : Strand) (e : Nat) (q : List Entry) : (t.setQueue e q).pend = t.pend := rfl
@[simp] theorem Strand.setQueue_stalled (t : Strand) (e : Nat) (q : List Entry) : (t.setQueue e q).stalled = t.stalled := rfl
@[simp] theorem Strand.setQueue_waiting (t : Strand) (e : Nat) (q : List Entry) : (t.setQueue e q).waiting = t.waiting := rfl
@[simp] theorem Strand.setQueue_steered (t : Strand) (e : Nat) (q : List Entry) : (t.setQueue e q).steered = t.steered := rfl
@[simp] theorem Strand.setQueue_csr (t : Strand) (e : Nat) (q : List Entry) : (t.setQueue e q).csr = t.csr := rfl
@[simp] theorem Strand.setQueue_vec (t : Strand) (e : Nat) (q : List Entry) : (t.setQueue e q).vec = t.vec := rfl
@[simp] theorem Strand.setQueue_mat (t : Strand) (e : Nat) (q : List Entry) : (t.setQueue e q).mat = t.mat := rfl
@[simp] theorem Strand.setQueue_attn (t : Strand) (e : Nat) (q : List Entry) : (t.setQueue e q).attn = t.attn := rfl
@[simp] theorem Strand.setQueue_loopLeft (t : Strand) (e : Nat) (q : List Entry) :
    (t.setQueue e q).loopLeft = t.loopLeft := rfl
@[simp] theorem Strand.setQueue_engHeld (t : Strand) (e : Nat) (q : List Entry) : (t.setQueue e q).engHeld = t.engHeld := rfl
@[simp] theorem Strand.setQueue_lag (t : Strand) (e : Nat) (q : List Entry) : (t.setQueue e q).lag = t.lag := rfl
@[simp] theorem Strand.setQueue_work (t : Strand) (e : Nat) (q : List Entry) : (t.setQueue e q).work = t.work := rfl
@[simp] theorem Strand.setQueue_descs (t : Strand) (e : Nat) (q : List Entry) : (t.setQueue e q).descs = t.descs := rfl
@[simp] theorem Strand.setQueue_streams (t : Strand) (e : Nat) (q : List Entry) : (t.setQueue e q).streams = t.streams := rfl
@[simp] theorem Strand.setQueue_rings (t : Strand) (e : Nat) (q : List Entry) : (t.setQueue e q).rings = t.rings := rfl
@[simp] theorem Strand.setQueue_bars (t : Strand) (e : Nat) (q : List Entry) : (t.setQueue e q).bars = t.bars := rfl
@[simp] theorem Strand.setQueue_spad (t : Strand) (e : Nat) (q : List Entry) : (t.setQueue e q).spad = t.spad := rfl
@[simp] theorem Strand.setQueue_spadUnits (t : Strand) (e : Nat) (q : List Entry) :
    (t.setQueue e q).spadUnits = t.spadUnits := rfl
@[simp] theorem Strand.setQueue_stores (t : Strand) (e : Nat) (q : List Entry) : (t.setQueue e q).stores = t.stores := rfl
@[simp] theorem Strand.setQueue_barred (t : Strand) (e : Nat) (q : List Entry) : (t.setQueue e q).barred = t.barred := rfl
@[simp] theorem Strand.setQueue_pageWaits (t : Strand) (e : Nat) (q : List Entry) :
    (t.setQueue e q).pageWaits = t.pageWaits := rfl
@[simp] theorem Strand.setQueue_pageAnswers (t : Strand) (e : Nat) (q : List Entry) :
    (t.setQueue e q).pageAnswers = t.pageAnswers := rfl
@[simp] theorem Strand.setQueue_stall (t : Strand) (e : Nat) (q : List Entry) : (t.setQueue e q).stall = t.stall := rfl
@[simp] theorem Strand.setQueue_turn (t : Strand) (e : Nat) (q : List Entry) : (t.setQueue e q).turn = t.turn := rfl

/-! `Strand.setEntry` -/

@[simp] theorem Strand.setEntry_place (t : Strand) (e k : Nat) (x : Entry) : (t.setEntry e k x).place = t.place := rfl
@[simp] theorem Strand.setEntry_life (t : Strand) (e k : Nat) (x : Entry) : (t.setEntry e k x).life = t.life := rfl
@[simp] theorem Strand.setEntry_regs (t : Strand) (e k : Nat) (x : Entry) : (t.setEntry e k x).regs = t.regs := rfl
@[simp] theorem Strand.setEntry_pc (t : Strand) (e k : Nat) (x : Entry) : (t.setEntry e k x).pc = t.pc := rfl
@[simp] theorem Strand.setEntry_pfx (t : Strand) (e k : Nat) (x : Entry) : (t.setEntry e k x).pfx = t.pfx := rfl
@[simp] theorem Strand.setEntry_ended (t : Strand) (e k : Nat) (x : Entry) : (t.setEntry e k x).ended = t.ended := rfl
@[simp] theorem Strand.setEntry_hold (t : Strand) (e k : Nat) (x : Entry) : (t.setEntry e k x).hold = t.hold := rfl
@[simp] theorem Strand.setEntry_broken (t : Strand) (e k : Nat) (x : Entry) : (t.setEntry e k x).broken = t.broken := rfl
@[simp] theorem Strand.setEntry_pend (t : Strand) (e k : Nat) (x : Entry) : (t.setEntry e k x).pend = t.pend := rfl
@[simp] theorem Strand.setEntry_stalled (t : Strand) (e k : Nat) (x : Entry) : (t.setEntry e k x).stalled = t.stalled := rfl
@[simp] theorem Strand.setEntry_waiting (t : Strand) (e k : Nat) (x : Entry) : (t.setEntry e k x).waiting = t.waiting := rfl
@[simp] theorem Strand.setEntry_steered (t : Strand) (e k : Nat) (x : Entry) : (t.setEntry e k x).steered = t.steered := rfl
@[simp] theorem Strand.setEntry_csr (t : Strand) (e k : Nat) (x : Entry) : (t.setEntry e k x).csr = t.csr := rfl
@[simp] theorem Strand.setEntry_vec (t : Strand) (e k : Nat) (x : Entry) : (t.setEntry e k x).vec = t.vec := rfl
@[simp] theorem Strand.setEntry_mat (t : Strand) (e k : Nat) (x : Entry) : (t.setEntry e k x).mat = t.mat := rfl
@[simp] theorem Strand.setEntry_attn (t : Strand) (e k : Nat) (x : Entry) : (t.setEntry e k x).attn = t.attn := rfl
@[simp] theorem Strand.setEntry_loopLeft (t : Strand) (e k : Nat) (x : Entry) : (t.setEntry e k x).loopLeft = t.loopLeft := rfl
@[simp] theorem Strand.setEntry_engHeld (t : Strand) (e k : Nat) (x : Entry) : (t.setEntry e k x).engHeld = t.engHeld := rfl
@[simp] theorem Strand.setEntry_lag (t : Strand) (e k : Nat) (x : Entry) : (t.setEntry e k x).lag = t.lag := rfl
@[simp] theorem Strand.setEntry_work (t : Strand) (e k : Nat) (x : Entry) : (t.setEntry e k x).work = t.work := rfl
@[simp] theorem Strand.setEntry_descs (t : Strand) (e k : Nat) (x : Entry) : (t.setEntry e k x).descs = t.descs := rfl
@[simp] theorem Strand.setEntry_streams (t : Strand) (e k : Nat) (x : Entry) : (t.setEntry e k x).streams = t.streams := rfl
@[simp] theorem Strand.setEntry_rings (t : Strand) (e k : Nat) (x : Entry) : (t.setEntry e k x).rings = t.rings := rfl
@[simp] theorem Strand.setEntry_bars (t : Strand) (e k : Nat) (x : Entry) : (t.setEntry e k x).bars = t.bars := rfl
@[simp] theorem Strand.setEntry_spad (t : Strand) (e k : Nat) (x : Entry) : (t.setEntry e k x).spad = t.spad := rfl
@[simp] theorem Strand.setEntry_spadUnits (t : Strand) (e k : Nat) (x : Entry) :
    (t.setEntry e k x).spadUnits = t.spadUnits := rfl
@[simp] theorem Strand.setEntry_stores (t : Strand) (e k : Nat) (x : Entry) : (t.setEntry e k x).stores = t.stores := rfl
@[simp] theorem Strand.setEntry_barred (t : Strand) (e k : Nat) (x : Entry) : (t.setEntry e k x).barred = t.barred := rfl
@[simp] theorem Strand.setEntry_pageWaits (t : Strand) (e k : Nat) (x : Entry) :
    (t.setEntry e k x).pageWaits = t.pageWaits := rfl
@[simp] theorem Strand.setEntry_pageAnswers (t : Strand) (e k : Nat) (x : Entry) :
    (t.setEntry e k x).pageAnswers = t.pageAnswers := rfl
@[simp] theorem Strand.setEntry_stall (t : Strand) (e k : Nat) (x : Entry) : (t.setEntry e k x).stall = t.stall := rfl
@[simp] theorem Strand.setEntry_turn (t : Strand) (e k : Nat) (x : Entry) : (t.setEntry e k x).turn = t.turn := rfl

/-! `Strand.dropEntries` -/

@[simp] theorem Strand.dropEntries_place (t : Strand) (e k n : Nat) : (t.dropEntries e k n).place = t.place := rfl
@[simp] theorem Strand.dropEntries_life (t : Strand) (e k n : Nat) : (t.dropEntries e k n).life = t.life := rfl
@[simp] theorem Strand.dropEntries_regs (t : Strand) (e k n : Nat) : (t.dropEntries e k n).regs = t.regs := rfl
@[simp] theorem Strand.dropEntries_pc (t : Strand) (e k n : Nat) : (t.dropEntries e k n).pc = t.pc := rfl
@[simp] theorem Strand.dropEntries_pfx (t : Strand) (e k n : Nat) : (t.dropEntries e k n).pfx = t.pfx := rfl
@[simp] theorem Strand.dropEntries_ended (t : Strand) (e k n : Nat) : (t.dropEntries e k n).ended = t.ended := rfl
@[simp] theorem Strand.dropEntries_hold (t : Strand) (e k n : Nat) : (t.dropEntries e k n).hold = t.hold := rfl
@[simp] theorem Strand.dropEntries_broken (t : Strand) (e k n : Nat) : (t.dropEntries e k n).broken = t.broken := rfl
@[simp] theorem Strand.dropEntries_pend (t : Strand) (e k n : Nat) : (t.dropEntries e k n).pend = t.pend := rfl
@[simp] theorem Strand.dropEntries_stalled (t : Strand) (e k n : Nat) : (t.dropEntries e k n).stalled = t.stalled := rfl
@[simp] theorem Strand.dropEntries_waiting (t : Strand) (e k n : Nat) : (t.dropEntries e k n).waiting = t.waiting := rfl
@[simp] theorem Strand.dropEntries_steered (t : Strand) (e k n : Nat) : (t.dropEntries e k n).steered = t.steered := rfl
@[simp] theorem Strand.dropEntries_csr (t : Strand) (e k n : Nat) : (t.dropEntries e k n).csr = t.csr := rfl
@[simp] theorem Strand.dropEntries_vec (t : Strand) (e k n : Nat) : (t.dropEntries e k n).vec = t.vec := rfl
@[simp] theorem Strand.dropEntries_mat (t : Strand) (e k n : Nat) : (t.dropEntries e k n).mat = t.mat := rfl
@[simp] theorem Strand.dropEntries_attn (t : Strand) (e k n : Nat) : (t.dropEntries e k n).attn = t.attn := rfl
@[simp] theorem Strand.dropEntries_loopLeft (t : Strand) (e k n : Nat) : (t.dropEntries e k n).loopLeft = t.loopLeft := rfl
@[simp] theorem Strand.dropEntries_engHeld (t : Strand) (e k n : Nat) : (t.dropEntries e k n).engHeld = t.engHeld := rfl
@[simp] theorem Strand.dropEntries_lag (t : Strand) (e k n : Nat) : (t.dropEntries e k n).lag = t.lag := rfl
@[simp] theorem Strand.dropEntries_work (t : Strand) (e k n : Nat) : (t.dropEntries e k n).work = t.work := rfl
@[simp] theorem Strand.dropEntries_descs (t : Strand) (e k n : Nat) : (t.dropEntries e k n).descs = t.descs := rfl
@[simp] theorem Strand.dropEntries_streams (t : Strand) (e k n : Nat) : (t.dropEntries e k n).streams = t.streams := rfl
@[simp] theorem Strand.dropEntries_rings (t : Strand) (e k n : Nat) : (t.dropEntries e k n).rings = t.rings := rfl
@[simp] theorem Strand.dropEntries_bars (t : Strand) (e k n : Nat) : (t.dropEntries e k n).bars = t.bars := rfl
@[simp] theorem Strand.dropEntries_spad (t : Strand) (e k n : Nat) : (t.dropEntries e k n).spad = t.spad := rfl
@[simp] theorem Strand.dropEntries_spadUnits (t : Strand) (e k n : Nat) : (t.dropEntries e k n).spadUnits = t.spadUnits := rfl
@[simp] theorem Strand.dropEntries_stores (t : Strand) (e k n : Nat) : (t.dropEntries e k n).stores = t.stores := rfl
@[simp] theorem Strand.dropEntries_barred (t : Strand) (e k n : Nat) : (t.dropEntries e k n).barred = t.barred := rfl
@[simp] theorem Strand.dropEntries_pageWaits (t : Strand) (e k n : Nat) : (t.dropEntries e k n).pageWaits = t.pageWaits := rfl
@[simp] theorem Strand.dropEntries_pageAnswers (t : Strand) (e k n : Nat) :
    (t.dropEntries e k n).pageAnswers = t.pageAnswers := rfl
@[simp] theorem Strand.dropEntries_stall (t : Strand) (e k n : Nat) : (t.dropEntries e k n).stall = t.stall := rfl
@[simp] theorem Strand.dropEntries_turn (t : Strand) (e k n : Nat) : (t.dropEntries e k n).turn = t.turn := rfl

/-! `Strand.setV` -/

@[simp] theorem Strand.setV_place (t : Strand) (r : Reg) (v : VReg) : (t.setV r v).place = t.place := rfl
@[simp] theorem Strand.setV_life (t : Strand) (r : Reg) (v : VReg) : (t.setV r v).life = t.life := rfl
@[simp] theorem Strand.setV_regs (t : Strand) (r : Reg) (v : VReg) : (t.setV r v).regs = t.regs := rfl
@[simp] theorem Strand.setV_pc (t : Strand) (r : Reg) (v : VReg) : (t.setV r v).pc = t.pc := rfl
@[simp] theorem Strand.setV_pfx (t : Strand) (r : Reg) (v : VReg) : (t.setV r v).pfx = t.pfx := rfl
@[simp] theorem Strand.setV_ended (t : Strand) (r : Reg) (v : VReg) : (t.setV r v).ended = t.ended := rfl
@[simp] theorem Strand.setV_hold (t : Strand) (r : Reg) (v : VReg) : (t.setV r v).hold = t.hold := rfl
@[simp] theorem Strand.setV_broken (t : Strand) (r : Reg) (v : VReg) : (t.setV r v).broken = t.broken := rfl
@[simp] theorem Strand.setV_pend (t : Strand) (r : Reg) (v : VReg) : (t.setV r v).pend = t.pend := rfl
@[simp] theorem Strand.setV_stalled (t : Strand) (r : Reg) (v : VReg) : (t.setV r v).stalled = t.stalled := rfl
@[simp] theorem Strand.setV_waiting (t : Strand) (r : Reg) (v : VReg) : (t.setV r v).waiting = t.waiting := rfl
@[simp] theorem Strand.setV_steered (t : Strand) (r : Reg) (v : VReg) : (t.setV r v).steered = t.steered := rfl
@[simp] theorem Strand.setV_csr (t : Strand) (r : Reg) (v : VReg) : (t.setV r v).csr = t.csr := rfl
@[simp] theorem Strand.setV_mat (t : Strand) (r : Reg) (v : VReg) : (t.setV r v).mat = t.mat := rfl
@[simp] theorem Strand.setV_attn (t : Strand) (r : Reg) (v : VReg) : (t.setV r v).attn = t.attn := rfl
@[simp] theorem Strand.setV_queues (t : Strand) (r : Reg) (v : VReg) : (t.setV r v).queues = t.queues := rfl
@[simp] theorem Strand.setV_loopLeft (t : Strand) (r : Reg) (v : VReg) : (t.setV r v).loopLeft = t.loopLeft := rfl
@[simp] theorem Strand.setV_engHeld (t : Strand) (r : Reg) (v : VReg) : (t.setV r v).engHeld = t.engHeld := rfl
@[simp] theorem Strand.setV_lag (t : Strand) (r : Reg) (v : VReg) : (t.setV r v).lag = t.lag := rfl
@[simp] theorem Strand.setV_work (t : Strand) (r : Reg) (v : VReg) : (t.setV r v).work = t.work := rfl
@[simp] theorem Strand.setV_descs (t : Strand) (r : Reg) (v : VReg) : (t.setV r v).descs = t.descs := rfl
@[simp] theorem Strand.setV_streams (t : Strand) (r : Reg) (v : VReg) : (t.setV r v).streams = t.streams := rfl
@[simp] theorem Strand.setV_rings (t : Strand) (r : Reg) (v : VReg) : (t.setV r v).rings = t.rings := rfl
@[simp] theorem Strand.setV_bars (t : Strand) (r : Reg) (v : VReg) : (t.setV r v).bars = t.bars := rfl
@[simp] theorem Strand.setV_spad (t : Strand) (r : Reg) (v : VReg) : (t.setV r v).spad = t.spad := rfl
@[simp] theorem Strand.setV_spadUnits (t : Strand) (r : Reg) (v : VReg) : (t.setV r v).spadUnits = t.spadUnits := rfl
@[simp] theorem Strand.setV_stores (t : Strand) (r : Reg) (v : VReg) : (t.setV r v).stores = t.stores := rfl
@[simp] theorem Strand.setV_barred (t : Strand) (r : Reg) (v : VReg) : (t.setV r v).barred = t.barred := rfl
@[simp] theorem Strand.setV_pageWaits (t : Strand) (r : Reg) (v : VReg) : (t.setV r v).pageWaits = t.pageWaits := rfl
@[simp] theorem Strand.setV_pageAnswers (t : Strand) (r : Reg) (v : VReg) : (t.setV r v).pageAnswers = t.pageAnswers := rfl
@[simp] theorem Strand.setV_stall (t : Strand) (r : Reg) (v : VReg) : (t.setV r v).stall = t.stall := rfl
@[simp] theorem Strand.setV_turn (t : Strand) (r : Reg) (v : VReg) : (t.setV r v).turn = t.turn := rfl

/-! `Strand.setElem` -/

@[simp] theorem Strand.setElem_place (t : Strand) (r : Reg) (e : Nat) (v : Elem) : (t.setElem r e v).place = t.place := rfl
@[simp] theorem Strand.setElem_life (t : Strand) (r : Reg) (e : Nat) (v : Elem) : (t.setElem r e v).life = t.life := rfl
@[simp] theorem Strand.setElem_regs (t : Strand) (r : Reg) (e : Nat) (v : Elem) : (t.setElem r e v).regs = t.regs := rfl
@[simp] theorem Strand.setElem_pc (t : Strand) (r : Reg) (e : Nat) (v : Elem) : (t.setElem r e v).pc = t.pc := rfl
@[simp] theorem Strand.setElem_pfx (t : Strand) (r : Reg) (e : Nat) (v : Elem) : (t.setElem r e v).pfx = t.pfx := rfl
@[simp] theorem Strand.setElem_ended (t : Strand) (r : Reg) (e : Nat) (v : Elem) : (t.setElem r e v).ended = t.ended := rfl
@[simp] theorem Strand.setElem_hold (t : Strand) (r : Reg) (e : Nat) (v : Elem) : (t.setElem r e v).hold = t.hold := rfl
@[simp] theorem Strand.setElem_broken (t : Strand) (r : Reg) (e : Nat) (v : Elem) : (t.setElem r e v).broken = t.broken := rfl
@[simp] theorem Strand.setElem_pend (t : Strand) (r : Reg) (e : Nat) (v : Elem) : (t.setElem r e v).pend = t.pend := rfl
@[simp] theorem Strand.setElem_stalled (t : Strand) (r : Reg) (e : Nat) (v : Elem) :
    (t.setElem r e v).stalled = t.stalled := rfl
@[simp] theorem Strand.setElem_waiting (t : Strand) (r : Reg) (e : Nat) (v : Elem) :
    (t.setElem r e v).waiting = t.waiting := rfl
@[simp] theorem Strand.setElem_steered (t : Strand) (r : Reg) (e : Nat) (v : Elem) :
    (t.setElem r e v).steered = t.steered := rfl
@[simp] theorem Strand.setElem_csr (t : Strand) (r : Reg) (e : Nat) (v : Elem) : (t.setElem r e v).csr = t.csr := rfl
@[simp] theorem Strand.setElem_mat (t : Strand) (r : Reg) (e : Nat) (v : Elem) : (t.setElem r e v).mat = t.mat := rfl
@[simp] theorem Strand.setElem_attn (t : Strand) (r : Reg) (e : Nat) (v : Elem) : (t.setElem r e v).attn = t.attn := rfl
@[simp] theorem Strand.setElem_queues (t : Strand) (r : Reg) (e : Nat) (v : Elem) : (t.setElem r e v).queues = t.queues := rfl
@[simp] theorem Strand.setElem_loopLeft (t : Strand) (r : Reg) (e : Nat) (v : Elem) :
    (t.setElem r e v).loopLeft = t.loopLeft := rfl
@[simp] theorem Strand.setElem_engHeld (t : Strand) (r : Reg) (e : Nat) (v : Elem) :
    (t.setElem r e v).engHeld = t.engHeld := rfl
@[simp] theorem Strand.setElem_lag (t : Strand) (r : Reg) (e : Nat) (v : Elem) : (t.setElem r e v).lag = t.lag := rfl
@[simp] theorem Strand.setElem_work (t : Strand) (r : Reg) (e : Nat) (v : Elem) : (t.setElem r e v).work = t.work := rfl
@[simp] theorem Strand.setElem_descs (t : Strand) (r : Reg) (e : Nat) (v : Elem) : (t.setElem r e v).descs = t.descs := rfl
@[simp] theorem Strand.setElem_streams (t : Strand) (r : Reg) (e : Nat) (v : Elem) :
    (t.setElem r e v).streams = t.streams := rfl
@[simp] theorem Strand.setElem_rings (t : Strand) (r : Reg) (e : Nat) (v : Elem) : (t.setElem r e v).rings = t.rings := rfl
@[simp] theorem Strand.setElem_bars (t : Strand) (r : Reg) (e : Nat) (v : Elem) : (t.setElem r e v).bars = t.bars := rfl
@[simp] theorem Strand.setElem_spad (t : Strand) (r : Reg) (e : Nat) (v : Elem) : (t.setElem r e v).spad = t.spad := rfl
@[simp] theorem Strand.setElem_spadUnits (t : Strand) (r : Reg) (e : Nat) (v : Elem) :
    (t.setElem r e v).spadUnits = t.spadUnits := rfl
@[simp] theorem Strand.setElem_stores (t : Strand) (r : Reg) (e : Nat) (v : Elem) : (t.setElem r e v).stores = t.stores := rfl
@[simp] theorem Strand.setElem_barred (t : Strand) (r : Reg) (e : Nat) (v : Elem) : (t.setElem r e v).barred = t.barred := rfl
@[simp] theorem Strand.setElem_pageWaits (t : Strand) (r : Reg) (e : Nat) (v : Elem) :
    (t.setElem r e v).pageWaits = t.pageWaits := rfl
@[simp] theorem Strand.setElem_pageAnswers (t : Strand) (r : Reg) (e : Nat) (v : Elem) :
    (t.setElem r e v).pageAnswers = t.pageAnswers := rfl
@[simp] theorem Strand.setElem_stall (t : Strand) (r : Reg) (e : Nat) (v : Elem) : (t.setElem r e v).stall = t.stall := rfl
@[simp] theorem Strand.setElem_turn (t : Strand) (r : Reg) (e : Nat) (v : Elem) : (t.setElem r e v).turn = t.turn := rfl

/-! `Strand.setP` -/

@[simp] theorem Strand.setP_place (t : Strand) (r : Reg) (v : BitVec 1024) : (t.setP r v).place = t.place := rfl
@[simp] theorem Strand.setP_life (t : Strand) (r : Reg) (v : BitVec 1024) : (t.setP r v).life = t.life := rfl
@[simp] theorem Strand.setP_regs (t : Strand) (r : Reg) (v : BitVec 1024) : (t.setP r v).regs = t.regs := rfl
@[simp] theorem Strand.setP_pc (t : Strand) (r : Reg) (v : BitVec 1024) : (t.setP r v).pc = t.pc := rfl
@[simp] theorem Strand.setP_pfx (t : Strand) (r : Reg) (v : BitVec 1024) : (t.setP r v).pfx = t.pfx := rfl
@[simp] theorem Strand.setP_ended (t : Strand) (r : Reg) (v : BitVec 1024) : (t.setP r v).ended = t.ended := rfl
@[simp] theorem Strand.setP_hold (t : Strand) (r : Reg) (v : BitVec 1024) : (t.setP r v).hold = t.hold := rfl
@[simp] theorem Strand.setP_broken (t : Strand) (r : Reg) (v : BitVec 1024) : (t.setP r v).broken = t.broken := rfl
@[simp] theorem Strand.setP_pend (t : Strand) (r : Reg) (v : BitVec 1024) : (t.setP r v).pend = t.pend := rfl
@[simp] theorem Strand.setP_stalled (t : Strand) (r : Reg) (v : BitVec 1024) : (t.setP r v).stalled = t.stalled := rfl
@[simp] theorem Strand.setP_waiting (t : Strand) (r : Reg) (v : BitVec 1024) : (t.setP r v).waiting = t.waiting := rfl
@[simp] theorem Strand.setP_steered (t : Strand) (r : Reg) (v : BitVec 1024) : (t.setP r v).steered = t.steered := rfl
@[simp] theorem Strand.setP_csr (t : Strand) (r : Reg) (v : BitVec 1024) : (t.setP r v).csr = t.csr := rfl
@[simp] theorem Strand.setP_mat (t : Strand) (r : Reg) (v : BitVec 1024) : (t.setP r v).mat = t.mat := rfl
@[simp] theorem Strand.setP_attn (t : Strand) (r : Reg) (v : BitVec 1024) : (t.setP r v).attn = t.attn := rfl
@[simp] theorem Strand.setP_queues (t : Strand) (r : Reg) (v : BitVec 1024) : (t.setP r v).queues = t.queues := rfl
@[simp] theorem Strand.setP_loopLeft (t : Strand) (r : Reg) (v : BitVec 1024) : (t.setP r v).loopLeft = t.loopLeft := rfl
@[simp] theorem Strand.setP_engHeld (t : Strand) (r : Reg) (v : BitVec 1024) : (t.setP r v).engHeld = t.engHeld := rfl
@[simp] theorem Strand.setP_lag (t : Strand) (r : Reg) (v : BitVec 1024) : (t.setP r v).lag = t.lag := rfl
@[simp] theorem Strand.setP_work (t : Strand) (r : Reg) (v : BitVec 1024) : (t.setP r v).work = t.work := rfl
@[simp] theorem Strand.setP_descs (t : Strand) (r : Reg) (v : BitVec 1024) : (t.setP r v).descs = t.descs := rfl
@[simp] theorem Strand.setP_streams (t : Strand) (r : Reg) (v : BitVec 1024) : (t.setP r v).streams = t.streams := rfl
@[simp] theorem Strand.setP_rings (t : Strand) (r : Reg) (v : BitVec 1024) : (t.setP r v).rings = t.rings := rfl
@[simp] theorem Strand.setP_bars (t : Strand) (r : Reg) (v : BitVec 1024) : (t.setP r v).bars = t.bars := rfl
@[simp] theorem Strand.setP_spad (t : Strand) (r : Reg) (v : BitVec 1024) : (t.setP r v).spad = t.spad := rfl
@[simp] theorem Strand.setP_spadUnits (t : Strand) (r : Reg) (v : BitVec 1024) : (t.setP r v).spadUnits = t.spadUnits := rfl
@[simp] theorem Strand.setP_stores (t : Strand) (r : Reg) (v : BitVec 1024) : (t.setP r v).stores = t.stores := rfl
@[simp] theorem Strand.setP_barred (t : Strand) (r : Reg) (v : BitVec 1024) : (t.setP r v).barred = t.barred := rfl
@[simp] theorem Strand.setP_pageWaits (t : Strand) (r : Reg) (v : BitVec 1024) : (t.setP r v).pageWaits = t.pageWaits := rfl
@[simp] theorem Strand.setP_pageAnswers (t : Strand) (r : Reg) (v : BitVec 1024) :
    (t.setP r v).pageAnswers = t.pageAnswers := rfl
@[simp] theorem Strand.setP_stall (t : Strand) (r : Reg) (v : BitVec 1024) : (t.setP r v).stall = t.stall := rfl
@[simp] theorem Strand.setP_turn (t : Strand) (r : Reg) (v : BitVec 1024) : (t.setP r v).turn = t.turn := rfl

/-! `Strand.setPBit` -/

@[simp] theorem Strand.setPBit_place (t : Strand) (r : Reg) (e : Nat) (b : Bool) : (t.setPBit r e b).place = t.place := rfl
@[simp] theorem Strand.setPBit_life (t : Strand) (r : Reg) (e : Nat) (b : Bool) : (t.setPBit r e b).life = t.life := rfl
@[simp] theorem Strand.setPBit_regs (t : Strand) (r : Reg) (e : Nat) (b : Bool) : (t.setPBit r e b).regs = t.regs := rfl
@[simp] theorem Strand.setPBit_pc (t : Strand) (r : Reg) (e : Nat) (b : Bool) : (t.setPBit r e b).pc = t.pc := rfl
@[simp] theorem Strand.setPBit_pfx (t : Strand) (r : Reg) (e : Nat) (b : Bool) : (t.setPBit r e b).pfx = t.pfx := rfl
@[simp] theorem Strand.setPBit_ended (t : Strand) (r : Reg) (e : Nat) (b : Bool) : (t.setPBit r e b).ended = t.ended := rfl
@[simp] theorem Strand.setPBit_hold (t : Strand) (r : Reg) (e : Nat) (b : Bool) : (t.setPBit r e b).hold = t.hold := rfl
@[simp] theorem Strand.setPBit_broken (t : Strand) (r : Reg) (e : Nat) (b : Bool) : (t.setPBit r e b).broken = t.broken := rfl
@[simp] theorem Strand.setPBit_pend (t : Strand) (r : Reg) (e : Nat) (b : Bool) : (t.setPBit r e b).pend = t.pend := rfl
@[simp] theorem Strand.setPBit_stalled (t : Strand) (r : Reg) (e : Nat) (b : Bool) :
    (t.setPBit r e b).stalled = t.stalled := rfl
@[simp] theorem Strand.setPBit_waiting (t : Strand) (r : Reg) (e : Nat) (b : Bool) :
    (t.setPBit r e b).waiting = t.waiting := rfl
@[simp] theorem Strand.setPBit_steered (t : Strand) (r : Reg) (e : Nat) (b : Bool) :
    (t.setPBit r e b).steered = t.steered := rfl
@[simp] theorem Strand.setPBit_csr (t : Strand) (r : Reg) (e : Nat) (b : Bool) : (t.setPBit r e b).csr = t.csr := rfl
@[simp] theorem Strand.setPBit_mat (t : Strand) (r : Reg) (e : Nat) (b : Bool) : (t.setPBit r e b).mat = t.mat := rfl
@[simp] theorem Strand.setPBit_attn (t : Strand) (r : Reg) (e : Nat) (b : Bool) : (t.setPBit r e b).attn = t.attn := rfl
@[simp] theorem Strand.setPBit_queues (t : Strand) (r : Reg) (e : Nat) (b : Bool) : (t.setPBit r e b).queues = t.queues := rfl
@[simp] theorem Strand.setPBit_loopLeft (t : Strand) (r : Reg) (e : Nat) (b : Bool) :
    (t.setPBit r e b).loopLeft = t.loopLeft := rfl
@[simp] theorem Strand.setPBit_engHeld (t : Strand) (r : Reg) (e : Nat) (b : Bool) :
    (t.setPBit r e b).engHeld = t.engHeld := rfl
@[simp] theorem Strand.setPBit_lag (t : Strand) (r : Reg) (e : Nat) (b : Bool) : (t.setPBit r e b).lag = t.lag := rfl
@[simp] theorem Strand.setPBit_work (t : Strand) (r : Reg) (e : Nat) (b : Bool) : (t.setPBit r e b).work = t.work := rfl
@[simp] theorem Strand.setPBit_descs (t : Strand) (r : Reg) (e : Nat) (b : Bool) : (t.setPBit r e b).descs = t.descs := rfl
@[simp] theorem Strand.setPBit_streams (t : Strand) (r : Reg) (e : Nat) (b : Bool) :
    (t.setPBit r e b).streams = t.streams := rfl
@[simp] theorem Strand.setPBit_rings (t : Strand) (r : Reg) (e : Nat) (b : Bool) : (t.setPBit r e b).rings = t.rings := rfl
@[simp] theorem Strand.setPBit_bars (t : Strand) (r : Reg) (e : Nat) (b : Bool) : (t.setPBit r e b).bars = t.bars := rfl
@[simp] theorem Strand.setPBit_spad (t : Strand) (r : Reg) (e : Nat) (b : Bool) : (t.setPBit r e b).spad = t.spad := rfl
@[simp] theorem Strand.setPBit_spadUnits (t : Strand) (r : Reg) (e : Nat) (b : Bool) :
    (t.setPBit r e b).spadUnits = t.spadUnits := rfl
@[simp] theorem Strand.setPBit_stores (t : Strand) (r : Reg) (e : Nat) (b : Bool) : (t.setPBit r e b).stores = t.stores := rfl
@[simp] theorem Strand.setPBit_barred (t : Strand) (r : Reg) (e : Nat) (b : Bool) : (t.setPBit r e b).barred = t.barred := rfl
@[simp] theorem Strand.setPBit_pageWaits (t : Strand) (r : Reg) (e : Nat) (b : Bool) :
    (t.setPBit r e b).pageWaits = t.pageWaits := rfl
@[simp] theorem Strand.setPBit_pageAnswers (t : Strand) (r : Reg) (e : Nat) (b : Bool) :
    (t.setPBit r e b).pageAnswers = t.pageAnswers := rfl
@[simp] theorem Strand.setPBit_stall (t : Strand) (r : Reg) (e : Nat) (b : Bool) : (t.setPBit r e b).stall = t.stall := rfl
@[simp] theorem Strand.setPBit_turn (t : Strand) (r : Reg) (e : Nat) (b : Bool) : (t.setPBit r e b).turn = t.turn := rfl

/-! `Strand.setRing` -/

@[simp] theorem Strand.setRing_place (t : Strand) (h : Nat) (r : Ring) : (t.setRing h r).place = t.place := rfl
@[simp] theorem Strand.setRing_life (t : Strand) (h : Nat) (r : Ring) : (t.setRing h r).life = t.life := rfl
@[simp] theorem Strand.setRing_regs (t : Strand) (h : Nat) (r : Ring) : (t.setRing h r).regs = t.regs := rfl
@[simp] theorem Strand.setRing_pc (t : Strand) (h : Nat) (r : Ring) : (t.setRing h r).pc = t.pc := rfl
@[simp] theorem Strand.setRing_pfx (t : Strand) (h : Nat) (r : Ring) : (t.setRing h r).pfx = t.pfx := rfl
@[simp] theorem Strand.setRing_ended (t : Strand) (h : Nat) (r : Ring) : (t.setRing h r).ended = t.ended := rfl
@[simp] theorem Strand.setRing_hold (t : Strand) (h : Nat) (r : Ring) : (t.setRing h r).hold = t.hold := rfl
@[simp] theorem Strand.setRing_broken (t : Strand) (h : Nat) (r : Ring) : (t.setRing h r).broken = t.broken := rfl
@[simp] theorem Strand.setRing_pend (t : Strand) (h : Nat) (r : Ring) : (t.setRing h r).pend = t.pend := rfl
@[simp] theorem Strand.setRing_stalled (t : Strand) (h : Nat) (r : Ring) : (t.setRing h r).stalled = t.stalled := rfl
@[simp] theorem Strand.setRing_waiting (t : Strand) (h : Nat) (r : Ring) : (t.setRing h r).waiting = t.waiting := rfl
@[simp] theorem Strand.setRing_steered (t : Strand) (h : Nat) (r : Ring) : (t.setRing h r).steered = t.steered := rfl
@[simp] theorem Strand.setRing_csr (t : Strand) (h : Nat) (r : Ring) : (t.setRing h r).csr = t.csr := rfl
@[simp] theorem Strand.setRing_vec (t : Strand) (h : Nat) (r : Ring) : (t.setRing h r).vec = t.vec := rfl
@[simp] theorem Strand.setRing_mat (t : Strand) (h : Nat) (r : Ring) : (t.setRing h r).mat = t.mat := rfl
@[simp] theorem Strand.setRing_attn (t : Strand) (h : Nat) (r : Ring) : (t.setRing h r).attn = t.attn := rfl
@[simp] theorem Strand.setRing_queues (t : Strand) (h : Nat) (r : Ring) : (t.setRing h r).queues = t.queues := rfl
@[simp] theorem Strand.setRing_loopLeft (t : Strand) (h : Nat) (r : Ring) : (t.setRing h r).loopLeft = t.loopLeft := rfl
@[simp] theorem Strand.setRing_engHeld (t : Strand) (h : Nat) (r : Ring) : (t.setRing h r).engHeld = t.engHeld := rfl
@[simp] theorem Strand.setRing_lag (t : Strand) (h : Nat) (r : Ring) : (t.setRing h r).lag = t.lag := rfl
@[simp] theorem Strand.setRing_work (t : Strand) (h : Nat) (r : Ring) : (t.setRing h r).work = t.work := rfl
@[simp] theorem Strand.setRing_descs (t : Strand) (h : Nat) (r : Ring) : (t.setRing h r).descs = t.descs := rfl
@[simp] theorem Strand.setRing_streams (t : Strand) (h : Nat) (r : Ring) : (t.setRing h r).streams = t.streams := rfl
@[simp] theorem Strand.setRing_bars (t : Strand) (h : Nat) (r : Ring) : (t.setRing h r).bars = t.bars := rfl
@[simp] theorem Strand.setRing_spad (t : Strand) (h : Nat) (r : Ring) : (t.setRing h r).spad = t.spad := rfl
@[simp] theorem Strand.setRing_spadUnits (t : Strand) (h : Nat) (r : Ring) : (t.setRing h r).spadUnits = t.spadUnits := rfl
@[simp] theorem Strand.setRing_stores (t : Strand) (h : Nat) (r : Ring) : (t.setRing h r).stores = t.stores := rfl
@[simp] theorem Strand.setRing_barred (t : Strand) (h : Nat) (r : Ring) : (t.setRing h r).barred = t.barred := rfl
@[simp] theorem Strand.setRing_pageWaits (t : Strand) (h : Nat) (r : Ring) : (t.setRing h r).pageWaits = t.pageWaits := rfl
@[simp] theorem Strand.setRing_pageAnswers (t : Strand) (h : Nat) (r : Ring) :
    (t.setRing h r).pageAnswers = t.pageAnswers := rfl
@[simp] theorem Strand.setRing_stall (t : Strand) (h : Nat) (r : Ring) : (t.setRing h r).stall = t.stall := rfl
@[simp] theorem Strand.setRing_turn (t : Strand) (h : Nat) (r : Ring) : (t.setRing h r).turn = t.turn := rfl

/-! `Strand.setBar` -/

@[simp] theorem Strand.setBar_place (t : Strand) (g : Nat) (b : Barrier) : (t.setBar g b).place = t.place := rfl
@[simp] theorem Strand.setBar_life (t : Strand) (g : Nat) (b : Barrier) : (t.setBar g b).life = t.life := rfl
@[simp] theorem Strand.setBar_regs (t : Strand) (g : Nat) (b : Barrier) : (t.setBar g b).regs = t.regs := rfl
@[simp] theorem Strand.setBar_pc (t : Strand) (g : Nat) (b : Barrier) : (t.setBar g b).pc = t.pc := rfl
@[simp] theorem Strand.setBar_pfx (t : Strand) (g : Nat) (b : Barrier) : (t.setBar g b).pfx = t.pfx := rfl
@[simp] theorem Strand.setBar_ended (t : Strand) (g : Nat) (b : Barrier) : (t.setBar g b).ended = t.ended := rfl
@[simp] theorem Strand.setBar_hold (t : Strand) (g : Nat) (b : Barrier) : (t.setBar g b).hold = t.hold := rfl
@[simp] theorem Strand.setBar_broken (t : Strand) (g : Nat) (b : Barrier) : (t.setBar g b).broken = t.broken := rfl
@[simp] theorem Strand.setBar_pend (t : Strand) (g : Nat) (b : Barrier) : (t.setBar g b).pend = t.pend := rfl
@[simp] theorem Strand.setBar_stalled (t : Strand) (g : Nat) (b : Barrier) : (t.setBar g b).stalled = t.stalled := rfl
@[simp] theorem Strand.setBar_waiting (t : Strand) (g : Nat) (b : Barrier) : (t.setBar g b).waiting = t.waiting := rfl
@[simp] theorem Strand.setBar_steered (t : Strand) (g : Nat) (b : Barrier) : (t.setBar g b).steered = t.steered := rfl
@[simp] theorem Strand.setBar_csr (t : Strand) (g : Nat) (b : Barrier) : (t.setBar g b).csr = t.csr := rfl
@[simp] theorem Strand.setBar_vec (t : Strand) (g : Nat) (b : Barrier) : (t.setBar g b).vec = t.vec := rfl
@[simp] theorem Strand.setBar_mat (t : Strand) (g : Nat) (b : Barrier) : (t.setBar g b).mat = t.mat := rfl
@[simp] theorem Strand.setBar_attn (t : Strand) (g : Nat) (b : Barrier) : (t.setBar g b).attn = t.attn := rfl
@[simp] theorem Strand.setBar_queues (t : Strand) (g : Nat) (b : Barrier) : (t.setBar g b).queues = t.queues := rfl
@[simp] theorem Strand.setBar_loopLeft (t : Strand) (g : Nat) (b : Barrier) : (t.setBar g b).loopLeft = t.loopLeft := rfl
@[simp] theorem Strand.setBar_engHeld (t : Strand) (g : Nat) (b : Barrier) : (t.setBar g b).engHeld = t.engHeld := rfl
@[simp] theorem Strand.setBar_lag (t : Strand) (g : Nat) (b : Barrier) : (t.setBar g b).lag = t.lag := rfl
@[simp] theorem Strand.setBar_work (t : Strand) (g : Nat) (b : Barrier) : (t.setBar g b).work = t.work := rfl
@[simp] theorem Strand.setBar_descs (t : Strand) (g : Nat) (b : Barrier) : (t.setBar g b).descs = t.descs := rfl
@[simp] theorem Strand.setBar_streams (t : Strand) (g : Nat) (b : Barrier) : (t.setBar g b).streams = t.streams := rfl
@[simp] theorem Strand.setBar_rings (t : Strand) (g : Nat) (b : Barrier) : (t.setBar g b).rings = t.rings := rfl
@[simp] theorem Strand.setBar_spad (t : Strand) (g : Nat) (b : Barrier) : (t.setBar g b).spad = t.spad := rfl
@[simp] theorem Strand.setBar_spadUnits (t : Strand) (g : Nat) (b : Barrier) : (t.setBar g b).spadUnits = t.spadUnits := rfl
@[simp] theorem Strand.setBar_stores (t : Strand) (g : Nat) (b : Barrier) : (t.setBar g b).stores = t.stores := rfl
@[simp] theorem Strand.setBar_barred (t : Strand) (g : Nat) (b : Barrier) : (t.setBar g b).barred = t.barred := rfl
@[simp] theorem Strand.setBar_pageWaits (t : Strand) (g : Nat) (b : Barrier) : (t.setBar g b).pageWaits = t.pageWaits := rfl
@[simp] theorem Strand.setBar_pageAnswers (t : Strand) (g : Nat) (b : Barrier) :
    (t.setBar g b).pageAnswers = t.pageAnswers := rfl
@[simp] theorem Strand.setBar_stall (t : Strand) (g : Nat) (b : Barrier) : (t.setBar g b).stall = t.stall := rfl
@[simp] theorem Strand.setBar_turn (t : Strand) (g : Nat) (b : Barrier) : (t.setBar g b).turn = t.turn := rfl

/-! Correctable errors change the service registers alone. -/

theorem State.ceRoll_eq (s : State) : ∃ v, s.ceRoll = { s with svc := v } := by
  unfold State.ceRoll
  by_cases h : s.svc.ceSince + ceWindow ≤ s.clock
  · exact ⟨_, if_pos h⟩
  · exact ⟨s.svc, if_neg h⟩

theorem State.correctable_eq (s : State) (n : Nat) : ∃ v, s.correctable n = { s with svc := v } := by
  obtain ⟨v, h⟩ := s.ceRoll_eq
  exact ⟨_, by rw [State.correctable, h]⟩

/-! `State.stall` -/

@[simp] theorem State.stall_others (s : State) : (s.stall).others = s.others := rfl
@[simp] theorem State.stall_mem (s : State) : (s.stall).mem = s.mem := rfl
@[simp] theorem State.stall_narrow (s : State) : (s.stall).narrow = s.narrow := rfl
@[simp] theorem State.stall_poison (s : State) : (s.stall).poison = s.poison := rfl
@[simp] theorem State.stall_badLines (s : State) : (s.stall).badLines = s.badLines := rfl
@[simp] theorem State.stall_flakyLines (s : State) : (s.stall).flakyLines = s.flakyLines := rfl
@[simp] theorem State.stall_badNodes (s : State) : (s.stall).badNodes = s.badNodes := rfl
@[simp] theorem State.stall_flakyNodes (s : State) : (s.stall).flakyNodes = s.flakyNodes := rfl
@[simp] theorem State.stall_frames (s : State) : (s.stall).frames = s.frames := rfl
@[simp] theorem State.stall_withdrawn (s : State) : (s.stall).withdrawn = s.withdrawn := rfl
@[simp] theorem State.stall_withdrawnBlocks (s : State) : (s.stall).withdrawnBlocks = s.withdrawnBlocks := rfl
@[simp] theorem State.stall_windows (s : State) : (s.stall).windows = s.windows := rfl
@[simp] theorem State.stall_bolts (s : State) : (s.stall).bolts = s.bolts := rfl
@[simp] theorem State.stall_tiles (s : State) : (s.stall).tiles = s.tiles := rfl
@[simp] theorem State.stall_drapers (s : State) : (s.stall).drapers = s.drapers := rfl
@[simp] theorem State.stall_images (s : State) : (s.stall).images = s.images := rfl
@[simp] theorem State.stall_bankWaits (s : State) : (s.stall).bankWaits = s.bankWaits := rfl
@[simp] theorem State.stall_regions (s : State) : (s.stall).regions = s.regions := rfl
@[simp] theorem State.stall_spoiled (s : State) : (s.stall).spoiled = s.spoiled := rfl
@[simp] theorem State.stall_versWaits (s : State) : (s.stall).versWaits = s.versWaits := rfl
@[simp] theorem State.stall_fullerWaits (s : State) : (s.stall).fullerWaits = s.fullerWaits := rfl
@[simp] theorem State.stall_btbs (s : State) : (s.stall).btbs = s.btbs := rfl
@[simp] theorem State.stall_fabric (s : State) : (s.stall).fabric = s.fabric := rfl
@[simp] theorem State.stall_svc (s : State) : (s.stall).svc = s.svc := rfl
@[simp] theorem State.stall_fns (s : State) : (s.stall).fns = s.fns := rfl
@[simp] theorem State.stall_parts (s : State) : (s.stall).parts = s.parts := rfl
@[simp] theorem State.stall_host (s : State) : (s.stall).host = s.host := rfl
@[simp] theorem State.stall_sealEng (s : State) : (s.stall).sealEng = s.sealEng := rfl
@[simp] theorem State.stall_front (s : State) : (s.stall).front = s.front := rfl
@[simp] theorem State.stall_scriv (s : State) : (s.stall).scriv = s.scriv := rfl
@[simp] theorem State.stall_scrivCount (s : State) : (s.stall).scrivCount = s.scrivCount := rfl
@[simp] theorem State.stall_lineCtrs (s : State) : (s.stall).lineCtrs = s.lineCtrs := rfl
@[simp] theorem State.stall_nodeCtrs (s : State) : (s.stall).nodeCtrs = s.nodeCtrs := rfl
@[simp] theorem State.stall_treeRoots (s : State) : (s.stall).treeRoots = s.treeRoots := rfl
@[simp] theorem State.stall_aon (s : State) : (s.stall).aon = s.aon := rfl
@[simp] theorem State.stall_clock (s : State) : (s.stall).clock = s.clock := rfl
@[simp] theorem State.stall_moves (s : State) : (s.stall).moves = s.moves := rfl
@[simp] theorem State.stall_out (s : State) : (s.stall).out = s.out := rfl
@[simp] theorem State.stall_freeCount (s : State) : (s.stall).freeCount = s.freeCount := rfl

/-! `State.holdUnit` -/

@[simp] theorem State.holdUnit_others (s : State) (k i : Nat) : (s.holdUnit k i).others = s.others := rfl
@[simp] theorem State.holdUnit_mem (s : State) (k i : Nat) : (s.holdUnit k i).mem = s.mem := rfl
@[simp] theorem State.holdUnit_narrow (s : State) (k i : Nat) : (s.holdUnit k i).narrow = s.narrow := rfl
@[simp] theorem State.holdUnit_poison (s : State) (k i : Nat) : (s.holdUnit k i).poison = s.poison := rfl
@[simp] theorem State.holdUnit_badLines (s : State) (k i : Nat) : (s.holdUnit k i).badLines = s.badLines := rfl
@[simp] theorem State.holdUnit_flakyLines (s : State) (k i : Nat) : (s.holdUnit k i).flakyLines = s.flakyLines := rfl
@[simp] theorem State.holdUnit_badNodes (s : State) (k i : Nat) : (s.holdUnit k i).badNodes = s.badNodes := rfl
@[simp] theorem State.holdUnit_flakyNodes (s : State) (k i : Nat) : (s.holdUnit k i).flakyNodes = s.flakyNodes := rfl
@[simp] theorem State.holdUnit_frames (s : State) (k i : Nat) : (s.holdUnit k i).frames = s.frames := rfl
@[simp] theorem State.holdUnit_withdrawn (s : State) (k i : Nat) : (s.holdUnit k i).withdrawn = s.withdrawn := rfl
@[simp] theorem State.holdUnit_withdrawnBlocks (s : State) (k i : Nat) :
    (s.holdUnit k i).withdrawnBlocks = s.withdrawnBlocks := rfl
@[simp] theorem State.holdUnit_windows (s : State) (k i : Nat) : (s.holdUnit k i).windows = s.windows := rfl
@[simp] theorem State.holdUnit_bolts (s : State) (k i : Nat) : (s.holdUnit k i).bolts = s.bolts := rfl
@[simp] theorem State.holdUnit_tiles (s : State) (k i : Nat) : (s.holdUnit k i).tiles = s.tiles := rfl
@[simp] theorem State.holdUnit_drapers (s : State) (k i : Nat) : (s.holdUnit k i).drapers = s.drapers := rfl
@[simp] theorem State.holdUnit_images (s : State) (k i : Nat) : (s.holdUnit k i).images = s.images := rfl
@[simp] theorem State.holdUnit_bankWaits (s : State) (k i : Nat) : (s.holdUnit k i).bankWaits = s.bankWaits := rfl
@[simp] theorem State.holdUnit_regions (s : State) (k i : Nat) : (s.holdUnit k i).regions = s.regions := rfl
@[simp] theorem State.holdUnit_spoiled (s : State) (k i : Nat) : (s.holdUnit k i).spoiled = s.spoiled := rfl
@[simp] theorem State.holdUnit_versWaits (s : State) (k i : Nat) : (s.holdUnit k i).versWaits = s.versWaits := rfl
@[simp] theorem State.holdUnit_fullerWaits (s : State) (k i : Nat) : (s.holdUnit k i).fullerWaits = s.fullerWaits := rfl
@[simp] theorem State.holdUnit_btbs (s : State) (k i : Nat) : (s.holdUnit k i).btbs = s.btbs := rfl
@[simp] theorem State.holdUnit_fabric (s : State) (k i : Nat) : (s.holdUnit k i).fabric = s.fabric := rfl
@[simp] theorem State.holdUnit_svc (s : State) (k i : Nat) : (s.holdUnit k i).svc = s.svc := rfl
@[simp] theorem State.holdUnit_fns (s : State) (k i : Nat) : (s.holdUnit k i).fns = s.fns := rfl
@[simp] theorem State.holdUnit_parts (s : State) (k i : Nat) : (s.holdUnit k i).parts = s.parts := rfl
@[simp] theorem State.holdUnit_host (s : State) (k i : Nat) : (s.holdUnit k i).host = s.host := rfl
@[simp] theorem State.holdUnit_sealEng (s : State) (k i : Nat) : (s.holdUnit k i).sealEng = s.sealEng := rfl
@[simp] theorem State.holdUnit_front (s : State) (k i : Nat) : (s.holdUnit k i).front = s.front := rfl
@[simp] theorem State.holdUnit_scriv (s : State) (k i : Nat) : (s.holdUnit k i).scriv = s.scriv := rfl
@[simp] theorem State.holdUnit_scrivCount (s : State) (k i : Nat) : (s.holdUnit k i).scrivCount = s.scrivCount := rfl
@[simp] theorem State.holdUnit_lineCtrs (s : State) (k i : Nat) : (s.holdUnit k i).lineCtrs = s.lineCtrs := rfl
@[simp] theorem State.holdUnit_nodeCtrs (s : State) (k i : Nat) : (s.holdUnit k i).nodeCtrs = s.nodeCtrs := rfl
@[simp] theorem State.holdUnit_treeRoots (s : State) (k i : Nat) : (s.holdUnit k i).treeRoots = s.treeRoots := rfl
@[simp] theorem State.holdUnit_aon (s : State) (k i : Nat) : (s.holdUnit k i).aon = s.aon := rfl
@[simp] theorem State.holdUnit_clock (s : State) (k i : Nat) : (s.holdUnit k i).clock = s.clock := rfl
@[simp] theorem State.holdUnit_moves (s : State) (k i : Nat) : (s.holdUnit k i).moves = s.moves := rfl
@[simp] theorem State.holdUnit_out (s : State) (k i : Nat) : (s.holdUnit k i).out = s.out := rfl
@[simp] theorem State.holdUnit_freeCount (s : State) (k i : Nat) : (s.holdUnit k i).freeCount = s.freeCount := rfl

/-! `State.setFn` -/

@[simp] theorem State.setFn_st (s : State) (n : Nat) (f : Fn) : (s.setFn n f).st = s.st := rfl
@[simp] theorem State.setFn_others (s : State) (n : Nat) (f : Fn) : (s.setFn n f).others = s.others := rfl
@[simp] theorem State.setFn_mem (s : State) (n : Nat) (f : Fn) : (s.setFn n f).mem = s.mem := rfl
@[simp] theorem State.setFn_narrow (s : State) (n : Nat) (f : Fn) : (s.setFn n f).narrow = s.narrow := rfl
@[simp] theorem State.setFn_poison (s : State) (n : Nat) (f : Fn) : (s.setFn n f).poison = s.poison := rfl
@[simp] theorem State.setFn_badLines (s : State) (n : Nat) (f : Fn) : (s.setFn n f).badLines = s.badLines := rfl
@[simp] theorem State.setFn_flakyLines (s : State) (n : Nat) (f : Fn) : (s.setFn n f).flakyLines = s.flakyLines := rfl
@[simp] theorem State.setFn_badNodes (s : State) (n : Nat) (f : Fn) : (s.setFn n f).badNodes = s.badNodes := rfl
@[simp] theorem State.setFn_flakyNodes (s : State) (n : Nat) (f : Fn) : (s.setFn n f).flakyNodes = s.flakyNodes := rfl
@[simp] theorem State.setFn_frames (s : State) (n : Nat) (f : Fn) : (s.setFn n f).frames = s.frames := rfl
@[simp] theorem State.setFn_withdrawn (s : State) (n : Nat) (f : Fn) : (s.setFn n f).withdrawn = s.withdrawn := rfl
@[simp] theorem State.setFn_withdrawnBlocks (s : State) (n : Nat) (f : Fn) :
    (s.setFn n f).withdrawnBlocks = s.withdrawnBlocks := rfl
@[simp] theorem State.setFn_windows (s : State) (n : Nat) (f : Fn) : (s.setFn n f).windows = s.windows := rfl
@[simp] theorem State.setFn_bolts (s : State) (n : Nat) (f : Fn) : (s.setFn n f).bolts = s.bolts := rfl
@[simp] theorem State.setFn_tiles (s : State) (n : Nat) (f : Fn) : (s.setFn n f).tiles = s.tiles := rfl
@[simp] theorem State.setFn_drapers (s : State) (n : Nat) (f : Fn) : (s.setFn n f).drapers = s.drapers := rfl
@[simp] theorem State.setFn_images (s : State) (n : Nat) (f : Fn) : (s.setFn n f).images = s.images := rfl
@[simp] theorem State.setFn_bankWaits (s : State) (n : Nat) (f : Fn) : (s.setFn n f).bankWaits = s.bankWaits := rfl
@[simp] theorem State.setFn_regions (s : State) (n : Nat) (f : Fn) : (s.setFn n f).regions = s.regions := rfl
@[simp] theorem State.setFn_spoiled (s : State) (n : Nat) (f : Fn) : (s.setFn n f).spoiled = s.spoiled := rfl
@[simp] theorem State.setFn_versWaits (s : State) (n : Nat) (f : Fn) : (s.setFn n f).versWaits = s.versWaits := rfl
@[simp] theorem State.setFn_fullerWaits (s : State) (n : Nat) (f : Fn) : (s.setFn n f).fullerWaits = s.fullerWaits := rfl
@[simp] theorem State.setFn_btbs (s : State) (n : Nat) (f : Fn) : (s.setFn n f).btbs = s.btbs := rfl
@[simp] theorem State.setFn_fabric (s : State) (n : Nat) (f : Fn) : (s.setFn n f).fabric = s.fabric := rfl
@[simp] theorem State.setFn_svc (s : State) (n : Nat) (f : Fn) : (s.setFn n f).svc = s.svc := rfl
@[simp] theorem State.setFn_parts (s : State) (n : Nat) (f : Fn) : (s.setFn n f).parts = s.parts := rfl
@[simp] theorem State.setFn_host (s : State) (n : Nat) (f : Fn) : (s.setFn n f).host = s.host := rfl
@[simp] theorem State.setFn_sealEng (s : State) (n : Nat) (f : Fn) : (s.setFn n f).sealEng = s.sealEng := rfl
@[simp] theorem State.setFn_front (s : State) (n : Nat) (f : Fn) : (s.setFn n f).front = s.front := rfl
@[simp] theorem State.setFn_scriv (s : State) (n : Nat) (f : Fn) : (s.setFn n f).scriv = s.scriv := rfl
@[simp] theorem State.setFn_scrivCount (s : State) (n : Nat) (f : Fn) : (s.setFn n f).scrivCount = s.scrivCount := rfl
@[simp] theorem State.setFn_lineCtrs (s : State) (n : Nat) (f : Fn) : (s.setFn n f).lineCtrs = s.lineCtrs := rfl
@[simp] theorem State.setFn_nodeCtrs (s : State) (n : Nat) (f : Fn) : (s.setFn n f).nodeCtrs = s.nodeCtrs := rfl
@[simp] theorem State.setFn_treeRoots (s : State) (n : Nat) (f : Fn) : (s.setFn n f).treeRoots = s.treeRoots := rfl
@[simp] theorem State.setFn_aon (s : State) (n : Nat) (f : Fn) : (s.setFn n f).aon = s.aon := rfl
@[simp] theorem State.setFn_clock (s : State) (n : Nat) (f : Fn) : (s.setFn n f).clock = s.clock := rfl
@[simp] theorem State.setFn_moves (s : State) (n : Nat) (f : Fn) : (s.setFn n f).moves = s.moves := rfl
@[simp] theorem State.setFn_out (s : State) (n : Nat) (f : Fn) : (s.setFn n f).out = s.out := rfl
@[simp] theorem State.setFn_freeCount (s : State) (n : Nat) (f : Fn) : (s.setFn n f).freeCount = s.freeCount := rfl

/-! `State.setPart` -/

@[simp] theorem State.setPart_st (s : State) (p : Nat) (x : Part) : (s.setPart p x).st = s.st := rfl
@[simp] theorem State.setPart_others (s : State) (p : Nat) (x : Part) : (s.setPart p x).others = s.others := rfl
@[simp] theorem State.setPart_mem (s : State) (p : Nat) (x : Part) : (s.setPart p x).mem = s.mem := rfl
@[simp] theorem State.setPart_narrow (s : State) (p : Nat) (x : Part) : (s.setPart p x).narrow = s.narrow := rfl
@[simp] theorem State.setPart_poison (s : State) (p : Nat) (x : Part) : (s.setPart p x).poison = s.poison := rfl
@[simp] theorem State.setPart_badLines (s : State) (p : Nat) (x : Part) : (s.setPart p x).badLines = s.badLines := rfl
@[simp] theorem State.setPart_flakyLines (s : State) (p : Nat) (x : Part) : (s.setPart p x).flakyLines = s.flakyLines := rfl
@[simp] theorem State.setPart_badNodes (s : State) (p : Nat) (x : Part) : (s.setPart p x).badNodes = s.badNodes := rfl
@[simp] theorem State.setPart_flakyNodes (s : State) (p : Nat) (x : Part) : (s.setPart p x).flakyNodes = s.flakyNodes := rfl
@[simp] theorem State.setPart_frames (s : State) (p : Nat) (x : Part) : (s.setPart p x).frames = s.frames := rfl
@[simp] theorem State.setPart_withdrawn (s : State) (p : Nat) (x : Part) : (s.setPart p x).withdrawn = s.withdrawn := rfl
@[simp] theorem State.setPart_withdrawnBlocks (s : State) (p : Nat) (x : Part) :
    (s.setPart p x).withdrawnBlocks = s.withdrawnBlocks := rfl
@[simp] theorem State.setPart_windows (s : State) (p : Nat) (x : Part) : (s.setPart p x).windows = s.windows := rfl
@[simp] theorem State.setPart_bolts (s : State) (p : Nat) (x : Part) : (s.setPart p x).bolts = s.bolts := rfl
@[simp] theorem State.setPart_tiles (s : State) (p : Nat) (x : Part) : (s.setPart p x).tiles = s.tiles := rfl
@[simp] theorem State.setPart_drapers (s : State) (p : Nat) (x : Part) : (s.setPart p x).drapers = s.drapers := rfl
@[simp] theorem State.setPart_images (s : State) (p : Nat) (x : Part) : (s.setPart p x).images = s.images := rfl
@[simp] theorem State.setPart_bankWaits (s : State) (p : Nat) (x : Part) : (s.setPart p x).bankWaits = s.bankWaits := rfl
@[simp] theorem State.setPart_regions (s : State) (p : Nat) (x : Part) : (s.setPart p x).regions = s.regions := rfl
@[simp] theorem State.setPart_spoiled (s : State) (p : Nat) (x : Part) : (s.setPart p x).spoiled = s.spoiled := rfl
@[simp] theorem State.setPart_versWaits (s : State) (p : Nat) (x : Part) : (s.setPart p x).versWaits = s.versWaits := rfl
@[simp] theorem State.setPart_fullerWaits (s : State) (p : Nat) (x : Part) : (s.setPart p x).fullerWaits = s.fullerWaits := rfl
@[simp] theorem State.setPart_btbs (s : State) (p : Nat) (x : Part) : (s.setPart p x).btbs = s.btbs := rfl
@[simp] theorem State.setPart_fabric (s : State) (p : Nat) (x : Part) : (s.setPart p x).fabric = s.fabric := rfl
@[simp] theorem State.setPart_svc (s : State) (p : Nat) (x : Part) : (s.setPart p x).svc = s.svc := rfl
@[simp] theorem State.setPart_fns (s : State) (p : Nat) (x : Part) : (s.setPart p x).fns = s.fns := rfl
@[simp] theorem State.setPart_host (s : State) (p : Nat) (x : Part) : (s.setPart p x).host = s.host := rfl
@[simp] theorem State.setPart_sealEng (s : State) (p : Nat) (x : Part) : (s.setPart p x).sealEng = s.sealEng := rfl
@[simp] theorem State.setPart_front (s : State) (p : Nat) (x : Part) : (s.setPart p x).front = s.front := rfl
@[simp] theorem State.setPart_scriv (s : State) (p : Nat) (x : Part) : (s.setPart p x).scriv = s.scriv := rfl
@[simp] theorem State.setPart_scrivCount (s : State) (p : Nat) (x : Part) : (s.setPart p x).scrivCount = s.scrivCount := rfl
@[simp] theorem State.setPart_lineCtrs (s : State) (p : Nat) (x : Part) : (s.setPart p x).lineCtrs = s.lineCtrs := rfl
@[simp] theorem State.setPart_nodeCtrs (s : State) (p : Nat) (x : Part) : (s.setPart p x).nodeCtrs = s.nodeCtrs := rfl
@[simp] theorem State.setPart_treeRoots (s : State) (p : Nat) (x : Part) : (s.setPart p x).treeRoots = s.treeRoots := rfl
@[simp] theorem State.setPart_aon (s : State) (p : Nat) (x : Part) : (s.setPart p x).aon = s.aon := rfl
@[simp] theorem State.setPart_clock (s : State) (p : Nat) (x : Part) : (s.setPart p x).clock = s.clock := rfl
@[simp] theorem State.setPart_moves (s : State) (p : Nat) (x : Part) : (s.setPart p x).moves = s.moves := rfl
@[simp] theorem State.setPart_out (s : State) (p : Nat) (x : Part) : (s.setPart p x).out = s.out := rfl
@[simp] theorem State.setPart_freeCount (s : State) (p : Nat) (x : Part) : (s.setPart p x).freeCount = s.freeCount := rfl

/-! `State.setWorld` -/

@[simp] theorem State.setWorld_st (s : State) (w : Nat) (x : World) : (s.setWorld w x).st = s.st := rfl
@[simp] theorem State.setWorld_others (s : State) (w : Nat) (x : World) : (s.setWorld w x).others = s.others := rfl
@[simp] theorem State.setWorld_mem (s : State) (w : Nat) (x : World) : (s.setWorld w x).mem = s.mem := rfl
@[simp] theorem State.setWorld_narrow (s : State) (w : Nat) (x : World) : (s.setWorld w x).narrow = s.narrow := rfl
@[simp] theorem State.setWorld_poison (s : State) (w : Nat) (x : World) : (s.setWorld w x).poison = s.poison := rfl
@[simp] theorem State.setWorld_badLines (s : State) (w : Nat) (x : World) : (s.setWorld w x).badLines = s.badLines := rfl
@[simp] theorem State.setWorld_flakyLines (s : State) (w : Nat) (x : World) : (s.setWorld w x).flakyLines = s.flakyLines := rfl
@[simp] theorem State.setWorld_badNodes (s : State) (w : Nat) (x : World) : (s.setWorld w x).badNodes = s.badNodes := rfl
@[simp] theorem State.setWorld_flakyNodes (s : State) (w : Nat) (x : World) : (s.setWorld w x).flakyNodes = s.flakyNodes := rfl
@[simp] theorem State.setWorld_frames (s : State) (w : Nat) (x : World) : (s.setWorld w x).frames = s.frames := rfl
@[simp] theorem State.setWorld_withdrawn (s : State) (w : Nat) (x : World) : (s.setWorld w x).withdrawn = s.withdrawn := rfl
@[simp] theorem State.setWorld_withdrawnBlocks (s : State) (w : Nat) (x : World) :
    (s.setWorld w x).withdrawnBlocks = s.withdrawnBlocks := rfl
@[simp] theorem State.setWorld_windows (s : State) (w : Nat) (x : World) : (s.setWorld w x).windows = s.windows := rfl
@[simp] theorem State.setWorld_bolts (s : State) (w : Nat) (x : World) : (s.setWorld w x).bolts = s.bolts := rfl
@[simp] theorem State.setWorld_tiles (s : State) (w : Nat) (x : World) : (s.setWorld w x).tiles = s.tiles := rfl
@[simp] theorem State.setWorld_drapers (s : State) (w : Nat) (x : World) : (s.setWorld w x).drapers = s.drapers := rfl
@[simp] theorem State.setWorld_images (s : State) (w : Nat) (x : World) : (s.setWorld w x).images = s.images := rfl
@[simp] theorem State.setWorld_bankWaits (s : State) (w : Nat) (x : World) : (s.setWorld w x).bankWaits = s.bankWaits := rfl
@[simp] theorem State.setWorld_regions (s : State) (w : Nat) (x : World) : (s.setWorld w x).regions = s.regions := rfl
@[simp] theorem State.setWorld_spoiled (s : State) (w : Nat) (x : World) : (s.setWorld w x).spoiled = s.spoiled := rfl
@[simp] theorem State.setWorld_versWaits (s : State) (w : Nat) (x : World) : (s.setWorld w x).versWaits = s.versWaits := rfl
@[simp] theorem State.setWorld_fullerWaits (s : State) (w : Nat) (x : World) :
    (s.setWorld w x).fullerWaits = s.fullerWaits := rfl
@[simp] theorem State.setWorld_btbs (s : State) (w : Nat) (x : World) : (s.setWorld w x).btbs = s.btbs := rfl
@[simp] theorem State.setWorld_fabric (s : State) (w : Nat) (x : World) : (s.setWorld w x).fabric = s.fabric := rfl
@[simp] theorem State.setWorld_svc (s : State) (w : Nat) (x : World) : (s.setWorld w x).svc = s.svc := rfl
@[simp] theorem State.setWorld_fns (s : State) (w : Nat) (x : World) : (s.setWorld w x).fns = s.fns := rfl
@[simp] theorem State.setWorld_parts (s : State) (w : Nat) (x : World) : (s.setWorld w x).parts = s.parts := rfl
@[simp] theorem State.setWorld_host (s : State) (w : Nat) (x : World) : (s.setWorld w x).host = s.host := rfl
@[simp] theorem State.setWorld_front (s : State) (w : Nat) (x : World) : (s.setWorld w x).front = s.front := rfl
@[simp] theorem State.setWorld_scriv (s : State) (w : Nat) (x : World) : (s.setWorld w x).scriv = s.scriv := rfl
@[simp] theorem State.setWorld_scrivCount (s : State) (w : Nat) (x : World) : (s.setWorld w x).scrivCount = s.scrivCount := rfl
@[simp] theorem State.setWorld_lineCtrs (s : State) (w : Nat) (x : World) : (s.setWorld w x).lineCtrs = s.lineCtrs := rfl
@[simp] theorem State.setWorld_nodeCtrs (s : State) (w : Nat) (x : World) : (s.setWorld w x).nodeCtrs = s.nodeCtrs := rfl
@[simp] theorem State.setWorld_treeRoots (s : State) (w : Nat) (x : World) : (s.setWorld w x).treeRoots = s.treeRoots := rfl
@[simp] theorem State.setWorld_aon (s : State) (w : Nat) (x : World) : (s.setWorld w x).aon = s.aon := rfl
@[simp] theorem State.setWorld_clock (s : State) (w : Nat) (x : World) : (s.setWorld w x).clock = s.clock := rfl
@[simp] theorem State.setWorld_moves (s : State) (w : Nat) (x : World) : (s.setWorld w x).moves = s.moves := rfl
@[simp] theorem State.setWorld_out (s : State) (w : Nat) (x : World) : (s.setWorld w x).out = s.out := rfl
@[simp] theorem State.setWorld_freeCount (s : State) (w : Nat) (x : World) : (s.setWorld w x).freeCount = s.freeCount := rfl

/-! `State.scrivener` -/

@[simp] theorem State.scrivener_st (s : State) (src ev a b : Nat) : (s.scrivener src ev a b).st = s.st := rfl
@[simp] theorem State.scrivener_others (s : State) (src ev a b : Nat) : (s.scrivener src ev a b).others = s.others := rfl
@[simp] theorem State.scrivener_mem (s : State) (src ev a b : Nat) : (s.scrivener src ev a b).mem = s.mem := rfl
@[simp] theorem State.scrivener_narrow (s : State) (src ev a b : Nat) : (s.scrivener src ev a b).narrow = s.narrow := rfl
@[simp] theorem State.scrivener_poison (s : State) (src ev a b : Nat) : (s.scrivener src ev a b).poison = s.poison := rfl
@[simp] theorem State.scrivener_badLines (s : State) (src ev a b : Nat) : (s.scrivener src ev a b).badLines = s.badLines := rfl
@[simp] theorem State.scrivener_flakyLines (s : State) (src ev a b : Nat) :
    (s.scrivener src ev a b).flakyLines = s.flakyLines := rfl
@[simp] theorem State.scrivener_badNodes (s : State) (src ev a b : Nat) : (s.scrivener src ev a b).badNodes = s.badNodes := rfl
@[simp] theorem State.scrivener_flakyNodes (s : State) (src ev a b : Nat) :
    (s.scrivener src ev a b).flakyNodes = s.flakyNodes := rfl
@[simp] theorem State.scrivener_frames (s : State) (src ev a b : Nat) : (s.scrivener src ev a b).frames = s.frames := rfl
@[simp] theorem State.scrivener_withdrawn (s : State) (src ev a b : Nat) :
    (s.scrivener src ev a b).withdrawn = s.withdrawn := rfl
@[simp] theorem State.scrivener_withdrawnBlocks (s : State) (src ev a b : Nat) :
    (s.scrivener src ev a b).withdrawnBlocks = s.withdrawnBlocks := rfl
@[simp] theorem State.scrivener_windows (s : State) (src ev a b : Nat) : (s.scrivener src ev a b).windows = s.windows := rfl
@[simp] theorem State.scrivener_bolts (s : State) (src ev a b : Nat) : (s.scrivener src ev a b).bolts = s.bolts := rfl
@[simp] theorem State.scrivener_tiles (s : State) (src ev a b : Nat) : (s.scrivener src ev a b).tiles = s.tiles := rfl
@[simp] theorem State.scrivener_drapers (s : State) (src ev a b : Nat) : (s.scrivener src ev a b).drapers = s.drapers := rfl
@[simp] theorem State.scrivener_images (s : State) (src ev a b : Nat) : (s.scrivener src ev a b).images = s.images := rfl
@[simp] theorem State.scrivener_bankWaits (s : State) (src ev a b : Nat) :
    (s.scrivener src ev a b).bankWaits = s.bankWaits := rfl
@[simp] theorem State.scrivener_regions (s : State) (src ev a b : Nat) : (s.scrivener src ev a b).regions = s.regions := rfl
@[simp] theorem State.scrivener_spoiled (s : State) (src ev a b : Nat) : (s.scrivener src ev a b).spoiled = s.spoiled := rfl
@[simp] theorem State.scrivener_versWaits (s : State) (src ev a b : Nat) :
    (s.scrivener src ev a b).versWaits = s.versWaits := rfl
@[simp] theorem State.scrivener_fullerWaits (s : State) (src ev a b : Nat) :
    (s.scrivener src ev a b).fullerWaits = s.fullerWaits := rfl
@[simp] theorem State.scrivener_btbs (s : State) (src ev a b : Nat) : (s.scrivener src ev a b).btbs = s.btbs := rfl
@[simp] theorem State.scrivener_fabric (s : State) (src ev a b : Nat) : (s.scrivener src ev a b).fabric = s.fabric := rfl
@[simp] theorem State.scrivener_svc (s : State) (src ev a b : Nat) : (s.scrivener src ev a b).svc = s.svc := rfl
@[simp] theorem State.scrivener_fns (s : State) (src ev a b : Nat) : (s.scrivener src ev a b).fns = s.fns := rfl
@[simp] theorem State.scrivener_parts (s : State) (src ev a b : Nat) : (s.scrivener src ev a b).parts = s.parts := rfl
@[simp] theorem State.scrivener_host (s : State) (src ev a b : Nat) : (s.scrivener src ev a b).host = s.host := rfl
@[simp] theorem State.scrivener_sealEng (s : State) (src ev a b : Nat) : (s.scrivener src ev a b).sealEng = s.sealEng := rfl
@[simp] theorem State.scrivener_front (s : State) (src ev a b : Nat) : (s.scrivener src ev a b).front = s.front := rfl
@[simp] theorem State.scrivener_lineCtrs (s : State) (src ev a b : Nat) : (s.scrivener src ev a b).lineCtrs = s.lineCtrs := rfl
@[simp] theorem State.scrivener_nodeCtrs (s : State) (src ev a b : Nat) : (s.scrivener src ev a b).nodeCtrs = s.nodeCtrs := rfl
@[simp] theorem State.scrivener_treeRoots (s : State) (src ev a b : Nat) :
    (s.scrivener src ev a b).treeRoots = s.treeRoots := rfl
@[simp] theorem State.scrivener_aon (s : State) (src ev a b : Nat) : (s.scrivener src ev a b).aon = s.aon := rfl
@[simp] theorem State.scrivener_clock (s : State) (src ev a b : Nat) : (s.scrivener src ev a b).clock = s.clock := rfl
@[simp] theorem State.scrivener_moves (s : State) (src ev a b : Nat) : (s.scrivener src ev a b).moves = s.moves := rfl
@[simp] theorem State.scrivener_out (s : State) (src ev a b : Nat) : (s.scrivener src ev a b).out = s.out := rfl
@[simp] theorem State.scrivener_freeCount (s : State) (src ev a b : Nat) :
    (s.scrivener src ev a b).freeCount = s.freeCount := rfl

/-! `State.correctable` -/

@[simp] theorem State.correctable_st (s : State) (n : Nat) : (s.correctable n).st = s.st := by
  obtain ⟨v, h⟩ := s.correctable_eq n; rw [h]
@[simp] theorem State.correctable_others (s : State) (n : Nat) : (s.correctable n).others = s.others := by
  obtain ⟨v, h⟩ := s.correctable_eq n; rw [h]
@[simp] theorem State.correctable_mem (s : State) (n : Nat) : (s.correctable n).mem = s.mem := by
  obtain ⟨v, h⟩ := s.correctable_eq n; rw [h]
@[simp] theorem State.correctable_narrow (s : State) (n : Nat) : (s.correctable n).narrow = s.narrow := by
  obtain ⟨v, h⟩ := s.correctable_eq n; rw [h]
@[simp] theorem State.correctable_poison (s : State) (n : Nat) : (s.correctable n).poison = s.poison := by
  obtain ⟨v, h⟩ := s.correctable_eq n; rw [h]
@[simp] theorem State.correctable_badLines (s : State) (n : Nat) : (s.correctable n).badLines = s.badLines := by
  obtain ⟨v, h⟩ := s.correctable_eq n; rw [h]
@[simp] theorem State.correctable_flakyLines (s : State) (n : Nat) : (s.correctable n).flakyLines = s.flakyLines := by
  obtain ⟨v, h⟩ := s.correctable_eq n; rw [h]
@[simp] theorem State.correctable_badNodes (s : State) (n : Nat) : (s.correctable n).badNodes = s.badNodes := by
  obtain ⟨v, h⟩ := s.correctable_eq n; rw [h]
@[simp] theorem State.correctable_flakyNodes (s : State) (n : Nat) : (s.correctable n).flakyNodes = s.flakyNodes := by
  obtain ⟨v, h⟩ := s.correctable_eq n; rw [h]
@[simp] theorem State.correctable_frames (s : State) (n : Nat) : (s.correctable n).frames = s.frames := by
  obtain ⟨v, h⟩ := s.correctable_eq n; rw [h]
@[simp] theorem State.correctable_withdrawn (s : State) (n : Nat) : (s.correctable n).withdrawn = s.withdrawn := by
  obtain ⟨v, h⟩ := s.correctable_eq n; rw [h]
@[simp] theorem State.correctable_withdrawnBlocks (s : State) (n : Nat) : (s.correctable n).withdrawnBlocks = s.withdrawnBlocks := by
  obtain ⟨v, h⟩ := s.correctable_eq n; rw [h]
@[simp] theorem State.correctable_windows (s : State) (n : Nat) : (s.correctable n).windows = s.windows := by
  obtain ⟨v, h⟩ := s.correctable_eq n; rw [h]
@[simp] theorem State.correctable_bolts (s : State) (n : Nat) : (s.correctable n).bolts = s.bolts := by
  obtain ⟨v, h⟩ := s.correctable_eq n; rw [h]
@[simp] theorem State.correctable_tiles (s : State) (n : Nat) : (s.correctable n).tiles = s.tiles := by
  obtain ⟨v, h⟩ := s.correctable_eq n; rw [h]
@[simp] theorem State.correctable_drapers (s : State) (n : Nat) : (s.correctable n).drapers = s.drapers := by
  obtain ⟨v, h⟩ := s.correctable_eq n; rw [h]
@[simp] theorem State.correctable_images (s : State) (n : Nat) : (s.correctable n).images = s.images := by
  obtain ⟨v, h⟩ := s.correctable_eq n; rw [h]
@[simp] theorem State.correctable_bankWaits (s : State) (n : Nat) : (s.correctable n).bankWaits = s.bankWaits := by
  obtain ⟨v, h⟩ := s.correctable_eq n; rw [h]
@[simp] theorem State.correctable_regions (s : State) (n : Nat) : (s.correctable n).regions = s.regions := by
  obtain ⟨v, h⟩ := s.correctable_eq n; rw [h]
@[simp] theorem State.correctable_spoiled (s : State) (n : Nat) : (s.correctable n).spoiled = s.spoiled := by
  obtain ⟨v, h⟩ := s.correctable_eq n; rw [h]
@[simp] theorem State.correctable_versWaits (s : State) (n : Nat) : (s.correctable n).versWaits = s.versWaits := by
  obtain ⟨v, h⟩ := s.correctable_eq n; rw [h]
@[simp] theorem State.correctable_fullerWaits (s : State) (n : Nat) : (s.correctable n).fullerWaits = s.fullerWaits := by
  obtain ⟨v, h⟩ := s.correctable_eq n; rw [h]
@[simp] theorem State.correctable_btbs (s : State) (n : Nat) : (s.correctable n).btbs = s.btbs := by
  obtain ⟨v, h⟩ := s.correctable_eq n; rw [h]
@[simp] theorem State.correctable_fabric (s : State) (n : Nat) : (s.correctable n).fabric = s.fabric := by
  obtain ⟨v, h⟩ := s.correctable_eq n; rw [h]
@[simp] theorem State.correctable_fns (s : State) (n : Nat) : (s.correctable n).fns = s.fns := by
  obtain ⟨v, h⟩ := s.correctable_eq n; rw [h]
@[simp] theorem State.correctable_parts (s : State) (n : Nat) : (s.correctable n).parts = s.parts := by
  obtain ⟨v, h⟩ := s.correctable_eq n; rw [h]
@[simp] theorem State.correctable_host (s : State) (n : Nat) : (s.correctable n).host = s.host := by
  obtain ⟨v, h⟩ := s.correctable_eq n; rw [h]
@[simp] theorem State.correctable_sealEng (s : State) (n : Nat) : (s.correctable n).sealEng = s.sealEng := by
  obtain ⟨v, h⟩ := s.correctable_eq n; rw [h]
@[simp] theorem State.correctable_front (s : State) (n : Nat) : (s.correctable n).front = s.front := by
  obtain ⟨v, h⟩ := s.correctable_eq n; rw [h]
@[simp] theorem State.correctable_scriv (s : State) (n : Nat) : (s.correctable n).scriv = s.scriv := by
  obtain ⟨v, h⟩ := s.correctable_eq n; rw [h]
@[simp] theorem State.correctable_scrivCount (s : State) (n : Nat) : (s.correctable n).scrivCount = s.scrivCount := by
  obtain ⟨v, h⟩ := s.correctable_eq n; rw [h]
@[simp] theorem State.correctable_lineCtrs (s : State) (n : Nat) : (s.correctable n).lineCtrs = s.lineCtrs := by
  obtain ⟨v, h⟩ := s.correctable_eq n; rw [h]
@[simp] theorem State.correctable_nodeCtrs (s : State) (n : Nat) : (s.correctable n).nodeCtrs = s.nodeCtrs := by
  obtain ⟨v, h⟩ := s.correctable_eq n; rw [h]
@[simp] theorem State.correctable_treeRoots (s : State) (n : Nat) : (s.correctable n).treeRoots = s.treeRoots := by
  obtain ⟨v, h⟩ := s.correctable_eq n; rw [h]
@[simp] theorem State.correctable_aon (s : State) (n : Nat) : (s.correctable n).aon = s.aon := by
  obtain ⟨v, h⟩ := s.correctable_eq n; rw [h]
@[simp] theorem State.correctable_clock (s : State) (n : Nat) : (s.correctable n).clock = s.clock := by
  obtain ⟨v, h⟩ := s.correctable_eq n; rw [h]
@[simp] theorem State.correctable_moves (s : State) (n : Nat) : (s.correctable n).moves = s.moves := by
  obtain ⟨v, h⟩ := s.correctable_eq n; rw [h]
@[simp] theorem State.correctable_out (s : State) (n : Nat) : (s.correctable n).out = s.out := by
  obtain ⟨v, h⟩ := s.correctable_eq n; rw [h]
@[simp] theorem State.correctable_freeCount (s : State) (n : Nat) : (s.correctable n).freeCount = s.freeCount := by
  obtain ⟨v, h⟩ := s.correctable_eq n; rw [h]

/-! What an update sets -/

@[simp] theorem Strand.advance_pc (t : Strand) (n : Word) : (t.advance n).pc = n := rfl
@[simp] theorem Strand.advance_pfx (t : Strand) (n : Word) : (t.advance n).pfx = [] := rfl
@[simp] theorem Strand.advance_steered (t : Strand) (n : Word) : (t.advance n).steered = t.steered + 1 := rfl
@[simp] theorem Strand.advance_waiting (t : Strand) (n : Word) : (t.advance n).waiting = none := rfl
@[simp] theorem Strand.advance_stalled (t : Strand) (n : Word) : (t.advance n).stalled = false := rfl
@[simp] theorem State.stall_st (s : State) : s.stall.st = { s.st with stalled := true } := rfl
@[simp] theorem State.setWorld_sealEng (s : State) (w : Nat) (x : World) :
    (s.setWorld w x).sealEng = { s.sealEng with worlds := assocPut s.sealEng.worlds w x } := rfl
@[simp] theorem State.setFn_fns (s : State) (n : Nat) (f : Fn) : (s.setFn n f).fns = assocPut s.fns n f := rfl
@[simp] theorem State.setPart_parts (s : State) (p : Nat) (x : Part) : (s.setPart p x).parts = assocPut s.parts p x := rfl

/-! Raising an interrupt -/

/-- An interrupt changes a function's pending vectors, or what has gone out. -/
theorem State.raiseMsi_cases (s : State) (fn v : Nat) :
    s.raiseMsi fn v = s ∨ (∃ f, s.raiseMsi fn v = s.setFn fn f) ∨ ∃ o, s.raiseMsi fn v = { s with out := o } := by
  by_cases h : (if fn = 0 then 256 else 64) ≤ v
  · exact .inl (by unfold State.raiseMsi; rw [if_pos h])
  · right
    unfold State.raiseMsi
    rw [if_neg h]
    dsimp only
    split
    · split
      · exact .inr ⟨s.out, rfl⟩
      · exact .inl ⟨_, rfl⟩
    · exact .inr ⟨_, rfl⟩

@[simp] theorem State.raiseMsi_st (s : State) (fn v : Nat) : (s.raiseMsi fn v).st = s.st := by
  obtain h | ⟨f, h⟩ | ⟨o, h⟩ := s.raiseMsi_cases fn v <;> simp only [h, State.setFn]
@[simp] theorem State.raiseMsi_others (s : State) (fn v : Nat) : (s.raiseMsi fn v).others = s.others := by
  obtain h | ⟨f, h⟩ | ⟨o, h⟩ := s.raiseMsi_cases fn v <;> simp only [h, State.setFn]
@[simp] theorem State.raiseMsi_mem (s : State) (fn v : Nat) : (s.raiseMsi fn v).mem = s.mem := by
  obtain h | ⟨f, h⟩ | ⟨o, h⟩ := s.raiseMsi_cases fn v <;> simp only [h, State.setFn]
@[simp] theorem State.raiseMsi_narrow (s : State) (fn v : Nat) : (s.raiseMsi fn v).narrow = s.narrow := by
  obtain h | ⟨f, h⟩ | ⟨o, h⟩ := s.raiseMsi_cases fn v <;> simp only [h, State.setFn]
@[simp] theorem State.raiseMsi_poison (s : State) (fn v : Nat) : (s.raiseMsi fn v).poison = s.poison := by
  obtain h | ⟨f, h⟩ | ⟨o, h⟩ := s.raiseMsi_cases fn v <;> simp only [h, State.setFn]
@[simp] theorem State.raiseMsi_badLines (s : State) (fn v : Nat) : (s.raiseMsi fn v).badLines = s.badLines := by
  obtain h | ⟨f, h⟩ | ⟨o, h⟩ := s.raiseMsi_cases fn v <;> simp only [h, State.setFn]
@[simp] theorem State.raiseMsi_flakyLines (s : State) (fn v : Nat) : (s.raiseMsi fn v).flakyLines = s.flakyLines := by
  obtain h | ⟨f, h⟩ | ⟨o, h⟩ := s.raiseMsi_cases fn v <;> simp only [h, State.setFn]
@[simp] theorem State.raiseMsi_badNodes (s : State) (fn v : Nat) : (s.raiseMsi fn v).badNodes = s.badNodes := by
  obtain h | ⟨f, h⟩ | ⟨o, h⟩ := s.raiseMsi_cases fn v <;> simp only [h, State.setFn]
@[simp] theorem State.raiseMsi_flakyNodes (s : State) (fn v : Nat) : (s.raiseMsi fn v).flakyNodes = s.flakyNodes := by
  obtain h | ⟨f, h⟩ | ⟨o, h⟩ := s.raiseMsi_cases fn v <;> simp only [h, State.setFn]
@[simp] theorem State.raiseMsi_frames (s : State) (fn v : Nat) : (s.raiseMsi fn v).frames = s.frames := by
  obtain h | ⟨f, h⟩ | ⟨o, h⟩ := s.raiseMsi_cases fn v <;> simp only [h, State.setFn]
@[simp] theorem State.raiseMsi_withdrawn (s : State) (fn v : Nat) : (s.raiseMsi fn v).withdrawn = s.withdrawn := by
  obtain h | ⟨f, h⟩ | ⟨o, h⟩ := s.raiseMsi_cases fn v <;> simp only [h, State.setFn]
@[simp] theorem State.raiseMsi_withdrawnBlocks (s : State) (fn v : Nat) : (s.raiseMsi fn v).withdrawnBlocks = s.withdrawnBlocks := by
  obtain h | ⟨f, h⟩ | ⟨o, h⟩ := s.raiseMsi_cases fn v <;> simp only [h, State.setFn]
@[simp] theorem State.raiseMsi_windows (s : State) (fn v : Nat) : (s.raiseMsi fn v).windows = s.windows := by
  obtain h | ⟨f, h⟩ | ⟨o, h⟩ := s.raiseMsi_cases fn v <;> simp only [h, State.setFn]
@[simp] theorem State.raiseMsi_bolts (s : State) (fn v : Nat) : (s.raiseMsi fn v).bolts = s.bolts := by
  obtain h | ⟨f, h⟩ | ⟨o, h⟩ := s.raiseMsi_cases fn v <;> simp only [h, State.setFn]
@[simp] theorem State.raiseMsi_tiles (s : State) (fn v : Nat) : (s.raiseMsi fn v).tiles = s.tiles := by
  obtain h | ⟨f, h⟩ | ⟨o, h⟩ := s.raiseMsi_cases fn v <;> simp only [h, State.setFn]
@[simp] theorem State.raiseMsi_drapers (s : State) (fn v : Nat) : (s.raiseMsi fn v).drapers = s.drapers := by
  obtain h | ⟨f, h⟩ | ⟨o, h⟩ := s.raiseMsi_cases fn v <;> simp only [h, State.setFn]
@[simp] theorem State.raiseMsi_images (s : State) (fn v : Nat) : (s.raiseMsi fn v).images = s.images := by
  obtain h | ⟨f, h⟩ | ⟨o, h⟩ := s.raiseMsi_cases fn v <;> simp only [h, State.setFn]
@[simp] theorem State.raiseMsi_bankWaits (s : State) (fn v : Nat) : (s.raiseMsi fn v).bankWaits = s.bankWaits := by
  obtain h | ⟨f, h⟩ | ⟨o, h⟩ := s.raiseMsi_cases fn v <;> simp only [h, State.setFn]
@[simp] theorem State.raiseMsi_regions (s : State) (fn v : Nat) : (s.raiseMsi fn v).regions = s.regions := by
  obtain h | ⟨f, h⟩ | ⟨o, h⟩ := s.raiseMsi_cases fn v <;> simp only [h, State.setFn]
@[simp] theorem State.raiseMsi_spoiled (s : State) (fn v : Nat) : (s.raiseMsi fn v).spoiled = s.spoiled := by
  obtain h | ⟨f, h⟩ | ⟨o, h⟩ := s.raiseMsi_cases fn v <;> simp only [h, State.setFn]
@[simp] theorem State.raiseMsi_versWaits (s : State) (fn v : Nat) : (s.raiseMsi fn v).versWaits = s.versWaits := by
  obtain h | ⟨f, h⟩ | ⟨o, h⟩ := s.raiseMsi_cases fn v <;> simp only [h, State.setFn]
@[simp] theorem State.raiseMsi_fullerWaits (s : State) (fn v : Nat) : (s.raiseMsi fn v).fullerWaits = s.fullerWaits := by
  obtain h | ⟨f, h⟩ | ⟨o, h⟩ := s.raiseMsi_cases fn v <;> simp only [h, State.setFn]
@[simp] theorem State.raiseMsi_btbs (s : State) (fn v : Nat) : (s.raiseMsi fn v).btbs = s.btbs := by
  obtain h | ⟨f, h⟩ | ⟨o, h⟩ := s.raiseMsi_cases fn v <;> simp only [h, State.setFn]
@[simp] theorem State.raiseMsi_fabric (s : State) (fn v : Nat) : (s.raiseMsi fn v).fabric = s.fabric := by
  obtain h | ⟨f, h⟩ | ⟨o, h⟩ := s.raiseMsi_cases fn v <;> simp only [h, State.setFn]
@[simp] theorem State.raiseMsi_svc (s : State) (fn v : Nat) : (s.raiseMsi fn v).svc = s.svc := by
  obtain h | ⟨f, h⟩ | ⟨o, h⟩ := s.raiseMsi_cases fn v <;> simp only [h, State.setFn]
@[simp] theorem State.raiseMsi_parts (s : State) (fn v : Nat) : (s.raiseMsi fn v).parts = s.parts := by
  obtain h | ⟨f, h⟩ | ⟨o, h⟩ := s.raiseMsi_cases fn v <;> simp only [h, State.setFn]
@[simp] theorem State.raiseMsi_host (s : State) (fn v : Nat) : (s.raiseMsi fn v).host = s.host := by
  obtain h | ⟨f, h⟩ | ⟨o, h⟩ := s.raiseMsi_cases fn v <;> simp only [h, State.setFn]
@[simp] theorem State.raiseMsi_sealEng (s : State) (fn v : Nat) : (s.raiseMsi fn v).sealEng = s.sealEng := by
  obtain h | ⟨f, h⟩ | ⟨o, h⟩ := s.raiseMsi_cases fn v <;> simp only [h, State.setFn]
@[simp] theorem State.raiseMsi_front (s : State) (fn v : Nat) : (s.raiseMsi fn v).front = s.front := by
  obtain h | ⟨f, h⟩ | ⟨o, h⟩ := s.raiseMsi_cases fn v <;> simp only [h, State.setFn]
@[simp] theorem State.raiseMsi_scriv (s : State) (fn v : Nat) : (s.raiseMsi fn v).scriv = s.scriv := by
  obtain h | ⟨f, h⟩ | ⟨o, h⟩ := s.raiseMsi_cases fn v <;> simp only [h, State.setFn]
@[simp] theorem State.raiseMsi_scrivCount (s : State) (fn v : Nat) : (s.raiseMsi fn v).scrivCount = s.scrivCount := by
  obtain h | ⟨f, h⟩ | ⟨o, h⟩ := s.raiseMsi_cases fn v <;> simp only [h, State.setFn]
@[simp] theorem State.raiseMsi_lineCtrs (s : State) (fn v : Nat) : (s.raiseMsi fn v).lineCtrs = s.lineCtrs := by
  obtain h | ⟨f, h⟩ | ⟨o, h⟩ := s.raiseMsi_cases fn v <;> simp only [h, State.setFn]
@[simp] theorem State.raiseMsi_nodeCtrs (s : State) (fn v : Nat) : (s.raiseMsi fn v).nodeCtrs = s.nodeCtrs := by
  obtain h | ⟨f, h⟩ | ⟨o, h⟩ := s.raiseMsi_cases fn v <;> simp only [h, State.setFn]
@[simp] theorem State.raiseMsi_treeRoots (s : State) (fn v : Nat) : (s.raiseMsi fn v).treeRoots = s.treeRoots := by
  obtain h | ⟨f, h⟩ | ⟨o, h⟩ := s.raiseMsi_cases fn v <;> simp only [h, State.setFn]
@[simp] theorem State.raiseMsi_aon (s : State) (fn v : Nat) : (s.raiseMsi fn v).aon = s.aon := by
  obtain h | ⟨f, h⟩ | ⟨o, h⟩ := s.raiseMsi_cases fn v <;> simp only [h, State.setFn]
@[simp] theorem State.raiseMsi_clock (s : State) (fn v : Nat) : (s.raiseMsi fn v).clock = s.clock := by
  obtain h | ⟨f, h⟩ | ⟨o, h⟩ := s.raiseMsi_cases fn v <;> simp only [h, State.setFn]
@[simp] theorem State.raiseMsi_moves (s : State) (fn v : Nat) : (s.raiseMsi fn v).moves = s.moves := by
  obtain h | ⟨f, h⟩ | ⟨o, h⟩ := s.raiseMsi_cases fn v <;> simp only [h, State.setFn]
@[simp] theorem State.raiseMsi_freeCount (s : State) (fn v : Nat) : (s.raiseMsi fn v).freeCount = s.freeCount := by
  obtain h | ⟨f, h⟩ | ⟨o, h⟩ := s.raiseMsi_cases fn v <;> simp only [h, State.setFn]

end Sys2Proof.Machine
end

