-- ==== Sys2Proof/Laws/Strand.lean ====
section
/-! SUPPORT. Laws of the small containers (vectors, association lists) and of the strand's accessors: what each reads after
an update. -/

namespace Sys2Proof.Machine

/-! ## Vectors and association lists -/

theorem vget_vput {α : Type} {n : Nat} (v : Vector α n) (i j : Nat) (x d : α) :
    vget (vput v i x) j d = if j = i ∧ i < n then x else vget v j d := by
  unfold vget vput
  simp only [Vector.setIfInBounds, Array.getD_eq_getD_getElem?, Array.getElem?_setIfInBounds, Vector.size_toArray]
  by_cases h : i = j
  · subst h
    by_cases h2 : i < n
    · simp [h2]
    · simp [h2]
  · simp [h, Ne.symm h]

@[simp] theorem vget_vput_same {α : Type} {n : Nat} (v : Vector α n) (i : Nat) (x d : α) (h : i < n) :
    vget (vput v i x) i d = x := by simp [vget_vput, h]

theorem vget_vput_ne {α : Type} {n : Nat} (v : Vector α n) (i j : Nat) (x d : α) (h : j ≠ i) :
    vget (vput v i x) j d = vget v j d := by simp [vget_vput, h]

@[simp] theorem vget_replicate {α : Type} (n i : Nat) (x d : α) :
    vget (Vector.replicate n x) i d = if i < n then x else d := by
  unfold vget
  by_cases h : i < n <;> simp [h]

theorem genFrom_getElem? {α : Type} (n lo i : Nat) (f : Nat → α) :
    (genFrom n lo f)[i]? = if i < n then some (f (lo + i)) else none := by
  induction n generalizing lo i with
  | zero => simp [genFrom]
  | succ n ih =>
    cases i with
    | zero => simp [genFrom]
    | succ i => simp [genFrom, ih, Nat.add_assoc, Nat.add_comm 1]

theorem vget_vecGen {α : Type} (n i : Nat) (f : Nat → α) (d : α) :
    vget (vecGen n f) i d = if i < n then f i else d := by
  unfold vget vecGen
  simp only [Array.getD_eq_getD_getElem?, List.getElem?_toArray, genFrom_getElem?]
  by_cases h : i < n <;> simp [h]

@[simp] theorem assoc_assocPut_same {α β : Type} [DecidableEq α] (l : List (α × β)) (k : α) (v d : β) :
    assoc (assocPut l k v) k d = v := by
  induction l with
  | nil => simp [assoc, assocPut]
  | cons c rest ih =>
    obtain ⟨a, b⟩ := c
    by_cases h : a = k <;> simp [assoc, assocPut, h, ih]

theorem assoc_assocPut_ne {α β : Type} [DecidableEq α] (l : List (α × β)) (k j : α) (v d : β) (hj : j ≠ k) :
    assoc (assocPut l k v) j d = assoc l j d := by
  induction l with
  | nil => simp [assoc, assocPut, Ne.symm hj]
  | cons c rest ih =>
    obtain ⟨a, b⟩ := c
    by_cases h : a = k
    · subst h; simp [assoc, assocPut, Ne.symm hj]
    · by_cases h2 : a = j
      · subst h2; simp [assoc, assocPut, h]
      · simp [assoc, assocPut, h, h2, ih]

/-! ## Scalar registers -/

theorem Strand.setReg_reg (t : Strand) (d a : Reg) (v : Word) :
    (t.setReg d v).reg a = if a = d ∧ d ≠ 0 then v else t.reg a := by
  by_cases hd : d = 0
  · simp [Strand.setReg, hd]
  by_cases h : a = d
  · subst h
    rw [if_pos ⟨rfl, hd⟩, Strand.setReg, if_neg hd, Strand.reg, if_neg hd]
    exact vget_vput_same _ _ _ _ a.isLt
  · rw [if_neg (fun c => h c.1), Strand.setReg, if_neg hd, Strand.reg, Strand.reg]
    rw [vget_vput_ne _ _ _ _ _ (fun e => h (BitVec.eq_of_toNat_eq e))]

@[simp] theorem Strand.reg_zero (t : Strand) : t.reg 0 = 0 := by simp [Strand.reg]
@[simp] theorem Strand.setReg_zero (t : Strand) (v : Word) : t.setReg 0 v = t := by simp [Strand.setReg]
@[simp] theorem Strand.advance_reg (t : Strand) (n : Word) (a : Reg) : (t.advance n).reg a = t.reg a := rfl

/-! ## Queues -/

@[simp] theorem Strand.queue_setQueue_same (t : Strand) (e : Nat) (q : List Entry) (h : e ≤ 6) :
    (t.setQueue e q).queue e = q := by
  simp [Strand.setQueue, Strand.queue, show e - 1 < 6 by omega]

theorem Strand.queue_setQueue_ne (t : Strand) (e k : Nat) (q : List Entry) (h : k - 1 ≠ e - 1) :
    (t.setQueue e q).queue k = t.queue k := by
  simp [Strand.setQueue, Strand.queue, vget_vput, h]

theorem Strand.queue_of_empty {t : Strand} (h : t.queues = Vector.replicate 6 []) (e : Nat) : t.queue e = [] := by
  simp [Strand.queue, h]

/-! ## Rings, barriers, vector and predicate registers -/

theorem Strand.setRing_ring (t : Strand) (h k : Nat) (r : Ring) :
    (t.setRing h r).ring k = if k = h ∧ h < 16 then r else t.ring k := by
  simp [Strand.setRing, Strand.ring, vget_vput]

theorem Strand.setBar_bar (t : Strand) (g k : Nat) (b : Barrier) :
    (t.setBar g b).bar k = if k = g ∧ g < 16 then b else t.bar k := by
  simp [Strand.setBar, Strand.bar, vget_vput]

theorem Strand.setP_pred (t : Strand) (d : Reg) (k : Nat) (v : BitVec 1024) :
    (t.setP d v).pred k = if k = d.toNat ∧ d.toNat < 8 then v else t.pred k := by
  simp [Strand.setP, Strand.pred, vget_vput]

theorem Strand.setV_velem (t : Strand) (d r : Reg) (e : Nat) (v : VReg) :
    (t.setV d v).velem r e = if r = d ∧ d.toNat < 16 then vget v e 0 else t.velem r e := by
  simp only [Strand.setV, Strand.velem, vget_vput]
  by_cases h : r = d
  · subst h; by_cases h2 : r.toNat < 16 <;> simp [h2]
  · have : r.toNat ≠ d.toNat := fun e => h (BitVec.eq_of_toNat_eq e)
    simp [h, this]

theorem Strand.setElem_velem (t : Strand) (d r : Reg) (k e : Nat) (x : Elem) (hk : k < 1024) :
    (t.setElem d k x).velem r e = if r = d ∧ d.toNat < 16 ∧ e = k then x else t.velem r e := by
  simp only [Strand.setElem, Strand.setV_velem, vget_vput]
  by_cases h : r = d
  · subst h
    by_cases h2 : r.toNat < 16
    · by_cases h3 : e = k
      · simp [h2, h3, hk]
      · simp [h2, h3, Strand.velem]
    · simp [h2]
  · simp [h]

end Sys2Proof.Machine
end

