-- ==== Sys2Proof/Laws/Home.lean ====
section
/-! SUPPORT. What a write at its home does, once for all who write: which parts of the device it changes, the canonical form of
memory, and the bytes that are read afterwards. -/

namespace Sys2Proof.Machine

/-! ## What is changed -/

@[simp] theorem State.OnlyMemory.refl (s : State) : s.OnlyMemory s := rfl

theorem State.OnlyMemory.trans {s t u : State} (h1 : s.OnlyMemory t) (h2 : t.OnlyMemory u) : s.OnlyMemory u := by
  unfold State.OnlyMemory at *
  rw [h2, h1]

theorem State.OnlyMemory.st {s t : State} (h : s.OnlyMemory t) : t.st = s.st := by rw [h]
theorem State.OnlyMemory.others {s t : State} (h : s.OnlyMemory t) : t.others = s.others := by rw [h]
theorem State.OnlyMemory.frames {s t : State} (h : s.OnlyMemory t) : t.frames = s.frames := by rw [h]
theorem State.OnlyMemory.tiles {s t : State} (h : s.OnlyMemory t) : t.tiles = s.tiles := by rw [h]
theorem State.OnlyMemory.moves {s t : State} (h : s.OnlyMemory t) : t.moves = s.moves := by rw [h]

theorem State.writeLine_only (s : State) (pa : Nat) (bs : List Byte) : s.OnlyMemory (s.writeLine pa bs) := by
  simp only [State.writeLine, State.OnlyMemory]
  split
  · rfl
  · split
    · rfl
    · split <;> rfl

theorem State.foldl_only {α : Type} (l : List α) (f : State → α → State) (hf : ∀ (s : State) a, s.OnlyMemory (f s a)) (s : State) :
    s.OnlyMemory (l.foldl f s) := by
  induction l generalizing s with
  | nil => rfl
  | cons a rest ih => exact (hf s a).trans (ih (f s a))

theorem State.narrow_only (s : State) (x : List Narrow) : s.OnlyMemory { s with narrow := x } := rfl

theorem State.setFn_only (s : State) (n : Nat) (f : Fn) : s.OnlyMemory (s.setFn n f) := rfl

theorem State.lines_only (s : State) (l : List (Nat × List Byte)) :
    s.OnlyMemory (l.foldl (fun s c => s.writeLine c.1 c.2) s) :=
  State.foldl_only l (fun s c => s.writeLine c.1 c.2) (fun s c => s.writeLine_only c.1 c.2) s

theorem State.writeHome_only (s : State) (pa : Nat) (bs : List Byte) : s.OnlyMemory (s.writeHome pa bs) :=
  (s.narrow_only _).trans (State.lines_only _ _)

theorem State.writeHomeNat_only (s : State) (pa n x : Nat) : s.OnlyMemory (s.writeHomeNat pa n x) :=
  s.writeHome_only pa _

theorem State.setEntryBit_only (s : State) (pa i : Nat) : s.OnlyMemory (s.setEntryBit pa i) := by
  simp only [State.setEntryBit]
  split
  · rfl
  · exact s.writeHomeNat_only _ _ _

theorem State.markDirty_only (s : State) (fn ipa : Nat) : s.OnlyMemory (s.markDirty fn ipa) := by
  unfold State.markDirty
  dsimp only
  split
  · exact State.OnlyMemory.refl s
  · split
    · exact State.setFn_only _ _ _
    · exact State.setEntryBit_only _ _ _

theorem State.markUsed_only (s : State) (x : Xlat) (w : Bool) : s.OnlyMemory (s.markUsed x w) := by
  have h1 : s.OnlyMemory (x.visited.foldl (fun s v => s.setEntryBit v.pa 8) s) :=
    State.foldl_only x.visited (fun s v => s.setEntryBit v.pa 8) (fun s v => s.setEntryBit_only v.pa 8) s
  simp only [State.markUsed]
  split
  · split
    · split
      · exact h1.trans ((State.setEntryBit_only _ _ _).trans (State.setEntryBit_only _ _ _))
      · exact h1.trans (State.setEntryBit_only _ _ _)
    · exact h1
  · exact h1

theorem State.noteHeld_only (s : State) (slot va pa : Nat) : s.OnlyMemory (s.noteHeld slot va pa) := by
  unfold State.noteHeld
  split
  · split
    · exact s.markUsed_only _ _
    · exact .refl _
  · exact .refl _

theorem State.performStore_only (s : State) (sc : Nat) (x : PlainStore) : s.OnlyMemory (s.performStore sc x) := by
  have h1 : ∀ s : State, s.OnlyMemory (match x.track with | some (fn, ipa) => s.markDirty fn ipa | none => s) := by
    intro s; split
    · exact s.markDirty_only _ _
    · rfl
  simp only [State.performStore]
  split
  · exact (h1 s).trans (State.writeHome_only _ _ _)
  · exact (h1 s).trans ((State.lines_only _ _).trans (State.narrow_only _ _))

theorem State.publishStore_only (s : State) (sc : Nat) (x : PlainStore) : s.OnlyMemory (s.publishStore sc x) := by
  simp only [State.publishStore]
  split
  · exact s.performStore_only _ _
  · rfl

/-- What a tile's lines become changes nothing else. -/
theorem State.updateL1_eq (s : State) (sc : Nat) (x : PlainStore) : s.updateL1 sc x = { s with tiles := (s.updateL1 sc x).tiles } :=
  rfl

/-- A close changes memory, of the strand only its stores, and the lines of its tile's L1. -/
theorem State.close_only (s : State) (sc : Nat) :
    ({ s with st := { s.st with stores := (s.close sc).st.stores }, tiles := (s.close sc).tiles } : State).OnlyMemory
      (s.close sc) := by
  have hu : ∀ (l : List PlainStore) (s : State), l.foldl (fun s x => s.updateL1 sc x) s =
      { s with tiles := (l.foldl (fun s x => s.updateL1 sc x) s).tiles } := by
    intro l
    induction l with
    | nil => intro s; rfl
    | cons a rest ih => intro s; rw [List.foldl_cons, ih, State.updateL1_eq s sc a]
  have hp := State.foldl_only (s.st.stores.filter (PlainStore.due sc)) (fun s x => s.publishStore sc x)
    (fun s' x => s'.publishStore_only sc x) s
  unfold State.close
  dsimp only
  rw [hu]
  unfold State.OnlyMemory at *
  dsimp only
  rw [hp]

/-! ## The canonical form -/

theorem State.writeLine_wf {s : State} (h : s.mem.wf = true) (pa : Nat) (bs : List Byte) :
    (s.writeLine pa bs).mem.wf = true := by
  simp only [State.writeLine]
  split
  · exact h
  · split
    · exact h
    · split <;> exact Mem.wf_writeBytes h _ _

theorem State.foldl_wf {α : Type} (l : List α) (f : State → α → State)
    (hf : ∀ s a, s.mem.wf = true → (f s a).mem.wf = true) {s : State} (h : s.mem.wf = true) :
    (l.foldl f s).mem.wf = true := by
  induction l generalizing s with
  | nil => exact h
  | cons a rest ih => exact ih (hf s a h)

theorem State.writeHome_wf {s : State} (h : s.mem.wf = true) (pa : Nat) (bs : List Byte) :
    (s.writeHome pa bs).mem.wf = true :=
  State.foldl_wf _ _ (fun _ _ h => State.writeLine_wf h _ _) h

theorem State.writeHomeNat_wf {s : State} (h : s.mem.wf = true) (pa n x : Nat) :
    (s.writeHomeNat pa n x).mem.wf = true := State.writeHome_wf h pa _

theorem State.setEntryBit_wf {s : State} (h : s.mem.wf = true) (pa i : Nat) : (s.setEntryBit pa i).mem.wf = true := by
  simp only [State.setEntryBit]
  split
  · exact h
  · exact State.writeHomeNat_wf h _ _ _

theorem State.markDirty_wf {s : State} (h : s.mem.wf = true) (fn ipa : Nat) : (s.markDirty fn ipa).mem.wf = true := by
  simp only [State.markDirty]
  split
  · exact h
  · split
    · exact h
    · exact State.setEntryBit_wf h _ _

theorem State.performStore_wf {s : State} (h : s.mem.wf = true) (sc : Nat) (x : PlainStore) :
    (s.performStore sc x).mem.wf = true := by
  have h1 : (match x.track with | some (fn, ipa) => s.markDirty fn ipa | none => s).mem.wf = true := by
    split
    · exact State.markDirty_wf h _ _
    · exact h
  simp only [State.performStore]
  split
  · exact State.writeHome_wf h1 _ _
  · exact State.foldl_wf _ _ (fun _ _ h => State.writeLine_wf h _ _) h1

theorem State.close_wf {s : State} (h : s.mem.wf = true) (sc : Nat) : (s.close sc).mem.wf = true := by
  have h1 : ((s.st.stores.filter (PlainStore.due sc)).foldl (fun s x => s.publishStore sc x) s).mem.wf = true := by
    refine State.foldl_wf _ _ (fun s x h => ?_) h
    simp only [State.publishStore]
    split
    · exact State.performStore_wf h _ _
    · exact h
  exact State.foldl_wf _ (fun s x => s.updateL1 sc x) (fun _ _ h => h) h1

/-! ## The bytes -/

theorem Mem.writeBytes_append (m : Mem) (a : Nat) (l r : List Byte) :
    m.writeBytes a (l ++ r) = (m.writeBytes a l).writeBytes (a + l.length) r := by
  induction l generalizing m a with
  | nil => rfl
  | cons b rest ih =>
    simp only [List.cons_append, Mem.writeBytes, ih, List.length_cons]
    rw [show a + 1 + rest.length = a + (rest.length + 1) by omega]

/-! ## Counters of a line and its path (R506) -/

theorem treePath_le {line : Nat} : ∀ {n k : Nat} {x : Nat × Nat}, x ∈ treePath line n k → k ≤ x.1 := by
  intro n
  induction n with
  | zero => intro k x h; simp [treePath] at h
  | succ n ih =>
    intro k x h
    simp only [treePath, List.mem_cons] at h
    rcases h with rfl | h
    · exact Nat.le_refl _
    · have := ih h; omega

theorem treePath_nodup (line : Nat) : ∀ n k : Nat, (treePath line n k).Nodup := by
  intro n
  induction n with
  | zero => intro k; exact List.nodup_nil
  | succ n ih =>
    intro k
    simp only [treePath, List.nodup_cons]
    refine ⟨fun h => ?_, ih _⟩
    have := treePath_le h
    omega

theorem assoc_assocPut_le {α : Type} [DecidableEq α] (l : List (α × Nat)) (a k : α) :
    assoc (assocPut l a (assoc l a 0 + 1)) k 0 ≤ assoc l k 0 + 1 := by
  by_cases h : k = a
  · subst h; rw [assoc_assocPut_same]
  · rw [assoc_assocPut_ne _ _ _ _ _ h]; omega

theorem bumpAll_other (ks : List (Nat × Nat)) (l : List ((Nat × Nat) × Nat)) {k : Nat × Nat} (h : k ∉ ks) :
    assoc (bumpAll l ks) k 0 = assoc l k 0 := by
  induction ks generalizing l with
  | nil => rfl
  | cons a rest ih =>
    simp only [List.mem_cons, not_or] at h
    simp only [bumpAll, List.foldl_cons]
    rw [show ∀ m, List.foldl (fun l k => assocPut l k (assoc l k 0 + 1)) m rest = bumpAll m rest from fun _ => rfl, ih _ h.2,
      assoc_assocPut_ne _ _ _ _ _ h.1]

theorem bumpAll_le (ks : List (Nat × Nat)) (l : List ((Nat × Nat) × Nat)) (hn : ks.Nodup) (k : Nat × Nat) :
    assoc (bumpAll l ks) k 0 ≤ assoc l k 0 + 1 := by
  induction ks generalizing l with
  | nil => exact Nat.le_succ _
  | cons a rest ih =>
    obtain ⟨h1, h2⟩ := List.nodup_cons.mp hn
    simp only [bumpAll, List.foldl_cons]
    rw [show ∀ m, List.foldl (fun l k => assocPut l k (assoc l k 0 + 1)) m rest = bumpAll m rest from fun _ => rfl]
    by_cases h : k ∈ rest
    · refine (ih _ h2).trans ?_
      rw [assoc_assocPut_ne _ _ _ _ _ (fun e : k = a => h1 (e ▸ h))]
    · rw [bumpAll_other _ _ h]
      exact assoc_assocPut_le _ _ _

/-- A write of one line raises each counter of another line's path by 1 at most. -/
theorem State.countLine_ctrs (s : State) {line other : Nat} (h : other ≠ line) {n : Nat}
    (hc : ∀ c ∈ s.ctrsOf other, c + (n + 1) < 2 ^ 56) : ∀ c ∈ (s.countLine line).ctrsOf other, c + n < 2 ^ 56 := by
  intro c hm
  simp only [State.ctrsOf, State.countLine, State.pathOf, State.treeLevels, List.mem_cons, List.mem_map] at hm hc
  rcases hm with rfl | rfl | ⟨k, hk, rfl⟩
  · rw [assoc_assocPut_ne _ _ _ _ _ h]
    have := hc _ (Or.inl rfl); omega
  · have h1 := assoc_assocPut_le s.treeRoots (stackOf line) (stackOf other)
    have h2 := hc _ (Or.inr (Or.inl rfl)); omega
  · have h2 := hc _ (Or.inr (Or.inr ⟨k, hk, rfl⟩))
    exact Nat.lt_of_le_of_lt (Nat.add_le_add_right (bumpAll_le _ s.nodeCtrs (treePath_nodup _ _ _) k) n) (by omega)

/-! ## A line that is written -/

/-- A line that is neither poisoned nor at the end of its counters takes the bytes. -/
theorem State.writeLine_mem {s : State} {pa : Nat} (bs : List Byte) (h : s.Stores pa 1) :
    (s.writeLine pa bs).mem = s.mem.writeBytes pa bs := by
  by_cases hd : pa < dramEnd
  · obtain ⟨hp, hc⟩ := h pa (Nat.le_refl _) (by omega) hd
    have h2 : ((s.frameAt pa).sealMode == 2 && s.ctrFull (pa / 64)) = false := by
      by_cases hm : (s.frameAt pa).sealMode = 2
      · simp only [hm, BEq.rfl, Bool.true_and, State.ctrFull, List.any_eq_false, decide_eq_true_eq]
        intro c hcm; have := hc hm c hcm; omega
      · simp [hm]
    simp only [State.writeLine, hd, decide_true, Bool.true_and, hp, Bool.false_and, Bool.false_eq_true, if_false, h2]
    split <;> rfl
  · simp [State.writeLine, hd]

/-- Behind a line that has been written, the rest of the run is stored as well. -/
theorem State.writeLine_stores {s : State} {pa q n p m : Nat} {bs : List Byte} (hq : pa / 64 < q / 64) (h1 : p ≤ q)
    (h2 : q + n ≤ p + m) (hm : n < m) (h : s.Stores p m) : (s.writeLine pa bs).Stores q n := by
  intro a ha1 ha2 ha3
  obtain ⟨hp, hc0⟩ := h a (by omega) (by omega) ha3
  have hc : (s.frameAt a).sealMode = 2 → ∀ c ∈ s.ctrsOf (a / 64), c + (n + 1) < 2 ^ 56 := by
    intro e c hcm; have := hc0 e c hcm; omega
  have hl : a / 64 ≠ pa / 64 := by have := Nat.div_le_div_right (c := 64) ha1; omega
  have hf : (s.writeLine pa bs).frameAt a = s.frameAt a := by
    simp only [State.frameAt, (s.writeLine_only pa bs).frames]
  rw [hf]
  have hc1 : (s.frameAt a).sealMode = 2 → ∀ c ∈ s.ctrsOf (a / 64), c + n < 2 ^ 56 := by
    intro e c hcm; have := hc e c hcm; omega
  simp only [State.writeLine]
  split
  · exact ⟨hp, hc1⟩
  · split
    · refine ⟨?_, hc1⟩
      simp only [State.poisonLine]
      split
      · exact hp
      · simpa [hl] using hp
    · refine ⟨?_, ?_⟩
      · dsimp only
        split
        · split <;> (simp at hp ⊢; intro h; exact absurd h hp)
        · split <;> exact hp
      · intro e
        split
        · exact s.countLine_ctrs hl (hc e)
        · exact hc1 e

theorem State.lines_mem (fuel : Nat) (bs : List Byte) (pa : Nat) (s : State) (hf : bs.length < fuel)
    (h : s.Stores pa bs.length) :
    ((cutLines fuel pa bs).foldl (fun s c => s.writeLine c.1 c.2) s).mem = s.mem.writeBytes pa bs := by
  induction fuel generalizing bs pa s with
  | zero => omega
  | succ n ih =>
    unfold cutLines
    by_cases hb : bs = []
    · subst hb; rfl
    · have hlen : 0 < bs.length := List.length_pos_iff.mpr hb
      have he : bs.isEmpty = false := by simpa using hb
      simp only [he, Bool.false_eq_true, if_false, List.foldl_cons]
      have h0 : s.Stores pa 1 := fun a h1 h2 h3 => ⟨(h a h1 (by omega) h3).1, fun e c hc => by
        have := (h a h1 (by omega) h3).2 e c hc; omega⟩
      by_cases hk : bs.length ≤ 64 - pa % 64
      · have hd : bs.drop (64 - pa % 64) = [] := List.drop_eq_nil_of_le hk
        rw [hd, List.take_of_length_le hk]
        cases n with
        | zero => exact State.writeLine_mem bs h0
        | succ n => exact State.writeLine_mem bs h0
      · have hl : (bs.take (64 - pa % 64)).length = 64 - pa % 64 := by rw [List.length_take]; omega
        rw [ih]
        · rw [State.writeLine_mem _ h0]
          conv => rhs; rw [← List.take_append_drop (64 - pa % 64) bs, Mem.writeBytes_append, hl]
        · rw [List.length_drop]; omega
        · rw [List.length_drop]
          exact State.writeLine_stores (by omega) (Nat.le_add_right _ _) (by omega) (by omega) h

/-- A write whose lines store it puts its bytes into memory. -/
theorem State.writeHome_mem {s : State} {pa : Nat} {bs : List Byte} (h : s.Stores pa bs.length) :
    (s.writeHome pa bs).mem = s.mem.writeBytes pa bs :=
  State.lines_mem (bs.length + 1) bs pa { s with narrow := s.narrow.filter fun n => !(pa ≤ n.pa && n.pa < pa + bs.length) }
    (by omega) h

/-- A write leaves every byte outside it, whatever its lines are. -/
theorem State.writeHome_read_other {s : State} (hw : s.mem.wf = true) (pa : Nat) (bs : List Byte) {a : Nat}
    (ha : a < pa ∨ pa + bs.length ≤ a) : (s.writeHome pa bs).mem.read a = s.mem.read a := by
  have key : ∀ (fuel : Nat) (bs : List Byte) (p : Nat) (s : State), s.mem.wf = true → a < p ∨ p + bs.length ≤ a →
      ((cutLines fuel p bs).foldl (fun s c => s.writeLine c.1 c.2) s).mem.read a = s.mem.read a := by
    intro fuel
    induction fuel with
    | zero => intro bs p s _ _; rfl
    | succ n ih =>
      intro bs p s hw ha
      unfold cutLines
      split
      · rfl
      · have hl : (bs.take (64 - p % 64)).length ≤ bs.length := by rw [List.length_take]; omega
        have hl2 : (bs.take (64 - p % 64)).length ≤ 64 - p % 64 := by rw [List.length_take]; omega
        have hd : (bs.drop (64 - p % 64)).length = bs.length - (64 - p % 64) := List.length_drop ..
        simp only [List.foldl_cons]
        have h1 : (s.writeLine p (bs.take (64 - p % 64))).mem.read a = s.mem.read a := by
          simp only [State.writeLine]
          split
          · rfl
          · split
            · rfl
            · split <;> exact Mem.read_writeBytes_other hw _ _ (by omega)
        by_cases hk : bs.length ≤ 64 - p % 64
        · have hn : bs.drop (64 - p % 64) = [] := List.drop_eq_nil_of_le hk
          rw [hn]
          cases n with
          | zero => exact h1
          | succ n => exact h1
        · rw [ih _ _ _ (State.writeLine_wf hw _ _) (by omega), h1]
  exact key _ bs pa { s with narrow := _ } hw ha

/-- The bytes that a write stores are read afterwards. -/
theorem State.writeHome_read_same {s : State} (hw : s.mem.wf = true) {pa : Nat} {bs : List Byte}
    (h : s.Stores pa bs.length) {i : Nat} (hi : i < bs.length) : (s.writeHome pa bs).mem.read (pa + i) = bs[i] := by
  rw [State.writeHome_mem h, Mem.read_writeBytes_same hw _ _ hi]

/-! ## Translations that note nothing -/

theorem State.walkPhys_drapers (s : State) (ds : List (Nat × Draper)) (ws : List WalkCached) (slot stage a : Nat) (l : List Nat) :
    ∀ tbl vis, ({ s with drapers := ds } : State).walkPhys ws slot stage a l tbl vis = s.walkPhys ws slot stage a l tbl vis := by
  induction l with
  | nil => exact fun _ _ => rfl
  | cons lvl rest ih =>
    intro tbl vis
    simp only [State.walkPhys, ih]
    rfl

/-- A walk of one stage does not look at the Drapers. -/
theorem State.translate_drapers (s : State) (ds : List (Nat × Draper)) (c : Ctx) (va : Nat) (acc : AccessKind) (h : s.twoStage c = false) :
    ({ s with drapers := ds } : State).translate [] c va acc = s.translate [] c va acc := by
  have h' : ({ s with drapers := ds } : State).twoStage c = false := h
  unfold State.translate
  rw [h, h', State.walkPhys_drapers]
  rfl

/-- A bit that stands is not set again. -/
theorem State.setEntryBit_set (s : State) (pa i : Nat) (h : bit (s.mem.readNat pa 8) i = true) : s.setEntryBit pa i = s := by
  unfold State.setEntryBit
  simp [h]

theorem State.foldl_keeps {α : Type} (s : State) (f : State → α → State) (l : List α) (h : ∀ a ∈ l, f s a = s) : l.foldl f s = s := by
  induction l with
  | nil => rfl
  | cons a l ih => rw [List.foldl_cons, h a (.head _), ih fun b hb => h b (.tail _ hb)]

/-- An access whose bits stand notes nothing. -/
theorem State.markUsed_set (s : State) (x : Xlat) (w : Bool) (h2 : x.two = false) (h : ∀ v ∈ x.visited, bit (s.mem.readNat v.pa 8) 8 = true ∧
    (v.leaf = true → bit (s.mem.readNat v.pa 8) 9 = true)) : s.markUsed x w = s := by
  have hf : x.visited.foldl (fun s v => s.setEntryBit v.pa 8) s = s := State.foldl_keeps s _ _ fun v hv => State.setEntryBit_set _ _ _ (h v hv).1
  simp only [State.markUsed, hf]
  split
  · split
    · rename_i l _ last hl _
      have : l ∈ x.visited.filter fun v => v.leaf && v.stage != 2 := by rw [hl]; exact .head _
      obtain ⟨hm, hv⟩ := List.mem_filter.mp this
      simp only [Bool.and_eq_true] at hv
      rw [h2, State.setEntryBit_set _ _ _ ((h l hm).2 hv.1)]
      rfl
    · rfl
  · rfl

end Sys2Proof.Machine
end

