-- ==== Sys2Proof/Laws/Monad.lean ====
section
/-! SUPPORT. The effect monad of a step, computation by computation: what each of its operations gives. -/

namespace Sys2Proof.Machine

@[simp] theorem M_pure {α : Type} (a : α) (s : State) : (pure a : M α) s = .ok a s := rfl

@[simp] theorem M_bind {α β : Type} (m : M α) (f : α → M β) (s : State) :
    (m >>= f) s = match m s with
      | .ok a t => f a t
      | .error e t => .error e t := by
  show EStateM.bind m f s = _
  unfold EStateM.bind
  cases m s <;> rfl

@[simp] theorem M_map {α β : Type} (f : α → β) (m : M α) (s : State) :
    (f <$> m) s = match m s with
      | .ok a t => .ok (f a) t
      | .error e t => .error e t := by
  show EStateM.map f m s = _
  unfold EStateM.map
  cases m s <;> rfl

theorem M_bind_ok {α β : Type} {m : M α} {f : α → M β} {s t : State} {a : α} (h : m s = .ok a t) : (m >>= f) s = f a t := by
  simp [h]

@[simp] theorem M_get (s : State) : (get : M State) s = .ok s s := rfl
@[simp] theorem M_set (t s : State) : (set t : M PUnit) s = .ok () t := rfl
@[simp] theorem M_modify (f : State → State) (s : State) : (modify f : M PUnit) s = .ok () (f s) := rfl
@[simp] theorem M_modSt (f : Strand → Strand) (s : State) : modSt f s = .ok () { s with st := f s.st } := rfl
@[simp] theorem M_getSt (s : State) : getSt s = .ok s.st s := rfl
@[simp] theorem M_getWork (s : State) : getWork s = .ok s.st.work s := rfl
@[simp] theorem M_modWork (f : Progress → Progress) (s : State) :
    modWork f s = .ok () { s with st := { s.st with work := f s.st.work } } := rfl
@[simp] theorem M_setFlags (f : Flags) (s : State) :
    setFlags f s = .ok () { s with st := { s.st with work := { s.st.work with flags := s.st.work.flags ||| f } } } := rfl
@[simp] theorem M_trap {α : Type} (c : Cause) (k : Nat) (v : Word) (s : State) :
    (trapM c k v : M α) s = .error (.trap ⟨c, k, v⟩) s := rfl
@[simp] theorem M_page {α : Type} (k va : Nat) (s : State) :
    (trapPage k va : M α) s = .error (.trap ⟨.page, k, BitVec.ofNat 64 va⟩) s := rfl
@[simp] theorem M_wait {α : Type} (k n : Nat) (s : State) : (waitM k n : M α) s = .error (.wait k n) s := rfl
@[simp] theorem M_throw {α : Type} (e : Stop) (s : State) : (throw e : M α) s = .error e s := rfl
@[simp] theorem M_freshWord (s : State) :
    freshWord s = .ok (Config.freeWord s.freeCount) { s with freeCount := s.freeCount + 1 } := rfl

@[simp] theorem M_ite {α : Type} (c : Prop) [Decidable c] (a b : M α) (s : State) :
    (if c then a else b) s = if c then a s else b s := by
  split <;> rfl

@[simp] theorem M_loop_zero (lo : Nat) (f : Nat → M Unit) (s : State) : loopM 0 lo f s = .ok () s := rfl
theorem M_loop_succ (n lo : Nat) (f : Nat → M Unit) (s : State) :
    loopM (n + 1) lo f s = match f lo s with
      | .ok _ t => loopM n (lo + 1) f t
      | .error e t => .error e t := by
  rw [loopM, M_bind]; cases f lo s <;> rfl
@[simp] theorem M_each_nil {α : Type} (f : α → M Unit) (s : State) : eachM [] f s = .ok () s := rfl
@[simp] theorem M_each_cons {α : Type} (a : α) (l : List α) (f : α → M Unit) (s : State) :
    eachM (a :: l) f s = match f a s with
      | .ok _ t => eachM l f t
      | .error e t => .error e t := by
  rw [eachM, M_bind]; cases f a s <;> rfl

/-- A loop whose body never stops folds what the body does over the state. -/
theorem M_loop_fold (g : Nat → State → State) (f : Nat → M Unit) (hf : ∀ k s, f k s = .ok () (g k s)) (n lo : Nat) (s : State) :
    loopM n lo f s = .ok () (iterNat n lo g s) := by
  induction n generalizing lo s with
  | zero => rfl
  | succ n ih => rw [M_loop_succ, hf]; exact ih _ _

end Sys2Proof.Machine
end

