-- ==== Sys2Proof/Laws/Access.lean ====
section
/-! SUPPORT. What a translated access that goes through can change, once for all who translate: the caches of the tile, and
memory where accessed, dirty and dirty-bitmap bits stand. -/

namespace Sys2Proof.Machine

/-- From `s` to `t` nothing has changed but what tiles cache and memory at its homes. -/
def State.Accessed (s t : State) : Prop := State.OnlyMemory { s with tiles := t.tiles } t

theorem State.Accessed.refl (s : State) : s.Accessed s := rfl

theorem State.Accessed.trans {s t u : State} (h1 : s.Accessed t) (h2 : t.Accessed u) : s.Accessed u := by
  unfold State.Accessed State.OnlyMemory at *
  rw [h2, h1]

theorem State.Accessed.st {s t : State} (h : s.Accessed t) : t.st = s.st := by rw [h]
theorem State.Accessed.others {s t : State} (h : s.Accessed t) : t.others = s.others := by rw [h]
theorem State.Accessed.frames {s t : State} (h : s.Accessed t) : t.frames = s.frames := by rw [h]
theorem State.Accessed.moves {s t : State} (h : s.Accessed t) : t.moves = s.moves := by rw [h]

theorem State.OnlyMemory.accessed {s t : State} (h : s.OnlyMemory t) : s.Accessed t := by
  have ht : t.tiles = s.tiles := h.tiles
  unfold State.Accessed
  rw [ht]
  exact h

theorem State.modHere_accessed (s : State) (f : TileCache → TileCache) : s.Accessed (s.modHere f) := rfl

/-! ## Actions that change nothing where they go through -/

/-- Where the action goes through, the state is as it was. -/
def Reads {α : Type} (m : M α) : Prop := ∀ s a t, m s = .ok a t → t = s

theorem Reads.pure {α : Type} (a : α) : Reads (Pure.pure a : M α) := fun _ _ _ h => by cases h; rfl
theorem Reads.get : Reads (MonadState.get : M State) := fun _ _ _ h => by cases h; rfl
theorem Reads.throw {α : Type} (e : Stop) : Reads (MonadExcept.throw e : M α) := fun _ _ _ h => by cases h
theorem Reads.trap {α : Type} (c : Cause) (k : Nat) (v : Word) : Reads (trapM c k v : M α) := Reads.throw _
theorem Reads.page {α : Type} (k va : Nat) : Reads (trapPage k va : M α) := Reads.throw _
theorem Reads.wait {α : Type} (k n : Nat) : Reads (waitM k n : M α) := Reads.throw _

theorem Reads.bind {α β : Type} {m : M α} {f : α → M β} (h1 : Reads m) (h2 : ∀ a, Reads (f a)) : Reads (m >>= f) := by
  intro s b t h
  rw [M_bind] at h
  split at h
  · rename_i a u hm
    rw [h2 a _ _ _ h, h1 _ _ _ hm]
  · cases h

theorem Reads.ite {α : Type} {c : Prop} [Decidable c] {m n : M α} (h1 : Reads m) (h2 : Reads n) : Reads (if c then m else n) := by
  split <;> assumption

theorem Reads.park {α : Type} (fn eng slot va ipa lvl kind a : Nat) : Reads (parkAccess fn eng slot va ipa lvl kind a : M α) :=
  fun _ _ _ h => by simp [parkAccess] at h

theorem hitAccess_reads (c : Tlb) (eng slot va : Nat) (acc : AccessKind) : Reads (hitAccess c eng slot va acc) := by
  unfold hitAccess
  repeat' first
    | with_reducible exact .get
    | with_reducible exact .pure _
    | with_reducible exact .page _ _
    | with_reducible exact .park ..
    | with_reducible refine .bind ?_ fun _ => ?_
    | dsimp only
    | split

/-- An access that is located has changed nothing yet. -/
theorem locate_reads (eng slot va : Nat) (acc : AccessKind) : Reads (locate eng slot va acc) := by
  unfold locate
  refine .bind .get fun s => ?_
  dsimp only
  split
  · exact fun _ _ _ h => by simp at h
  · repeat' first
      | with_reducible exact .get
      | with_reducible exact .pure _
      | with_reducible exact .page _ _
      | with_reducible exact .wait _ _
      | with_reducible exact .trap ..
      | with_reducible exact .park ..
      | with_reducible exact hitAccess_reads ..
      | with_reducible refine .bind ?_ fun _ => ?_
      | dsimp only
      | split

/-- A failure that reports another value is a failure all the same. -/
theorem sealedAs_reads {α : Type} (tval : Nat) {m : M α} (h : Reads m) : Reads (sealedAs tval m) := by
  intro s a t ht
  simp only [sealedAs] at ht
  split at ht
  · cases ht
  · exact h s a t ht

/-! ## What an access does -/

/-- Where the action goes through, it has changed what tiles cache and memory at its homes, and nothing else. -/
def Accesses {α : Type} (m : M α) : Prop := ∀ s a t, m s = .ok a t → s.Accessed t

theorem Reads.accesses {α : Type} {m : M α} (h : Reads m) : Accesses m := fun s a t ht => by rw [h s a t ht]; exact .refl s

theorem Accesses.bind {α β : Type} {m : M α} {f : α → M β} (h1 : Accesses m) (h2 : ∀ a, Accesses (f a)) : Accesses (m >>= f) := by
  intro s b t h
  rw [M_bind] at h
  split at h
  · rename_i a u hm
    exact (h1 _ _ _ hm).trans (h2 a _ _ _ h)
  · cases h

theorem noteDirty_accesses (eng : Nat) (acc : AccessKind) (m : Mapped) : Accesses (noteDirty eng acc m) := by
  unfold noteDirty
  split
  · exact fun s _ _ h => by cases h; exact (s.markDirty_only _ _).accessed
  · exact (Reads.pure _).accesses

/-- Making a located access. -/
theorem use_accesses (l : Located) : Accesses l.use := by
  unfold Located.use
  repeat' first
    | with_reducible exact (Reads.pure _).accesses
    | with_reducible exact (Reads.park ..).accesses
    | with_reducible exact noteDirty_accesses ..
    | exact fun s _ _ h => by cases h; exact (s.markUsed_only _ _).accessed
    | exact fun s _ _ h => by cases h; exact s.modHere_accessed _
    | with_reducible refine .bind ?_ fun _ => ?_
    | dsimp only
    | split

theorem sealed_reads (l : Located) (tval : Nat) : Reads (l.sealed tval) := by
  unfold Located.sealed
  split
  · exact .trap _ _ _
  · exact .pure _

/-- An access that goes through, with whatever trap value. -/
theorem mapAt_accesses (eng slot va tval : Nat) (acc : AccessKind) : Accesses (mapAt eng slot va tval acc) :=
  (sealedAs_reads _ (locate_reads _ _ _ _)).accesses.bind fun l => (sealed_reads l tval).accesses.bind fun _ => (use_accesses l).bind fun _ =>
    (Reads.pure _).accesses

theorem mapAccess_accesses (eng slot va : Nat) (acc : AccessKind) : Accesses (mapAccess eng slot va acc) := mapAt_accesses _ _ _ _ _

/-- A located write that may be made has changed nothing yet. -/
theorem ready_reads (l : Located) : Reads l.ready := by
  unfold Located.ready
  repeat' first
    | with_reducible exact .pure _
    | with_reducible exact .park ..
    | dsimp only
    | split

/-- A page that a region may register has changed nothing yet. -/
theorem checkPage_reads (va : Nat) (acc : AccessKind) : Reads (checkPage va acc) := by
  unfold checkPage
  repeat' first
    | with_reducible exact .get
    | with_reducible exact .pure _
    | with_reducible exact .page ..
    | with_reducible exact .trap ..
    | with_reducible exact locate_reads ..
    | with_reducible exact sealed_reads ..
    | with_reducible exact ready_reads _
    | exact fun s _ _ h => by cases h; rfl
    | with_reducible refine .bind ?_ fun _ => ?_
    | dsimp only
    | split

/-- A page of a region, or of its overflow area, is registered. -/
theorem registerPage_accesses (va : Nat) (acc : AccessKind) : Accesses (registerPage va acc) :=
  (checkPage_reads va acc).accesses.bind fun l => (use_accesses l).bind fun _ => (Reads.pure _).accesses

/-- The poison check. -/
theorem checkPoison_reads (pa tval : Nat) : Reads (checkPoison pa tval) := by
  unfold checkPoison
  repeat' first
    | with_reducible exact .get
    | with_reducible exact .pure _
    | with_reducible exact .trap ..
    | with_reducible refine .bind ?_ fun _ => ?_
    | split

/-! ## The front end's accesses -/

theorem collectM_reads {α β : Type} (l : List α) {f : α → M β} (h : ∀ a, Reads (f a)) : Reads (collectM l f) := by
  induction l with
  | nil => exact .pure _
  | cons a l ih => exact .bind (h a) fun _ => .bind ih fun _ => .pure _

/-- Locating what an access of the front end reaches changes nothing. -/
theorem frontLocate_reads (va n : Nat) (acc : AccessKind) : Reads (frontLocate va n acc) :=
  .bind (fun _ _ _ h => by cases h; rfl) fun _ => collectM_reads _ fun p =>
    .bind (sealedAs_reads p.1 (locate_reads _ _ _ _)) fun l => .bind (sealed_reads l p.1) fun _ => .bind (ready_reads l) fun _ => .pure _

end Sys2Proof.Machine
end

