-- ==== Sys2Proof/Laws/Engine.lean ====
section
/-! SUPPORT. What steering comes to, and what an engine word that is performed at once comes to. -/

namespace Sys2Proof.Machine

/-- A word that is steered does what its body says. -/
theorem steer_ok {i : Instr} {p : Prefixes} {s : State} (h : Steers i p s) (body : Prefixes → State → State) :
    steer i s body = .next (body p s) := by
  obtain ⟨h1, h2, h3⟩ := h
  simp [steer, h1, h2, Nat.not_le.mpr h3]

/-- Steering ends in a next state, wherever a strand runs. -/
theorem steer_next {i : Instr} {s : State} (h : s.st.life ≠ .gone) (body : Prefixes → State → State) :
    ∃ t, steer i s body = .next t := by
  unfold steer
  rw [if_neg h]
  split
  · exact ⟨_, rfl⟩
  · split <;> exact ⟨_, rfl⟩

/-- A unit that fails its checks raises the trap that they find. -/
theorem steer_trap {i : Instr} {s : State} {t : TrapInfo} (h : s.st.life ≠ .gone)
    (hc : unitCheck i s.st (s.features s.st.place.fn) = .error t) (body : Prefixes → State → State) :
    steer i s body = .next (s.raise s.st.pc t) := by
  simp [steer, h, hc]

theorem scalarPure_ok {i : Instr} {p : Prefixes} {s : State} (h : Steers i p s) (f : Prefixes → Strand → Strand) :
    scalarPure i s f = .next (s.did (f p)) := by
  rw [scalarPure, steer_ok h]; rfl

theorem scalarJump_ok {i : Instr} {p : Prefixes} {s : State} (h : Steers i p s) (f : Prefixes → Strand → Strand × Word) :
    scalarJump i s f = .next { s with st := (f p s.st).1.advance (f p s.st).2 } := by
  rw [scalarJump, steer_ok h]

/-- A scalar word that neither waits nor traps. -/
theorem scalarM_ok {i : Instr} {p : Prefixes} {s t : State} {n : Option Word} (h : Steers i p s)
    {f : Prefixes → M (Option Word)} (hf : f p s = .ok n t) :
    scalarM i s f = .next { t with st := t.st.advance (n.getD s.st.nextAddr) } := by
  rw [scalarM, steer_ok h, hf]

/-- A scalar word that traps. -/
theorem scalarM_trap {i : Instr} {p : Prefixes} {s t : State} {c : TrapInfo} (h : Steers i p s)
    {f : Prefixes → M (Option Word)} (hf : f p s = .error (.trap c) t) :
    scalarM i s f = .next (t.raise s.st.pc c) := by
  rw [scalarM, steer_ok h, hf]

/-- A scalar word that waits. -/
theorem scalarM_wait {i : Instr} {p : Prefixes} {s t : State} {k n : Nat} (h : Steers i p s)
    {f : Prefixes → M (Option Word)} (hf : f p s = .error (.wait k n) t) :
    scalarM i s f = .next (t.holdUnit k n) := by
  rw [scalarM, steer_ok h, hf]

/-! ## Engine words that are performed at once -/

/-- An engine word without the prefix of R74 that is neither a joined word nor a loop word begins in this state: its unit is
steered and its entry stands in the queue of its engine. -/
def State.plainBegun (s : State) (i : Instr) (p : Prefixes) : State :=
  { s with st := { s.st.advance s.st.nextAddr with
    queues := vput (Vector.replicate 6 []) (i.engine - 1) [{ mkEntry i p s.st with prog := Progress.fresh }]
    work := startProgress i s.st } }

/-- What is left of the strand when such a word is performed in `r`: its queue is empty, and its flags are set (R143). -/
def Strand.endWord (t : Strand) : Strand :=
  { t with queues := Vector.replicate 6 [], work := Progress.fresh, csr := { t.csr with flags := t.csr.flags ||| t.work.flags } }

theorem vput_vput {α : Type} {n : Nat} (v : Vector α n) (i : Nat) (x y : α) : vput (vput v i x) i y = vput v i y := by
  unfold vput
  simp

theorem vput_replicate {α : Type} (n i : Nat) (x : α) : vput (Vector.replicate n x) i x = Vector.replicate n x := by
  unfold vput
  simp

theorem startProgress_started (i : Instr) (t : Strand) : (startProgress i t).started = false := by
  unfold startProgress; split <;> rfl

theorem queueDepth_pos (e : Nat) : 0 < queueDepth e := by
  unfold queueDepth; split <;> decide

theorem Entry.isJoin_of_engine {x : Entry} (h : 1 ≤ x.word.engine) : x.isJoin = false := by
  obtain ⟨_, _, w, _, _, _, _, _, _, _, _, _⟩ := x
  cases w <;> first | rfl | exact absurd (show 1 ≤ 0 from h) (by decide)

/-- A word of another engine than 1 does not wait for the queries of an attention word. -/
theorem Strand.queriesAwait_empty {t : Strand} (h : t.queue 5 = []) (x : Entry) : t.queriesAwait x = false := by
  unfold Strand.queriesAwait; split
  · rfl
  · simp [h]

/-- The one entry of an engine's queue is performed whole. -/
theorem State.moveEngine_one {s s' : State} {e : Nat} {x : Entry} (hq : s.st.queue e = [x]) (hr : s.st.mayRun e = true)
    (hs : s.startsNone e = false) (hj : x.isJoin = false) (hm : x.isMark e = false) (ho : x.open = false)
    (ha : (e == 1 && s.st.queriesAwait x) = false)
    (hx : performEntry x { s with st := { s.st.setEntry e 0 { x with prog := Progress.fresh } with work := x.prog } } =
      .ok () s') : s.moveEngine e = some (s'.performedWord e x.seq) := by
  have ht : s.tryWord e 0 x = some (.moved (s'.performedWord e x.seq)) := by
    simp only [State.tryWord, hj, ha, Bool.or_self, Bool.false_eq_true, if_false, hq, List.getElem?_cons_zero, hx]
  simp only [State.moveEngine, hr, if_true, hq, List.length_cons, List.length_nil, State.moveFrom,
    List.getElem?_cons_zero, hj, hm, hs, Bool.or_self, Bool.false_and, List.all_nil, Bool.not_true, Bool.false_eq_true, if_false,
    State.goEntry, ho, State.goWord, ht]

/-- A word that waits for nothing of the Fuller has no place to give up (R430). -/
theorem State.leaveFuller_free {s : State} {n : Nat}
    (h : ∀ w ∈ s.fullerWaits, w.gang = s.st.place.gang → w.member = s.st.place.member → w.seq ≠ n) : s.leaveFuller n = s := by
  have hf : s.fullerWaits.filter (fun w => !w.isOf s.st.place.gang s.st.place.member n) = s.fullerWaits := by
    rw [List.filter_eq_self]
    intro w hw
    have := h w hw
    simp only [FullerWait.isOf, Bool.not_eq_true', Bool.and_eq_false_iff, beq_eq_false_iff_ne]
    by_cases h1 : w.gang = s.st.place.gang <;> by_cases h2 : w.member = s.st.place.member <;> simp_all
  rw [State.leaveFuller, hf]
  split <;> rfl

theorem Strand.rejoin_empty {s : State} (h : s.st.queues = Vector.replicate 6 []) (hh : s.st.hold = .none) : s.rejoin = s := by
  have h0 : s.st.entryCount = 0 := by rw [Strand.entryCount, h]; rfl
  rw [State.rejoin, h0, Strand.settleJoins, State.settleHold, hh]

/-- The end of a word that stands alone in the queues, is no loop word, is not joined and waits for nothing of the Fuller. -/
theorem State.performedWord_one {r : State} {e : Nat} {y : Entry} (he : 1 ≤ e) (h6 : e ≤ 6)
    (hq : r.st.queues = vput (Vector.replicate 6 []) (e - 1) [y]) (hl : y.isLoop = false) (hh : r.st.hold = .none)
    (hw : ∀ w ∈ r.fullerWaits, w.gang = r.st.place.gang → w.member = r.st.place.member → w.seq ≠ y.seq) :
    r.performedWord e y.seq = { r with st := r.st.endWord } := by
  have q1 : ∀ t : Strand, t.queues = r.st.queues → t.queue e = [y] := by
    intro t ht
    rw [Strand.queue, ht, hq, vget_vput_same _ _ _ _ (by omega)]
  have hfin : ∀ t : Strand, t.queues = r.st.queues → t.finish e 0 = { t with queues := Vector.replicate 6 [] } := by
    intro t ht
    have hd : t.dropEntries e 0 1 = { t with queues := Vector.replicate 6 [] } := by
      simp only [Strand.dropEntries, q1 t ht, List.take_zero, List.drop_one, List.tail_cons, List.nil_append, Nat.zero_add,
        Strand.setQueue, ht, hq, vput_vput, vput_replicate]
    have hn : t.nestOf e 0 = none := rfl
    unfold Strand.finish
    rw [hn, q1 t ht]
    simp only [List.getElem?_cons_zero, hd]
    split
    · have : (({ t with queues := Vector.replicate 6 [] } : Strand).queue 2) = [] := by rw [Strand.queue]; simp
      rw [this]
      simp only [List.filter_nil, Strand.setQueue, vput_replicate]
    · rfl
  obtain ⟨t, hu⟩ : ∃ t : Strand, ({ r.st with
    work := Progress.fresh, csr := { r.st.csr with flags := r.st.csr.flags ||| r.st.work.flags } } : Strand) = t := ⟨_, rfl⟩
  have ht : t.queues = r.st.queues := by rw [← hu]
  have hp : t.placeOf e y.seq = some 0 := by
    rw [Strand.placeOf, q1 t ht]
    simp
  have hd : r.performedWord e y.seq = match t.placeOf e y.seq with
      | none => (({ r with st := t } : State).leaveFuller y.seq).rejoin
      | some j =>
        (({ r with st := if (match (t.queue e)[j]? with | some y => y.isLoop && !y.prog.started | none => false) then
            (match (t.queue e)[j]? with | some y => t.setEntry e j { y with prog := r.st.work } | none => t)
          else t.finish e j } : State).leaveFuller y.seq).rejoin := by
    rw [← hu]; rfl
  rw [hd, hp]
  dsimp only
  rw [q1 t ht]
  simp only [List.getElem?_cons_zero, hl, Bool.false_and, Bool.false_eq_true, if_false]
  rw [hfin t ht, State.leaveFuller_free (by rw [← hu]; exact hw), Strand.rejoin_empty rfl (by rw [← hu]; exact hh), ← hu]
  rfl

/-- A word without the prefix of R74 that is neither a joined word nor a loop word, whose effect is performed without a stop,
is done in the step that steers it. -/
theorem issue_plain {i : Instr} {p : Prefixes} {s r : State} (h : Runs i p s) (h1 : 1 ≤ i.engine) (h6 : i.engine ≤ 6)
    (ho : p.ord = none) (hj : joinsMatrix i s = false) (hl : (mkEntry i p s.st).isLoop = false)
    (hx : performEntry (mkEntry i p s.st) (s.plainBegun i p) = .ok () r) (hq : r.st.queues = (s.plainBegun i p).st.queues)
    (hh : r.st.hold = .none) (hf : r.fullerWaits = s.fullerWaits) (hp : r.st.place = s.st.place) :
    issue i s = .next { r with st := r.st.endWord } := by
  obtain ⟨hs, hq0, -, hfree⟩ := h
  have q0 : ∀ k, s.st.queue k = [] := Strand.queue_of_empty hq0.queues
  rw [issue, steer_ok hs]
  have hfull : ¬ (queueDepth i.engine ≤ (s.st.queue i.engine).length ∨
      (joinsMatrix i s = true ∧ queueDepth 2 ≤ (s.st.queue 2).length)) := by
    have := queueDepth_pos i.engine
    simp only [q0, List.length_nil, hj, Bool.false_eq_true, false_and, or_false]
    omega
  have hb : bankClose p s = .ok () s := by unfold bankClose; rw [ho]; rfl
  have hm : markJoined i p s = s.st := by unfold markJoined; rw [hj]; rfl
  have hc : ∀ t : Strand, t.loopLeft = Vector.replicate 3 0 → t.countBody i i.engine = t := by
    intro t ht
    unfold Strand.countBody
    split
    · rfl
    · dsimp only
      split
      · exact absurd hl (by simp [mkEntry, Entry.isLoop])
      · exact absurd hl (by simp [mkEntry, Entry.isLoop])
      · exact absurd hl (by simp [mkEntry, Entry.isLoop])
      · have : vput t.loopLeft (i.engine - 1) (vget t.loopLeft (i.engine - 1) 0 - 1) = t.loopLeft := by
          rw [ht]
          have : vget (Vector.replicate 3 0) (i.engine - 1) 0 - 1 = 0 := by simp
          rw [this, vput_replicate]
        rw [this]
  have he : bankHold p (s.st.enqueue i p) s.st.steered = { s.st.advance s.st.nextAddr with
      queues := vput (Vector.replicate 6 []) (i.engine - 1) [mkEntry i p s.st] } := by
    have hbh : ∀ t : Strand, bankHold p t s.st.steered = t := by intro t; unfold bankHold; rw [ho]
    rw [hbh, Strand.enqueue]
    dsimp only
    rw [hc _ (by rw [Strand.setQueue_loopLeft, hq0.loops]), q0]
    simp only [Strand.setQueue, Strand.advance, hq0.queues, List.nil_append]
  have hgen : ∀ t : Strand, t = { s.st.advance s.st.nextAddr with
      queues := vput (Vector.replicate 6 []) (i.engine - 1) [mkEntry i p s.st] } →
      ({ s with st := t } : State).moveEngine i.engine = some (r.performedWord i.engine (mkEntry i p s.st).seq) := by
    intro t ht
    have qe : t.queue i.engine = [mkEntry i p s.st] := by
      rw [Strand.queue, ht]
      exact vget_vput_same _ _ _ _ (by omega)
    refine State.moveEngine_one qe ?_ ?_ (Entry.isJoin_of_engine h1) ?_ ?_ ?_ ?_
    · rw [ht]
      show (!(s.st.advance s.st.nextAddr).engHeld.getLsbD _ && _) = true
      unfold Strand.advance
      rw [hq0.held]
      simp [hq0.pend]
    · have h1 : t.pend = none := by rw [ht]; exact hq0.pend
      have h2 : t.life = .active := by rw [ht]; exact hq0.active
      simp [State.startsNone, Strand.stopped, Strand.faultedAt, State.hasTile, h1, h2]
    · by_cases h2 : i.engine = 2 <;> simp [Entry.isMark, mkEntry, h2]
    · rw [Entry.open, hl, Bool.false_and]
    · by_cases h2 : i.engine = 1
      · rw [Strand.queriesAwait_empty]
        · simp
        · rw [Strand.queue, ht]
          show vget (vput _ (i.engine - 1) _) 4 [] = []
          rw [vget_vput_ne _ _ _ _ _ (by omega)]
          rfl
      · simp [h2]
    · rw [← hx, ht]
      congr 1
      simp only [State.plainBegun, Strand.setEntry, Strand.setQueue, vput_vput, Strand.queue,
        vget_vput_same _ _ _ _ (show i.engine - 1 < 6 by omega)]
      rfl
  dsimp only
  rw [if_neg hfull, hb]
  dsimp only
  rw [hm, he, hgen _ rfl]
  have hlag : (s.st.advance s.st.nextAddr).lag = 0 := hq0.lag
  have hbit : (0 : BitVec 6).getLsbD (i.engine - 1) = false := by simp
  rw [hlag, hbit]
  simp only [Bool.false_eq_true, if_false, Option.getD_some]
  have hfin := State.performedWord_one (r := r) (e := i.engine) (y := { mkEntry i p s.st with prog := Progress.fresh }) h1 h6
    hq hl hh (fun w hw hg hm => by
      have := hfree w (hf ▸ hw) (hp ▸ hg) (hp ▸ hm)
      exact Nat.ne_of_lt this)
  rw [show ({ mkEntry i p s.st with prog := Progress.fresh } : Entry).seq = (mkEntry i p s.st).seq from rfl] at hfin
  rw [hfin]

end Sys2Proof.Machine
end

