-- ==== Sys2Proof/Laws/KvTable.lean ====
section
/-! SUPPORT. What the words of a key-value table leave of the strands: an engine's write reaches none but the strand's own published
stores. -/

namespace Sys2Proof.Machine

/-- From `s` to `t` every other strand is as it was, and so is the current one, where it has no store of its own. -/
def State.SameStrands (s t : State) : Prop := t.others = s.others ∧ (s.st.stores = [] → t.st = s.st)

theorem State.SameStrands.refl (s : State) : s.SameStrands s := ⟨rfl, fun _ => rfl⟩

theorem State.SameStrands.trans {s t u : State} (h1 : s.SameStrands t) (h2 : t.SameStrands u) : s.SameStrands u :=
  ⟨h2.1.trans h1.1, fun h => (h2.2 (by rw [h1.2 h]; exact h)).trans (h1.2 h)⟩

theorem State.SameStrands.of_eq {s t : State} (h : t.others = s.others) (hs : t.st = s.st) : s.SameStrands t := ⟨h, fun _ => hs⟩

theorem State.Accessed.sameStrands {s t : State} (h : s.Accessed t) : s.SameStrands t := .of_eq h.others h.st

/-- An action that goes through leaves the strands so. -/
def KeepsStrands {α : Type} (m : M α) : Prop := ∀ s a t, m s = .ok a t → s.SameStrands t

theorem Accesses.keeps {α : Type} {m : M α} (h : Accesses m) : KeepsStrands m := fun s a t ht => (h s a t ht).sameStrands
theorem Reads.keeps {α : Type} {m : M α} (h : Reads m) : KeepsStrands m := h.accesses.keeps

theorem KeepsStrands.mod {f : State → State} (h : ∀ s : State, s.SameStrands (f s)) : KeepsStrands (modify f : M Unit) :=
  fun s a t ht => by cases ht; exact h s

theorem KeepsStrands.bind {α β : Type} {m : M α} {f : α → M β} (h1 : KeepsStrands m) (h2 : ∀ a, KeepsStrands (f a)) :
    KeepsStrands (m >>= f) := by
  intro s b t h
  rw [M_bind] at h
  split at h
  · rename_i a u hm
    exact (h1 _ _ _ hm).trans (h2 a _ _ _ h)
  · cases h

theorem KeepsStrands.pure {α : Type} (a : α) : KeepsStrands (Pure.pure a : M α) := (Reads.pure a).keeps
theorem KeepsStrands.getSt : KeepsStrands Machine.getSt := fun s _ _ h => by cases h; exact .refl s
theorem KeepsStrands.get : KeepsStrands (MonadState.get : M State) := Reads.get.keeps

theorem KeepsStrands.ite {α : Type} {c : Prop} [Decidable c] {m n : M α} (h1 : KeepsStrands m) (h2 : KeepsStrands n) :
    KeepsStrands (if c then m else n) := by
  split <;> assumption

theorem KeepsStrands.each {α : Type} (l : List α) {f : α → M Unit} (h : ∀ a, KeepsStrands (f a)) : KeepsStrands (eachM l f) := by
  induction l with
  | nil => exact .pure _
  | cons a l ih => exact .bind (h a) fun _ => ih

theorem KeepsStrands.collect {α β : Type} (l : List α) {f : α → M β} (h : ∀ a, KeepsStrands (f a)) : KeepsStrands (collectM l f) := by
  induction l with
  | nil => exact .pure _
  | cons a l ih => exact .bind (h a) fun _ => .bind ih fun _ => .pure _

theorem Strand.supersede_none {t : Strand} (h : t.stores = []) (pa n : Nat) : t.supersede pa n = t := by
  unfold Strand.supersede
  simp [h]

theorem State.engineWrite_strands (s : State) (pa : Nat) (bs : List Byte) : s.SameStrands (s.engineWrite pa bs) := by
  have h := (s.writeHome_only pa bs)
  exact ⟨h.others, fun hs => (Strand.supersede_none (by show (s.writeHome pa bs).st.stores = []; rw [h.st]; exact hs) _ _).trans h.st⟩

theorem State.ceRoll_strands (s : State) : s.ceRoll.st = s.st ∧ s.ceRoll.others = s.others := by
  unfold State.ceRoll
  split <;> exact ⟨rfl, rfl⟩

theorem State.correctable_strands (s : State) (n : Nat) : (s.correctable n).st = s.st ∧ (s.correctable n).others = s.others := by
  simp only [State.correctable, s.ceRoll_strands, and_self]

/-- A mismatch that a re-read clears touches no strand (R507). -/
theorem State.transient_st (s : State) (line : Nat) : (s.transient line).st = s.st ∧ (s.transient line).others = s.others := by
  simp only [State.transient, State.correctable_strands]
  split <;> exact ⟨rfl, rfl⟩

theorem memPut_keeps (pa : Nat) (bs : List Byte) : KeepsStrands (memPut pa bs) := .mod fun s => s.engineWrite_strands pa bs
theorem memBytes_keeps (pa n : Nat) : KeepsStrands (memBytes pa n) := .bind .get fun _ => .pure _
theorem mapAccess_keeps (eng slot va : Nat) (acc : AccessKind) : KeepsStrands (mapAccess eng slot va acc) :=
  (mapAccess_accesses eng slot va acc).keeps

theorem checkInteg_keeps (pa tval : Nat) : KeepsStrands (checkInteg pa tval) := by
  intro s a t h
  unfold checkInteg at h
  simp only [M_bind, M_get, M_ite] at h
  repeat' split at h
  all_goals first
    | (cases h; exact .refl s)
    | (cases h; exact .of_eq (s.transient_st _).2 (s.transient_st _).1)
    | (simp at h)

theorem checkLine_keeps (pa tval : Nat) : KeepsStrands (checkLine pa tval) :=
  .bind (checkInteg_keeps pa tval) fun _ => (checkPoison_reads pa tval).keeps

theorem prepWrite_keeps (t : KTable) (va : Nat) : KeepsStrands (prepWrite t va) :=
  .bind .getSt fun _ => .bind (locate_reads _ _ _ _).keeps fun l => .bind (sealed_reads l va).keeps fun _ => (ready_reads l).keeps

theorem openTable_keeps (x : Entry) (eng : Nat) (acc : AccessKind) (chk : Bool) (va : Nat) : KeepsStrands (openTable x eng acc chk va) := by
  unfold openTable tableAligned
  dsimp only
  repeat' first
    | exact .pure _
    | exact .getSt
    | exact .get
    | exact (Reads.throw _).keeps
    | exact mapAccess_keeps _ _ _ _
    | exact checkInteg_keeps _ _
    | exact (checkPoison_reads _ _).keeps
    | exact memBytes_keeps _ _
    | refine .bind ?_ fun _ => ?_
    | refine .ite ?_ ?_

theorem entry_keeps (t : KTable) (i : Nat) : KeepsStrands (t.entry i) :=
  .bind .getSt fun _ => .bind (mapAccess_keeps _ _ _ _) fun _ => .bind (checkLine_keeps _ _) fun _ => .bind (memBytes_keeps _ _) fun _ => .pure _

theorem putEntry_keeps (t : KTable) (i v : Nat) : KeepsStrands (t.putEntry i v) :=
  .bind .getSt fun _ => .bind (mapAccess_keeps _ _ _ _) fun _ => memPut_keeps _ _

theorem checkBlock_keeps (pool b ea : Nat) : KeepsStrands (checkBlock pool b ea) := by
  unfold checkBlock
  dsimp only
  repeat' first
    | exact .pure _
    | exact .get
    | exact (Reads.throw _).keeps
    | refine .bind ?_ fun _ => ?_
    | refine .ite ?_ ?_

theorem releaseBlock_keeps (pool b : Nat) : KeepsStrands (releaseBlock pool b) := .mod fun _ => .of_eq rfl rfl

theorem save_keeps (t : KTable) : KeepsStrands t.save :=
  .bind .getSt fun _ => .bind (mapAccess_keeps _ _ _ _) fun _ => .bind (memPut_keeps _ _) fun _ => .mod fun _ => .of_eq rfl rfl

theorem cutTable_keeps (t : KTable) (new : Nat) : KeepsStrands (cutTable t new) := by
  unfold cutTable
  dsimp only
  repeat' first
    | exact .pure _
    | exact entry_keeps _ _
    | exact putEntry_keeps _ _ _
    | exact prepWrite_keeps _ _
    | exact checkBlock_keeps _ _ _
    | exact releaseBlock_keeps _ _
    | refine .bind ?_ fun _ => ?_
    | refine .ite ?_ ?_
    | refine .collect _ fun _ => ?_
    | refine .each _ fun _ => ?_

theorem noteWindow_keeps (t : KTable) (on : Bool) : KeepsStrands (t.noteWindow on) :=
  .bind .getSt fun _ => .bind (locate_reads _ _ _ _).keeps fun _ => .mod fun _ => .of_eq rfl rfl

/-- Returning a table leaves every strand as it was, but for the current one's own stores. -/
theorem performKRet_keeps (x : Entry) : KeepsStrands (performKRet x) := by
  unfold performKRet checkDrafts checkDraft releaseDraft
  dsimp only
  repeat' first
    | exact .pure _
    | exact openTable_keeps _ _ _ _ _
    | exact cutTable_keeps _ _
    | exact checkBlock_keeps _ _ _
    | exact releaseBlock_keeps _ _
    | exact noteWindow_keeps _ _
    | exact save_keeps _
    | refine .bind ?_ fun _ => ?_
    | refine .ite ?_ ?_

end Sys2Proof.Machine
end

