-- ==== Sys2Proof/Laws/PerInstr.lean ====
section
/-! SUPPORT. What holds of every constructor's encoding: it fits the word, and a word's engine stands in bits 31 to 29
(R84). -/

namespace Sys2Proof.Laws.Encoded

set_option Elab.async false

/-- The encoding of `i` fits 32 bits, and a word carries the number of its engine in bits 31 to 29. -/
def Statement (i : Instr) : Prop := i.encodeNat < 2 ^ 32 ∧ (i.isWord = true → i.encodeNat / 2 ^ 29 = i.engine)

/-- A word whose encoding is the number `n`, within the range of its engine. -/
theorem of_sum {i : Instr} (e n : Nat) (hn : i.encodeNat = n) (he : i.engine = e)
    (h : e < 8 ∧ e * 536870912 ≤ n ∧ n < e * 536870912 + 536870912) : Statement i := by
  subst hn he
  exact ⟨by omega, fun _ => by omega⟩

theorem add (d : Reg) (a : Reg) (b : Reg) : Statement (.add d a b) :=
  of_sum 0 (0x00400000 + d.toNat * 65536 + a.toNat * 1024 + b.toNat * 16) rfl rfl (by omega)
theorem sub (d : Reg) (a : Reg) (b : Reg) : Statement (.sub d a b) :=
  of_sum 0 (0x00800000 + d.toNat * 65536 + a.toNat * 1024 + b.toNat * 16) rfl rfl (by omega)
theorem and (d : Reg) (a : Reg) (b : Reg) : Statement (.and d a b) :=
  of_sum 0 (0x00C00000 + d.toNat * 65536 + a.toNat * 1024 + b.toNat * 16) rfl rfl (by omega)
theorem or (d : Reg) (a : Reg) (b : Reg) : Statement (.or d a b) :=
  of_sum 0 (0x01000000 + d.toNat * 65536 + a.toNat * 1024 + b.toNat * 16) rfl rfl (by omega)
theorem xor (d : Reg) (a : Reg) (b : Reg) : Statement (.xor d a b) :=
  of_sum 0 (0x01400000 + d.toNat * 65536 + a.toNat * 1024 + b.toNat * 16) rfl rfl (by omega)
theorem sll (d : Reg) (a : Reg) (b : Reg) : Statement (.sll d a b) :=
  of_sum 0 (0x01800000 + d.toNat * 65536 + a.toNat * 1024 + b.toNat * 16) rfl rfl (by omega)
theorem srl (d : Reg) (a : Reg) (b : Reg) : Statement (.srl d a b) :=
  of_sum 0 (0x01C00000 + d.toNat * 65536 + a.toNat * 1024 + b.toNat * 16) rfl rfl (by omega)
theorem sra (d : Reg) (a : Reg) (b : Reg) : Statement (.sra d a b) :=
  of_sum 0 (0x02000000 + d.toNat * 65536 + a.toNat * 1024 + b.toNat * 16) rfl rfl (by omega)
theorem slt (d : Reg) (a : Reg) (b : Reg) : Statement (.slt d a b) :=
  of_sum 0 (0x02400000 + d.toNat * 65536 + a.toNat * 1024 + b.toNat * 16) rfl rfl (by omega)
theorem sltu (d : Reg) (a : Reg) (b : Reg) : Statement (.sltu d a b) :=
  of_sum 0 (0x02800000 + d.toNat * 65536 + a.toNat * 1024 + b.toNat * 16) rfl rfl (by omega)
theorem mul (d : Reg) (a : Reg) (b : Reg) : Statement (.mul d a b) :=
  of_sum 0 (0x02C00000 + d.toNat * 65536 + a.toNat * 1024 + b.toNat * 16) rfl rfl (by omega)
theorem mulh (d : Reg) (a : Reg) (b : Reg) : Statement (.mulh d a b) :=
  of_sum 0 (0x03000000 + d.toNat * 65536 + a.toNat * 1024 + b.toNat * 16) rfl rfl (by omega)
theorem mulhu (d : Reg) (a : Reg) (b : Reg) : Statement (.mulhu d a b) :=
  of_sum 0 (0x03400000 + d.toNat * 65536 + a.toNat * 1024 + b.toNat * 16) rfl rfl (by omega)
theorem div (d : Reg) (a : Reg) (b : Reg) : Statement (.div d a b) :=
  of_sum 0 (0x03800000 + d.toNat * 65536 + a.toNat * 1024 + b.toNat * 16) rfl rfl (by omega)
theorem divu (d : Reg) (a : Reg) (b : Reg) : Statement (.divu d a b) :=
  of_sum 0 (0x03C00000 + d.toNat * 65536 + a.toNat * 1024 + b.toNat * 16) rfl rfl (by omega)
theorem rem (d : Reg) (a : Reg) (b : Reg) : Statement (.rem d a b) :=
  of_sum 0 (0x04000000 + d.toNat * 65536 + a.toNat * 1024 + b.toNat * 16) rfl rfl (by omega)
theorem remu (d : Reg) (a : Reg) (b : Reg) : Statement (.remu d a b) :=
  of_sum 0 (0x04400000 + d.toNat * 65536 + a.toNat * 1024 + b.toNat * 16) rfl rfl (by omega)
theorem min (d : Reg) (a : Reg) (b : Reg) : Statement (.min d a b) :=
  of_sum 0 (0x04800000 + d.toNat * 65536 + a.toNat * 1024 + b.toNat * 16) rfl rfl (by omega)
theorem max (d : Reg) (a : Reg) (b : Reg) : Statement (.max d a b) :=
  of_sum 0 (0x04C00000 + d.toNat * 65536 + a.toNat * 1024 + b.toNat * 16) rfl rfl (by omega)
theorem clz (d : Reg) (a : Reg) : Statement (.clz d a) :=
  of_sum 0 (0x05000000 + d.toNat * 65536 + a.toNat * 1024) rfl rfl (by omega)
theorem ctz (d : Reg) (a : Reg) : Statement (.ctz d a) :=
  of_sum 0 (0x05400000 + d.toNat * 65536 + a.toNat * 1024) rfl rfl (by omega)
theorem cmov (d : Reg) (a : Reg) (b : Reg) : Statement (.cmov d a b) :=
  of_sum 0 (0x05800000 + d.toNat * 65536 + a.toNat * 1024 + b.toNat * 16) rfl rfl (by omega)
theorem addi (d : Reg) (a : Reg) (i : BitVec 10) : Statement (.addi d a i) :=
  of_sum 0 (0x06000000 + d.toNat * 65536 + a.toNat * 1024 + i.toNat) rfl rfl (by omega)
theorem andi (d : Reg) (a : Reg) (i : BitVec 10) : Statement (.andi d a i) :=
  of_sum 0 (0x06400000 + d.toNat * 65536 + a.toNat * 1024 + i.toNat) rfl rfl (by omega)
theorem ori (d : Reg) (a : Reg) (i : BitVec 10) : Statement (.ori d a i) :=
  of_sum 0 (0x06800000 + d.toNat * 65536 + a.toNat * 1024 + i.toNat) rfl rfl (by omega)
theorem xori (d : Reg) (a : Reg) (i : BitVec 10) : Statement (.xori d a i) :=
  of_sum 0 (0x06C00000 + d.toNat * 65536 + a.toNat * 1024 + i.toNat) rfl rfl (by omega)
theorem slli (d : Reg) (a : Reg) (i : BitVec 10) : Statement (.slli d a i) :=
  of_sum 0 (0x07000000 + d.toNat * 65536 + a.toNat * 1024 + i.toNat) rfl rfl (by omega)
theorem srli (d : Reg) (a : Reg) (i : BitVec 10) : Statement (.srli d a i) :=
  of_sum 0 (0x07400000 + d.toNat * 65536 + a.toNat * 1024 + i.toNat) rfl rfl (by omega)
theorem srai (d : Reg) (a : Reg) (i : BitVec 10) : Statement (.srai d a i) :=
  of_sum 0 (0x07800000 + d.toNat * 65536 + a.toNat * 1024 + i.toNat) rfl rfl (by omega)
theorem li (d : Reg) (i : BitVec 16) : Statement (.li d i) :=
  of_sum 0 (0x08000000 + d.toNat * 65536 + i.toNat) rfl rfl (by omega)
theorem lui (d : Reg) (i : BitVec 16) : Statement (.lui d i) :=
  of_sum 0 (0x08400000 + d.toNat * 65536 + i.toNat) rfl rfl (by omega)
theorem auipc (d : Reg) (i : BitVec 16) : Statement (.auipc d i) :=
  of_sum 0 (0x08800000 + d.toNat * 65536 + i.toNat) rfl rfl (by omega)
theorem ldB (d : Reg) (a : Reg) (i : BitVec 10) : Statement (.ldB d a i) :=
  of_sum 0 (0x0A000000 + d.toNat * 65536 + a.toNat * 1024 + i.toNat) rfl rfl (by omega)
theorem ldH (d : Reg) (a : Reg) (i : BitVec 10) : Statement (.ldH d a i) :=
  of_sum 0 (0x0A400000 + d.toNat * 65536 + a.toNat * 1024 + i.toNat) rfl rfl (by omega)
theorem ldW (d : Reg) (a : Reg) (i : BitVec 10) : Statement (.ldW d a i) :=
  of_sum 0 (0x0A800000 + d.toNat * 65536 + a.toNat * 1024 + i.toNat) rfl rfl (by omega)
theorem ldD (d : Reg) (a : Reg) (i : BitVec 10) : Statement (.ldD d a i) :=
  of_sum 0 (0x0AC00000 + d.toNat * 65536 + a.toNat * 1024 + i.toNat) rfl rfl (by omega)
theorem ldBu (d : Reg) (a : Reg) (i : BitVec 10) : Statement (.ldBu d a i) :=
  of_sum 0 (0x0B000000 + d.toNat * 65536 + a.toNat * 1024 + i.toNat) rfl rfl (by omega)
theorem ldHu (d : Reg) (a : Reg) (i : BitVec 10) : Statement (.ldHu d a i) :=
  of_sum 0 (0x0B400000 + d.toNat * 65536 + a.toNat * 1024 + i.toNat) rfl rfl (by omega)
theorem ldWu (d : Reg) (a : Reg) (i : BitVec 10) : Statement (.ldWu d a i) :=
  of_sum 0 (0x0B800000 + d.toNat * 65536 + a.toNat * 1024 + i.toNat) rfl rfl (by omega)
theorem stB (b : Reg) (a : Reg) (i : BitVec 10) : Statement (.stB b a i) :=
  of_sum 0 (0x0C000000 + b.toNat * 65536 + a.toNat * 1024 + i.toNat) rfl rfl (by omega)
theorem stH (b : Reg) (a : Reg) (i : BitVec 10) : Statement (.stH b a i) :=
  of_sum 0 (0x0C400000 + b.toNat * 65536 + a.toNat * 1024 + i.toNat) rfl rfl (by omega)
theorem stW (b : Reg) (a : Reg) (i : BitVec 10) : Statement (.stW b a i) :=
  of_sum 0 (0x0C800000 + b.toNat * 65536 + a.toNat * 1024 + i.toNat) rfl rfl (by omega)
theorem stD (b : Reg) (a : Reg) (i : BitVec 10) : Statement (.stD b a i) :=
  of_sum 0 (0x0CC00000 + b.toNat * 65536 + a.toNat * 1024 + i.toNat) rfl rfl (by omega)
theorem ldsW (d : Reg) (a : Reg) (i : BitVec 10) : Statement (.ldsW d a i) :=
  of_sum 0 (0x0D000000 + d.toNat * 65536 + a.toNat * 1024 + i.toNat) rfl rfl (by omega)
theorem ldsD (d : Reg) (a : Reg) (i : BitVec 10) : Statement (.ldsD d a i) :=
  of_sum 0 (0x0D400000 + d.toNat * 65536 + a.toNat * 1024 + i.toNat) rfl rfl (by omega)
theorem stsW (b : Reg) (a : Reg) (i : BitVec 10) : Statement (.stsW b a i) :=
  of_sum 0 (0x0D800000 + b.toNat * 65536 + a.toNat * 1024 + i.toNat) rfl rfl (by omega)
theorem stsD (b : Reg) (a : Reg) (i : BitVec 10) : Statement (.stsD b a i) :=
  of_sum 0 (0x0DC00000 + b.toNat * 65536 + a.toNat * 1024 + i.toNat) rfl rfl (by omega)
theorem beq (a : Reg) (b : Reg) (o : BitVec 10) : Statement (.beq a b o) :=
  of_sum 0 (0x0E000000 + a.toNat * 65536 + b.toNat * 1024 + o.toNat) rfl rfl (by omega)
theorem bne (a : Reg) (b : Reg) (o : BitVec 10) : Statement (.bne a b o) :=
  of_sum 0 (0x0E400000 + a.toNat * 65536 + b.toNat * 1024 + o.toNat) rfl rfl (by omega)
theorem blt (a : Reg) (b : Reg) (o : BitVec 10) : Statement (.blt a b o) :=
  of_sum 0 (0x0E800000 + a.toNat * 65536 + b.toNat * 1024 + o.toNat) rfl rfl (by omega)
theorem bge (a : Reg) (b : Reg) (o : BitVec 10) : Statement (.bge a b o) :=
  of_sum 0 (0x0EC00000 + a.toNat * 65536 + b.toNat * 1024 + o.toNat) rfl rfl (by omega)
theorem bltu (a : Reg) (b : Reg) (o : BitVec 10) : Statement (.bltu a b o) :=
  of_sum 0 (0x0F000000 + a.toNat * 65536 + b.toNat * 1024 + o.toNat) rfl rfl (by omega)
theorem bgeu (a : Reg) (b : Reg) (o : BitVec 10) : Statement (.bgeu a b o) :=
  of_sum 0 (0x0F400000 + a.toNat * 65536 + b.toNat * 1024 + o.toNat) rfl rfl (by omega)
theorem j (o : BitVec 22) : Statement (.j o) := of_sum 0 (0x0F800000 + o.toNat) rfl rfl (by omega)
theorem call (o : BitVec 22) : Statement (.call o) := of_sum 0 (0x0FC00000 + o.toNat) rfl rfl (by omega)
theorem jr (a : Reg) : Statement (.jr a) := of_sum 0 (0x10000000 + a.toNat * 1024) rfl rfl (by omega)
theorem calli (d : Reg) (a : Reg) (i : BitVec 10) : Statement (.calli d a i) :=
  of_sum 0 (0x10400000 + d.toNat * 65536 + a.toNat * 1024 + i.toNat) rfl rfl (by omega)
theorem endStrand : Statement .endStrand := of_sum 0 (0x10800000) rfl rfl (by omega)
theorem brk (i : BitVec 10) : Statement (.brk i) := of_sum 0 (0x10C00000 + i.toNat) rfl rfl (by omega)
theorem tret : Statement .tret := of_sum 0 (0x11000000) rfl rfl (by omega)
theorem csrr (d : Reg) (c : BitVec 10) : Statement (.csrr d c) :=
  of_sum 0 (0x12000000 + d.toNat * 65536 + c.toNat) rfl rfl (by omega)
theorem csrw (d : Reg) (a : Reg) (c : BitVec 10) : Statement (.csrw d a c) :=
  of_sum 0 (0x12400000 + d.toNat * 65536 + a.toNat * 1024 + c.toNat) rfl rfl (by omega)
theorem csrs (d : Reg) (a : Reg) (c : BitVec 10) : Statement (.csrs d a c) :=
  of_sum 0 (0x12800000 + d.toNat * 65536 + a.toNat * 1024 + c.toNat) rfl rfl (by omega)
theorem csrc (d : Reg) (a : Reg) (c : BitVec 10) : Statement (.csrc d a c) :=
  of_sum 0 (0x12C00000 + d.toNat * 65536 + a.toNat * 1024 + c.toNat) rfl rfl (by omega)
theorem rdw (d : Reg) (a : Reg) : Statement (.rdw d a) :=
  of_sum 0 (0x13000000 + d.toNat * 65536 + a.toNat * 1024) rfl rfl (by omega)
theorem phOpen (s : BitVec 3) : Statement (.phOpen s) := of_sum 0 (0x14000000 + s.toNat) rfl rfl (by omega)
theorem phClose (s : BitVec 3) : Statement (.phClose s) := of_sum 0 (0x14400000 + s.toNat) rfl rfl (by omega)
theorem ph (s : BitVec 3) : Statement (.ph s) := of_sum 0 (0x14800000 + s.toNat) rfl rfl (by omega)
theorem fenceSc (s : BitVec 3) : Statement (.fenceSc s) := of_sum 0 (0x14C00000 + s.toNat) rfl rfl (by omega)
theorem qjoin (m : BitVec 8) : Statement (.qjoin m) := of_sum 0 (0x15000000 + m.toNat * 8) rfl rfl (by omega)
theorem ifence : Statement .ifence := of_sum 0 (0x15400000) rfl rfl (by omega)
theorem rbind (a : Reg) (h : Reg) : Statement (.rbind a h) :=
  of_sum 0 (0x16000000 + a.toNat * 1024 + h.toNat * 16) rfl rfl (by omega)
theorem rwe (d : Reg) (a : Reg) (h : Reg) (i : BitVec 4) : Statement (.rwe d a h i) :=
  of_sum 0 (0x16400000 + d.toNat * 65536 + a.toNat * 1024 + h.toNat * 16 + i.toNat) rfl rfl (by omega)
theorem rwf (d : Reg) (a : Reg) (h : Reg) (i : BitVec 4) : Statement (.rwf d a h i) :=
  of_sum 0 (0x16800000 + d.toNat * 65536 + a.toNat * 1024 + h.toNat * 16 + i.toNat) rfl rfl (by omega)
theorem radvT (a : Reg) (h : Reg) (i : BitVec 4) : Statement (.radvT a h i) :=
  of_sum 0 (0x16C00000 + a.toNat * 1024 + h.toNat * 16 + i.toNat) rfl rfl (by omega)
theorem radvH (a : Reg) (h : Reg) (i : BitVec 4) : Statement (.radvH a h i) :=
  of_sum 0 (0x17000000 + a.toNat * 1024 + h.toNat * 16 + i.toNat) rfl rfl (by omega)
theorem barInit (g : Reg) (a : Reg) (b : Reg) : Statement (.barInit g a b) :=
  of_sum 0 (0x18000000 + g.toNat * 65536 + a.toNat * 1024 + b.toNat * 16) rfl rfl (by omega)
theorem barArr (d : Reg) (a : Reg) (h : Reg) (i : BitVec 4) : Statement (.barArr d a h i) :=
  of_sum 0 (0x18400000 + d.toNat * 65536 + a.toNat * 1024 + h.toNat * 16 + i.toNat) rfl rfl (by omega)
theorem barExp (a : Reg) (h : Reg) (i : BitVec 4) : Statement (.barExp a h i) :=
  of_sum 0 (0x18800000 + a.toNat * 1024 + h.toNat * 16 + i.toNat) rfl rfl (by omega)
theorem barWait (d : Reg) (h : Reg) (i : BitVec 4) : Statement (.barWait d h i) :=
  of_sum 0 (0x18C00000 + d.toNat * 65536 + h.toNat * 16 + i.toNat) rfl rfl (by omega)
theorem tlbiVa (a : Reg) (b : Reg) : Statement (.tlbiVa a b) :=
  of_sum 0 (0x1E000000 + a.toNat * 1024 + b.toNat * 16) rfl rfl (by omega)
theorem tlbiCtx (a : Reg) : Statement (.tlbiCtx a) := of_sum 0 (0x1E400000 + a.toNat * 1024) rfl rfl (by omega)
theorem tlbiAll : Statement .tlbiAll := of_sum 0 (0x1E800000) rfl rfl (by omega)
theorem xlat (d : Reg) (a : Reg) (b : Reg) : Statement (.xlat d a b) :=
  of_sum 0 (0x1EC00000 + d.toNat * 65536 + a.toNat * 1024 + b.toNat * 16) rfl rfl (by omega)
theorem slKeyNew (d : Reg) (a : Reg) (b : Reg) : Statement (.slKeyNew d a b) :=
  of_sum 0 (0x1F000000 + d.toNat * 65536 + a.toNat * 1024 + b.toNat * 16) rfl rfl (by omega)
theorem slKeyKill (d : Reg) (a : Reg) : Statement (.slKeyKill d a) :=
  of_sum 0 (0x1F000001 + d.toNat * 65536 + a.toNat * 1024) rfl rfl (by omega)
theorem slMeas (d : Reg) (a : Reg) (b : Reg) : Statement (.slMeas d a b) :=
  of_sum 0 (0x1F400000 + d.toNat * 65536 + a.toNat * 1024 + b.toNat * 16) rfl rfl (by omega)
theorem slMeasRd (d : Reg) (a : Reg) (b : Reg) : Statement (.slMeasRd d a b) :=
  of_sum 0 (0x1F400001 + d.toNat * 65536 + a.toNat * 1024 + b.toNat * 16) rfl rfl (by omega)
theorem slRep (d : Reg) (a : Reg) (b : Reg) : Statement (.slRep d a b) :=
  of_sum 0 (0x1F800000 + d.toNat * 65536 + a.toNat * 1024 + b.toNat * 16) rfl rfl (by omega)
theorem xImm (h : BitVec 22) : Statement (.xImm h) := of_sum 7 (0xE0400000 + h.toNat) rfl rfl (by omega)
theorem xCap (a : Reg) (b : Reg) (c : Reg) : Statement (.xCap a b c) :=
  of_sum 7 (0xE0800000 + a.toNat * 65536 + b.toNat * 1024 + c.toNat * 16) rfl rfl (by omega)
theorem xRnd (m : BitVec 3) : Statement (.xRnd m) := of_sum 7 (0xE0C00000 + m.toNat) rfl rfl (by omega)
theorem xPm (z : Bool) (n : Bool) (p : Reg) : Statement (.xPm z n p) := by
  have hz := Bool.toNat_lt z
  have hn := Bool.toNat_lt n
  exact of_sum 7 (0xE1000000 + z.toNat * 128 + n.toNat * 64 + p.toNat) rfl rfl (by omega)
theorem xOrd (o : BitVec 2) (s : BitVec 3) : Statement (.xOrd o s) :=
  of_sum 7 (0xE1400000 + o.toNat * 8 + s.toNat) rfl rfl (by omega)
theorem xHint (h : BitVec 4) : Statement (.xHint h) := of_sum 7 (0xE1800000 + h.toNat) rfl rfl (by omega)
theorem vLd (x : Reg) (y : Reg) (z : Reg) (c : Bool) : Statement (.vLd x y z c) := by
  have hc := Bool.toNat_lt c
  exact of_sum 1 (0x20400000 + x.toNat * 65536 + y.toNat * 1024 + z.toNat * 16 + c.toNat) rfl rfl (by omega)
theorem vSt (x : Reg) (y : Reg) (z : Reg) (c : Bool) : Statement (.vSt x y z c) := by
  have hc := Bool.toNat_lt c
  exact of_sum 1 (0x20800000 + x.toNat * 65536 + y.toNat * 1024 + z.toNat * 16 + c.toNat) rfl rfl (by omega)
theorem vLds (x : Reg) (y : Reg) (z : Reg) (c : Bool) : Statement (.vLds x y z c) := by
  have hc := Bool.toNat_lt c
  exact of_sum 1 (0x20C00000 + x.toNat * 65536 + y.toNat * 1024 + z.toNat * 16 + c.toNat) rfl rfl (by omega)
theorem vSts (x : Reg) (y : Reg) (z : Reg) (c : Bool) : Statement (.vSts x y z c) := by
  have hc := Bool.toNat_lt c
  exact of_sum 1 (0x21000000 + x.toNat * 65536 + y.toNat * 1024 + z.toNat * 16 + c.toNat) rfl rfl (by omega)
theorem vLdh (x : Reg) (y : Reg) (z : Reg) (m : Bool) (c : Bool) : Statement (.vLdh x y z m c) := by
  have hm := Bool.toNat_lt m
  have hc := Bool.toNat_lt c
  exact of_sum 1 (0x21400000 + x.toNat * 65536 + y.toNat * 1024 + z.toNat * 16 + m.toNat * 2 + c.toNat) rfl rfl (by omega)
theorem vSth (x : Reg) (y : Reg) (z : Reg) (m : Bool) (c : Bool) : Statement (.vSth x y z m c) := by
  have hm := Bool.toNat_lt m
  have hc := Bool.toNat_lt c
  exact of_sum 1 (0x21800000 + x.toNat * 65536 + y.toNat * 1024 + z.toNat * 16 + m.toNat * 2 + c.toNat) rfl rfl (by omega)
theorem vMov (x : Reg) (y : Reg) (c : Bool) : Statement (.vMov x y c) := by
  have hc := Bool.toNat_lt c
  exact of_sum 1 (0x21C00000 + x.toNat * 65536 + y.toNat * 1024 + c.toNat) rfl rfl (by omega)
theorem vBcs (x : Reg) (y : Reg) (c : Bool) : Statement (.vBcs x y c) := by
  have hc := Bool.toNat_lt c
  exact of_sum 1 (0x22000000 + x.toNat * 65536 + y.toNat * 1024 + c.toNat) rfl rfl (by omega)
theorem vIota (x : Reg) (y : Reg) (i : BitVec 9) (c : Bool) : Statement (.vIota x y i c) := by
  have hc := Bool.toNat_lt c
  exact of_sum 1 (0x22400000 + x.toNat * 65536 + y.toNat * 1024 + i.toNat * 2 + c.toNat) rfl rfl (by omega)
theorem vPset (x : Reg) (y : Reg) (i : BitVec 9) (c : Bool) : Statement (.vPset x y i c) := by
  have hc := Bool.toNat_lt c
  exact of_sum 1 (0x22800000 + x.toNat * 65536 + y.toNat * 1024 + i.toNat * 2 + c.toNat) rfl rfl (by omega)
theorem vAdd (x : Reg) (y : Reg) (z : Reg) (c : Bool) : Statement (.vAdd x y z c) := by
  have hc := Bool.toNat_lt c
  exact of_sum 1 (0x24000000 + x.toNat * 65536 + y.toNat * 1024 + z.toNat * 16 + c.toNat) rfl rfl (by omega)
theorem vSub (x : Reg) (y : Reg) (z : Reg) (c : Bool) : Statement (.vSub x y z c) := by
  have hc := Bool.toNat_lt c
  exact of_sum 1 (0x24400000 + x.toNat * 65536 + y.toNat * 1024 + z.toNat * 16 + c.toNat) rfl rfl (by omega)
theorem vMul (x : Reg) (y : Reg) (z : Reg) (c : Bool) : Statement (.vMul x y z c) := by
  have hc := Bool.toNat_lt c
  exact of_sum 1 (0x24800000 + x.toNat * 65536 + y.toNat * 1024 + z.toNat * 16 + c.toNat) rfl rfl (by omega)
theorem vFma (x : Reg) (y : Reg) (z : Reg) (m : BitVec 2) (c : Bool) : Statement (.vFma x y z m c) := by
  have hc := Bool.toNat_lt c
  exact of_sum 1 (0x24C00000 + x.toNat * 65536 + y.toNat * 1024 + z.toNat * 16 + m.toNat * 2 + c.toNat) rfl rfl (by omega)
theorem vMin (x : Reg) (y : Reg) (z : Reg) (c : Bool) : Statement (.vMin x y z c) := by
  have hc := Bool.toNat_lt c
  exact of_sum 1 (0x25000000 + x.toNat * 65536 + y.toNat * 1024 + z.toNat * 16 + c.toNat) rfl rfl (by omega)
theorem vMax (x : Reg) (y : Reg) (z : Reg) (c : Bool) : Statement (.vMax x y z c) := by
  have hc := Bool.toNat_lt c
  exact of_sum 1 (0x25400000 + x.toNat * 65536 + y.toNat * 1024 + z.toNat * 16 + c.toNat) rfl rfl (by omega)
theorem vAbs (x : Reg) (y : Reg) (c : Bool) : Statement (.vAbs x y c) := by
  have hc := Bool.toNat_lt c
  exact of_sum 1 (0x25800000 + x.toNat * 65536 + y.toNat * 1024 + c.toNat) rfl rfl (by omega)
theorem vNeg (x : Reg) (y : Reg) (c : Bool) : Statement (.vNeg x y c) := by
  have hc := Bool.toNat_lt c
  exact of_sum 1 (0x25C00000 + x.toNat * 65536 + y.toNat * 1024 + c.toNat) rfl rfl (by omega)
theorem vIadd (x : Reg) (y : Reg) (z : Reg) (c : Bool) : Statement (.vIadd x y z c) := by
  have hc := Bool.toNat_lt c
  exact of_sum 1 (0x26000000 + x.toNat * 65536 + y.toNat * 1024 + z.toNat * 16 + c.toNat) rfl rfl (by omega)
theorem vIsub (x : Reg) (y : Reg) (z : Reg) (c : Bool) : Statement (.vIsub x y z c) := by
  have hc := Bool.toNat_lt c
  exact of_sum 1 (0x26400000 + x.toNat * 65536 + y.toNat * 1024 + z.toNat * 16 + c.toNat) rfl rfl (by omega)
theorem vImul (x : Reg) (y : Reg) (z : Reg) (m : Bool) (c : Bool) : Statement (.vImul x y z m c) := by
  have hm := Bool.toNat_lt m
  have hc := Bool.toNat_lt c
  exact of_sum 1 (0x26800000 + x.toNat * 65536 + y.toNat * 1024 + z.toNat * 16 + m.toNat * 2 + c.toNat) rfl rfl (by omega)
theorem vImulw (x : Reg) (y : Reg) (z : Reg) (m : Bool) (c : Bool) : Statement (.vImulw x y z m c) := by
  have hm := Bool.toNat_lt m
  have hc := Bool.toNat_lt c
  exact of_sum 1 (0x26C00000 + x.toNat * 65536 + y.toNat * 1024 + z.toNat * 16 + m.toNat * 2 + c.toNat) rfl rfl (by omega)
theorem vAnd (x : Reg) (y : Reg) (z : Reg) (c : Bool) : Statement (.vAnd x y z c) := by
  have hc := Bool.toNat_lt c
  exact of_sum 1 (0x27000000 + x.toNat * 65536 + y.toNat * 1024 + z.toNat * 16 + c.toNat) rfl rfl (by omega)
theorem vOr (x : Reg) (y : Reg) (z : Reg) (c : Bool) : Statement (.vOr x y z c) := by
  have hc := Bool.toNat_lt c
  exact of_sum 1 (0x27400000 + x.toNat * 65536 + y.toNat * 1024 + z.toNat * 16 + c.toNat) rfl rfl (by omega)
theorem vXor (x : Reg) (y : Reg) (z : Reg) (c : Bool) : Statement (.vXor x y z c) := by
  have hc := Bool.toNat_lt c
  exact of_sum 1 (0x27800000 + x.toNat * 65536 + y.toNat * 1024 + z.toNat * 16 + c.toNat) rfl rfl (by omega)
theorem vNot (x : Reg) (y : Reg) (c : Bool) : Statement (.vNot x y c) := by
  have hc := Bool.toNat_lt c
  exact of_sum 1 (0x27C00000 + x.toNat * 65536 + y.toNat * 1024 + c.toNat) rfl rfl (by omega)
theorem vShl (x : Reg) (y : Reg) (z : Reg) (c : Bool) : Statement (.vShl x y z c) := by
  have hc := Bool.toNat_lt c
  exact of_sum 1 (0x28000000 + x.toNat * 65536 + y.toNat * 1024 + z.toNat * 16 + c.toNat) rfl rfl (by omega)
theorem vShr (x : Reg) (y : Reg) (z : Reg) (c : Bool) : Statement (.vShr x y z c) := by
  have hc := Bool.toNat_lt c
  exact of_sum 1 (0x28400000 + x.toNat * 65536 + y.toNat * 1024 + z.toNat * 16 + c.toNat) rfl rfl (by omega)
theorem vSha (x : Reg) (y : Reg) (z : Reg) (c : Bool) : Statement (.vSha x y z c) := by
  have hc := Bool.toNat_lt c
  exact of_sum 1 (0x28800000 + x.toNat * 65536 + y.toNat * 1024 + z.toNat * 16 + c.toNat) rfl rfl (by omega)
theorem vImin (x : Reg) (y : Reg) (z : Reg) (m : Bool) (c : Bool) : Statement (.vImin x y z m c) := by
  have hm := Bool.toNat_lt m
  have hc := Bool.toNat_lt c
  exact of_sum 1 (0x28C00000 + x.toNat * 65536 + y.toNat * 1024 + z.toNat * 16 + m.toNat * 2 + c.toNat) rfl rfl (by omega)
theorem vImax (x : Reg) (y : Reg) (z : Reg) (m : Bool) (c : Bool) : Statement (.vImax x y z m c) := by
  have hm := Bool.toNat_lt m
  have hc := Bool.toNat_lt c
  exact of_sum 1 (0x29000000 + x.toNat * 65536 + y.toNat * 1024 + z.toNat * 16 + m.toNat * 2 + c.toNat) rfl rfl (by omega)
theorem vCmp (x : Reg) (y : Reg) (z : Reg) (m : BitVec 3) (c : Bool) : Statement (.vCmp x y z m c) := by
  have hc := Bool.toNat_lt c
  exact of_sum 1 (0x2A000000 + x.toNat * 65536 + y.toNat * 1024 + z.toNat * 16 + m.toNat * 2 + c.toNat) rfl rfl (by omega)
theorem vIcmp (x : Reg) (y : Reg) (z : Reg) (m : BitVec 3) (c : Bool) : Statement (.vIcmp x y z m c) := by
  have hc := Bool.toNat_lt c
  exact of_sum 1 (0x2A400000 + x.toNat * 65536 + y.toNat * 1024 + z.toNat * 16 + m.toNat * 2 + c.toNat) rfl rfl (by omega)
theorem vSel (x : Reg) (y : Reg) (z : Reg) (m : BitVec 3) (c : Bool) : Statement (.vSel x y z m c) := by
  have hc := Bool.toNat_lt c
  exact of_sum 1 (0x2A800000 + x.toNat * 65536 + y.toNat * 1024 + z.toNat * 16 + m.toNat * 2 + c.toNat) rfl rfl (by omega)
theorem vPand (x : Reg) (y : Reg) (z : Reg) (c : Bool) : Statement (.vPand x y z c) := by
  have hc := Bool.toNat_lt c
  exact of_sum 1 (0x2AC00000 + x.toNat * 65536 + y.toNat * 1024 + z.toNat * 16 + c.toNat) rfl rfl (by omega)
theorem vPor (x : Reg) (y : Reg) (z : Reg) (c : Bool) : Statement (.vPor x y z c) := by
  have hc := Bool.toNat_lt c
  exact of_sum 1 (0x2B000000 + x.toNat * 65536 + y.toNat * 1024 + z.toNat * 16 + c.toNat) rfl rfl (by omega)
theorem vPxor (x : Reg) (y : Reg) (z : Reg) (c : Bool) : Statement (.vPxor x y z c) := by
  have hc := Bool.toNat_lt c
  exact of_sum 1 (0x2B400000 + x.toNat * 65536 + y.toNat * 1024 + z.toNat * 16 + c.toNat) rfl rfl (by omega)
theorem vPnot (x : Reg) (y : Reg) (c : Bool) : Statement (.vPnot x y c) := by
  have hc := Bool.toNat_lt c
  exact of_sum 1 (0x2B800000 + x.toNat * 65536 + y.toNat * 1024 + c.toNat) rfl rfl (by omega)
theorem vRotr (x : Reg) (y : Reg) (i : BitVec 9) (c : Bool) : Statement (.vRotr x y i c) := by
  have hc := Bool.toNat_lt c
  exact of_sum 1 (0x2C000000 + x.toNat * 65536 + y.toNat * 1024 + i.toNat * 2 + c.toNat) rfl rfl (by omega)
theorem vRotc (x : Reg) (y : Reg) (i : BitVec 9) (c : Bool) : Statement (.vRotc x y i c) := by
  have hc := Bool.toNat_lt c
  exact of_sum 1 (0x2C400000 + x.toNat * 65536 + y.toNat * 1024 + i.toNat * 2 + c.toNat) rfl rfl (by omega)
theorem vBcr (x : Reg) (y : Reg) (i : BitVec 9) (c : Bool) : Statement (.vBcr x y i c) := by
  have hc := Bool.toNat_lt c
  exact of_sum 1 (0x2C800000 + x.toNat * 65536 + y.toNat * 1024 + i.toNat * 2 + c.toNat) rfl rfl (by omega)
theorem vBcc (x : Reg) (y : Reg) (i : BitVec 9) (c : Bool) : Statement (.vBcc x y i c) := by
  have hc := Bool.toNat_lt c
  exact of_sum 1 (0x2CC00000 + x.toNat * 65536 + y.toNat * 1024 + i.toNat * 2 + c.toNat) rfl rfl (by omega)
theorem vRedr (x : Reg) (y : Reg) (m : BitVec 3) (c : Bool) : Statement (.vRedr x y m c) := by
  have hc := Bool.toNat_lt c
  exact of_sum 1 (0x2D000000 + x.toNat * 65536 + y.toNat * 1024 + m.toNat * 2 + c.toNat) rfl rfl (by omega)
theorem vRedc (x : Reg) (y : Reg) (m : BitVec 3) (c : Bool) : Statement (.vRedc x y m c) := by
  have hc := Bool.toNat_lt c
  exact of_sum 1 (0x2D400000 + x.toNat * 65536 + y.toNat * 1024 + m.toNat * 2 + c.toNat) rfl rfl (by omega)
theorem vCvtf (x : Reg) (y : Reg) (m : Bool) (c : Bool) : Statement (.vCvtf x y m c) := by
  have hm := Bool.toNat_lt m
  have hc := Bool.toNat_lt c
  exact of_sum 1 (0x2E000000 + x.toNat * 65536 + y.toNat * 1024 + m.toNat * 2 + c.toNat) rfl rfl (by omega)
theorem vCvti (x : Reg) (y : Reg) (m : Bool) (c : Bool) : Statement (.vCvti x y m c) := by
  have hm := Bool.toNat_lt m
  have hc := Bool.toNat_lt c
  exact of_sum 1 (0x2E400000 + x.toNat * 65536 + y.toNat * 1024 + m.toNat * 2 + c.toNat) rfl rfl (by omega)
theorem vCvtq (x : Reg) (y : Reg) (m : BitVec 3) (c : Bool) : Statement (.vCvtq x y m c) := by
  have hc := Bool.toNat_lt c
  exact of_sum 1 (0x2E800000 + x.toNat * 65536 + y.toNat * 1024 + m.toNat * 2 + c.toNat) rfl rfl (by omega)
theorem vExp2 (x : Reg) (y : Reg) (c : Bool) : Statement (.vExp2 x y c) := by
  have hc := Bool.toNat_lt c
  exact of_sum 1 (0x30000000 + x.toNat * 65536 + y.toNat * 1024 + c.toNat) rfl rfl (by omega)
theorem vLog2 (x : Reg) (y : Reg) (c : Bool) : Statement (.vLog2 x y c) := by
  have hc := Bool.toNat_lt c
  exact of_sum 1 (0x30400000 + x.toNat * 65536 + y.toNat * 1024 + c.toNat) rfl rfl (by omega)
theorem vRcp (x : Reg) (y : Reg) (c : Bool) : Statement (.vRcp x y c) := by
  have hc := Bool.toNat_lt c
  exact of_sum 1 (0x30800000 + x.toNat * 65536 + y.toNat * 1024 + c.toNat) rfl rfl (by omega)
theorem vRsq (x : Reg) (y : Reg) (c : Bool) : Statement (.vRsq x y c) := by
  have hc := Bool.toNat_lt c
  exact of_sum 1 (0x30C00000 + x.toNat * 65536 + y.toNat * 1024 + c.toNat) rfl rfl (by omega)
theorem vTanh (x : Reg) (y : Reg) (c : Bool) : Statement (.vTanh x y c) := by
  have hc := Bool.toNat_lt c
  exact of_sum 1 (0x31000000 + x.toNat * 65536 + y.toNat * 1024 + c.toNat) rfl rfl (by omega)
theorem vSigm (x : Reg) (y : Reg) (c : Bool) : Statement (.vSigm x y c) := by
  have hc := Bool.toNat_lt c
  exact of_sum 1 (0x31400000 + x.toNat * 65536 + y.toNat * 1024 + c.toNat) rfl rfl (by omega)
theorem vRng (x : Reg) (m : BitVec 2) (c : Bool) : Statement (.vRng x m c) := by
  have hc := Bool.toNat_lt c
  exact of_sum 1 (0x32000000 + x.toNat * 65536 + m.toNat * 2 + c.toNat) rfl rfl (by omega)
theorem vStop (x : Reg) (y : Reg) (z : Reg) (c : Bool) : Statement (.vStop x y z c) := by
  have hc := Bool.toNat_lt c
  exact of_sum 1 (0x32400000 + x.toNat * 65536 + y.toNat * 1024 + z.toNat * 16 + c.toNat) rfl rfl (by omega)
theorem vLoop (d : Reg) (l : BitVec 4) (c : Bool) : Statement (.vLoop d l c) := by
  have hc := Bool.toNat_lt c
  exact of_sum 1 (0x32800000 + d.toNat * 65536 + l.toNat * 4096 + c.toNat) rfl rfl (by omega)
theorem mMma (x : Reg) (y : Reg) (z : Reg) (c : Bool) : Statement (.mMma x y z c) := by
  have hc := Bool.toNat_lt c
  exact of_sum 2 (0x40400000 + x.toNat * 65536 + y.toNat * 1024 + z.toNat * 16 + c.toNat) rfl rfl (by omega)
theorem mMmaG (x : Reg) (y : Reg) (z : Reg) (c : Bool) : Statement (.mMmaG x y z c) := by
  have hc := Bool.toNat_lt c
  exact of_sum 2 (0x40800000 + x.toNat * 65536 + y.toNat * 1024 + z.toNat * 16 + c.toNat) rfl rfl (by omega)
theorem mLdw (x : Reg) (y : Reg) (z : Reg) (m : BitVec 3) (c : Bool) : Statement (.mLdw x y z m c) := by
  have hc := Bool.toNat_lt c
  exact of_sum 2 (0x40C00000 + x.toNat * 65536 + y.toNat * 1024 + z.toNat * 16 + m.toNat * 2 + c.toNat) rfl rfl (by omega)
theorem mSwap (i : BitVec 9) (c : Bool) : Statement (.mSwap i c) := by
  have hc := Bool.toNat_lt c
  exact of_sum 2 (0x41000000 + i.toNat * 2 + c.toNat) rfl rfl (by omega)
theorem mZero (x : Reg) (y : Reg) (c : Bool) : Statement (.mZero x y c) := by
  have hc := Bool.toNat_lt c
  exact of_sum 2 (0x41400000 + x.toNat * 65536 + y.toNat * 1024 + c.toNat) rfl rfl (by omega)
theorem mRdz (x : Reg) (y : Reg) (z : Reg) (c : Bool) : Statement (.mRdz x y z c) := by
  have hc := Bool.toNat_lt c
  exact of_sum 2 (0x41800000 + x.toNat * 65536 + y.toNat * 1024 + z.toNat * 16 + c.toNat) rfl rfl (by omega)
theorem mWrz (x : Reg) (y : Reg) (z : Reg) (c : Bool) : Statement (.mWrz x y z c) := by
  have hc := Bool.toNat_lt c
  exact of_sum 2 (0x41C00000 + x.toNat * 65536 + y.toNat * 1024 + z.toNat * 16 + c.toNat) rfl rfl (by omega)
theorem mCkpt (x : Reg) (y : Reg) (s : BitVec 4) (t : BitVec 4) (c : Bool) : Statement (.mCkpt x y s t c) := by
  have hc := Bool.toNat_lt c
  exact of_sum 2 (0x42000000 + x.toNat * 65536 + y.toNat * 1024 + s.toNat * 32 + t.toNat * 2 + c.toNat) rfl rfl (by omega)
theorem mRest (x : Reg) (y : Reg) (s : BitVec 4) (t : BitVec 4) (c : Bool) : Statement (.mRest x y s t c) := by
  have hc := Bool.toNat_lt c
  exact of_sum 2 (0x42400000 + x.toNat * 65536 + y.toNat * 1024 + s.toNat * 32 + t.toNat * 2 + c.toNat) rfl rfl (by omega)
theorem mEpi (x : Reg) (y : Reg) (z : Reg) (c : Bool) : Statement (.mEpi x y z c) := by
  have hc := Bool.toNat_lt c
  exact of_sum 2 (0x42800000 + x.toNat * 65536 + y.toNat * 1024 + z.toNat * 16 + c.toNat) rfl rfl (by omega)
theorem mLoop (d : Reg) (l : BitVec 4) (c : Bool) : Statement (.mLoop d l c) := by
  have hc := Bool.toNat_lt c
  exact of_sum 2 (0x42C00000 + d.toNat * 65536 + l.toNat * 4096 + c.toNat) rfl rfl (by omega)
theorem mTsub (x : Reg) (y : Reg) (c : Bool) : Statement (.mTsub x y c) := by
  have hc := Bool.toNat_lt c
  exact of_sum 2 (0x43000000 + x.toNat * 65536 + y.toNat * 1024 + c.toNat) rfl rfl (by omega)
theorem mTqry (x : Reg) (y : Reg) (c : Bool) : Statement (.mTqry x y c) := by
  have hc := Bool.toNat_lt c
  exact of_sum 2 (0x43400000 + x.toNat * 65536 + y.toNat * 1024 + c.toNat) rfl rfl (by omega)
theorem mTcan (x : Reg) (y : Reg) (m : Bool) (c : Bool) : Statement (.mTcan x y m c) := by
  have hm := Bool.toNat_lt m
  have hc := Bool.toNat_lt c
  exact of_sum 2 (0x43800000 + x.toNat * 65536 + y.toNat * 1024 + m.toNat * 2 + c.toNat) rfl rfl (by omega)
theorem mRdv (x : Reg) (m : Bool) (c : Bool) : Statement (.mRdv x m c) := by
  have hm := Bool.toNat_lt m
  have hc := Bool.toNat_lt c
  exact of_sum 2 (0x43C00000 + x.toNat * 65536 + m.toNat * 2 + c.toNat) rfl rfl (by omega)
theorem mWid (x : Reg) (y : Reg) (c : Bool) : Statement (.mWid x y c) := by
  have hc := Bool.toNat_lt c
  exact of_sum 2 (0x44000000 + x.toNat * 65536 + y.toNat * 1024 + c.toNat) rfl rfl (by omega)
theorem cCp (x : Reg) (y : Reg) (z : Reg) (m : BitVec 3) (c : Bool) : Statement (.cCp x y z m c) := by
  have hc := Bool.toNat_lt c
  exact of_sum 3 (0x60400000 + x.toNat * 65536 + y.toNat * 1024 + z.toNat * 16 + m.toNat * 2 + c.toNat) rfl rfl (by omega)
theorem cCpd (x : Reg) (y : Reg) (z : Reg) (m : BitVec 2) (c : Bool) : Statement (.cCpd x y z m c) := by
  have hc := Bool.toNat_lt c
  exact of_sum 3 (0x60800000 + x.toNat * 65536 + y.toNat * 1024 + z.toNat * 16 + m.toNat * 2 + c.toNat) rfl rfl (by omega)
theorem cGath (x : Reg) (y : Reg) (z : Reg) (m : BitVec 3) (c : Bool) : Statement (.cGath x y z m c) := by
  have hc := Bool.toNat_lt c
  exact of_sum 3 (0x60C00000 + x.toNat * 65536 + y.toNat * 1024 + z.toNat * 16 + m.toNat * 2 + c.toNat) rfl rfl (by omega)
theorem cScat (x : Reg) (y : Reg) (z : Reg) (m : BitVec 3) (c : Bool) : Statement (.cScat x y z m c) := by
  have hc := Bool.toNat_lt c
  exact of_sum 3 (0x61000000 + x.toNat * 65536 + y.toNat * 1024 + z.toNat * 16 + m.toNat * 2 + c.toNat) rfl rfl (by omega)
theorem cFill (x : Reg) (y : Reg) (i : BitVec 9) (c : Bool) : Statement (.cFill x y i c) := by
  have hc := Bool.toNat_lt c
  exact of_sum 3 (0x61400000 + x.toNat * 65536 + y.toNat * 1024 + i.toNat * 2 + c.toNat) rfl rfl (by omega)
theorem cCvt (x : Reg) (y : Reg) (z : Reg) (m : BitVec 2) (c : Bool) : Statement (.cCvt x y z m c) := by
  have hc := Bool.toNat_lt c
  exact of_sum 3 (0x61800000 + x.toNat * 65536 + y.toNat * 1024 + z.toNat * 16 + m.toNat * 2 + c.toNat) rfl rfl (by omega)
theorem cBind (x : Reg) (y : Reg) (z : Reg) (m : BitVec 2) (c : Bool) : Statement (.cBind x y z m c) := by
  have hc := Bool.toNat_lt c
  exact of_sum 3 (0x61C00000 + x.toNat * 65536 + y.toNat * 1024 + z.toNat * 16 + m.toNat * 2 + c.toNat) rfl rfl (by omega)
theorem cKvg (x : Reg) (y : Reg) (z : Reg) (m : Bool) (c : Bool) : Statement (.cKvg x y z m c) := by
  have hm := Bool.toNat_lt m
  have hc := Bool.toNat_lt c
  exact of_sum 3 (0x62000000 + x.toNat * 65536 + y.toNat * 1024 + z.toNat * 16 + m.toNat * 2 + c.toNat) rfl rfl (by omega)
theorem cKvs (x : Reg) (y : Reg) (z : Reg) (m : Bool) (c : Bool) : Statement (.cKvs x y z m c) := by
  have hm := Bool.toNat_lt m
  have hc := Bool.toNat_lt c
  exact of_sum 3 (0x62400000 + x.toNat * 65536 + y.toNat * 1024 + z.toNat * 16 + m.toNat * 2 + c.toNat) rfl rfl (by omega)
theorem cGm (x : Reg) (y : Reg) (z : Reg) (m : Bool) (c : Bool) : Statement (.cGm x y z m c) := by
  have hm := Bool.toNat_lt m
  have hc := Bool.toNat_lt c
  exact of_sum 3 (0x62800000 + x.toNat * 65536 + y.toNat * 1024 + z.toNat * 16 + m.toNat * 2 + c.toNat) rfl rfl (by omega)
theorem cPeer (x : Reg) (y : Reg) (z : Reg) (c : Bool) : Statement (.cPeer x y z c) := by
  have hc := Bool.toNat_lt c
  exact of_sum 3 (0x62C00000 + x.toNat * 65536 + y.toNat * 1024 + z.toNat * 16 + c.toNat) rfl rfl (by omega)
theorem cRwin (x : Reg) (y : Reg) (z : Reg) (m : BitVec 3) (c : Bool) : Statement (.cRwin x y z m c) := by
  have hc := Bool.toNat_lt c
  exact of_sum 3 (0x63000000 + x.toNat * 65536 + y.toNat * 1024 + z.toNat * 16 + m.toNat * 2 + c.toNat) rfl rfl (by omega)
theorem cPf (x : Reg) (y : Reg) (m : Bool) (c : Bool) : Statement (.cPf x y m c) := by
  have hm := Bool.toNat_lt m
  have hc := Bool.toNat_lt c
  exact of_sum 3 (0x63400000 + x.toNat * 65536 + y.toNat * 1024 + m.toNat * 2 + c.toNat) rfl rfl (by omega)
theorem cLoop (d : Reg) (l : BitVec 4) (c : Bool) : Statement (.cLoop d l c) := by
  have hc := Bool.toNat_lt c
  exact of_sum 3 (0x63800000 + d.toNat * 65536 + l.toNat * 4096 + c.toNat) rfl rfl (by omega)
theorem cUnbind (x : Reg) (c : Bool) : Statement (.cUnbind x c) := by
  have hc := Bool.toNat_lt c
  exact of_sum 3 (0x64000000 + x.toNat * 65536 + c.toNat) rfl rfl (by omega)
theorem cDsc (x : Reg) (y : Reg) (m : Bool) (c : Bool) : Statement (.cDsc x y m c) := by
  have hm := Bool.toNat_lt m
  have hc := Bool.toNat_lt c
  exact of_sum 3 (0x64400000 + x.toNat * 65536 + y.toNat * 1024 + m.toNat * 2 + c.toNat) rfl rfl (by omega)
theorem cBbinv (y : Reg) (c : Bool) : Statement (.cBbinv y c) := by
  have hc := Bool.toNat_lt c
  exact of_sum 3 (0x64800000 + y.toNat * 1024 + c.toNat) rfl rfl (by omega)
theorem bAdd (x : Reg) (y : Reg) (z : Reg) (r : Bool) (w : Bool) (c : Bool) : Statement (.bAdd x y z r w c) := by
  have hr := Bool.toNat_lt r
  have hw := Bool.toNat_lt w
  have hc := Bool.toNat_lt c
  exact of_sum 4 (0x80400000 + x.toNat * 65536 + y.toNat * 1024 + z.toNat * 16 + r.toNat * 4 + w.toNat * 2 + c.toNat) rfl rfl (by omega)
theorem bMin (x : Reg) (y : Reg) (z : Reg) (r : Bool) (w : Bool) (c : Bool) : Statement (.bMin x y z r w c) := by
  have hr := Bool.toNat_lt r
  have hw := Bool.toNat_lt w
  have hc := Bool.toNat_lt c
  exact of_sum 4 (0x80800000 + x.toNat * 65536 + y.toNat * 1024 + z.toNat * 16 + r.toNat * 4 + w.toNat * 2 + c.toNat) rfl rfl (by omega)
theorem bMax (x : Reg) (y : Reg) (z : Reg) (r : Bool) (w : Bool) (c : Bool) : Statement (.bMax x y z r w c) := by
  have hr := Bool.toNat_lt r
  have hw := Bool.toNat_lt w
  have hc := Bool.toNat_lt c
  exact of_sum 4 (0x80C00000 + x.toNat * 65536 + y.toNat * 1024 + z.toNat * 16 + r.toNat * 4 + w.toNat * 2 + c.toNat) rfl rfl (by omega)
theorem bMinu (x : Reg) (y : Reg) (z : Reg) (r : Bool) (w : Bool) (c : Bool) : Statement (.bMinu x y z r w c) := by
  have hr := Bool.toNat_lt r
  have hw := Bool.toNat_lt w
  have hc := Bool.toNat_lt c
  exact of_sum 4 (0x81000000 + x.toNat * 65536 + y.toNat * 1024 + z.toNat * 16 + r.toNat * 4 + w.toNat * 2 + c.toNat) rfl rfl (by omega)
theorem bMaxu (x : Reg) (y : Reg) (z : Reg) (r : Bool) (w : Bool) (c : Bool) : Statement (.bMaxu x y z r w c) := by
  have hr := Bool.toNat_lt r
  have hw := Bool.toNat_lt w
  have hc := Bool.toNat_lt c
  exact of_sum 4 (0x81400000 + x.toNat * 65536 + y.toNat * 1024 + z.toNat * 16 + r.toNat * 4 + w.toNat * 2 + c.toNat) rfl rfl (by omega)
theorem bAnd (x : Reg) (y : Reg) (z : Reg) (r : Bool) (w : Bool) (c : Bool) : Statement (.bAnd x y z r w c) := by
  have hr := Bool.toNat_lt r
  have hw := Bool.toNat_lt w
  have hc := Bool.toNat_lt c
  exact of_sum 4 (0x81800000 + x.toNat * 65536 + y.toNat * 1024 + z.toNat * 16 + r.toNat * 4 + w.toNat * 2 + c.toNat) rfl rfl (by omega)
theorem bOr (x : Reg) (y : Reg) (z : Reg) (r : Bool) (w : Bool) (c : Bool) : Statement (.bOr x y z r w c) := by
  have hr := Bool.toNat_lt r
  have hw := Bool.toNat_lt w
  have hc := Bool.toNat_lt c
  exact of_sum 4 (0x81C00000 + x.toNat * 65536 + y.toNat * 1024 + z.toNat * 16 + r.toNat * 4 + w.toNat * 2 + c.toNat) rfl rfl (by omega)
theorem bXor (x : Reg) (y : Reg) (z : Reg) (r : Bool) (w : Bool) (c : Bool) : Statement (.bXor x y z r w c) := by
  have hr := Bool.toNat_lt r
  have hw := Bool.toNat_lt w
  have hc := Bool.toNat_lt c
  exact of_sum 4 (0x82000000 + x.toNat * 65536 + y.toNat * 1024 + z.toNat * 16 + r.toNat * 4 + w.toNat * 2 + c.toNat) rfl rfl (by omega)
theorem bSwap (x : Reg) (y : Reg) (z : Reg) (r : Bool) (w : Bool) (c : Bool) : Statement (.bSwap x y z r w c) := by
  have hr := Bool.toNat_lt r
  have hw := Bool.toNat_lt w
  have hc := Bool.toNat_lt c
  exact of_sum 4 (0x82400000 + x.toNat * 65536 + y.toNat * 1024 + z.toNat * 16 + r.toNat * 4 + w.toNat * 2 + c.toNat) rfl rfl (by omega)
theorem bCas (x : Reg) (y : Reg) (z : Reg) (r : Bool) (w : Bool) (c : Bool) : Statement (.bCas x y z r w c) := by
  have hr := Bool.toNat_lt r
  have hw := Bool.toNat_lt w
  have hc := Bool.toNat_lt c
  exact of_sum 4 (0x82800000 + x.toNat * 65536 + y.toNat * 1024 + z.toNat * 16 + r.toNat * 4 + w.toNat * 2 + c.toNat) rfl rfl (by omega)
theorem bFadd (x : Reg) (y : Reg) (z : Reg) (c : Bool) : Statement (.bFadd x y z c) := by
  have hc := Bool.toNat_lt c
  exact of_sum 4 (0x82C00000 + x.toNat * 65536 + y.toNat * 1024 + z.toNat * 16 + c.toNat) rfl rfl (by omega)
theorem bFadb (x : Reg) (y : Reg) (z : Reg) (c : Bool) : Statement (.bFadb x y z c) := by
  have hc := Bool.toNat_lt c
  exact of_sum 4 (0x83000000 + x.toNat * 65536 + y.toNat * 1024 + z.toNat * 16 + c.toNat) rfl rfl (by omega)
theorem bScal (x : Reg) (y : Reg) (z : Reg) (t : Bool) (c : Bool) : Statement (.bScal x y z t c) := by
  have ht := Bool.toNat_lt t
  have hc := Bool.toNat_lt c
  exact of_sum 4 (0x83400000 + x.toNat * 65536 + y.toNat * 1024 + z.toNat * 16 + t.toNat * 2 + c.toNat) rfl rfl (by omega)
theorem bAxpy (x : Reg) (y : Reg) (z : Reg) (t : Bool) (c : Bool) : Statement (.bAxpy x y z t c) := by
  have ht := Bool.toNat_lt t
  have hc := Bool.toNat_lt c
  exact of_sum 4 (0x83800000 + x.toNat * 65536 + y.toNat * 1024 + z.toNat * 16 + t.toNat * 2 + c.toNat) rfl rfl (by omega)
theorem bWait (x : Reg) (y : Reg) (z : Reg) (k : BitVec 2) (w : Bool) (c : Bool) : Statement (.bWait x y z k w c) := by
  have hw := Bool.toNat_lt w
  have hc := Bool.toNat_lt c
  exact of_sum 4 (0x83C00000 + x.toNat * 65536 + y.toNat * 1024 + z.toNat * 16 + k.toNat * 4 + w.toNat * 2 + c.toNat) rfl rfl (by omega)
theorem bVst (x : Reg) (y : Reg) (z : Reg) (c : Bool) : Statement (.bVst x y z c) := by
  have hc := Bool.toNat_lt c
  exact of_sum 4 (0x84000000 + x.toNat * 65536 + y.toNat * 1024 + z.toNat * 16 + c.toNat) rfl rfl (by omega)
theorem bVld (x : Reg) (y : Reg) (z : Reg) (t : Bool) (c : Bool) : Statement (.bVld x y z t c) := by
  have ht := Bool.toNat_lt t
  have hc := Bool.toNat_lt c
  exact of_sum 4 (0x84400000 + x.toNat * 65536 + y.toNat * 1024 + z.toNat * 16 + t.toNat * 2 + c.toNat) rfl rfl (by omega)
theorem bVldLe (x : Reg) (y : Reg) (z : Reg) (t : Bool) (c : Bool) : Statement (.bVldLe x y z t c) := by
  have ht := Bool.toNat_lt t
  have hc := Bool.toNat_lt c
  exact of_sum 4 (0x84800000 + x.toNat * 65536 + y.toNat * 1024 + z.toNat * 16 + t.toNat * 2 + c.toNat) rfl rfl (by omega)
theorem bVretire (x : Reg) (y : Reg) (c : Bool) : Statement (.bVretire x y c) := by
  have hc := Bool.toNat_lt c
  exact of_sum 4 (0x84C00000 + x.toNat * 65536 + y.toNat * 1024 + c.toNat) rfl rfl (by omega)
theorem bVnew (x : Reg) (y : Reg) (c : Bool) : Statement (.bVnew x y c) := by
  have hc := Bool.toNat_lt c
  exact of_sum 4 (0x85000000 + x.toNat * 65536 + y.toNat * 1024 + c.toNat) rfl rfl (by omega)
theorem bVfloor (x : Reg) (y : Reg) (c : Bool) : Statement (.bVfloor x y c) := by
  have hc := Bool.toNat_lt c
  exact of_sum 4 (0x85400000 + x.toNat * 65536 + y.toNat * 1024 + c.toNat) rfl rfl (by omega)
theorem bVreg (x : Reg) (y : Reg) (c : Bool) : Statement (.bVreg x y c) := by
  have hc := Bool.toNat_lt c
  exact of_sum 4 (0x85800000 + x.toNat * 65536 + y.toNat * 1024 + c.toNat) rfl rfl (by omega)
theorem bVregFree (x : Reg) (y : Reg) (c : Bool) : Statement (.bVregFree x y c) := by
  have hc := Bool.toNat_lt c
  exact of_sum 4 (0x85800002 + x.toNat * 65536 + y.toNat * 1024 + c.toNat) rfl rfl (by omega)
theorem bVregRd (x : Reg) (y : Reg) (c : Bool) : Statement (.bVregRd x y c) := by
  have hc := Bool.toNat_lt c
  exact of_sum 4 (0x85800004 + x.toNat * 65536 + y.toNat * 1024 + c.toNat) rfl rfl (by omega)
theorem bVregSpill (x : Reg) (y : Reg) (c : Bool) : Statement (.bVregSpill x y c) := by
  have hc := Bool.toNat_lt c
  exact of_sum 4 (0x85800006 + x.toNat * 65536 + y.toNat * 1024 + c.toNat) rfl rfl (by omega)
theorem aAttn (x : Reg) (y : Reg) (z : Reg) (k : Bool) (v : Bool) (c : Bool) : Statement (.aAttn x y z k v c) := by
  have hk := Bool.toNat_lt k
  have hv := Bool.toNat_lt v
  have hc := Bool.toNat_lt c
  exact of_sum 5 (0xA0400000 + x.toNat * 65536 + y.toNat * 1024 + z.toNat * 16 + k.toNat * 4 + v.toNat * 2 + c.toNat) rfl rfl (by omega)
theorem aPart (x : Reg) (y : Reg) (z : Reg) (k : Bool) (v : Bool) (c : Bool) : Statement (.aPart x y z k v c) := by
  have hk := Bool.toNat_lt k
  have hv := Bool.toNat_lt v
  have hc := Bool.toNat_lt c
  exact of_sum 5 (0xA0800000 + x.toNat * 65536 + y.toNat * 1024 + z.toNat * 16 + k.toNat * 4 + v.toNat * 2 + c.toNat) rfl rfl (by omega)
theorem aMerge (x : Reg) (y : Reg) (z : Reg) (n : Bool) (c : Bool) : Statement (.aMerge x y z n c) := by
  have hn := Bool.toNat_lt n
  have hc := Bool.toNat_lt c
  exact of_sum 5 (0xA0C00000 + x.toNat * 65536 + y.toNat * 1024 + z.toNat * 16 + n.toNat * 2 + c.toNat) rfl rfl (by omega)
theorem aCfg (x : Reg) (i : BitVec 9) (c : Bool) : Statement (.aCfg x i c) := by
  have hc := Bool.toNat_lt c
  exact of_sum 5 (0xA1000000 + x.toNat * 65536 + i.toNat * 2 + c.toNat) rfl rfl (by omega)
theorem aBinv (y : Reg) (c : Bool) : Statement (.aBinv y c) := by
  have hc := Bool.toNat_lt c
  exact of_sum 5 (0xA1400000 + y.toNat * 1024 + c.toNat) rfl rfl (by omega)
theorem aPref (y : Reg) (z : Reg) (m : Bool) (c : Bool) : Statement (.aPref y z m c) := by
  have hm := Bool.toNat_lt m
  have hc := Bool.toNat_lt c
  exact of_sum 5 (0xA1800000 + y.toNat * 1024 + z.toNat * 16 + m.toNat * 2 + c.toNat) rfl rfl (by omega)
theorem kPool (x : Reg) (y : Reg) (c : Bool) : Statement (.kPool x y c) := by
  have hc := Bool.toNat_lt c
  exact of_sum 6 (0xC0400000 + x.toNat * 65536 + y.toNat * 1024 + c.toNat) rfl rfl (by omega)
theorem kPoolOff (y : Reg) (c : Bool) : Statement (.kPoolOff y c) := by
  have hc := Bool.toNat_lt c
  exact of_sum 6 (0xC0400002 + y.toNat * 1024 + c.toNat) rfl rfl (by omega)
theorem kTbl (x : Reg) (y : Reg) (z : Reg) (c : Bool) : Statement (.kTbl x y z c) := by
  have hc := Bool.toNat_lt c
  exact of_sum 6 (0xC0800000 + x.toNat * 65536 + y.toNat * 1024 + z.toNat * 16 + c.toNat) rfl rfl (by omega)
theorem kApp (x : Reg) (y : Reg) (z : Reg) (r : Bool) (w : Bool) (c : Bool) : Statement (.kApp x y z r w c) := by
  have hr := Bool.toNat_lt r
  have hw := Bool.toNat_lt w
  have hc := Bool.toNat_lt c
  exact of_sum 6 (0xC0C00000 + x.toNat * 65536 + y.toNat * 1024 + z.toNat * 16 + r.toNat * 4 + w.toNat * 2 + c.toNat) rfl rfl (by omega)
theorem kWr (x : Reg) (y : Reg) (z : Reg) (m : Bool) (c : Bool) : Statement (.kWr x y z m c) := by
  have hm := Bool.toNat_lt m
  have hc := Bool.toNat_lt c
  exact of_sum 6 (0xC1000000 + x.toNat * 65536 + y.toNat * 1024 + z.toNat * 16 + m.toNat * 2 + c.toNat) rfl rfl (by omega)
theorem kFork (x : Reg) (y : Reg) (z : Reg) (c : Bool) : Statement (.kFork x y z c) := by
  have hc := Bool.toNat_lt c
  exact of_sum 6 (0xC1400000 + x.toNat * 65536 + y.toNat * 1024 + z.toNat * 16 + c.toNat) rfl rfl (by omega)
theorem kTrunc (x : Reg) (y : Reg) (c : Bool) : Statement (.kTrunc x y c) := by
  have hc := Bool.toNat_lt c
  exact of_sum 6 (0xC1800000 + x.toNat * 65536 + y.toNat * 1024 + c.toNat) rfl rfl (by omega)
theorem kRet (x : Reg) (c : Bool) : Statement (.kRet x c) := by
  have hc := Bool.toNat_lt c
  exact of_sum 6 (0xC1C00000 + x.toNat * 65536 + c.toNat) rfl rfl (by omega)
theorem kWinOpen (x : Reg) (y : Reg) (z : Reg) (c : Bool) : Statement (.kWinOpen x y z c) := by
  have hc := Bool.toNat_lt c
  exact of_sum 6 (0xC2000000 + x.toNat * 65536 + y.toNat * 1024 + z.toNat * 16 + c.toNat) rfl rfl (by omega)
theorem kCommit (x : Reg) (y : Reg) (z : Reg) (n : Bool) (c : Bool) : Statement (.kCommit x y z n c) := by
  have hn := Bool.toNat_lt n
  have hc := Bool.toNat_lt c
  exact of_sum 6 (0xC2400000 + x.toNat * 65536 + y.toNat * 1024 + z.toNat * 16 + n.toNat * 2 + c.toNat) rfl rfl (by omega)
theorem kAbort (x : Reg) (y : Reg) (n : Bool) (c : Bool) : Statement (.kAbort x y n c) := by
  have hn := Bool.toNat_lt n
  have hc := Bool.toNat_lt c
  exact of_sum 6 (0xC2800000 + x.toNat * 65536 + y.toNat * 1024 + n.toNat * 2 + c.toNat) rfl rfl (by omega)
theorem kCkpt (x : Reg) (y : Reg) (z : Reg) (c : Bool) : Statement (.kCkpt x y z c) := by
  have hc := Bool.toNat_lt c
  exact of_sum 6 (0xC2C00000 + x.toNat * 65536 + y.toNat * 1024 + z.toNat * 16 + c.toNat) rfl rfl (by omega)
theorem kLen (x : Reg) (y : Reg) (c : Bool) : Statement (.kLen x y c) := by
  have hc := Bool.toNat_lt c
  exact of_sum 6 (0xC3000000 + x.toNat * 65536 + y.toNat * 1024 + c.toNat) rfl rfl (by omega)
theorem kBbinv (y : Reg) (c : Bool) : Statement (.kBbinv y c) := by
  have hc := Bool.toNat_lt c
  exact of_sum 6 (0xC3400000 + y.toNat * 1024 + c.toNat) rfl rfl (by omega)
theorem kFalloc (x : Reg) (y : Reg) (z : Reg) (n : Bool) (c : Bool) : Statement (.kFalloc x y z n c) := by
  have hn := Bool.toNat_lt n
  have hc := Bool.toNat_lt c
  exact of_sum 6 (0xC4000000 + x.toNat * 65536 + y.toNat * 1024 + z.toNat * 16 + n.toNat * 2 + c.toNat) rfl rfl (by omega)
theorem kFfree (x : Reg) (y : Reg) (z : Reg) (c : Bool) : Statement (.kFfree x y z c) := by
  have hc := Bool.toNat_lt c
  exact of_sum 6 (0xC4400000 + x.toNat * 65536 + y.toNat * 1024 + z.toNat * 16 + c.toNat) rfl rfl (by omega)
theorem kFscrub (x : Reg) (y : Reg) (c : Bool) : Statement (.kFscrub x y c) := by
  have hc := Bool.toNat_lt c
  exact of_sum 6 (0xC4800000 + x.toNat * 65536 + y.toNat * 1024 + c.toNat) rfl rfl (by omega)
theorem kFscrubTake (x : Reg) (y : Reg) (z : Reg) (c : Bool) : Statement (.kFscrubTake x y z c) := by
  have hc := Bool.toNat_lt c
  exact of_sum 6 (0xC4800002 + x.toNat * 65536 + y.toNat * 1024 + z.toNat * 16 + c.toNat) rfl rfl (by omega)
theorem kFref (x : Reg) (y : Reg) (z : Reg) (c : Bool) : Statement (.kFref x y z c) := by
  have hc := Bool.toNat_lt c
  exact of_sum 6 (0xC4C00000 + x.toNat * 65536 + y.toNat * 1024 + z.toNat * 16 + c.toNat) rfl rfl (by omega)
theorem kFqryBlk (x : Reg) (y : Reg) (z : Reg) (c : Bool) : Statement (.kFqryBlk x y z c) := by
  have hc := Bool.toNat_lt c
  exact of_sum 6 (0xC5000000 + x.toNat * 65536 + y.toNat * 1024 + z.toNat * 16 + c.toNat) rfl rfl (by omega)
theorem kFqryPool (x : Reg) (y : Reg) (c : Bool) : Statement (.kFqryPool x y c) := by
  have hc := Bool.toNat_lt c
  exact of_sum 6 (0xC5000002 + x.toNat * 65536 + y.toNat * 1024 + c.toNat) rfl rfl (by omega)
theorem steerResume : Statement .steerResume := ⟨Nat.two_pow_pos 32, nofun⟩
theorem remoteUnitReport (e : Nat) (k : Nat) : Statement (.remoteUnitReport e k) := ⟨Nat.two_pow_pos 32, nofun⟩
theorem trapTaken : Statement .trapTaken := ⟨Nat.two_pow_pos 32, nofun⟩
theorem gangPlace (order die : Nat) : Statement (.gangPlace order die) := ⟨Nat.two_pow_pos 32, nofun⟩
theorem gangPreempt (gang : Nat) : Statement (.gangPreempt gang) := ⟨Nat.two_pow_pos 32, nofun⟩
theorem gangResume (gang die : Nat) : Statement (.gangResume gang die) := ⟨Nat.two_pow_pos 32, nofun⟩
theorem strandRetire : Statement .strandRetire := ⟨Nat.two_pow_pos 32, nofun⟩
theorem waitSwitchTimeout : Statement .waitSwitchTimeout := ⟨Nat.two_pow_pos 32, nofun⟩
theorem turnQuantumExpiry : Statement .turnQuantumExpiry := ⟨Nat.two_pow_pos 32, nofun⟩
theorem bankWaitSatisfied : Statement .bankWaitSatisfied := ⟨Nat.two_pow_pos 32, nofun⟩
theorem versionLoadTimeout : Statement .versionLoadTimeout := ⟨Nat.two_pow_pos 32, nofun⟩
theorem pageRequestPost (fn : Nat) : Statement (.pageRequestPost fn) := ⟨Nat.two_pow_pos 32, nofun⟩
theorem prqheadWrite (fn head : Nat) : Statement (.prqheadWrite fn head) := ⟨Nat.two_pow_pos 32, nofun⟩
theorem prspWrite (fn tag code : Nat) : Statement (.prspWrite fn tag code) := ⟨Nat.two_pow_pos 32, nofun⟩
theorem s2invWrite (fn : Nat) (w : BitVec 64) : Statement (.s2invWrite fn w) := ⟨Nat.two_pow_pos 32, nofun⟩
theorem s2invDone (fn : Nat) : Statement (.s2invDone fn) := ⟨Nat.two_pow_pos 32, nofun⟩
theorem dbmctlWrite (fn : Nat) (w : BitVec 64) : Statement (.dbmctlWrite fn w) := ⟨Nat.two_pow_pos 32, nofun⟩
theorem dbmSwitchDone (fn : Nat) : Statement (.dbmSwitchDone fn) := ⟨Nat.two_pow_pos 32, nofun⟩
theorem weightRegionEnable (part i : Nat) : Statement (.weightRegionEnable part i) := ⟨Nat.two_pow_pos 32, nofun⟩
theorem weightRegionHashDone (part i : Nat) : Statement (.weightRegionHashDone part i) := ⟨Nat.two_pow_pos 32, nofun⟩
theorem weightRegionDisable (part i : Nat) : Statement (.weightRegionDisable part i) := ⟨Nat.two_pow_pos 32, nofun⟩
theorem weightRegionOff (part i : Nat) : Statement (.weightRegionOff part i) := ⟨Nat.two_pow_pos 32, nofun⟩
theorem taskAccept : Statement .taskAccept := ⟨Nat.two_pow_pos 32, nofun⟩
theorem taskDeadline (die : Nat) : Statement (.taskDeadline die) := ⟨Nat.two_pow_pos 32, nofun⟩
theorem passPlace (die : Nat) : Statement (.passPlace die) := ⟨Nat.two_pow_pos 32, nofun⟩
theorem passComplete (die : Nat) : Statement (.passComplete die) := ⟨Nat.two_pow_pos 32, nofun⟩
theorem draperExpire (fn : Nat) : Statement (.draperExpire fn) := ⟨Nat.two_pow_pos 32, nofun⟩
theorem fullerScrubStart (part pool : Nat) : Statement (.fullerScrubStart part pool) := ⟨Nat.two_pow_pos 32, nofun⟩
theorem scrubComplete (part pool : Nat) : Statement (.scrubComplete part pool) := ⟨Nat.two_pow_pos 32, nofun⟩
theorem hostMemoryAccess (w : Bool) (pa n : Nat) (data : List (BitVec 8)) : Statement (.hostMemoryAccess w pa n data) :=
  ⟨Nat.two_pow_pos 32, nofun⟩
theorem kickRegisterWrite (fn q value : Nat) : Statement (.kickRegisterWrite fn q value) := ⟨Nat.two_pow_pos 32, nofun⟩
theorem kick (fn q : Nat) : Statement (.kick fn q) := ⟨Nat.two_pow_pos 32, nofun⟩
theorem queueEnable (fn q : Nat) : Statement (.queueEnable fn q) := ⟨Nat.two_pow_pos 32, nofun⟩
theorem queueDisable (fn q : Nat) : Statement (.queueDisable fn q) := ⟨Nat.two_pow_pos 32, nofun⟩
theorem noOpPacket (fn q : Nat) : Statement (.noOpPacket fn q) := ⟨Nat.two_pow_pos 32, nofun⟩
theorem docketPacket (fn q : Nat) : Statement (.docketPacket fn q) := ⟨Nat.two_pow_pos 32, nofun⟩
theorem queueFencePacket (fn q : Nat) : Statement (.queueFencePacket fn q) := ⟨Nat.two_pow_pos 32, nofun⟩
theorem fenceComplete (fn q : Nat) : Statement (.fenceComplete fn q) := ⟨Nat.two_pow_pos 32, nofun⟩
theorem signalPacket (fn q : Nat) : Statement (.signalPacket fn q) := ⟨Nat.two_pow_pos 32, nofun⟩
theorem memoryWaitPacket (fn q : Nat) : Statement (.memoryWaitPacket fn q) := ⟨Nat.two_pow_pos 32, nofun⟩
theorem memoryWaitSatisfied (fn q : Nat) : Statement (.memoryWaitSatisfied fn q) := ⟨Nat.two_pow_pos 32, nofun⟩
theorem batchStepPacket (fn q : Nat) : Statement (.batchStepPacket fn q) := ⟨Nat.two_pow_pos 32, nofun⟩
theorem stepBoundary (fn q : Nat) : Statement (.stepBoundary fn q) := ⟨Nat.two_pow_pos 32, nofun⟩
theorem stepRetirement (fn q : Nat) : Statement (.stepRetirement fn q) := ⟨Nat.two_pow_pos 32, nofun⟩
theorem completionRecordWrite (fn q : Nat) : Statement (.completionRecordWrite fn q) := ⟨Nat.two_pow_pos 32, nofun⟩
theorem cqheadWrite (fn q head : Nat) : Statement (.cqheadWrite fn q head) := ⟨Nat.two_pow_pos 32, nofun⟩
theorem hangDetected (gang : Nat) : Statement (.hangDetected gang) := ⟨Nat.two_pow_pos 32, nofun⟩
theorem decodeImageLoad (part reason : Nat) (digest : BitVec 512) : Statement (.decodeImageLoad part reason digest) :=
  ⟨Nat.two_pow_pos 32, nofun⟩
theorem partitionHold (part : Nat) : Statement (.partitionHold part) := ⟨Nat.two_pow_pos 32, nofun⟩
theorem partitionRst (part : Nat) : Statement (.partitionRst part) := ⟨Nat.two_pow_pos 32, nofun⟩
theorem partitionRelease (part : Nat) : Statement (.partitionRelease part) := ⟨Nat.two_pow_pos 32, nofun⟩
theorem ownedRangeReady (part : Nat) : Statement (.ownedRangeReady part) := ⟨Nat.two_pow_pos 32, nofun⟩
theorem functionReset (fn : Nat) : Statement (.functionReset fn) := ⟨Nat.two_pow_pos 32, nofun⟩
theorem functionResetDone (fn : Nat) : Statement (.functionResetDone fn) := ⟨Nat.two_pow_pos 32, nofun⟩
theorem functionLevelReset (fn : Nat) : Statement (.functionLevelReset fn) := ⟨Nat.two_pow_pos 32, nofun⟩
theorem functionEnable (fn : Nat) (on : Bool) : Statement (.functionEnable fn on) := ⟨Nat.two_pow_pos 32, nofun⟩
theorem privqClear (fn : Nat) : Statement (.privqClear fn) := ⟨Nat.two_pow_pos 32, nofun⟩
theorem deviceReset : Statement .deviceReset := ⟨Nat.two_pow_pos 32, nofun⟩
theorem violClear : Statement .violClear := ⟨Nat.two_pow_pos 32, nofun⟩
theorem untrustedPrivateAccess (fn off : Nat) (w : Bool) : Statement (.untrustedPrivateAccess fn off w) :=
  ⟨Nat.two_pow_pos 32, nofun⟩
theorem unsupportedRequest : Statement .unsupportedRequest := ⟨Nat.two_pow_pos 32, nofun⟩
theorem migrationPause (fn : Nat) : Statement (.migrationPause fn) := ⟨Nat.two_pow_pos 32, nofun⟩
theorem migrationPaused (fn : Nat) : Statement (.migrationPaused fn) := ⟨Nat.two_pow_pos 32, nofun⟩
theorem migrationResume (fn : Nat) : Statement (.migrationResume fn) := ⟨Nat.two_pow_pos 32, nofun⟩
theorem peerUnitArrival (src xfer world key dgang off len unit : Nat) (data : List (BitVec 8)) : Statement (.peerUnitArrival src xfer world key dgang off len unit data) :=
  ⟨Nat.two_pow_pos 32, nofun⟩
theorem peerUnitResend : Statement .peerUnitResend := ⟨Nat.two_pow_pos 32, nofun⟩
theorem rwinContribution (chip key home e op value : Nat) : Statement (.rwinContribution chip key home e op value) :=
  ⟨Nat.two_pow_pos 32, nofun⟩
theorem rwinHomeWrite (key home : Nat) : Statement (.rwinHomeWrite key home) := ⟨Nat.two_pow_pos 32, nofun⟩
theorem flitRetransmit (port : Nat) : Statement (.flitRetransmit port) := ⟨Nat.two_pow_pos 32, nofun⟩
theorem portDown (port : Nat) : Statement (.portDown port) := ⟨Nat.two_pow_pos 32, nofun⟩
theorem advertisePeriod : Statement .advertisePeriod := ⟨Nat.two_pow_pos 32, nofun⟩
theorem integReread (line : Nat) (pass : Bool) : Statement (.integReread line pass) := ⟨Nat.two_pow_pos 32, nofun⟩
theorem powerOn : Statement .powerOn := ⟨Nat.two_pow_pos 32, nofun⟩
theorem sramUncorrectableError (die tile : Nat) : Statement (.sramUncorrectableError die tile) := ⟨Nat.two_pow_pos 32, nofun⟩
theorem correctableError : Statement .correctableError := ⟨Nat.two_pow_pos 32, nofun⟩
theorem ceWindowExpiry : Statement .ceWindowExpiry := ⟨Nat.two_pow_pos 32, nofun⟩
theorem powerBrake : Statement .powerBrake := ⟨Nat.two_pow_pos 32, nofun⟩
theorem powerLimitThrottle (island clock : Nat) : Statement (.powerLimitThrottle island clock) := ⟨Nat.two_pow_pos 32, nofun⟩
theorem thermalThreshold (dram : Bool) (unit degrees : Nat) : Statement (.thermalThreshold dram unit degrees) :=
  ⟨Nat.two_pow_pos 32, nofun⟩
theorem tlmRefresh (watts junction stack : Nat) : Statement (.tlmRefresh watts junction stack) := ⟨Nat.two_pow_pos 32, nofun⟩
theorem ckptStart : Statement .ckptStart := ⟨Nat.two_pow_pos 32, nofun⟩
theorem ckptDone : Statement .ckptDone := ⟨Nat.two_pow_pos 32, nofun⟩
theorem ckptResume : Statement .ckptResume := ⟨Nat.two_pow_pos 32, nofun⟩
theorem scrivselWrite (slot : Nat) : Statement (.scrivselWrite slot) := ⟨Nat.two_pow_pos 32, nofun⟩
theorem registerWrite (fn off value : Nat) (half : Bool) : Statement (.registerWrite fn off value half) :=
  ⟨Nat.two_pow_pos 32, nofun⟩
theorem engineWordPerformed (e : Nat) (k : Nat) : Statement (.engineWordPerformed e k) := ⟨Nat.two_pow_pos 32, nofun⟩
theorem undefinedEncoding (w : BitVec 32) : Statement (.undefinedEncoding w) := ⟨Nat.two_pow_pos 32, nofun⟩
theorem portTrained (port : Nat) : Statement (.portTrained port) := ⟨Nat.two_pow_pos 32, nofun⟩
theorem powerRemoved (leaf : Bool) : Statement (.powerRemoved leaf) := ⟨Nat.two_pow_pos 32, nofun⟩
theorem tdispRequest (fn : Nat) (run : Bool) : Statement (.tdispRequest fn run) := ⟨Nat.two_pow_pos 32, nofun⟩

end Sys2Proof.Laws.Encoded
end

