-- ==== Sys2Proof/Laws/Vector.lean ====
section
/-! SUPPORT. What the shared operations of the vector words do. -/

namespace Sys2Proof.Machine

theorem genFrom_getD {α : Type} (n i : Nat) (f : Nat → α) (d : α) :
    (genFrom n 0 f).toArray.getD i d = if i < n then f i else d := by
  simp only [Array.getD_eq_getD_getElem?, List.getElem?_toArray, genFrom_getElem?, Nat.zero_add]
  split <;> rfl

theorem vecGen_congr {α : Type} {n : Nat} {f g : Nat → α} (h : ∀ i, i < n → f i = g i) : vecGen n f = vecGen n g := by
  have key : ∀ (k lo : Nat), (∀ i, lo ≤ i → i < lo + k → f i = g i) → genFrom k lo f = genFrom k lo g := by
    intro k
    induction k with
    | zero => intro lo _; rfl
    | succ k ih =>
      intro lo hk
      rw [genFrom, genFrom, hk lo (Nat.le_refl _) (by omega), ih (lo + 1) (fun i h1 h2 => hk i (by omega) (by omega))]
  unfold vecGen
  simp only [key n 0 (fun i _ h2 => h i (by omega))]

theorem vecGen_vget {α : Type} {n : Nat} (v : Vector α n) (d : α) : vecGen n (fun i => vget v i d) = v := by
  apply Vector.ext
  intro i hi
  have := vget_vecGen n i (fun i => vget v i d) d
  unfold vget at this
  simp [hi] at this
  simpa [vget] using this

/-- The element that `writeElems` gives element `e`, with its flags. -/
def Strand.written (t : Strand) (x : Entry) (d : Reg) (f : Nat → Elem × Flags) (e : Nat) : Elem × Flags :=
  if t.active x e then f e else (if x.zeroing then 0 else t.velem d e, 0)

/-- The flags of the elements, together. -/
def orFlags (n : Nat) (f : Nat → Flags) : Flags := (genFrom n 0 f).foldl (· ||| ·) 0

theorem foldl_or_bit (l : List Flags) (a : Flags) (k : Nat) :
    (l.foldl (· ||| ·) a).getLsbD k = (a.getLsbD k || l.any fun b => b.getLsbD k) := by
  induction l generalizing a with
  | nil => simp
  | cons b rest ih => simp [ih, Bool.or_assoc]

theorem genFrom_mem {α : Type} (n lo : Nat) (f : Nat → α) (a : α) :
    a ∈ genFrom n lo f ↔ ∃ i, lo ≤ i ∧ i < lo + n ∧ f i = a := by
  induction n generalizing lo with
  | zero => simp [genFrom]; intro i h1 h2; omega
  | succ n ih =>
    simp only [genFrom, List.mem_cons, ih]
    constructor
    · rintro (h | ⟨i, h1, h2, h3⟩)
      · exact ⟨lo, Nat.le_refl _, by omega, h.symm⟩
      · exact ⟨i, by omega, by omega, h3⟩
    · rintro ⟨i, h1, h2, h3⟩
      by_cases hi : i = lo
      · subst hi; exact .inl h3.symm
      · exact .inr ⟨i, by omega, by omega, h3⟩

theorem orFlags_bit (n : Nat) (f : Nat → Flags) (k : Nat) :
    (orFlags n f).getLsbD k = true ↔ ∃ e, e < n ∧ (f e).getLsbD k = true := by
  rw [orFlags, foldl_or_bit, show (0 : Flags).getLsbD k = false by simp]
  rw [Bool.false_or, List.any_eq_true]
  simp only [genFrom_mem]
  constructor
  · rintro ⟨b, ⟨i, _, h2, rfl⟩, h⟩; exact ⟨i, by omega, h⟩
  · rintro ⟨e, h1, h2⟩; exact ⟨_, ⟨e, by omega, by omega, rfl⟩, h2⟩

theorem genFrom_map {α β : Type} (n lo : Nat) (f : Nat → α) (g : α → β) :
    (genFrom n lo f).map g = genFrom n lo fun i => g (f i) := by
  induction n generalizing lo with
  | zero => rfl
  | succ n ih => simp [genFrom, ih]

theorem foldl_snd (l : List (Elem × Flags)) (a : Flags) :
    l.foldl (fun a r => a ||| r.2) a = (l.map Prod.snd).foldl (· ||| ·) a := by
  induction l generalizing a with
  | nil => rfl
  | cons b rest ih => simp [ih]

/-- What `writeElems` does: the register, its dirty bit, and the flags of the word; nothing else. -/
theorem writeElems_eq (x : Entry) (d : Reg) (f : Nat → Elem × Flags) (s : State) :
    writeElems x d f s = .ok () { s with st := { s.st.setV d (vecGen 1024 fun e => (s.st.written x d f e).1) with
      work := { s.st.work with flags := s.st.work.flags ||| orFlags 1024 fun e => (s.st.written x d f e).2 } } } := by
  unfold writeElems
  simp only [M_bind, M_getSt, M_modSt, M_setFlags]
  have h1 : ∀ e, e < 1024 → ((genFrom 1024 0 fun e => if s.st.active x e then f e
      else (if x.zeroing then 0 else s.st.velem d e, 0)).toArray.getD e (0, 0)).1 = (s.st.written x d f e).1 := by
    intro e he
    rw [genFrom_getD, if_pos he]; rfl
  rw [vecGen_congr h1]
  have h2 : ((genFrom 1024 0 fun e => if s.st.active x e then f e
      else (if x.zeroing then 0 else s.st.velem d e, 0)).toArray.foldl (fun a r => a ||| r.2) 0) =
      orFlags 1024 fun e => (s.st.written x d f e).2 := by
    rw [List.foldl_toArray, foldl_snd, genFrom_map]; rfl
  rw [h2]
  rfl

/-! ## Stream units and draws -/

/-- The strand after it has taken a unit of each of some stream registers. -/
def Strand.takeAll : List Nat → Strand → Strand
  | [], t => t
  | n :: rest, t =>
    match (vget t.streams n Stream.unbound).take true with
    | .inr u => Strand.takeAll rest { t with
        streams := vput t.streams n u.2, work := { t.work with held := (n, u.1) :: t.work.held } }
    | .inl _ => t

/-- Only the stream registers and the units held change. -/
theorem Strand.takeAll_frame (ns : List Nat) (t : Strand) :
    Strand.takeAll ns t = { t with
      streams := (Strand.takeAll ns t).streams, work := { t.work with held := (Strand.takeAll ns t).work.held } } := by
  induction ns generalizing t with
  | nil => rfl
  | cons n rest ih =>
    unfold Strand.takeAll
    split
    · rw [ih]
    · rfl

theorem Strand.takeAll_streams (ns : List Nat) (t : Strand) (hn : ns.Nodup)
    (hu : ∀ n ∈ ns, ∃ u, (vget t.streams n Stream.unbound).take true = .inr u) (k : Nat) :
    vget (Strand.takeAll ns t).streams k Stream.unbound =
      if ns.contains k ∧ k < 8 then (match (vget t.streams k Stream.unbound).take true with
        | .inr u => u.2
        | .inl _ => vget t.streams k Stream.unbound) else vget t.streams k Stream.unbound := by
  induction ns generalizing t with
  | nil => simp [Strand.takeAll]
  | cons n rest ih =>
    obtain ⟨u, hu0⟩ := hu n (by simp)
    have hnd := List.nodup_cons.mp hn
    unfold Strand.takeAll
    rw [hu0]
    dsimp only
    rw [ih _ hnd.2]
    · dsimp only
      by_cases hk : k = n
      · subst hk
        by_cases h8 : k < 8
        · simp [hnd.1, h8, hu0]
        · simp [h8, vget_vput]
      · simp [vget_vput_ne _ _ _ _ _ hk, hk]
    · intro m hm
      have hmn : m ≠ n := fun e => hnd.1 (e ▸ hm)
      obtain ⟨v, hv⟩ := hu m (by simp [hm])
      exact ⟨v, by dsimp only; rw [vget_vput_ne _ _ _ _ _ hmn]; exact hv⟩

theorem Strand.takeAll_held (ns : List Nat) (t : Strand) (hn : ns.Nodup)
    (hu : ∀ n ∈ ns, ∃ u, (vget t.streams n Stream.unbound).take true = .inr u) (k : Nat) :
    assoc (Strand.takeAll ns t).work.held k [] =
      if ns.contains k then (match (vget t.streams k Stream.unbound).take true with
        | .inr u => u.1
        | .inl _ => []) else assoc t.work.held k [] := by
  induction ns generalizing t with
  | nil => simp [Strand.takeAll]
  | cons n rest ih =>
    obtain ⟨u, hu0⟩ := hu n (by simp)
    have hnd := List.nodup_cons.mp hn
    unfold Strand.takeAll
    rw [hu0]
    dsimp only
    rw [ih _ hnd.2]
    · dsimp only
      by_cases hk : k = n
      · subst hk
        simp [hnd.1, hu0, assoc]
      · have h2 : n ≠ k := fun e => hk e.symm
        simp [vget_vput_ne _ _ _ _ _ hk, hk, assoc, h2]
    · intro m hm
      have hmn : m ≠ n := fun e => hnd.1 (e ▸ hm)
      obtain ⟨v, hv⟩ := hu m (by simp [hm])
      exact ⟨v, by dsimp only; rw [vget_vput_ne _ _ _ _ _ hmn]; exact hv⟩

theorem takeStreams_ok {rs : List Reg} {s : State} (h : s.st.UnitsReady rs) :
    takeStreams rs s = .ok () { s with st := Strand.takeAll (rs.filterMap streamNo) s.st } := by
  obtain ⟨hn, hu⟩ := h
  unfold takeStreams
  generalize rs.filterMap streamNo = ns at *
  induction ns generalizing s with
  | nil => rfl
  | cons n rest ih =>
    obtain ⟨u, hu0⟩ := hu n (by simp)
    have hnd := List.nodup_cons.mp hn
    have h1 : (readStream n true s) = .ok u.1 { s with st := { s.st with streams := vput s.st.streams n u.2 } } := by
      unfold readStream
      simp [hu0]
    rw [M_each_cons]
    simp only [M_bind, h1, M_modWork]
    rw [ih hnd.2]
    · conv => rhs; rw [Strand.takeAll, hu0]
    · intro m hm
      have hmn : m ≠ n := fun e => hnd.1 (e ▸ hm)
      obtain ⟨v, hv⟩ := hu m (by simp [hm])
      exact ⟨v, by dsimp only; rw [vget_vput_ne _ _ _ _ _ hmn]; exact hv⟩

theorem checkStreams_ok {rs : List Reg} {s : State} (h : s.st.UnitsReady rs) : checkStreams rs s = .ok () s := by
  obtain ⟨-, hu⟩ := h
  unfold checkStreams
  generalize rs.filterMap streamNo = ns at *
  induction ns with
  | nil => rfl
  | cons n rest ih =>
    obtain ⟨u, hu0⟩ := hu n (by simp)
    rw [M_each_cons]
    simp only [M_bind, M_getSt, hu0, M_pure]
    exact ih (fun m hm => hu m (by simp [hm]))

/-- A word that starts: it has taken its units and its draws, and knows what they are; nothing else has changed. -/
theorem startWord_ok {rs : List Reg} {k : Nat} {s : State} (hw : s.st.work = Progress.fresh) (hu : s.st.UnitsReady rs) :
    ∃ w : Progress, startWord rs k s = .ok () { s with st := { s.st with
        streams := s.st.consumed rs, work := w
        csr := { s.st.csr with rngCtr := s.st.csr.rngCtr + BitVec.ofNat 64 k } } } ∧
      w.count = 0 ∧ w.vals = [] ∧ (k ≠ 0 → w.drawBase = s.st.csr.rngCtr) ∧ w.locks = [] ∧
      ∀ r ∈ rs, ∀ n, streamNo r = some n → ∀ e, (assoc w.held n []).toArray.getD e 0 = s.st.source r e := by
  have hstart : s.st.work.started = false := by rw [hw]; rfl
  have hs : (Strand.takeAll (rs.filterMap streamNo) s.st).streams = s.st.consumed rs := by
    have h := Strand.takeAll_streams (rs.filterMap streamNo) s.st hu.1 hu.2
    rw [← vecGen_vget (Strand.takeAll (rs.filterMap streamNo) s.st).streams Stream.unbound]
    unfold Strand.consumed
    apply vecGen_congr
    intro i hi
    rw [h i]
    simp only [hi, and_true]
    all_goals by_cases hc : (rs.filterMap streamNo).contains i = true <;> simp [hc] <;> try rfl
  have hheld : ∀ r ∈ rs, ∀ n, streamNo r = some n →
      ∀ e, (assoc (Strand.takeAll (rs.filterMap streamNo) s.st).work.held n []).toArray.getD e 0 = s.st.source r e := by
    intro r hr n hn e
    have hmem : n ∈ rs.filterMap streamNo := List.mem_filterMap.mpr ⟨r, hr, hn⟩
    have hc : (rs.filterMap streamNo).contains n = true := by simpa using hmem
    rw [Strand.takeAll_held _ _ hu.1 hu.2 n, if_pos hc, Strand.source, hn]
    obtain ⟨u, hu0⟩ := hu.2 n hmem
    simp [hu0]
  have hfr := Strand.takeAll_frame (rs.filterMap streamNo) s.st
  unfold startWord
  simp only [M_bind, M_getWork, hstart, Bool.false_eq_true, if_false, checkStreams_ok hu, takeStreams_ok hu]
  rw [hs] at hfr
  by_cases hk : k = 0
  · refine ⟨{ s.st.work with held := (Strand.takeAll (rs.filterMap streamNo) s.st).work.held, started := true }, ?_,
      by rw [hw]; rfl, by rw [hw]; rfl, fun h => absurd hk h, by rw [hw]; rfl, hheld⟩
    subst hk
    simp only [ne_eq, not_true_eq_false, if_false, M_modWork]
    rw [hfr]
    simp
  · refine ⟨{ s.st.work with held := (Strand.takeAll (rs.filterMap streamNo) s.st).work.held, started := true
                             drawBase := s.st.csr.rngCtr }, ?_,
      by rw [hw]; rfl, by rw [hw]; rfl, fun _ => rfl, by rw [hw]; rfl, hheld⟩
    simp only [ne_eq, hk, not_false_eq_true, if_true, takeDraws, M_bind, M_modSt, M_modWork]
    rw [hfr]

end Sys2Proof.Machine
end

