-- ==== Sys2Proof/Laws/Xmss.lean ====
section
/-! SUPPORT. Verification of signatures (R510): a signature made with the secrets of a key verifies under that key, whatever the
message. So an image can be signed, and one key serves every image. -/

namespace Sys2Proof.Machine

@[simp] theorem xmssHash_length (k : Nat) (key msg : List (BitVec 8)) : (xmssHash k key msg).length = 32 := by
  simp [xmssHash, shakeBytes]

theorem wotsChain_add (seed : Node) (leaf j n m : Nat) (i : Nat) (x : Node) :
    wotsChain seed leaf j (n + m) i x = wotsChain seed leaf j m (i + n) (wotsChain seed leaf j n i x) := by
  induction n generalizing i x with
  | zero => simp [wotsChain]
  | succ n ih =>
    rw [show n + 1 + m = (n + m) + 1 by omega, wotsChain, wotsChain, ih, show i + 1 + n = i + (n + 1) by omega]

theorem wotsChain_length (seed : Node) (leaf j n i : Nat) (x : Node) (h : x.length = 32) :
    (wotsChain seed leaf j n i x).length = 32 := by
  induction n generalizing i x with
  | zero => exact h
  | succ n ih => exact ih _ _ (by simp)

/-- What a signature reveals of the chains: each secret, led on by its digit. -/
def wotsSign (seed : Node) (leaf : Nat) : Nat → List Nat → List Node → List Node
  | j, d :: ds, x :: xs => wotsChain seed leaf j d 0 x :: wotsSign seed leaf (j + 1) ds xs
  | _, _, _ => []

/-- It leads to the ends of the chains, whatever the digits. -/
theorem wotsEnds_sign (seed : Node) (leaf j : Nat) (ds : List Nat) (xs : List Node) (hd : ∀ d ∈ ds, d ≤ 15) :
    wotsEnds seed leaf j ds (wotsSign seed leaf j ds xs) = wotsEnds seed leaf j (ds.map fun _ => 0) xs := by
  induction ds generalizing j xs with
  | nil => cases xs <;> rfl
  | cons d ds ih =>
    cases xs with
    | nil => rfl
    | cons x xs =>
      have h := hd d (.head _)
      simp only [wotsSign, wotsEnds, List.map_cons]
      rw [ih _ _ fun d hm => hd d (.tail _ hm)]
      congr 1
      have := wotsChain_add seed leaf j d (15 - d) 0 x
      rw [show d + (15 - d) = 15 - 0 by omega, Nat.zero_add] at this
      exact this.symm

theorem wotsSign_nodes (seed : Node) (leaf j : Nat) (ds : List Nat) (xs : List Node) (hl : xs.length = ds.length)
    (hx : ∀ x ∈ xs, x.length = 32) :
    (wotsSign seed leaf j ds xs).length = ds.length ∧ ∀ x ∈ wotsSign seed leaf j ds xs, x.length = 32 := by
  induction ds generalizing j xs with
  | nil => cases xs <;> simp [wotsSign]
  | cons d ds ih =>
    cases xs with
    | nil => cases hl
    | cons x xs =>
      obtain ⟨h1, h2⟩ := ih (j + 1) xs (by simpa using hl) fun y hy => hx y (.tail _ hy)
      refine ⟨by simp [wotsSign, h1], fun y hy => ?_⟩
      rw [wotsSign] at hy
      cases hy with
      | head => exact wotsChain_length _ _ _ _ _ _ (hx x (.head _))
      | tail _ hy => exact h2 y hy

theorem nodesOf_flatten (ns : List Node) (rest : List (BitVec 8)) (h : ∀ x ∈ ns, x.length = 32) :
    nodesOf ns.length (ns.flatten ++ rest) = ns := by
  induction ns with
  | nil => rfl
  | cons x ns ih =>
    have hx := h x (.head _)
    simp only [List.length_cons, nodesOf, List.flatten_cons, List.append_assoc]
    rw [List.take_left' hx, List.drop_left' hx, ih fun y hy => h y (.tail _ hy)]

theorem flatten_length (ns : List Node) (h : ∀ x ∈ ns, x.length = 32) : ns.flatten.length = 32 * ns.length := by
  induction ns with
  | nil => rfl
  | cons x ns ih =>
    rw [List.flatten_cons, List.length_append, h x (.head _), ih fun y hy => h y (.tail _ hy), List.length_cons]
    omega

theorem wotsDigits_of (digest : Node) (h : digest.length = 32) :
    (wotsDigits digest).length = 67 ∧ ∀ d ∈ wotsDigits digest, d ≤ 15 := by
  have hl : ∀ l : Node, (l.flatMap fun b => [b.toNat / 16, b.toNat % 16]).length = 2 * l.length := by
    intro l
    induction l with
    | nil => rfl
    | cons b l ih => rw [List.flatMap_cons, List.length_append, ih]; simp; omega
  refine ⟨by simp only [wotsDigits, List.length_append, hl, h]; rfl, fun d hd => ?_⟩
  simp only [wotsDigits, List.mem_append, List.mem_flatMap, List.mem_cons, List.not_mem_nil, or_false] at hd
  rcases hd with ⟨b, -, hd | hd⟩ | hd | hd | hd
  · have := b.isLt
    omega
  all_goals omega

/-- A signature of leaf 0 with secrets and the nodes beside its path. -/
def xmssSign (key : XmssKey) (secrets path : List Node) (msg : List (BitVec 8)) : List (BitVec 8) :=
  let nonce := List.replicate 32 (0 : BitVec 8)
  let digest := xmssHash 2 (nonce ++ key.root ++ bigEndian 32 0) msg
  bigEndian 4 0 ++ (nonce ++ ((wotsSign key.seed 0 0 (wotsDigits digest) secrets).flatten ++ path.flatten))

/-- The root of the key that the secrets of leaf 0 and the nodes beside its path make. -/
def xmssRoot (seed : Node) (secrets path : List Node) : Node :=
  treeRoot seed 0 0 (leafRoot seed 0 7 0 (wotsEnds seed 0 0 (List.replicate 67 0) secrets)) path

theorem xmssSign_verifies (seed : Node) (secrets path : List Node) (msg : List (BitVec 8)) (h1 : secrets.length = 67)
    (h2 : ∀ x ∈ secrets, x.length = 32) (h3 : path.length = 20) (h4 : ∀ x ∈ path, x.length = 32) :
    let key : XmssKey := ⟨xmssRoot seed secrets path, seed⟩
    xmssVerify key msg (xmssSign key secrets path msg) = true := by
  intro key
  let nonce := List.replicate 32 (0 : BitVec 8)
  let digest := xmssHash 2 (nonce ++ key.root ++ bigEndian 32 0) msg
  obtain ⟨d1, d2⟩ := wotsDigits_of digest (xmssHash_length _ _ _)
  obtain ⟨w1, w2⟩ := wotsSign_nodes seed 0 0 (wotsDigits digest) secrets (by rw [h1, d1]) h2
  let chains := wotsSign seed 0 0 (wotsDigits digest) secrets
  have hs : xmssSign key secrets path msg = bigEndian 4 0 ++ (nonce ++ (chains.flatten ++ path.flatten)) := rfl
  have ha : (bigEndian 4 0).length = 4 := rfl
  have hn : nonce.length = 32 := rfl
  have hc : chains.flatten.length = 2144 := by rw [flatten_length _ w2, w1, d1]
  have hp : path.flatten.length = 640 := by rw [flatten_length _ h4, h3]
  have t4 : (xmssSign key secrets path msg).take 4 = bigEndian 4 0 := by rw [hs, List.take_left' ha]
  have e4 : (xmssSign key secrets path msg).drop 4 = nonce ++ (chains.flatten ++ path.flatten) := by rw [hs, List.drop_left' ha]
  have e36 : (xmssSign key secrets path msg).drop 36 = chains.flatten ++ path.flatten := by
    rw [show (36 : Nat) = 4 + 32 from rfl, ← List.drop_drop, e4, List.drop_left' hn]
  have e2180 : (xmssSign key secrets path msg).drop 2180 = path.flatten ++ [] := by
    rw [show (2180 : Nat) = 36 + 2144 from rfl, ← List.drop_drop, e36, List.drop_left' hc, List.append_nil]
  have h0 : natOfBytes (bigEndian 4 0).reverse = 0 := rfl
  have hr : xmssRootOf key msg (xmssSign key secrets path msg) = key.root := by
    have hd : xmssHash 2 (((xmssSign key secrets path msg).drop 4).take 32 ++ key.root ++ bigEndian 32 0) msg = digest := by
      rw [e4, List.take_left' hn]
    have hk : nodesOf 67 (chains.flatten ++ path.flatten) = chains := by
      have := nodesOf_flatten chains path.flatten w2
      rwa [w1, d1] at this
    have hq : nodesOf 20 (path.flatten ++ []) = path := by
      have := nodesOf_flatten path [] h4
      rwa [h3] at this
    have hm : (wotsDigits digest).map (fun _ => 0) = List.replicate 67 0 := by rw [List.map_const', d1]
    simp only [xmssRootOf, t4, h0, hd, e36, e2180, hk, hq]
    rw [wotsEnds_sign seed 0 0 _ _ d2, hm]
    rfl
  have hl : (xmssSign key secrets path msg).length = xmssBytes := by
    rw [hs, List.length_append, List.length_append, List.length_append, ha, hn, hc, hp]
    rfl
  simp [xmssVerify, hl, t4, h0, hr]

theorem treeRoot_length (seed : Node) (height i : Nat) (x : Node) (path : List Node) (h : path ≠ []) :
    (treeRoot seed height i x path).length = 32 := by
  induction path generalizing height i x with
  | nil => exact absurd rfl h
  | cons a path ih =>
    rw [treeRoot]
    cases path with
    | nil =>
      rw [treeRoot]
      split <;> simp [treeHash]
    | cons b path => exact ih _ _ _ (by simp)

theorem bytesOfNat_natOfBytes (bs : List Byte) : bytesOfNat bs.length (natOfBytes bs) = bs := by
  induction bs with
  | nil => rfl
  | cons b bs ih =>
    have hb := b.isLt
    have h1 : (b.toNat + 256 * natOfBytes bs) / 256 = natOfBytes bs := by omega
    have h2 : BitVec.ofNat 8 (b.toNat + 256 * natOfBytes bs) = b := by
      apply BitVec.eq_of_toNat_eq
      rw [BitVec.toNat_ofNat]
      omega
    simp only [List.length_cons, bytesOfNat, natOfBytes, h1, h2, ih]

theorem natOfBytes_lt (bs : List Byte) : natOfBytes bs < 256 ^ bs.length := by
  induction bs with
  | nil => decide
  | cons b bs ih =>
    have hb := b.isLt
    simp only [natOfBytes, List.length_cons, Nat.pow_succ]
    omega

/-- There is a key under which every image can be signed (R510). -/
theorem exists_signing_key : ∃ key : BitVec 512, ∀ bytes : List Byte, ∃ sig : List Byte, (SignedImage.mk bytes sig).verifies key = true := by
  let seed : Node := bytesOfNat 32 0
  let zero : Node := List.replicate 32 0
  let secrets := List.replicate 67 zero
  let path := List.replicate 20 zero
  let root := xmssRoot seed secrets path
  have hz : ∀ n, ∀ x ∈ List.replicate n zero, x.length = 32 := fun n x hx => by
    rw [(List.mem_replicate.mp hx).2]
    exact List.length_replicate
  have hr : root.length = 32 := treeRoot_length _ _ _ _ _ (by simp [path])
  have hb : natOfBytes root < 2 ^ 256 := by
    have := natOfBytes_lt root
    rw [hr] at this
    exact this
  refine ⟨BitVec.ofNat 512 (natOfBytes root), fun bytes => ⟨xmssSign ⟨root, seed⟩ secrets path bytes, ?_⟩⟩
  have hk : xmssKey (BitVec.ofNat 512 (natOfBytes root)) = ⟨root, seed⟩ := by
    have hn : (BitVec.ofNat 512 (natOfBytes root)).toNat = natOfBytes root := by
      rw [BitVec.toNat_ofNat]
      exact Nat.mod_eq_of_lt (Nat.lt_trans hb (Nat.pow_lt_pow_right (by decide) (by decide)))
    have h1 := bytesOfNat_natOfBytes root
    rw [hr] at h1
    unfold xmssKey
    rw [hn, h1, Nat.div_eq_of_lt hb]
  unfold SignedImage.verifies
  rw [hk]
  exact xmssSign_verifies seed secrets path bytes List.length_replicate (hz 67) List.length_replicate (hz 20)

end Sys2Proof.Machine
end

