-- ==== Sys2Proof/Tests/Slice0.lean ====
section
/-! SUPPORT. Tests: words decoded, the checks of well-formed words, results of single steps taken from the spec's tables and
examples, and witnesses that the hypotheses of each obligation can be met. -/

open Sys2Proof Sys2Proof.Machine

namespace Sys2Proof.Tests

set_option maxRecDepth 10000
set_option Elab.async false
set_option exponentiation.threshold 2000

/-- Each word decodes to its instruction. -/
def Decodes (l : List (BitVec 32 × Instr)) : Prop := l.map (fun r => decodeWord r.1) = l.map fun r => some r.2

/-! ## Decoding: a word of every row, written out from the table of the spec (R84, R85, R90, R97) -/

def wordsScalar1 : List (BitVec 32 × Instr) := [
    (0x00451870, .add 5 6 7), (0x00851870, .sub 5 6 7), (0x00C51870, .and 5 6 7), (0x01051870, .or 5 6 7),
    (0x01451870, .xor 5 6 7), (0x01851870, .sll 5 6 7), (0x01C51870, .srl 5 6 7), (0x02051870, .sra 5 6 7),
    (0x02451870, .slt 5 6 7), (0x02851870, .sltu 5 6 7), (0x02C51870, .mul 5 6 7), (0x03051870, .mulh 5 6 7),
    (0x03451870, .mulhu 5 6 7), (0x03851870, .div 5 6 7), (0x03C51870, .divu 5 6 7), (0x04051870, .rem 5 6 7),
    (0x04451870, .remu 5 6 7), (0x04851870, .min 5 6 7), (0x04C51870, .max 5 6 7), (0x05051800, .clz 5 6),
    (0x05451800, .ctz 5 6), (0x05851870, .cmov 5 6 7), (0x06051835, .addi 5 6 0x35), (0x06451835, .andi 5 6 0x35),
    (0x06851835, .ori 5 6 0x35), (0x06C51835, .xori 5 6 0x35), (0x0705182D, .slli 5 6 0x2D), (0x0745182D, .srli 5 6 0x2D),
    (0x0785182D, .srai 5 6 0x2D), (0x08058421, .li 5 0x8421), (0x08458421, .lui 5 0x8421), (0x08858421, .auipc 5 0x8421)]

theorem test_decode_scalar_1 : Decodes wordsScalar1 := rfl

def wordsScalar2 : List (BitVec 32 × Instr) := [
    (0x0A051835, .ldB 5 6 0x35), (0x0A451835, .ldH 5 6 0x35), (0x0A851835, .ldW 5 6 0x35), (0x0AC51835, .ldD 5 6 0x35),
    (0x0B051835, .ldBu 5 6 0x35), (0x0B451835, .ldHu 5 6 0x35), (0x0B851835, .ldWu 5 6 0x35), (0x0C051835, .stB 5 6 0x35),
    (0x0C451835, .stH 5 6 0x35), (0x0C851835, .stW 5 6 0x35), (0x0CC51835, .stD 5 6 0x35), (0x0D051835, .ldsW 5 6 0x35),
    (0x0D451835, .ldsD 5 6 0x35), (0x0D851835, .stsW 5 6 0x35), (0x0DC51835, .stsD 5 6 0x35), (0x0E051835, .beq 5 6 0x35),
    (0x0E451835, .bne 5 6 0x35), (0x0E851835, .blt 5 6 0x35), (0x0EC51835, .bge 5 6 0x35), (0x0F051835, .bltu 5 6 0x35),
    (0x0F451835, .bgeu 5 6 0x35), (0x0FA00003, .j 0x200003), (0x0FE00003, .call 0x200003), (0x10001400, .jr 5),
    (0x10451835, .calli 5 6 0x35), (0x10800000, .endStrand), (0x10C00035, .brk 0x35), (0x11000000, .tret),
    (0x12050020, .csrr 5 0x20), (0x12451820, .csrw 5 6 0x20), (0x12851820, .csrs 5 6 0x20), (0x12C51820, .csrc 5 6 0x20)]

theorem test_decode_scalar_2 : Decodes wordsScalar2 := rfl

def wordsScalar3 : List (BitVec 32 × Instr) := [
    (0x13051800, .rdw 5 6), (0x14000004, .phOpen 4), (0x14400004, .phClose 4), (0x14800004, .ph 4), (0x14C00004, .fenceSc 4),
    (0x15000230, .qjoin 0x46), (0x15400000, .ifence), (0x16001460, .rbind 5 6), (0x16451879, .rwe 5 6 7 9),
    (0x16851879, .rwf 5 6 7 9), (0x16C01469, .radvT 5 6 9), (0x17001469, .radvH 5 6 9), (0x18051870, .barInit 5 6 7),
    (0x18451879, .barArr 5 6 7 9), (0x18801469, .barExp 5 6 9), (0x18C50061, .barWait 5 6 1), (0x1E001460, .tlbiVa 5 6),
    (0x1E401400, .tlbiCtx 5), (0x1E800000, .tlbiAll), (0x1EC51870, .xlat 5 6 7), (0x1F051870, .slKeyNew 5 6 7),
    (0x1F051801, .slKeyKill 5 6), (0x1F451870, .slMeas 5 6 7), (0x1F451871, .slMeasRd 5 6 7), (0x1F851870, .slRep 5 6 7)]

theorem test_decode_scalar_3 : Decodes wordsScalar3 := rfl

def wordsVector1 : List (BitVec 32 × Instr) := [
    (0x20451871, .vLd 5 6 7 true), (0x20851871, .vSt 5 6 7 true), (0x20C51871, .vLds 5 6 7 true),
    (0x21051871, .vSts 5 6 7 true), (0x21451873, .vLdh 5 6 7 true true), (0x21851873, .vSth 5 6 7 true true),
    (0x21C51801, .vMov 5 6 true), (0x22051801, .vBcs 5 6 true), (0x22451843, .vIota 5 6 0x21 true),
    (0x22851843, .vPset 5 6 0x21 true), (0x24051871, .vAdd 5 6 7 true), (0x24451871, .vSub 5 6 7 true),
    (0x24851871, .vMul 5 6 7 true), (0x24C51875, .vFma 5 6 7 2 true), (0x25051871, .vMin 5 6 7 true),
    (0x25451871, .vMax 5 6 7 true), (0x25851801, .vAbs 5 6 true), (0x25C51801, .vNeg 5 6 true),
    (0x26051871, .vIadd 5 6 7 true), (0x26451871, .vIsub 5 6 7 true), (0x26851873, .vImul 5 6 7 true true),
    (0x26C51873, .vImulw 5 6 7 true true), (0x27051871, .vAnd 5 6 7 true), (0x27451871, .vOr 5 6 7 true),
    (0x27851871, .vXor 5 6 7 true), (0x27C51801, .vNot 5 6 true), (0x28051871, .vShl 5 6 7 true),
    (0x28451871, .vShr 5 6 7 true), (0x28851871, .vSha 5 6 7 true), (0x28C51873, .vImin 5 6 7 true true),
    (0x29051873, .vImax 5 6 7 true true), (0x2A051879, .vCmp 5 6 7 4 true)]

theorem test_decode_vector_1 : Decodes wordsVector1 := rfl

def wordsVector2 : List (BitVec 32 × Instr) := [
    (0x2A451879, .vIcmp 5 6 7 4 true), (0x2A851879, .vSel 5 6 7 4 true), (0x2AC51871, .vPand 5 6 7 true),
    (0x2B051871, .vPor 5 6 7 true), (0x2B451871, .vPxor 5 6 7 true), (0x2B851801, .vPnot 5 6 true),
    (0x2C051843, .vRotr 5 6 0x21 true), (0x2C451843, .vRotc 5 6 0x21 true), (0x2C85181D, .vBcr 5 6 0xE true),
    (0x2CC5181D, .vBcc 5 6 0xE true), (0x2D051809, .vRedr 5 6 4 true), (0x2D451809, .vRedc 5 6 4 true),
    (0x2E051803, .vCvtf 5 6 true true), (0x2E451803, .vCvti 5 6 true true), (0x2E851809, .vCvtq 5 6 4 true),
    (0x30051801, .vExp2 5 6 true), (0x30451801, .vLog2 5 6 true), (0x30851801, .vRcp 5 6 true), (0x30C51801, .vRsq 5 6 true),
    (0x31051801, .vTanh 5 6 true), (0x31451801, .vSigm 5 6 true), (0x32050005, .vRng 5 2 true),
    (0x32451871, .vStop 5 6 7 true), (0x32859001, .vLoop 5 9 true)]

theorem test_decode_vector_2 : Decodes wordsVector2 := rfl

def wordsMatrix : List (BitVec 32 × Instr) := [
    (0x40451871, .mMma 5 6 7 true), (0x40851871, .mMmaG 5 6 7 true), (0x40C51879, .mLdw 5 6 7 4 true),
    (0x41000005, .mSwap 2 true), (0x41451801, .mZero 5 6 true), (0x41851871, .mRdz 5 6 7 true),
    (0x41C51871, .mWrz 5 6 7 true), (0x42051933, .mCkpt 5 6 9 9 true), (0x42451933, .mRest 5 6 9 9 true),
    (0x42851871, .mEpi 5 6 7 true), (0x42C59001, .mLoop 5 9 true), (0x43051801, .mTsub 5 6 true),
    (0x43451801, .mTqry 5 6 true), (0x43851803, .mTcan 5 6 true true), (0x43C50003, .mRdv 5 true true),
    (0x44051801, .mWid 5 6 true)]

theorem test_decode_matrix : Decodes wordsMatrix := rfl

def wordsCopy : List (BitVec 32 × Instr) := [
    (0x60451879, .cCp 5 6 7 4 true), (0x60851875, .cCpd 5 6 7 2 true), (0x60C51879, .cGath 5 6 7 4 true),
    (0x61051879, .cScat 5 6 7 4 true), (0x61451843, .cFill 5 6 0x21 true), (0x61851875, .cCvt 5 6 7 2 true),
    (0x61C51875, .cBind 5 6 7 2 true), (0x62051873, .cKvg 5 6 7 true true), (0x62451873, .cKvs 5 6 7 true true),
    (0x62851873, .cGm 5 6 7 true true), (0x62C51871, .cPeer 5 6 7 true), (0x63051879, .cRwin 5 6 7 4 true),
    (0x63451803, .cPf 5 6 true true), (0x63859001, .cLoop 5 9 true), (0x64050001, .cUnbind 5 true),
    (0x64451803, .cDsc 5 6 true true), (0x64801401, .cBbinv 5 true)]

theorem test_decode_copy : Decodes wordsCopy := rfl

def wordsBank : List (BitVec 32 × Instr) := [
    (0x80451877, .bAdd 5 6 7 true true true), (0x80851877, .bMin 5 6 7 true true true),
    (0x80C51877, .bMax 5 6 7 true true true), (0x81051877, .bMinu 5 6 7 true true true),
    (0x81451877, .bMaxu 5 6 7 true true true), (0x81851877, .bAnd 5 6 7 true true true),
    (0x81C51877, .bOr 5 6 7 true true true), (0x82051877, .bXor 5 6 7 true true true),
    (0x82451877, .bSwap 5 6 7 true true true), (0x82851877, .bCas 5 6 7 true true true), (0x82C51871, .bFadd 5 6 7 true),
    (0x83051871, .bFadb 5 6 7 true), (0x83451873, .bScal 5 6 7 true true), (0x83851873, .bAxpy 5 6 7 true true),
    (0x83C5187B, .bWait 5 6 7 2 true true), (0x84051871, .bVst 5 6 7 true), (0x84451873, .bVld 5 6 7 true true),
    (0x84851873, .bVldLe 5 6 7 true true), (0x84C51801, .bVretire 5 6 true), (0x85051801, .bVnew 5 6 true),
    (0x85451801, .bVfloor 5 6 true), (0x85851801, .bVreg 5 6 true), (0x85851803, .bVregFree 5 6 true),
    (0x85851805, .bVregRd 5 6 true), (0x85851807, .bVregSpill 5 6 true)]

theorem test_decode_bank : Decodes wordsBank := rfl

def wordsAttention : List (BitVec 32 × Instr) := [
    (0xA0451877, .aAttn 5 6 7 true true true), (0xA0851877, .aPart 5 6 7 true true true),
    (0xA0C51873, .aMerge 5 6 7 true true), (0xA1050005, .aCfg 5 2 true), (0xA1401401, .aBinv 5 true),
    (0xA1801463, .aPref 5 6 true true)]

theorem test_decode_attention : Decodes wordsAttention := rfl

def wordsCache : List (BitVec 32 × Instr) := [
    (0xC0451801, .kPool 5 6 true), (0xC0401403, .kPoolOff 5 true), (0xC0851871, .kTbl 5 6 7 true),
    (0xC0C51877, .kApp 5 6 7 true true true), (0xC1051873, .kWr 5 6 7 true true), (0xC1451871, .kFork 5 6 7 true),
    (0xC1851801, .kTrunc 5 6 true), (0xC1C50001, .kRet 5 true), (0xC2051871, .kWinOpen 5 6 7 true),
    (0xC2451873, .kCommit 5 6 7 true true), (0xC2851803, .kAbort 5 6 true true), (0xC2C51871, .kCkpt 5 6 7 true),
    (0xC3051801, .kLen 5 6 true), (0xC3401401, .kBbinv 5 true), (0xC4051873, .kFalloc 5 6 7 true true),
    (0xC4451871, .kFfree 5 6 7 true), (0xC4851801, .kFscrub 5 6 true), (0xC4851873, .kFscrubTake 5 6 7 true),
    (0xC4C51871, .kFref 5 6 7 true), (0xC5051871, .kFqryBlk 5 6 7 true), (0xC5051803, .kFqryPool 5 6 true)]

theorem test_decode_cache : Decodes wordsCache := rfl

def wordsPrefix : List (BitVec 32 × Instr) := [
    (0xE0600003, .xImm 0x200003), (0xE0851870, .xCap 5 6 7), (0xE0C00004, .xRnd 4), (0xE10000C5, .xPm true true 5),
    (0xE1400014, .xOrd 2 4), (0xE1800009, .xHint 9)]

theorem test_decode_prefix : Decodes wordsPrefix := rfl

/-! ## The states of the tests -/

/-- A page that a translation cache of the strand holds: 0x11_0000 at frame 1. -/
def cachedPage (eng : Nat) : Tlb :=
  ⟨eng, 0, 0x110000, 65536, 65536, 0x10000, 0x10000, false, 0, 0, 3, 3, false, false, 0, 0, true⟩

/-- The page after it, which the copy engine's cache holds: 0x12_0000 at frame 3, a page of versions. -/
def aheadPage : Tlb := ⟨3, 0, 0x120000, 65536, 65536, 0x30000, 0x30000, false, 0, 0, 3, 3, false, true, 0, 0, true⟩

/-- A page that the matrix engine's cache holds: 0x14_0000 at frame 0, in format 4. -/
def weightPage : Tlb := ⟨2, 0, 0x140000, 65536, 65536, 0, 0, false, 0, 0, 3, 3, false, false, 4, 0, true⟩

/-- What the tile caches. -/
def rigTile : TileCache :=
  ⟨[], [], [cachedPage 0, cachedPage 1, cachedPage 2, cachedPage 3, aheadPage, weightPage],
    [⟨0, 0, 0x50000, 0x60101⟩, ⟨0, 0, 0x40000, 0x50101⟩], some 0, 0⟩

/-- Context slot 0, a table node at each level, and pages 16 to 18, 20 and 21 (R269, R271, R273). -/
def rigMem : Mem :=
  [(0x20000, 1), (0x2000A, 4), (0x40000, 1), (0x40001, 1), (0x40002, 5), (0x50000, 1), (0x50001, 1), (0x50002, 6), (0x60080, 0x53),
   (0x60081, 1), (0x60082, 7), (0x60088, 0x33), (0x60089, 3), (0x6008A, 1), (0x60090, 0x33), (0x60091, 3), (0x60092, 3),
   (0x60097, 0x20), (0x600A0, 0x33), (0x600A1, 3), (0x600A6, 0x80), (0x600A8, 0x33), (0x600A9, 3), (0x600AA, 8)]

/-- A strand that is privileged and has 64 KiB of scratchpad and two accumulators; of its context, page 0x11_0000 is frame 1,
page 0x14_0000 frame 0 in format 4, both cached, and page 0x12_0000 frame 3, a page of versions; page 0x15_0000 is frame 8. -/
def rig : State :=
  let s := State.reset.withFetchWord 32 0
  { s with
    mem := rigMem
    frames := putFrames s.frames 8 9 ⟨.owned, 0, 0, 0, 0⟩
    st := { s.st with
      csr := { s.st.csr with privl := true }, spadUnits := 1
      mat := { s.st.mat with accs := [Acc.fresh 0, Acc.fresh 0] } }
    tiles := [(0, rigTile)] }

/-- A state with another current strand. -/
def alter (s : State) (f : Strand → Strand) : State := { s with st := f s.st }

/-- The strand's CSRs. -/
def csrs (s : State) (f : Csrs → Csrs) : State := alter s fun t => { t with csr := f t.csr }

/-- Registers of the strand. -/
def regs (l : List (Reg × Word)) (t : Strand) : Strand := l.foldl (fun t r => t.setReg r.1 r.2) t

/-- Where an address of page 0x11_0000, or 0x12_0000, lies. -/
def at17 (va : Nat) : Mapped := ⟨va - 0x100000, va - 0x100000, false, 0, 0, 0x120000 - va⟩
def at18 (va : Nat) : Mapped := ⟨va - 0xF0000, va - 0xF0000, false, 0, 0, 0x130000 - va⟩

/-- Where the pages 0x14_0000 and 0x15_0000 begin. -/
def atArea (i : Nat) : Mapped := if i = 0 then ⟨0, 0, false, 0, 4, 0x10000⟩ else ⟨0x80000, 0x80000, false, 0, 0, 0x10000⟩

def quietB (t : Strand) : Bool :=
  t.life == .active && t.barred == false && t.queues == Vector.replicate 6 [] && t.loopLeft == Vector.replicate 3 0 && t.work == Progress.fresh && t.hold == .none &&
    t.pend == none && t.engHeld == 0 && t.lag == 0

def steersB (i : Instr) (p : Prefixes) (s : State) : Bool :=
  s.st.life != .gone && (match unitCheck i s.st (s.features s.st.place.fn) with | .ok q => q == p | .error _ => false) &&
    decide (s.st.slip < s.st.csr.slipLimit)

theorem steers {i : Instr} {p : Prefixes} {s : State} (h : steersB i p s = true) : Steers i p s := by
  simp only [steersB, Bool.and_eq_true, bne_iff_ne, decide_eq_true_eq] at h
  obtain ⟨⟨h1, h2⟩, h3⟩ := h
  refine ⟨h1, ?_, h3⟩
  split at h2
  · rename_i q hq
    rw [hq, eq_of_beq h2]
  · cases h2

/-- No ganged word of a leader holds bytes of the strand, and none of its own words is still to be steered and waits for the Fuller. -/
def sharesFreeB (s : State) : Bool :=
  (s.others.all fun t => t.place.gang != s.st.place.gang || t.place.member != 0 || (t.queue 2).all fun x => x.prog.shareLocks == []) &&
    s.fullerWaits == []

theorem quiet {t : Strand} (h : quietB t = true) : t.Quiet := by
  simp only [quietB, Bool.and_eq_true, beq_iff_eq] at h
  obtain ⟨⟨⟨⟨⟨⟨⟨⟨h1, h2⟩, h3⟩, h4⟩, h5⟩, h6⟩, h7⟩, h8⟩, h9⟩ := h
  exact ⟨h1, h2, h3, h4, h5, h6, h7, h8, h9⟩

theorem runs {i : Instr} {p : Prefixes} {s : State} (h : (steersB i p s && quietB s.st && sharesFreeB s) = true) : Runs i p s := by
  simp only [Bool.and_eq_true, sharesFreeB, beq_iff_eq] at h
  refine ⟨steers h.1.1, quiet h.1.2, fun t ht hg hm x hx => ?_, fun w hw => by rw [h.2.2] at hw; cases hw⟩
  have := List.all_eq_true.mp h.2.1 t ht
  simp [hg, hm] at this
  exact this x hx

/-- Concrete accesses that go through. -/
def reachesB (s : State) (eng va : Nat) (acc : AccessKind) (m : Mapped) : Bool :=
  eng ≤ 3 && s.st.pageAnswers.isEmpty && s.st.pageWaits.isEmpty &&
    (match s.here.tlbs.find? (fun t => t.hits eng s.st.place.slot va && (t.dirty || !acc.writes)) with
      | some t => t.permits t.perm1 false acc && !t.two && s.fnEnabled t.fn && m == t.mapped va && s.inWindow m.pa &&
          s.sealOk t.sealMode m.pa t.world
      | none => false) &&
    (!acc.writes || (!s.weightFrame m.pa && !m.two)) &&
    (eng != 3 || s.here.tlbs.any fun t => t.hits 3 s.st.place.slot (va / 65536 * 65536)) && !s.poison.contains (m.pa / 64) && (s.frameAt m.pa).sealMode != 2

theorem reaches {s : State} {eng va : Nat} {acc : AccessKind} {m : Mapped} (h : reachesB s eng va acc m = true) :
    s.Reaches eng va acc m := by
  simp only [reachesB, Bool.and_eq_true, decide_eq_true_eq, List.isEmpty_iff, Bool.or_eq_true, Bool.not_eq_true', bne_iff_ne] at h
  obtain ⟨⟨⟨⟨⟨⟨⟨h1, h2⟩, h3⟩, h4⟩, h5⟩, h8⟩, h6⟩, h7⟩ := h
  refine ⟨⟨h1, by simp [h2], by simp [h3], ?_, fun hw => ?_, fun h3 => List.any_eq_true.mp (h8.resolve_left fun h => h h3)⟩, fun _ => ⟨h6, h7⟩⟩
  · split at h4
    · rename_i t ht
      simp only [Bool.and_eq_true, beq_iff_eq, Bool.not_eq_true'] at h4
      obtain ⟨⟨⟨⟨⟨p1, p2⟩, p3⟩, p4⟩, p5⟩, p6⟩ := h4
      exact ⟨t, ht, p1, fun h => by simp [p2] at h, p3, p4, p5, p6⟩
    · cases h4
  · rcases h5 with h | h
    · rw [hw] at h
      cases h
    · exact ⟨h.1, fun h2 => by rw [h.2] at h2; cases h2⟩

/-- The strand has fetched these prefixes. -/
def fetched (l : List Instr) (s : State) : State := alter s fun t => { t with pfx := l.map encode }
def prefixesOf (l : List Instr) : Prefixes := (Prefixes.ofWords (l.map encode) noPrefixes).getD noPrefixes

/-- `x.cap` over s8, s9 and s10 where a word asks for it (R92). -/
def capFor (i : Instr) : List Instr :=
  if i.extOperands.2 then
    [.xCap 8 (if 2 ≤ i.extOperands.1 then 9 else 0) (if 3 ≤ i.extOperands.1 then 10 else 0)]
  else []

/-- Each word of a list is steered and performed at once. -/
def Witnessed (l : List (BitVec 32 × Instr)) : Prop :=
  ∀ r ∈ l, Runs r.2 (prefixesOf (capFor r.2)) (fetched (capFor r.2) rig)

theorem witnessed {l : List (BitVec 32 × Instr)}
    (h : l.all (fun r => steersB r.2 (prefixesOf (capFor r.2)) (fetched (capFor r.2) rig) && quietB (fetched (capFor r.2) rig).st &&
      sharesFreeB (fetched (capFor r.2) rig)) = true) :
    Witnessed l := fun r hr => runs (List.all_eq_true.mp h r hr)

/-! ## Every word runs somewhere: the premise that all statements of words share -/


/-- What an action answers that goes through, or traps, meets a condition. -/
def okB {α : Type} (r : EStateM.Result Stop State α) (P : α → State → Bool) : Bool := match r with | .ok a s => P a s | .error .. => false
def trapB {α : Type} (r : EStateM.Result Stop State α) : Bool := match r with | .error (.trap _) _ => true | _ => false

theorem of_okB {α : Type} {r : EStateM.Result Stop State α} {P : α → State → Bool} (h : okB r P = true) :
    ∃ a s, r = .ok a s ∧ P a s = true := by
  cases r with
  | ok a s => exact ⟨a, s, rfl, h⟩
  | error e s => cases h

theorem of_trapB {α : Type} {r : EStateM.Result Stop State α} (h : trapB r = true) : ∃ c s, r = .error (.trap c) s := by
  unfold trapB at h
  split at h
  · exact ⟨_, _, rfl⟩
  · cases h
theorem witness_runs_scalar_1 : Witnessed wordsScalar1 := witnessed rfl
theorem witness_runs_scalar_2 : Witnessed wordsScalar2 := witnessed rfl
theorem witness_runs_scalar_3 : Witnessed wordsScalar3 := witnessed rfl
theorem witness_runs_vector_1 : Witnessed wordsVector1 := witnessed rfl
theorem witness_runs_vector_2 : Witnessed wordsVector2 := witnessed rfl
theorem witness_runs_matrix : Witnessed wordsMatrix := witnessed rfl
theorem witness_runs_copy : Witnessed wordsCopy := witnessed rfl
theorem witness_runs_bank : Witnessed wordsBank := witnessed rfl
theorem witness_runs_attention : Witnessed wordsAttention := witnessed rfl
theorem witness_runs_cache : Witnessed wordsCache := witnessed rfl
/-! ## The premises of the statements of scalar words -/

theorem witness_shift_traps : rig.st.life ≠ .gone ∧ Prefixes.ofWords rig.st.pfx noPrefixes = some noPrefixes ∧
    64 ≤ (unsignedImm noPrefixes (64 : BitVec 10)).toNat := ⟨by decide, rfl, by decide⟩

/-- Registers s1 = 0x11_0000, s2 = 0x11_0001, s3 = 65,528 and s4 = 65,536: the last granule of the scratchpad, and its end. -/
def memRig : State := alter rig (regs [(1, 0x110000), (2, 0x110001), (3, 0xFFF8), (4, 0x10000), (5, 0x130000)])

theorem witness_load : Steers (.ldD 6 1 0) noPrefixes memRig ∧ 0x110000 % 8 = 0 ∧
    mapAccess 0 0 0x110000 .read memRig = .ok (at17 0x110000) memRig ∧ memRig.Sound 0x10000 :=
  ⟨steers rfl, rfl, rfl, fun _ => ⟨rfl, by decide⟩⟩

theorem witness_store : Steers (.stD 6 1 0) noPrefixes memRig ∧
    mapAccess 0 0 0x110000 .write memRig = .ok (at17 0x110000) memRig := ⟨steers rfl, rfl⟩

theorem witness_misaligned : Steers (.ldH 6 2 0) noPrefixes memRig ∧
    (memRig.st.reg 2 + signedImm noPrefixes (0 : BitVec 10)).toNat % 2 ≠ 0 := ⟨steers rfl, by decide⟩

theorem witness_scratchpad_last : Steers (.ldsD 6 3 0) noPrefixes memRig ∧
    (let so := (memRig.st.reg 3 + signedImm noPrefixes (0 : BitVec 10)).toNat
     so % 8 = 0 ∧ so + 8 = memRig.st.spadSize ∧ memRig.locked memRig.st so 8 = false) := ⟨steers rfl, by decide⟩

theorem witness_scratchpad_beyond : Steers (.ldsD 6 4 0) noPrefixes memRig ∧
    (let so := (memRig.st.reg 4 + signedImm noPrefixes (0 : BitVec 10)).toNat
     so % 8 = 0 ∧ memRig.st.spadSize < so + 8) := ⟨steers rfl, by decide⟩

theorem witness_page_trap : Steers (.ldD 6 5 0) noPrefixes memRig ∧ Steers (.stD 6 5 0) noPrefixes memRig ∧
    (∃ c s1, mapAccess 0 0 0x130000 .read memRig = .error (.trap c) s1) ∧
    ∃ c s1, mapAccess 0 0 0x130000 .write memRig = .error (.trap c) s1 :=
  ⟨steers rfl, steers rfl, ⟨_, _, rfl⟩, _, _, rfl⟩

theorem witness_trap_entry :
    ((csrs rig fun c => { c with emu := true }).st.csr.trap = false ∧ (csrs rig fun c => { c with emu := true }).st.csr.emu = true) ∧
    (csrs rig fun c => { c with emuvec := 0x100000 }).st.csr.emuvec ≠ 0 ∧
    rig.st.csr.tvec = 0 ∧ (csrs rig fun c => { c with tvec := 0x100000 }).st.csr.tvec ≠ 0 := by decide

/-- One vector word stands in its queue. -/
def queued : State := alter rig fun t => (t.enqueue (.vMov 1 2 false) noPrefixes).advance 0x100004

theorem allQueues (t : Strand) (P : List Entry → Prop) (h : ∀ e, e < 7 → P (t.queue e)) (h0 : P []) (e : Nat) : P (t.queue e) := by
  by_cases he : e < 7
  · exact h e he
  · have : t.queue e = [] := by
      unfold Strand.queue vget
      simp only [Array.getD, Vector.size_toArray, dite_eq_right_iff]
      omega
    rw [this]
    exact h0

theorem witness_trap_drains : (∀ e, rig.st.queue e = []) ∧
    ∃ e, 1 ≤ e ∧ e ≤ 6 ∧ queued.st.queue e ≠ [] ∧ queued.st.engHeld.getLsbD (e - 1) = false :=
  ⟨allQueues rig.st (· = []) (by decide) rfl, 1, by decide⟩

theorem witness_trap_return :
    (let s := csrs rig fun c => { c with trap := true }; Steers .tret noPrefixes s ∧ s.st.csr.trap = true ∧ s.st.broken = .none) ∧
    (let s := csrs rig fun c => { c with emu := true }; Steers .tret noPrefixes s ∧ s.st.csr.emu = true ∧ s.st.hold = .none) ∧
    (Steers .tret noPrefixes rig ∧ rig.st.csr.trap = false ∧ rig.st.csr.emu = false) :=
  ⟨⟨steers rfl, by decide⟩, ⟨steers rfl, by decide⟩, steers rfl, by decide⟩

/-- The trap broke a `qjoin` off, or a word with `.acq`; its entries are still queued, or have gone. -/
theorem witness_broken_hold :
    (let s := alter (csrs queued fun c => { c with trap := true }) fun t => { t with broken := .join 0 }
     Steers .tret noPrefixes s ∧ s.st.csr.trap = true ∧ s.st.broken = .join 0 ∧ ∃ e x, 1 ≤ e ∧ e ≤ 6 ∧ x ∈ s.st.queue e ∧ x.seq = 0) ∧
    (let s := alter (csrs rig fun c => { c with trap := true }) fun t => { t with broken := .join 0 }
     Steers .tret noPrefixes s ∧ s.st.csr.trap = true ∧ s.st.broken = .join 0 ∧ ∀ e x, 1 ≤ e → e ≤ 6 → x ∈ s.st.queue e → x.seq ≠ 0) ∧
    (let s := alter (csrs rig fun c => { c with trap := true }) fun t => { t with broken := .acquire 0 4 }
     Steers .tret noPrefixes s ∧ s.st.csr.trap = true ∧ s.st.broken = .acquire 0 4 ∧ 0 ∉ s.st.pending) ∧
    (let s := alter (csrs queued fun c => { c with trap := true }) fun t => { t with broken := .acquire 0 4 }
     Steers .tret noPrefixes s ∧ s.st.csr.trap = true ∧ s.st.broken = .acquire 0 4 ∧ 0 ∈ s.st.pending) :=
  ⟨⟨steers rfl, rfl, rfl, 1, _, by decide, by decide, .head _, rfl⟩,
    ⟨steers rfl, rfl, rfl, fun e x _ _ h => by
      rw [show (alter (csrs rig fun c => { c with trap := true }) fun t => { t with broken := .join 0 }).st.queue e = [] from
        allQueues rig.st (· = []) (by decide) rfl e] at h
      cases h⟩, ⟨steers rfl, rfl, rfl, by decide⟩, steers rfl, rfl, rfl, by decide⟩

theorem witness_jumps : Steers (.jr 1) noPrefixes memRig ∧ (memRig.st.reg 1).toNat % 4 = 0 ∧ Steers (.calli 6 2 0) noPrefixes memRig ∧
    (memRig.st.reg 2).toNat % 4 ≠ 0 := ⟨steers rfl, by decide, steers rfl, by decide⟩

theorem witness_end_brk : Steers .endStrand noPrefixes rig ∧ rig.st.csr.trap = false ∧
    (let s := csrs rig fun c => { c with trap := true }; Steers .endStrand noPrefixes s ∧ s.st.csr.trap = true) ∧
    let s := csrs rig fun c => { c with tvec := 0x100000 }; Steers (.brk 1) noPrefixes s ∧ s.st.csr.tvec ≠ 0 :=
  ⟨steers rfl, rfl, ⟨steers rfl, rfl⟩, steers rfl, by decide⟩

theorem witness_csr : Steers (.csrs 1 2 0x008) noPrefixes rig ∧ rig.st.CsrFree 0x008 ∧ Steers (.csrc 1 2 0x032) noPrefixes rig ∧
    rig.st.CsrFree 0x032 := by
  have h := allQueues rig.st (· = []) (by decide) rfl
  exact ⟨steers rfl, fun e _ => h e, steers rfl, fun e _ => h e⟩

/-- A ring of two slots, both full, and one with both free; streams: none, a scalar one with a unit, one still to come. -/
def ringRig : State := alter (alter rig (regs [(1, 0), (2, 2), (3, 1), (4, 3)])) fun t =>
  { t with
    rings := vput t.rings 1 ⟨1, 2, 0, 0, 2, 0, 2, []⟩
    streams := vput (vput t.streams 1 ⟨true, false, 0, [[5]], 0⟩) 2 ⟨true, false, 0, [], 3⟩ }

theorem witness_rings :
    Steers (.rbind 1 15) noPrefixes ringRig ∧
    (let r := ringRig.st.ring 1; r.peers = [] ∧ (r.claimH - r.head).toNat ≤ (r.tail - r.head).toNat ∧
      (r.tail - r.head).toNat ≤ (r.claimT - r.head).toNat ∧ (r.claimT - r.head).toNat ≤ r.count ∧ r.count ≤ 4096) ∧
    Steers (.rwf 6 2 1 0) noPrefixes ringRig ∧ Steers (.rwe 6 3 1 0) noPrefixes ringRig ∧ Steers (.radvT 4 1 0) noPrefixes ringRig ∧
    Steers (.radvH 2 1 0) noPrefixes ringRig :=
  ⟨steers rfl, by decide, steers rfl, steers rfl, steers rfl, steers rfl⟩

theorem witness_rdw : Steers (.rdw 6 0) noPrefixes ringRig ∧ Steers (.rdw 6 1) noPrefixes ringRig ∧ Steers (.rdw 6 2) noPrefixes ringRig ∧
    (vget ringRig.st.streams 0 Stream.unbound).bound = false ∧ (vget ringRig.st.streams 1 Stream.unbound).units = [[5]] ∧
    (vget ringRig.st.streams 2 Stream.unbound).units = [] ∧ (vget ringRig.st.streams 2 Stream.unbound).left ≠ 0 :=
  ⟨steers rfl, steers rfl, steers rfl, by decide⟩

theorem witness_join : ∃ x, Steers (.qjoin 3) noPrefixes queued ∧ (3 : BitVec 8).getLsbD 1 = true ∧ queued.st.queue 1 = [x] ∧
    x.isJoin = false ∧ (∀ k, (queued.st.queue k).length < queueDepth k) ∧
    (∀ k, ∀ y ∈ queued.st.queue k, y.isJoin = false ∧ y.seq < queued.st.steered) ∧ queued.st.hold = .none := by
  refine ⟨_, steers rfl, rfl, rfl, rfl, fun k => ?_, allQueues queued.st (fun q => ∀ y ∈ q, y.isJoin = false ∧ y.seq < queued.st.steered) (by decide) (by decide), rfl⟩
  have h : 2 ≤ queueDepth k := by unfold queueDepth; split <;> decide
  have := allQueues queued.st (fun q => q.length < 2) (by decide) (by decide) k
  omega

theorem witness_barriers :
    let s := alter (alter rig (regs [(1, 1), (2, 65535)])) fun t => t.setBar 15 { t.bar 15 with expect := 1, mask := 1 }
    Steers (.barInit 15 2 1) noPrefixes s ∧ Steers (.barArr 6 1 15 0) noPrefixes s ∧ Steers (.barExp 1 15 0) noPrefixes s ∧
    Steers (.barWait 6 15 1) noPrefixes s ∧ s.others = [] ∧ s.st.place.member = 0 ∧ s.st.place.size = 1 ∧ (s.st.bar 15).mask = 1 :=
  ⟨steers rfl, steers rfl, steers rfl, steers rfl, by decide⟩

/-- Member 0 of a gang of two: its copies of barrier 15 are idle, or member 1's has an arrival. -/
def pairRig (other : Barrier) : State :=
  let s := alter (alter rig (regs [(1, 1), (2, 65535), (3, 3)])) fun t =>
    { t.setBar 15 { t.bar 15 with expect := 2, mask := 3 } with place := { t.place with size := 2 } }
  { s with others := [{ s.st with place := { s.st.place with member := 1, bank := 1 } }.setBar 15 other] }

/-- Every copy takes the word, or member 1's refuses. -/
theorem witness_gang_barriers :
    let one : Barrier := { rig.st.bar 15 with expect := 2, mask := 3 }
    let busy : Barrier := { one with arrived := 2 }
    Steers (.barInit 15 2 3) noPrefixes (pairRig one) ∧ Steers (.barArr 6 1 15 0) noPrefixes (pairRig one) ∧
    (1 ≤ ((pairRig one).st.reg 2).toNat ∧ ((pairRig one).st.reg 2).toNat ≤ 65535 ∧ (pairRig one).st.reg 3 ≠ 0 ∧
      ((pairRig one).st.reg 3).toNat < 2 ^ (pairRig one).st.place.size ∧ (pairRig one).st.place.size ≤ 16) ∧
    (let n := ((pairRig one).st.reg 1 + (0 : BitVec 10).setWidth 64).toInt
     n < 2 ^ 31 ∧ -(2 ^ 31) ≤ n ∧ ((pairRig one).st.bar 15).expect ≠ 0 ∧ (pairRig one).AllAccept 15 3 (·.Takes n) ∧
       ¬ (pairRig busy).AllAccept 15 3 (·.Takes n)) ∧
    (pairRig one).AllAccept 15 3 (fun c => c.arrived = 0 ∧ c.pending = 0) ∧
    ¬ (pairRig busy).AllAccept 15 3 (fun c => c.arrived = 0 ∧ c.pending = 0) := by
  unfold State.AllAccept Barrier.Takes
  exact ⟨steers rfl, steers rfl, by decide, by decide, by decide, by decide⟩
/-! ## Translation maintenance, published stores, the seal engine, the step -/

/-- Slot 1 is a context of function 1, which another partition runs; s1 names it, and s2 an address. -/
def otherSlot : State :=
  let s := alter rig (regs [(1, 1), (2, 0x110000), (3, 0)])
  { s with mem := s.mem.writeNat 0x20020 8 3, fns := [(1, { Fn.reset with part := 1 })] }

theorem witness_names : Steers (.tlbiCtx 3) noPrefixes otherSlot ∧ otherSlot.MayName 0 ∧
    Steers (.tlbiVa 2 1) noPrefixes otherSlot ∧ ¬ otherSlot.MayName 1 :=
  ⟨steers rfl, by unfold State.MayName; decide, steers rfl, by unfold State.MayName; decide⟩

theorem witness_xlat : ∃ w, (otherSlot.ctx 0).v = true ∧ (otherSlot.ctx 0).fn = 0 ∧ otherSlot.worldOk (otherSlot.ctx 0) = true ∧
    otherSlot.walkPhys (otherSlot.walksFor 0) 0 0 0x110000 [1, 2, 3] ((otherSlot.ctx 0).root * 65536) [] = .ok w ∧ badFormat (bits w.leaf 53 7) = false :=
  ⟨_, by decide, by decide, by decide, rfl, by decide⟩

/-- Slot 1 is a context of function 1, whose second stage maps pages 1 and 4 to 6 to themselves, page 6 with no right to write it;
page 0x14_0000 of slot 0 is of a leaf that asks for a sealed frame. Nothing is cached. -/
def walkRig : State :=
  { rig with
    tiles := []
    mem := rigMem.take 2 ++ [(0x20020, 3), (0x2002A, 4)] ++ (rigMem.drop 2).filter (fun c => c.1 < 0x600A6) ++ [(0x600A7, 0x40), (0x80000, 1), (0x80001, 1),
      (0x80002, 9), (0x90000, 1), (0x90001, 1), (0x90002, 10), (0xA0008, 0x33), (0xA0009, 3), (0xA000A, 1), (0xA0020, 0x33),
      (0xA0021, 3), (0xA0022, 4), (0xA0028, 0x33), (0xA0029, 3), (0xA002A, 5), (0xA0030, 0x13), (0xA0031, 3), (0xA0032, 6)]
    fns := [(1, { Fn.reset with en := true, trans := { Fn.reset.trans with s2root := 8, s2en := true } })] }

/-- A walk comes to an address that meets a condition. -/
def foundB {α : Type} (r : Except XFail α) (P : α → Bool) : Bool := match r with | .ok x => P x | .error _ => false

theorem of_foundB {α : Type} {r : Except XFail α} {P : α → Bool} (h : foundB r P = true) : ∃ x, r = .ok x ∧ P x = true := by
  cases r with
  | ok x => exact ⟨x, rfl, h⟩
  | error e => cases h

/-- An address of one stage that is mapped, one that is not, one whose frame is not sealed as it says; an address of two stages; and
an IPA that is not mapped. -/
theorem witness_walks :
    (let c := walkRig.ctx 0
     c.v = true ∧ c.fn ≤ 64 ∧ walkRig.fnEnabled c.fn = true ∧ walkRig.worldOk c = true ∧ walkRig.twoStage c = false ∧
       (∃ x, walkRig.translate [] c 0x110000 .write = .ok x ∧ (x.agrees && !x.two && !walkRig.weightFrame x.pa) = true) ∧
       walkRig.translate [] c 0x130000 .read = .error (.fault 1) ∧
       ∃ x, walkRig.translate [] c 0x140000 .read = .ok x ∧ (!x.agrees) = true) ∧
    (let c := walkRig.ctx 1
     c.v = true ∧ c.fn ≤ 64 ∧ walkRig.fnEnabled c.fn = true ∧ walkRig.worldOk c = true ∧ walkRig.twoStage c = true ∧
       (∃ x, walkRig.translate [] c 0x110000 .read = .ok x ∧ (x.agrees && x.two && x.pa == 0x10000) = true) ∧
       (∃ ipa lvl k a, walkRig.translate [] c 0x100000 .read = .error (.second ipa lvl k a)) ∧
       walkRig.walkSecond [] c 0x70000 0 .read = .error (.second 0x70000 0 1 AccessKind.read.code) ∧
       ∃ w, walkRig.walkSecond [] c 0x50000 0 .read = .ok w) ∧
    walkRig.here.tlbs = [] ∧ walkRig.here.walks = [] ∧ walkRig.st.pageAnswers = [] ∧ walkRig.st.pageWaits = [] :=
  ⟨⟨by decide, by decide, by decide, by decide, by decide, of_foundB (by decide), rfl, of_foundB (by decide)⟩,
    ⟨by decide, by decide, by decide, by decide, by decide, of_foundB (by decide), ⟨_, _, _, _, rfl⟩, rfl, _, rfl⟩, rfl, rfl, rfl, rfl⟩

/-- A write whose first-stage leaf and tables have no A and D bit yet. -/
theorem witness_marks : walkRig.Wf ∧ ∃ x, walkRig.translate [] (walkRig.ctx 1) 0x110000 .write = .ok x ∧
    (x.two && (x.visited.all fun v =>
      v.pa % 8 == 0 && !walkRig.poison.contains (v.pa / 64) && (walkRig.frameAt v.pa).sealMode != 2) &&
      x.visited.any fun l => l.leaf && l.stage != 2 && x.visited.all fun v => !v.leaf || v.stage == 2 || v == l) = true :=
  ⟨by unfold State.Wf; decide, of_foundB (by decide)⟩

theorem witness_published :
    let s := alter rig fun t => { t with stores := [⟨0x11003F, 0, 0, 0x1003F, [1, 2], none, true, false, none⟩] }
    s.Wf ∧ s.st.Translated ∧ s.Stores 0x1003F 2 := by
  refine ⟨by unfold State.Wf; decide, by unfold Strand.Translated; decide, fun a h1 h2 _ => ?_⟩
  have : a / 64 = 0x400 ∨ a / 64 = 0x401 := by omega
  exact ⟨by rcases this with h | h <;> rw [h] <;> decide, fun h => absurd h (by
    have : a = 0x1003F ∨ a = 0x10040 := by omega
    rcases this with h | h <;> rw [h] <;> decide)⟩

/-- World 2 lives and is of function 0, and world 3 is free; s1 to s4 name 1, 2, 63 and a granule of page 0x11_0000; and s5 a
register of measurement 7 of function 0. -/
def sealRig : State :=
  let s := alter rig (regs [(1, 1), (2, 2), (3, 63), (4, 0x110000), (5, 7)])
  { s with sealEng := { s.sealEng with worlds := [(2, ⟨true, 0, 1, 0, 0, 0⟩)] } }

theorem witness_worlds : Steers (.slKeyNew 6 1 0) noPrefixes sealRig ∧ Steers (.slKeyNew 6 3 0) noPrefixes sealRig ∧
    Steers (.slKeyKill 6 2) noPrefixes sealRig ∧ Steers (.slKeyKill 6 3) noPrefixes sealRig ∧
    (sealRig.sealEng.world 1).live = false ∧ (sealRig.sealEng.world 2).live = true ∧
    (sealRig.st.reg 3).toNat = 63 ∧ sealRig.st.place.fn = 0 :=
  ⟨steers rfl, steers rfl, steers rfl, steers rfl, by decide⟩

theorem witness_measure : Steers (.slMeas 6 4 5) noPrefixes sealRig ∧ Steers (.slMeasRd 6 4 5) noPrefixes sealRig ∧
    (sealRig.st.reg 5).toNat = 0 * 256 + 7 ∧ (sealRig.st.reg 4).toNat % 64 = 0 ∧
    mapAccess 0 0 0x110000 .read sealRig = .ok (at17 0x110000) sealRig ∧ sealRig.Sound 0x10000 ∧
    mapAccess 0 0 0x110000 .write sealRig = .ok (at17 0x110000) sealRig ∧ (at17 0x110000).two = false ∧ sealRig.st.stores = [] :=
  ⟨steers rfl, steers rfl, by decide, by decide, rfl, by unfold State.Sound; decide, rfl, rfl, rfl⟩

theorem witness_report : Steers (.slRep 6 4 4) noPrefixes sealRig ∧ (sealRig.st.reg 4).toNat % 4096 = 0 ∧
    ((sealRig.lineBytes 0x110000 0x10000).getD 32 0).toNat ≤ 64 ∧ (∀ x ∈ (sealRig.lineBytes 0x110000 0x10000).drop 33, x = 0) ∧
    (∃ s2, mapAccess 0 0 0x110000 .write (sealRig.loaded 0x10000) = .ok (at17 0x110000) s2 ∧ s2.st.stores = [] ∧
      s2.sealEng.leaf < 2 ^ 20) ∧ (sealRig.lineBytes 0x110000 0x10000).length = 64 :=
  ⟨steers rfl, by decide, by decide, by decide, ⟨_, rfl, rfl, by decide⟩, by decide⟩

theorem witness_prefixes : rig.st.life ≠ .gone ∧ rig.st.pfx.length < 4 ∧
    (fetched [.xHint 1, .xRnd 0, .xImm 1, .xPm false false 1] rig).st.pfx.length = 4 ∧
    Prefixes.ofWords (fetched [.xHint 1, .xHint 2] rig).st.pfx noPrefixes = none := by decide

/-- A word that does not fit its prefix, one of a field outside its class, one of a masked feature, one not privileged. -/
theorem witness_unit_checks :
    prefixesFit (.add 1 2 3) (prefixesOf [.xRnd 0]) = false ∧ Instr.wellFormed (.vMov 16 1 false) = false ∧
    (let s : State := { alter rig fun t => { t with place := { t.place with fn := 1 } } with fns := [(1, { Fn.reset with featmask := 0 })] }
     (s.features s.st.place.fn).getLsbD (Instr.feature (.mZero 1 2 false)) = false) ∧
    (let s := csrs rig fun c => { c with privl := false }
     let i := Instr.kPool 1 2 false
     i.privileged = true ∧ prefixesFit i noPrefixes = true ∧ i.wellFormed = true ∧ featuresOk i noPrefixes (s.features 0) = true ∧
       wideFits i noPrefixes = true ∧ s.st.csr.privl = false) := by decide

/-- Bytes fetched at a mapped address decode to `i`, or to nothing. -/
def decodesAt (i : Option Instr) (v : State) (m : Mapped) (s1 : State) : Bool :=
  v.codeHit m.pa == none && decide (m.pa < dramEnd) && !v.poison.contains (m.pa / 64) && (v.frameAt m.pa).sealMode != 2 &&
    decodeBytes (s1.peekBytes s1.st.who m.pa 4) == i.map fun i => (i, [])

/-- A word that is fetched from memory, one that decodes to nothing, one that the instruction cache holds, one that cannot be
fetched. -/
theorem witness_step :
    let s := State.reset.withFetchWord 32 0x064C30FF
    s.StepsStrand ∧ okB (mapAccess 0 s.st.place.slot s.st.wordAddr.toNat .fetch s) (decodesAt (some (.andi 12 12 255)) s) = true ∧
    okB (mapAccess 0 rig.st.place.slot rig.st.wordAddr.toNat .fetch rig) (decodesAt none rig) = true ∧
    (let v := { s with tiles := [(0, { TileCache.empty with icache := [⟨0x70000, 0x11000000, 1⟩] })] }
     v.StepsStrand ∧ okB (mapAccess 0 v.st.place.slot v.st.wordAddr.toNat .fetch v) (fun m _ => v.codeHit m.pa == some 0x11000000) = true ∧
       decodeWord 0x11000000 = some .tret) ∧
    (let v := alter s fun t => { t with pc := 0x130000 }
     v.StepsStrand ∧ trapB (mapAccess 0 v.st.place.slot v.st.wordAddr.toNat .fetch v) = true) := by
  exact ⟨⟨by decide, by decide, by decide, rfl, by decide⟩, rfl, rfl, ⟨⟨by decide, by decide, by decide, rfl, by decide⟩, rfl, rfl⟩,
    ⟨by decide, by decide, by decide, rfl, by decide⟩, rfl⟩

theorem test_step_andi :
    (match step (State.reset.withFetchWord 32 0x064C30FF) with | .next t => t.st.pc == 0x100004 | _ => false) = true := by decide

theorem witness_wf_step : ∃ t, (State.reset.withFetchWord 32 0x064C30FF).Wf ∧ step (State.reset.withFetchWord 32 0x064C30FF) = .next t :=
  ⟨_, by unfold State.Wf; decide, rfl⟩
/-! ## The premises of the statements of vector words -/

/-- Frame 1 is owned, clear and in a window. -/
theorem frame17 (s : State) (h : s.frames = rig.frames) (pa : Nat) (hl : 0x10000 ≤ pa) (hu : pa < 0x20000) :
    s.frameAt pa = ⟨.owned, 0, 0, 0, 0⟩ := by
  have : pa / 65536 = 1 := by omega
  unfold State.frameAt
  rw [this, h]
  rfl

theorem cached17 (s : State) (h1 : s.here.tlbs = rigTile.tlbs) (h2 : s.st.pageAnswers = []) (h3 : s.st.pageWaits = [])
    (h4 : s.parts = rig.parts) (h5 : s.frames = rig.frames) (eng va : Nat) (acc : AccessKind) (he : eng ≤ 3) (hl : 0x110000 ≤ va)
    (hu : va < 0x120000) (ha : (cachedPage eng).permits 3 false acc = true) : s.Cached eng 0 va acc (at17 va) := by
  have hm : (cachedPage eng).mapped va = at17 va := by
    have h5 : 0x10000 + (va - 0x110000) = va - 0x100000 := by omega
    have h6 : 65536 - (va - 0x110000) = 0x120000 - va := by omega
    unfold Tlb.mapped at17 cachedPage
    simp only [h5, h6]
  have hp : (at17 va).pa < dramEnd := Nat.lt_of_lt_of_le (Nat.lt_of_le_of_lt (Nat.sub_le _ _) hu) (by decide)
  refine ⟨he, by simp [h2], by simp [h3], ⟨cachedPage eng, ?_, ha, (fun h => by cases h), rfl, hm.symm, ?_, ?_⟩,
    fun _ => ⟨?_, fun h => by cases h⟩, fun h3 => ⟨cachedPage 3, by rw [h1]; decide, ?_⟩⟩
  · rw [h1]
    have hr : rigTile.tlbs = [cachedPage 0, cachedPage 1, cachedPage 2, cachedPage 3, aheadPage, weightPage] := rfl
    have : eng = 0 ∨ eng = 1 ∨ eng = 2 ∨ eng = 3 := by omega
    rw [hr]
    rcases this with h | h | h | h <;> subst h <;> simp [List.find?, Tlb.hits, cachedPage, hl, hu]
  · unfold State.inWindow
    rw [if_pos hp]
  · unfold State.sealOk
    rw [if_pos hp, frame17 s h5 _ (by unfold at17; simp only; omega) (by unfold at17; simp only; omega)]
    rfl
  · unfold State.weightFrame
    rw [h4]
    rfl
  · have : va / 65536 = 17 := by omega
    rw [this]
    rfl

theorem plain17 (s : State) (h1 : s.poison = []) (h2 : s.frames = rig.frames) (pa : Nat) (hl : 0x10000 ≤ pa) (hu : pa < 0x20000) :
    s.PlainAt pa := fun _ => ⟨by simp [h1], by rw [frame17 s h2 pa hl hu]; decide⟩

/-- Every access of page 0x11_0000 goes through. -/
theorem reaches17 (s : State) (h1 : s.here.tlbs = rigTile.tlbs) (h2 : s.st.pageAnswers = []) (h3 : s.st.pageWaits = [])
    (h4 : s.parts = rig.parts) (h5 : s.poison = []) (h6 : s.frames = rig.frames) (h7 : s.st.place.slot = 0)
    (eng va : Nat) (acc : AccessKind) (he : eng ≤ 3) (hl : 0x110000 ≤ va) (hu : va < 0x120000)
    (ha : (cachedPage eng).permits 3 false acc = true) : s.Reaches eng va acc (at17 va) := by
  have hp : (at17 va).pa = va - 0x100000 := rfl
  refine ⟨?_, plain17 s h5 h6 _ ?_ ?_⟩
  · rw [h7]
    exact cached17 s h1 h2 h3 h4 h6 eng va acc he hl hu ha
  · rw [hp]
    omega
  · rw [hp]
    omega

/-- s1 = 0x11_0000, s2 = 256: an image of FP32; s3 = 0; s4 = 0: the format of a scratchpad word; stream register 0 holds a
unit. -/
def vecRig : State := alter (alter rig (regs [(1, 0x110000), (2, 256), (3, 0)])) fun t =>
  { t with
    streams := vput t.streams 0 ⟨true, true, 0, [[0x3F800000]], 0⟩
    rings := vput t.rings 2 ⟨64, 2, 0, 0, 1, 0, 1, []⟩ }

theorem units_none (t : Strand) : t.UnitsReady [1, 2] := by
  unfold Strand.UnitsReady
  have h : ([1, 2] : List Reg).filterMap streamNo = [] := by decide
  rw [h]
  exact ⟨List.nodup_nil, fun n hn => by cases hn⟩

theorem units_one : vecRig.st.UnitsReady [32, 2] := by
  unfold Strand.UnitsReady
  have h : ([32, 2] : List Reg).filterMap streamNo = [0] := by decide
  rw [h]
  refine ⟨by decide, fun n hn => ?_⟩
  rw [List.mem_singleton] at hn
  subst hn
  exact ⟨_, rfl⟩

theorem witness_vector_sources : Runs (.vAdd 3 1 2 false) noPrefixes vecRig ∧ vecRig.st.UnitsReady (noPrefixes.reads vecRig.st [1, 2]) ∧
    Runs (.vAdd 3 32 2 false) noPrefixes vecRig ∧ vecRig.st.UnitsReady (noPrefixes.reads vecRig.st [32, 2]) :=
  ⟨runs rfl, units_none _, runs rfl, units_one⟩

/-- Under a predicate that is all zero a word acts on no element. -/
theorem witness_no_element : Runs (.vLd 3 1 2 false) (prefixesOf [.xPm false false 1]) (fetched [.xPm false false 1] vecRig) ∧
    (∀ e, (prefixesOf [.xPm false false 1]).acts (fetched [.xPm false false 1] vecRig).st e = false) ∧
    (prefixesOf [.xPm false false 1]).zeroes = false := by
  refine ⟨runs rfl, fun e => ?_, rfl⟩
  have h : (fetched [.xPm false false 1] vecRig).st.pred 1 = 0 := rfl
  show (((fetched [.xPm false false 1] vecRig).st.pred 1).getLsbD e != false) = false
  rw [h]
  simp

theorem image17 (e : Nat) (h : e < 1024) : imageAt 0 (vecRig.st.reg 1) (vecRig.st.reg 2) e = 0x110000 + 4 * e := by
  have h1 : (vecRig.st.reg 1).toNat = 0x110000 := by decide
  have h2 : (vecRig.st.reg 2).toNat = 256 := by decide
  have h3 : (fmtOf 0).bytes = 4 := by decide
  unfold imageAt
  rw [h1, h2, h3]
  omega

theorem no_l1 (s : State) (h : s.here.l1 = []) (pa : Nat) : s.L1Agrees pa := fun d hd => by
  unfold State.l1Hit at hd
  rw [h] at hd
  cases hd

theorem witness_vector_load :
    Runs (.vLd 3 1 2 false) noPrefixes vecRig ∧ Runs (.vSt 3 1 2 false) noPrefixes vecRig ∧ ByteFormat 0 ∧
    ImageAligned 0 (vecRig.st.reg 1) (vecRig.st.reg 2) ∧ (∃ e, e < 1024 ∧ noPrefixes.acts vecRig.st e = true) ∧
    vecRig.st.UnitsReady [3] ∧
    ∀ e, e < 1024 → ∃ m, m.fmta = 0 ∧ vecRig.Reaches 1 (imageAt 0 (vecRig.st.reg 1) (vecRig.st.reg 2) e) .read m ∧
      vecRig.L1Agrees m.pa ∧ vecRig.Reaches 1 (imageAt 0 (vecRig.st.reg 1) (vecRig.st.reg 2) e) .write m := by
  refine ⟨runs rfl, runs rfl, by unfold ByteFormat; decide, by unfold ImageAligned; decide, ⟨0, by decide, rfl⟩,
    ⟨by decide, fun n hn => by cases hn⟩, fun e he => ⟨at17 (0x110000 + 4 * e), rfl, ?_, no_l1 _ rfl _, ?_⟩⟩ <;>
  · rw [image17 e he]
    exact reaches17 vecRig rfl rfl rfl rfl rfl rfl rfl 1 _ _ (by omega) (by omega) (by omega) rfl

theorem witness_vector_scratchpad :
    Runs (.vLds 5 3 2 false) noPrefixes vecRig ∧ Runs (.vSts 5 3 2 false) noPrefixes vecRig ∧
    descOk (noPrefixes.format vecRig.st) = true ∧ ByteFormat (noPrefixes.format vecRig.st) ∧
    ImageAligned (noPrefixes.format vecRig.st) (vecRig.st.reg 3) (vecRig.st.reg 2) ∧
    ∀ e, e < 1024 → imageAt (noPrefixes.format vecRig.st) (vecRig.st.reg 3) (vecRig.st.reg 2) e < vecRig.st.spadSize := by
  refine ⟨runs rfl, runs rfl, by decide, by unfold ByteFormat; decide, by unfold ImageAligned; decide, fun e he => ?_⟩
  have h1 : (vecRig.st.reg 3).toNat = 0 := by decide
  have h2 : (vecRig.st.reg 2).toNat = 256 := by decide
  have h3 : (fmtOf (noPrefixes.format vecRig.st)).bytes = 4 := by decide
  have h4 : vecRig.st.spadSize = 65536 := by decide
  unfold imageAt
  rw [h1, h2, h3, h4]
  omega

/-- Ring 2 has two slots of 4 KiB, the first of them filled; s3 = 0 names it, and 1 = TAIL the second. -/
theorem witness_vector_ring : let s := alter vecRig (regs [(4, 1)])
    Runs (.vLdh 5 2 3 true false) noPrefixes s ∧ Runs (.vSth 5 2 4 true false) noPrefixes s ∧
    s.st.SlotReady 2 (noPrefixes.format s.st) ∧ seqLe ((s.st.reg 3).setWidth 32 + 1) (s.st.ring 2).tail = true ∧
    seqLe ((s.st.reg 4).setWidth 32 + 1) ((s.st.ring 2).head + BitVec.ofNat 32 (s.st.ring 2).count) = true ∧
    ImageAligned 0 (s.st.slotAt 2 (s.st.reg 3)) (slotStride 0) ∧ ImageAligned 0 (s.st.slotAt 2 (s.st.reg 4)) (slotStride 0) ∧
    (s.st.slotAt 2 (s.st.reg 4)).toNat + 4096 ≤ s.st.spadSize := by
  refine ⟨runs rfl, runs rfl, by unfold Strand.SlotReady; decide, by decide, by decide, by unfold ImageAligned; decide,
    by unfold ImageAligned; decide, by decide⟩

theorem witness_stop : Runs (.vStop 1 3 1 false) noPrefixes vecRig ∧ (vecRig.st.reg 1).toNat % 64 = 0 ∧
    (∃ e, e < 1024 ∧ noPrefixes.acts vecRig.st e = true) ∧
    ∀ e, e < 1024 → ∃ m, vecRig.Reaches 1 (((vecRig.st.reg 1).toNat + 64 * e) % 2 ^ 64) .bankRead m ∧
      vecRig.Reaches 1 (((vecRig.st.reg 1).toNat + 64 * e) % 2 ^ 64) .bank m := by
  refine ⟨runs rfl, by decide, ⟨0, by decide, rfl⟩, fun e he => ⟨at17 (0x110000 + 64 * e), ?_⟩⟩
  have h1 : (vecRig.st.reg 1).toNat = 0x110000 := by decide
  rw [h1, Nat.mod_eq_of_lt (by omega)]
  constructor <;> exact reaches17 vecRig rfl rfl rfl rfl rfl rfl rfl 1 _ _ (by omega) (by omega) (by omega) rfl

theorem witness_nest : let s := alter vecRig fun t => { t with descs := vput t.descs 1 1 }
    Runs (.vLoop 1 2 false) noPrefixes s ∧ Runs (.mLoop 1 2 false) noPrefixes s ∧ Runs (.cLoop 1 2 false) noPrefixes s ∧
    descDims (s.st.desc 1) ≠ 0 := ⟨runs rfl, runs rfl, runs rfl, Nat.ne_of_beq_eq_false rfl⟩

theorem witness_floats : IsNan 0x7FC00001 ∧ ¬ IsNan 0x3F800000 ∧ IsInf (infE true) ∧ IsZero 0x80000000 ∧ IsFinite 0x3F800000 ∧
    IsFinite (add32 0 0 0x3F800000 0x40000000).1 ∧ IsFinite (mul32 0 0 0x3F800000 0x40000000).1 ∧
    IsFinite (groupSum [(.fin false 1 0, .fin true 3 2)]).1 := by
  unfold IsNan IsInf IsZero IsFinite
  decide

theorem test_add_one_two : add32 0 0 0x3F800000 0x40000000 = (0x40400000, 0) := by decide
theorem test_add_ties_to_even : add32 0 0 0x3F800000 0x33800000 = (0x3F800000, fINX) := by decide
theorem test_add_up : add32 2 0 0x3F800000 0x33800000 = (0x3F800001, fINX) := by decide
theorem test_opposite_infinities : add32 0 0 0x7F800000 0xFF800000 = (0x7FC00000, fINV) := by decide

/-! Images in packed and scaled formats. -/

/-- s5, s6 and s7 hold the descriptors of INT4, TRI5 and of FMT 4 in blocks of 16. -/
def packRig (r : Reg) : State := fetched [.xCap r 0 0] (alter vecRig (regs [(5, 9), (6, 10), (7, 0x14)]))
def packOf (r : Reg) : Prefixes := prefixesOf [.xCap r 0 0]

def packB (r : Reg) : Bool :=
  let s := packRig r
  let a := (packOf r).format s.st
  let f := fmtOf a
  descOk a && (List.range 1024).all fun e =>
    let q := spotOf a (s.st.reg 3) (s.st.reg 2) e
    (!f.scaled || (decide (q.1 % 65536 < f.dataBytes) && decide (scaleSpot a q < s.st.spadSize))) && decide (q.1 < s.st.spadSize) &&
      (!f.tri || decide ((s.st.spad.read q.1).toNat ≤ 242))

theorem packs {r : Reg} (h : packB r = true) (acts : Nat → Prop)
    (h2 : 2 ≤ (fmtOf ((packOf r).format (packRig r).st)).bytes → False) :
    ImageFits ((packOf r).format (packRig r).st) ((packRig r).st.reg 3) ((packRig r).st.reg 2) acts ∧
    (packRig r).st.HoldsImage ((packOf r).format (packRig r).st) ((packRig r).st.reg 3) ((packRig r).st.reg 2) acts := by
  simp only [packB, Bool.and_eq_true, List.all_eq_true, List.mem_range, Bool.or_eq_true, Bool.not_eq_true', decide_eq_true_eq] at h
  refine ⟨⟨h.1, fun h => (h2 h).elim, fun e he _ hs => ?_⟩, fun e he _ => ⟨(h.2 e he).1.2, fun hs => ?_, fun ht => ?_⟩⟩
  · exact ((h.2 e he).1.1.resolve_left fun h => by rw [hs] at h; cases h).1
  · exact ((h.2 e he).1.1.resolve_left fun h => by rw [hs] at h; cases h).2
  · exact (h.2 e he).2.resolve_left fun h => by rw [ht] at h; cases h

theorem packs_all (acts : Nat → Prop) : ∀ r ∈ ([5, 6, 7] : List Reg),
    ImageFits ((packOf r).format (packRig r).st) ((packRig r).st.reg 3) ((packRig r).st.reg 2) acts ∧
    (packRig r).st.HoldsImage ((packOf r).format (packRig r).st) ((packRig r).st.reg 3) ((packRig r).st.reg 2) acts := by
  intro r hr
  simp only [List.mem_cons, List.not_mem_nil, or_false] at hr
  rcases hr with h | h | h <;> subst h <;> exact packs (by decide +kernel) acts (by decide)

/-- Scratchpad words in each of the three formats. -/
theorem witness_packed : (∀ r ∈ ([5, 6, 7] : List Reg),
      ImageFits ((packOf r).format (packRig r).st) ((packRig r).st.reg 3) ((packRig r).st.reg 2) (fun _ => True) ∧
      (packRig r).st.HoldsImage ((packOf r).format (packRig r).st) ((packRig r).st.reg 3) ((packRig r).st.reg 2) fun _ => True) ∧
    (Runs (.vLds 5 3 2 false) (packOf 5) (packRig 5) ∧ Runs (.vSts 5 3 2 false) (packOf 5) (packRig 5) ∧ (packRig 5).st.spadSize < 2 ^ 64) ∧
    (Runs (.vLds 5 3 2 false) (packOf 6) (packRig 6) ∧ Runs (.vSts 5 3 2 false) (packOf 6) (packRig 6)) ∧
    (Runs (.vLds 5 3 2 false) (packOf 7) (packRig 7) ∧ Runs (.vSts 5 3 2 false) (packOf 7) (packRig 7)) ∧
    (packRig 7).st.UnitsReady ((packOf 7).reads (packRig 7).st [5]) ∧
    ((fmtOf ((packOf 5).format (packRig 5).st)).bitsPer = 4 ∧ (fmtOf ((packOf 6).format (packRig 6).st)).tri = true ∧
      (fmtOf ((packOf 7).format (packRig 7).st)).scaled = true) ∧
    RowsOnBlocks ((packOf 7).format (packRig 7).st) ((packRig 7).st.reg 3) ((packRig 7).st.reg 2) := by
  refine ⟨packs_all _, ⟨runs rfl, runs rfl, by decide⟩, ⟨runs rfl, runs rfl⟩, ⟨runs rfl, runs rfl⟩, ?_, by decide, ?_⟩
  · unfold Strand.UnitsReady
    have h : ((packOf 7).reads (packRig 7).st [5]).filterMap streamNo = [] := by decide
    rw [h]
    exact ⟨List.nodup_nil, fun n hn => by cases hn⟩
  · unfold RowsOnBlocks
    decide +kernel

/-- The vector engine's cache holds page 0x11_0000 in FMT 4 and blocks of 16. -/
def scaledPage : Tlb := { cachedPage 1 with fmta := 0x14 }
def scaledRig : State := { vecRig with tiles := [(0, { rigTile with tlbs := [scaledPage] })] }
def atScaled (va : Nat) : Mapped := { at17 va with fmta := 0x14 }

theorem reachesScaled (va : Nat) (acc : AccessKind) (hl : 0x110000 ≤ va) (hu : va < 0x120000)
    (ha : scaledPage.permits 3 false acc = true) : scaledRig.Reaches 1 va acc (atScaled va) := by
  have hm : scaledPage.mapped va = atScaled va := by
    have h5 : 0x10000 + (va - 0x110000) = va - 0x100000 := by omega
    have h6 : 65536 - (va - 0x110000) = 0x120000 - va := by omega
    unfold Tlb.mapped atScaled at17 scaledPage cachedPage
    simp only [h5, h6]
  have hp : (atScaled va).pa < dramEnd := Nat.lt_of_lt_of_le (Nat.lt_of_le_of_lt (Nat.sub_le _ _) hu) (by decide)
  have hpa : (atScaled va).pa = va - 0x100000 := rfl
  refine ⟨⟨by decide, (fun _ h => by cases h), (fun _ h => by cases h), ⟨scaledPage, ?_, ha, (fun h => by cases h), rfl, hm.symm, ?_, ?_⟩,
    fun _ => ⟨rfl, fun h => by cases h⟩, fun h => by cases h⟩, plain17 scaledRig rfl rfl _ (by omega) (by omega)⟩
  · have hr : scaledRig.here.tlbs = [scaledPage] := rfl
    have hs : scaledRig.st.place.slot = 0 := rfl
    rw [hr, hs]
    simp [List.find?, Tlb.hits, scaledPage, cachedPage, hl, hu]
  · unfold State.inWindow
    rw [if_pos hp]
  · unfold State.sealOk
    rw [if_pos hp, frame17 scaledRig rfl _ (by omega) (by omega)]
    rfl

theorem scaled_spots : (List.range 1024).all (fun e =>
    let q := spotOf 0x14 (scaledRig.st.reg 1) (scaledRig.st.reg 2) e
    decide (0x110000 ≤ q.1 ∧ q.1 < 0x120000 ∧ q.1 % 65536 < (fmtOf 0x14).dataBytes) &&
      decide (0x110000 ≤ scaleSpot 0x14 q ∧ scaleSpot 0x14 q < 0x120000)) = true := by decide +kernel

theorem witness_scaled_memory : Runs (.vLd 3 1 2 false) noPrefixes scaledRig ∧ Runs (.vSt 3 1 2 false) noPrefixes scaledRig ∧
    ImageFits 0x14 (scaledRig.st.reg 1) (scaledRig.st.reg 2) (fun _ => True) ∧ (fmtOf 0x14).bytes = 1 ∧ (fmtOf 0x14).scaled = true ∧
    RowsOnBlocks 0x14 (scaledRig.st.reg 1) (scaledRig.st.reg 2) ∧ (∃ e, e < 1024 ∧ noPrefixes.acts scaledRig.st e = true) ∧
    scaledRig.st.UnitsReady [3] ∧
    (∀ acc ∈ [AccessKind.read, AccessKind.write], ∀ e, e < 1024 →
      let q := spotOf 0x14 (scaledRig.st.reg 1) (scaledRig.st.reg 2) e
      scaledRig.Reaches 1 q.1 acc (atScaled q.1) ∧ scaledRig.L1Agrees (atScaled q.1).pa ∧
        scaledRig.Reaches 1 (scaleSpot 0x14 q) acc (atScaled (scaleSpot 0x14 q)) ∧ scaledRig.L1Agrees (atScaled (scaleSpot 0x14 q)).pa) := by
  have h := scaled_spots
  simp only [List.all_eq_true, List.mem_range, Bool.and_eq_true, decide_eq_true_eq] at h
  refine ⟨runs rfl, runs rfl, ⟨by decide, fun h => absurd h (by decide), fun e he _ _ => (h e he).1.2.2⟩, by decide, by decide,
    by unfold RowsOnBlocks; decide +kernel, ⟨0, by decide, rfl⟩, ⟨by decide, fun n hn => by cases hn⟩, fun acc ha e he => ?_⟩
  obtain ⟨⟨h1, h2, -⟩, h3, h4⟩ := h e he
  have hp : scaledPage.permits 3 false acc = true := by
    simp only [List.mem_cons, List.not_mem_nil, or_false] at ha
    rcases ha with h | h <;> subst h <;> rfl
  exact ⟨reachesScaled _ acc h1 h2 hp, no_l1 _ rfl _, reachesScaled _ acc h3 h4 hp, no_l1 _ rfl _⟩
/-! ## The premises of the statements of matrix words -/

/-- s1 = 0 and s2 = 512, places in the scratchpad; s3 a range of 256 rows; s4 a load word (format 4, 16 rows of weights, one
column, slot 0); s5 a shape word of one row and s6 an epilogue word of one element, to the scratchpad; s7 = 0x11_0000. Bank 0
holds 16 rows of weights in format 4. -/
def matRig : State :=
  let s := alter rig (regs [(1, 0), (2, 512), (3, 256), (4, BitVec.ofNat 64 (4 * 2 ^ 34 + 16 * 2 ^ 17 + 2 ^ 10)),
    (5, BitVec.ofNat 64 (4 * 2 ^ 44 + 16 * 2 ^ 27 + 1)), (6, BitVec.ofNat 64 (2 ^ 51 + 2 ^ 22 + 1)), (7, 0x110000), (10, 1)])
  { alter s fun t => { t with mat := { t.mat with loads := [⟨0, 0, false⟩] } } with
    bolts := [(0, ⟨[(0, ⟨4, Array.replicate 8192 (0, 127), []⟩)], 0⟩)] }

theorem witness_accumulators : Runs (.mSwap 2 false) noPrefixes matRig ∧ Runs (.mZero 1 3 false) noPrefixes matRig ∧
    Runs (.mRdz 1 1 3 false) noPrefixes matRig ∧ Runs (.mWrz 1 1 3 false) noPrefixes matRig ∧ 1 < matRig.st.mat.accs.length ∧
    rangeOf (matRig.st.reg 3) = some (0, 256) ∧ (matRig.st.reg 1).toNat + 256 * 256 = matRig.st.spadSize ∧
    (matRig.st.reg 1).toNat % 4 = 0 :=
  ⟨runs rfl, runs rfl, runs rfl, runs rfl, by decide, by decide, by decide, by decide⟩

theorem witness_checkpoint : Runs (.mCkpt 0 1 15 15 false) noPrefixes matRig ∧ Runs (.mRest 0 1 15 15 false) noPrefixes matRig ∧
    ∃ a, (alter matRig fun t => t.setCkv 1 15).st.mat.accs[1]? = some a ∧ a.ckv.getLsbD 15 = true :=
  ⟨runs rfl, runs rfl, _, rfl, by decide⟩

theorem witness_bank_record : Runs (.mRdv 2 true false) noPrefixes matRig ∧ Runs (.mWid 2 7 false) noPrefixes matRig ∧
    (matRig.st.reg 2).toNat % 32 = 0 ∧ (matRig.st.reg 2).toNat + 32 ≤ matRig.st.spadSize ∧ matRig.st.spadSize < 2 ^ 64 ∧
    matRig.Reaches 2 (matRig.st.reg 7).toNat .read (at17 0x110000) :=
  ⟨runs rfl, runs rfl, by decide, by decide, by decide, reaches rfl⟩

theorem witness_load_word : Runs (.mLdw 2 1 4 4 false) noPrefixes matRig ∧ Runs (.mLdw 2 1 4 5 false) noPrefixes matRig ∧
    loadWordOf (matRig.st.reg 4) true = some (4, 16, 1, 0) ∧ descOk 4 = true ∧ ByteFormat 4 ∧ weightTile (fmtOf 4) = some (128, 1) ∧
    slotCount (fmtOf 4) 16 ≤ 768 ∧ matRig.rowsInFlight 0 matRig.st.steered false = false ∧ ImageAligned 4 (matRig.st.reg 2) (matRig.st.reg 1) ∧
    ∀ col i, col < 1 → i < 16 → elemAt 4 (matRig.st.reg 2) (matRig.st.reg 1).toNat col i < matRig.st.spadSize := by
  refine ⟨runs rfl, runs rfl, by decide, by decide, by unfold ByteFormat; decide, by decide, by decide,
    by decide, by unfold ImageAligned; decide, fun col i h1 h2 => ?_⟩
  have h3 : (matRig.st.reg 2).toNat = 512 := by decide
  have h4 : (matRig.st.reg 1).toNat = 0 := by decide
  have h5 : (fmtOf 4).bytes = 1 := by decide
  have h6 : matRig.st.spadSize = 65536 := by decide
  unfold elemAt
  rw [h3, h4, h5, h6]
  omega

theorem pass_ready : matRig.PassReady 1 (matRig.st.reg 2) (shapeOf (matRig.st.reg 5)) 4 := by
  refine ⟨by decide, by decide, ⟨_, rfl, rfl⟩, rfl, by decide, by unfold ByteFormat; decide, by decide, fun r hr => ?_⟩
  have h1 : (shapeOf (matRig.st.reg 5)).nr = 1 := by decide
  have : r = 0 := by omega
  subst this
  decide

theorem epi_ready (z : Nat) (hz : z < 2) : matRig.EpiReady z (matRig.st.reg 2) (epiOf (matRig.st.reg 6)) := by
  refine ⟨hz, by decide, by decide, by decide, by decide, by unfold ByteFormat; decide, by decide, by decide, fun r c hr hc => ?_⟩
  have h1 : (epiOf (matRig.st.reg 6)).nr = 1 := by decide
  have h2 : (epiOf (matRig.st.reg 6)).ncol = 1 := by decide
  have : r = 0 := by omega
  have : c = 0 := by omega
  subst r c
  decide

theorem witness_passes : Runs (.mMma 1 2 5 false) noPrefixes matRig ∧
    matRig.PassReady 1 (matRig.st.reg 2) (shapeOf (matRig.st.reg 5)) 4 ∧ Runs (.mEpi 2 1 6 false) noPrefixes matRig ∧
    matRig.EpiReady 1 (matRig.st.reg 2) (epiOf (matRig.st.reg 6)) ∧ extValue matRig.st noPrefixes 2 = 0 :=
  ⟨runs rfl, pass_ready, runs rfl, epi_ready 1 (by decide), rfl⟩

theorem witness_ganged_pass :
    let p := prefixesOf [.xCap 6 2 10]
    let s := fetched [.xCap 6 2 10] matRig
    Runs (.mMmaG 1 2 5 false) p s ∧ extValue s.st p 0 = matRig.st.reg 6 ∧ extValue s.st p 1 = matRig.st.reg 2 ∧
    extValue s.st p 2 = 1 ∧ (epiOf (extValue s.st p 0)).scale = false ∧ s.st.place.member = 0 ∧ 1 ≤ s.st.place.size :=
  ⟨runs rfl, rfl, rfl, rfl, by decide, rfl, by decide⟩

/-- A ring of 16 units at 0x11_0000, with one record of one row in its first two units, for the region of identity 77, which is
frame 0. -/
def taskRig : State :=
  let s := alter rig (regs [(1, 0x110000), (2, 2), (3, 0)])
  { s with
    mem := ((((((s.mem.writeNat 0x10000 8 0x110400).writeNat 0x10008 8 16).writeNat 0x10408 8 77).writeNat 0x10418 8
      0x140000).writeNat 0x10430 8 256).writeNat 0x10440 8 0x1000).writeNat 0x10448 8 0x2000
    parts := assocPut s.parts 0 { s.part 0 with
      weights := [(3, ⟨77, true, 2, 0, 0, 1, 16, 1, 4, 1⟩)]
      shapes := [(0, 2 ^ 44 + 2 ^ 33 + 16 * 2 ^ 16 + 4 * 2 ^ 8 + 4)] } }

theorem witness_submit : Runs (.mTsub 1 2 false) noPrefixes taskRig ∧ (taskRig.st.reg 1).toNat = 0x110000 ∧
    (taskRig.st.reg 2).toNat % 2 ^ 32 = 2 ∧ ∃ k u, taskRig.Submits 0x110000 2 k u := by
  refine ⟨runs rfl, by decide, by decide, _, _, at17 0x110000, at17 0x110010, at17 0x110010, ⟨0, 0, false, 0, 4, 65536⟩,
    fun i => at17 (0x110400 + 64 * i), by decide, reaches rfl, by decide, by decide, reaches rfl, reaches rfl, rfl, fun i hi => ?_,
    by decide, by decide, by decide, by decide, reaches rfl, rfl, rfl⟩
  have : i = 0 ∨ i = 1 := by omega
  rcases this with h | h <;> subst h <;> exact reaches rfl

theorem witness_tasks : Runs (.mTqry 3 1 false) noPrefixes taskRig ∧ Runs (.mTcan 1 2 true false) noPrefixes taskRig ∧
    (taskRig.st.reg 3).toNat % 16 = 0 ∧ (taskRig.st.reg 1).toNat % 64 = 0 ∧
    taskRig.Reaches 2 (taskRig.st.reg 1).toNat .bankRead (at17 0x110000) ∧
    (ringDescOf (taskRig.peekNat taskRig.st.who 0x10000 64)).legal = true :=
  ⟨runs rfl, runs rfl, by decide, by decide, reaches rfl, by decide⟩
/-! ## The premises of the statements of copy words -/

/-- The parts of a run of bytes lie in it. -/
theorem pieces_within (k : Nat) : ∀ (a n : Nat) q, a + n ≤ 2 ^ 64 → q ∈ pieces k a n → a ≤ q.1 ∧ q.1 < a + n := by
  induction k with
  | zero => intro a n q _ h; cases h
  | succ k ih =>
    intro a n q hb h
    unfold pieces at h
    split at h
    · cases h
    · rcases List.mem_cons.mp h with h | h
      · subst h
        simp only
        omega
      · have := ih _ _ q (by omega) h
        omega

theorem side17 (s : State) (h1 : s.here.tlbs = rigTile.tlbs) (h2 : s.st.pageAnswers = []) (h3 : s.st.pageWaits = [])
    (h4 : s.parts = rig.parts) (h5 : s.poison = []) (h6 : s.frames = rig.frames) (h7 : s.st.place.slot = 0)
    (write : Bool) (a n : Nat) (hl : 0x110000 ≤ a) (hu : a + n ≤ 0x120000) : s.SideReady .mem write a n at17 := by
  refine ⟨by omega, fun q hq => ?_⟩
  have hb := pieces_within _ _ _ q (by omega) hq
  have h := fun acc hp => reaches17 s h1 h2 h3 h4 h5 h6 h7 3 q.1 acc (by omega) (by omega) (by omega) hp
  refine ⟨?_, fun _ => (h .read rfl).2⟩
  cases write
  · exact (h .read rfl).1
  · exact (h .write rfl).1

theorem sideSpad {s : State} {write : Bool} {a n : Nat} {m : Nat → Mapped} (h1 : a < 2 ^ 64) (h2 : a + n ≤ s.st.spadSize) :
    s.SideReady .spad write a n m := ⟨h1, h2⟩

/-- s1 = 0x11_0000, s2 = 0x11_1000, s3 = 130 bytes, s4 = 0 and s5 = 4,096, places in the scratchpad; s6 a completion word of
an arrival at barrier 1, s7 one that advances ring 2; ring 2 has two slots of 4 KiB, the first of them filled; d1 is a nest of
2 iterations. -/
def copyRig : State :=
  alter (alter rig (regs [(1, 0x110000), (2, 0x111000), (3, 130), (4, 0), (5, 4096), (6, BitVec.ofNat 64 (2 ^ 17 + 2 ^ 12)),
    (7, BitVec.ofNat 64 (2 * 2 ^ 20 + 2 ^ 19)), (8, 1), (9, 0), (10, BitVec.ofNat 64 (16 + 1)), (11, 64), (12, 2)])) fun t =>
  { (t.setBar 1 { t.bar 1 with expect := 1, mask := 1 }) with
    rings := vput t.rings 2 ⟨64, 2, 0, 0, 1, 0, 2, []⟩
    descs := vput t.descs 1 (BitVec.ofNat 512 (1 + 2 ^ 104 * 2 + 2 ^ 64 * 256)) }

/-- A copy of 130 bytes from memory to memory, with an arrival; and a route that stays in the scratchpad. -/
theorem witness_copy :
    let s := fetched [.xCap 6 0 0] copyRig
    let p := prefixesOf [.xCap 6 0 0]
    Runs (.cCp 1 2 3 0 false) p s ∧
    s.UnitsReady .mem .mem (linear 0x110000 0x111000 130) at17 3 ∧
    (let w := completionOf (extValue s.st p 0)
     w.land = false ∧ w.arr = true ∧ (s.st.bar w.g).expect ≠ 0 ∧ ∃ q, (s.st.bar w.g).engineArrive = some q) ∧
    Runs (.cCp 5 4 3 3 false) noPrefixes copyRig ∧
    ∀ k m, k < 3 → copyRig.SideReady .spad true (linear 4096 0 130 k).1 (linear 4096 0 130 k).2.2 m := by
  have hs := side17 (fetched [.xCap 6 0 0] copyRig) rfl rfl rfl rfl rfl rfl rfl
  refine ⟨runs rfl, fun k hk => ⟨hs true _ _ ?_ ?_, hs false _ _ ?_ ?_⟩,
    ⟨by decide, by decide, by decide, _, rfl⟩, runs rfl, fun k m hk => ?_⟩
  iterate 4
    · simp only [linear]
      omega
  · have h6 : copyRig.st.spadSize = 65536 := by decide
    refine ⟨by simp only [linear]; omega, ?_⟩
    show (linear 4096 0 130 k).1 + (linear 4096 0 130 k).2.2 ≤ copyRig.st.spadSize
    rw [h6]
    simp only [linear]
    omega

/-- A route into the second slot of ring 2, which advances TAIL; and one out of its first. -/
theorem witness_copy_ring :
    let s := fetched [.xCap 7 0 0] copyRig
    let p := prefixesOf [.xCap 7 0 0]
    let w := completionOf (extValue s.st p 0)
    let r := s.st.ring w.h
    Runs (.cCp 8 1 3 4 false) p s ∧ Runs (.cCp 2 9 3 5 false) p s ∧ r.count = 2 ∧ 130 ≤ r.slot * 64 ∧ w.land = false ∧
    w.arr = false ∧ w.adv = true ∧ (∃ q, r.advanceTail 1 = .done q) ∧
    seqLe ((s.st.reg 8).setWidth 32 + 1) (r.head + BitVec.ofNat 32 r.count) = true ∧
    seqLe ((s.st.reg 9).setWidth 32 + 1) r.tail = true ∧
    r.slotOffset ((s.st.reg 8).setWidth 32) + 130 ≤ s.st.spadSize := by
  refine ⟨runs rfl, runs rfl, rfl, by decide, rfl, rfl, rfl, ⟨_, rfl⟩, by decide, by decide, by decide⟩

/-- `c.cpd` over d1 twice: two iterations of 64 bytes, 256 apart, from scratchpad to scratchpad. -/
theorem witness_copy_nest :
    let s := fetched [.xCap 10 0 0] copyRig
    let p := prefixesOf [.xCap 10 0 0]
    let dd := s.st.desc ((extValue s.st p 0).toNat % 8)
    Runs (.cCpd 5 4 11 3 false) p s ∧ extValue s.st p 1 = 0 ∧ descDims dd = 1 ∧ descCount dd = 2 ∧
    dd = s.st.desc ((extValue s.st p 0).toNat / 16 % 8) ∧
    ∀ k m, k < 2 → s.SideReady .spad true ((s.st.reg 5) + wordOfInt (nestSum dd (nestIndices dd k) 0)).toNat 64 m := by
  refine ⟨runs rfl, rfl, rfl, rfl, rfl, fun k m hk => ?_⟩
  have : k = 0 ∨ k = 1 := by omega
  rcases this with h | h <;> subst h <;> exact sideSpad (by decide) (by decide)

theorem witness_fill : Runs (.cFill 1 3 511 false) noPrefixes copyRig ∧ Runs (.cFill 1 3 255 false) noPrefixes copyRig ∧
    extValue copyRig.st noPrefixes 0 = 0 ∧
    ∀ k, k < 3 → copyRig.SideReady .mem true (0x110000 + 64 * k) (min 64 (130 - 64 * k)) at17 :=
  ⟨runs rfl, runs rfl, rfl, fun k _ => side17 copyRig rfl rfl rfl rfl rfl rfl rfl true _ _ (by omega) (by omega)⟩

/-- Two elements of 4 bytes by the indices at the start of the scratchpad, which are 0: s8 = 1 makes the count's low bits, s12 = 2. -/
theorem witness_gather :
    let s := fetched [.xCap 12 0 0] copyRig
    let p := prefixesOf [.xCap 12 0 0]
    Runs (.cGath 5 1 4 0 false) p s ∧ Runs (.cScat 1 5 4 0 false) p s ∧ extValue s.st p 1 = 0 ∧ (extValue s.st p 0).toNat = 2 ∧
    Apart 4096 (4096 + 8) 0 8 ∧ (∀ k, k < 2 → sextNat (s.st.spad.readNat (4 * k) 4) 32 = 0) ∧
    (∃ m, s.SideReady .mem false 0x110000 4 m) ∧ (∃ m, s.SideReady .mem true 0x110000 4 m) ∧ s.st.spadSize < 2 ^ 64 ∧
    ∀ k m, k < 2 → s.SideReady .spad true (4096 + k * 4) 4 m := by
  have hs := side17 (fetched [.xCap 12 0 0] copyRig) rfl rfl rfl rfl rfl rfl rfl
  refine ⟨runs rfl, runs rfl, rfl, by decide, Or.inr (by decide), by decide,
    ⟨_, hs false _ _ (by omega) (by omega)⟩,
    ⟨_, hs true _ _ (by omega) (by omega)⟩, by decide, fun k m hk => ?_⟩
  have : k = 0 ∨ k = 1 := by omega
  rcases this with h | h <;> subst h <;> exact sideSpad (by decide) (by decide)

/-- Two FP32 elements at 0 become two of format 2 at 4,096. -/
theorem witness_convert :
    let s := alter (fetched [.xCap 12 0 0] copyRig) (regs [(12, 0x200), (13, 2)])
    let p := prefixesOf [.xCap 12 0 0]
    Runs (.cCvt 5 4 13 3 false) p s ∧ extValue s.st p 1 = 0 ∧ (extValue s.st p 0).toNat % 256 = 0 ∧
    (extValue s.st p 0).toNat / 256 % 256 = 2 ∧ descOk 0 = true ∧ descOk 2 = true ∧ ByteFormat 0 ∧ ByteFormat 2 ∧
    4096 + 2 * (fmtOf 2).bytes ≤ s.st.spadSize ∧ Apart 4096 (4096 + 2 * (fmtOf 2).bytes) 0 (2 * (fmtOf 0).bytes) :=
  ⟨runs rfl, rfl, by decide, by decide, by decide, by decide, by unfold ByteFormat; decide, by unfold ByteFormat; decide,
    by decide, Or.inr (by decide)⟩
/-! ## The premises of the statements of bank words -/

/-- Memory and what stands beside it, and what tiles cache, are as they were. -/
def sameMemory (s t : State) : Bool :=
  t.tiles == s.tiles && t.mem == s.mem && t.narrow == s.narrow && t.poison == s.poison && t.badLines == s.badLines &&
    t.flakyLines == s.flakyLines && t.bankWaits == s.bankWaits && t.lineCtrs == s.lineCtrs && t.nodeCtrs == s.nodeCtrs &&
    t.treeRoots == s.treeRoots && t.fns == s.fns && t.parts == s.parts && t.spoiled == s.spoiled

theorem same_of {s t : State} (h : sameMemory s t = true) (ha : s.Accessed t) : t = s := by
  unfold State.Accessed State.OnlyMemory at ha
  simp only [sameMemory, Bool.and_eq_true, beq_iff_eq] at h
  obtain ⟨⟨⟨⟨⟨⟨⟨⟨⟨⟨⟨⟨h1, h2⟩, h3⟩, h4⟩, h5⟩, h6⟩, h7⟩, h8⟩, h9⟩, h10⟩, h11⟩, h12⟩, h13⟩ := h
  rw [h1, h2, h3, h4, h5, h6, h7, h8, h9, h10, h11, h12, h13] at ha
  exact ha

theorem mapped {s : State} {eng slot va : Nat} {acc : AccessKind} {m : Mapped}
    (h : okB (mapAccess eng slot va acc s) (fun n t => n == m && sameMemory s t) = true) : mapAccess eng slot va acc s = .ok m s := by
  obtain ⟨n, t, ht, hp⟩ := of_okB h
  simp only [Bool.and_eq_true, beq_iff_eq] at hp
  rw [ht, hp.1, same_of hp.2 (mapAccess_accesses _ _ _ _ _ _ _ ht)]

theorem maps {s : State} {eng va : Nat} {acc : AccessKind} {m : Mapped}
    (h : okB (mapAccess eng s.st.place.slot va acc s) (fun n t => n == m && sameMemory s t) = true)
    (hp : s.poison.contains (m.pa / 64) = false ∧ (s.frameAt m.pa).sealMode ≠ 2) : s.Maps eng va acc m := ⟨mapped h, fun _ => hp⟩

/-- s1 = 0x11_0000, s2 = 5, s3 = 64 in the scratchpad, s4 = 1 element, s5 = 0x12_0000, s6 = 9, a version's number. -/
def bankRig : State := alter rig (regs [(1, 0x110000), (2, 5), (3, 64), (4, 1), (5, 0x120000), (6, 9), (7, 8), (8, 0)])

theorem witness_atomic : Runs (.bAdd 1 2 3 true true false) noPrefixes bankRig ∧ Runs (.bXor 1 2 0 false false false) noPrefixes bankRig ∧
    bankClose noPrefixes bankRig = .ok () bankRig ∧ bankRig.Maps 4 0x110000 .bankRead (at17 0x110000) ∧
    bankRig.Maps 4 0x110000 .bank (at17 0x110000) ∧ (at17 0x110000).pa < hostBase ∧
    ((bankRig.st.reg 3).toNat % 8 = 0 ∧ (bankRig.st.reg 3).toNat + 8 ≤ bankRig.st.spadSize) ∧
    quietWord (extValue bankRig.st noPrefixes 0) :=
  ⟨runs rfl, runs rfl, rfl, maps rfl (by decide), maps rfl (by decide), by decide, by decide, by unfold quietWord; decide⟩

/-- An atomic that closes and opens by its `x.ord`. -/
theorem witness_ordered_atomic :
    let s := fetched [.xOrd 3 4] bankRig
    let p := prefixesOf [.xOrd 3 4]
    Runs (.bAdd 1 2 3 true true false) p s ∧ p.acquires = true ∧ bankClose p s = .ok () (s.close 4) ∧
    (s.close 4).Maps 4 0x110000 .bankRead (at17 0x110000) ∧ (s.close 4).Maps 4 0x110000 .bank (at17 0x110000) :=
  ⟨runs rfl, by decide, rfl, maps rfl (by decide), maps rfl (by decide)⟩

/-- Memory holds 0: a comparison with 0 succeeds, with 5 fails; and a wait for 0 is met. -/
theorem witness_compare : Runs (.bCas 1 8 2 true true false) noPrefixes bankRig ∧ Runs (.bCas 1 2 8 false false false) noPrefixes bankRig ∧
    bankRig.mem.readNat 0x10000 8 = (bankRig.st.reg 8).toNat ∧ bankRig.mem.readNat 0x10000 4 ≠ (bankRig.st.reg 2).toNat ∧
    Runs (.bWait 1 8 0 0 true false) noPrefixes bankRig ∧ bankRig.bankWaits = [] :=
  ⟨runs rfl, runs rfl, by decide, by decide, runs rfl, rfl⟩

/-- An update of one element. -/
theorem witness_elements : Runs (.bFadd 1 3 4 false) noPrefixes bankRig ∧ Runs (.bScal 1 2 4 true false) noPrefixes bankRig ∧
    (bankRig.st.reg 4).toNat % 2 ^ 16 = 1 ∧ (bankRig.st.reg 1).toNat % 4 = 0 ∧
    (bankRig.st.reg 3).toNat % 4 = 0 ∧ (bankRig.st.reg 3).toNat + 4 ≤ bankRig.st.spadSize ∧
    (∃ m, bankRig.Maps 4 0x110000 .bankRead m ∧ bankRig.Maps 4 0x110000 .bank m ∧ m.pa < hostBase) ∧
    (let p := prefixesOf [.xCap 8 0 0]; Runs (.bAxpy 1 3 4 false false) p (fetched [.xCap 8 0 0] bankRig)) :=
  ⟨runs rfl, runs rfl, by decide, by decide, by decide, by decide, ⟨at17 0x110000, maps rfl (by decide), maps rfl (by decide),
    by decide⟩, runs rfl⟩

/-- Page 0x12_0000 is a region of base 3, floor 5 and quota 4, with version 7 of granule 0 Live. -/
def region : VRegion :=
  { ctx := 0, fn := 0, part := 0, recVa := 0x110000, base := 0x120000, pages := 1, ovf := 0x140000, quota := 4, floor := 5
    base0 := 3, bases := [], vers := [⟨0, 7, 6, none⟩], frames := [⟨3, none, true⟩], ovfFrames := [⟨0, none, true⟩, ⟨8, none, true⟩] }
def versRig : State := { bankRig with regions := [region] }

theorem granule {s : State} (acc : AccessKind)
    (h : okB (mapAccess 4 s.st.place.slot 0x120000 acc s) (fun n t => n == at18 0x120000 && sameMemory s t) = true)
    (hr : s.regionOf s.st.place.slot 0x120000 = some region) (hs : s.spoiled = []) : s.GranuleAt 0x120000 acc region 0 :=
  ⟨at18 0x120000, 0, mapped h, by decide, hr, rfl, rfl, by rw [hs]; rfl⟩

theorem witness_version_store : Runs (.bVst 5 3 6 false) noPrefixes versRig ∧ (extValue versRig.st noPrefixes 0).toNat % 2 ^ 10 = 0 ∧
    versRig.GranuleAt 0x120000 .vcheck region 0 ∧
    versRig.GranuleAt 0x120000 .vstore region 0 ∧ region.newest 0 < 9 ∧ region.floor ≤ 9 ∧ region.count ≠ region.quota ∧
    quietWord (extValue versRig.st noPrefixes 1) ∧ (versRig.st.reg 3).toNat + 64 ≤ versRig.st.spadSize :=
  ⟨runs rfl, by decide, granule _ rfl rfl rfl, granule _ rfl rfl rfl, by decide, by decide, by decide, by unfold quietWord; decide,
    by decide⟩

/-- A load of version 9 or below finds version 7; a load of version 7 finds it too. -/
theorem witness_version_load :
    let s := alter versRig (regs [(7, 7)])
    Runs (.bVldLe 3 5 6 true false) noPrefixes s ∧ Runs (.bVld 3 5 7 false false) noPrefixes s ∧ s.versWaits = [] ∧
    s.expireVersions.GranuleAt 0x120000 .vload region 0 ∧
    s.expireVersions.lookVersion region 0 9 true = some (.data 6 7) ∧ s.expireVersions.lookVersion region 0 7 false = some (.data 6 7) ∧
    s.PlainAt (region.granPa 0) ∧ (s.st.reg 3).toNat + 72 ≤ s.st.spadSize :=
  ⟨runs rfl, runs rfl, rfl, granule _ rfl rfl rfl, by decide, by decide, by unfold State.PlainAt; decide, by decide⟩

/-- A number below the base, between base and floor, the base where it is not below the floor, Live, skipped, Unborn; and for a
load of that number or below, the base and a Live version. -/
theorem witness_version_places :
    2 < region.baseOf 0 ∧ (region.baseOf 0 ≤ 4 ∧ 4 < region.floor) ∧
    (let r := { region with floor := 3 }; r.floor ≤ 3 ∧ 3 = r.baseOf 0) ∧
    (region.floor ≤ 7 ∧ region.baseOf 0 < 7 ∧ (region.live 0).find? (fun u => u.num == 7) = some ⟨0, 7, 6, none⟩) ∧
    (region.floor ≤ 6 ∧ (∀ u ∈ region.live 0, u.num ≠ 6) ∧ 6 < region.newest 0) ∧
    (region.floor ≤ 8 ∧ (∀ u ∈ region.live 0, u.num ≠ 8) ∧ ¬ 8 < region.newest 0) ∧
    (region.baseOf 0 ≤ 5 ∧ ∀ u ∈ region.live 0, 5 < u.num) ∧ (∃ u ∈ region.live 0, u.num ≤ 7) := by decide

theorem witness_version_words : Runs (.bVretire 5 6 false) noPrefixes versRig ∧ Runs (.bVnew 3 5 false) noPrefixes versRig ∧
    Runs (.bVfloor 3 5 false) noPrefixes versRig ∧ versRig.GranuleAt 0x120000 .vcheck region 0 ∧
    versRig.GranuleAt 0x120000 .vload region 0 ∧ region.floor < 9 ∧ (versRig.st.reg 3).toNat % 8 = 0 ∧
    (versRig.st.reg 3).toNat + 8 ≤ versRig.st.spadSize ∧
    ∀ v ∈ region.vers, v.num < 9 → versRig.weightFrame (region.granPa v.gran) = false :=
  ⟨runs rfl, runs rfl, runs rfl, granule _ rfl rfl rfl, granule _ rfl rfl rfl, by decide, by decide, by decide, by decide⟩

theorem readsPage {s : State} {va : Nat} {a : AccessKind} {f : VFrame}
    (h : okB (registerPage va a s) (fun n t => n == f && sameMemory s t) = true) : registerPage va a s = .ok f s := by
  have hk := registerPage_accesses va a
  obtain ⟨n, t, ht, hp⟩ := of_okB h
  simp only [Bool.and_eq_true, beq_iff_eq] at hp
  rw [ht, hp.1, same_of hp.2 (hk _ _ _ ht)]

/-- A record of one page without a quota, whose overflow area is page 0x14_0000. -/
theorem witness_register :
    let s : State := { bankRig with mem := (bankRig.mem.writeNat 0x10000 4 1).writeNat 0x10008 8 0x140000 }
    let rc := regionRecOf (s.mem.readNat 0x10000 64)
    Runs (.bVreg 5 1 false) noPrefixes s ∧ s.Registers (s.st.reg 5).toNat (s.st.reg 1).toNat (at17 0x110000) rc
      (fun _ => ⟨3, none, true⟩) (fun _ => ⟨0, none, true⟩) ∧ rc.filled = false ∧
    s.AreaWritable rc.ovf ((rc.pages + 15) / 16) atArea := by
  refine ⟨runs rfl, ⟨by decide, by decide, maps rfl (by decide), by decide, rfl, by decide, by decide, by decide, fun r hr => (nomatch hr),
    by decide, by decide, fun i hi => ?_, fun i hi => ?_⟩, by decide, fun i hi => ?_⟩
  all_goals
    obtain rfl : i = 0 := Nat.lt_one_iff.mp hi
  · exact readsPage rfl
  · exact readsPage rfl
  · exact ⟨maps rfl (by decide), by decide, by decide⟩

/-- A spilled record of one page and a quota of 1, with one version, number 1, of granule 0 in its overflow area. -/
def spilledRig : State := { bankRig with
  mem := (((((((bankRig.mem.writeNat 0x10000 4 1).writeNat 0x10004 4 1).writeNat 0x10008 8 0x140000).writeNat 0x10010 4 1).writeNat
    0x10014 4 1).writeNat 0x80000 8 77).writeNat 0x80040 4 1).writeNat 0x80048 4 1 }

theorem one_or_two {i : Nat} (h : i < 2) : i = 0 ∨ i = 1 := by omega

theorem plain_at {s : State} (hp : s.poison = []) (f : Nat) (hf : (frameOf s.frames f).sealMode ≠ 2) {a : Nat} (h : a / 65536 = f) :
    s.PlainAt a := fun _ => ⟨by rw [hp]; rfl, by unfold State.frameAt; rw [h]; exact hf⟩

theorem witness_register_filled :
    let s := spilledRig
    let rc := regionRecOf (s.mem.readNat 0x10000 64)
    let fs := fun _ : Nat => (⟨3, none, true⟩ : VFrame)
    let os := fun i : Nat => (⟨if i = 0 then 0 else 8, none, true⟩ : VFrame)
    let r := s.newRegion 0x120000 0x110000 rc [⟨3, none, true⟩] [⟨0, none, true⟩, ⟨8, none, true⟩]
    Runs (.bVreg 5 1 false) noPrefixes s ∧
    s.Registers (s.st.reg 5).toNat (s.st.reg 1).toNat (at17 0x110000) rc fs os ∧ rc.filled = true ∧
    (∀ i, i < 2 → ∀ a, a / 65536 = (os i).frame → s.PlainAt a) ∧
    (∀ g, g < rc.pages * 1024 → s.mem.readNat (r.ovfPa (4 * g)) 4 ≤ rc.floor) ∧ rc.used ≤ rc.quota ∧ 0 < rc.used ∧
    (∀ i, i < rc.used → s.mem.readNat (r.slotPa i + 72) 8 % 2 = 1 ∧ s.mem.readNat (r.slotPa i + 68) 4 < rc.pages * 1024 ∧
      s.mem.readNat (r.ovfPa (4 * s.mem.readNat (r.slotPa i + 68) 4)) 4 < s.mem.readNat (r.slotPa i + 64) 4 ∧
      rc.floor ≤ s.mem.readNat (r.slotPa i + 64) 4) := by
  refine ⟨runs rfl, ⟨by decide, by decide, maps rfl (by decide), by decide, rfl, by decide, by decide, by decide,
    fun r hr => (nomatch hr), by decide, by decide, fun i hi => ?_, fun i hi => ?_⟩, by decide, fun i hi a ha => ?_, ?_, by decide, by decide,
    by decide⟩
  · obtain rfl : i = 0 := Nat.lt_one_iff.mp hi
    exact readsPage rfl
  · obtain rfl | rfl := one_or_two hi <;> exact readsPage rfl
  · obtain rfl | rfl := one_or_two hi <;> exact plain_at rfl _ (by decide) ha
  · decide

theorem witness_region_words : Runs (.bVregFree 5 1 false) noPrefixes versRig ∧ Runs (.bVregRd 5 1 false) noPrefixes versRig ∧
    Runs (.bVregSpill 5 1 false) noPrefixes versRig ∧ versRig.regionOf versRig.st.place.slot (versRig.st.reg 5).toNat = some region ∧
    (∀ v ∈ region.vers, versRig.weightFrame (region.granPa v.gran) = false) ∧ (versRig.st.reg 1).toNat % 64 = 0 ∧
    versRig.Maps 4 (versRig.st.reg 1).toNat .write (at17 0x110000) ∧ (at17 0x110000).pa < hostBase ∧
    versRig.AreaWritable region.ovf region.ovfFrames.length atArea := by
  refine ⟨runs rfl, runs rfl, runs rfl, rfl, by decide, by decide, maps rfl (by decide), by decide, fun i hi => ?_⟩
  obtain rfl | rfl := one_or_two hi
  · exact ⟨maps rfl (by decide), by decide, by decide⟩
  · exact ⟨(maps rfl (by decide) : versRig.Maps 4 0x150000 .bank (atArea 1)), by decide, by decide⟩

/-- The region's frames take every write; its version 7 of granule 0 is the newest, and no entry is to be noted. -/
theorem witness_region_bytes : versRig.mem.wf = true ∧ versRig.PlainFrames region.fn region.ovfFrames ∧
    region.tableBytes + 128 * region.quota ≤ 65536 * region.ovfFrames.length ∧ versRig.PlainFrames region.fn region.frames ∧
    (∀ v ∈ region.vers, v.gran < 1024 * region.frames.length ∧ v ∈ region.live v.gran ∧
      (∀ w ∈ region.live v.gran, w = v ∨ w.num < v.num) ∧ v.slot = none) ∧
    (let gs := (region.vers.map Version.gran).eraseDups
     gs = [0] ∧ (versRig.releaseRegion region).noteHeld region.ctx region.base (region.granPa 0) = versRig.releaseRegion region) ∧
    region.vers.length ≤ region.quota ∧ (region.vers.map fun v => (v.gran, v.num)).Nodup ∧
    (∀ v ∈ region.vers, v.gran < 2 ^ 32 ∧ v.num < 2 ^ 32) := by
  refine ⟨by decide, ⟨by decide, .inl (by decide), by decide⟩, by decide, ⟨by decide, .inl (by decide), by decide⟩, by decide,
    ⟨by decide, same_of ?_ (State.noteHeld_only _ _ _ _).accessed⟩, by decide, by decide, by decide⟩
  rfl

/-- The floor rises from 5 to 9 over version 7, and to 6 below it. -/
theorem witness_floor : versRig.regions.filter (fun q => q.ctx == region.ctx && q.base == region.base) = [region] ∧ region.floor < 9 ∧
    (∃ q, (versRig.raiseFloor region 9).regions.find? (fun q => q.ctx == region.ctx && q.base == region.base) = some q) ∧
    (∃ v ∈ region.live 0, v.num < 9) ∧ (∀ v ∈ region.live 0, 6 ≤ v.num) := ⟨rfl, by decide, ⟨_, rfl⟩, by decide, by decide⟩
/-! ## The premises of the statements of streams, gangs, tables, attention and the fabric -/

/-- Pool 1: eight blocks of 2 KiB from frame 0, rows of 16 elements in format 4; blocks 0 and 1 are held once, block 2 twice, the
others are scrubbed. -/
def kvPool : Pool :=
  { Pool.clear with
    en := true, base := 0, bsz := 0, fmtd := 4, nblk := 8, v := 16
    blocks := [(0, 2, ⟨.held, 0, 1, 0, 0⟩), (2, 3, ⟨.held, 0, 2, 0, 0⟩), (3, 8, ⟨.free, 0, 0, 0, 0⟩)]
    scrubbed := [(3, 8)] }

/-- A table of 17 positions in blocks 0 and 2 at 0x11_0000; one of none at 0x11_0200; a dead one at 0x11_0400; and at 0x11_0600 one
of 16 positions in block 0 with window 9 open, one position drafted in block 1, and checkpoints 0 and 1 of accumulators 1 in 0. -/
def kvHeader (len : Nat) : Nat := newHeader 1 4 0 0 + len
def windowHeader : Nat :=
  setBits (2 ^ 63 + 2 ^ 40 + 4 * 2 ^ 64 + noBlock * 2 ^ 736 + 2 ^ 704 + 16 + 2 ^ 575 + 2 ^ 556 + 9 * 2 ^ 512 + 16 * 2 ^ 640 +
    2 ^ 768 + 2 ^ 772) 784 16 3

/-- The tables in memory: entry 1 of the first names block 2. -/
def kvCells : Mem :=
  [(0x10000, 17), (0x10005, 1), (0x10007, 0x80), (0x10008, 4)] ++ ((List.range 8).map fun i => (0x10058 + i, 0xFF)) ++
  [(0x10084, 2), (0x10205, 1), (0x10207, 0x80), (0x10208, 4)] ++ ((List.range 8).map fun i => (0x10258 + i, 0xFF)) ++
  [(0x10600, 16), (0x10605, 1), (0x10607, 0x80), (0x10608, 4), (0x10640, 9), (0x10645, 0x10), (0x10647, 0x80), (0x10650, 16),
   (0x10658, 1), (0x1065C, 0xFF), (0x1065D, 0xFF), (0x1065E, 0xFF), (0x1065F, 0xFF), (0x10660, 17), (0x10662, 3)]

/-- s1 to s4 the tables; s5 = 0 and s6 = 64, places in the scratchpad; s7 = 1; s8 = 9, a window; s9 = 16. A second strand of the
gang stands beside this one. -/
def kvRig : State :=
  let s := alter rig (regs [(1, 0x110000), (2, 0x110200), (3, 0x110400), (4, 0x110600), (5, 0), (6, 64), (7, 1), (8, 9), (9, 16)])
  { s with
    mem := kvCells ++ rigMem
    st := { s.st with place := { s.st.place with size := 2 } }
    others := [{ Strand.fresh { s.st.place with size := 2, member := 1, tile := 1 } with spadUnits := 1 }]
    parts := assocPut s.parts 0 { s.part 0 with pools := [(1, kvPool)] }
    btbs := [⟨some 0, 0, 0, 0, 0x110000, 0, 0, 0x10000⟩, ⟨none, 16, 0, 0, 0x110000, 0, 0, 0x10000⟩,
      ⟨none, 16, 0, 0, 0x110000, 1, 2, 0x10000⟩] }

/-- The table at an address, as engine `eng` opens it. -/
def tableAt (eng va : Nat) (acc : AccessKind) : KTable :=
  ⟨va, va - 0x100000, if va = 0x110000 then kvHeader 17 else if va = 0x110200 then kvHeader 0 else
    if va = 0x110600 then windowHeader else 0, eng, acc⟩

theorem opens {s : State} {eng va : Nat} {acc : AccessKind} {t : KTable} (ha : va % 128 = 0)
    (hm : okB (mapAccess eng s.st.place.slot va acc s) (fun n u => n == at17 va && sameMemory s u) = true)
    (hp : s.poison.contains ((at17 va).pa / 64) = false ∧ (s.frameAt (at17 va).pa).sealMode ≠ 2 ∧
      s.poison.contains (((at17 va).pa + 64) / 64) = false ∧ (s.frameAt ((at17 va).pa + 64)).sealMode ≠ 2)
    (ht : t = ⟨va, (at17 va).pa, s.peekNat s.st.who (at17 va).pa 128, eng, acc⟩) (hw : s.fullerWaits = []) :
    s.Opens eng va acc t :=
  ⟨ha, at17 va, ⟨mapped hm, fun _ => ⟨hp.1, hp.2.1⟩⟩, fun _ => ⟨hp.2.2.1, hp.2.2.2⟩, ht, by simp [hw]⟩

theorem opensLive {s : State} {eng va : Nat} {acc : AccessKind} {t : KTable} (h : s.Opens eng va acc t)
    (hl : (t.live && (s.poolAt t).en) = true) : s.OpensLive eng va acc t := by
  simp only [Bool.and_eq_true] at hl
  exact ⟨h, hl.1, hl.2⟩

theorem holds0 : kvRig.HoldsBlock (tableAt 3 0x110000 .bankRead) 0 ⟨.held, 0, 1, 0, 0⟩ := by
  unfold State.HoldsBlock
  decide

theorem plainRange (s : State) (hs : s.poison = []) (lo hi : Nat) (h : ∀ f, lo / 65536 ≤ f → f ≤ hi / 65536 → (frameOf s.frames f).sealMode ≠ 2)
    (pa n : Nat) (h1 : lo ≤ pa / 64 * 64) (h2 : pa + n ≤ hi) : s.PlainRange pa n := by
  intro l hl hu _
  refine ⟨by simp [hs], ?_⟩
  unfold State.frameAt
  apply h <;> omega

/-- A stream of two units of FP32 from memory, and of one element each from the scratchpad. -/
theorem witness_bind :
    let s := alter rig (regs [(1, 0x110000), (2, 2)])
    Runs (.cBind 5 1 2 0 false) noPrefixes s ∧ Runs (.cUnbind 5 false) noPrefixes s ∧
    (extValue s.st noPrefixes 0).toNat % 2 ^ 8 = 0 ∧ (vget s.st.streams 5 Stream.unbound).bound = false ∧
    ∀ k, k < 2 → s.SideReady .mem false (0x110000 + k * (1 * 4)) (1 * 4) at17 := by
  have hs := side17 (alter rig (regs [(1, 0x110000), (2, 2)])) rfl rfl rfl rfl rfl rfl rfl
  exact ⟨runs rfl, runs rfl, by decide, rfl, fun k _ => hs false _ _ (by omega) (by omega)⟩

theorem witness_descriptor :
    let s := alter rig fun t => { regs [(1, 64)] t with spad := (Mem.writeNat [] 64 1 1) }
    Runs (.cDsc 7 1 true false) noPrefixes s ∧ s.SideReady .spad false 64 64 at17 ∧
    descOkImage (BitVec.ofNat 512 (natOfBytes (s.sideBytes .spad 64 64 at17))) = true :=
  ⟨runs rfl, sideSpad (by decide) (by decide), by decide⟩

/-- A copy between the scratchpads of two members. -/
theorem witness_gang_copy :
    let s := fetched [.xCap 7 5 0] kvRig
    let p := prefixesOf [.xCap 7 5 0]
    Runs (.cGm 5 6 9 false false) p s ∧ Runs (.cGm 5 6 9 true false) p s ∧ quietWord (extValue s.st p 1) ∧
    (extValue s.st p 0).toNat % 16 = 1 ∧ 1 < s.st.place.size ∧ 1 ≠ s.st.place.member ∧
    ∃ o, s.member 1 = some o ∧ o.life ≠ .gone ∧ o.barred = false ∧ 64 + 16 ≤ o.spadSize ∧ 0 + 16 ≤ s.st.spadSize :=
  ⟨runs rfl, runs rfl, by unfold quietWord; decide, by decide, by decide, by decide, _, rfl, by decide, by decide, by decide, by decide⟩

/-- The bytes of a block are in frame 0, and it is not poisoned. -/
theorem block_reads {s : State} (t : KTable) (b pa n : Nat) (hp : s.poison = []) (hf : s.frames = rig.frames) (hu : pa + n ≤ 0xFFFF) (hb : (s.poolAt t).poison.contains b = false) : s.BlockReads t b pa n := by
  refine ⟨plainRange s hp 0 0xFFFF (fun f h1 h2 => ?_) _ _ (Nat.zero_le _) hu, hb⟩
  have : f = 0 := by omega
  subst this
  rw [hf]
  decide

/-- The key row of position 0 of the table at s1. -/
theorem witness_kv_row :
    let s := fetched [.xCap 7 5 0] kvRig
    let p := prefixesOf [.xCap 7 5 0]
    let t := tableAt 3 0x110000 .bankRead
    Runs (.cKvg 6 1 5 true false) p s ∧ Runs (.cKvs 6 1 5 false false) p s ∧ (extValue s.st p 0).toNat % 2 ^ 16 = 1 ∧
    s.OpensLive 3 0x110000 .bankRead t ∧ s.RowReady t 0 0 ⟨.held, 0, 1, 0, 0⟩ ∧ t.wopen = false ∧
    s.BlockReads t 0 ((s.poolAt t).rowPa 0 0 true) (s.poolAt t).rowBytes ∧
    s.Unweighted ((s.poolAt t).rowPa 0 0 false) (s.poolAt t).rowBytes ∧ 64 + 4 * (s.poolAt t).v ≤ s.st.spadSize := by
  refine ⟨runs rfl, runs rfl, by decide, opensLive (opens rfl rfl (by decide) (by decide) rfl) (by decide),
    ⟨by decide, by decide, ⟨_, rfl, rfl⟩, holds0⟩, by decide, block_reads _ _ _ _ rfl rfl (by decide) rfl, fun l _ _ => rfl, by decide⟩

/-- An order with a grant of each kind, and the window of key 5 on this chip. -/
def fabRig : State :=
  let op : OpRec := ⟨0x100000, 1, 1, 1, false, 0, 0, 1, 2, 0, 0, 0⟩
  { kvRig with
    front := { kvRig.front with
      orders := [⟨0, 1, 0, 0, 0, 0, op, 1, none, [⟨7, 1, 0, 0, 0xFFF, 1, 0, 64, 0⟩, ⟨7, 1, 0, 1, 0xFFF, 2, 0, 64, 128⟩,
        ⟨5, 0, 0, 0, 0xFFF, 3, 2, 64, 0x110000⟩]⟩]
      gangs := [⟨0, 0, 0, 0, 0, 2, 0, [], false, 0, none, none, false⟩] }
    fabric := { kvRig.fabric with
      up := 1, windows := [⟨5, 0xFFF, 2, 64, .opened, [0], false, 0, [⟨0, 0x110000, 0x10000, 0, none⟩], 0x110000, [], [], []⟩] } }

theorem witness_peer :
    let s := fetched [.xCap 5 5 0] fabRig
    let p := prefixesOf [.xCap 5 5 0]
    Runs (.cPeer 5 6 9 false) p s ∧ s.grants[0]? = some ⟨7, 1, 0, 0, 0xFFF, 1, 0, 64, 0⟩ ∧ s.fabric.chip = 0xFFF ∧
    (s.landPeer ⟨0xFFF, (0, 0, 0), 0xFFF, 0, 7, 0, 0, 16, 0, s.st.spad.readBytes 64 16⟩).1 = .landed ∧
    quietWord (extValue s.st p 1) :=
  ⟨runs rfl, rfl, rfl, by decide, by unfold quietWord; decide⟩

theorem witness_contribution : let s := alter fabRig (regs [(7, 4), (1, 0x110004)])
    Runs (.cRwin 1 6 7 2 false) noPrefixes s ∧ quietWord (extValue s.st noPrefixes 0) ∧ s.fabric.up ≠ 0 ∧
    s.grants.find? (fun g => g.kind == 3 && decide (g.base ≤ 0x110004 ∧ 0x110004 < g.base + g.len)) =
      some ⟨5, 0, 0, 0, 0xFFF, 3, 2, 64, 0x110000⟩ ∧
    ∃ w v, s.window 5 0xFFF = some w ∧ w.state ≠ .retired ∧ w.accept ⟨0xFFF, 4, 2, s.st.spad.readNat 64 4⟩ = some v :=
  ⟨runs rfl, by unfold quietWord; decide, by decide, rfl, _, _, rfl, by decide, rfl⟩

theorem witness_rounds : [(⟨3, 0, 2, 5⟩ : Contribution), ⟨1, 0, 2, 7⟩].Perm [⟨1, 0, 2, 7⟩, ⟨3, 0, 2, 5⟩] ∧
    ([(⟨3, 0, 2, 5⟩ : Contribution), ⟨1, 0, 2, 7⟩].map Contribution.chip).Nodup := ⟨List.Perm.swap _ _ _, by decide⟩

/-- One query of 16 elements over positions 0 to 16 of the table at s1: s10 the places of queries, s11 the control word, s12 the
range. -/
def attnRig : State := alter (alter kvRig (regs [(10, 0), (11, 1), (12, BitVec.ofNat 64 (17 * 2 ^ 32)), (13, 0), (14, 1024), (15, 2048)]))
  fun t => { t with attn := { t.attn with dh := 16 } }

theorem witness_attention :
    let s := fetched [.xCap 10 11 13] attnRig
    let p := prefixesOf [.xCap 10 11 13]
    let t := tableAt 5 0x110000 .read
    let ctl := extValue s.st p 1
    Runs (.aAttn 14 1 12 true false false) p s ∧ Runs (.aPart 14 1 12 false false false) p s ∧ s.st.attn.legal ctl false = true ∧
    windowClean (extValue s.st p 2).toNat = true ∧ bit ctl.toNat 17 = false ∧ bit ctl.toNat 18 = false ∧
    controlRows ctl * s.st.attn.dh * s.st.attn.queryBytes ≤ s.st.spadSize ∧ 1024 + tripleBytes s.st.attn.dh true ≤ s.st.spadSize ∧
    s.OpensLive 5 0x110000 .read t ∧ s.st.attn.koff + s.st.attn.dh ≤ (s.poolAt t).v ∧ s.Shows t 0 17 ∧
    s.SeesBlock t 0 0 ∧ s.SeesBlock t 16 2 := by
  refine ⟨runs rfl, runs rfl, by decide, by decide, by decide, by decide, by decide, by decide,
    opensLive (opens rfl rfl (by decide) (by decide) rfl) (by decide), by decide, Or.inl ⟨rfl, by decide⟩,
    ⟨fun _ => ⟨by decide, ⟨none, 16, 0, 0, 0x110000, 0, 0, 0x10000⟩, by decide, rfl⟩, fun h => absurd h (by decide), ⟨⟨.held, 0, 1, 0, 0⟩, by unfold State.HoldsBlock; decide⟩,
      block_reads _ _ _ _ rfl rfl (by decide) rfl⟩,
    ⟨fun _ => ⟨by decide, ⟨none, 16, 0, 0, 0x110000, 1, 2, 0x10000⟩, by decide, rfl⟩, fun h => absurd h (by decide), ⟨⟨.held, 0, 2, 0, 0⟩, by unfold State.HoldsBlock; decide⟩,
      block_reads _ _ _ _ rfl rfl (by decide) rfl⟩⟩

theorem witness_merge :
    let s := fetched [.xCap 11 0 0] attnRig
    let p := prefixesOf [.xCap 11 0 0]
    Runs (.aMerge 14 15 15 true false) p s ∧ s.st.attn.legal (extValue s.st p 0) false = true ∧
    controlRows (extValue s.st p 0) = 1 ∧ 2048 + (4 * s.st.attn.dh + 16) ≤ s.st.spadSize ∧ Runs (.aCfg 11 2 false) noPrefixes attnRig :=
  ⟨runs rfl, by decide, by decide, by decide, runs rfl⟩

theorem witness_triples : (Triple.empty 16).isEmpty = true ∧ (⟨0, 0x3F800000, List.replicate 16 0⟩ : Triple).isEmpty = false := by decide
/-! ## The premises of the statements of the cache-context engine's words -/

theorem entryAt {s : State} {t : KTable} {i : Nat}
    (h : okB (mapAccess t.eng s.st.place.slot (t.entryVa i) .bank s) (fun n u => n == at17 (t.entryVa i) && sameMemory s u) = true)
    (hp : s.poison.contains ((at17 (t.entryVa i)).pa / 64) = false ∧ (s.frameAt (at17 (t.entryVa i)).pa).sealMode ≠ 2) :
    s.EntryAt t i (at17 (t.entryVa i)) := ⟨mapped h, fun _ => hp⟩

theorem entryIs {s : State} {t : KTable} {i v : Nat}
    (h : okB (mapAccess t.eng s.st.place.slot (t.entryVa i) t.acc s) (fun n u => n == at17 (t.entryVa i) && sameMemory s u) = true)
    (hp : s.poison.contains ((at17 (t.entryVa i)).pa / 64) = false ∧ (s.frameAt (at17 (t.entryVa i)).pa).sealMode ≠ 2)
    (hv : s.peekNat s.st.who (at17 (t.entryVa i)).pa 4 = v) : s.EntryIs t i v := ⟨_, ⟨mapped h, fun _ => hp⟩, hv⟩

theorem headerAt {s : State} {t : KTable}
    (h : okB (mapAccess t.eng s.st.place.slot t.va .bank s) (fun n u => n == at17 t.va && sameMemory s u) = true)
    (hp : s.poison.contains ((at17 t.va).pa / 64) = false ∧ (s.frameAt (at17 t.va).pa).sealMode ≠ 2 ∧ (at17 t.va).pa = t.pa) :
    s.HeaderAt t := ⟨_, ⟨mapped h, fun _ => ⟨hp.1, hp.2.1⟩⟩, hp.2.2⟩

/-- The table at an address, as the cache-context engine opens it. -/
def kTable (va : Nat) : KTable := tableAt 6 va .bankRead

theorem opens1 : kvRig.OpensLive 6 0x110000 .bankRead (kTable 0x110000) := opensLive (opens rfl rfl (by decide) (by decide) rfl) (by decide)
theorem opens2 : kvRig.OpensLive 6 0x110200 .bankRead (kTable 0x110200) := opensLive (opens rfl rfl (by decide) (by decide) rfl) (by decide)
theorem opens4 : kvRig.OpensLive 6 0x110600 .bankRead (kTable 0x110600) := opensLive (opens rfl rfl (by decide) (by decide) rfl) (by decide)

theorem header1 : kvRig.HeaderAt (kTable 0x110000) := headerAt rfl (by decide)
theorem header4 : kvRig.HeaderAt (kTable 0x110600) := headerAt rfl (by decide)
theorem entry0 : kvRig.EntryIs (kTable 0x110000) 0 0 := entryIs rfl (by decide) (by decide)
theorem entry1 : kvRig.EntryIs (kTable 0x110000) 1 2 := entryIs rfl (by decide) (by decide)
theorem held0 : kvRig.HoldsBlock (kTable 0x110000) 0 ⟨.held, 0, 1, 0, 0⟩ := by unfold State.HoldsBlock; decide
theorem held2 : kvRig.HoldsBlock (kTable 0x110000) 2 ⟨.held, 0, 2, 0, 0⟩ := by unfold State.HoldsBlock; decide
theorem one_block : kvRig.HasBlocks (kTable 0x110000) 1 [3] [(4, 8)] := by unfold State.HasBlocks; decide
theorem no_block (va : Nat) (h : (kTable va).pool = 1) : kvRig.HasBlocks (kTable va) 0 [] [(3, 8)] := by
  unfold State.HasBlocks State.poolAt
  rw [h]
  decide

/-- A pool record at 0x11_0800 for pool 2. -/
theorem witness_pool :
    let s : State := { alter kvRig (regs [(1, 0x110800), (2, 2)]) with mem :=
      ((kvRig.mem.writeNat 0x10800 8 (2 ^ 63 + 3 * 2 ^ 16 + 4)).writeNat 0x10808 8 (16 + 8 * 2 ^ 32)) }
    let img := natOfBytes (s.peekBytes s.st.who 0x10800 32)
    Runs (.kPool 1 2 false) noPrefixes s ∧ s.Maps 6 0x110800 .read (at17 0x110800) ∧
    (poolOfRecord img).legal = true ∧ (s.pool 0 2).en = false ∧ s.poolFramesOk 0 (poolOfRecord img) = true :=
  ⟨runs rfl, maps rfl (by decide), by decide, by decide, by decide⟩

theorem witness_pool_off :
    let s : State := { alter kvRig (regs [(1, 1), (2, 2)]) with
      parts := assocPut kvRig.parts 0 { kvRig.part 0 with
        pools := [(1, { kvPool with blocks := [(0, 8, ⟨.free, 0, 0, 0, 0⟩)], scrubbed := [(0, 8)] })] } }
    Runs (.kPoolOff 1 false) noPrefixes s ∧ (s.pool 0 1).en = true ∧ (s.pool 0 1).countState .held = 0 ∧
    runsCount (s.pool 0 1).toScrub = 0 ∧ runsCount (s.pool 0 1).scrubbing = 0 ∧ (s.pool 0 2).en = false :=
  ⟨runs rfl, by decide, by decide, by decide, by decide, by decide⟩

theorem witness_table : Runs (.kTbl 3 7 9 false) noPrefixes kvRig ∧ kvRig.Opens 6 0x110400 .bankRead (kTable 0x110400) ∧
    (kTable 0x110400).live = false ∧ kvRig.HeaderAt (kTable 0x110400) ∧ (kvRig.pool 0 1).en = true ∧
    (kvRig.pool 0 1).world = kvRig.st.place.world :=
  ⟨runs rfl, opens rfl rfl (by decide) (by decide) rfl, by decide, headerAt rfl (by decide), by decide, by decide⟩

/-- 16 positions more take one block; the entry is written after it. -/
theorem witness_append : Runs (.kApp 1 9 5 true false false) noPrefixes kvRig ∧ kvRig.OpensLive 6 0x110000 .bankRead (kTable 0x110000) ∧
    kvRig.HeaderAt (kTable 0x110000) ∧ (kTable 0x110000).wopen = false ∧ (kTable 0x110000).len = 17 ∧ (kTable 0x110000).cap = 4 ∧
    kvRig.st.Room 0 8 8 ∧ kvRig.HasBlocks (kTable 0x110000) (blocksOf 33 - blocksOf 17) [3] [(4, 8)] ∧
    (let u := kvRig.took (kTable 0x110000) [3] [(4, 8)]
     let m := fun j : Nat => at17 (0x110088 + 4 * j)
     kvRig.EntryAt (kTable 0x110000) 2 (m 0) ∧ u.EntryAt (kTable 0x110000) 2 (m 0) ∧
      (u.entered m (fun j => [3].getD j 0) 1).HeaderAt (kTable 0x110000)) :=
  ⟨runs rfl, opens1, header1, by decide, by decide, by decide, by unfold Strand.Room; decide, one_block, entryAt rfl (by decide),
    entryAt rfl (by decide), headerAt rfl (by decide)⟩

/-- A position more in an open window, where nothing is allocated. -/
theorem witness_draft : Runs (.kApp 4 7 5 true true false) noPrefixes kvRig ∧ kvRig.OpensLive 6 0x110600 .bankRead (kTable 0x110600) ∧
    kvRig.HeaderAt (kTable 0x110600) ∧
    (let t := kTable 0x110600
     t.wopen = true ∧ t.wctx = 0 ∧ t.drafted = 1 ∧ t.len = 16 ∧ t.df0 = 1 ∧ t.df1 = noBlock ∧ ¬ 16 * (t.len0 / 16 + 1) < 18) ∧
    kvRig.HasBlocks (kTable 0x110600) 0 [] [(3, 8)] ∧ (kvRig.took (kTable 0x110600) [] [(3, 8)]).HeaderAt (kTable 0x110600) :=
  ⟨runs rfl, opens4, header4, by decide, no_block _ (by decide), headerAt rfl (by decide)⟩

/-- The first drafted position of a table of 17 takes a block, and copies the tail. -/
theorem witness_first_draft :
    let h := setBits (setBits (kvHeader 17) 575 1 1) 640 32 17
    let s : State := { kvRig with mem := kvRig.mem.writeNat 0x10000 128 h }
    let t : KTable := ⟨0x110000, 0x10000, h, 6, .bankRead⟩
    s.OpensLive 6 0x110000 .bankRead t ∧ t.wopen = true ∧ t.drafted = 0 ∧ t.len0 % 16 = 1 ∧ s.HasBlocks t 1 [3] [(4, 8)] ∧
    s.EntryIs t 1 2 ∧ s.HoldsBlock t 2 ⟨.held, 0, 2, 0, 0⟩ ∧
    s.BlockReads t 2 ((s.poolAt t).rowPa 2 0 false) (1 * (s.poolAt t).rowBytes) ∧
    s.BlockReads t 2 ((s.poolAt t).rowPa 2 0 true) (1 * (s.poolAt t).rowBytes) ∧
    s.Unweighted ((s.poolAt t).blockPa 3) (s.poolAt t).stride ∧ s.HeaderAt t ∧
    (let u := s.took t [3] [(4, 8)]
     let q := s.poolAt t
     let w := u.engineWrite (q.blockPa 3) (u.mem.readBytes (q.blockPa 2) q.rowBytes)
     (w.engineWrite (q.blockPa 3 + 16 * q.rowBytes) (w.mem.readBytes (q.blockPa 2 + 16 * q.rowBytes) q.rowBytes)).HeaderAt t) :=
  ⟨opensLive (opens rfl rfl (by decide) (by decide) rfl) (by decide), by decide, by decide, by decide,
    by unfold State.HasBlocks; decide, entryIs rfl (by decide) (by decide), by unfold State.HoldsBlock; decide,
    block_reads _ _ _ _ rfl rfl (by decide) rfl, block_reads _ _ _ _ rfl rfl (by decide) rfl, fun l _ _ => rfl,
    headerAt rfl (by decide), headerAt (by decide +kernel) (by decide +kernel)⟩

theorem witness_length : Runs (.kLen 5 1 false) noPrefixes kvRig ∧ kvRig.st.Room 0 16 16 ∧ Runs (.kBbinv 1 false) noPrefixes kvRig :=
  ⟨runs rfl, by unfold Strand.Room; decide, runs rfl⟩

/-- A row of the block that one table holds (position 0), of a shared one (16), and of a drafted position. -/
theorem witness_row_write :
    let s := fetched [.xCap 7 5 0] kvRig
    let p := prefixesOf [.xCap 7 5 0]
    let t := kTable 0x110000
    Runs (.kWr 6 1 5 true false) p s ∧ Runs (.kWr 6 1 9 true false) p s ∧ (extValue s.st p 0).toNat % 2 ^ 16 = 1 ∧
    kvRig.SpotIs t 0 0 false ∧ kvRig.SpotIs t 16 2 false ∧ kvRig.HoldsBlock t 0 ⟨.held, 0, 1, 0, 0⟩ ∧
    kvRig.HoldsBlock t 2 ⟨.held, 0, 2, 0, 0⟩ ∧ kvRig.HasBlocks t 1 [3] [(4, 8)] ∧ kvRig.SpotIs (kTable 0x110600) 16 1 true ∧
    kvRig.RowWrites t 0 true 0 false ∧ kvRig.RowWrites t 16 true 2 false ∧ kvRig.RowWrites (kTable 0x110600) 16 true 1 true ∧
    kvRig.BlockReads t 2 ((kvRig.poolAt t).blockPa 2) (kvRig.poolAt t).stride ∧
    kvRig.Unweighted ((kvRig.poolAt t).blockPa 3) (kvRig.poolAt t).stride ∧
    (let u := kvRig.took t [3] [(4, 8)]
     let q := kvRig.poolAt t
     ∃ m, kvRig.EntryAt t 1 m ∧ (u.engineWrite (q.blockPa 3) (u.mem.readBytes (q.blockPa 2) q.stride)).EntryAt t 1 m) ∧
    s.st.Room 64 4 (4 * (kvRig.poolAt t).v) := by
  refine ⟨runs rfl, runs rfl, by decide, Or.inl ⟨rfl, by decide, by decide, entry0⟩, Or.inl ⟨rfl, by decide, by decide, entry1⟩, held0,
    held2, one_block, Or.inr ⟨rfl, by decide, by decide, by decide, by decide, by decide⟩, ⟨fun l _ _ => rfl, fun _ h => absurd h (by decide)⟩,
    ⟨fun l _ _ => rfl, fun _ h => absurd h (by decide)⟩, ⟨fun l _ _ => rfl, fun h => absurd h (by decide)⟩,
    block_reads _ _ _ _ rfl rfl (by decide) rfl, fun l _ _ => rfl, ⟨_, entryAt rfl (by decide), entryAt (by decide +kernel) (by decide +kernel)⟩,
    by unfold Strand.Room; decide⟩

theorem witness_fork : Runs (.kFork 2 1 9 false) noPrefixes kvRig ∧ kvRig.OpensLive 6 0x110200 .bankRead (kTable 0x110200) ∧
    kvRig.OpensLive 6 0x110000 .bankRead (kTable 0x110000) ∧ (kTable 0x110200).len = 0 ∧ (kTable 0x110200).wopen = false ∧
    (kTable 0x110200).pool = (kTable 0x110000).pool ∧ blocksOf 16 ≤ (kTable 0x110200).cap ∧ kvRig.EntryIs (kTable 0x110000) 0 0 ∧
    kvRig.EntryAt (kTable 0x110200) 0 (at17 0x110280) ∧ kvRig.HeaderAt (kTable 0x110200) ∧
    (kvRig.forked (kTable 0x110000) (fun _ => at17 0x110280) (fun _ => 0) 1).HeaderAt (kTable 0x110200) :=
  ⟨runs rfl, opens2, opens1, by decide, by decide, by decide, by decide, entry0, entryAt rfl (by decide), headerAt rfl (by decide),
    headerAt rfl (by decide)⟩

theorem cuts1 : kvRig.CutsAt (kTable 0x110000) 1 (fun _ => at17 0x110084) (fun _ => 2) 1 := by
  intro j hj
  have : j = 0 := by omega
  subst this
  exact ⟨entry1, fun _ => ⟨⟨_, held2⟩, entryAt rfl (by decide), entryAt rfl (by decide)⟩⟩

theorem cuts0 : kvRig.CutsAt (kTable 0x110000) 0 (fun j => at17 (0x110080 + 4 * j)) (fun j => if j = 0 then 0 else 2) 2 := by
  intro j hj
  have : j = 0 ∨ j = 1 := by omega
  rcases this with h | h <;> subst h
  · exact ⟨entry0, fun _ => ⟨⟨_, held0⟩, entryAt rfl (by decide), entryAt rfl (by decide)⟩⟩
  · exact ⟨entry1, fun _ => ⟨⟨_, held2⟩, entryAt rfl (by decide), entryAt rfl (by decide)⟩⟩

theorem witness_cut : Runs (.kTrunc 1 9 false) noPrefixes kvRig ∧ Runs (.kRet 1 false) noPrefixes kvRig ∧
    16 ≤ (kTable 0x110000).len ∧ blocksOf 16 = 1 ∧ (kTable 0x110000).blocksPast 16 = 1 ∧
    kvRig.CutsAt (kTable 0x110000) 1 (fun _ => at17 0x110084) (fun _ => 2) 1 ∧ blocksOf (kTable 0x110000).len = 2 ∧
    kvRig.CutsAt (kTable 0x110000) 0 (fun j => at17 (0x110080 + 4 * j)) (fun j => if j = 0 then 0 else 2) 2 ∧
    (kvRig.cutBack (kTable 0x110000) (fun _ => at17 0x110084) (fun _ => 2) 1).HeaderAt (kTable 0x110000) ∧
    (kvRig.cutBack (kTable 0x110000) (fun j => at17 (0x110080 + 4 * j)) (fun j => if j = 0 then 0 else 2) 2).HeaderAt (kTable 0x110000) :=
  ⟨runs rfl, runs rfl, by decide, by decide, by decide, cuts1, by decide, cuts0, headerAt rfl (by decide), headerAt rfl (by decide)⟩

/-- A table returned in an open window. -/
theorem witness_return_window :
    let t := kTable 0x110600
    let u := kvRig.cutBack t (fun _ => at17 0x110680) (fun _ => 0) 1
    let v := (if t.df0 = noBlock then u else u.released t t.df0)
    Runs (.kRet 4 false) noPrefixes kvRig ∧ t.wopen = true ∧ blocksOf t.len = 1 ∧ kvRig.EntryIs t 0 0 ∧ kvRig.HeaderAt t ∧
    kvRig.DraftsHeld t ∧ v.HeaderAt t ∧
      ({ v with windows := v.windows.filter fun w => !(w.part == kvRig.st.place.part && w.pa == t.pa) } : State).HeaderAt t := by
  refine ⟨runs rfl, by decide, by decide, entryIs rfl (by decide) (by decide), header4, ⟨.inr ⟨⟨.held, 0, 1, 0, 0⟩, ?_⟩, .inl (by decide)⟩,
    headerAt rfl (by decide), headerAt rfl (by decide)⟩
  unfold State.HoldsBlock
  decide

/-- A window with checkpoints of group 0 of accumulator 1 in accumulator 0. -/
theorem witness_window_open :
    let s := alter (fetched [.xCap 5 0 0] kvRig) (regs [(10, 17)])
    Runs (.kWinOpen 1 8 10 false) (prefixesOf [.xCap 5 0 0]) s ∧ (kTable 0x110000).wopen = false ∧ bit 17 0 = true ∧
    bits 17 1 3 < s.st.mat.accs.length ∧ bits 17 4 3 < s.st.mat.accs.length ∧ bits 17 1 3 ≠ bits 17 4 3 ∧
    s.Maps 6 0x110000 .bank (at17 0x110000) ∧ (s.noted (kTable 0x110000) (some (at17 0x110000))).HeaderAt (kTable 0x110000) :=
  ⟨runs rfl, by decide, by decide, by decide, by decide, by decide, maps rfl (by decide), headerAt rfl (by decide)⟩

/-- Checkpoint slots 0 and 1 of accumulator 0 are valid. -/
def windowRig : State := alter kvRig fun t => (t.setCkv 0 0).setCkv 0 1

theorem in_window : windowRig.InWindow (kTable 0x110600) (windowRig.st.reg 8) := by unfold State.InWindow; decide

theorem witness_window_checkpoint : Runs (.kCkpt 4 8 9 false) noPrefixes windowRig ∧
    windowRig.InWindow (kTable 0x110600) (windowRig.st.reg 8) ∧ (kTable 0x110600).cken = true ∧
    (kTable 0x110600).ckz < windowRig.st.mat.accs.length ∧ (kTable 0x110600).stz < windowRig.st.mat.accs.length :=
  ⟨runs rfl, in_window, by decide, by decide, by decide⟩

theorem drafts_held : windowRig.DraftsHeld (kTable 0x110600) := by
  refine ⟨.inr ⟨⟨.held, 0, 1, 0, 0⟩, ?_⟩, .inl (by decide)⟩
  unfold State.HoldsBlock
  decide

/-- A commit of the drafted position, and an abort. -/
theorem witness_window_end : Runs (.kCommit 4 8 7 false false) noPrefixes windowRig ∧ Runs (.kAbort 4 8 false false) noPrefixes windowRig ∧
    windowRig.OpensLive 6 0x110600 .bankRead (kTable 0x110600) ∧
    (∃ m0, windowRig.EndsWindow (kTable 0x110600) (windowRig.st.reg 8) false 1 noBlock m0 m0) ∧
    ∃ m, windowRig.EndsWindow (kTable 0x110600) (windowRig.st.reg 8) false 0 noBlock m m := by
  refine ⟨runs rfl, runs rfl, opensLive (opens rfl rfl (by decide) (by decide) rfl) (by decide),
    ⟨at17 0x110684, headerAt rfl (by decide), headerAt rfl (by decide), headerAt rfl (by decide), in_window, by decide, drafts_held,
      fun _ => ⟨by rw [if_neg (by decide)], fun h => absurd rfl h,
      entryAt rfl (by decide), entryAt rfl (by decide), fun h => absurd h (by decide)⟩, fun _ _ => ?_⟩,
    ⟨at17 0x110600, headerAt rfl (by decide), headerAt rfl (by decide), headerAt rfl (by decide), in_window, by decide, drafts_held,
      fun h => absurd rfl h, fun _ _ => ?_⟩⟩
  · rw [if_pos (by decide)]
    exact ⟨by decide, by decide, _, rfl, by decide⟩
  · rw [if_pos (by decide)]
    exact ⟨by decide, by decide, _, rfl, by decide⟩

/-- An entry that holds its block alone (0), and one that shares it (1). -/
theorem witness_allocate : Runs (.kFalloc 1 5 7 false false) noPrefixes kvRig ∧ Runs (.kFalloc 1 7 7 true false) noPrefixes kvRig ∧
    kvRig.EntryIs (kTable 0x110000) 0 0 ∧ kvRig.EntryIs (kTable 0x110000) 1 2 ∧
    kvRig.HoldsBlock (kTable 0x110000) 0 ⟨.held, 0, 1, 0, 0⟩ ∧ kvRig.HoldsBlock (kTable 0x110000) 2 ⟨.held, 0, 2, 0, 0⟩ ∧
    kvRig.HasBlocks (kTable 0x110000) 1 [3] [(4, 8)] ∧ 1 < blocksOf (kTable 0x110000).len ∧
    ∃ m, kvRig.EntryAt (kTable 0x110000) 1 m ∧ ((kvRig.took (kTable 0x110000) [3] [(4, 8)]).released (kTable 0x110000) 2).EntryAt
      (kTable 0x110000) 1 m :=
  ⟨runs rfl, runs rfl, entry0, entry1, held0, held2, one_block, by decide, _, entryAt rfl (by decide), entryAt rfl (by decide)⟩

theorem witness_free : Runs (.kFfree 1 5 7 false) noPrefixes kvRig ∧ 0 + 1 ≤ (kTable 0x110000).len / 16 ∧
    kvRig.CutsAt (kTable 0x110000) 0 (fun j => at17 (0x110080 + 4 * j)) (fun _ => 0) 1 := by
  refine ⟨runs rfl, by decide, fun j hj => ?_⟩
  have : j = 0 := by omega
  subst this
  exact ⟨entry0, fun _ => ⟨⟨_, held0⟩, entryAt rfl (by decide), entryAt rfl (by decide)⟩⟩

/-- Entry 1 takes the block of entry 0 of the same table, and its own. -/
theorem witness_share :
    let s := fetched [.xCap 1 0 0] kvRig
    Runs (.kFref 1 7 5 false) (prefixesOf [.xCap 1 0 0]) s ∧ Runs (.kFref 1 7 7 false) (prefixesOf [.xCap 1 0 0]) s ∧
    extValue s.st (prefixesOf [.xCap 1 0 0]) 0 = 0x110000 ∧ kvRig.EntryIs (kTable 0x110000) 0 0 ∧ kvRig.EntryIs (kTable 0x110000) 1 2 ∧
    (∃ m, kvRig.EntryAt (kTable 0x110000) 1 m ∧
      ((kvRig.shared (kTable 0x110000) 0).released (kTable 0x110000) 2).EntryAt (kTable 0x110000) 1 m) :=
  ⟨runs rfl, runs rfl, rfl, entry0, entry1, _, entryAt rfl (by decide), entryAt rfl (by decide)⟩

theorem witness_query : Runs (.kFqryBlk 5 1 7 false) noPrefixes kvRig ∧ Runs (.kFqryPool 5 7 false) noPrefixes kvRig ∧
    kvRig.st.Room 0 16 16 ∧ (kvRig.pool 0 1).en = true ∧ (kvRig.pool 0 1).world = kvRig.st.place.world :=
  ⟨runs rfl, runs rfl, by unfold Strand.Room; decide, by decide, by decide⟩

/-- Frame 1 is handed to the scrubber, and frame 9 taken from its list. -/
theorem witness_frames :
    let s : State := { alter kvRig (regs [(1, 0x10000), (2, 1), (3, 0)]) with
      parts := assocPut kvRig.parts 0 { kvRig.part 0 with scrubbed := [(9, 12)] } }
    Runs (.kFscrub 1 2 false) noPrefixes s ∧ (∀ i, 1 ≤ i → i < 1 + 1 → (s.part 0).cfg.fbase ≤ i ∧ i < (s.part 0).cfg.flimit ∧
      (frameOf s.frames i).st = .owned) ∧
    Runs (.kFscrubTake 3 2 3 false) noPrefixes s ∧ s.fullerWaits = [] ∧ s.frameTake 0 0 1 = ([9], [(10, 12)]) := by
  refine ⟨runs rfl, fun i h1 h2 => ?_, runs rfl, rfl, by decide⟩
  have : i = 1 := by omega
  subst this
  decide
/-! ## The premises of the statements of events -/

/-- A word that waits in its queue, not started. -/
def waiting (i : Instr) (x y : Word) : Entry := ⟨0, 0x100000, i, noPrefixes, x, y, 0, 0, 0, 0, 0, Progress.fresh⟩

/-- The strand's queue `e` holds one word. -/
def holding (e : Nat) (x : Entry) (s : State) : State := alter s fun t => t.setQueue e [x]

theorem heads {s : State} {e : Nat} {x : Entry} (h : (s.st.queue e == [x] && !x.isJoin && !x.isMark e && !x.isLoop && s.engineMoves e &&
    s.st.mayRun e && !s.startsNone e && (e != 1 || !s.st.queriesAwait x)) = true) : s.Heads e x [] := by
  simp only [Bool.and_eq_true, beq_iff_eq, Bool.not_eq_true', Bool.or_eq_true, bne_iff_ne] at h
  obtain ⟨⟨⟨⟨⟨⟨⟨h1, h2⟩, h3⟩, h4⟩, h5⟩, h6⟩, h7⟩, h8⟩ := h
  exact ⟨h1, h2, h3, h4, h5, h6, .inl h7, fun he => h8.resolve_left fun h => h he⟩

theorem performs {s : State} {e : Nat} (x : Entry) (h : s.Heads e x [])
    (hp : okB (performWord x (s.heading e x [])) (fun _ _ => true) = true) : ∃ t, s.Performs e t := by
  obtain ⟨a, u, hu, -⟩ := of_okB hp
  exact ⟨_, x, [], u, h, hu, rfl⟩

/-- A wait of the bank word that stands at the head of queue 4, which has been met. -/
def metWait : BankWait := ⟨0, 0, 0, 0x110000, 0, 0, 0x10000, 4, 0, 0, 0xFFFFFFFF, true⟩

/-- A word of each engine that its queue's head performs. -/
theorem witness_performs :
    (∃ t, (holding 1 (waiting (.vMov 1 2 false) 0 0) rig).Performs 1 t) ∧
    (∃ t, (holding 2 (waiting (.mSwap 2 false) 0 0) rig).Performs 2 t) ∧
    (∃ t, (holding 3 (waiting (.cFill 1 3 255 false) 0x110000 0) rig).Performs 3 t) ∧
    (∃ t, (holding 4 (waiting (.bVretire 5 6 false) 0x120000 3) versRig).Performs 4 t) ∧
    (∃ t, (holding 5 (waiting (.aBinv 1 false) 0x110000 0) rig).Performs 5 t) ∧
    (∃ t, (holding 6 (waiting (.kFqryPool 5 7 false) 0 1) kvRig).Performs 6 t) :=
  ⟨performs (waiting (.vMov 1 2 false) 0 0) (heads rfl) (by decide),
    performs (waiting (.mSwap 2 false) 0 0) (heads rfl) (by decide),
    performs (waiting (.cFill 1 3 255 false) 0x110000 0) (heads rfl) (by decide),
    performs (waiting (.bVretire 5 6 false) 0x120000 3) (heads rfl) (by decide),
    performs (waiting (.aBinv 1 false) 0x110000 0) (heads rfl) (by decide),
    performs (waiting (.kFqryPool 5 7 false) 0 1) (heads rfl) (by decide)⟩

theorem witness_heads :
    (holding 3 (waiting (.cPf 1 3 false false) 0x110000 64) rig).Heads 3 (waiting (.cPf 1 3 false false) 0x110000 64) [] ∧
    (holding 5 (waiting (.aPref 1 3 false false) 0x110000 64) rig).Heads 5 (waiting (.aPref 1 3 false false) 0x110000 64) [] :=
  ⟨heads rfl, heads rfl⟩

/-- A submission that waited, as it goes on. -/
def submission : Entry := waiting (.mTsub 1 2 false) 0x110000 2
def submitting : State := (holding 2 submission taskRig).heading 2 submission []

theorem witness_submission : (holding 2 submission taskRig).Heads 2 submission [] ∧ submission.Untouched ∧
    ∃ k u, submitting.Submits submission.opX.toNat (submission.opY.toNat % 2 ^ 32) k u := by
  refine ⟨heads rfl, ⟨_, _, rfl⟩, _, _, at17 0x110000,
    at17 0x110010, at17 0x110010, ⟨0, 0, false, 0, 4, 65536⟩, fun i => at17 (0x110400 + 64 * i), by decide, reaches rfl, by decide,
    by decide, reaches rfl, reaches rfl, rfl, fun i hi => ?_, by decide, by decide, by decide, by decide, reaches rfl, rfl, rfl⟩
  have : i = 0 ∨ i = 1 := by
    have : submission.opY.toNat % 2 ^ 32 = 2 := rfl
    omega
  rcases this with h | h <;> subst h <;> exact reaches rfl

/-- A wait of memory that is met. -/
theorem witness_met :
    let x := waiting (.bWait 1 8 0 0 false false) 0x110000 0
    let s : State := { holding 4 x bankRig with bankWaits := [metWait] }
    s.Heads 4 x [] ∧ x.Untouched ∧ quietWord x.extA ∧ x.opX.toNat % 4 = 0 ∧ (s.heading 4 x []).bankWait x = some metWait ∧
      metWait.hit = true :=
  ⟨heads rfl, ⟨_, _, rfl⟩, by unfold quietWord; decide, by decide, rfl, rfl⟩

/-- A drain that ends with the scalar trap; one that ends with the fault of engine 2, before that of engine 3, with no word
started, or with the words that were started at rest. -/
theorem witness_drains :
    let trap : TrapInfo := ⟨.align, 0, 0⟩
    (let s := alter rig fun t => { t with pend := some ⟨0x100000, trap, [], [], false⟩ }
     s.stoppedGang = false ∧ ∃ p, s.st.pend = some p ∧ p.faults = [] ∧ ∀ e, 1 ≤ e → e ≤ 6 → s.st.queue e = []) ∧
    ∀ stop, let s := alter rig fun t => { t with pend := some ⟨0x100000, trap, [(3, trap), (2, trap), (2, trap)], [(3, 0), (2, 0), (2, 1)], stop⟩ }
      s.st.pend = some ⟨0x100000, trap, [(3, trap)] ++ (2, trap) :: [(2, trap)], [(3, 0), (2, 0), (2, 1)], stop⟩ ∧ (∀ x ∈ [(3, trap)], 2 < x.1) ∧
      (∀ x ∈ [(2, trap)], 2 ≤ x.1) ∧ s.st.remoteHolds = false ∧ s.st.heldElsewhere = false ∧
      s.stoppedGang = false ∧ ∀ k, 1 ≤ k → k ≤ 6 → s.moveEngine k = none := by
  refine ⟨⟨rfl, _, rfl, rfl, fun e h1 h2 => ?_⟩, fun stop => ⟨rfl, by decide, by decide, by cases stop <;> rfl, by cases stop <;> rfl, rfl, fun k h1 h2 => ?_⟩⟩
  · have : e = 1 ∨ e = 2 ∨ e = 3 ∨ e = 4 ∨ e = 5 ∨ e = 6 := by omega
    rcases this with h | h | h | h | h | h <;> subst h <;> rfl
  · have : k = 1 ∨ k = 2 ∨ k = 3 ∨ k = 4 ∨ k = 5 ∨ k = 6 := by omega
    rcases this with h | h | h | h | h | h <;> subst h <;> cases stop <;> rfl

theorem witness_version_timeout : let w : VWait := ⟨0, 0, 0, 0, 0, 0x120000, 0, 9, 0, 1, none⟩
    (bankRig.st.queue 4 = []) ∧ w.late 1 = true ∧ w.late 0 = false ∧ ({ w with timeout := 0 } : VWait).late 5 = false := by decide

/-- A tile with strands of two worlds in its banks, whose turn is over, or which has stood in a wait. -/
theorem witness_switch :
    let rival := Strand.fresh { rig.st.place with gang := 1, bank := 1, world := 1 }
    let t : State := { rig with others := [{ rival with life := .residentIdle }] }
    let a := alter t fun u => { u with turn := 262144 }
    let b := alter t fun u => { u with stall := 1025, waiting := some (1, 0) }
    (a.Distinct ∧ a.st.life = .active ∧ a.st.matrixRuns = false ∧ 262144 ≤ a.st.turn ∧ ∃ u, a.rival = some u ∧ ∃ w, (a.tileAt a.st.place.tileKey).world = some w ∧
      w ≠ u.place.world) ∧
    (b.Distinct ∧ b.st.life = .active ∧ b.st.matrixRuns = false ∧ b.st.inWait = true ∧ 1024 < b.st.stall ∧ ∃ u, b.rival = some u) :=
  ⟨⟨by unfold State.Distinct; decide, rfl, rfl, by decide, _, rfl, _, rfl, by decide⟩, by unfold State.Distinct; decide, rfl, rfl, rfl, by decide,
    _, rfl⟩

/-- Function 1 owns context slot 0; its queue 0 has 16 units from 0x11_0000, of which unit 1 comes next, holds `x`, and is the first
of `filled`, beside what `more` writes; its completion ring, argument blocks and stacks stand in the same page. -/
def frontQueue : QueueRec :=
  { QueueRec.reset with
    base := 0x110000, state := .running, en := true, rd := 1, cqbase := 0x114000, argbase := 0x116000, stkbase := 0x100000000
    stkarea := 2, kickpa := sliceBase / 64 }
def frontRig (x filled : Nat) (more : List (Nat × Nat × Nat) := []) : State :=
  { rig with
    mem := more.foldl (fun m w => m.writeNat w.1 w.2.1 w.2.2)
      (((rigMem.writeNat 0x20000 1 3).writeNat 0x10040 64 x).writeNat sliceBase 4 (1 + filled))
    fns := [(1, { Fn.reset with en := true, queues := [(0, frontQueue)] })]
    parts := assocPut rig.parts 0 { rig.part 0 with cfg := { (rig.part 0).cfg with slmem := 1 } } }

/-- Where an address of page 0x11_0000 lies for function 1. -/
def front17 (va : Nat) : Mapped := ⟨va - 0x100000, va - 0x100000, false, 1, 0, 0x120000 - va⟩

def frontMapsB (s : State) (fn q va : Nat) (acc : AccessKind) (m : Mapped) : Bool :=
  let f : State := { s with st := Strand.fresh (s.frontPlace fn q), others := s.st :: s.others }
  s.front.units.isEmpty && !s.poison.contains (m.pa / 64) && (s.frameAt m.pa).sealMode != 2 &&
    okB (mapAccess 7 (s.queue fn q).ctx va acc f) fun n t => n == m && sameMemory f t

theorem frontMaps {s : State} {fn q va : Nat} {acc : AccessKind} {m : Mapped} (h : frontMapsB s fn q va acc m = true) :
    s.FrontMaps fn q va acc m := by
  simp only [frontMapsB, Bool.and_eq_true, List.isEmpty_iff, Bool.not_eq_true', bne_iff_ne] at h
  obtain ⟨⟨⟨h1, h2⟩, h3⟩, h4⟩ := h
  exact ⟨by simp [h1], fun _ => ⟨h2, h3⟩, mapped h4⟩

theorem frontReads {s : State} {fn q va n x : Nat} (h : (decide (1 ≤ n ∧ va % 64 + n ≤ 64 ∧ va < 2 ^ 64) &&
    frontMapsB s fn q va .read (front17 va) && s.peekNat .device (front17 va).pa n == x) = true) : s.FrontReads fn q va n x := by
  simp only [Bool.and_eq_true, decide_eq_true_eq, beq_iff_eq] at h
  obtain ⟨⟨⟨h1, h2, h3⟩, h4⟩, h5⟩ := h
  exact ⟨h1, h2, h3, _, frontMaps h4, h5⟩

theorem frontLocated {s : State} {va n : Nat} {acc : AccessKind} {P : List (Located × Nat) → Bool}
    (h : okB (frontLocate va n acc s) (fun ls _ => P ls) = true) : ∃ ls, frontLocate va n acc s = .ok ls s ∧ P ls = true := by
  obtain ⟨ls, t, ht, hp⟩ := of_okB h
  have := frontLocate_reads va n acc s ls t ht
  subst this
  exact ⟨ls, ht, hp⟩

/-- An access that has been located leaves the state `v` as it is. -/
def usesB (v : State) (l : Located) : Bool := okB (l.use v) fun _ t => sameMemory v t
theorem uses {v : State} {l : Located} (h : usesB v l = true) : l.use v = .ok () v := by
  obtain ⟨_, t, ht, hp⟩ := of_okB h
  rw [ht, same_of hp (use_accesses l _ _ _ ht)]

theorem frontWrites {s : State} {fn q va : Nat} {acc : AccessKind} {bs : List Byte}
    (h : (s.front.units.isEmpty && okB (frontLocate va bs.length acc (s.frontOf fn q)) fun ls _ =>
      (List.range ls.length).all fun j => match ls[j]? with
        | some l => usesB ((State.writePieces (ls.take j) bs s).frontOf fn q) l.1
        | none => true) = true) : ∃ u, s.FrontWrites fn q va acc bs u := by
  simp only [Bool.and_eq_true, List.isEmpty_iff] at h
  obtain ⟨ls, hl, hp⟩ := frontLocated (P := fun ls => (List.range ls.length).all fun j => match ls[j]? with
        | some l => usesB ((State.writePieces (ls.take j) bs s).frontOf fn q) l.1
        | none => true) h.2
  refine ⟨_, by simp [h.1], ls, hl, rfl, fun j l hj => ?_⟩
  have := List.all_eq_true.mp hp j (List.mem_range.mpr (List.getElem?_eq_some_iff.mp hj).1)
  rw [hj] at this
  exact uses this

/-- An order of two gangs of two members. -/
def gangOp : OpRec := ⟨0x100000, 2, 1, 1, false, 0, 1, 1, 2, 0, 0, 0⟩
def gangOrder : Order := ⟨5, 1, 0, 1, 0, 0, gangOp, 0, none, []⟩
def gangArgs : List Byte := argBlock gangOp 0 0 0 (List.replicate 64 0)
def gangRig : State := let s := frontRig 0 1; { s with front := { s.front with orders := [gangOrder] } }

theorem gang_fits : gangRig.GangFits 5 0 gangOrder [(1, 0), (2, 0)] 0 0 0 0 :=
  ⟨rfl, rfl, by decide, by decide, by decide +kernel, by decide +kernel, by decide +kernel, by decide +kernel, ⟨rfl, rfl, rfl⟩⟩

/-- A gang is placed; its argument block stands in page 0x11_0000. -/
theorem witness_gang_place : gangRig.GangFits 5 0 gangOrder [(1, 0), (2, 0)] 0 0 0 0 ∧ gangOrder.op.argv = 0 ∧
    (∃ u, gangRig.FrontWrites 1 0 (0x116000 + 128 * 0) .args gangArgs u) ∧
    ∃ t, gangRig.frontRun 1 0 (writeArgs gangOp 0x116000 0 0 0) = (.done (), t) := by
  refine ⟨gang_fits, rfl, frontWrites (by decide +kernel), ?_⟩
  have h : (match (gangRig.frontRun 1 0 (writeArgs gangOp 0x116000 0 0 0)).1 with | .done _ => true | _ => false) = true := by decide +kernel
  generalize hr : gangRig.frontRun 1 0 (writeArgs gangOp 0x116000 0 0 0) = r at h ⊢
  obtain ⟨a, t⟩ := r
  cases a
  · exact ⟨t, rfl⟩
  all_goals cases h

/-- A gang of one member, whose leader is the current strand; its order is the last of a docket. -/
def runGang (saved : Bool) (stall : Nat) : GangInfo := ⟨0, 5, 0, 0, 0, 1, 0, [0], saved, stall, none, none, false⟩
def gangOf1 (saved : Bool) (stall : Nat) (life : Life) : State :=
  let s := alter gangRig fun t => { t with life := life, csr := { t.csr with hangto := 1 } }
  let p := { packetRun 1 0 1 0x101 [gangOp] with order := some 5, nextOp := 1 }
  { s with front := { s.front with gangs := [runGang saved stall], packets := [p] } }

theorem witness_gangs :
    (∃ x ∈ (gangOf1 false 0 .active).front.gangs, x.id = 0 ∧ x.saved = false ∧ x.hung = none) ∧
    (gangOf1 false 0 .active).st.matrixRuns = false ∧ (gangOf1 false 0 .active).others = [] ∧
    (let s := gangOf1 true 0 .saved
     let members := (s.st :: s.others).filter fun t => t.place.gang == 0 && t.life == .saved
     s.front.gangs.find? (fun y => y.id == 0 && y.saved) = some (runGang true 0) ∧ members.head? = some s.st ∧
       s.mayPlace s.st.place.fn = true ∧ s.fitGang s.st.place.part 0 1 ((members.map Strand.spadUnits).foldl max 0)
         ((members.map fun t => t.mat.accs.length).foldl max 0) = some [(0, 0)] ∧ ∀ u ∈ members, u.place.member < 1) ∧
    (let s := gangOf1 false 65536 .active
     let l : LeaderInfo := ⟨1, 0, 0⟩
     s.front.gangs.find? (fun x => x.id == 0) = some (runGang false 65536) ∧ s.leaderOf (runGang false 65536) = some l ∧
       l.hangto ≠ 0 ∧ l.hangto.toNat * 65536 ≤ 65536 ∧ s.order 5 = some gangOrder ∧ s.hung (runGang false 65536) = some l ∧
       s.hungGangs l.part = [runGang false 65536] ∧ (s.queue 1 0).hangaddr = 0) := by
  refine ⟨⟨_, List.mem_singleton_self _, rfl, rfl, rfl⟩, by decide +kernel, rfl, ⟨rfl, rfl, by decide +kernel, by decide +kernel, by decide +kernel⟩,
    rfl, by decide +kernel, by decide, by decide, rfl, by decide +kernel, by decide +kernel, by decide +kernel⟩

theorem witness_retire : let s := alter (gangOf1 false 0 .active) fun t => { t with ended := true }
    let u := s.close 4
    s.st.life = .active ∧ (∀ e, s.st.queue e = []) ∧ s.st.hold = .none ∧ s.st.pend = none ∧ s.stoppedGang = false ∧ s.st.Translated ∧
    (∀ v ∈ s.others, v.place.gang ≠ 0) ∧ ({ u with st := { u.st with life := .gone } } : State).Settled := by
  refine ⟨rfl, fun e => Strand.queue_of_empty rfl e, rfl, rfl, rfl, fun x hx => (by cases hx), fun v hv => (by cases hv), ?_⟩
  unfold State.Settled
  decide +kernel

/-- The packet of an order that is over has no operator left. -/
theorem witness_order_end : let s := gangOf1 false 0 .active
    ∃ p, s.front.packets.find? (fun p => p.order == some gangOrder.id) = some p ∧ gangOrder.err = none ∧ p.dead = false ∧ p.kind ≠ 5 ∧
      p.ops.length ≤ p.nextOp ∧ (s.closeWindowsOf gangOrder.id).front.packets.find? (fun p => p.order == some gangOrder.id) = some p :=
  ⟨_, rfl, rfl, rfl, by decide +kernel, by decide, rfl⟩

/-! A queue that is enabled, disabled or halted, and the next packet of one that runs. -/

/-- The queue in another state. -/
def requeue (s : State) (f : QueueRec → QueueRec) : State := s.setQueue 1 0 (f (s.queue 1 0))

theorem witness_enable :
    (let s := requeue (frontRig 0 0) fun r => { r with state := .off, en := false }
     (s.queue 1 0).state = .off ∧ s.ctxOk 1 0 = true ∧ s.kickOk 1 0 = true ∧ s.queueWr 1 0 = (s.queue 1 0).rd) ∧
    (let s := requeue (frontRig 0 1) fun r => { r with state := .off, en := false }
     s.ctxOk 1 0 = true ∧ s.kickOk 1 0 = true ∧ s.queueWr 1 0 ≠ (s.queue 1 0).rd) ∧
    (let s := requeue (frontRig 0 1) fun r => { r with barred := true }
     (s.queue 1 0).state = .running ∧ (s.queue 1 0).barred = true ∧ s.ctxOk 1 0 = true ∧ s.kickOk 1 0 = true) ∧
    (let s := requeue (frontRig 0 1) fun r => { r with state := .off, ctx := 1 }
     (s.queue 1 0).state ≠ .running ∧ s.ctxOk 1 0 = false) ∧
    (let s := requeue (frontRig 0 1) fun r => { r with state := .off, kickpa := 0 }
     (s.queue 1 0).state ≠ .running ∧ s.kickOk 1 0 = false) ∧
    ((frontRig 0 17).queueReads 1 0 = true ∧ 2 ^ ((frontRig 0 17).queue 1 0).logn < ((frontRig 0 17).queueWr 1 0 - 1).toNat) ∧
    (let s := requeue (frontRig 0 1) fun r => { r with ctx := 1 }
     s.queueReads 1 0 = true ∧ s.packetsOf 1 0 = [] ∧ s.queueWr 1 0 ≠ (s.queue 1 0).rd ∧
       (s.queueWr 1 0 - (s.queue 1 0).rd).toNat ≤ 2 ^ (s.queue 1 0).logn ∧ s.ctxOk 1 0 = false) := by
  decide +kernel

theorem nextIs {s : State} {x : Nat} (n : Nat) (h : (s.queueReads 1 0 && (s.packetsOf 1 0).isEmpty && s.ctxOk 1 0 &&
    decide (s.queue 1 0 = frontQueue ∧ 1 ≤ n ∧ bits x 8 8 ≤ n ∧ n ≤ 16 ∧ s.queueWr 1 0 - 1 = BitVec.ofNat 32 n) &&
    (headerReason 4 x).isNone && decide (x < 2 ^ 512) && frontMapsB s 1 0 0x110040 .read (front17 0x110040) &&
    s.peekNat .device 0x10040 64 == x) = true) : s.NextIs 1 0 x := by
  simp only [Bool.and_eq_true, decide_eq_true_eq, beq_iff_eq, Option.isNone_iff_eq_none, List.isEmpty_iff] at h
  obtain ⟨⟨⟨⟨⟨⟨⟨h1, h0⟩, h2⟩, hq, h3, h4, h5, h6⟩, h7⟩, h8⟩, h9⟩, h10⟩ := h
  have hn : (s.queueWr 1 0 - (s.queue 1 0).rd).toNat = n := by
    rw [hq]
    show (s.queueWr 1 0 - 1).toNat = n
    rw [h6]
    exact Nat.mod_eq_of_lt (by omega)
  unfold State.NextIs
  simp only [hn]
  refine ⟨h1, h0, h3, h4, ?_, h2, ?_, ?_⟩
  · rw [hq]
    exact h5
  · rw [hq]
    exact ⟨by decide, by decide, by decide, _, frontMaps h9, h10⟩
  · rw [hq]
    exact h7

/-- A no-op, a docket of one operator, a fence, a signal, a wait and a step: header words of one unit, and of two. -/
def header (kind len : Nat) (args : List Nat) : Nat :=
  natOfBytes (bytesOfNat 8 (kind + 256 * len) ++ bytesOfNat 8 77 ++ (args.map (bytesOfNat 8)).flatten)

theorem witness_next : (frontRig (header 0 1 []) 1).NextIs 1 0 (header 0 1 []) ∧ (frontRig (header 1 2 []) 2).NextIs 1 0 (header 1 2 []) ∧
    (frontRig (header 2 1 []) 1).NextIs 1 0 (header 2 1 []) ∧
    (frontRig (header 3 1 [0x118000, 5]) 1).NextIs 1 0 (header 3 1 [0x118000, 5]) ∧
    (frontRig (header 4 1 [0x118000]) 1).NextIs 1 0 (header 4 1 [0x118000]) ∧
    (frontRig (header 5 1 [0x150400, 0x119000, 2 ^ 33 + 1, 0x11A000]) 1).NextIs 1 0 (header 5 1 [0x150400, 0x119000, 2 ^ 33 + 1, 0x11A000]) :=
  ⟨nextIs 1 (by decide +kernel), nextIs 2 (by decide +kernel), nextIs 1 (by decide +kernel), nextIs 1 (by decide +kernel),
    nextIs 1 (by decide +kernel), nextIs 1 (by decide +kernel)⟩

/-- An operator record of one gang of one member, the table of a batch step of one slot, and a page of slice memory. -/
def operator : Nat := 0x100000 + 2 ^ 64 + 2 ^ 96 + 2 ^ 112 + 2 ^ 128 + 2 ^ 136 + 2 ^ 160
def seqHead : Nat := 1 + 2 ^ 32 + 256 * 2 ^ 128
def slicePage : Nat × Nat × Nat := (0x600A8, 8, sliceBase + 0x333)

/-- A docket of one sound operator, and one whose operator has no member. -/
theorem witness_docket : let s := frontRig (header 1 2 []) 2 [(0x10080, 64, operator)]
    s.NextIs 1 0 (header 1 2 []) ∧ s.FrontReads 1 0 ((s.queue 1 0).unitVa ((s.queue 1 0).rd + 1)) 64 operator ∧
    opBad false (s.mostTiles 0) 2 operator = false ∧ (opOf operator).grant = 0 ∧ (opOf operator).total ≠ 0 ∧ s.Settled ∧
    opBad false (s.mostTiles 0) 2 (operator - 2 ^ 128) = true := by
  refine ⟨nextIs 2 (by decide +kernel), frontReads (by decide +kernel), by decide +kernel, by decide, by decide, ?_, by decide +kernel⟩
  unfold State.Settled
  decide +kernel

/-- A fence that writes 8 bytes, a signal, and a wait that is met. -/
theorem witness_fence_signal_wait :
    (let s := (frontRig 0 1).addPacket (packetRun 1 0 1 (header 2 1 [0x118000, 5]) [])
     ∃ p, s.packetsOf 1 0 = [p] ∧ p.kind = 2 ∧ p.done = false ∧ p.armed = false ∧ p.arg 0 = 0x118000 ∧ p.arg 1 = 5 ∧
       ∃ t, s.FrontWrites 1 0 0x118000 .write (bytesOfNat 8 5) t) ∧
    (let x := header 3 1 [0x118000, 5]
     let s := (frontRig x 1).addPacket (packetRun 1 0 1 x [])
     s.FrontMaps 1 0 (bits x 128 64) .write (front17 0x118000) ∧ s.FrontMaps 1 0 (bits x 128 64) .bank (front17 0x118000)) ∧
    (let x := header 4 1 [0x118000]
     ((frontRig x 1).addPacket (packetRun 1 0 1 x [])).FrontMaps 1 0 (bits x 128 64) .read (front17 0x118000)) ∧
    (let q := { packetRun 1 0 1 (header 4 1 [0x118000]) [] with armed := true }
     let b : BankWait := ⟨frontGang, 64, 1, 0x118000, 0, 1, 0x18000, 8, 0, 0, 0, true⟩
     let s : State := { (frontRig 0 1).addPacket q with bankWaits := [b] }
     s.packetsOf 1 0 = [q] ∧ q.kind = 4 ∧ q.done = false ∧ s.bankWaits.find? (fun b => b.isPacket q) = some b ∧ b.hit = true) :=
  ⟨⟨_, rfl, by decide +kernel, rfl, rfl, by decide +kernel, by decide +kernel, frontWrites (by decide +kernel)⟩,
    ⟨frontMaps (by decide +kernel), frontMaps (by decide +kernel)⟩, frontMaps (by decide +kernel), rfl, by decide +kernel, rfl,
    by decide +kernel, rfl⟩

/-- Where an address of the page of slice memory lies. -/
def slice21 (va : Nat) : Mapped := ⟨sliceBase + (va - 0x150000), sliceBase + (va - 0x150000), false, 1, 0, 0x160000 - va⟩
def stepHeader : Nat := header 5 1 [0x150400, 0x119000, 2 ^ 33 + 1, 0x11A000]
def stepRig : State := frontRig stepHeader 1 [(0x19000, 64, operator + 2 ^ 176), slicePage, (sliceBase + 0x400, 64, seqHead)]

theorem stepReads {s : State} {va n x : Nat} (h : (decide (1 ≤ n ∧ va % 64 + n ≤ 64 ∧ va < 2 ^ 64) &&
    frontMapsB s 1 0 va .read (slice21 va) && s.peekNat .device (slice21 va).pa n == x) = true) : s.FrontReads 1 0 va n x := by
  simp only [Bool.and_eq_true, decide_eq_true_eq, beq_iff_eq] at h
  obtain ⟨⟨⟨h1, h2, h3⟩, h4⟩, h5⟩ := h
  exact ⟨h1, h2, h3, _, frontMaps h4, h5⟩

/-- Pieces in slice memory. -/
def inSlice (ls : List (Located × Nat)) : Bool := ls.all fun a => decide (sliceBase ≤ a.1.m.pa ∧ a.1.m.pa < sliceBase + sliceBytes)

theorem in_slice {ls : List (Located × Nat)} (h : (!ls.isEmpty && inSlice ls) = true) :
    ls ≠ [] ∧ ∀ a ∈ ls, sliceBase ≤ a.1.m.pa ∧ a.1.m.pa < sliceBase + sliceBytes := by
  simp only [inSlice, Bool.and_eq_true, Bool.not_eq_true', List.isEmpty_eq_false_iff, List.all_eq_true, decide_eq_true_eq] at h
  exact h

theorem witness_batch_step : stepRig.NextIs 1 0 stepHeader ∧ stepRig.FrontReads 1 0 0x150400 64 seqHead ∧ (SeqHead.mk seqHead).legal = true ∧
    (let u := stepRig.frontOf 1 0
     ∃ head l whole, frontLocate 0x150400 64 .write u = .ok head u ∧ frontLocate 0x150400 96 .write u = .ok (l :: whole) u ∧ head ≠ [] ∧
       ∀ a ∈ head ++ l :: whole, sliceBase ≤ a.1.m.pa ∧ a.1.m.pa < sliceBase + sliceBytes) ∧
    stepRig.FrontReads 1 0 0x119000 64 (operator + 2 ^ 176) ∧ opBad true (stepRig.mostTiles 0) 2 (operator + 2 ^ 176) = false := by
  refine ⟨nextIs 1 (by decide +kernel), stepReads (by decide +kernel), by decide +kernel, ?_, frontReads (by decide +kernel),
    by decide +kernel⟩
  obtain ⟨head, h1, p1⟩ := frontLocated (s := stepRig.frontOf 1 0) (va := 0x150400) (n := 64) (acc := .write)
    (P := fun ls => !ls.isEmpty && inSlice ls) (by decide +kernel)
  obtain ⟨whole, h2, p2⟩ := frontLocated (s := stepRig.frontOf 1 0) (va := 0x150400) (n := 96) (acc := .write)
    (P := fun ls => !ls.isEmpty && inSlice ls) (by decide +kernel)
  obtain ⟨n1, a1⟩ := in_slice p1
  obtain ⟨n2, a2⟩ := in_slice p2
  obtain ⟨l, rest, rfl⟩ := List.exists_cons_of_ne_nil n2
  exact ⟨head, l, rest, h1, h2, n1, fun a ha => (List.mem_append.mp ha).elim (a1 a) (a2 a)⟩

/-- A step whose one slot is live; its block table at 0x11_B000 has no position, and its stop record says that its sequence is over,
or goes on. -/
def liveHead : Nat := 1 + 2 ^ 16 + 4 * 2 ^ 32 + 0x11B000 * 2 ^ 64 + 256 * 2 ^ 128 + 0x11C000 * 2 ^ 192 + 2 ^ 384
def liveRun : PacketRun := { packetRun 1 0 1 stepHeader [opOf operator] with nextOp := 1, inStep := true }
def liveRig (fin : Nat) : State :=
  let s := frontRig stepHeader 1 [slicePage, (sliceBase + 0x400, 64, liveHead), (sliceBase + 0x440, 8, 5), (sliceBase + 0x458, 8, 2 ^ 32),
    (0x1B000, 128, newHeader 1 4 0 0), (0x1C000, 64, fin * 2 ^ 72 + 7)]
  { s.addPacket liveRun with parts := assocPut s.parts 0 { s.part 0 with pools := [(1, kvPool)] } }

/-- What `k.ret` of the slot's table leaves. -/
def returned : State :=
  match performKRet (deskEntry (.kRet 0 false) 0x11B000 0 0 0) ((liveRig 1).frontOf 1 0) with
  | .ok _ t => { t with st := (liveRig 1).st, others := (liveRig 1).others }
  | .error _ t => t

theorem returns {e : Entry} {s : State} (h : okB (performKRet e (s.frontOf 1 0)) (fun _ t =>
      ({ t with st := s.st, others := s.others } : State).frontPlace 1 0 == s.frontPlace 1 0) = true) :
    performKRet e (s.frontOf 1 0) = .ok () (State.frontOf (match performKRet e (s.frontOf 1 0) with
      | .ok _ t => { t with st := s.st, others := s.others }
      | .error _ t => t) 1 0) := by
  obtain ⟨_, t, ht, hp⟩ := of_okB h
  obtain ⟨ho, hs⟩ := performKRet_keeps e _ _ _ ht
  have hs : t.st = Strand.fresh (s.frontPlace 1 0) := hs rfl
  have ho : t.others = s.st :: s.others := ho
  rw [ht]
  simp only [State.frontOf]
  rw [eq_of_beq hp, ← hs, ← ho]

theorem live_world : ((liveRig 1).frontPlace 1 0).world = 0 := by decide +kernel

theorem live_returned : performKRet (deskEntry (.kRet 0 false) 0x11B000 0 0 ((liveRig 1).frontPlace 1 0).world) ((liveRig 1).frontOf 1 0) =
    .ok () (returned.frontOf 1 0) := by
  rw [live_world]
  exact returns (by decide +kernel)

theorem live_slot {j n : Nat} (h : j < n) (hn : n = 1) : j = 0 := by omega

theorem witness_retirement_ends :
    let s := liveRig 1
    let p := liveRun
    let d := s.frontOf 1 0
    let v := returned.pushCq ⟨1, 0, 4, p.pos, [BitVec.ofNat 64 5, BitVec.ofNat 64 (bits (2 ^ 72 + 7) 73 3 * 2 ^ 32 + bits (2 ^ 72 + 7) 0 32),
      BitVec.ofNat 64 (bits (2 ^ 72 + 7) 96 32)], p.irq, false⟩
    s.packetsOf 1 0 = [p] ∧ p.kind = 5 ∧ p.done = false ∧ p.dead = false ∧ p.inStep = true ∧ p.order = none ∧ p.ops.length ≤ p.nextOp ∧
    p.failed = false ∧ s.frontActs 1 = true ∧ p.arg 0 = 0x150400 ∧ s.FrontReads 1 0 0x150400 64 liveHead ∧ (SeqHead.mk liveHead).nslot = 1 ∧
    s.FrontReads 1 0 (slotVa 0x150400 0 + 24) 8 (2 ^ 32) ∧ s.FrontReads 1 0 ((SeqHead.mk liveHead).stopVa 0) 64 (2 ^ 72 + 7) ∧
    s.FrontReads 1 0 (slotVa 0x150400 0) 8 5 ∧ (SeqHead.mk liveHead).tableVa 0 = 0x11B000 ∧
    performKRet (deskEntry (.kRet 0 false) 0x11B000 0 0 (s.frontPlace 1 0).world) d = .ok () (returned.frontOf 1 0) ∧
    v.FrontReads 1 0 0x150400 64 liveHead ∧
    ∃ l c, frontLocate (slotVa 0x150400 0 + 28) 4 .write d = .ok [(l, 4)] d ∧ frontLocate (0x150400 + 48) 4 .write d = .ok [(c, 4)] d ∧
      l.use (v.frontOf 1 0) = .ok () (v.frontOf 1 0) ∧
      let w := v.writeHome l.m.pa (bytesOfNat 4 0)
      c.use (w.frontOf 1 0) = .ok () (w.frontOf 1 0) := by
  refine ⟨rfl, by decide +kernel, rfl, rfl, rfl, rfl, by decide +kernel, rfl, by decide +kernel, by decide +kernel, stepReads (by decide +kernel),
    by decide +kernel, stepReads (by decide +kernel), frontReads (by decide +kernel), stepReads (by decide +kernel), by decide +kernel,
    live_returned, stepReads (by decide +kernel), ?_⟩
  obtain ⟨ls, h1, p1⟩ := frontLocated (s := (liveRig 1).frontOf 1 0) (va := slotVa 0x150400 0 + 28) (n := 4) (acc := .write)
    (P := fun ls => match ls with
      | [(l, n)] =>
        let v := returned.pushCq ⟨1, 0, 4, liveRun.pos, [BitVec.ofNat 64 5, BitVec.ofNat 64 (bits (2 ^ 72 + 7) 73 3 * 2 ^ 32 + bits (2 ^ 72 + 7) 0 32),
          BitVec.ofNat 64 (bits (2 ^ 72 + 7) 96 32)], liveRun.irq, false⟩
        n == 4 && usesB (v.frontOf 1 0) l && okB (frontLocate (0x150400 + 48) 4 .write ((liveRig 1).frontOf 1 0)) fun ls _ => match ls with
          | [(c, n)] => n == 4 && usesB ((v.writeHome l.m.pa (bytesOfNat 4 0)).frontOf 1 0) c
          | _ => false
      | _ => false) (by decide +kernel)
  obtain _ | ⟨⟨l, n⟩, _ | _⟩ := ls
  · cases p1
  · simp only [Bool.and_eq_true, beq_iff_eq] at p1
    obtain ⟨⟨rfl, p2⟩, p3⟩ := p1
    obtain ⟨ls, h2, p4⟩ := frontLocated (P := fun ls => match ls with
      | [(c, n)] => n == 4 && usesB _ c
      | _ => false) p3
    obtain _ | ⟨⟨c, m⟩, _ | _⟩ := ls
    · cases p4
    · simp only [Bool.and_eq_true, beq_iff_eq] at p4
      obtain ⟨rfl, p5⟩ := p4
      exact ⟨l, c, h1, h2, uses p2, uses p5⟩
    · cases p4
  · cases p1

/-- A live slot whose sequence goes on. -/
theorem witness_retirement_goes_on : let s := liveRig 0
    s.packetsOf 1 0 = [liveRun] ∧ s.frontActs 1 = true ∧ s.FrontReads 1 0 0x150400 64 liveHead ∧
    s.FrontReads 1 0 (slotVa 0x150400 0 + 24) 8 (2 ^ 32) ∧ bits (2 ^ 32) 32 2 = 1 ∧
    s.FrontReads 1 0 ((SeqHead.mk liveHead).stopVa 0) 64 7 ∧ bit 7 72 = false :=
  ⟨rfl, by decide +kernel, stepReads (by decide +kernel), stepReads (by decide +kernel), by decide, frontReads (by decide +kernel), by decide⟩

/-- The step has run once of its two, and is at a boundary, or is over; or its operators have ended, and its slot is not live. -/
def stepRun : PacketRun := { packetRun 1 0 1 stepHeader [opOf operator] with stepNo := 1, nextOp := 1 }
theorem witness_boundary : let s := stepRig.addPacket stepRun
    (∃ t, s.frontRun 1 0 (boundary stepRun) = (.done true, t)) ∧ s.packetsOf 1 0 = [stepRun] ∧ stepRun.kind = 5 ∧
    stepRun.done = false ∧ stepRun.dead = false ∧ stepRun.inStep = false ∧ stepRun.armed = false ∧
    stepRun.arg 2 / 2 ^ 32 = 2 ∧ stepRun.stepNo < 2 ∧ 2 ≤ ({ stepRun with stepNo := 2 } : PacketRun).stepNo ∧
    s.FrontReads 1 0 (stepRun.arg 0) 64 seqHead ∧
    s.FrontReads 1 0 (slotVa (stepRun.arg 0) 0 + 24) 8 0 ∧ (SeqHead.mk seqHead).nslot = 1 := by
  refine ⟨?_, rfl, by decide +kernel, rfl, rfl, rfl, rfl, by decide +kernel, by decide +kernel, by decide, stepReads (by decide +kernel),
    stepReads (by decide +kernel), by decide +kernel⟩
  have h : (match ((stepRig.addPacket stepRun).frontRun 1 0 (boundary stepRun)).1 with | .done b => b | _ => false) = true := by
    decide +kernel
  generalize hr : (stepRig.addPacket stepRun).frontRun 1 0 (boundary stepRun) = r at h ⊢
  obtain ⟨a, t⟩ := r
  cases a
  · rename_i b
    cases b
    · cases h
    · exact ⟨t, rfl⟩
  all_goals cases h

/-- A completion record that waits, its ring with room, and full. -/
theorem witness_completion :
    (let c : PendCq := ⟨1, 0, 6, 1, [77], false, false⟩
     let s := frontRig 0 1
     let u : State := { s with front := { s.front with cqWait := [c] } }
     u.front.cqWait.find? (fun c => c.fn == 1 && c.queue == 0) = some c ∧
       ((u.queue 1 0).cqtail - (u.queue 1 0).cqhead).toNat < 2 ^ (u.queue 1 0).cqlogn ∧ u.frontActs 1 = true ∧
       ∃ t, u.FrontWrites 1 0 0x114000 .write (bytesOfNat 8 (2 ^ 63 + 6 * 2 ^ 48 + 1) ++
         (genFrom 15 0 fun i => bytesOfNat 8 (c.body.getD i 0).toNat).flatten) t) ∧
    (let s := requeue (frontRig 0 1) fun r => { r with cqtail := 16 }
     2 ^ (s.queue 1 0).cqlogn ≤ ((s.queue 1 0).cqtail - (s.queue 1 0).cqhead).toNat) :=
  ⟨⟨rfl, by decide +kernel, by decide +kernel, frontWrites (by decide +kernel)⟩, by decide +kernel⟩

/-- A kick of a queue that is off, of one that has no unit, of one whose next packet is there, and of one that holds the first unit of
two. -/
theorem witness_kicks :
    (requeue (frontRig 0 0) fun r => { r with state := .off, en := false }).queueReads 1 0 = false ∧
    ((frontRig 0 0).queueReads 1 0 = true ∧ (frontRig 0 0).packetsOf 1 0 = [] ∧
      (frontRig 0 0).queueWr 1 0 = ((frontRig 0 0).queue 1 0).rd) ∧
    ((frontRig (header 0 1 []) 1).seeing 1 0).NextIs 1 0 (header 0 1 []) ∧
    (let s := frontRig (header 1 2 []) 1
     s.queueReads 1 0 = true ∧ s.packetsOf 1 0 = [] ∧ (s.queueWr 1 0 - (s.queue 1 0).rd).toNat < bits (header 1 2 []) 8 8 ∧
       s.ctxOk 1 0 = true ∧ (s.seeing 1 0).FrontReads 1 0 0x110040 64 (header 1 2 [])) :=
  ⟨by decide +kernel, ⟨by decide +kernel, rfl, by decide +kernel⟩, nextIs 1 (by decide +kernel),
    by decide +kernel, rfl, by decide +kernel, by decide +kernel, frontReads (by decide +kernel)⟩

/-- A kick that finds a packet of a reserved kind. -/
theorem witness_kick : let s := frontRig (header 9 1 []) 1
    let u : State := { s with front := { s.front with seen := assocPut s.front.seen 64 (s.queueWr 1 0) } }
    u.queueReads 1 0 = true ∧ s.packetsOf 1 0 = [] ∧ s.queueWr 1 0 ≠ (s.queue 1 0).rd ∧
    (s.queueWr 1 0 - (s.queue 1 0).rd).toNat ≤ 2 ^ (s.queue 1 0).logn ∧
    bits (header 9 1 []) 8 8 ≤ (s.queueWr 1 0 - (s.queue 1 0).rd).toNat ∧ s.ctxOk 1 0 = true ∧
    u.FrontReads 1 0 0x110040 64 (header 9 1 []) ∧ headerReason 4 (header 9 1 []) = some 3 :=
  ⟨by decide +kernel, rfl, by decide +kernel, by decide +kernel, by decide +kernel, by decide +kernel, frontReads (by decide +kernel), by decide +kernel⟩

/-! Translation, the Draper, the Fuller, the host link, the fabric and the service. -/

/-- Function 1 with other translation registers. -/
def transRig (f : TransRegs → TransRegs) : State := { rig with fns := [(1, { Fn.reset with en := true, trans := f TransRegs.reset })] }
def pageReq : PageReq := ⟨3, 17, 1, 0, 1, 0, 1, 0x110000, false⟩

theorem witness_requests :
    (let s := transRig fun t => { t with reqs := [pageReq], prqEn := true, prqIe := true }
     s.DueRequest 1 pageReq ∧ (s.trans 1).prqIe = true ∧ (s.trans 1).prqTail = (s.trans 1).prqHead ∧ (s.fn 0).msix = [] ∧
       (s.trans 1).prqVec < 256 ∧ (s.trans 1).reqs.find? (fun r => r.tag == 3) = some pageReq ∧ s.drapers = [] ∧
       ∀ r ∈ (s.trans 1).reqs, r.tag ≠ 4) ∧
    (let s := transRig fun t => { t with reqs := [{ pageReq with written := true }], invBusy := true, invNext := [1, 2], dbmBusy := true }
     (∀ r ∈ (s.trans 1).reqs, r.written = true) ∧ (s.trans 1).invBusy = true ∧ (∃ w rest, (s.trans 1).invNext = w :: rest) ∧
       (s.trans 1).dbmBusy = true) ∧
    pageReq.eng < 8 ∧ pageReq.ctx < 2 ^ 12 ∧ pageReq.lvl < 4 ∧ pageReq.kind < 4 ∧ pageReq.acc < 4 ∧ pageReq.tag < 2 ^ 16 ∧
    pageReq.granule < 2 ^ 48 ∧ pageReq.va < 2 ^ 64 :=
  ⟨⟨by unfold State.DueRequest; decide, by decide, by decide, rfl, by decide, rfl, rfl, by decide⟩,
    ⟨by decide, rfl, ⟨1, [2], rfl⟩, rfl⟩, by decide⟩

/-- Partition 0 with weight entries: entry 3 is one granule of 16 weights in format 4 at frame 0. -/
def weightRig (w : WeightEntry) : State := { rig with parts := assocPut rig.parts 0 { rig.part 0 with weights := [(3, w)] } }
def sound : WeightEntry := ⟨77, true, 1, 0, 0, 1, 16, 1, 4, 1⟩

theorem weight_at (w : WeightEntry) : (weightRig w).weightAt 0 3 w := rfl

/-- Of a sound entry the check says Ready; of one that is to start past memory, it refuses. -/
theorem witness_weights :
    ((weightRig { sound with en := false, st := 0 }).weightAt 0 3 { sound with en := false, st := 0 }) ∧
    (∀ x ∈ ((weightRig sound).part 0).weights, x.1 ≠ 4) ∧
    ((weightRig sound).weightAt 0 3 sound ∧ sound.st = 1 ∧ sound.legal = true ∧ sound.inside = true ∧
      (weightRig sound).framesAgree sound = true ∧ (weightRig sound).tritsOk sound = true) ∧
    ({ sound with frame := 2 ^ 23 } : WeightEntry).legal = false ∧
    ((weightRig { sound with st := 2 }).weightAt 0 3 { sound with st := 2 } ∧ (weightRig { sound with st := 2 }).drapers = []) ∧
    ((weightRig { sound with en := false, st := 2 }).weightAt 0 3 { sound with en := false, st := 2 }) :=
  ⟨weight_at _, by decide, ⟨weight_at _, rfl, by decide, by decide +kernel, by decide +kernel, by decide +kernel⟩, by decide,
    ⟨weight_at _, rfl⟩, weight_at _⟩

/-- A task of one row whose deadline has come; its pass, formed; and placed. -/
def task (st : TaskState) : DTask :=
  ⟨0, 0, 0, 0, 0, 0, 0, 0x110000, 0x110400, 0, 2, 0, 77, 0, 0, 0, 0, 2 ^ 44 + 2 ^ 33 + 16 * 2 ^ 16 + 4 * 2 ^ 8 + 4, false, [], st, 0, 0,
    [(0x1000, 0x2000)], 0, none, [], [], false⟩
def draperRig (tasks : List DTask) (passes : List DPass) : State :=
  let s := weightRig { sound with st := 2 }
  { s with
    drapers := [(0, ⟨tasks, passes, [], 1, 1⟩)]
    parts := assocPut s.parts 0 { s.part 0 with cfg := { (s.part 0).cfg with drtiles := 1 } } }

theorem witness_passes_of_tasks :
    (∃ x, (draperRig [task .ready] []).trigger 0 = some x) ∧ rowsOf [task .ready] ≤ 256 ∧
    (let s := draperRig [task .formed] [⟨0, [0], 77, 0, none, 0⟩]
     s.svc.ckptState = 0 ∧ (s.draper 0).passes.find? (fun p => p.tile.isNone) = some ⟨0, [0], 77, 0, none, 0⟩ ∧ s.region 0 77 = some { sound with st := 2 } ∧
       ∃ i b, i ∈ s.passTiles 0 0 ∧ s.tileFree 0 i = true ∧ b < 2 ∧ s.bankBusy (boltKey 0 i b) = false) ∧
    ∃ p, ((draperRig [task .running] [⟨0, [0], 77, 0, some 127, 0⟩]).draper 0).passes.find? (fun p => p.tile.isSome) = some p := by
  have h : 127 ∈ (draperRig [task .formed] [⟨0, [0], 77, 0, none, 0⟩]).passTiles 0 0 := by decide +kernel
  exact ⟨⟨_, by rfl⟩, by decide, ⟨rfl, rfl, rfl, 127, 0, h, by decide +kernel, by decide, by decide +kernel⟩, _, rfl⟩

/-- A task of one row of one activation and one column, whose pass runs. -/
def rowTask : DTask := { task .running with img := 2 ^ 33 + 2 ^ 16 + 4 * 2 ^ 8, rows := [(0x111000, 0x112000)], doneVa := 0x110600 }
def rowRig : State :=
  let s := draperRig [rowTask] [⟨0, [0], 77, 0, some 127, 0⟩]
  { s with bolts := [(boltKey 0 127 0, ⟨[(0, ⟨4, #[], []⟩)], 77⟩)] }

/-- A unit's access by a walk of one stage that notes nothing. -/
def unitMapsB (s : State) (slot va : Nat) (acc : AccessKind) (m : Mapped) : Bool :=
  let c := s.ctx slot
  !s.twoStage c && !s.poison.contains (m.pa / 64) && (s.frameAt m.pa).sealMode != 2 && match s.translate [] c va acc with
    | .ok x => (!acc.writes || !s.weightFrame x.pa) && (x.cached 7 slot va c.fn c.world false).mapped va == m && x.agrees && !x.two &&
        (x.visited.all fun v => bit (s.mem.readNat v.pa 8) 8 && (!v.leaf || bit (s.mem.readNat v.pa 8) 9))
    | .error _ => false

theorem unitMaps {s : State} {slot va : Nat} {acc : AccessKind} {m : Mapped} (h : unitMapsB s slot va acc m = true) :
    s.UnitMaps slot va acc m := by
  simp only [unitMapsB, Bool.and_eq_true, Bool.not_eq_true', bne_iff_ne] at h
  obtain ⟨⟨⟨h0, h1⟩, h2⟩, h3⟩ := h
  refine ⟨fun _ => ⟨h1, h2⟩, fun ds => ?_⟩
  split at h3
  · rename_i x hx
    simp only [Bool.and_eq_true, beq_iff_eq, Bool.not_eq_true', List.all_eq_true, Bool.or_eq_true] at h3
    obtain ⟨⟨⟨⟨h4, h5⟩, h6⟩, h7⟩, h8⟩ := h3
    have ht := State.translate_drapers s ds (s.ctx slot) va acc h0
    rw [hx] at ht
    have hc : ({ s with drapers := ds } : State).ctx slot = s.ctx slot := rfl
    have hw : (acc.writes && ({ s with drapers := ds } : State).weightFrame x.pa) = false := by
      rcases h4 with h | h
      · rw [h]; rfl
      · show (acc.writes && s.weightFrame x.pa) = false
        rw [h, Bool.and_false]
    have hu := State.markUsed_set { s with drapers := ds } x acc.writes h7 fun v hv => ⟨(h8 v hv).1, fun hl => by simpa [hl] using (h8 v hv).2⟩
    generalize hs' : ({ s with drapers := ds } : State) = s' at *
    simp [unitMap, unitLocate, Located.sealed, unitUse, hc, ht, h6, h5]
    rw [if_neg fun h => by simp [h.1, h.2] at hw]
    simp [h7, hu]
  · cases h3


theorem only_zero {k : Nat} (h : k < 1) : k = 0 := Nat.lt_one_iff.mp h

/-- What its row adds up to, and what its column becomes. -/
def rowBolt : BoltBank := rowRig.bolt (boltKey 0 127 0)
def rowAct : Fp × Flags := (fmtOf 0).exact (rowRig.peekNat rowTask.who 0x11000 4) 0
def rowWeight (i col : Nat) : Fp × Flags := rowBolt.weight (shapeWdesc rowTask.img) 0 i col
def rowSums : List (Elem × Flags) :=
  passRow (fmtOf (shapeWdesc rowTask.img)).tri (genFrom (shapeK rowTask.img) 0 fun _ => rowAct.1) (fun i col => (rowWeight i col).1) fun _ => 0
def rowEpi (c : Nat) : Elem × Flags :=
  epiElem (shapeInt rowTask.img) none none (shapeAct rowTask.img) ((rowSums.map Prod.fst).getD c 0)
def rowOut (c : Nat) : Nat × Flags := (fmtOf 0).encode 0 0 (fpOf (rowEpi c).1)
def rowLeft : State := rowRig.putElems 4 (fun _ => at17 0x112000) (fun c => (rowOut c).1) 1

theorem row_exact : rowAct.2 = 0 ∧ (∀ c < 64, (rowWeight 0 c).2 = 0) ∧ rowSums.map Prod.snd = List.replicate 64 0 ∧
    (rowEpi 0).2 = 0 ∧ (rowOut 0).2 = 0 := by decide +kernel

theorem recordEnds {s : State} {t : DTask} {status : Nat} {m : Nat → Mapped} (h1 : s.UnitMaps t.slot (t.recVa + 40) .write (m 0))
    (h0 : t.doneVa ≠ 0) (h2 : t.doneVa % 8 = 0 ∧ (s.writeHomeNat (m 0).pa 8 status).UnitMaps t.slot t.doneVa .bank (m 1)) (x y : State)
    (hx : x = s.writeHomeNat (m 0).pa 8 status) (hy : y = x.writeHomeNat (m 1).pa 8 ((x.mem.readNat (m 1).pa 8 + 1) % 2 ^ 64))
    (h3 : t.ring % 64 = 0 ∧ y.UnitMaps t.slot (t.ring + 20) .read (m 2) ∧ y.UnitMaps t.slot (t.ring + 20) .bank (m 3) ∧
        y.peekNat t.who (m 2).pa 4 = t.unit.toNat) :
    s.RecordEnds (y.writeHomeNat (m 3).pa 4 ((y.mem.readNat (m 3).pa 4 + t.len) % 2 ^ 32)) t status m := by
  constructor
  · exact h1
  · exact fun _ => h2
  · dsimp only
    rw [if_neg h0, ← hx, ← hy]
    exact ⟨h3.1, h3.2.1, h3.2.2.1, h3.2.2.2, Eq.refl _⟩

/-- Its row and its record go through. -/
theorem witness_row :
    (rowRig.draper 0).passes.find? (fun p => p.tile.isSome) = some ⟨0, [0], 77, 0, some 127, 0⟩ ∧ rowRig.svc.ckptState = 0 ∧
    (rowRig.draper 0).tasks.find? (fun t => t.id == 0) = some rowTask ∧ rowTask.rows = [(0x111000, 0x112000)] ∧ rowTask.fail = none ∧
    rowTask.lost = false ∧ rowTask.parked = [] ∧ rowTask.parking = [] ∧ (∀ d ∈ rowRig.drapers, d.2.ended = []) ∧
    shapeK rowTask.img = 1 ∧ shapeNcol rowTask.img = 1 ∧
    rowRig.RowRuns rowTask 0x111000 0x112000 0 (fun _ => at17 0x111000) (fun _ => at17 0x112000) (fun _ => at17 0x112000) (fun c => (rowOut c).1) ∧
    (∀ i : Nat, (0 : Flags).getLsbD i = true ↔ rowTask.flags.getLsbD i = true ∨ (∃ j, j < 1 ∧ rowAct.2.getLsbD i = true) ∨
      (∃ j col, j < 1 ∧ col < 64 ∧ (rowWeight j col).2.getLsbD i = true) ∨ (∃ y ∈ rowSums, y.2.getLsbD i = true) ∨
      ∃ c, c < 1 ∧ ((rowEpi c).2.getLsbD i = true ∨ (rowOut c).2.getLsbD i = true)) ∧
    ∃ u m, rowLeft.RecordEnds u rowTask (statusOf 1 0 0 0 0) m := by
  refine ⟨by decide +kernel, rfl, by decide +kernel, rfl, rfl, rfl, rfl, rfl, by decide +kernel, by decide +kernel, by decide +kernel,
    ⟨by unfold ByteFormat; decide +kernel, by decide +kernel, fun k hk => ?_, fun c hc => ?_, fun c hc => ?_⟩, fun i => ?_, ?_⟩
  · obtain rfl := only_zero hk
    exact ⟨by decide +kernel, unitMaps (by decide +kernel)⟩
  · obtain rfl := only_zero hc
    exact ⟨by decide +kernel, by decide +kernel, unitMaps (by decide +kernel), unitMaps (by decide +kernel)⟩
  · obtain rfl := only_zero hc
    exact unitMaps (by decide +kernel)
  · obtain ⟨h1, h2, h3, h4, h5⟩ := row_exact
    have h0 : rowTask.flags = 0 := rfl
    refine ⟨fun h => by simp at h, ?_⟩
    rintro (h | ⟨j, -, h⟩ | ⟨j, col, hj, hc, h⟩ | ⟨y, hy, h⟩ | ⟨c, hc, h | h⟩)
    · simp [h0] at h
    · simp [h1] at h
    · obtain rfl := only_zero hj
      simp [h2 col hc] at h
    · have := List.mem_map_of_mem (f := Prod.snd) hy
      rw [h3] at this
      simp [(List.mem_replicate.mp this).2] at h
    · obtain rfl := only_zero hc
      simp [h4] at h
    · obtain rfl := only_zero hc
      simp [h5] at h
  · exact ⟨_, fun i => if i = 0 then at17 0x110428 else if i = 1 then at17 0x110600 else at17 0x110014,
      recordEnds (unitMaps (by decide +kernel)) (by decide) ⟨by decide, unitMaps (by decide +kernel)⟩ _ _ rfl rfl
        ⟨by decide, unitMaps (by decide +kernel), unitMaps (by decide +kernel), by decide +kernel⟩⟩

/-- Frame 9 and block 0 of pool 1 wait for their scrub, or are scrubbed. -/
def scrubRig (waits : Bool) : State :=
  let run := if waits then [(9, 12)] else []
  let now := if waits then [] else [(9, 12)]
  let pool := { Pool.clear with
    en := true, base := 0, bsz := 0, fmtd := 4, nblk := 8, v := 16, toScrub := if waits then [(0, 1)] else [],
    scrubbing := if waits then [] else [(0, 1)] }
  { rig with parts := assocPut rig.parts 0 { rig.part 0 with toScrub := run, scrubbing := now, pools := [(1, pool)] } }

theorem witness_scrub :
    (let s := scrubRig true
     RunsOk (s.pool 0 1).scrubbing ∧ (s.pool 0 1).toScrub = [(0, 1)] ∧ RunsOk (s.part 0).scrubbing ∧
       (s.part 0).toScrub = [(9, 12)]) ∧
    (let s := scrubRig false
     s.Wf ∧ RunsOk (s.part 0).scrubbed ∧ (s.part 0).scrubbing = [(9, 12)] ∧ (frameOf s.frames 9).kgen < 0xFFFF ∧ 9 ∉ s.withdrawn ∧
       s.badLines = [] ∧ RunsOk (s.pool 0 1).scrubbed ∧ (s.pool 0 1).scrubbing = [(0, 1)] ∧ (s.pool 0 1).sealMode = 0) ∧
    (let s : State := { scrubRig false with withdrawn := [9] }
     9 ∈ s.withdrawn ∧ ∃ l ∈ ({ s with badLines := [9 * 1024] } : State).badLines, 9 * 65536 ≤ l * 64 ∧ l * 64 < 9 * 65536 + 65536) := by
  unfold RunsOk State.Wf
  decide +kernel

/-- A host's access of frame 1, of the frame table, of host memory's window and of none. -/
theorem witness_host :
    (rig.inWindow 0x10000 = true ∧ rig.weightFrame 0x10000 = false ∧ rig.guarded 0x10000 = none ∧ (rig.frameAt 0x10000).sealMode = 0) ∧
    (weightRig { sound with st := 2 }).weightFrame 0 = true ∧ rig.inWindow (2 ^ 60) = false ∧ rig.inWindow (2 ^ 60 + 7) = false := by
  decide +kernel

/-- A unit for gang 0 of an order that receives with key 7; the entry signals nothing, or barrier 1. -/
def recvRig (flag : Nat) : State :=
  let op : OpRec := ⟨0x100000, 1, 1, 1, false, 0, 0, 1, 1, 0, 0, 0⟩
  let s := alter rig fun t => t.setBar 1 { t.bar 1 with expect := 1, mask := 1, pending := 64 }
  { s with front := { s.front with
      orders := [⟨0, 1, 0, 0, 0, 0, op, 1, none, [⟨7, 1, flag, 0, 0xFFF, 2, 0, 64, 128⟩]⟩]
      gangs := [⟨0, 0, 0, 0, 0, 1, 0, [], false, 0, none, none, false⟩] } }
def unitIn : PeerUnit := ⟨9, (0, 0, 0), 0xFFF, 0, 7, 0, 0, 16, 0, List.replicate 16 1⟩

theorem witness_receive :
    (∃ o g x t, (recvRig 0).Receives unitIn o g x t ∧ g.flag = 0) ∧
    (∃ o g x t b, (recvRig 2).Receives unitIn o g x t ∧ g.flag = 2 ∧ (t.bar g.hg).land unitIn.data.length = some b) ∧
    (∀ o ∈ rig.front.orders, ∀ g ∈ o.grants, ¬ (g.kind = 2 ∧ g.key = 7)) ∧ rig.fabric.inbox = [] :=
  ⟨⟨_, _, _, _, ⟨.head _, rfl, rfl, .inl rfl, rfl, by decide, rfl, rfl, rfl, rfl, by decide⟩, rfl⟩,
    ⟨_, _, _, _, _, ⟨.head _, rfl, rfl, .inl rfl, rfl, by decide, rfl, rfl, rfl, rfl, by decide⟩, rfl, rfl⟩, by decide, rfl⟩

/-- The last of two chips' contributions to element 4; and a round that has closed. -/
theorem witness_window :
    (let w : FabWindow := ⟨5, 0xFFF, 2, 64, .opened, [0], false, 0, [⟨0, 0x110000, 0x10000, 0, none⟩], 0x110000, [⟨3, 4, 2, 7⟩], [], [⟨0, 8, 2, 1⟩]⟩
     let s : State := { rig with fabric := { rig.fabric with windows := [w] } }
     s.window 5 0xFFF = some w ∧ w.state = .opened ∧ w.held = [] ∧ s.fabric.chip = 0xFFF ∧
       (∀ d ∈ w.rounds, ¬ (d.e = 4 ∧ d.chip = 9)) ∧ w.ncon ≤ ((w.rounds.filter fun (d : Contribution) => d.e == 4) ++ [(⟨9, 4, 2, 1⟩ : Contribution)]).length ∧
       ((w.rounds.filter fun (d : Contribution) => d.e == 12) ++ [(⟨9, 12, 2, 1⟩ : Contribution)]).length < w.ncon ∧ w.closed = [⟨0, 8, 2, 1⟩]) ∧
    (let s : State := { weightRig { sound with st := 2 } with fabric := { rig.fabric with advEn := true, advParts := 1, advSeq := 5 } }
     s.fabric.advEn = true ∧ s.advertised = [77] ∧ s.fabric.chip < 2 ^ 12 ∧ s.fabric.advSeq < 2 ^ 64) :=
  ⟨by decide, by decide⟩

/-- An image whose signature does not verify. -/
def badImage : DecodeImage := ⟨⟨[], []⟩, Config.generation, [], []⟩
def serviceRig (f : Service → Service) : State := { rig with svc := f rig.svc }

theorem bad_image (key : BitVec 512) : badImage.signed.verifies key = false ∧ badImage.refusal key ≠ 0 := by
  have h : badImage.signed.verifies key = false := by
    unfold SignedImage.verifies xmssVerify
    rfl
  exact ⟨h, by unfold DecodeImage.refusal; rw [h]; decide⟩

/-- There is a key, and there are images that it accepts. -/
theorem witness_signed : ∃ (key : BitVec 512) (m : DecodeImage), m.signed.verifies key = true ∧ m.refusal key = 0 := by
  obtain ⟨key, h⟩ := exists_signing_key
  obtain ⟨sig, hs⟩ := h []
  refine ⟨key, ⟨⟨[], sig⟩, Config.generation, [], []⟩, hs, ?_⟩
  unfold DecodeImage.refusal
  simp [hs]

/-- A partition that is held, one that runs, and one whose configuration is refused. -/
def partRig (f : Part → Part) : State :=
  let s := serviceRig fun v => { v with image := some badImage }
  { s with parts := assocPut s.parts 0 (f (s.part 0)) }

theorem witness_partition :
    (let s := partRig id
     (s.part 0).hold = false ∧ s.Wf ∧ (∀ w ∈ s.windows, w.part ≠ 0) ∧ (s.part 0).resetting = false ∧ (s.part 0).released = true) ∧
    (let s := partRig fun p => { p with hold := true }
     s.Booted ∧ s.Wf ∧ (s.part 0).hold = true ∧ s.releaseOk 0 = true ∧ (s.part 0).cfg.en = true) ∧
    (let s := partRig fun p => { p with hold := true, cfg := { p.cfg with dies := 0 } }
     s.Booted ∧ (s.part 0).hold = true ∧ s.releaseOk 0 = false) ∧
    (let s := partRig fun p => { p with hold := true, cfg := { p.cfg with en := false } }
     s.Booted ∧ (s.part 0).hold = true ∧ s.releaseOk 0 = true ∧ (s.part 0).cfg.en = false) ∧
    (rig.fn 1).rbusy = false ∧ (rig.fn 1).en = false ∧ rig.svc.powered = true := by
  unfold State.Booted State.Wf
  decide +kernel

/-- Before its boot the device is offered firmware and an image that its keys accept, or not; and a running device an image. -/
theorem witness_boot : ∃ (key : BitVec 512) (m : DecodeImage),
    (let s : State := { serviceRig (fun v => { v with boot := 0, offered := some m, firmware := some m.signed }) with
       sealEng := { rig.sealEng with romFw := key, romDec := key } }
     s.svc.boot = 0 ∧ s.svc.powered = true ∧ (∃ i, i < 512 ∧ i ∉ s.svc.fence ∧ i ∉ ([] : List Nat)) ∧ s.svc.integ < 4 ∧
       s.svc.firmware = some m.signed ∧ m.signed.verifies s.sealEng.romFw = true ∧ s.svc.offered = some m ∧
       m.refusal s.sealEng.romDec = 0 ∧ badImage.signed.verifies s.sealEng.romFw = false ∧ badImage.refusal s.sealEng.romDec ≠ 0) ∧
    let s : State := { serviceRig (fun v => { v with offered := some m }) with sealEng := { rig.sealEng with romDec := key } }
    s.svc.offered = some m ∧ m.refusal s.sealEng.romDec = 0 ∧ ∀ u ∈ s.st :: s.others, u.matrixRuns = false := by
  obtain ⟨key, m, h1, h2⟩ := witness_signed
  exact ⟨key, m, ⟨rfl, rfl, ⟨0, by decide, (by decide : 0 ∉ rig.svc.fence), (by decide : 0 ∉ ([] : List Nat))⟩, (by decide : rig.svc.integ < 4), rfl, h1,
    rfl, h2, (bad_image key).1, (bad_image key).2⟩, rfl, h2, (by decide : ∀ u ∈ rig.st :: rig.others, u.matrixRuns = false)⟩

theorem witness_link : (({ rig with fns := [(1, { Fn.reset with locked := true })] } : State).fn 1).locked = true ∧
    privateOffset 1 0x4000 = true ∧ rig.host.violIe = false ∧ rig.host.violVec < 256 ∧ (rig.fn 1).locked = false ∧
    (romFormat 0 1).isSome = true ∧ (serviceRig fun v => { v with decodes := [(0, badImage)] }).tileImage 0 = some badImage :=
  ⟨rfl, by decide, by decide, by decide, by decide, by decide, rfl⟩

/-- A line that is sealed with integrity; a tile with an uncorrectable error, in a released partition and in none; a checkpoint
that may start, and one that runs; and a record of the Scrivener. -/
theorem witness_service :
    (let s : State := { rig with frames := putFrames rig.frames 1 2 ⟨.owned, 2, 0, 0, 0⟩ }
     1024 * 64 < dramEnd ∧ (s.frameAt (1024 * 64)).sealMode = 2) ∧
    ((serviceRig fun v => { v with powered := false }).Wf) ∧
    (let s := serviceRig fun v => { v with sramErrors := [(0, 0)] }
     (∃ e ∈ s.svc.sramErrors, e.1 = 0 ∧ s.clock - e.2 ≤ 2 ^ 36) ∧ (∀ e ∈ s.svc.sramErrors, e.1 = 1 → 2 ^ 36 < s.clock - e.2)) ∧
    (∃ p ∈ rig.parts, p.2.released = true ∧ p.2.cfg.hasTile 0 = true) ∧ (∀ p ∈ rig.parts, p.2.released = true → p.2.cfg.hasTile 511 = false) ∧
    ((serviceRig fun v => { v with ckptDst := 1 }).svc.ckptState = 0) ∧ ((serviceRig fun v => { v with ckptState := 1 }).svc.ckptState = 1) ∧
    (rig.scrivener 0 7 1 2).scriv.find? (fun r => r.seq % 4096 == 0) ≠ none := by
  unfold State.Wf
  decide +kernel

/-- A function that is paused with nothing left, one at rest and one paused; images are those that the model remembers. -/
def migRig (st : Nat) : State := { rig with fns := [(1, { Fn.reset with en := true, migState := st })] }

theorem witness_migration :
    (let s := migRig 1
     (s.fn 1).migState = 1 ∧ s.drapers = [] ∧ s.windows = [] ∧ s.regions = [] ∧
       ∃ t, s.frontRun 1 0 (pure () : M Unit) = (.done (), t)) ∧
    ((migRig 0).fn 1).rbusy = false ∧ ((migRig 0).fn 1).migState = 0 ∧ ((migRig 2).fn 1).migState = 2 ∧ (migRig 2).images = [] ∧
    ((migRig 0).setFn 1 { (migRig 0).fn 1 with migState := 3 }).imageAt ((migRig 0).fn 1) = none :=
  ⟨⟨rfl, rfl, rfl, rfl, _, rfl⟩, rfl, rfl, rfl, rfl, rfl⟩

theorem witness_registers : rig.svc.powered = true ∧ rig.svc.boot = 7 ∧ rig.readReg 0 0 < 2 ^ 64 ∧
    ((partRig fun p => { p with hold := true }).part 0).hold = true ∧ (rig.queue 1 0).state ≠ .running ∧
    ((frontRig 0 1).queue 1 0).state = .running ∧ rig.moves = [] ∧ rig.Wf ∧ rig.st.life ≠ .gone := by
  unfold State.Wf
  decide +kernel

/-! More of the premises: windows at their home, ports, advertisements, scrubs, images and registers. -/

theorem noteHeld_same {s : State} {slot va pa : Nat} (h : (match s.translate [] (s.ctx slot) va .args with
    | .ok x => !x.two && x.visited.all fun v => bit (s.mem.readNat v.pa 8) 8 && (!v.leaf || bit (s.mem.readNat v.pa 8) 9)
    | .error _ => false) = true) : s.noteHeld slot va pa = s := by
  unfold State.noteHeld
  split
  · rename_i x hx
    simp only [hx, Bool.and_eq_true, Bool.not_eq_true', List.all_eq_true, Bool.or_eq_true] at h
    split
    · exact State.markUsed_set s x true h.1 fun v hv => ⟨(h.2 v hv).1, fun hl => by simpa [hl] using (h.2 v hv).2⟩
    · rfl
  · rfl

/-- A closed round is to be applied to the last bytes of the window's page. -/
def homeRig : State :=
  let w : FabWindow := ⟨5, 0xFFF, 2, 65536, .opened, [0], false, 0, [⟨0, 0x110000, 0x10000, 0, none⟩], 0x110000, [], [], [⟨0, 0xFFFC, 2, 1⟩]⟩
  { rig with fabric := { rig.fabric with windows := [w], up := 1 } }

theorem witness_home_write : ∃ w c rest p,
    homeRig.window 5 homeRig.fabric.chip = some w ∧ w.closed = c :: rest ∧ w.held = [] ∧ homeRig.fabric.up ≠ 0 ∧
    (∀ x ∈ homeRig.fabric.past, ¬ (x.key = 5 ∧ x.home = homeRig.fabric.chip)) ∧
    w.pages[(w.base + c.e) / 65536 - w.base / 65536]? = some p ∧ homeRig.weightFrame (p.pa + (w.base + c.e) % 65536) = false ∧
    homeRig.noteHeld p.slot (w.base + c.e) (p.pa + (w.base + c.e) % 65536) = homeRig ∧ p.ipa = none := by
  refine ⟨_, _, _, _, rfl, rfl, rfl, by decide, by decide, rfl, by decide +kernel, noteHeld_same (by decide +kernel), rfl⟩

theorem witness_ports :
    rig.sealEng.leaf < leafCount ∧ leafCount ≤ ({ rig.sealEng with leaf := 2 ^ 20 } : SealEng).leaf ∧
    (let s : State := { weightRig { sound with st := 2 } with fabric := { rig.fabric with advEn := true }, clock := 2 ^ 24 }
     s.fabric.advEn = true ∧ s.fabric.advAt + 2 ^ 24 ≤ s.clock) ∧
    (let s : State := { rig with fabric := { rig.fabric with advEn := true }, clock := 2 ^ 24 - 1 }
     s.clock < s.fabric.advAt + 2 ^ 24) := by
  decide

/-- A frame, and a block, that are free to scrub; that have no key generation left; and that were withdrawn before. -/
theorem witness_scrub_starts :
    (let s := scrubRig true
     s.Wf ∧ (s.part 0).released = true ∧ s.bytesHeld (9 * 65536) 65536 = false ∧ (frameOf s.frames 9).kgen < 0xFFFF ∧ 9 ∉ s.withdrawn ∧
       (let q := s.pool 0 1
        s.bytesHeld (q.blockPa 0) q.stride = false ∧ q.sealMode = 0 ∧ s.withdrawnIn (q.blockPa 0) q.stride = false)) ∧
    (let s : State := { scrubRig true with
       frames := putFrames (scrubRig true).frames 9 10 ⟨.toScrub, 1, 0, 0, 0xFFFF⟩, withdrawnBlocks := [(0, 65536)] }
     s.bytesHeld (9 * 65536) 65536 = false ∧ (frameOf s.frames 9).sealMode ≠ 0 ∧ 0xFFFF ≤ (frameOf s.frames 9).kgen ∧
       s.withdrawnIn ((s.pool 0 1).blockPa 0) (s.pool 0 1).stride = true) := by
  unfold State.Wf
  decide +kernel

/-- A strand runs on the tile whose SRAM fails, or none does; and a node on a line's path fails. -/
theorem witness_errors :
    (rig.Distinct ∧ rig.st.life = .active ∧ rig.st.place.tileKey = 0 ∧ rig.st.pend = none) ∧
    (∀ u ∈ rig.st :: rig.others, u.life = .active → u.place.tileKey ≠ 511) ∧
    (let s : State := { rig with frames := putFrames rig.frames 1 2 ⟨.owned, 2, 0, 0, 0⟩ }
     s.ctrFull 1024 = false ∧ (1, 128) ∈ ({ s with svc := { s.svc with integNow := 1 } } : State).pathOf 1024 ∧
       ({ s with lineCtrs := [(1024, 2 ^ 56 - 1)] } : State).ctrFull 1024 = true) := by
  unfold State.Distinct
  exact ⟨by decide, by decide, by decide +kernel, by decide +kernel, by decide +kernel⟩

/-- An image of one block, or of none, stands at address 0 of the host's window, whatever its size. -/
def imageRig (blocks : List ImageBlock) : State :=
  let n := Config.imageSize 0
  let f := { Fn.reset with en := true, migBase := 2 ^ 40, migUnits := n }
  { rig with
    mem := Mem.writeBytes [] (2 ^ 40 * 65536) (genFrom n 0 fun k => Config.imageByte 0 k)
    fns := [(1, f)], images := [⟨0, [], [], [], [], [], blocks⟩] }

theorem imageRig_found (blocks : List ImageBlock) :
    (imageRig blocks).imageAt ((imageRig blocks).fn 1) = some ⟨0, [], [], [], [], [], blocks⟩ := by
  have hf : (imageRig blocks).fn 1 = { Fn.reset with en := true, migBase := 2 ^ 40, migUnits := Config.imageSize 0 } := rfl
  have hb : (imageRig blocks).peekBytes .device (2 ^ 40 * 65536) (Config.imageSize 0) =
      genFrom (Config.imageSize 0) 0 fun k => Config.imageByte 0 k := by
    refine List.ext_getElem? fun i => ?_
    rw [State.peekBytes, genFrom_getElem?, genFrom_getElem?]
    split
    · rename_i hi
      have hl : i < (genFrom (Config.imageSize 0) 0 fun k => Config.imageByte 0 k).length := by rw [genFrom_length]; exact hi
      have h := Mem.read_writeBytes_same (m := []) rfl (2 ^ 40 * 65536) _ hl
      have hg := genFrom_getElem? (Config.imageSize 0) 0 i fun k => Config.imageByte 0 k
      rw [List.getElem?_eq_getElem hl, if_pos hi] at hg
      rw [← hg, ← h]
      rfl
    · rfl
  unfold State.imageAt
  rw [hf]
  simp only [show (imageRig blocks).images = [⟨0, [], [], [], [], [], blocks⟩] from rfl, List.reverse_singleton, List.find?]
  have hn : Config.imageSize 0 ≤ Config.imageSize 0 * 65536 := Nat.le_mul_of_pos_right _ (by decide)
  rw [hb]
  simp [hn]

theorem witness_images :
    (imageRig []).imageAt ((imageRig []).fn 1) = some ⟨0, [], [], [], [], [], []⟩ ∧ ((imageRig []).fn 1).en = true ∧
    ((imageRig []).fn 1).queues = [] ∧ ((imageRig []).fn 1).rbusy = false ∧ ((imageRig []).fn 1).migState = 0 :=
  ⟨imageRig_found [], rfl, rfl, rfl, rfl⟩

/-- A block that no pool here can take. -/
theorem witness_image_unfit : let b : ImageBlock := ⟨1, 4, 16, 8, 0, 0, 1⟩
    (imageRig [b]).imageAt ((imageRig [b]).fn 1) = some ⟨0, [], [], [], [], [], [b]⟩ ∧ (imageRig [b]).blockFits 0 b = false :=
  ⟨imageRig_found _, rfl⟩

/-- A function that may be paused; one that is paused, whose queues are closed, or that is not enabled. -/
theorem witness_pauses :
    ((migRig 0).draperGranules 1 = [] ∧ ∀ u ∈ (migRig 0).st :: (migRig 0).others, u.place.fn = 1 → u.life = .active → u.matrixRuns = false) ∧
    (((migRig 2).fn 1).en = true ∧ (∀ q ∈ ((migRig 2).fn 1).queues, q.2.en = false) ∧ ((migRig 2).fn 1).migRegions = []) ∧
    (let s : State := { rig with fns := [(1, { Fn.reset with migState := 2 })] }
     (s.fn 1).en = false ∧ (s.fn 1).rbusy = false ∧ (s.fn 1).migState = 2) :=
  ⟨⟨by decide, by decide⟩, ⟨rfl, by decide, rfl⟩, rfl, rfl, rfl⟩

/-- A reset of a partition that still runs: a second one is absorbed. -/
theorem witness_resetting :
    (let s := partRig fun p => { p with resetting := true, busy := true }
     (s.part 0).hold = false ∧ (s.part 0).resetting = true) ∧
    (let s : State := { rig with fns := [(1, { Fn.reset with rbusy := true })] }; (s.fn 1).rbusy = true) :=
  ⟨⟨rfl, rfl⟩, rfl⟩

/-- Registers: a free weight entry and one that is not, an MSI-X vector that is pending, masked and not. -/
theorem witness_register_writes :
    rig.svc.powered = true ∧ rig.svc.boot = 7 ∧
    (let w := assoc ((weightRig { sound with en := false, st := 0 }).part 0).weights 3 WeightEntry.clear; w.en = false ∧ w.st = 0) ∧
    (let w := assoc ((weightRig sound).part 0).weights 3 WeightEntry.clear; ¬ (w.en = false ∧ w.st = 0)) ∧
    (({ rig with fns := [(1, { Fn.reset with pba := [63] })] } : State).fn 1).pba.contains 63 = true ∧ bit (2 ^ 32) 32 = true ∧
    bit 0 32 = false ∧ (rig.fn 1).migState ≠ 3 := by
  decide
/-! ## Ill-formed words, one for each check -/

theorem test_ill_formed : ([.vLd 16 1 2 false, .phOpen 6, .slli 1 2 64, .vSt 16 1 2 false, .vAdd 1 33 33 false, .csrr 1 6, .rdw 1 8,
    .qjoin 0, .qjoin 128, .barWait 1 2 2, .xRnd 5, .xPm false false 8, .xOrd 0 1, .xOrd 1 6, .vIota 16 1 0 false, .vPset 8 1 0 false,
    .vCmp 8 1 2 0 false, .vIcmp 1 2 3 6 false, .vPand 1 2 8 false, .vBcr 1 2 64 false, .vBcc 1 2 16 false, .vRedr 1 2 7 false,
    .vCvtq 1 2 5 false, .vRng 1 3 false, .vLoop 8 0 false, .mMma 8 1 2 false, .mSwap 3 false, .mCkpt 1 8 0 0 false, .cBind 8 1 2 0 false,
    .cRwin 1 2 3 7 false, .cDsc 8 1 false false, .bAdd 1 2 3 false false false, .aCfg 1 3 false, .kApp 1 2 3 false false false] :
    List Instr).all (fun i => !i.wellFormed) = true := by decide

/-! ## Results of single words, from the spec's tables -/

/-- A field of the state that a word leaves. -/
def leaves {α : Type} (o : Host.Outcome State Fault Refusal) (f : State → α) : Option α :=
  match o with | .next t => some (f t) | _ => none

/-- s1 = 2⁶³, s2 = −1, s3 = 70. -/
def arith : State := alter rig (regs [(1, 0x8000000000000000), (2, 0xFFFFFFFFFFFFFFFF), (3, 70)])

theorem test_add_wraps : leaves (exec (.add 4 2 2) arith) (fun t => t.st.reg 4) = some 0xFFFFFFFFFFFFFFFE := by decide
theorem test_shift_takes_six_bits : leaves (exec (.sll 4 3 3) arith) (fun t => t.st.reg 4) = some (70 * 64) := by decide
theorem test_sra_keeps_sign : leaves (exec (.srai 4 1 63) arith) (fun t => t.st.reg 4) = some 0xFFFFFFFFFFFFFFFF := by decide
theorem test_slt_is_signed : leaves (exec (.slt 4 1 3) arith) (fun t => t.st.reg 4) = some 1 := by decide
theorem test_sltu_is_unsigned : leaves (exec (.sltu 4 1 3) arith) (fun t => t.st.reg 4) = some 0 := by decide
theorem test_mulhu : leaves (exec (.mulhu 4 1 1) arith) (fun t => t.st.reg 4) = some 0x4000000000000000 := by decide
theorem test_clz_of_zero : leaves (exec (.clz 4 0) arith) (fun t => t.st.reg 4) = some 64 := by decide
theorem test_register_zero : leaves (exec (.add 0 2 2) arith) (fun t => t.st.reg 0) = some 0 := by decide
theorem test_li_is_signed : leaves (exec (.li 4 0x8000) arith) (fun t => t.st.reg 4) = some 0xFFFFFFFFFFFF8000 := by decide
theorem test_call_links : leaves (exec (.call 0x3FFFFF) arith) (fun t => (t.st.pc, t.st.reg 1)) = some (0xFFFFC, 0x100004) := by decide
theorem test_branch_back : leaves (exec (.blt 1 3 0x3FF) arith) (fun t => t.st.pc) = some 0xFFFFC := by decide
end Sys2Proof.Tests
end

/-! The scalar core's arithmetic and branches (R175 to R178, R182): what an immediate is as a word, what each operation is
as one of `BitVec`, and from these the words. -/

namespace Sys2Proof.Machine

/-! ## Immediates (R86, R91) -/

theorem sextNat_toNat {n : Nat} (x : BitVec n) : sextNat x.toNat n = x.toInt := by
  have hx := x.isLt
  simp only [sextNat, Nat.mod_eq_of_lt hx, BitVec.toInt_eq_toNat_cond]
  split <;> split <;> omega

/-- `x.imm` puts its bits before those of the field. -/
theorem toNat_widened {m n : Nat} (h : BitVec m) (f : BitVec n) : (h ++ f).toNat = h.toNat * 2 ^ n + f.toNat := by
  rw [BitVec.toNat_append, ← Nat.shiftLeft_add_eq_or_of_lt f.isLt, Nat.shiftLeft_eq]

theorem wordOfInt_immValue_signed {i : Instr} {n : Nat} {f : BitVec n} (hi : i.immField = some (n, true, f.toNat)) (p : Prefixes) :
    wordOfInt (immValue i p) = signedImm p f := by
  unfold immValue signedImm
  rw [hi]
  cases p.imm with
  | none => exact congrArg wordOfInt (sextNat_toNat f)
  | some h =>
    simp only [if_true, ← toNat_widened, sextNat_toNat]
    rfl

theorem immValue_unsigned {i : Instr} {f : BitVec 10} (hi : i.immField = some (10, false, f.toNat)) (p : Prefixes) :
    immValue i p = (unsignedImm p f).toNat := by
  unfold immValue unsignedImm
  rw [hi]
  cases p.imm with
  | none => exact congrArg _ (BitVec.toNat_setWidth_of_le (by omega)).symm
  | some h => exact congrArg _ ((BitVec.toNat_setWidth_of_le (by omega)).trans (toNat_widened h f)).symm

theorem wordOfInt_toNat (v : Word) : wordOfInt v.toNat = v := by
  simp [wordOfInt]

/-! ## Encodings (R84, R86) -/

/-- The 32 bits of a word hold the whole of its encoding (R84). -/
theorem isWord_of_encodeNat {i : Instr} {e op f : Nat} (hi : i.encodeNat = e * 2 ^ 29 + op * 2 ^ 22 + f)
    (hs : Laws.Encoded.Statement i) : IsWord i e op f := by
  obtain ⟨hfit, -⟩ := hs
  rw [IsWord, encode, BitVec.toNat_ofNat, Nat.mod_eq_of_lt hfit, hi]

/-- A scalar word with a register in field X, and `f` in the fields below it. -/
theorem isWord_of_reg {i : Instr} {x : Reg} {f : Nat} (op : Nat) (hs : Laws.Encoded.Statement i)
    (hi : i.encodeNat = op * 2 ^ 22 + x.toNat * 65536 + f) : IsWord i 0 op (x.toNat * 2 ^ 16 + f) := by
  refine isWord_of_encodeNat ?_ hs
  rw [hi]
  ring

/-- A scalar word with registers in fields X and Y, and `f` in the fields below them. -/
theorem isWord_of_regs {i : Instr} {x y : Reg} {f : Nat} (op : Nat) (hs : Laws.Encoded.Statement i)
    (hi : i.encodeNat = op * 2 ^ 22 + x.toNat * 65536 + y.toNat * 1024 + f) :
    IsWord i 0 op (x.toNat * 2 ^ 16 + y.toNat * 2 ^ 10 + f) := by
  refine isWord_of_encodeNat ?_ hs
  rw [hi]
  ring

/-! ## The operations (R175, R176) -/

theorem sllWord_eq (a b : Word) : sllWord a b = a <<< (b.toNat % 64) := by
  apply BitVec.eq_of_toNat_eq
  rw [sllWord, BitVec.toNat_ofNat, BitVec.toNat_shiftLeft, Nat.shiftLeft_eq]

theorem srlWord_eq (a b : Word) : srlWord a b = a >>> (b.toNat % 64) := by
  apply BitVec.eq_of_toNat_eq
  rw [srlWord, BitVec.toNat_ofNat, BitVec.toNat_ushiftRight, Nat.shiftRight_eq_div_pow,
    Nat.mod_eq_of_lt (Nat.lt_of_le_of_lt (Nat.div_le_self _ _) a.isLt)]

theorem sraWord_eq (a b : Word) : sraWord a b = a.sshiftRight (b.toNat % 64) := by
  rw [sraWord, BitVec.sshiftRight, Int.shiftRight_eq_div_pow]; rfl

theorem mulhWord_eq (a b : Word) :
    mulhWord a b = ((a.signExtend 128 * b.signExtend 128) >>> 64).setWidth 64 := by
  have hp : a.signExtend 128 * b.signExtend 128 = BitVec.ofInt 128 (a.toInt * b.toInt) := (BitVec.ofInt_mul _ _).symm
  rw [hp, mulhWord, wordOfInt]
  generalize a.toInt * b.toInt = x
  apply BitVec.eq_of_toNat_eq
  simp only [BitVec.toNat_setWidth, BitVec.toNat_ushiftRight, BitVec.toNat_ofInt, Nat.shiftRight_eq_div_pow]
  omega

theorem mulhuWord_eq (a b : Word) :
    mulhuWord a b = ((a.setWidth 128 * b.setWidth 128) >>> 64).setWidth 64 := by
  apply BitVec.eq_of_toNat_eq
  simp only [mulhuWord, BitVec.toNat_ofNat, BitVec.toNat_setWidth, BitVec.toNat_ushiftRight, BitVec.toNat_mul,
    Nat.shiftRight_eq_div_pow, Nat.mod_eq_of_lt (Nat.lt_trans a.isLt (by decide : 2 ^ 64 < 2 ^ 128)),
    Nat.mod_eq_of_lt (Nat.lt_trans b.isLt (by decide : 2 ^ 64 < 2 ^ 128))]
  generalize a.toNat * b.toNat = x
  omega

theorem sdiv_eq_wordOfInt (a b : Word) : a.sdiv b = wordOfInt (a.toInt.tdiv b.toInt) :=
  BitVec.eq_of_toInt_eq (by rw [BitVec.toInt_sdiv, wordOfInt, BitVec.toInt_ofInt])

theorem srem_eq_wordOfInt (a b : Word) : a.srem b = wordOfInt (a.toInt.tmod b.toInt) := by
  rw [wordOfInt, ← BitVec.toInt_srem, BitVec.ofInt_toInt]

theorem divWord_eq (a b : Word) : divWord a b = if b = 0 then BitVec.allOnes 64 else a.sdiv b := by
  unfold divWord
  rw [sdiv_eq_wordOfInt]
  split
  · rfl
  · split
    next h =>
      obtain ⟨ha, hb⟩ := h
      rw [← BitVec.ofInt_toInt (x := a), ha, hb]; rfl
    · rfl

theorem divuWord_eq (a b : Word) : divuWord a b = if b = 0 then BitVec.allOnes 64 else a / b := by
  unfold divuWord
  split
  · rfl
  · rw [← BitVec.toNat_udiv, BitVec.ofNat_toNat, BitVec.setWidth_eq]

theorem remWord_eq (a b : Word) : remWord a b = if b = 0 then a else a.srem b := by
  unfold remWord
  rw [srem_eq_wordOfInt, Int.tmod_def]
  split
  · rfl
  · split
    next h =>
      obtain ⟨ha, hb⟩ := h
      rw [ha, hb]; rfl
    · rfl

theorem remuWord_eq (a b : Word) : remuWord a b = if b = 0 then a else a % b := by
  unfold remuWord
  split
  · rfl
  · rw [← BitVec.toNat_umod, BitVec.ofNat_toNat, BitVec.setWidth_eq]

theorem flagWord_decide (c : Prop) [Decidable c] : flagWord (decide c) = if c then 1 else 0 := by
  simp [flagWord]

/-- Of the low `n` bits, those above the first set one from bit `n - 1` down are zero. -/
theorem clzFrom_spec (a : Word) (n : Nat) :
    clzFrom a n ≤ n ∧ (∀ k < clzFrom a n, a.getLsbD (n - 1 - k) = false) ∧
      (clzFrom a n < n → a.getLsbD (n - 1 - clzFrom a n) = true) := by
  induction n with
  | zero => simp [clzFrom]
  | succ n ih =>
    obtain ⟨hle, hzero, hone⟩ := ih
    rw [clzFrom]
    split
    next hn => simp [hn]
    next hn =>
      refine ⟨by omega, ?_, ?_⟩
      · rintro (_ | k) hk
        · simpa using hn
        · have := hzero k (by omega)
          rwa [show n + 1 - 1 - (k + 1) = n - 1 - k by omega]
      · intro hlt
        have := hone (by omega)
        rwa [show n + 1 - 1 - (clzFrom a n + 1) = n - 1 - clzFrom a n by omega]

/-- Of the high `n` bits, those below the first set one from bit `64 - n` up are zero. -/
theorem ctzFrom_spec (a : Word) (n : Nat) (hn : n ≤ 64) :
    ctzFrom a n ≤ n ∧ (∀ k < ctzFrom a n, a.getLsbD (64 - n + k) = false) ∧
      (ctzFrom a n < n → a.getLsbD (64 - n + ctzFrom a n) = true) := by
  induction n with
  | zero => simp [ctzFrom]
  | succ n ih =>
    obtain ⟨hle, hzero, hone⟩ := ih (by omega)
    have hbit : 64 - (n + 1) = 63 - n := by omega
    rw [ctzFrom, hbit]
    split
    next hn => simp [hn]
    next hn =>
      refine ⟨by omega, ?_, ?_⟩
      · rintro (_ | k) hk
        · simpa using hn
        · have := hzero k (by omega)
          rwa [show 63 - n + (k + 1) = 64 - n + k by omega]
      · intro hlt
        have := hone (by omega)
        rwa [show 63 - n + (ctzFrom a n + 1) = 64 - n + ctzFrom a n by omega]

theorem zeroCount_clzFrom (a : Word) : ZeroCount true a (clzFrom a 64) := by
  simpa [ZeroCount] using clzFrom_spec a 64

theorem zeroCount_ctzFrom (a : Word) : ZeroCount false a (ctzFrom a 64) := by
  simpa [ZeroCount] using ctzFrom_spec a 64 (Nat.le_refl _)

/-! ## What steering says of a unit (R87, R102) -/

/-- A unit that steers has passed step 5 of R102, the limits on a widened immediate among its checks. -/
theorem Steers.wideFits {i : Instr} {p : Prefixes} {s : State} (h : Steers i p s) : wideFits i p = true := by
  obtain ⟨-, hc, -⟩ := h
  unfold unitCheck at hc
  split at hc
  · cases hc
  · split at hc
    · cases hc
    next hgood =>
      split at hc
      · cases hc
      · cases hc
        simp only [Bool.or_eq_true, not_or] at hgood
        obtain ⟨⟨-, hw⟩, -⟩ := hgood
        simpa using hw

/-- A widened immediate beyond its word's limit is UNDEF, whatever else the unit breaks. -/
theorem unitCheck_undef_of_wide {i : Instr} {p : Prefixes} {t : Strand} (feat : BitVec 16)
    (hp : Prefixes.ofWords t.pfx noPrefixes = some p) (hw : wideFits i p = false) :
    unitCheck i t feat = .error ⟨.undef, 0, (encode i).setWidth 64⟩ := by
  simp [unitCheck, hp, hw]

/-! ## The words (R175 to R178) -/

theorem computesRR_of_aluRR {w : Reg → Reg → Reg → Instr} {f g : Word → Word → Word}
    (hw : ∀ d a b s, exec (w d a b) s = aluRR (w d a b) d a b s f) (hfg : ∀ x y, f x y = g x y) : ComputesRR w g := by
  intro s p d a b hs
  rw [hw, aluRR, scalarPure_ok hs]
  simp only [hfg]

/-- A word whose immediate is signed. -/
theorem computesRI_signed {w : Reg → Reg → BitVec 10 → Instr} {f : Word → Word → Word}
    (hw : ∀ d a i s, exec (w d a i) s = aluRI (w d a i) d a s f)
    (hi : ∀ d a i, (w d a i).immField = some (10, true, i.toNat)) : ComputesRI w signedImm f := by
  intro s p d a i hs
  rw [hw, aluRI, scalarPure_ok hs, wordOfInt_immValue_signed (hi d a i)]

/-- A shift by an immediate: an `aluRI` word whose unsigned immediate is limited to 63. -/
structure ShiftsByImm (w : Reg → Reg → BitVec 10 → Instr) (f : Word → Word → Word) : Prop where
  runs : ∀ d a i s, exec (w d a i) s = aluRI (w d a i) d a s f
  imm : ∀ d a i, (w d a i).immField = some (10, false, i.toNat)
  limit : ∀ d a i p, wideFits (w d a i) p = decide (immValue (w d a i) p < 64)

theorem shiftsByImm_slli : ShiftsByImm .slli sllWord := ⟨fun _ _ _ _ => rfl, fun _ _ _ => rfl, fun _ _ _ _ => rfl⟩
theorem shiftsByImm_srli : ShiftsByImm .srli srlWord := ⟨fun _ _ _ _ => rfl, fun _ _ _ => rfl, fun _ _ _ _ => rfl⟩
theorem shiftsByImm_srai : ShiftsByImm .srai sraWord := ⟨fun _ _ _ _ => rfl, fun _ _ _ => rfl, fun _ _ _ _ => rfl⟩

theorem ShiftsByImm.wideFits_eq {w : Reg → Reg → BitVec 10 → Instr} {f : Word → Word → Word} (h : ShiftsByImm w f)
    (d a : Reg) (i : BitVec 10) (p : Prefixes) : wideFits (w d a i) p = decide ((unsignedImm p i).toNat < 64) := by
  rw [h.limit, immValue_unsigned (h.imm d a i)]
  exact decide_eq_decide.mpr (by omega)

/-- The amount is below 64, so that it is the whole immediate. -/
theorem ShiftsByImm.computes {w : Reg → Reg → BitVec 10 → Instr} {f : Word → Word → Word} {g : Word → Nat → Word}
    (h : ShiftsByImm w f) (hfg : ∀ x y, f x y = g x (y.toNat % 64)) :
    ComputesRI w unsignedImm (fun a b => g a b.toNat) := by
  intro s p d a i hs
  have hlt : (unsignedImm p i).toNat < 64 := by simpa [h.wideFits_eq] using hs.wideFits
  rw [h.runs, aluRI, scalarPure_ok hs, immValue_unsigned (h.imm d a i), wordOfInt_toNat]
  simp only [hfg, Nat.mod_eq_of_lt hlt]

theorem ShiftsByImm.traps {w : Reg → Reg → BitVec 10 → Instr} {f : Word → Word → Word} (h : ShiftsByImm w f) :
    ShiftTraps w := by
  intro s p d a i hlife hp hlong
  have hwide : wideFits (w d a i) p = false := by
    rw [h.wideFits_eq]
    exact decide_eq_false (Nat.not_lt.mpr hlong)
  rw [Raises, h.runs, aluRI, scalarPure]
  exact steer_trap hlife (unitCheck_undef_of_wide _ hp hwide) _

/-- The immediate of `lui` stands 16 bits up. -/
theorem wordOfInt_mul_65536 (x : Int) : wordOfInt (x * 65536) = wordOfInt x <<< 16 := by
  rw [wordOfInt, BitVec.ofInt_mul, ← BitVec.mul_twoPow_eq_shiftLeft]; rfl

/-! ## Branches (R182) -/

theorem branches_of_branchWord {w : Reg → Reg → BitVec 10 → Instr} {c : Word → Word → Bool} {q : Word → Word → Prop}
    (hw : ∀ a b o s, exec (w a b o) s = branchWord (w a b o) a b s c)
    (hi : ∀ a b o, (w a b o).immField = some (10, true, o.toNat)) (hc : ∀ x y, c x y = true ↔ q x y) : Branches w q := by
  intro s p a b o hs
  have hoff : wordOfInt (4 * immValue (w a b o) p) = 4 * signedImm p o := by
    rw [wordOfInt, BitVec.ofInt_mul, ← wordOfInt_immValue_signed (hi a b o)]; rfl
  have hnext : s.st.nextAddr = s.st.wordAddr + 4 := by
    rw [Strand.nextAddr, Strand.wordAddr, BitVec.ofNat_add, ← BitVec.add_assoc]; rfl
  rw [hw, branchWord, scalarJump_ok hs]
  constructor
  · intro hq
    simp only [(hc _ _).mpr hq, if_true, hoff]; rfl
  · intro hq
    simp only [mt (hc _ _).mp hq, hnext]; rfl

/-- Settles O4: each word is `aluRR` of its operation, and each operation is its row of R175. -/
theorem registerArithmetic : Obligations.RegisterArithmetic := by
  refine ⟨⟨?add, ?sub, ?and, ?or, ?xor, ?sll, ?srl, ?sra, ?slt, ?sltu, ?mul, ?mulh, ?mulhu, ?div, ?divu, ?rem, ?remu,
    ?min, ?max⟩, ?clz, ?ctz, ?cmov, ?words⟩
  case add | sub | and | or | xor | mul | min | max => exact computesRR_of_aluRR (fun _ _ _ _ => rfl) fun _ _ => rfl
  case sll => exact computesRR_of_aluRR (fun _ _ _ _ => rfl) sllWord_eq
  case srl => exact computesRR_of_aluRR (fun _ _ _ _ => rfl) srlWord_eq
  case sra => exact computesRR_of_aluRR (fun _ _ _ _ => rfl) sraWord_eq
  case slt | sltu => exact computesRR_of_aluRR (fun _ _ _ _ => rfl) fun _ _ => flagWord_decide _
  case mulh => exact computesRR_of_aluRR (fun _ _ _ _ => rfl) mulhWord_eq
  case mulhu => exact computesRR_of_aluRR (fun _ _ _ _ => rfl) mulhuWord_eq
  case div => exact computesRR_of_aluRR (fun _ _ _ _ => rfl) divWord_eq
  case divu => exact computesRR_of_aluRR (fun _ _ _ _ => rfl) divuWord_eq
  case rem => exact computesRR_of_aluRR (fun _ _ _ _ => rfl) remWord_eq
  case remu => exact computesRR_of_aluRR (fun _ _ _ _ => rfl) remuWord_eq
  case clz =>
    intro s p d a hs
    refine ⟨_, zeroCount_clzFrom (s.st.reg a), ?_⟩
    show execClz d a s = _
    rw [execClz, scalarPure_ok hs, State.did, State.did]
  case ctz =>
    intro s p d a hs
    refine ⟨_, zeroCount_ctzFrom (s.st.reg a), ?_⟩
    show execCtz d a s = _
    rw [execCtz, scalarPure_ok hs, State.did, State.did]
  case cmov => exact fun s p d a b hs => scalarPure_ok hs _
  case words =>
    exact fun d a b => ⟨isWord_of_reg 0x14 (Laws.Encoded.clz d a) rfl, isWord_of_reg 0x15 (Laws.Encoded.ctz d a) rfl,
      isWord_of_regs 0x16 (Laws.Encoded.cmov d a b) rfl⟩

/-- Settles O5: an immediate word is `aluRI` of its operation; the check of R102 step 5 keeps a shift amount below 64. -/
theorem immediateArithmetic : Obligations.ImmediateArithmetic := by
  refine ⟨⟨?addi, ?andi, ?ori, ?xori, shiftsByImm_slli.computes sllWord_eq, shiftsByImm_srli.computes srlWord_eq,
    shiftsByImm_srai.computes sraWord_eq, shiftsByImm_slli.traps, shiftsByImm_srli.traps, shiftsByImm_srai.traps, ?wordsSI⟩,
    ?li, ?lui, ?auipc, ?wordsSU⟩
  case addi | andi | ori | xori => exact computesRI_signed (fun _ _ _ _ => rfl) fun _ _ _ => rfl
  case wordsSI =>
    exact fun d a i => ⟨isWord_of_regs 0x18 (Laws.Encoded.addi d a i) rfl, isWord_of_regs 0x19 (Laws.Encoded.andi d a i) rfl,
      isWord_of_regs 0x1A (Laws.Encoded.ori d a i) rfl, isWord_of_regs 0x1B (Laws.Encoded.xori d a i) rfl,
      isWord_of_regs 0x1C (Laws.Encoded.slli d a i) rfl, isWord_of_regs 0x1D (Laws.Encoded.srli d a i) rfl,
      isWord_of_regs 0x1E (Laws.Encoded.srai d a i) rfl⟩
  case li =>
    intro s p d i hs
    show execLi d i s = _
    rw [execLi, scalarPure_ok hs, wordOfInt_immValue_signed (f := i) rfl]
  case lui =>
    intro s p d i hs
    show execLui d i s = _
    rw [execLui, scalarPure_ok hs, wordOfInt_mul_65536, wordOfInt_immValue_signed (f := i) rfl]
  case auipc =>
    intro s p d i hs
    show execAuipc d i s = _
    rw [execAuipc, scalarPure_ok hs, wordOfInt_immValue_signed (f := i) rfl]; rfl
  case wordsSU =>
    exact fun d i => ⟨isWord_of_reg 0x20 (Laws.Encoded.li d i) rfl, isWord_of_reg 0x21 (Laws.Encoded.lui d i) rfl,
      isWord_of_reg 0x22 (Laws.Encoded.auipc d i) rfl⟩

/-- Settles O8: each word is `branchWord` of its condition. -/
theorem branching : Obligations.Branching := by
  refine ⟨?beq, ?bne, ?blt, ?bge, ?bltu, ?bgeu, ?words⟩
  case beq => exact branches_of_branchWord (fun _ _ _ _ => rfl) (fun _ _ _ => rfl) fun _ _ => beq_iff_eq
  case bne => exact branches_of_branchWord (fun _ _ _ _ => rfl) (fun _ _ _ => rfl) fun _ _ => bne_iff_ne
  case blt | bge | bltu | bgeu =>
    exact branches_of_branchWord (fun _ _ _ _ => rfl) (fun _ _ _ => rfl) fun _ _ => decide_eq_true_iff
  case words =>
    exact fun a b o => ⟨isWord_of_regs 0x38 (Laws.Encoded.beq a b o) rfl, isWord_of_regs 0x39 (Laws.Encoded.bne a b o) rfl,
      isWord_of_regs 0x3A (Laws.Encoded.blt a b o) rfl, isWord_of_regs 0x3B (Laws.Encoded.bge a b o) rfl,
      isWord_of_regs 0x3C (Laws.Encoded.bltu a b o) rfl, isWord_of_regs 0x3D (Laws.Encoded.bgeu a b o) rfl⟩

end Sys2Proof.Machine
